-- ==== Sys2Proof/Word.lean ====
section
/-! DEFINITION. Words of the machine and their plainest arithmetic (00_scope.md R5, R8). -/

namespace Sys2Proof

/-- A register value, a syllable, a header: 64 bits. -/
abbrev Word := BitVec 64

/-- A byte of memory. -/
abbrev Byte := BitVec 8

/-- A clause address (02_execution.md R27). -/
abbrev Addr56 := BitVec 56

/-- A mask of the 32 threads of a warp. -/
abbrev Mask := BitVec 32

end Sys2Proof
end

