-- ==== Sys2Proof/Syntax.lean ====
section
/-! DEFINITION. The instructions: one constructor of `Instr` per row of spec/opcode_table.json.
The syllables carry their decoded fields (04_encoding.md R68–R79); the machine's own steps carry
the names (package-wide indices) of the parts they act on. -/

namespace Sys2Proof

/-- A special register (R74). -/
inductive Special where
  | tid | tidy | tidz | bid | bidy | bidz | warp | core | die | stage
  | clock | time | wsphase | frame | ctx | rsp | trappc | trapinfo | flags
  | h (n : BitVec 4)
  deriving DecidableEq, Repr

/-- What a 10-bit register specifier names (R72). -/
inductive Operand where
  /-- v0–v255 -/
  | v (r : BitVec 8)
  /-- s0–s511 -/
  | s (r : BitVec 9)
  /-- a special register -/
  | sp (r : Special)
  /-- inline integer; the field is specifier − 0x380, the value the field − 32 -/
  | int (n : BitVec 6)
  /-- entry k of the FP-constant table (R73) -/
  | fp (k : BitVec 5)
  deriving DecidableEq, Repr

/-- A guard (R75). -/
inductive Guard where
  | always
  /-- performed when the depth is true -/
  | on (d : BitVec 3)
  /-- performed when the depth is false -/
  | off (d : BitVec 3)
  deriving DecidableEq, Repr

/-- The integer types, in the order of their codes 0x00–0x0A (R76). -/
inductive ITy where
  | i8 | i16 | i32 | i64 | n8 | n16 | n32 | n64 | i32x2 | i16x4 | i8x8
  deriving DecidableEq, Repr

/-- The float types, in the order of their float indices 0–7 (R76). -/
inductive FTy where
  | f64 | f32 | f32x2 | f16x4 | bf16x4 | e4m3 | e5m2 | e2m1
  deriving DecidableEq, Repr

/-- An integer or a float type. -/
inductive DTy where
  | i (t : ITy)
  | f (t : FTy)
  deriving DecidableEq, Repr

/-- The four types of the arithmetic immediate forms (R79). -/
inductive ImTy where
  | i32 | n32 | i64 | n64
  deriving DecidableEq, Repr

/-- Rounding modes (R77). -/
inductive Rm where
  | rne | rtz | rdn | rup | rna
  deriving DecidableEq, Repr

/-- The conditions of tests and compares (R51). -/
inductive Cond where
  | eq | ne | lt | le | gt | ge | un | or | tst | tcl
  deriving DecidableEq, Repr

/-- The conditions of WAITA (R198). -/
inductive WCond where
  | eq | ne | lt | le | gt | ge
  deriving DecidableEq, Repr

/-- Access sizes (R68). -/
inductive Size where
  | b | h | w | d
  deriving DecidableEq, Repr

/-- Access orders (R68). -/
inductive Order where
  | plain | acq | rel | acqrel
  deriving DecidableEq, Repr

/-- Scopes (R68, R263). -/
inductive Scope where
  | core | span | die | pkg | dom | sys
  deriving DecidableEq, Repr

/-- Operations of SCAN and REDW (R204). -/
inductive ScanOp where
  | add | min | max | and | or | xor
  deriving DecidableEq, Repr

/-- A float source with its negate and abs modifiers (R78). -/
structure FSrc where
  o   : Operand
  neg : Bool
  abs : Bool
  deriving DecidableEq, Repr

/-- The common fields of a memory-format access: guard, base (a v or s register), size, order,
scope, byte offset (R68). -/
structure Mem where
  g     : Guard
  base  : Operand
  size  : Size
  order : Order
  scope : Scope
  off   : BitVec 22
  deriving DecidableEq, Repr

/-- The common fields of an indexed access (R70). -/
structure Idx where
  g     : Guard
  base  : Operand
  index : Operand
  scale : BitVec 2
  size  : Size
  deriving DecidableEq, Repr

/-- The common fields of an atomic (R78, R193): the destination is absent under the no-result bit;
`dbl` is size 3. -/
structure Atom where
  g     : Guard
  d     : Option (BitVec 8)
  a     : Operand
  b     : Operand
  dbl   : Bool
  order : Order
  scope : Scope
  deriving DecidableEq, Repr

/-- The shape of a small-matrix instruction (R166): window precision and R − 1, C − 1. -/
structure Shape where
  dbl  : Bool
  rows : BitVec 3
  cols : BitVec 3
  deriving DecidableEq, Repr

/-- A sweep command's operands (R230). -/
structure Sweep where
  g   : Guard
  d   : Operand
  a   : Operand
  b   : Operand
  c   : Operand
  sat : Bool
  deriving DecidableEq, Repr

/-- A copy command's operands (R232). -/
structure Copy where
  g     : Guard
  d     : Operand
  a     : Operand
  b     : Operand
  c     : Operand
  scope : Scope
  deriving DecidableEq, Repr

/-- A system call's operands (R314). -/
structure Call where
  g : Guard
  d : BitVec 8
  a : Operand
  b : Operand
  c : Operand
  deriving DecidableEq, Repr

/-- Which warps dbg_set selects (R397): one warp of a block, or every warp of the context. -/
inductive WarpSel where
  | all
  | one (block : Nat) (warp : Nat)
  deriving DecidableEq, Repr

/-- Breakpoint settings (R397). -/
structure Bp where
  addr   : Addr56
  mask   : Mask
  enable : Bool
  deriving DecidableEq, Repr

/-- Watchpoint settings (R397). -/
structure Wp where
  addr : Addr56
  sp   : Bool
  size : BitVec 4
  acc  : BitVec 2
  mask : Mask
  deriving DecidableEq, Repr

/-- The debug settings of a warp: four breakpoints, four watchpoints and two enable bits (R397). -/
structure DbgSet where
  bps  : Vector Bp 4
  wps  : Vector Wp 4
  step : Bool
  bkpt : Bool
  deriving DecidableEq, Repr

/-- The store in which an error is found (R374, R377). -/
inductive ErrStore where
  | laneFile | uniform | scratchpad | l1Data | l1Instr | l2 | hbm | weight | dieTables
  deriving DecidableEq, Repr, Inhabited

/-- Where an uncorrectable error is found, and so whose work it ends (R375). -/
inductive ErrSite where
  /-- data returning to operation `id` -/
  | load (id : Nat)
  /-- a store, state or register of the warp or block of launch `l` -/
  | owned (l : Nat)
  /-- an engine's read for command `id` -/
  | command (id : Nat)
  /-- a dirty L2 line, L2 tags, a residency table, the die scheduler or Seedbed -/
  | dieWide
  /-- a clause fetch of warp slot `turn.ix` -/
  | instr
  deriving DecidableEq, Repr, Inhabited

/-- The operations of ATOM (R193) and FATOM (R194). -/
inductive AtomOp where
  | add | minI | minN | maxI | maxN | and | or | xor | xchg | cas | incwrap | fadd | fmin | fmax
  deriving DecidableEq, Repr

/-- One access of a host-die core, a PCIe endpoint or a peer (R274, R378, R246): physical. -/
inductive ExtAccess where
  | read (pa : Nat) (n : Nat)
  | write (pa : Nat) (bytes : List Byte)
  /-- an atomic performed at the home (R246) -/
  | atom (op : AtomOp) (pa : Nat) (dbl : Bool) (b c : Word)
  /-- an ordered contribution of a peer's launch: its key's class, block, rank and seq (R246) -/
  | contribute (pa : Nat) (dbl : Bool) (val : Word) (launch cls block rank seq : Nat)
  /-- a load of thread `thread` of a peer that reserves the granule (R190, R246) -/
  | lres (pa : Nat) (dbl : Bool) (thread : Nat)
  | scond (pa : Nat) (dbl : Bool) (val : Word) (thread : Nat)
  /-- an application of the word's ordered queue (R195, R246) -/
  | ordf (pa : Nat) (dbl : Bool)
  /-- a fence that orders earlier against later accesses (R274) -/
  | fence
  deriving DecidableEq, Repr

/-- Which of a package's 16 Trellis ports are up, and the packages that each port reaches (R326, R380). -/
structure Ports where
  up    : BitVec 16
  reach : List (BitVec 64)
  deriving DecidableEq, Repr

/-- Who calls bbox_read, secure system software or other, and the buffer it gives (R385, R402). -/
structure BboxCall where
  secure : Bool
  buffer : Nat
  deriving DecidableEq, Repr

/-- Reduction-cell operations and formats (R327). -/
inductive CellOp where
  | add | min | max
  deriving DecidableEq, Repr

inductive CellFmt where
  | f32 | f64 | bf16 | i32 | i64
  deriving DecidableEq, Repr

/-- What cell_config gives a cell (R327). -/
structure CellCfg where
  members : BitVec 64
  op      : CellOp
  fmt     : CellFmt
  window  : Nat
  result  : Nat
  round   : Nat
  deriving DecidableEq, Repr

/-- A boot image as flash or the recovery device holds it: the header's 0x1000 bytes, and what follows
them (R317). -/
structure Image where
  head : List Byte
  body : List Byte
  deriving DecidableEq, Repr

/-- What a firmware run of step 5 of R316 puts in place: the region table's entries and the world of each
package core (secure cores). The capability list of step 6 is the part's own (Boot.lean). -/
structure FwSetup where
  regions : List (Nat × (Word × Word))
  secure  : List Nat
  deriving DecidableEq, Repr

/-- The parts of the machine that its next own step acts on (02_execution.md R23 leaves open which
enabled step comes next).  Each step says which of these it reads. -/
structure Turn where
  /-- the first index: a warp, lane, sub-core, core, launch, queue, command, load, block or context -/
  ix    : Nat
  /-- the second index: an item on its way, a thread, a die, a line or a place -/
  k     : Nat
  /-- the third -/
  m     : Nat
  flag  : Bool
  store : ErrStore
  site  : ErrSite
  deriving DecidableEq, Repr, Inhabited

/-- The instructions: every row of the table. -/
inductive Instr where
  -- the machine's own steps
  | cellContribution (cell : Nat) (pkg : Nat) (data : List Byte)
  | packageReset (primary recovery : Image) (fw : FwSetup)
  | ctxCreate (secure : Bool) (root : Nat) (backing backingSize save : Word) (excl : List Nat)
      (imports : List (Word × Word))
  | queueCreate (ctx : Nat) (header : Word) (die : Nat)
  | shootdown (ctx : Nat) (va size : Nat)
  | preempt (ctx die : Nat)
  | restore (ctx die : Nat) (excl : List Nat)
  | cellConfig (cell : Nat) (cfg : CellCfg)
  | attest (nonce : BitVec 256)
  | launchEnd (ctx : Nat) (header : Word) (index : Nat)
  | trapSet (ctx : Nat) (handler : Addr56) (kinds : BitVec 28)
  | dbgSet (ctx : Nat) (sel : WarpSel) (cfg : DbgSet)
  | dbgRead (ctx w : Nat) (t : BitVec 5) (sel : Word)
  | dbgWrite (ctx w : Nat) (t : BitVec 5) (sel val : Word)
  | dbgResume (ctx w : Nat) (action : Nat) (val : Word)
  | bboxRead (die : Nat) (call : BboxCall)
  -- page 0
  | add (g : Guard) (d a b : Operand) (ty : ITy) (sat : Bool)
  | sub (g : Guard) (d a b : Operand) (ty : ITy) (sat : Bool)
  | mul (g : Guard) (d a b : Operand) (ty : ITy) (sat : Bool)
  | mulh (g : Guard) (d a b : Operand) (ty : ITy)
  | mad (g : Guard) (d a b c : Operand) (ty : ITy) (sat : Bool)
  | madw (g : Guard) (d a b c : Operand) (signed : Bool) (sat : Bool)
  | div (g : Guard) (d a b : Operand) (ty : ITy) (sat : Bool)
  | rem (g : Guard) (d a b : Operand) (ty : ITy)
  | min (g : Guard) (d a b : Operand) (ty : ITy)
  | max (g : Guard) (d a b : Operand) (ty : ITy)
  | abs (g : Guard) (d a : Operand) (ty : ITy) (sat : Bool)
  | neg (g : Guard) (d a : Operand) (ty : ITy) (sat : Bool)
  | lea (g : Guard) (d a b c : Operand) (ty : ITy)
  | addImm (g : Guard) (d a : Operand) (ty : ImTy) (imm : BitVec 29)
  | subRevImm (g : Guard) (d a : Operand) (ty : ImTy) (imm : BitVec 29)
  | mulImm (g : Guard) (d a : Operand) (ty : ImTy) (imm : BitVec 29)
  | minImm (g : Guard) (d a : Operand) (ty : ImTy) (imm : BitVec 29)
  | maxImm (g : Guard) (d a : Operand) (ty : ImTy) (imm : BitVec 29)
  | leaImm (g : Guard) (d a : Operand) (imm : BitVec 29)
  -- page 1
  | and (g : Guard) (d a b : Operand) (ty : DTy)
  | or (g : Guard) (d a b : Operand) (ty : DTy)
  | xor (g : Guard) (d a b : Operand) (ty : DTy)
  | andn (g : Guard) (d a b : Operand) (ty : DTy)
  | truth (g : Guard) (d a b c : Operand) (table : BitVec 8)
  | shl (g : Guard) (d a b : Operand) (ty : ITy)
  | shr (g : Guard) (d a b : Operand) (ty : ITy)
  | sar (g : Guard) (d a b : Operand) (ty : ITy)
  | rotl (g : Guard) (d a b : Operand) (ty : ITy)
  | fshl (g : Guard) (d a b c : Operand) (ty : ImTy)
  | bfx (g : Guard) (d a b c : Operand) (ty : ITy)
  | bfi (g : Guard) (d a b c : Operand) (ty : ITy)
  | popc (g : Guard) (d a : Operand) (ty : ITy)
  | clz (g : Guard) (d a : Operand) (ty : ITy)
  | ctz (g : Guard) (d a : Operand) (ty : ITy)
  | brev (g : Guard) (d a : Operand) (ty : ITy)
  | andImm (g : Guard) (d a : Operand) (imm : BitVec 29)
  | orImm (g : Guard) (d a : Operand) (imm : BitVec 29)
  | xorImm (g : Guard) (d a : Operand) (imm : BitVec 29)
  | andnImm (g : Guard) (d a : Operand) (imm : BitVec 29)
  | shlImm (g : Guard) (d a : Operand) (imm : BitVec 29)
  | shrImm (g : Guard) (d a : Operand) (imm : BitVec 29)
  | sarImm (g : Guard) (d a : Operand) (imm : BitVec 29)
  | rotlImm (g : Guard) (d a : Operand) (imm : BitVec 29)
  | movi (g : Guard) (d : Operand) (imm : BitVec 29)
  | moviW (g : Guard) (d : Operand) (imm : BitVec 32)
  | movhi (g : Guard) (d : Operand) (imm : BitVec 32)
  | mov (g : Guard) (d a : Operand) (ty : DTy)
  | sel (g : Guard) (d a b : Operand) (k : BitVec 3)
  -- page 2
  | cmp (g : Guard) (c : Cond) (a b : Operand) (ty : ITy)
  | cmpImm (g : Guard) (c : Cond) (a : Operand) (ty : ITy) (imm : BitVec 29)
  | fcmp (g : Guard) (c : Cond) (a b : Operand) (dbl : Bool) (nf : Bool)
  | testCmpReg (c : Cond) (a b : Operand) (ty : DTy)
  | testCmpImm (c : Cond) (a : Operand) (ty : ITy) (imm : BitVec 24)
  | testPred (clr : Bool) (d : BitVec 3)
  | pcomb (g : Guard) (table : BitVec 8) (x y z : BitVec 3)
  | pdrop (g : Guard) (n : BitVec 4)
  | pget (g : Guard) (d : Operand)
  | pset (g : Guard) (a : Operand)
  | ballot (g : Guard) (d : Operand) (k : BitVec 3) (inv : Bool)
  | first (g : Guard) (d : BitVec 9) (a : Operand)
  | srd (g : Guard) (d : BitVec 8) (a : Operand)
  | swr (g : Guard) (x : Special) (a : Operand)
  -- leaves
  | leafJmp (off : BitVec 32)
  | leafJmpi (r : Operand)
  | leafCall (off : BitVec 32)
  | leafCalli (r : Operand)
  | leafTrap (code : BitVec 12)
  -- page 3
  | fadd (g : Guard) (d : Operand) (a b : FSrc) (ty : FTy) (rm : Rm) (nf : Bool)
  | fmul (g : Guard) (d : Operand) (a b : FSrc) (ty : FTy) (rm : Rm) (nf : Bool)
  | fma (g : Guard) (d : Operand) (a b : FSrc) (c : Operand) (negc : Bool) (ty : FTy) (rm : Rm)
      (nf : Bool)
  | fmin (g : Guard) (d : Operand) (a b : FSrc) (ty : FTy) (num : Bool) (nf : Bool)
  | fmax (g : Guard) (d : Operand) (a b : FSrc) (ty : FTy) (num : Bool) (nf : Bool)
  | frnd (g : Guard) (d : Operand) (a : FSrc) (ty : FTy) (rm : Rm) (nf : Bool)
  | fscale (g : Guard) (d : Operand) (a : FSrc) (b : Operand) (ty : FTy) (rm : Rm) (nf : Bool)
  | fclass (g : Guard) (d : Operand) (a : FSrc) (ty : FTy) (nf : Bool)
  | fexpo (g : Guard) (d : Operand) (a : FSrc) (ty : FTy) (nf : Bool)
  -- page 4
  | fcvt (g : Guard) (d a b c : Operand) (dst src : FTy) (rm : Rm) (sat nf : Bool)
  | cvti (g : Guard) (d a b c : Operand) (dst : ITy) (src : FTy) (rm : Rm) (sat nf : Bool)
  | cvtf (g : Guard) (d a b c : Operand) (dst : FTy) (src : ITy) (rm : Rm) (sat nf : Bool)
  | rcp (g : Guard) (d a : Operand) (ty : FTy) (fast : Bool) (rm : Rm) (nf : Bool)
  | rsq (g : Guard) (d a : Operand) (ty : FTy) (fast : Bool) (rm : Rm) (nf : Bool)
  | sqrt (g : Guard) (d a : Operand) (ty : FTy) (fast : Bool) (rm : Rm) (nf : Bool)
  | divF (g : Guard) (d a b : Operand) (ty : FTy) (fast : Bool) (rm : Rm) (nf : Bool)
  | exp2 (g : Guard) (d a : Operand) (ty : FTy) (fast : Bool) (rm : Rm) (nf : Bool)
  | log2 (g : Guard) (d a : Operand) (ty : FTy) (fast : Bool) (rm : Rm) (nf : Bool)
  | sin (g : Guard) (d a : Operand) (ty : FTy) (fast : Bool) (rm : Rm) (nf : Bool)
  | cos (g : Guard) (d a : Operand) (ty : FTy) (fast : Bool) (rm : Rm) (nf : Bool)
  | tanh (g : Guard) (d a : Operand) (ty : FTy) (fast : Bool) (rm : Rm) (nf : Bool)
  | sigm (g : Guard) (d a : Operand) (ty : FTy) (fast : Bool) (rm : Rm) (nf : Bool)
  | erf (g : Guard) (d a : Operand) (ty : FTy) (fast : Bool) (rm : Rm) (nf : Bool)
  -- page 5
  | mld (g : Guard) (m : BitVec 4) (dbl : Bool) (base : Operand) (off : BitVec 22)
  | mst (g : Guard) (m : BitVec 4) (dbl : Bool) (base : Operand) (off : BitVec 22)
  | mset (g : Guard) (d : BitVec 4) (a b : Operand) (sh : Shape) (nf : Bool)
  | mmov (g : Guard) (d a : BitVec 4) (sh : Shape) (nf : Bool)
  | mtr (g : Guard) (d a : BitVec 4) (sh : Shape) (nf : Bool)
  | mmul (g : Guard) (d a b : BitVec 4) (k : BitVec 3) (sh : Shape) (nf : Bool)
  | mmad (g : Guard) (d a b : BitVec 4) (k : BitVec 3) (sh : Shape) (nf : Bool)
  | mmv (g : Guard) (d a b : BitVec 4) (acc : Bool) (sh : Shape) (nf : Bool)
  | mchol (g : Guard) (d a : BitVec 4) (sh : Shape) (nf : Bool)
  | mlup (g : Guard) (d a : BitVec 4) (vp : BitVec 8) (sh : Shape) (nf : Bool)
  | mlus (g : Guard) (d a b : BitVec 4) (vp : Operand) (sh : Shape) (nf : Bool)
  | mtrs (g : Guard) (d a b : BitVec 4) (mode : BitVec 2) (sh : Shape) (nf : Bool)
  | mdet (g : Guard) (d : BitVec 8) (a : BitVec 4) (sh : Shape) (nf : Bool)
  -- page 6
  | ldN (d : BitVec 8) (m : Mem)
  | ldI (d : BitVec 8) (m : Mem)
  | st (data : Operand) (m : Mem)
  | ldSpN (d : BitVec 8) (m : Mem)
  | ldSpI (d : BitVec 8) (m : Mem)
  | stSp (data : Operand) (m : Mem)
  | ldWsN (d : BitVec 8) (m : Mem)
  | ldWsI (d : BitVec 8) (m : Mem)
  | ldSpPeekN (d : BitVec 8) (m : Mem)
  | ldSpPeekI (d : BitVec 8) (m : Mem)
  | ldxN (d : BitVec 8) (x : Idx)
  | ldxI (d : BitVec 8) (x : Idx)
  | stx (data : Operand) (x : Idx)
  | ldxSpN (d : BitVec 8) (x : Idx)
  | ldxSpI (d : BitVec 8) (x : Idx)
  | stxSp (data : Operand) (x : Idx)
  | ldu (d : BitVec 9) (m : Mem)
  | pref (g : Guard) (base : Operand) (l2 : Bool) (off : BitVec 22)
  | lres (d : BitVec 8) (m : Mem)
  | scond (g : Guard) (d : BitVec 8) (a b : Operand) (dbl : Bool) (order : Order) (scope : Scope)
  | atomAdd (x : Atom)
  | atomMinI (x : Atom)
  | atomMinN (x : Atom)
  | atomMaxI (x : Atom)
  | atomMaxN (x : Atom)
  | atomAnd (x : Atom)
  | atomOr (x : Atom)
  | atomXor (x : Atom)
  | atomXchg (x : Atom)
  | atomCas (x : Atom) (c : Operand)
  | atomIncwrap (x : Atom)
  | atomSpAdd (x : Atom)
  | atomSpMinI (x : Atom)
  | atomSpMinN (x : Atom)
  | atomSpMaxI (x : Atom)
  | atomSpMaxN (x : Atom)
  | atomSpAnd (x : Atom)
  | atomSpOr (x : Atom)
  | atomSpXor (x : Atom)
  | atomSpXchg (x : Atom)
  | atomSpCas (x : Atom) (c : Operand)
  | atomSpIncwrap (x : Atom)
  | fatomAdd (x : Atom)
  | fatomMin (x : Atom)
  | fatomMax (x : Atom)
  | fatomAddOrd (g : Guard) (a b : Operand) (dbl : Bool)
  | fatomSpAdd (x : Atom)
  | fatomSpMin (x : Atom)
  | fatomSpMax (x : Atom)
  | ordf (m : Mem)
  | fence (g : Guard) (order : Order) (scope : Scope)
  | waita (g : Guard) (d : BitVec 8) (a b c : Operand) (dbl : Bool) (cond : WCond) (signed sp : Bool)
  -- page 7
  | xcfg (g : Guard) (k : BitVec 2) (s : BitVec 9)
  | xmov (g : Guard) (d : BitVec 8) (a : Operand) (k : BitVec 2)
  | lread (g : Guard) (d a : BitVec 8) (b c : Operand) (width : BitVec 2)
  | scan (g : Guard) (d : BitVec 8) (a : Operand) (seg : Option (BitVec 3)) (rm : Rm) (sat : Bool)
      (ty : DTy) (op : ScanOp)
  | redw (g : Guard) (d : Operand) (a : Operand) (rm : Rm) (sat : Bool) (ty : DTy) (op : ScanOp)
  | barArrive (g : Guard) (n : BitVec 8)
  | barWait (g : Guard) (n : BitVec 8)
  | barSync (g : Guard) (n : BitVec 8)
  | barx (g : Guard) (n : BitVec 8) (a : Operand) (ded : Bool)
  | jset (g : Guard) (j : BitVec 4)
  | jsetUniform (g : Guard) (j : BitVec 4) (s : BitVec 9)
  | join (g : Guard) (j : BitVec 4)
  | jarr (g : Guard) (j : BitVec 4)
  | jqry (g : Guard) (d : Operand) (j : BitVec 4) (sel : BitVec 2)
  -- page 8
  | own (g : Guard) (d : BitVec 8) (a b : Operand)
  | ringget (g : Guard) (q : BitVec 4) (a b : Operand)
  | ringput (g : Guard) (q : BitVec 4) (a : Operand)
  | mxmac (g : Guard) (acc : Operand) (a b : BitVec 9) (fmt : Operand) (str : BitVec 2) (j : BitVec 4)
  | mxsmac (g : Guard) (acc : Operand) (a b : BitVec 9) (fmt : Operand) (str : BitVec 2) (j : BitVec 4)
      (resume : Bool)
  | mxzero (g : Guard) (acc : Operand) (str : BitVec 2) (j : BitVec 4)
  | mxwait (g : Guard) (d : BitVec 8) (mask : BitVec 4)
  | mxtokGive (g : Guard) (a : Operand)
  | mxtokTake (g : Guard)
  -- page 9
  | vswAdd (x : Sweep)
  | vswMul (x : Sweep)
  | vswFma (x : Sweep)
  | vswMax (x : Sweep)
  | vswMin (x : Sweep)
  | vswExp (x : Sweep)
  | vswCvt (x : Sweep)
  | vswScl (x : Sweep)
  | vswRsum (x : Sweep)
  | vswRmax (x : Sweep)
  | vswait (g : Guard)
  -- page 10
  | cpyIn (x : Copy) (ws : Bool)
  | cpyOut (x : Copy)
  | cpyRows (x : Copy)
  | cpyFill (x : Copy)
  | cpyWs (x : Copy)
  -- page 11
  | tspawn (g : Guard) (a : Operand)
  | tjob (g : Guard) (a : Operand)
  | tdone (g : Guard)
  | tilereg (g : Guard) (d : BitVec 8) (a b : Operand)
  | tileq (g : Guard) (d : BitVec 8) (a : Operand)
  | tiledrop (g : Guard) (a b : Operand)
  | grow (g : Guard) (n : BitVec 3)
  | shed (g : Guard) (n : BitVec 3)
  -- page 12
  | syscVersion (x : Call)
  | syscAlloc (x : Call)
  | syscFree (x : Call)
  | syscPrint (x : Call)
  | syscResolve (x : Call)
  | syscNotify (x : Call)
  | syscAbort (x : Call)
  | syscCapread (x : Call)
  | syscEscalate (x : Call)
  | syscUnassigned (n : BitVec 8) (x : Call)
  | trd (g : Guard) (d : BitVec 8) (a b : Operand)
  | twr (g : Guard) (a b c : Operand)
  /-- the step a TWR of 0 to selector 0x130 takes (R240); it has no encoding of its own -/
  | twrKill (g : Guard) (a : Operand)
  | tret (g : Guard)
  | bkpt (g : Guard) (n : BitVec 8)
  -- deprecated (R81–R83)
  | ldq (g : Guard) (d : BitVec 8) (base : Operand) (off : BitVec 22)
  | dot4 (g : Guard) (d : BitVec 8) (a b c : Operand) (signed : Bool)
  | barw (g : Guard) (n : BitVec 8)
  -- accesses and changes from outside the compute dies
  | hostCoreAccess (secure : Bool) (x : ExtAccess)
  | pcieEndpointAccess (x : ExtAccess)
  | peerPackageAccess (pkg : Nat) (x : ExtAccess)
  | regionTableWrite (entry : Nat) (w0 w1 : Word)
  | domainBringUp (id : Nat) (members : BitVec 64) (ports : Ports)
  -- syllables without a field
  | nop
  | yield
  | leafNext
  | leafRet
  | leafExit
  | ifence
  -- the machine's own steps that name their parts through `Turn`
  | clauseIssue
  | serialIssue
  | subcoreGrant
  | warpSwap
  | stallLimitExpiry
  | holdLimitExpiry
  | loadCompletion
  | storePerform
  | atomicAtHome
  | orderedContributionArrival
  | ordfApplication
  | commandAccept
  | commandComplete
  | waitaReread
  | waitaTimeout
  | growGrant
  | wsRefreshSlot
  | launchRecordRead
  | blockAdmission
  | cooperativeAdmission
  | gangStart
  | launchCompletion
  | seedbedDeal
  | softSave
  | gracePeriodExpiry
  | blockImageWrite
  | restoreRetry
  | handlerStart
  | correctedError
  | scrubCorrection
  | uncorrectableError
  | pcieTimeout
  | peerUnreachable
  | l1LineEviction
  | ctxDestroy
  | dbgAttach
  | dbgDetach
  | peerApplicationRequest
  deriving DecidableEq, Repr, Inhabited

end Sys2Proof
end

