-- ==== Sys2Proof/WellFormed.lean ====
section
/-! DEFINITION. Which instructions are well formed: the limits of types, operands, orders and
shapes that 22_faults_instructions.md (R351–R361) judges from a syllable's bits alone, beyond what
the fields of `Instr` already exclude. A syllable that breaks one raises reserved use (kind 6). -/

namespace Sys2Proof

/-- Not an FP constant: what stands under an integer type or where no type is named (R73, R351). -/
def Operand.noFp : Operand → Bool
  | .fp _ => false
  | _ => true

/-- v0–v255 or s0–s511. -/
def Operand.isReg : Operand → Bool
  | .v _ | .s _ => true
  | _ => false

/-- v0–v255. -/
def Operand.isV : Operand → Bool
  | .v _ => true
  | _ => false

/-- A v register, a uniform register or an inline integer (R180, R211). -/
def Operand.isCmd : Operand → Bool
  | .v _ | .s _ | .int _ => true
  | _ => false

/-- A source whose value is the same in every thread of an issue (R133). -/
def Operand.isUniform : Operand → Bool
  | .s _ | .int _ | .fp _ => true
  | .sp .bid | .sp .bidy | .sp .bidz | .sp .warp | .sp .core | .sp .die | .sp .stage => true
  | _ => false

/-- A destination of page 0 or 1: a v register, or a uniform one when every source is uniform
(R133). -/
def dstOk (d : Operand) (srcs : List Operand) : Bool :=
  match d with
  | .v _ => true
  | .s _ => srcs.all Operand.isUniform
  | _ => false

/-- Index of an integer type (R76). -/
def ITy.idx : ITy → Nat
  | .i8 => 0 | .i16 => 1 | .i32 => 2 | .i64 => 3 | .n8 => 4 | .n16 => 5 | .n32 => 6 | .n64 => 7
  | .i32x2 => 8 | .i16x4 => 9 | .i8x8 => 10

/-- A scalar integer type. -/
def ITy.scalar (t : ITy) : Bool := t.idx < 8

/-- A signed integer type: the .i types and the packed ones (R131). -/
def ITy.signed (t : ITy) : Bool := t.idx < 4 || 8 ≤ t.idx

/-- Index of a float type (R76). -/
def FTy.idx : FTy → Nat
  | .f64 => 0 | .f32 => 1 | .f32x2 => 2 | .f16x4 => 3 | .bf16x4 => 4 | .e4m3 => 5 | .e5m2 => 6
  | .e2m1 => 7

/-- A type of page-3 arithmetic, .f64 to .bf16x4 (R110). -/
def FTy.arith (t : FTy) : Bool := t.idx < 5

/-- An operand under an integer type or an arithmetic float type; FP constants only under the
latter (R73, R138). -/
def Operand.okUnder (o : Operand) : DTy → Bool
  | .i _ => o.noFp
  | .f _ => true

/-- The types of the logic instructions, MOV, SCAN and REDW (R138, R142, R204). -/
def DTy.ok : DTy → Bool
  | .i _ => true
  | .f t => t.arith

/-- A conversion source under its float type: an FP constant only where the type is one of page 3; an inline
integer denotes its value under each (R72, R73). -/
def Operand.okConv (o : Operand) (t : FTy) : Bool :=
  match o with
  | .fp _ => t.arith
  | _ => true

/-- Element counts (R131, R159). -/
def ITy.count : ITy → Nat
  | .i32x2 => 2 | .i16x4 => 4 | .i8x8 => 8
  | _ => 1

def FTy.count : FTy → Nat
  | .f64 | .f32 => 1 | .f32x2 => 2 | .f16x4 | .bf16x4 => 4 | .e4m3 | .e5m2 => 8 | .e2m1 => 16

/-- Order and scope: a plain access names scope 0 (R69, R182). -/
def ordOk (o : Order) (sc : Scope) (allowed : List Order) : Bool :=
  allowed.contains o && (o != .plain || sc == .core)

def Mem.ok (m : Mem) (allowed : List Order) : Bool := m.base.isReg && ordOk m.order m.scope allowed

/-- A word or a double word. -/
def Size.wide : Size → Bool
  | .w | .d => true
  | _ => false

def Idx.ok (x : Idx) : Bool := x.base.isReg && x.index.isReg

/-- The address of an atomic is a v or s register (R177, R193). -/
def Atom.ok (x : Atom) (fp : Bool) : Bool :=
  x.a.isReg && (fp || x.b.noFp) && ordOk x.order x.scope [.plain, .acq, .rel, .acqrel]

/-- A window of the precision exists (R164). -/
def winOk (dbl : Bool) (m : BitVec 4) : Bool := m.toNat ≤ (if dbl then 8 else 9)

/-- Row and column codes 0 to 5 (R166). -/
def Shape.ok (sh : Shape) : Bool := sh.rows.toNat ≤ 5 && sh.cols.toNat ≤ 5

def Shape.square (sh : Shape) : Bool := sh.ok && sh.rows == sh.cols

/-- The rounding mode of a special function (R161). -/
def fnOk (ty : FTy) (fast : Bool) (rm : Rm) : Bool := ty.arith && (!fast || rm == .rne)

def Cond.bit : Cond → Bool
  | .tst | .tcl => true
  | _ => false

/-- SCAN and REDW (R204, R357). -/
def scanOk (rm : Rm) (sat : Bool) (ty : DTy) (op : ScanOp) : Bool :=
  match ty with
  | .i _ => rm == .rne && (!sat || op == .add)
  | .f t => t.arith && !sat && (op == .add || op == .min || op == .max)

def Sweep.ok (x : Sweep) : Bool := x.d.isCmd && x.a.isCmd && x.b.isCmd && x.c.isCmd

/-- A sweep of one source leaves b at 0x000 (R230). -/
def Sweep.ok1 (x : Sweep) : Bool := x.ok && x.b == .v 0

def Copy.ok (x : Copy) : Bool := x.d.isCmd && x.a.isCmd && x.b.isCmd && x.c.isCmd

def Call.ok (x : Call) : Bool := x.a.isCmd && x.b.isCmd && x.c.isCmd

/-- The warp collectives (R56). -/
def Instr.collective : Instr → Bool
  | .scan .. | .redw .. | .ballot .. | .first .. | .xmov .. => true
  | _ => false

/-- The test syllables (R51). -/
def Instr.isTest : Instr → Bool
  | .testCmpReg .. | .testCmpImm .. | .testPred .. => true
  | _ => false

/-- The leaf syllables (R52). -/
def Instr.isLeaf : Instr → Bool
  | .leafNext | .leafJmp _ | .leafJmpi _ | .leafCall _ | .leafCalli _ | .leafRet | .leafExit
  | .leafTrap _ => true
  | _ => false

/-- The machine's own steps and the outside's accesses, which no syllable encodes; twrKill is the
step a TWR takes at run time (R240). -/
def Instr.isStep : Instr → Bool
  | .clauseIssue | .serialIssue | .subcoreGrant | .warpSwap | .stallLimitExpiry
  | .holdLimitExpiry | .loadCompletion | .storePerform | .atomicAtHome
  | .orderedContributionArrival | .ordfApplication | .commandAccept | .commandComplete
  | .waitaReread | .waitaTimeout | .growGrant | .wsRefreshSlot | .launchRecordRead
  | .blockAdmission | .cooperativeAdmission | .gangStart | .launchCompletion
  | .seedbedDeal | .softSave | .gracePeriodExpiry | .blockImageWrite | .restoreRetry
  | .handlerStart | .correctedError | .scrubCorrection | .uncorrectableError
  | .pcieTimeout | .peerUnreachable | .cellContribution .. | .packageReset .. | .ctxCreate ..
  | .ctxDestroy | .queueCreate .. | .shootdown .. | .preempt .. | .restore .. | .cellConfig ..
  | .attest .. | .launchEnd .. | .trapSet .. | .dbgAttach | .dbgDetach | .dbgSet ..
  | .dbgRead .. | .dbgWrite .. | .dbgResume .. | .bboxRead .. | .twrKill .. | .hostCoreAccess ..
  | .pcieEndpointAccess .. | .peerPackageAccess .. | .peerApplicationRequest
  | .regionTableWrite .. | .domainBringUp .. | .l1LineEviction => true
  | _ => false

/-- The well-formed instructions. -/
def Instr.wf : Instr → Bool
  | .clauseIssue | .serialIssue | .subcoreGrant | .warpSwap | .stallLimitExpiry
  | .holdLimitExpiry | .loadCompletion | .storePerform | .atomicAtHome
  | .orderedContributionArrival | .ordfApplication | .commandAccept | .commandComplete
  | .waitaReread | .waitaTimeout | .growGrant | .wsRefreshSlot | .launchRecordRead
  | .blockAdmission | .cooperativeAdmission | .gangStart | .launchCompletion
  | .seedbedDeal | .softSave | .gracePeriodExpiry | .blockImageWrite | .restoreRetry
  | .handlerStart | .correctedError | .scrubCorrection | .uncorrectableError
  | .pcieTimeout | .peerUnreachable | .cellContribution .. | .packageReset .. | .ctxCreate ..
  | .ctxDestroy | .queueCreate .. | .shootdown .. | .preempt .. | .restore .. | .cellConfig ..
  | .attest .. | .launchEnd .. | .trapSet .. | .dbgAttach | .dbgDetach | .dbgSet ..
  | .dbgRead .. | .dbgWrite .. | .dbgResume .. | .bboxRead .. | .twrKill .. | .hostCoreAccess ..
  | .pcieEndpointAccess .. | .peerPackageAccess .. | .peerApplicationRequest
  | .regionTableWrite .. | .domainBringUp .. | .l1LineEviction => true
  -- page 0 (R134, R353)
  | .add _ d a b _ _ | .sub _ d a b _ _ | .mul _ d a b _ _ | .mulh _ d a b _ | .div _ d a b _ _
  | .rem _ d a b _ | .min _ d a b _ | .max _ d a b _ => a.noFp && b.noFp && dstOk d [a, b]
  | .mad _ d a b c _ _ | .madw _ d a b c _ _ => a.noFp && b.noFp && c.noFp && dstOk d [a, b, c]
  | .abs _ d a ty _ | .neg _ d a ty _ => a.noFp && ty.signed && dstOk d [a]
  | .lea _ d a b c ty => a.noFp && b.noFp && c.noFp && ty.scalar && dstOk d [a, b, c]
  | .addImm _ d a _ _ | .subRevImm _ d a _ _ | .mulImm _ d a _ _ | .minImm _ d a _ _
  | .maxImm _ d a _ _ | .leaImm _ d a _ => a.noFp && dstOk d [a]
  -- page 1
  | .and _ d a b ty | .or _ d a b ty | .xor _ d a b ty | .andn _ d a b ty =>
    ty.ok && a.okUnder ty && b.okUnder ty && dstOk d [a, b]
  | .truth _ d a b c _ | .fshl _ d a b c _ => a.noFp && b.noFp && c.noFp && dstOk d [a, b, c]
  | .shl _ d a b _ | .shr _ d a b _ | .sar _ d a b _ | .rotl _ d a b _ =>
    a.noFp && b.noFp && dstOk d [a, b]
  | .bfx _ d a b c ty | .bfi _ d a b c ty =>
    a.noFp && b.noFp && c.noFp && ty.scalar && dstOk d [a, b, c]
  | .popc _ d a _ | .clz _ d a _ | .ctz _ d a _ | .brev _ d a _ => a.noFp && dstOk d [a]
  | .andImm _ d a _ | .orImm _ d a _ | .xorImm _ d a _ | .andnImm _ d a _ | .shlImm _ d a _
  | .shrImm _ d a _ | .sarImm _ d a _ | .rotlImm _ d a _ => a.noFp && dstOk d [a]
  | .movi _ d _ | .moviW _ d _ | .movhi _ d _ => d.isReg
  | .mov _ d a ty => d.isReg && ty.ok && a.okUnder ty
  | .sel _ d a b _ => a.noFp && b.noFp && dstOk d [a, b]
  -- page 2 (R353)
  | .cmp _ _ a b ty => a.noFp && b.noFp && ty.scalar
  | .cmpImm _ _ a ty _ => a.noFp && ty.scalar
  | .fcmp _ c _ _ _ _ => !c.bit
  | .testCmpReg c a b (.i ty) => let _ := c; a.noFp && b.noFp && ty.scalar
  | .testCmpReg c _ _ (.f ty) => !c.bit && (ty == .f64 || ty == .f32)
  | .testCmpImm _ a ty _ => a.noFp && ty.scalar
  | .testPred .. | .pcomb .. | .nop | .yield => true
  | .pdrop _ n => 1 ≤ n.toNat && n.toNat ≤ 8
  | .pget _ d => d.isV
  | .pset _ a | .first _ _ a | .srd _ _ a => a.noFp
  | .ballot _ d _ _ => d.isReg
  | .swr _ x a =>
    a.noFp && (match x with | .frame | .rsp | .flags | .h _ => true | _ => false)
  -- leaves (R352)
  | .leafNext | .leafJmp _ | .leafCall _ | .leafRet | .leafExit | .leafTrap _ => true
  | .leafJmpi r | .leafCalli r => r.isReg
  -- page 3 (R354)
  | .fadd _ d _ _ ty _ _ | .fmul _ d _ _ ty _ _ | .fma _ d _ _ _ _ ty _ _ | .fmin _ d _ _ ty _ _
  | .fmax _ d _ _ ty _ _ | .frnd _ d _ ty _ _ | .fscale _ d _ _ ty _ _ | .fclass _ d _ ty _
  | .fexpo _ d _ ty _ => d.isV && ty.arith
  -- page 4
  | .fcvt _ d a b c dst src _ _ _ =>
    d.isV && a.okConv src && c.noFp && (if dst.count ≤ src.count then b == .v 0 else b.okConv dst)
  | .cvti _ d a b c dst src _ _ _ =>
    d.isV && a.okConv src && c.noFp && (if dst.count ≤ src.count then b == .v 0 else b.noFp)
  | .cvtf _ d a b c dst src _ _ _ =>
    d.isV && a.noFp && c.noFp && (if dst.count ≤ src.count then b == .v 0 else b.okConv dst)
  | .rcp _ d _ ty fast rm _ | .rsq _ d _ ty fast rm _ | .sqrt _ d _ ty fast rm _
  | .exp2 _ d _ ty fast rm _ | .log2 _ d _ ty fast rm _ | .sin _ d _ ty fast rm _
  | .cos _ d _ ty fast rm _ | .tanh _ d _ ty fast rm _ | .sigm _ d _ ty fast rm _
  | .erf _ d _ ty fast rm _ => d.isV && fnOk ty fast rm
  | .divF _ d _ _ ty fast rm _ => d.isV && fnOk ty fast rm
  -- page 5 (R355)
  | .mld _ m dbl base _ | .mst _ m dbl base _ => winOk dbl m && base.isReg
  | .mset _ d _ _ sh _ => winOk sh.dbl d && sh.ok
  | .mmov _ d a sh _ | .mtr _ d a sh _ => winOk sh.dbl d && winOk sh.dbl a && sh.ok
  | .mmul _ d a b k sh _ | .mmad _ d a b k sh _ =>
    winOk sh.dbl d && winOk sh.dbl a && winOk sh.dbl b && sh.ok && 1 ≤ k.toNat && k.toNat ≤ 6
  | .mmv _ d a b _ sh _ => winOk sh.dbl d && winOk sh.dbl a && winOk sh.dbl b && sh.ok
  | .mchol _ d a sh _ | .mlup _ d a _ sh _ => winOk sh.dbl d && winOk sh.dbl a && sh.square
  | .mlus _ d a b vp sh _ => winOk sh.dbl d && winOk sh.dbl a && winOk sh.dbl b && sh.ok && vp.isReg
  | .mtrs _ d a b mode sh _ =>
    winOk sh.dbl d && winOk sh.dbl a && winOk sh.dbl b && sh.ok && mode.toNat ≤ 2
  | .mdet _ _ a sh _ => winOk sh.dbl a && sh.square
  -- page 6 (R357)
  | .ldN _ m | .ldI _ m | .ldSpN _ m | .ldSpI _ m => m.ok [.plain, .acq]
  | .st data m | .stSp data m => data.isCmd && m.ok [.plain, .rel]
  | .ldWsN _ m | .ldWsI _ m => m.ok [.plain]
  | .ldSpPeekN _ m | .ldSpPeekI _ m => m.ok [.plain] && m.size.wide
  | .ldxN _ x | .ldxI _ x | .ldxSpN _ x | .ldxSpI _ x => x.ok
  | .stx data x | .stxSp data x => data.isCmd && x.ok
  | .ldu _ m =>
    (match m.base with | .s _ => true | _ => false) && m.ok [.plain, .acq]
  | .pref _ base _ _ => base.isReg
  | .lres _ m => m.ok [.plain, .acq] && m.size.wide
  | .scond _ _ a b _ order scope => a.isReg && b.noFp && ordOk order scope [.plain, .rel]
  | .atomAdd x | .atomMinI x | .atomMinN x | .atomMaxI x | .atomMaxN x | .atomAnd x | .atomOr x
  | .atomXor x | .atomXchg x | .atomIncwrap x | .atomSpAdd x | .atomSpMinI x | .atomSpMinN x
  | .atomSpMaxI x | .atomSpMaxN x | .atomSpAnd x | .atomSpOr x | .atomSpXor x | .atomSpXchg x
  | .atomSpIncwrap x => x.ok false
  | .atomCas x c | .atomSpCas x c => x.ok false && c.noFp
  | .fatomAdd x | .fatomMin x | .fatomMax x | .fatomSpAdd x | .fatomSpMin x | .fatomSpMax x =>
    x.ok true
  | .fatomAddOrd _ a _ _ => a.isReg
  | .ordf m => m.ok [.plain, .rel] && m.size.wide
  | .fence _ order _ => order != .plain
  | .waita _ _ a b c _ _ _ _ => a.isReg && b.noFp && c.noFp
  -- page 7
  | .xcfg _ _ s => s.toNat ≤ 499
  | .xmov _ _ a _ => a.noFp
  | .lread _ _ _ b c width => b.noFp && c.noFp && (width != 0 || c == .v 0)
  | .scan _ _ a _ rm sat ty op => scanOk rm sat ty op && a.okUnder ty
  | .redw _ d a rm sat ty op => d.isReg && scanOk rm sat ty op && a.okUnder ty
  | .barArrive .. | .barWait .. | .barSync .. | .jset .. | .jsetUniform .. | .join .. | .jarr .. =>
    true
  | .barx _ _ a _ => a.noFp
  | .jqry _ d _ q => d.isReg && q != 3
  -- pages 8 to 11 (R359)
  | .own _ _ a b | .ringget _ _ a b => a.noFp && b.noFp
  | .ringput _ _ a | .mxtokGive _ a => a.noFp
  | .mxmac _ acc a b fmt _ _ | .mxsmac _ acc a b fmt _ _ _ =>
    acc.isCmd && a.toNat ≤ 510 && b.toNat ≤ 510 && fmt.isReg
  | .mxzero _ acc _ _ => acc.isCmd
  | .mxwait _ _ mask => mask != 0
  | .mxtokTake _ | .tdone _ => true
  | .vswait g => g == .always
  | .vswAdd x | .vswMul x | .vswFma x | .vswMax x | .vswMin x => x.ok
  | .vswExp x | .vswCvt x | .vswScl x | .vswRsum x | .vswRmax x => x.ok1
  | .cpyIn x _ => x.ok
  | .cpyOut x | .cpyRows x | .cpyFill x | .cpyWs x => x.ok
  | .tspawn _ a | .tjob _ a => a.isCmd
  | .tilereg _ _ a b | .tiledrop _ a b => a.isCmd && b.isCmd
  | .tileq _ _ a => a.isCmd
  | .grow _ n => 1 ≤ n.toNat && n.toNat ≤ 4
  | .shed _ n => n.toNat ≤ 4
  -- page 12 and the deprecated rows
  | .syscVersion x | .syscAlloc x | .syscFree x | .syscPrint x | .syscResolve x | .syscNotify x
  | .syscAbort x | .syscCapread x | .syscEscalate x => x.ok
  | .syscUnassigned n x => x.ok && 9 ≤ n.toNat
  | .trd _ _ a b => a.noFp && b.noFp
  | .twr _ a b c => a.noFp && b.noFp && c.noFp
  | .tret _ | .bkpt .. | .ifence | .barw .. => true
  | .ldq _ d base _ => d.toNat ≤ 254 && base.isReg
  | .dot4 _ _ a b c _ => a.noFp && b.noFp && c.noFp

/-- A well-formed instruction. -/
abbrev WellFormed (i : Instr) : Prop := i.wf = true

end Sys2Proof
end

