-- ==== Sys2Proof/Decode.lean ====
section
/-! DEFINITION. Decoding a syllable by its position in the clause (R46), and the encoder. The four
operation formats are those of R68 (the indexed accesses R70), the compare's arc form R71, the test
R51, the leaf R52, the modifier layouts R78, the opcode map R79. -/

namespace Sys2Proof

/-- Where a syllable stands (R46): the root arc, a node's arc, a node, a leaf. -/
inductive Pos where
  | root | arc | node | leaf
  deriving DecidableEq, Repr

/-- Why a syllable is not an instruction: illegal encoding (kind 4) or reserved use (kind 6)
(R335, R349). -/
inductive Bad where
  | illegal | reserved
  deriving DecidableEq, Repr

/-! ### Codes of the fields -/

def Special.code : Special → Nat
  | .tid => 0 | .tidy => 1 | .tidz => 2 | .bid => 3 | .bidy => 4 | .bidz => 5 | .warp => 6
  | .core => 7 | .die => 8 | .stage => 9 | .clock => 10 | .time => 11 | .wsphase => 12
  | .frame => 13 | .ctx => 14 | .rsp => 15 | .trappc => 16 | .trapinfo => 17 | .flags => 18
  | .h n => 0x60 + n.toNat

def Special.ofCode (n : Nat) : Option Special :=
  match n with
  | 0 => some .tid | 1 => some .tidy | 2 => some .tidz | 3 => some .bid | 4 => some .bidy
  | 5 => some .bidz | 6 => some .warp | 7 => some .core | 8 => some .die | 9 => some .stage
  | 10 => some .clock | 11 => some .time | 12 => some .wsphase | 13 => some .frame
  | 14 => some .ctx | 15 => some .rsp | 16 => some .trappc | 17 => some .trapinfo
  | 18 => some .flags
  | n => if 0x60 ≤ n ∧ n < 0x70 then some (.h (BitVec.ofNat 4 (n - 0x60))) else none

/-- The specifier of an operand (R72, R74). -/
def Operand.enc : Operand → BitVec 10
  | .v r => BitVec.ofNat 10 r.toNat
  | .s r => BitVec.ofNat 10 (0x100 + r.toNat)
  | .sp x => BitVec.ofNat 10 (0x300 + x.code)
  | .int n => BitVec.ofNat 10 (0x380 + n.toNat)
  | .fp k => BitVec.ofNat 10 (0x3C0 + k.toNat)

def Operand.dec (x : BitVec 10) : Option Operand :=
  let n := x.toNat
  if n < 0x100 then some (.v (BitVec.ofNat 8 n))
  else if n < 0x300 then some (.s (BitVec.ofNat 9 (n - 0x100)))
  else if n < 0x380 then (Special.ofCode (n - 0x300)).map .sp
  else if n < 0x3C0 then some (.int (BitVec.ofNat 6 (n - 0x380)))
  else if n < 0x3E0 then some (.fp (BitVec.ofNat 5 (n - 0x3C0)))
  else none

/-- The guard field (R75). -/
def Guard.enc : Guard → BitVec 5
  | .always => 0
  | .on d => BitVec.ofNat 5 (16 + d.toNat)
  | .off d => BitVec.ofNat 5 (24 + d.toNat)

def Guard.dec (x : BitVec 5) : Option Guard :=
  let n := x.toNat
  if n = 0 then some .always
  else if n < 16 then none
  else if n < 24 then some (.on (BitVec.ofNat 3 (n - 16)))
  else some (.off (BitVec.ofNat 3 (n - 24)))

def ITy.ofIdx (n : Nat) : Option ITy :=
  match n with
  | 0 => some .i8 | 1 => some .i16 | 2 => some .i32 | 3 => some .i64 | 4 => some .n8
  | 5 => some .n16 | 6 => some .n32 | 7 => some .n64 | 8 => some .i32x2 | 9 => some .i16x4
  | 10 => some .i8x8 | _ => none

def FTy.ofIdx (n : Nat) : Option FTy :=
  match n with
  | 0 => some .f64 | 1 => some .f32 | 2 => some .f32x2 | 3 => some .f16x4 | 4 => some .bf16x4
  | 5 => some .e4m3 | 6 => some .e5m2 | 7 => some .e2m1 | _ => none

/-- Type codes (R76). -/
def DTy.code : DTy → Nat
  | .i t => t.idx
  | .f t => 0x10 + t.idx

def DTy.ofCode (n : Nat) : Option DTy :=
  if n < 0x10 then (ITy.ofIdx n).map .i
  else if n < 0x18 then (FTy.ofIdx (n - 0x10)).map .f
  else none

def ImTy.idx : ImTy → Nat
  | .i32 => 0 | .n32 => 1 | .i64 => 2 | .n64 => 3

def ImTy.ofIdx (n : Nat) : Option ImTy :=
  match n with
  | 0 => some .i32 | 1 => some .n32 | 2 => some .i64 | 3 => some .n64 | _ => none

/-- The integer type an immediate form works on (R79). -/
def ImTy.ty : ImTy → ITy
  | .i32 => .i32 | .n32 => .n32 | .i64 => .i64 | .n64 => .n64

def ImTy.ofTy : ITy → Option ImTy
  | .i32 => some .i32 | .n32 => some .n32 | .i64 => some .i64 | .n64 => some .n64
  | _ => none

def Rm.code : Rm → Nat
  | .rne => 0 | .rtz => 1 | .rdn => 2 | .rup => 3 | .rna => 4

def Rm.ofCode (n : Nat) : Option Rm :=
  match n with
  | 0 => some .rne | 1 => some .rtz | 2 => some .rdn | 3 => some .rup | 4 => some .rna | _ => none

def Cond.code : Cond → Nat
  | .eq => 0 | .ne => 1 | .lt => 2 | .le => 3 | .gt => 4 | .ge => 5 | .un => 6 | .or => 7
  | .tst => 8 | .tcl => 9

def Cond.ofCode (n : Nat) : Option Cond :=
  match n with
  | 0 => some .eq | 1 => some .ne | 2 => some .lt | 3 => some .le | 4 => some .gt | 5 => some .ge
  | 6 => some .un | 7 => some .or | 8 => some .tst | 9 => some .tcl | _ => none

def WCond.code : WCond → Nat
  | .eq => 0 | .ne => 1 | .lt => 2 | .le => 3 | .gt => 4 | .ge => 5

def WCond.ofCode (n : Nat) : Option WCond :=
  match n with
  | 0 => some .eq | 1 => some .ne | 2 => some .lt | 3 => some .le | 4 => some .gt | 5 => some .ge
  | _ => none

def Size.code : Size → Nat
  | .b => 0 | .h => 1 | .w => 2 | .d => 3

def Size.ofCode (n : Nat) : Size :=
  match n with
  | 0 => .b | 1 => .h | 2 => .w | _ => .d

def Order.code : Order → Nat
  | .plain => 0 | .acq => 1 | .rel => 2 | .acqrel => 3

def Order.ofCode (n : Nat) : Order :=
  match n with
  | 0 => .plain | 1 => .acq | 2 => .rel | _ => .acqrel

def Scope.code : Scope → Nat
  | .core => 0 | .span => 1 | .die => 2 | .pkg => 3 | .dom => 4 | .sys => 5

def Scope.ofCode (n : Nat) : Option Scope :=
  match n with
  | 0 => some .core | 1 => some .span | 2 => some .die | 3 => some .pkg | 4 => some .dom
  | 5 => some .sys | _ => none

def ScanOp.code : ScanOp → Nat
  | .add => 0 | .min => 1 | .max => 2 | .and => 3 | .or => 4 | .xor => 5

def ScanOp.ofCode (n : Nat) : Option ScanOp :=
  match n with
  | 0 => some .add | 1 => some .min | 2 => some .max | 3 => some .and | 4 => some .or
  | 5 => some .xor | _ => none

def bit (b : Bool) : Nat := if b then 1 else 0

/-- The field of `len` bits from bit `lo` of `x` (R5). -/
def fld {n : Nat} (x : BitVec n) (lo len : Nat) : BitVec len := x.extractLsb' lo len

/-! ### The formats -/

/-- The three-operand format below its opcode (R68). -/
structure F3 where
  g : BitVec 5
  d : BitVec 10
  a : BitVec 10
  b : BitVec 10
  c : BitVec 10
  m : BitVec 8
  nf : BitVec 1
  deriving DecidableEq, Repr

def f3 (w : Word) : F3 :=
  ⟨fld w 49 5, fld w 39 10, fld w 29 10, fld w 19 10, fld w 9 10, fld w 1 8, fld w 0 1⟩

def w3 (op : BitVec 10) (x : F3) : Word := op ++ x.g ++ x.d ++ x.a ++ x.b ++ x.c ++ x.m ++ x.nf

/-- The immediate format below its opcode (R68). -/
structure FI where
  g : BitVec 5
  d : BitVec 10
  a : BitVec 10
  imm : BitVec 29
  deriving DecidableEq, Repr

def fI (w : Word) : FI := ⟨fld w 49 5, fld w 39 10, fld w 29 10, fld w 0 29⟩

def wImm (op : BitVec 10) (x : FI) : Word := op ++ x.g ++ x.d ++ x.a ++ x.imm

/-- The wide immediate format below its opcode (R68). -/
structure FW where
  g : BitVec 5
  d : BitVec 10
  pad : BitVec 7
  imm : BitVec 32
  deriving DecidableEq, Repr

def fW (w : Word) : FW := ⟨fld w 49 5, fld w 39 10, fld w 32 7, fld w 0 32⟩

def wW (op : BitVec 10) (x : FW) : Word := op ++ x.g ++ x.d ++ x.pad ++ x.imm

/-- The memory format below its opcode (R68). -/
structure FM where
  g : BitVec 5
  d : BitVec 10
  base : BitVec 10
  size : BitVec 2
  order : BitVec 2
  scope : BitVec 3
  off : BitVec 22
  deriving DecidableEq, Repr

def fM (w : Word) : FM :=
  ⟨fld w 49 5, fld w 39 10, fld w 29 10, fld w 27 2, fld w 25 2, fld w 22 3, fld w 0 22⟩

def wM (op : BitVec 10) (x : FM) : Word :=
  op ++ x.g ++ x.d ++ x.base ++ x.size ++ x.order ++ x.scope ++ x.off

/-- The test syllable (R51). -/
structure FT where
  cond : BitVec 4
  a : BitVec 10
  b : BitVec 10
  ty : BitVec 6
  imm : BitVec 24
  deriving DecidableEq, Repr

def fT (w : Word) : FT := ⟨fld w 50 4, fld w 40 10, fld w 30 10, fld w 24 6, fld w 0 24⟩

def wT (op : BitVec 10) (x : FT) : Word := op ++ x.cond ++ x.a ++ x.b ++ x.ty ++ x.imm

/-- The leaf syllable (R52). -/
structure FL where
  kind : BitVec 4
  reg : BitVec 10
  off : BitVec 32
  code : BitVec 12
  low : BitVec 6
  deriving DecidableEq, Repr

def fL (w : Word) : FL := ⟨fld w 60 4, fld w 50 10, fld w 18 32, fld w 6 12, fld w 0 6⟩

def wL (x : FL) : Word := x.kind ++ x.reg ++ x.off ++ x.code ++ x.low

/-! ### Decoding the fields -/

abbrev Dec (α : Type) := Except Bad α

def need {α : Type} (o : Option α) : Dec α :=
  match o with
  | some x => .ok x
  | none => .error .reserved

def zero {n : Nat} (x : BitVec n) : Dec Unit := if x = 0 then .ok () else .error .reserved

def check (p : Bool) : Dec Unit := if p then .ok () else .error .reserved

def rdO (x : BitVec 10) : Dec Operand := need (Operand.dec x)

def rdG (x : BitVec 5) : Dec Guard := need (Guard.dec x)

def rdV (x : BitVec 10) : Dec (BitVec 8) := do
  match ← rdO x with
  | .v r => .ok r
  | _ => .error .reserved

def rdS (x : BitVec 10) : Dec (BitVec 9) := do
  match ← rdO x with
  | .s r => .ok r
  | _ => .error .reserved

/-- A window: the specifier of its first register, 0x040 + 18k (R166). -/
def rdM (x : BitVec 10) : Dec (BitVec 4) :=
  let n := x.toNat
  if 0x40 ≤ n ∧ n < 0x40 + 18 * 10 ∧ (n - 0x40) % 18 = 0 then .ok (BitVec.ofNat 4 ((n - 0x40) / 18))
  else .error .reserved

def encM (m : BitVec 4) : BitVec 10 := BitVec.ofNat 10 (0x40 + 18 * m.toNat)

def encV (r : BitVec 8) : BitVec 10 := (Operand.v r).enc

def encS (r : BitVec 9) : BitVec 10 := (Operand.s r).enc

/-- The integer modifier byte: type 8:4, sat 3, 2:1 reserved (R78). -/
def rdIntM (m : BitVec 8) : Dec (DTy × Bool) := do
  zero (fld m 0 2)
  let ty ← need (DTy.ofCode (fld m 3 5).toNat)
  .ok (ty, (fld m 2 1) = 1)

def encIntM (ty : DTy) (sat : Bool) : BitVec 8 := BitVec.ofNat 8 (8 * ty.code + 4 * bit sat)

def asI (t : DTy) : Dec ITy :=
  match t with
  | .i t => .ok t
  | .f _ => .error .reserved

/-- Guard, destination and sources a and b of a three-operand syllable. -/
def rd2 (x : F3) : Dec (Guard × Operand × Operand × Operand) := do
  .ok (← rdG x.g, ← rdO x.d, ← rdO x.a, ← rdO x.b)

/-- Pages 0 and 1 with two sources and an integer type; `satOk` where .sat is permitted. -/
def dInt2 (mk : Guard → Operand → Operand → Operand → ITy → Bool → Instr) (satOk : Bool) (x : F3) :
    Dec Instr := do
  let (g, d, a, b) ← rd2 x
  zero x.c; zero x.nf
  let (ty, sat) ← rdIntM x.m
  check (satOk || !sat)
  .ok (mk g d a b (← asI ty) sat)

/-- The same with three sources. -/
def dInt3 (mk : Guard → Operand → Operand → Operand → Operand → ITy → Bool → Instr) (satOk : Bool)
    (x : F3) : Dec Instr := do
  let (g, d, a, b) ← rd2 x
  let c ← rdO x.c
  zero x.nf
  let (ty, sat) ← rdIntM x.m
  check (satOk || !sat)
  .ok (mk g d a b c (← asI ty) sat)

/-- The same with one source. -/
def dInt1 (mk : Guard → Operand → Operand → ITy → Bool → Instr) (satOk : Bool) (x : F3) :
    Dec Instr := do
  zero x.b
  dInt2 (fun g d a _ ty sat => mk g d a ty sat) satOk x

/-- The logic instructions: integer or float type (R138). -/
def dLogic (mk : Guard → Operand → Operand → Operand → DTy → Instr) (x : F3) : Dec Instr := do
  let (g, d, a, b) ← rd2 x
  zero x.c; zero x.nf
  let (ty, sat) ← rdIntM x.m
  check (!sat)
  .ok (mk g d a b ty)

/-- An immediate form (R80). -/
def dImm (mk : Guard → Operand → Operand → BitVec 29 → Instr) (w : Word) : Dec Instr := do
  let x := fI w
  .ok (mk (← rdG x.g) (← rdO x.d) (← rdO x.a) x.imm)

/-! ### The pages -/

/-- Page 0 (R79, R134). -/
def decPage0 (op : Nat) (w : Word) : Dec Instr :=
  let x := f3 w
  match op with
  | 0x00 => dInt2 .add true x
  | 0x01 => dInt2 .sub true x
  | 0x02 => dInt2 .mul true x
  | 0x03 => dInt2 (fun g d a b ty _ => .mulh g d a b ty) false x
  | 0x04 => dInt3 .mad true x
  | 0x05 => do
    let (g, d, a, b) ← rd2 x
    let c ← rdO x.c
    zero x.nf
    let (ty, sat) ← rdIntM x.m
    match ty with
    | .i .i32 => .ok (.madw g d a b c true sat)
    | .i .n32 => .ok (.madw g d a b c false sat)
    | _ => .error .reserved
  | 0x06 => dInt2 .div true x
  | 0x07 => dInt2 (fun g d a b ty _ => .rem g d a b ty) false x
  | 0x08 => dInt2 (fun g d a b ty _ => .min g d a b ty) false x
  | 0x09 => dInt2 (fun g d a b ty _ => .max g d a b ty) false x
  | 0x0A => dInt1 .abs true x
  | 0x0B => dInt1 .neg true x
  | 0x0C => dInt3 (fun g d a b c ty _ => .lea g d a b c ty) false x
  | 0x34 => dImm .leaImm w
  | n =>
    if n < 0x20 then .error .illegal
    else do
      let ty ← match ImTy.ofIdx ((n - 0x20) % 4) with
        | some ty => .ok ty
        | none => .error .illegal
      match (n - 0x20) / 4 with
      | 0 => dImm (fun g d a i => .addImm g d a ty i) w
      | 1 => dImm (fun g d a i => .subRevImm g d a ty i) w
      | 2 => dImm (fun g d a i => .mulImm g d a ty i) w
      | 3 => dImm (fun g d a i => .minImm g d a ty i) w
      | 4 => dImm (fun g d a i => .maxImm g d a ty i) w
      | _ => .error .illegal

/-- Page 1 (R79, R138–R143). "Every type" of POPC, CLZ, CTZ and BREV is every integer type of R131, and a float type
there a reserved use (DESIGN CHOICE, notes/assumptions/66.md). -/
def decPage1 (op : Nat) (w : Word) : Dec Instr :=
  let x := f3 w
  match op with
  | 0x00 => dLogic .and x
  | 0x01 => dLogic .or x
  | 0x02 => dLogic .xor x
  | 0x03 => dLogic .andn x
  | 0x04 => do
    let (g, d, a, b) ← rd2 x
    zero x.nf
    .ok (.truth g d a b (← rdO x.c) x.m)
  | 0x05 => dInt2 (fun g d a b ty _ => .shl g d a b ty) false x
  | 0x06 => dInt2 (fun g d a b ty _ => .shr g d a b ty) false x
  | 0x07 => dInt2 (fun g d a b ty _ => .sar g d a b ty) false x
  | 0x08 => dInt2 (fun g d a b ty _ => .rotl g d a b ty) false x
  | 0x09 => do
    let (g, d, a, b) ← rd2 x
    let c ← rdO x.c
    zero x.nf
    let (ty, sat) ← rdIntM x.m
    check (!sat)
    let ty ← need (ImTy.ofTy (← asI ty))
    .ok (.fshl g d a b c ty)
  | 0x0A => dInt3 (fun g d a b c ty _ => .bfx g d a b c ty) false x
  | 0x0B => dInt3 (fun g d a b c ty _ => .bfi g d a b c ty) false x
  | 0x0C => dInt1 (fun g d a ty _ => .popc g d a ty) false x
  | 0x0D => dInt1 (fun g d a ty _ => .clz g d a ty) false x
  | 0x0E => dInt1 (fun g d a ty _ => .ctz g d a ty) false x
  | 0x0F => dInt1 (fun g d a ty _ => .brev g d a ty) false x
  | 0x10 => do
    let y := fI w
    zero y.a
    .ok (.movi (← rdG y.g) (← rdO y.d) y.imm)
  | 0x11 => do
    let y := fW w
    zero y.pad
    .ok (.movhi (← rdG y.g) (← rdO y.d) y.imm)
  | 0x12 => do
    let y := fW w
    zero y.pad
    .ok (.moviW (← rdG y.g) (← rdO y.d) y.imm)
  | 0x13 => do
    zero x.b
    dLogic (fun g d a _ ty => .mov g d a ty) x
  | 0x14 => do
    let (g, d, a, b) ← rd2 x
    zero x.c; zero x.nf; zero (fld x.m 0 5)
    .ok (.sel g d a b (fld x.m 5 3))
  | 0x18 => dImm .andImm w
  | 0x19 => dImm .orImm w
  | 0x1A => dImm .xorImm w
  | 0x1B => dImm .andnImm w
  | 0x1C => dImm .shlImm w
  | 0x1D => dImm .shrImm w
  | 0x1E => dImm .sarImm w
  | 0x1F => dImm .rotlImm w
  | _ => .error .illegal

/-- Page 2, positions in arcs (R71, R144–R151). -/
def decPage2 (op : Nat) (w : Word) : Dec Instr :=
  let x := f3 w
  let y := fI w
  match op with
  | 0x00 => do
    let g ← rdG x.g
    let c ← need (Cond.ofCode (fld x.d 0 4).toNat)
    let ty ← need (DTy.ofCode (fld x.d 4 6).toNat)
    let a ← rdO x.a
    let b ← rdO x.b
    zero x.c; zero x.m
    match ty with
    | .i ty => do zero x.nf; .ok (.cmp g c a b ty)
    | .f .f64 => .ok (.fcmp g c a b true (x.nf = 1))
    | .f .f32 => .ok (.fcmp g c a b false (x.nf = 1))
    | .f _ => .error .reserved
  | 0x01 => do
    let g ← rdG y.g
    let c ← need (Cond.ofCode (fld y.d 0 4).toNat)
    let ty ← need (DTy.ofCode (fld y.d 4 6).toNat)
    .ok (.cmpImm g c (← rdO y.a) (← asI ty) y.imm)
  | 0x03 => do
    zero y.d; zero y.a; zero (fld y.imm 17 12)
    .ok (.pcomb (← rdG y.g) (fld y.imm 0 8) (fld y.imm 8 3) (fld y.imm 11 3) (fld y.imm 14 3))
  | 0x04 => do
    zero y.d; zero y.a; zero (fld y.imm 4 25)
    .ok (.pdrop (← rdG y.g) (fld y.imm 0 4))
  | 0x05 => do
    zero x.a; zero x.b; zero x.c; zero x.m; zero x.nf
    .ok (.pget (← rdG x.g) (← rdO x.d))
  | 0x06 => do
    zero x.d; zero x.b; zero x.c; zero x.m; zero x.nf
    .ok (.pset (← rdG x.g) (← rdO x.a))
  | 0x07 => do
    zero x.a; zero x.b; zero x.c; zero (fld x.m 0 4); zero x.nf
    .ok (.ballot (← rdG x.g) (← rdO x.d) (fld x.m 5 3) ((fld x.m 4 1) = 1))
  | 0x08 => do
    zero x.b; zero x.c; zero x.m; zero x.nf
    .ok (.first (← rdG x.g) (← rdS x.d) (← rdO x.a))
  | 0x09 => do
    zero x.b; zero x.c; zero x.m; zero x.nf
    .ok (.srd (← rdG x.g) (← rdV x.d) (← rdO x.a))
  | 0x0A => do
    zero x.b; zero x.c; zero x.m; zero x.nf
    match ← rdO x.d with
    | .sp r => .ok (.swr (← rdG x.g) r (← rdO x.a))
    | _ => .error .reserved
  | 0x0E => do
    zero x.g; zero x.d; zero x.a; zero x.b; zero x.c; zero x.m; zero x.nf
    .ok .nop
  | 0x0F => do
    zero x.g; zero x.d; zero x.a; zero x.b; zero x.c; zero x.m; zero x.nf
    .ok .yield
  | _ => .error .illegal

/-- Sources a and b with the float modifier byte's negate and abs bits (R78). -/
def fsA (x : F3) : Dec FSrc := do .ok ⟨← rdO x.a, (fld x.m 4 1) = 1, (fld x.m 3 1) = 1⟩

def fsB (x : F3) : Dec FSrc := do .ok ⟨← rdO x.b, (fld x.m 2 1) = 1, (fld x.m 1 1) = 1⟩

/-- The float modifier byte: mode 8:6, negate and abs of a, of b, negate c (R78). -/
def encFltM (top : Nat) (a b : FSrc) (negc : Bool) : BitVec 8 :=
  BitVec.ofNat 8 (32 * top + 16 * bit a.neg + 8 * bit a.abs + 4 * bit b.neg + 2 * bit b.abs
    + bit negc)

/-- Page 3 (R153–R157). -/
def decPage3 (op : Nat) (w : Word) : Dec Instr := do
  let x := f3 w
  let ty ← match FTy.ofIdx (op % 8) with
    | some ty => if ty.arith then .ok ty else .error .illegal
    | none => .error .illegal
  let g ← rdG x.g
  let d ← rdO x.d
  let a ← fsA x
  let nf : Bool := x.nf = 1
  match op / 8 with
  | 0 => do
    zero x.c; zero (fld x.m 0 1)
    .ok (.fadd g d a (← fsB x) ty (← need (Rm.ofCode (fld x.m 5 3).toNat)) nf)
  | 1 => do
    zero x.c; zero (fld x.m 0 1)
    .ok (.fmul g d a (← fsB x) ty (← need (Rm.ofCode (fld x.m 5 3).toNat)) nf)
  | 2 => do
    .ok (.fma g d a (← fsB x) (← rdO x.c) ((fld x.m 0 1) = 1) ty
      (← need (Rm.ofCode (fld x.m 5 3).toNat)) nf)
  | 3 => do
    zero x.c; zero (fld x.m 0 1); zero (fld x.m 6 1)
    let b ← fsB x
    let num : Bool := (fld x.m 5 1) = 1
    if (fld x.m 7 1) = 1 then .ok (.fmax g d a b ty num nf) else .ok (.fmin g d a b ty num nf)
  | 4 => do
    zero x.b; zero x.c; zero (fld x.m 0 3)
    .ok (.frnd g d a ty (← need (Rm.ofCode (fld x.m 5 3).toNat)) nf)
  | 5 => do
    zero x.c; zero (fld x.m 0 3)
    .ok (.fscale g d a (← rdO x.b) ty (← need (Rm.ofCode (fld x.m 5 3).toNat)) nf)
  | 6 => do
    zero x.b; zero x.c; zero (fld x.m 0 3); zero (fld x.m 5 3)
    .ok (.fclass g d a ty nf)
  | _ => do
    zero x.b; zero x.c; zero (fld x.m 0 3); zero (fld x.m 5 3)
    .ok (.fexpo g d a ty nf)

/-- The conversion modifier byte: source index 8:5, mode 4:2, sat 1 (R78). -/
def encCvtM (src : Nat) (rm : Rm) (sat : Bool) : BitVec 8 :=
  BitVec.ofNat 8 (16 * src + 2 * rm.code + bit sat)

/-- The function modifier byte: float index 8:6, grade 5, mode 4:2, bit 1 reserved (R78). -/
def encFnM (ty : FTy) (fast : Bool) (rm : Rm) : BitVec 8 :=
  BitVec.ofNat 8 (32 * ty.idx + 16 * bit fast + 2 * rm.code)

/-- A special function of one source (R161). -/
def dFn (mk : Guard → Operand → Operand → FTy → Bool → Rm → Bool → Instr) (x : F3) : Dec Instr := do
  zero x.b; zero x.c; zero (fld x.m 0 1)
  let ty ← need (FTy.ofIdx (fld x.m 5 3).toNat)
  let rm ← need (Rm.ofCode (fld x.m 1 3).toNat)
  .ok (mk (← rdG x.g) (← rdO x.d) (← rdO x.a) ty ((fld x.m 4 1) = 1) rm (x.nf = 1))

/-- Page 4 (R159–R161). The nf bit is permitted there, as R124 has it of every floating instruction (DESIGN CHOICE,
notes/assumptions/74.md). -/
def decPage4 (op : Nat) (w : Word) : Dec Instr :=
  let x := f3 w
  let rm := need (Rm.ofCode (fld x.m 1 3).toNat)
  let sat : Bool := (fld x.m 0 1) = 1
  let src := (fld x.m 4 4).toNat
  let nf : Bool := x.nf = 1
  if op < 8 then do
    let dst ← need (FTy.ofIdx op)
    let (g, d, a, b) ← rd2 x
    .ok (.fcvt g d a b (← rdO x.c) dst (← need (FTy.ofIdx src)) (← rm) sat nf)
  else if op < 0x13 then do
    let dst ← need (ITy.ofIdx (op - 8))
    let (g, d, a, b) ← rd2 x
    .ok (.cvti g d a b (← rdO x.c) dst (← need (FTy.ofIdx src)) (← rm) sat nf)
  else if op < 0x18 then .error .illegal
  else if op < 0x20 then do
    let dst ← need (FTy.ofIdx (op - 0x18))
    let (g, d, a, b) ← rd2 x
    .ok (.cvtf g d a b (← rdO x.c) dst (← need (ITy.ofIdx src)) (← rm) sat nf)
  else match op - 0x20 with
    | 0 => dFn .rcp x
    | 1 => dFn .rsq x
    | 2 => dFn .sqrt x
    | 3 => do
      zero x.c; zero (fld x.m 0 1)
      let ty ← need (FTy.ofIdx (fld x.m 5 3).toNat)
      let (g, d, a, b) ← rd2 x
      .ok (.divF g d a b ty ((fld x.m 4 1) = 1) (← rm) nf)
    | 4 => dFn .exp2 x
    | 5 => dFn .log2 x
    | 6 => dFn .sin x
    | 7 => dFn .cos x
    | 8 => dFn .tanh x
    | 9 => dFn .sigm x
    | 10 => dFn .erf x
    | _ => .error .illegal

/-- The matrix modifier byte without its variant bit (R166). -/
def rdShape (m : BitVec 8) : Dec Shape := do
  zero (fld m 0 1)
  .ok ⟨(fld m 7 1) = 1, fld m 4 3, fld m 1 3⟩

def encShape (sh : Shape) (variant : Bool) : BitVec 8 :=
  BitVec.ofNat 8 (128 * bit sh.dbl + 16 * sh.rows.toNat + 2 * sh.cols.toNat + bit variant)

/-- MLD and MST (R168). -/
def dMwin (mk : Guard → BitVec 4 → Bool → Operand → BitVec 22 → Instr) (w : Word) : Dec Instr := do
  let y := fM w
  zero y.order; zero y.scope
  check (2 ≤ y.size.toNat)
  .ok (mk (← rdG y.g) (← rdM y.d) (y.size = 3) (← rdO y.base) y.off)

/-- Page 5 (R166–R175). -/
def decPage5 (op : Nat) (w : Word) : Dec Instr :=
  let x := f3 w
  let nf : Bool := x.nf = 1
  match op with
  | 0 => dMwin .mld w
  | 1 => dMwin .mst w
  | 2 => do
    zero x.c
    .ok (.mset (← rdG x.g) (← rdM x.d) (← rdO x.a) (← rdO x.b) (← rdShape x.m) nf)
  | 3 => do
    zero x.b; zero x.c
    .ok (.mmov (← rdG x.g) (← rdM x.d) (← rdM x.a) (← rdShape x.m) nf)
  | 4 => do
    zero x.b; zero x.c
    .ok (.mtr (← rdG x.g) (← rdM x.d) (← rdM x.a) (← rdShape x.m) nf)
  | 5 => do
    check (0x3A1 ≤ x.c.toNat && x.c.toNat ≤ 0x3A6)
    .ok (.mmul (← rdG x.g) (← rdM x.d) (← rdM x.a) (← rdM x.b) (BitVec.ofNat 3 (x.c.toNat - 0x3A0))
      (← rdShape x.m) nf)
  | 6 => do
    check (0x3A1 ≤ x.c.toNat && x.c.toNat ≤ 0x3A6)
    .ok (.mmad (← rdG x.g) (← rdM x.d) (← rdM x.a) (← rdM x.b) (BitVec.ofNat 3 (x.c.toNat - 0x3A0))
      (← rdShape x.m) nf)
  | 7 => do
    zero x.c
    .ok (.mmv (← rdG x.g) (← rdM x.d) (← rdM x.a) (← rdM x.b) ((fld x.m 0 1) = 1)
      ⟨(fld x.m 7 1) = 1, fld x.m 4 3, fld x.m 1 3⟩ nf)
  | 8 => do
    zero x.b; zero x.c
    .ok (.mchol (← rdG x.g) (← rdM x.d) (← rdM x.a) (← rdShape x.m) nf)
  | 9 => do
    zero x.c
    .ok (.mlup (← rdG x.g) (← rdM x.d) (← rdM x.a) (← rdV x.b) (← rdShape x.m) nf)
  | 10 => do
    .ok (.mlus (← rdG x.g) (← rdM x.d) (← rdM x.a) (← rdM x.b) (← rdO x.c) (← rdShape x.m) nf)
  | 11 => do
    check (0x3A0 ≤ x.c.toNat && x.c.toNat ≤ 0x3A2)
    .ok (.mtrs (← rdG x.g) (← rdM x.d) (← rdM x.a) (← rdM x.b) (BitVec.ofNat 2 (x.c.toNat - 0x3A0))
      (← rdShape x.m) nf)
  | 12 => do
    zero x.b; zero x.c
    .ok (.mdet (← rdG x.g) (← rdV x.d) (← rdM x.a) (← rdShape x.m) nf)
  | _ => .error .illegal

/-- The fields an access of the memory format shares (R68). -/
def rdMem (y : FM) : Dec Mem := do
  .ok ⟨← rdG y.g, ← rdO y.base, Size.ofCode y.size.toNat, Order.ofCode y.order.toNat,
    ← need (Scope.ofCode y.scope.toNat), y.off⟩

def dLd (mk : BitVec 8 → Mem → Instr) (w : Word) : Dec Instr := do
  let y := fM w
  .ok (mk (← rdV y.d) (← rdMem y))

def dSt (mk : Operand → Mem → Instr) (w : Word) : Dec Instr := do
  let y := fM w
  .ok (mk (← rdO y.d) (← rdMem y))

/-- The fields of an indexed access (R70). -/
def rdIdx (y : FM) : Dec Idx := do
  zero y.order; zero y.scope; zero (fld y.off 0 10)
  .ok ⟨← rdG y.g, ← rdO y.base, ← rdO (fld y.off 12 10), fld y.off 10 2, Size.ofCode y.size.toNat⟩

def dLdx (mk : BitVec 8 → Idx → Instr) (w : Word) : Dec Instr := do
  let y := fM w
  .ok (mk (← rdV y.d) (← rdIdx y))

def dStx (mk : Operand → Idx → Instr) (w : Word) : Dec Instr := do
  let y := fM w
  .ok (mk (← rdO y.d) (← rdIdx y))

/-- The atomic modifier byte: size 8:7, order 6:5, scope 4:2, no result 1 (R78). -/
def rdAtom (x : F3) : Dec Atom := do
  zero x.nf
  check (2 ≤ (fld x.m 6 2).toNat)
  let scope ← need (Scope.ofCode (fld x.m 1 3).toNat)
  let d ← if (fld x.m 0 1) = 1 then do zero x.d; .ok none else do .ok (some (← rdV x.d))
  .ok ⟨← rdG x.g, d, ← rdO x.a, ← rdO x.b, (fld x.m 6 2) = 3, Order.ofCode (fld x.m 4 2).toNat,
    scope⟩

def encAtomM (dbl : Bool) (o : Order) (sc : Scope) (nores : Bool) : BitVec 8 :=
  BitVec.ofNat 8 (64 * (2 + bit dbl) + 16 * o.code + 2 * sc.code + bit nores)

def dAtom (mk : Atom → Instr) (x : F3) : Dec Instr := do
  zero x.c
  .ok (mk (← rdAtom x))

/-- Page 6 (R180–R198). -/
def decPage6 (op : Nat) (w : Word) : Dec Instr :=
  let x := f3 w
  let y := fM w
  match op with
  | 0x00 => dLd .ldN w
  | 0x01 => dLd .ldI w
  | 0x02 => dSt .st w
  | 0x03 => dLd .ldSpN w
  | 0x04 => dLd .ldSpI w
  | 0x05 => dSt .stSp w
  | 0x06 => dLd .ldWsN w
  | 0x07 => dLd .ldWsI w
  | 0x08 => dLd .ldSpPeekN w
  | 0x09 => dLd .ldSpPeekI w
  | 0x0A => dLdx .ldxN w
  | 0x0B => dLdx .ldxI w
  | 0x0C => dStx .stx w
  | 0x0D => dLdx .ldxSpN w
  | 0x0E => dLdx .ldxSpI w
  | 0x0F => dStx .stxSp w
  | 0x10 => do .ok (.ldu (← rdS y.d) (← rdMem y))
  | 0x11 => do
    zero y.d; zero y.order; zero y.scope
    check (y.size.toNat ≤ 1)
    .ok (.pref (← rdG y.g) (← rdO y.base) (y.size = 1) y.off)
  | 0x12 => dLd .lres w
  | 0x13 => do
    zero x.c; zero x.nf; zero (fld x.m 0 1)
    check (2 ≤ (fld x.m 6 2).toNat)
    let scope ← need (Scope.ofCode (fld x.m 1 3).toNat)
    .ok (.scond (← rdG x.g) (← rdV x.d) (← rdO x.a) (← rdO x.b) ((fld x.m 6 2) = 3)
      (Order.ofCode (fld x.m 4 2).toNat) scope)
  | 0x18 => dAtom .atomAdd x
  | 0x19 => dAtom .atomMinI x
  | 0x1A => dAtom .atomMinN x
  | 0x1B => dAtom .atomMaxI x
  | 0x1C => dAtom .atomMaxN x
  | 0x1D => dAtom .atomAnd x
  | 0x1E => dAtom .atomOr x
  | 0x1F => dAtom .atomXor x
  | 0x20 => dAtom .atomXchg x
  | 0x21 => do .ok (.atomCas (← rdAtom x) (← rdO x.c))
  | 0x22 => dAtom .atomIncwrap x
  | 0x28 => dAtom .atomSpAdd x
  | 0x29 => dAtom .atomSpMinI x
  | 0x2A => dAtom .atomSpMinN x
  | 0x2B => dAtom .atomSpMaxI x
  | 0x2C => dAtom .atomSpMaxN x
  | 0x2D => dAtom .atomSpAnd x
  | 0x2E => dAtom .atomSpOr x
  | 0x2F => dAtom .atomSpXor x
  | 0x30 => dAtom .atomSpXchg x
  | 0x31 => do .ok (.atomSpCas (← rdAtom x) (← rdO x.c))
  | 0x32 => dAtom .atomSpIncwrap x
  | 0x34 => dAtom .fatomAdd x
  | 0x35 => dAtom .fatomMin x
  | 0x36 => dAtom .fatomMax x
  | 0x37 => do
    zero x.c
    let a ← rdAtom x
    check (a.d.isNone && a.order == .plain && a.scope == .core)
    .ok (.fatomAddOrd a.g a.a a.b a.dbl)
  | 0x38 => dAtom .fatomSpAdd x
  | 0x39 => dAtom .fatomSpMin x
  | 0x3A => dAtom .fatomSpMax x
  | 0x3C => do
    zero y.d
    .ok (.ordf (← rdMem y))
  | 0x3D => do
    zero y.d; zero y.base; zero y.size; zero y.off
    .ok (.fence (← rdG y.g) (Order.ofCode y.order.toNat) (← need (Scope.ofCode y.scope.toNat)))
  | 0x3E => do
    zero x.nf; zero (fld x.m 0 1)
    check (2 ≤ (fld x.m 6 2).toNat)
    let c ← need (WCond.ofCode (fld x.m 3 3).toNat)
    .ok (.waita (← rdG x.g) (← rdV x.d) (← rdO x.a) (← rdO x.b) (← rdO x.c) ((fld x.m 6 2) = 3) c
      ((fld x.m 2 1) = 1) ((fld x.m 1 1) = 1))
  | _ => .error .illegal

/-- The bits 28:0 of a SCAN or REDW below source a: seg, depth, rounding, sat, type, op (R204). -/
def rdScan (w : Word) : Dec (Bool × BitVec 3 × Rm × Bool × DTy × ScanOp) := do
  zero (fld w 19 6); zero (fld w 9 6); zero (fld w 0 1)
  let rm ← need (Rm.ofCode (fld w 16 3).toNat)
  let ty ← need (DTy.ofCode (fld w 4 5).toNat)
  let op ← need (ScanOp.ofCode (fld w 1 3).toNat)
  .ok ((fld w 28 1) = 1, fld w 25 3, rm, (fld w 15 1) = 1, ty, op)

def encScan (seg : Bool) (depth : BitVec 3) (rm : Rm) (sat : Bool) (ty : DTy) (op : ScanOp) :
    BitVec 29 :=
  BitVec.ofNat 29 (2 ^ 28 * bit seg + 2 ^ 25 * depth.toNat + 2 ^ 16 * rm.code + 2 ^ 15 * bit sat
    + 16 * ty.code + 2 * op.code)

/-- A barrier or join instruction with only a number in the low `len` bits of its immediate
(R206, R208). -/
def dNum (len : Nat) (mk : Guard → BitVec len → Instr) (w : Word) : Dec Instr := do
  let y := fI w
  zero y.d; zero y.a; zero (fld y.imm len (29 - len))
  .ok (mk (← rdG y.g) (fld y.imm 0 len))

/-- Page 7 (R201–R208). DESIGN CHOICE: a depth field that is not 0 beside seg 0 is a reserved use of SCAN
(notes/assumptions/53.md). -/
def decPage7 (op : Nat) (w : Word) : Dec Instr :=
  let x := f3 w
  let y := fI w
  match op with
  | 0x00 => do
    zero x.b; zero x.c; zero x.m; zero x.nf
    check (x.d.toNat ≤ 3)
    .ok (.xcfg (← rdG x.g) (BitVec.ofNat 2 x.d.toNat) (← rdS x.a))
  | 0x01 => do
    zero x.b; zero x.c; zero (fld x.m 0 6); zero x.nf
    .ok (.xmov (← rdG x.g) (← rdV x.d) (← rdO x.a) (fld x.m 6 2))
  | 0x02 => do
    zero (fld x.m 0 6); zero x.nf
    .ok (.lread (← rdG x.g) (← rdV x.d) (← rdV x.a) (← rdO x.b) (← rdO x.c) (fld x.m 6 2))
  | 0x03 => do
    let (seg, depth, rm, sat, ty, op) ← rdScan w
    check (seg || depth == 0)
    .ok (.scan (← rdG x.g) (← rdV x.d) (← rdO x.a) (if seg then some depth else none) rm sat ty op)
  | 0x04 => do
    let (seg, depth, rm, sat, ty, op) ← rdScan w
    check (!seg && depth == 0)
    .ok (.redw (← rdG x.g) (← rdO x.d) (← rdO x.a) rm sat ty op)
  | 0x08 => dNum 8 .barArrive w
  | 0x09 => dNum 8 .barWait w
  | 0x0A => dNum 8 .barSync w
  | 0x0B => do
    zero y.d; zero (fld y.imm 9 20)
    .ok (.barx (← rdG y.g) (fld y.imm 0 8) (← rdO y.a) ((fld y.imm 8 1) = 1))
  | 0x10 => dNum 4 .jset w
  | 0x11 => do
    zero y.d; zero (fld y.imm 4 25)
    .ok (.jsetUniform (← rdG y.g) (fld y.imm 0 4) (← rdS y.a))
  | 0x12 => dNum 4 .join w
  | 0x13 => dNum 4 .jarr w
  | 0x14 => do
    zero y.a; zero (fld y.imm 6 23)
    .ok (.jqry (← rdG y.g) (← rdO y.d) (fld y.imm 0 4) (fld y.imm 4 2))
  | _ => .error .illegal

/-- Page 8 (R215, R217, R223). -/
def decPage8 (op : Nat) (w : Word) : Dec Instr := do
  let x := f3 w
  let str : BitVec 2 := fld x.m 6 2
  let j : BitVec 4 := fld x.m 2 4
  match op with
  | 0x00 => do
    zero x.nf
    zero x.c; zero x.m
    .ok (.own (← rdG x.g) (← rdV x.d) (← rdO x.a) (← rdO x.b))
  | 0x01 => do
    zero x.nf
    zero x.d; zero x.c; zero (fld x.m 0 4)
    .ok (.ringget (← rdG x.g) (fld x.m 4 4) (← rdO x.a) (← rdO x.b))
  | 0x02 => do
    zero x.nf
    zero x.d; zero x.b; zero x.c; zero (fld x.m 0 4)
    .ok (.ringput (← rdG x.g) (fld x.m 4 4) (← rdO x.a))
  | 0x08 => do
    zero x.nf
    zero (fld x.m 0 2)
    .ok (.mxmac (← rdG x.g) (← rdO x.d) (← rdS x.a) (← rdS x.b) (← rdO x.c) str j)
  | 0x09 => do
    zero x.nf
    zero (fld x.m 0 1)
    .ok (.mxsmac (← rdG x.g) (← rdO x.d) (← rdS x.a) (← rdS x.b) (← rdO x.c) str j
      ((fld x.m 1 1) = 1))
  | 0x0A => do
    zero x.nf
    zero x.a; zero x.b; zero x.c; zero (fld x.m 0 2)
    .ok (.mxzero (← rdG x.g) (← rdO x.d) str j)
  | 0x0B => do
    zero x.nf
    zero x.a; zero x.b; zero x.c; zero (fld x.m 0 4)
    .ok (.mxwait (← rdG x.g) (← rdV x.d) (fld x.m 4 4))
  | 0x0C => do
    zero x.nf
    zero x.d; zero x.b; zero x.c; zero x.m
    .ok (.mxtokGive (← rdG x.g) (← rdO x.a))
  | 0x0D => do
    zero x.nf
    zero x.d; zero x.a; zero x.b; zero x.c; zero x.m
    .ok (.mxtokTake (← rdG x.g))
  | _ => .error .illegal

/-- Page 9 (R230). VSWAIT's every field is zero, its guard too (DEDUCED, notes/assumptions/83.md). -/
def decPage9 (op : Nat) (w : Word) : Dec Instr := do
  let x := f3 w
  let y : Dec Sweep := do
    zero x.nf; zero (fld x.m 0 7)
    .ok (Sweep.mk (← rdG x.g) (← rdO x.d) (← rdO x.a) (← rdO x.b) (← rdO x.c) ((fld x.m 7 1) = 1))
  match op with
  | 0x0 => do .ok (.vswAdd (← y))
  | 0x1 => do .ok (.vswMul (← y))
  | 0x2 => do .ok (.vswFma (← y))
  | 0x3 => do .ok (.vswMax (← y))
  | 0x4 => do .ok (.vswMin (← y))
  | 0x5 => do .ok (.vswExp (← y))
  | 0x6 => do .ok (.vswCvt (← y))
  | 0x7 => do .ok (.vswScl (← y))
  | 0x8 => do .ok (.vswRsum (← y))
  | 0x9 => do .ok (.vswRmax (← y))
  | 0xF => do
    zero x.nf; zero x.g; zero x.d; zero x.a; zero x.b; zero x.c; zero x.m
    .ok (.vswait .always)
  | _ => .error .illegal

/-- Page 10 (R232). -/
def decPage10 (op : Nat) (w : Word) : Dec Instr := do
  let x := f3 w
  if 4 < op then .error .illegal
  zero x.nf; zero (fld x.m 0 4)
  let y := Copy.mk (← rdG x.g) (← rdO x.d) (← rdO x.a) (← rdO x.b) (← rdO x.c)
    (← need (Scope.ofCode (fld x.m 4 3).toNat))
  let ws : Bool := (fld x.m 7 1) = 1
  check (!ws || op == 0)
  match op with
  | 0x0 => .ok (.cpyIn y ws)
  | 0x1 => .ok (.cpyOut y)
  | 0x2 => .ok (.cpyRows y)
  | 0x3 => .ok (.cpyFill y)
  | _ => .ok (.cpyWs y)

/-- Page 11 (R235, R237, R238). -/
def decPage11 (op : Nat) (w : Word) : Dec Instr :=
  let x := f3 w
  match op with
  | 0x00 => do
    zero x.d; zero x.b; zero x.c; zero x.m; zero x.nf
    .ok (.tspawn (← rdG x.g) (← rdO x.a))
  | 0x01 => do
    zero x.d; zero x.b; zero x.c; zero x.m; zero x.nf
    .ok (.tjob (← rdG x.g) (← rdO x.a))
  | 0x02 => do
    zero x.d; zero x.a; zero x.b; zero x.c; zero x.m; zero x.nf
    .ok (.tdone (← rdG x.g))
  | 0x08 => do
    zero x.c; zero x.m; zero x.nf
    .ok (.tilereg (← rdG x.g) (← rdV x.d) (← rdO x.a) (← rdO x.b))
  | 0x09 => do
    zero x.b; zero x.c; zero x.m; zero x.nf
    .ok (.tileq (← rdG x.g) (← rdV x.d) (← rdO x.a))
  | 0x0A => do
    zero x.d; zero x.c; zero x.m; zero x.nf
    .ok (.tiledrop (← rdG x.g) (← rdO x.a) (← rdO x.b))
  | 0x10 => dNum 3 .grow w
  | 0x11 => dNum 3 .shed w
  | _ => .error .illegal

/-- The system call of number n (R314). -/
def syscOf (n : BitVec 8) (x : Call) : Instr :=
  match n.toNat with
  | 0 => .syscVersion x
  | 1 => .syscAlloc x
  | 2 => .syscFree x
  | 3 => .syscPrint x
  | 4 => .syscResolve x
  | 5 => .syscNotify x
  | 6 => .syscAbort x
  | 7 => .syscCapread x
  | 8 => .syscEscalate x
  | _ => .syscUnassigned n x

/-- Page 12 (R239–R242). -/
def decPage12 (op : Nat) (w : Word) : Dec Instr := do
  let x := f3 w
  if 5 < op then .error .illegal
  zero x.nf
  match op with
  | 0x0 => do
    .ok (syscOf x.m ⟨← rdG x.g, ← rdV x.d, ← rdO x.a, ← rdO x.b, ← rdO x.c⟩)
  | 0x1 => do
    zero x.c; zero x.m
    .ok (.trd (← rdG x.g) (← rdV x.d) (← rdO x.a) (← rdO x.b))
  | 0x2 => do
    zero x.d; zero x.m
    .ok (.twr (← rdG x.g) (← rdO x.a) (← rdO x.b) (← rdO x.c))
  | 0x3 => do
    zero x.d; zero x.a; zero x.b; zero x.c; zero x.m
    .ok (.tret (← rdG x.g))
  | 0x4 => do
    zero x.d; zero x.a; zero x.b; zero x.c
    .ok (.bkpt (← rdG x.g) x.m)
  | _ => do
    zero x.g; zero x.d; zero x.a; zero x.b; zero x.c; zero x.m
    .ok .ifence

/-- Page 15: the deprecated rows (R81–R84). -/
def decPage15 (op : Nat) (w : Word) : Dec Instr :=
  let x := f3 w
  let y := fM w
  match op with
  | 0x0 => do
    check (y.size = 3); zero y.order; zero y.scope
    .ok (.ldq (← rdG y.g) (← rdV y.d) (← rdO y.base) y.off)
  | 0x1 => do
    zero x.nf
    let (ty, sat) ← rdIntM x.m
    check (!sat)
    let d ← rdV x.d
    match ty with
    | .i .i8 => .ok (.dot4 (← rdG x.g) d (← rdO x.a) (← rdO x.b) (← rdO x.c) true)
    | .i .n8 => .ok (.dot4 (← rdG x.g) d (← rdO x.a) (← rdO x.b) (← rdO x.c) false)
    | _ => .error .reserved
  | 0x2 => dNum 8 .barw w
  | _ => .error .illegal

/-- The opcode of a syllable, bits 63:54. -/
def opcode (w : Word) : BitVec 10 := fld w 54 10

/-- An operation syllable, by its page (R79). -/
def rawOp (w : Word) : Dec Instr :=
  let op := (opcode w).toNat
  let lo := op % 64
  match op / 64 with
  | 0 => decPage0 lo w
  | 1 => decPage1 lo w
  | 2 => decPage2 lo w
  | 3 => decPage3 lo w
  | 4 => decPage4 lo w
  | 5 => decPage5 lo w
  | 6 => decPage6 lo w
  | 7 => decPage7 lo w
  | 8 => decPage8 lo w
  | 9 => decPage9 lo w
  | 10 => decPage10 lo w
  | 11 => decPage11 lo w
  | 12 => decPage12 lo w
  | 15 => decPage15 lo w
  | _ => .error .illegal

/-- A test syllable (R51). -/
def rawTest (w : Word) : Dec Instr :=
  let x := fT w
  match (opcode w).toNat with
  | 0x080 => do
    zero x.imm
    .ok (.testCmpReg (← need (Cond.ofCode x.cond.toNat)) (← rdO x.a) (← rdO x.b)
      (← need (DTy.ofCode x.ty.toNat)))
  | 0x081 => do
    zero x.b
    .ok (.testCmpImm (← need (Cond.ofCode x.cond.toNat)) (← rdO x.a)
      (← asI (← need (DTy.ofCode x.ty.toNat))) x.imm)
  | 0x082 => do
    zero x.a; zero x.b; zero x.ty; zero (fld x.imm 3 21)
    check (x.cond.toNat ≤ 1)
    .ok (.testPred (x.cond = 1) (fld x.imm 0 3))
  | _ => .error .illegal

/-- A leaf syllable (R52, R152). -/
def rawLeaf (w : Word) : Dec Instr := do
  let x := fL w
  zero x.low
  let noReg := zero x.reg
  let noOff := zero x.off
  let noCode := zero x.code
  match x.kind.toNat with
  | 0 => do noReg; noOff; noCode; .ok .leafNext
  | 1 => do noReg; noCode; .ok (.leafJmp x.off)
  | 2 => do noOff; noCode; .ok (.leafJmpi (← rdO x.reg))
  | 3 => do noReg; noCode; .ok (.leafCall x.off)
  | 4 => do noOff; noCode; .ok (.leafCalli (← rdO x.reg))
  | 5 => do noReg; noOff; noCode; .ok .leafRet
  | 6 => do noReg; noOff; noCode; .ok .leafExit
  | 7 => do noReg; noOff; .ok (.leafTrap x.code)
  | _ => .error .reserved

/-- The syllable by its position, fields only. -/
def raw (p : Pos) (w : Word) : Dec Instr :=
  match p with
  | .root | .arc => rawOp w
  | .node => rawTest w
  | .leaf => rawLeaf w

/-- The decoder: the instruction a syllable is at its position, or why it is none (R85, R349).
A collective stands in the root arc only (R56). -/
def decode (p : Pos) (w : Word) : Dec Instr := do
  let i ← raw p w
  if i.wf && (p == .root || !i.collective) then .ok i else .error .reserved

/-! ### The encoder -/

/-- A page-3 or page-4 syllable's fields. -/
def encF (op : Nat) (g : Guard) (d a b c : BitVec 10) (m : BitVec 8) (nf : Bool) : Word :=
  w3 (BitVec.ofNat 10 op) ⟨g.enc, d, a, b, c, m, BitVec.ofNat 1 (bit nf)⟩

def encInt (op : Nat) (g : Guard) (d a b c : BitVec 10) (ty : DTy) (sat : Bool) : Word :=
  encF op g d a b c (encIntM ty sat) false

def encI (op : Nat) (g : Guard) (d a : BitVec 10) (imm : BitVec 29) : Word :=
  wImm (BitVec.ofNat 10 op) ⟨g.enc, d, a, imm⟩

def encMem (op : Nat) (d : BitVec 10) (m : Mem) : Word :=
  wM (BitVec.ofNat 10 op) ⟨m.g.enc, d, m.base.enc, BitVec.ofNat 2 m.size.code,
    BitVec.ofNat 2 m.order.code, BitVec.ofNat 3 m.scope.code, m.off⟩

def encIdx (op : Nat) (d : BitVec 10) (x : Idx) : Word :=
  wM (BitVec.ofNat 10 op) ⟨x.g.enc, d, x.base.enc, BitVec.ofNat 2 x.size.code, 0, 0,
    x.index.enc ++ x.scale ++ (0 : BitVec 10)⟩

def encAtom (op : Nat) (x : Atom) (c : BitVec 10) : Word :=
  encF op x.g (match x.d with | some r => encV r | none => 0) x.a.enc x.b.enc c
    (encAtomM x.dbl x.order x.scope x.d.isNone) false

def encFn (op : Nat) (g : Guard) (d a b : BitVec 10) (ty : FTy) (fast : Bool) (rm : Rm)
    (nf : Bool) : Word :=
  encF op g d a b 0 (encFnM ty fast rm) nf

def encSweep (op : Nat) (x : Sweep) : Word :=
  encF op x.g x.d.enc x.a.enc x.b.enc x.c.enc (BitVec.ofNat 8 (128 * bit x.sat)) false

def encCopy (op : Nat) (x : Copy) (ws : Bool) : Word :=
  encF op x.g x.d.enc x.a.enc x.b.enc x.c.enc
    (BitVec.ofNat 8 (128 * bit ws + 16 * x.scope.code)) false

def encCall (n : BitVec 8) (x : Call) : Word :=
  encF 0x300 x.g (encV x.d) x.a.enc x.b.enc x.c.enc n false

def encLeaf (kind : Nat) (reg : BitVec 10) (off : BitVec 32) (code : BitVec 12) : Word :=
  wL ⟨BitVec.ofNat 4 kind, reg, off, code, 0⟩

def encMx (str : BitVec 2) (j : BitVec 4) (resume : Bool) : BitVec 8 :=
  str ++ j ++ BitVec.ofNat 2 (2 * bit resume)

def encNum {n : Nat} (op : Nat) (g : Guard) (k : BitVec n) : Word :=
  encI op g 0 0 (BitVec.ofNat 29 k.toNat)

/-- No negate and no abs: the modifier bits of an unused source. -/
def FSrc.none : FSrc := ⟨.v 0, false, false⟩

/-- The syllable of an instruction; a step of the machine itself (`Instr.isStep`) has none and
gives 0. -/
def encode (i : Instr) : Word :=
  match i with
  | .add g d a b ty sat => encInt 0x000 g d.enc a.enc b.enc 0 (.i ty) sat
  | .sub g d a b ty sat => encInt 0x001 g d.enc a.enc b.enc 0 (.i ty) sat
  | .mul g d a b ty sat => encInt 0x002 g d.enc a.enc b.enc 0 (.i ty) sat
  | .mulh g d a b ty => encInt 0x003 g d.enc a.enc b.enc 0 (.i ty) false
  | .mad g d a b c ty sat => encInt 0x004 g d.enc a.enc b.enc c.enc (.i ty) sat
  | .madw g d a b c signed sat =>
    encInt 0x005 g d.enc a.enc b.enc c.enc (.i (if signed then .i32 else .n32)) sat
  | .div g d a b ty sat => encInt 0x006 g d.enc a.enc b.enc 0 (.i ty) sat
  | .rem g d a b ty => encInt 0x007 g d.enc a.enc b.enc 0 (.i ty) false
  | .min g d a b ty => encInt 0x008 g d.enc a.enc b.enc 0 (.i ty) false
  | .max g d a b ty => encInt 0x009 g d.enc a.enc b.enc 0 (.i ty) false
  | .abs g d a ty sat => encInt 0x00A g d.enc a.enc 0 0 (.i ty) sat
  | .neg g d a ty sat => encInt 0x00B g d.enc a.enc 0 0 (.i ty) sat
  | .lea g d a b c ty => encInt 0x00C g d.enc a.enc b.enc c.enc (.i ty) false
  | .addImm g d a ty imm => encI (0x020 + ty.idx) g d.enc a.enc imm
  | .subRevImm g d a ty imm => encI (0x024 + ty.idx) g d.enc a.enc imm
  | .mulImm g d a ty imm => encI (0x028 + ty.idx) g d.enc a.enc imm
  | .minImm g d a ty imm => encI (0x02C + ty.idx) g d.enc a.enc imm
  | .maxImm g d a ty imm => encI (0x030 + ty.idx) g d.enc a.enc imm
  | .leaImm g d a imm => encI 0x034 g d.enc a.enc imm
  | .and g d a b ty => encInt 0x040 g d.enc a.enc b.enc 0 ty false
  | .or g d a b ty => encInt 0x041 g d.enc a.enc b.enc 0 ty false
  | .xor g d a b ty => encInt 0x042 g d.enc a.enc b.enc 0 ty false
  | .andn g d a b ty => encInt 0x043 g d.enc a.enc b.enc 0 ty false
  | .truth g d a b c table => encF 0x044 g d.enc a.enc b.enc c.enc table false
  | .shl g d a b ty => encInt 0x045 g d.enc a.enc b.enc 0 (.i ty) false
  | .shr g d a b ty => encInt 0x046 g d.enc a.enc b.enc 0 (.i ty) false
  | .sar g d a b ty => encInt 0x047 g d.enc a.enc b.enc 0 (.i ty) false
  | .rotl g d a b ty => encInt 0x048 g d.enc a.enc b.enc 0 (.i ty) false
  | .fshl g d a b c ty => encInt 0x049 g d.enc a.enc b.enc c.enc (.i ty.ty) false
  | .bfx g d a b c ty => encInt 0x04A g d.enc a.enc b.enc c.enc (.i ty) false
  | .bfi g d a b c ty => encInt 0x04B g d.enc a.enc b.enc c.enc (.i ty) false
  | .popc g d a ty => encInt 0x04C g d.enc a.enc 0 0 (.i ty) false
  | .clz g d a ty => encInt 0x04D g d.enc a.enc 0 0 (.i ty) false
  | .ctz g d a ty => encInt 0x04E g d.enc a.enc 0 0 (.i ty) false
  | .brev g d a ty => encInt 0x04F g d.enc a.enc 0 0 (.i ty) false
  | .andImm g d a imm => encI 0x058 g d.enc a.enc imm
  | .orImm g d a imm => encI 0x059 g d.enc a.enc imm
  | .xorImm g d a imm => encI 0x05A g d.enc a.enc imm
  | .andnImm g d a imm => encI 0x05B g d.enc a.enc imm
  | .shlImm g d a imm => encI 0x05C g d.enc a.enc imm
  | .shrImm g d a imm => encI 0x05D g d.enc a.enc imm
  | .sarImm g d a imm => encI 0x05E g d.enc a.enc imm
  | .rotlImm g d a imm => encI 0x05F g d.enc a.enc imm
  | .movi g d imm => encI 0x050 g d.enc 0 imm
  | .moviW g d imm => wW 0x052 ⟨g.enc, d.enc, 0, imm⟩
  | .movhi g d imm => wW 0x051 ⟨g.enc, d.enc, 0, imm⟩
  | .mov g d a ty => encInt 0x053 g d.enc a.enc 0 0 ty false
  | .sel g d a b k => encF 0x054 g d.enc a.enc b.enc 0 (k ++ (0 : BitVec 5)) false
  | .cmp g c a b ty =>
    encF 0x080 g (BitVec.ofNat 6 ty.idx ++ BitVec.ofNat 4 c.code) a.enc b.enc 0 0 false
  | .cmpImm g c a ty imm =>
    encI 0x081 g (BitVec.ofNat 6 ty.idx ++ BitVec.ofNat 4 c.code) a.enc imm
  | .fcmp g c a b dbl nf =>
    encF 0x080 g (BitVec.ofNat 6 (if dbl then 0x10 else 0x11) ++ BitVec.ofNat 4 c.code) a.enc b.enc 0
      0 nf
  | .testCmpReg c a b ty =>
    wT 0x080 ⟨BitVec.ofNat 4 c.code, a.enc, b.enc, BitVec.ofNat 6 ty.code, 0⟩
  | .testCmpImm c a ty imm =>
    wT 0x081 ⟨BitVec.ofNat 4 c.code, a.enc, 0, BitVec.ofNat 6 ty.idx, imm⟩
  | .testPred clr d => wT 0x082 ⟨BitVec.ofNat 4 (bit clr), 0, 0, 0, BitVec.ofNat 24 d.toNat⟩
  | .pcomb g table x y z => encI 0x083 g 0 0 ((0 : BitVec 12) ++ z ++ y ++ x ++ table)
  | .pdrop g n => encNum 0x084 g n
  | .pget g d => encF 0x085 g d.enc 0 0 0 0 false
  | .pset g a => encF 0x086 g 0 a.enc 0 0 0 false
  | .ballot g d k inv => encF 0x087 g d.enc 0 0 0 (k ++ BitVec.ofNat 1 (bit inv) ++ (0 : BitVec 4)) false
  | .first g d a => encF 0x088 g (encS d) a.enc 0 0 0 false
  | .srd g d a => encF 0x089 g (encV d) a.enc 0 0 0 false
  | .swr g x a => encF 0x08A g (Operand.sp x).enc a.enc 0 0 0 false
  | .nop => encF 0x08E .always 0 0 0 0 0 false
  | .yield => encF 0x08F .always 0 0 0 0 0 false
  | .leafNext => encLeaf 0 0 0 0
  | .leafJmp off => encLeaf 1 0 off 0
  | .leafJmpi r => encLeaf 2 r.enc 0 0
  | .leafCall off => encLeaf 3 0 off 0
  | .leafCalli r => encLeaf 4 r.enc 0 0
  | .leafRet => encLeaf 5 0 0 0
  | .leafExit => encLeaf 6 0 0 0
  | .leafTrap code => encLeaf 7 0 0 code
  | .fadd g d a b ty rm nf =>
    encF (0x0C0 + ty.idx) g d.enc a.o.enc b.o.enc 0 (encFltM rm.code a b false) nf
  | .fmul g d a b ty rm nf =>
    encF (0x0C8 + ty.idx) g d.enc a.o.enc b.o.enc 0 (encFltM rm.code a b false) nf
  | .fma g d a b c negc ty rm nf =>
    encF (0x0D0 + ty.idx) g d.enc a.o.enc b.o.enc c.enc (encFltM rm.code a b negc) nf
  | .fmin g d a b ty num nf =>
    encF (0x0D8 + ty.idx) g d.enc a.o.enc b.o.enc 0 (encFltM (bit num) a b false) nf
  | .fmax g d a b ty num nf =>
    encF (0x0D8 + ty.idx) g d.enc a.o.enc b.o.enc 0 (encFltM (4 + bit num) a b false) nf
  | .frnd g d a ty rm nf =>
    encF (0x0E0 + ty.idx) g d.enc a.o.enc 0 0 (encFltM rm.code a .none false) nf
  | .fscale g d a b ty rm nf =>
    encF (0x0E8 + ty.idx) g d.enc a.o.enc b.enc 0 (encFltM rm.code a .none false) nf
  | .fclass g d a ty nf => encF (0x0F0 + ty.idx) g d.enc a.o.enc 0 0 (encFltM 0 a .none false) nf
  | .fexpo g d a ty nf => encF (0x0F8 + ty.idx) g d.enc a.o.enc 0 0 (encFltM 0 a .none false) nf
  | .fcvt g d a b c dst src rm sat nf =>
    encF (0x100 + dst.idx) g d.enc a.enc b.enc c.enc (encCvtM src.idx rm sat) nf
  | .cvti g d a b c dst src rm sat nf =>
    encF (0x108 + dst.idx) g d.enc a.enc b.enc c.enc (encCvtM src.idx rm sat) nf
  | .cvtf g d a b c dst src rm sat nf =>
    encF (0x118 + dst.idx) g d.enc a.enc b.enc c.enc (encCvtM src.idx rm sat) nf
  | .rcp g d a ty fast rm nf => encFn 0x120 g d.enc a.enc 0 ty fast rm nf
  | .rsq g d a ty fast rm nf => encFn 0x121 g d.enc a.enc 0 ty fast rm nf
  | .sqrt g d a ty fast rm nf => encFn 0x122 g d.enc a.enc 0 ty fast rm nf
  | .divF g d a b ty fast rm nf => encFn 0x123 g d.enc a.enc b.enc ty fast rm nf
  | .exp2 g d a ty fast rm nf => encFn 0x124 g d.enc a.enc 0 ty fast rm nf
  | .log2 g d a ty fast rm nf => encFn 0x125 g d.enc a.enc 0 ty fast rm nf
  | .sin g d a ty fast rm nf => encFn 0x126 g d.enc a.enc 0 ty fast rm nf
  | .cos g d a ty fast rm nf => encFn 0x127 g d.enc a.enc 0 ty fast rm nf
  | .tanh g d a ty fast rm nf => encFn 0x128 g d.enc a.enc 0 ty fast rm nf
  | .sigm g d a ty fast rm nf => encFn 0x129 g d.enc a.enc 0 ty fast rm nf
  | .erf g d a ty fast rm nf => encFn 0x12A g d.enc a.enc 0 ty fast rm nf
  | .mld g m dbl base off =>
    wM 0x140 ⟨g.enc, encM m, base.enc, BitVec.ofNat 2 (2 + bit dbl), 0, 0, off⟩
  | .mst g m dbl base off =>
    wM 0x141 ⟨g.enc, encM m, base.enc, BitVec.ofNat 2 (2 + bit dbl), 0, 0, off⟩
  | .mset g d a b sh nf => encF 0x142 g (encM d) a.enc b.enc 0 (encShape sh false) nf
  | .mmov g d a sh nf => encF 0x143 g (encM d) (encM a) 0 0 (encShape sh false) nf
  | .mtr g d a sh nf => encF 0x144 g (encM d) (encM a) 0 0 (encShape sh false) nf
  | .mmul g d a b k sh nf =>
    encF 0x145 g (encM d) (encM a) (encM b) (BitVec.ofNat 10 (0x3A0 + k.toNat)) (encShape sh false) nf
  | .mmad g d a b k sh nf =>
    encF 0x146 g (encM d) (encM a) (encM b) (BitVec.ofNat 10 (0x3A0 + k.toNat)) (encShape sh false) nf
  | .mmv g d a b acc sh nf => encF 0x147 g (encM d) (encM a) (encM b) 0 (encShape sh acc) nf
  | .mchol g d a sh nf => encF 0x148 g (encM d) (encM a) 0 0 (encShape sh false) nf
  | .mlup g d a vp sh nf => encF 0x149 g (encM d) (encM a) (encV vp) 0 (encShape sh false) nf
  | .mlus g d a b vp sh nf =>
    encF 0x14A g (encM d) (encM a) (encM b) vp.enc (encShape sh false) nf
  | .mtrs g d a b mode sh nf =>
    encF 0x14B g (encM d) (encM a) (encM b) (BitVec.ofNat 10 (0x3A0 + mode.toNat))
      (encShape sh false) nf
  | .mdet g d a sh nf => encF 0x14C g (encV d) (encM a) 0 0 (encShape sh false) nf
  | .ldN d m => encMem 0x180 (encV d) m
  | .ldI d m => encMem 0x181 (encV d) m
  | .st data m => encMem 0x182 data.enc m
  | .ldSpN d m => encMem 0x183 (encV d) m
  | .ldSpI d m => encMem 0x184 (encV d) m
  | .stSp data m => encMem 0x185 data.enc m
  | .ldWsN d m => encMem 0x186 (encV d) m
  | .ldWsI d m => encMem 0x187 (encV d) m
  | .ldSpPeekN d m => encMem 0x188 (encV d) m
  | .ldSpPeekI d m => encMem 0x189 (encV d) m
  | .ldxN d x => encIdx 0x18A (encV d) x
  | .ldxI d x => encIdx 0x18B (encV d) x
  | .stx data x => encIdx 0x18C data.enc x
  | .ldxSpN d x => encIdx 0x18D (encV d) x
  | .ldxSpI d x => encIdx 0x18E (encV d) x
  | .stxSp data x => encIdx 0x18F data.enc x
  | .ldu d m => encMem 0x190 (encS d) m
  | .pref g base l2 off => wM 0x191 ⟨g.enc, 0, base.enc, BitVec.ofNat 2 (bit l2), 0, 0, off⟩
  | .lres d m => encMem 0x192 (encV d) m
  | .scond g d a b dbl order scope =>
    encF 0x193 g (encV d) a.enc b.enc 0 (encAtomM dbl order scope false) false
  | .atomAdd x => encAtom 0x198 x 0
  | .atomMinI x => encAtom 0x199 x 0
  | .atomMinN x => encAtom 0x19A x 0
  | .atomMaxI x => encAtom 0x19B x 0
  | .atomMaxN x => encAtom 0x19C x 0
  | .atomAnd x => encAtom 0x19D x 0
  | .atomOr x => encAtom 0x19E x 0
  | .atomXor x => encAtom 0x19F x 0
  | .atomXchg x => encAtom 0x1A0 x 0
  | .atomCas x c => encAtom 0x1A1 x c.enc
  | .atomIncwrap x => encAtom 0x1A2 x 0
  | .atomSpAdd x => encAtom 0x1A8 x 0
  | .atomSpMinI x => encAtom 0x1A9 x 0
  | .atomSpMinN x => encAtom 0x1AA x 0
  | .atomSpMaxI x => encAtom 0x1AB x 0
  | .atomSpMaxN x => encAtom 0x1AC x 0
  | .atomSpAnd x => encAtom 0x1AD x 0
  | .atomSpOr x => encAtom 0x1AE x 0
  | .atomSpXor x => encAtom 0x1AF x 0
  | .atomSpXchg x => encAtom 0x1B0 x 0
  | .atomSpCas x c => encAtom 0x1B1 x c.enc
  | .atomSpIncwrap x => encAtom 0x1B2 x 0
  | .fatomAdd x => encAtom 0x1B4 x 0
  | .fatomMin x => encAtom 0x1B5 x 0
  | .fatomMax x => encAtom 0x1B6 x 0
  | .fatomAddOrd g a b dbl => encF 0x1B7 g 0 a.enc b.enc 0 (encAtomM dbl .plain .core true) false
  | .fatomSpAdd x => encAtom 0x1B8 x 0
  | .fatomSpMin x => encAtom 0x1B9 x 0
  | .fatomSpMax x => encAtom 0x1BA x 0
  | .ordf m => encMem 0x1BC 0 m
  | .fence g order scope =>
    wM 0x1BD ⟨g.enc, 0, 0, 0, BitVec.ofNat 2 order.code, BitVec.ofNat 3 scope.code, 0⟩
  | .waita g d a b c dbl cond signed sp =>
    encF 0x1BE g (encV d) a.enc b.enc c.enc
      (BitVec.ofNat 8 (64 * (2 + bit dbl) + 8 * cond.code + 4 * bit signed + 2 * bit sp)) false
  | .xcfg g k s => encF 0x1C0 g (BitVec.ofNat 10 k.toNat) (encS s) 0 0 0 false
  | .xmov g d a k => encF 0x1C1 g (encV d) a.enc 0 0 (k ++ (0 : BitVec 6)) false
  | .lread g d a b c width => encF 0x1C2 g (encV d) (encV a) b.enc c.enc (width ++ (0 : BitVec 6)) false
  | .scan g d a seg rm sat ty op =>
    encI 0x1C3 g (encV d) a.enc (encScan seg.isSome (seg.getD 0) rm sat ty op)
  | .redw g d a rm sat ty op => encI 0x1C4 g d.enc a.enc (encScan false 0 rm sat ty op)
  | .barArrive g n => encNum 0x1C8 g n
  | .barWait g n => encNum 0x1C9 g n
  | .barSync g n => encNum 0x1CA g n
  | .barx g n a ded => encI 0x1CB g 0 a.enc (BitVec.ofNat 29 (256 * bit ded + n.toNat))
  | .jset g j => encNum 0x1D0 g j
  | .jsetUniform g j s => encI 0x1D1 g 0 (encS s) (BitVec.ofNat 29 j.toNat)
  | .join g j => encNum 0x1D2 g j
  | .jarr g j => encNum 0x1D3 g j
  | .jqry g d j q => encI 0x1D4 g d.enc 0 (BitVec.ofNat 29 (16 * q.toNat + j.toNat))
  | .own g d a b => encF 0x200 g (encV d) a.enc b.enc 0 0 false
  | .ringget g q a b => encF 0x201 g 0 a.enc b.enc 0 (q ++ (0 : BitVec 4)) false
  | .ringput g q a => encF 0x202 g 0 a.enc 0 0 (q ++ (0 : BitVec 4)) false
  | .mxmac g acc a b fmt str j =>
    encF 0x208 g acc.enc (encS a) (encS b) fmt.enc (encMx str j false) false
  | .mxsmac g acc a b fmt str j resume =>
    encF 0x209 g acc.enc (encS a) (encS b) fmt.enc (encMx str j resume) false
  | .mxzero g acc str j => encF 0x20A g acc.enc 0 0 0 (encMx str j false) false
  | .mxwait g d mask => encF 0x20B g (encV d) 0 0 0 (mask ++ (0 : BitVec 4)) false
  | .mxtokGive g a => encF 0x20C g 0 a.enc 0 0 0 false
  | .mxtokTake g => encF 0x20D g 0 0 0 0 0 false
  | .vswAdd x => encSweep 0x240 x
  | .vswMul x => encSweep 0x241 x
  | .vswFma x => encSweep 0x242 x
  | .vswMax x => encSweep 0x243 x
  | .vswMin x => encSweep 0x244 x
  | .vswExp x => encSweep 0x245 x
  | .vswCvt x => encSweep 0x246 x
  | .vswScl x => encSweep 0x247 x
  | .vswRsum x => encSweep 0x248 x
  | .vswRmax x => encSweep 0x249 x
  | .vswait g => encF 0x24F g 0 0 0 0 0 false
  | .cpyIn x ws => encCopy 0x280 x ws
  | .cpyOut x => encCopy 0x281 x false
  | .cpyRows x => encCopy 0x282 x false
  | .cpyFill x => encCopy 0x283 x false
  | .cpyWs x => encCopy 0x284 x false
  | .tspawn g a => encF 0x2C0 g 0 a.enc 0 0 0 false
  | .tjob g a => encF 0x2C1 g 0 a.enc 0 0 0 false
  | .tdone g => encF 0x2C2 g 0 0 0 0 0 false
  | .tilereg g d a b => encF 0x2C8 g (encV d) a.enc b.enc 0 0 false
  | .tileq g d a => encF 0x2C9 g (encV d) a.enc 0 0 0 false
  | .tiledrop g a b => encF 0x2CA g 0 a.enc b.enc 0 0 false
  | .grow g n => encNum 0x2D0 g n
  | .shed g n => encNum 0x2D1 g n
  | .syscVersion x => encCall 0 x
  | .syscAlloc x => encCall 1 x
  | .syscFree x => encCall 2 x
  | .syscPrint x => encCall 3 x
  | .syscResolve x => encCall 4 x
  | .syscNotify x => encCall 5 x
  | .syscAbort x => encCall 6 x
  | .syscCapread x => encCall 7 x
  | .syscEscalate x => encCall 8 x
  | .syscUnassigned n x => encCall n x
  | .trd g d a b => encF 0x301 g (encV d) a.enc b.enc 0 0 false
  | .twr g a b c => encF 0x302 g 0 a.enc b.enc c.enc 0 false
  | .tret g => encF 0x303 g 0 0 0 0 0 false
  | .bkpt g n => encF 0x304 g 0 0 0 0 n false
  | .ifence => encF 0x305 .always 0 0 0 0 0 false
  | .ldq g d base off => wM 0x3C0 ⟨g.enc, encV d, base.enc, 3, 0, 0, off⟩
  | .dot4 g d a b c signed =>
    encInt 0x3C1 g (encV d) a.enc b.enc c.enc (.i (if signed then .i8 else .n8)) false
  | .barw g n => encNum 0x3C2 g n
  | .clauseIssue | .serialIssue | .subcoreGrant | .warpSwap | .stallLimitExpiry
  | .holdLimitExpiry | .loadCompletion | .storePerform | .atomicAtHome
  | .orderedContributionArrival | .ordfApplication | .commandAccept | .commandComplete
  | .waitaReread | .waitaTimeout | .growGrant | .wsRefreshSlot | .launchRecordRead
  | .blockAdmission | .cooperativeAdmission | .gangStart | .launchCompletion
  | .seedbedDeal | .softSave | .gracePeriodExpiry | .blockImageWrite | .restoreRetry
  | .handlerStart | .correctedError | .scrubCorrection | .uncorrectableError
  | .pcieTimeout | .peerUnreachable | .cellContribution .. | .packageReset .. | .ctxCreate ..
  | .ctxDestroy | .queueCreate .. | .shootdown .. | .preempt .. | .restore .. | .cellConfig ..
  | .attest .. | .launchEnd .. | .trapSet .. | .dbgAttach | .dbgDetach | .dbgSet ..
  | .dbgRead .. | .dbgWrite .. | .dbgResume .. | .bboxRead .. | .twrKill .. | .hostCoreAccess ..
  | .pcieEndpointAccess .. | .peerPackageAccess .. | .peerApplicationRequest
  | .regionTableWrite .. | .domainBringUp .. | .l1LineEviction => 0

/-- The position an instruction's syllable stands at; operations are judged in the root arc, where
every one of them may stand. -/
def Instr.pos (i : Instr) : Pos := if i.isTest then .node else if i.isLeaf then .leaf else .root

/-- What the decoder reads from the table's bits: an operation syllable of 64 bits, the bits above
`nbits` zero (spec/opcode_table.json gives no bits to any row of this hardware). -/
def decodeTableWord (nbits w : Nat) : Option Instr :=
  match decode .root (BitVec.ofNat 64 (w % 2 ^ nbits)) with
  | .ok i => some i
  | .error _ => none

end Sys2Proof
end

