-- ==== Sys2Proof/Config.lean ====
section
/-! DEFINITION. What an implementation fixes and what the spec leaves open: constants without a body, so
that nothing can be proved of their values (notes/assumptions name each).  Most are applied to the counter
`State.tick`, which every step that reads one advances. -/

namespace Sys2Proof.Config

/-- The machine's next own step when the outside has ordered none (R23, R29, R43: which enabled step
comes next is open). -/
opaque schedule : Nat → Instr × Turn

/-- Syllables beyond the first that an issue in progress performs before another step of the machine may come
between: issues of several lanes run side by side (R43). -/
opaque burst : Nat → Nat

/-- Compute cycles that pass before that step. -/
opaque elapsed : Nat → Nat

/-- Whether a load at count `n` leaves write `id` unread, where nothing makes it visible (R267, R271). -/
opaque hides : Nat → Nat → Bool

/-- The first write that a table walk at count `n` of the access `key` has not met at the entry at a physical address
(R251). -/
opaque oldEntry : Nat → Nat → Nat → Nat

/-- The chunk of an engine's work up to which a peek at count `n` sees element `e` (R184). -/
opaque peekCut : Nat → Nat → Nat

/-- Byte `off` of a row of a sparse operand that leaves its block's window after the command's syllable (R212, R225). -/
opaque strayByte : Nat → Nat → BitVec 8

/-- Whether write `id` to a dirty line of an L2 whose data is lost at count `n` had been written back (R375). -/
opaque writtenBack : Nat → Nat → Bool

/-- Byte `i` of a block image, whose layout is not architectural, written at count `n` (R310). -/
opaque imageByte : Nat → Nat → BitVec 8

/-- Compute cycles within which what leaves a warp's queue is performed (R331). -/
opaque performBound : Nat

/-- Whether a line leaves the L1 when a fill takes place: count, line (R16, R248); `l1w` for a line of the weight
store. -/
opaque l1Evicted : Nat → Nat → Bool

opaque l1wEvicted : Nat → Nat → Bool

/-- The line that a full L1 gives up for another, and the same for the instruction cache. -/
opaque l1Victim : Nat → Nat

opaque l1iVictim : Nat → Nat

/-- The code of an inline integer in a float format that does not hold it: type index, integer's number. -/
opaque inlineCode : Nat → Nat → Nat

/-- The key hash fused into the part (R317). -/
opaque fusedKeyHash : BitVec 512

/-- The identity key's public half and its certificate, as the part has them (R318, R320). -/
opaque identity : List Byte

/-- Signing by the identity key of a public half, whose secret part never leaves the root of trust (R318). -/
opaque falconSign : List Byte → List Byte → List Byte

/-- The resident system's version (R314, VERSION). -/
opaque systemVersion : BitVec 48

/-- The 64 KiB page number at which the resident system would place an ALLOC, and the frame within its
stack it would give page k (R314). -/
opaque allocPage : Nat → Nat

opaque allocFrame : Nat → Nat → Nat

/-- The 1 MiB frame of the upper half of HBM in which the capability list stands (R319). -/
opaque capFrame : Nat

/-- Instruction lines that leave the cache when a fetch fills one (R248). -/
opaque l1iEvicted : Nat → Nat → Bool

/-- Units of a copy whose access to PCIe space errs (R380). -/
opaque pcieFails : Nat → Nat → Bool

/-- The place among those with its own key that contribution `k` takes in an application at count `n` (R130). -/
opaque ordTie : Nat → Nat → Nat

/-- Whether unit k after the failing unit of a copy is written (R368). -/
opaque copyTail : Nat → Nat → Bool

/-- Queue items of Seedbed that a die holds on die (R406). -/
opaque seedOnDie : Nat → Nat

end Sys2Proof.Config
end

