-- ==== Sys2Proof/Machine/State.lean ====
section
/-! DEFINITION. The state of the machine as plain data: everything the spec names (INVENTORY.md,
'## State'), the reasons a step can stop, and the state after package reset.

Keyed collections are sparse maps `SMap`: lists of (key, value) pairs with strictly rising keys; where
a map has a default, no entry holds it.  Numbering: core 132·die + $core (R14); warp slot
96·core + $warp (R17); lane 32·core + 8·sub-core + lane; sub-core 4·core + sc. -/

namespace Sys2Proof.Machine

/-- A sparse map (see above). -/
abbrev SMap (α : Type) := List (Nat × α)

/-- Why the machine stops with a fault. -/
inductive Fault where
  /-- Raised by an access of a host-die core, a PCIe endpoint or a peer package to a physical address
  that R245 says does not exist (reserved region or an address above the package's HBM). The spec gives
  such an access no effect. Safe: the model stops where the hardware might go on. -/
  | noSuchAddress (pa : Nat)
  deriving DecidableEq, Repr

/-- Why the machine refuses an instruction. -/
inductive Refusal where
  /-- Raised by an arm of `exec` whose instruction has no meaning yet. Safe: no claim about it can be
  proved. -/
  | notModelled (mnemonic : String)
  deriving DecidableEq, Repr

/-- Whether a thread is live, dead or absent from a partial warp (R25, R31). -/
inductive Life where
  | live | dead | absent
  deriving DecidableEq, Repr

/-- A byte's place: physical memory, a core's scratchpad (0x18_0000·core + offset), a die's weight
store (2^32·die + offset). -/
inductive Place where
  | mem (pa : Nat)
  | sp (a : Nat)
  | ws (a : Nat)
  deriving DecidableEq, Repr

/-- Where an agent of R261 stands: a thread or an engine of a core, Seedbed or the scheduler of a die, a host-die
core or PCIe endpoint, a peer package. -/
inductive Spot where
  | core (c : Nat)
  | engine (c : Nat)
  | die (d : Nat)
  | outside
  | peer (p : Nat)
  deriving DecidableEq, Repr

/-- A release as a reader finds it (R263, R268, R270): its scope, who made it, the cores of that agent's span, and
the numbers of the writes it publishes. -/
structure Head where
  scope : Scope
  spot  : Spot
  span  : List Nat
  view  : List Nat
  deriving DecidableEq, Repr

/-- A write in the order in which writes reached their homes (R264): the bytes it replaced, who made it, the
issue (0 for none) and thread whose store it was, the releases that a reader of it meets. -/
structure Ver where
  id     : Nat
  place  : Place
  old    : List Byte
  spot   : Spot
  issue  : Nat
  thread : Nat
  heads  : List Head
  /-- the cycle in which it was performed (R331) -/
  time   : Nat
  /-- of a strong write: its scope and the cores of its span (R263, R269) -/
  strong : Option (Scope × List Nat)
  deriving DecidableEq, Repr

/-- A thread blocked in WAITA (R198, R199). -/
structure Wait where
  va       : Word
  place    : Place
  sp       : Bool
  dbl      : Bool
  cond     : WCond
  signed   : Bool
  b        : Word
  acquire  : Bool
  scope    : Scope
  /-- $time at which it gives up; none never -/
  deadline : Option Nat
  dst      : BitVec 8
  deriving DecidableEq, Repr

/-- The causes of R28. -/
inductive Blocked where
  | join (j : BitVec 4)
  | barrier (b : Nat)
  | waita (w : Wait)
  | ring (q s : BitVec 4) (phase : Bool)
  | grow (n : Nat)
  | token
  deriving DecidableEq, Repr

/-- A reservation (R190): the 32-byte granule and the virtual address of the LRES. -/
structure Resv where
  granule : Nat
  va      : Nat
  deriving DecidableEq, Repr

/-- A thread (R25–R28, R41, R64, R123, R190, R334, R399). -/
structure Thread where
  life     : Life
  pc       : Addr56
  /-- v0–v255; unlisted registers hold 0 -/
  v        : SMap Word
  /-- d0–d7 -/
  d        : BitVec 8
  /-- f0–f11; unlisted flags hold 0 -/
  f        : SMap Nat
  /-- $flags -/
  flags    : BitVec 7
  /-- the return stack, newest entry first -/
  ret      : List Addr56
  spill    : BitVec 32
  rsp      : Word
  frame    : Word
  /-- what the thread waits for, in the order in which it began to (R28) -/
  blocked  : List Blocked
  /-- the arrival record: entry k (0–3) holds a barrier and a phase -/
  arrivals : SMap (Nat × Bool)
  /-- the mark of YIELD (R151) -/
  yielded  : Bool
  /-- the resume bit (R399) -/
  resume   : Bool
  resv     : Option Resv
  trapWord : Word
  detail   : Word
  /-- the task record's join record address, for a thread started from a record (R300, R301) -/
  task     : Option Word
  /-- $frame as the task received it (the key of R130) -/
  taskFrame : Word
  /-- the number of the task; 0 in a thread that a launch started -/
  taskId   : Nat
  /-- the thread has ended its save or restore routine (R308) -/
  routineEnd : Bool
  /-- bits 63:56 of the address at which a record or a safe point started it: not 0, nothing can be fetched there
  (R390, R404) -/
  far      : BitVec 8
  deriving DecidableEq, Repr

/-- A thread that is absent, with every register at its start value (R26). -/
def Thread.absent : Thread :=
  { life := .absent, pc := 0, v := [], d := 0, f := [], flags := 0, ret := [], spill := 0, rsp := 0,
    frame := 0, blocked := [], arrivals := [], yielded := false, resume := false, resv := none,
    trapWord := 0, detail := 0, task := none, taskFrame := 0, taskId := 0, routineEnd := false,
    far := 0 }

/-- A captured matrix command (R224, R360). `signers` are the threads whose SETB flag it holds up. -/
structure Capture where
  op      : BitVec 10
  stream  : BitVec 2
  resume  : Bool
  acc     : BitVec 9
  fmt     : Word
  a0      : Word
  a1      : Word
  b0      : Word
  b1      : Word
  clause  : Addr56
  thread  : Nat
  signers : List (Nat × Nat)
  deriving DecidableEq, Repr

/-- A join register (R37). -/
structure Join where
  expected : Mask
  signed   : Mask
  waiters  : Mask
  lost     : Bool
  capture  : Option Capture
  deriving DecidableEq, Repr

def Join.clear : Join := ⟨0, 0, 0, false, none⟩

/-- A PC-table entry (R27). -/
structure Entry where
  addr    : Addr56
  members : Mask
  age     : Nat
  deriving DecidableEq, Repr

/-- A named barrier (R40). -/
structure Bar where
  e : Nat
  a : Nat
  x : Nat
  p : Bool
  d : Bool
  /-- the writes that the arrivals of this phase and of the phases before have published (R272) -/
  view : List Nat
  done : List Nat
  deriving DecidableEq, Repr

/-- The key of an ordered contribution (R130). -/
structure OrdKey where
  cls   : Nat
  block : Nat
  rank  : Nat
  seq   : Nat
  deriving DecidableEq, Repr

/-- What stands in a store queue or is on its way from a core (R60, R265). -/
inductive StKind where
  | store (bytes : List Byte)
  | atom (op : AtomOp) (b c : Word) (dbl : Bool) (load : Option Nat)
  | scond (b : Word) (dbl : Bool) (load : Nat)
  | ordf (dbl : Bool)
  | contrib (dbl : Bool) (val : Word) (key : OrdKey) (launch : Nat)
  /-- a release, acquire or acq_rel fence (R197) -/
  | fence
  deriving DecidableEq, Repr

structure StItem where
  kind   : StKind
  place  : Place
  va     : Word
  order  : Order
  scope  : Scope
  warp   : Nat
  thread : Nat
  /-- the issue it belongs to, the cycle in which it was committed, the cores of its block's span -/
  issue  : Nat := 0
  born   : Nat := 0
  span   : List Nat := []
  /-- its launch and its thread's task -/
  launch : Nat := 0
  task   : Nat := 0
  /-- other threads of its core may already act after it: released at core scope, or read by one of them (R263,
  R272) -/
  pub    : Bool := false
  deriving DecidableEq, Repr

/-- Breakpoints, watchpoints and enables of a warp (R397) are `DbgSet`. -/
def dbgNone : DbgSet := ⟨Vector.replicate 4 ⟨0, 0, false⟩, Vector.replicate 4 ⟨0, false, 0, 0, 0⟩, false, false⟩

/-- A frozen warp (R338, R342, R392, R396): waiting for its handler, in it, or escalated. -/
inductive Freeze where
  | waiting | running | escalated
  deriving DecidableEq, Repr

/-- Saving and restoring (R308, R309, R311). -/
inductive SavePhase where
  /-- save routines run -/
  | routine
  /-- soft save done -/
  | soft
  /-- hard save ordered: the warp is stopped and waits for its flags -/
  | stopping
  /-- hard save done -/
  | hard
  /-- restore routines run -/
  | restoring
  deriving DecidableEq, Repr

/-- A warp resident on a lane. The threads' map holds 0–31, and 32 for the handler thread (R392). -/
structure Warp where
  ctx      : Nat
  launch   : Nat
  block    : Nat
  /-- the warp's number in the block (R32) -/
  num      : Nat
  role     : Nat
  kind     : Nat
  /-- position of its core in the span -/
  pos      : Nat
  threads  : SMap Thread
  table    : List Entry
  /-- serial mode and its p (R30) -/
  serial   : Option Nat
  joins    : SMap Join
  xc       : SMap (BitVec 832)
  s        : SMap Word
  units    : Nat
  /-- the GROW requests that wait, in order: units and threads (R238) -/
  grows    : List (Nat × Mask)
  stq      : List StItem
  trappc   : Word
  trapinfo : Word
  freeze   : Option Freeze
  /-- the kind, clause and trap word of a double fault (R395) -/
  double   : Option (Addr56 × Word)
  /-- TWRs that take effect at TRET, in order: thread, selector, value (R240) -/
  edits    : List (Nat × Nat × Word)
  h        : SMap Word
  dbg      : DbgSet
  /-- settings that the warp takes at its next issue (R397) -/
  dbgNext  : Option DbgSet
  /-- restored, and not issued since (R332) -/
  restored : Bool
  /-- the cycle since which the warp has been ready, if it is (R299) -/
  readyAt  : Option Nat
  save     : Option SavePhase
  /-- the threads, joins, uniform registers and exchange configurations as captured for a save (R308) -/
  captured : SMap Thread
  capJoins : SMap Join
  capS     : SMap Word
  capXc    : SMap (BitVec 832)
  deriving DecidableEq, Repr

/-- Where a data-returning operation delivers (R57). -/
inductive LoadDst where
  | v (r : BitVec 8)
  /-- an LDU: its uniform register and the threads that performed it with their flags -/
  | s (r : BitVec 9) (performers : List (Nat × Option Nat))
  /-- the successor, for the refill of R64 -/
  | pc
  /-- the window of an MLD and the places of its words -/
  | m (m : BitVec 4) (dbl : Bool) (words : List Place)
  deriving DecidableEq, Repr

/-- How a load reads (R182, R190): its order and scope, and whether it reserves its granule. -/
structure How where
  order : Order
  scope : Scope
  resv  : Bool
  deriving DecidableEq, Repr

/-- An uncompleted data-returning operation (R57–R59). -/
structure Load where
  warp   : Nat
  block  : Nat
  thread : Nat
  dst    : LoadDst
  flag   : Option Nat
  /-- the values it returns; none until they have been read or the home has answered -/
  val    : Option (List Word)
  /-- bytes read, and whether they are sign-extended -/
  bytes  : Nat
  sx     : Bool
  /-- its completion waits for its bank's refresh (R183) -/
  held   : Bool
  /-- it is an LD.sp.peek (R184) -/
  peek   : Bool := false
  /-- an atomic or SCOND: the home answers it -/
  homed  : Bool := false
  how    : How
  place  : Place
  va     : Word
  clause : Addr56
  deriving DecidableEq, Repr

/-- What a command asks of its unit. -/
inductive CmdBody where
  /-- kind 0 CPY.IN, 1 CPY.OUT, 2 CPY.ROWS, 3 CPY.FILL, 4 CPY.WS (R232) -/
  | copy (kind : Nat) (ws : Bool) (scope : Scope) (d a b c : Word)
  /-- kind 0 MXMAC, 1 MXSMAC, 2 MXZERO (R223) -/
  | matrix (kind : Nat) (stream : BitVec 2) (resume : Bool) (acc : BitVec 9) (fmt a0 a1 b0 b1 : Word)
  | mxwait (mask : BitVec 4)
  /-- op 0–9 of R230 -/
  | sweep (op : Nat) (sat : Bool) (d a b c : Word)
  | vswait
  | tspawn (a : Word)
  | tjob (a : Word)
  | tilereg (id loc : Word)
  | tileq (id : Word)
  | tiledrop (id sel : Word)
  | sysc (n : BitVec 8) (a b c : Word)
  deriving DecidableEq, Repr

/-- A sent command (R211–R213). -/
structure Cmd where
  warp     : Nat
  block    : Nat
  launch   : Nat
  ctx      : Nat
  core     : Nat
  thread   : Nat
  opcode   : BitVec 10
  clause   : Addr56
  body     : CmdBody
  dst      : Option (BitVec 8)
  /-- the flags it holds up: thread and flag -/
  flags    : List (Nat × Nat)
  /-- the index of its block, for a record of its failure (R370) -/
  index    : Nat
  accepted : Bool
  /-- physical tiles of its tile set on its core -/
  tiles    : List Nat
  /-- chunks of a matrix command already applied (R126), or units of a copy already made (R256) -/
  done     : Nat
  /-- units of a copy before `done` that wait for their bank's refresh (R254) -/
  held     : List Nat
  deriving DecidableEq, Repr

/-- The role table's entries (R292). -/
structure Role where
  entry : Word
  kind  : Nat
  units : Nat
  w     : Nat
  deriving DecidableEq, Repr

/-- The kernel parameter block (R291–R293). -/
structure Kpb where
  roles  : List Role
  coop   : Bool
  bars   : Nat
  tiles  : Nat
  regs   : Nat
  lines  : List Word
  safes  : List (Word × Word × Word)
  params : List Byte
  deriving DecidableEq, Repr

/-- A launch record (R289). -/
structure Rec where
  kpb       : Word
  params    : Word
  gx        : Nat
  gy        : Nat
  gz        : Nat
  x         : Nat
  y         : Nat
  z         : Nat
  span      : Nat
  dies      : BitVec 4
  interlude : Bool
  intr      : Bool
  serial    : Bool
  done      : Word
  stack     : Word
  stackBytes : Nat
  grace     : Nat
  deriving DecidableEq, Repr

/-- A launch that the die scheduler has read. -/
structure Launch where
  ctx      : Nat
  queue    : Nat
  index    : Nat
  info     : Rec
  /-- read before the first block is admitted -/
  kpb      : Option Kpb
  /-- blocks admitted and blocks that ran to completion -/
  admitted : Nat
  finished : Nat
  start    : Option Nat
  lastEnd  : Nat
  /-- failed commands (R370) -/
  fails    : Nat
  /-- the completion record is written, or no block will be admitted -/
  closed   : Bool
  /-- ended early -/
  ended    : Bool
  /-- the writes that its threads act after (R274) -/
  view     : List Nat
  deriving DecidableEq, Repr

/-- A resident block. -/
structure Block where
  launch  : Nat
  ctx     : Nat
  index   : Nat
  /-- package core indices of the span, in span order -/
  cores   : List Nat
  /-- first tile of the window on each core of the span, and the windows' size -/
  tileBase : List Nat
  tiles   : Nat
  barBase : List Nat
  nbars   : Nat
  bars    : SMap Bar
  /-- phase bits, key 256·position + 16·ring + slot; unlisted 0 -/
  rings   : SMap Bool
  /-- warp slots in warp-number order -/
  warps   : List Nat
  started : Bool
  /-- the warp slot that holds the matrix token, by span position (R35) -/
  token   : SMap Nat
  /-- it has a MAT role (R35, R295) -/
  mat     : Bool
  /-- its warps have all ended; its window may wait for commands (R253, R259) -/
  ended   : Bool
  deriving DecidableEq, Repr

/-- A launch queue (R288). -/
structure Queue where
  ctx     : Nat
  header  : Word
  die     : Nat
  served  : Bool
  consume : BitVec 32
  /-- records marked by launch_end before they are read (R385) -/
  marked  : List Nat
  deriving DecidableEq, Repr

/-- A range that ALLOC has returned (R314): its address, and the 64 KiB frames behind its pages. -/
structure Alloc where
  va     : Nat
  frames : List Nat
  deriving DecidableEq, Repr

/-- A context (R313, R385). -/
structure Ctx where
  secure   : Bool
  root     : Nat
  backing  : Word
  backingSize : Nat
  save     : Word
  excl     : List Nat
  handler  : Addr56
  kinds    : BitVec 28
  debugger : Bool
  /-- debug settings that later warps of the selector receive (R397) -/
  template : List (WarpSel × DbgSet)
  allocs   : List Alloc
  /-- the import table: stub address and target (R96) -/
  imports  : List (Word × Word)
  /-- dies on which pre-emption is under way, with the grace deadline of each launch (R307) -/
  preempt  : SMap (SMap Nat)
  /-- dies for which a preempt call has not returned (R313) -/
  asked    : List Nat
  /-- the writes that its threads act after since its last restore (R332) -/
  view     : List Nat
  /-- the number of the next write at the last shoot-down (R251) -/
  shot     : Nat
  deriving DecidableEq, Repr

/-- A continuation record (R301). -/
structure TaskRec where
  code     : Word
  frame    : Word
  join     : Word
  ids      : List Word
  priority : Nat
  /-- the writes that the task acts after (R272) -/
  view     : List Nat
  /-- its place in the order in which records were dealt to cores; 0 for one that was not (R310) -/
  nth      : Nat
  deriving DecidableEq, Repr

/-- An item of a Seedbed queue (R304): a record, or a card with its remaining records. -/
inductive Item where
  | task (r : TaskRec)
  | card (entry args : Word) (size count : Nat) (join base stride : Word) (hasId : Bool) (next : Nat) (view : List Nat)
  deriving DecidableEq, Repr

/-- Seedbed's queues of one context on one die: items by priority, and the lists of its cores. -/
structure Seed where
  queues : SMap (List Item)
  lists  : SMap (List TaskRec)
  deriving DecidableEq, Repr

/-- An entry of a residency table (R258). -/
structure Resid where
  ctx   : Nat
  id    : Word
  slice : Bool
  core  : Nat
  first : Nat
  count : Nat
  bytes : Nat
  block : Nat
  /-- the physical tile of `first`, in a scratchpad (R257) -/
  phys  : Nat
  deriving DecidableEq, Repr

/-- A line of global memory in an L1 and the writes that it shows (R248). -/
structure Line where
  data : BitVec 512
  vis  : List Nat
  deriving DecidableEq, Repr

/-- A core's own store: L1 lines of global memory (key address/64) and of the weight store (key
offset/64), instruction lines (key address/256), stores on their way to their homes, owner codes and
command counts of the 384 tiles, the streams' step counters (R213, R226, R248, R265). -/
structure Core where
  l1     : SMap Line
  l1w    : SMap (BitVec 512)
  l1i    : SMap (BitVec 2048)
  flight : List StItem
  owner  : SMap (BitVec 2)
  count  : SMap Nat
  steps  : SMap Nat
  /-- writes that its threads act after (R271), and writes that its loads have returned (R264) -/
  known  : List Nat
  seen   : List Nat
  /-- release fences performed: warp slot, thread, and what its later stores release (R270) -/
  rel    : List (Nat × Nat × Head)
  /-- the number of the next write when a tile last left the threads (R184) -/
  flips  : SMap Nat
  /-- the writes that a tile's last flip to the threads follows (R214) -/
  freed  : SMap (List Nat)
  deriving DecidableEq, Repr

def Core.empty : Core := ⟨[], [], [], [], [], [], [], [], [], [], [], []⟩

/-- A lane (R43, R299, R392, R238). -/
structure Lane where
  /-- the residence (0–2) of the active warp -/
  active  : Nat
  /-- the cycle since which it has held the lane -/
  since   : Nat
  /-- the cycle since which it has been stalled under case 2, and the cycles counted before -/
  stalled : Option Nat
  stallSum : Nat
  /-- the cycle until which an issue or a swap occupies the lane -/
  busy    : Nat
  /-- the warp slot that uses the handler bank -/
  bank    : Option Nat
  /-- the warp slots of the GROW requests in order of arrival -/
  grows   : List Nat
  /-- the arbiter has granted the lane an issue that has not started -/
  granted : Bool
  deriving DecidableEq, Repr

def Lane.idle : Lane := ⟨0, 0, none, 0, 0, none, [], false⟩

/-- One 64-byte event of the black box (R401). -/
structure Event where
  seq    : Nat
  time   : Nat
  source : Nat
  code   : Nat
  /-- the core, or the slice for an L2 slice -/
  core   : Nat
  warp   : Nat
  thread : Nat
  secure : Bool
  ctx    : Nat
  detail : List Word
  deriving DecidableEq, Repr

/-- A block image in the save area (R310), or a block in the die's restore queue (R388). -/
structure Saved where
  block  : Block
  warps  : List Warp
  /-- bytes of the tile windows: span position · 0x18_0000 + offset in the window -/
  tiles  : List Host.Cell
  /-- stopped MXSMACs with the step counters of their streams, by span position -/
  cmds   : List (Cmd × Nat)
  /-- cores the block's own mask names -/
  excl   : List Nat
  /-- die whose restore queue holds it -/
  waits  : Option Nat
  /-- what release fences of its warps release: warp number, thread, release (R270) -/
  rels   : List (Nat × Nat × Head) := []
  deriving DecidableEq, Repr

/-- A die. -/
structure Die where
  /-- the interlude's launch, from its first block's admission to its completion (R255) -/
  interlude : Option Nat
  resid     : List Resid
  seeds     : SMap Seed
  events    : List Event
  nextEvent : Nat
  deriving DecidableEq, Repr

def Die.empty : Die := ⟨none, [], [], [], 0⟩

/-- A machine-check record (R377). -/
structure MCheck where
  cls      : Nat
  kind     : Nat
  die      : Nat
  store    : Nat
  location : Nat
  /-- what found it, as the black box numbers its sources (R401) -/
  source   : Nat
  ctx      : Nat
  queue    : Word
  index    : Nat
  core     : Nat
  warp     : Nat
  thread   : Nat
  clause   : Word
  time     : Nat
  deriving DecidableEq, Repr

/-- A contribution in an ordered queue (R130, R195), at the physical address of its word. -/
structure Contrib where
  pa     : Nat
  dbl    : Bool
  val    : Word
  key    : OrdKey
  /-- the package and the launch that sent it -/
  pkg    : Nat
  launch : Nat
  deriving DecidableEq, Repr

/-- How many contributions one thread has sent to one word since the word's last application (R130). -/
structure OrdCount where
  pa     : Nat
  dbl    : Bool
  launch : Nat
  cls    : Nat
  block  : Nat
  rank   : Nat
  task   : Nat
  n      : Nat
  deriving DecidableEq, Repr

/-- A launch whose early end is decided and not yet carried out (R376, R384): its status and the record of
R377 that goes with it. -/
structure Doom where
  launch : Nat
  status : Nat
  check  : MCheck
  deriving DecidableEq, Repr

/-- A reduction cell (R327, R328): configuration, contributions of the open round by package, and
those that wait. -/
structure Cell where
  cfg     : CellCfg
  round   : SMap (List Byte)
  waiting : List (Nat × List Byte)
  deriving DecidableEq, Repr

/-- The attestation report (R318). -/
structure Report where
  nonce    : List Byte
  version  : BitVec 32
  image    : List Byte
  region   : List Byte
  caps     : List Byte
  sig      : List Byte
  deriving DecidableEq, Repr

/-- The host side of the package (R313–R320, R377). -/
structure HostSide where
  /-- prints of each context, in order -/
  prints     : List (Nat × List Byte)
  notifies   : List (Nat × Word)
  interrupts : Nat
  /-- what the last control call returned -/
  reply      : List Word
  mchecks    : List MCheck
  dropped    : Nat
  /-- what the last bbox_read copied, at its buffer (R385) -/
  bbox       : Nat × List Byte
  report     : Option Report
  /-- fused minimum security version and key hash -/
  fuseMin    : BitVec 32
  keyHash    : BitVec 512
  version    : BitVec 32
  imageHash  : List Byte
  /-- the digest of the region table as locked (R318) -/
  regionHash : List Byte
  /-- boot status word: 0 none, 1 booted, 2 failed -/
  bootStatus : Nat
  caps       : List Byte
  /-- bytes read by the last access of an outside agent -/
  read       : List Byte
  /-- reports of SYSC 8, by context (R396) -/
  reports    : List (Nat × Word)
  deriving DecidableEq, Repr

/-- Trellis as this package sees it (R20, R326): its id, the members, which of the 16 ports are up and the
packages that each reaches. -/
structure Trellis where
  id      : Nat
  members : BitVec 64
  up      : BitVec 16
  reach   : List (BitVec 64)
  deriving DecidableEq, Repr

/-- What is fixed in the part (R1, R14, R19, R21, R320): part code, the cores whose physical
position is not their number (by package index), the lanes with fewer than 4 units, the feature bits, the
bytes of a save image for a warp and for a core, the identity key's public half and certificate, and the figures of R21 that
repair may have reduced. -/
structure Part where
  code      : Nat
  coreMap   : SMap Nat
  laneUnits : SMap Nat
  features  : BitVec 64
  saveWarp  : Nat
  saveCore  : Nat
  identity  : List Byte
  /-- dies, and enabled cores of each: those of the lowest numbers -/
  dies      : Nat := 4
  cores     : Nat := 132
  /-- bytes of an HBM stack and of a die's weight store, L2 slices of a die, scratchpad tiles of a core -/
  stackBytes : Nat := 2 ^ 36
  wsBytes   : Nat := 2 ^ 32
  slices    : Nat := 48
  tiles     : Nat := 384
  deriving DecidableEq, Repr

/-- How a thread's path through the clause ends, other than at a leaf's own successor. -/
inductive LeafEnd where
  | go (pc : Addr56)
  /-- RET of a spilled entry: the successor is what the path's last load returns (R64) -/
  | refill
  | exit
  | trap (code : BitVec 12)
  deriving DecidableEq, Repr

/-- A fault of the path (R333–R335): kind, reported syllable, expansion step, detail. -/
structure PFault where
  kind  : Nat
  syl   : Nat
  exp   : Option Nat
  detail : Word
  deriving DecidableEq, Repr

/-- What a path does at commit besides its registers (R60), in path order. -/
inductive Fx where
  | item (i : StItem)
  | cmd (c : Cmd)
  | load (l : Load)
  /-- an atomic or SCOND with a result: the queue item takes the load's number -/
  | atomLoad (i : StItem) (l : Load)
  | jset (j : BitVec 4) (syl : Nat) (fromS : Option Mask)
  | sign (j : BitVec 4) (wait : Bool)
  /-- a matrix signature of syllable `syl`; `ok` when nothing but the vote can be wrong with it (R360) -/
  | mx (syl : Nat) (j : BitVec 4) (cap : Capture) (flag : Option Nat) (ok : Bool)
  | bar (op : Nat) (b : Nat) (count : Nat) (d : Bool)
  | ringGet (q s : BitVec 4) (phase : Bool)
  | ringPut (q s : BitVec 4)
  | take
  /-- an MXTOK.give of syllable `syl` with its thread's target -/
  | give (syl : Nat) (target : Nat)
  | waita (w : Wait) (timeout : Nat)
  | grow (n : Nat)
  | shed (n : Nat)
  | xcfg (k : BitVec 2) (src : BitVec 9)
  /-- a uniform load of syllable `syl`: one read for all its performers (R188) -/
  | ldu (syl : Nat) (l : Load)
  | tdone
  | ifence
  | bkpt (syl : Nat) (code : BitVec 8)
  | yield
  /-- a TWR that acts at TRET, and one that acts at the commit (R240, R395) -/
  | edit (t sel : Nat) (val : Word)
  | twr (t sel : Nat) (val : Word)
  | tret
  /-- a uniform register's new value (R55, R133) -/
  | uni (r : BitVec 9) (val : Word)
  /-- an effect that has been sent before its thread's commit, with the flag that it counts on (R60, R188) -/
  | done (flag : Option Nat)
  deriving DecidableEq, Repr

/-- One thread's path through the clause in progress (R53). `pos` is the heap position of the node it
is about to meet; a position that holds no node is its leaf. `next` is the first syllable it has not yet
passed, from 0. -/
structure Path where
  t      : Nat
  th     : Thread
  pos    : Nat
  next   : Nat
  /-- h0–h15 at this point of the path (the handler thread's) -/
  h      : SMap Word
  fx     : List Fx
  weight : Nat
  fault  : Option PFault
  leaf   : Option LeafEnd
  deriving DecidableEq, Repr

/-- A clause in progress: an issue of a warp (R29, R30). -/
structure Issue where
  id     : Nat
  warp   : Nat
  addr   : Addr56
  header : Word
  words  : List Word
  paths  : List Path
  /-- the threads and joins at clause entry (R55) -/
  entry  : SMap Thread
  entryJoins : SMap Join
  entryS : SMap Word
  entryXc : SMap (BitVec 832)
  /-- cycle at which the issue began -/
  clock0 : Nat
  /-- cost of the stretches completed (R67) -/
  cost   : Nat
  /-- threads stopped by a breakpoint (R398) -/
  broke  : Mask
  /-- a serial issue (R30) -/
  serial : Bool
  /-- the verdicts that need all of its paths have been given (R228, R360) -/
  judged : Bool
  deriving DecidableEq, Repr

/-- The whole machine. -/
structure State where
  /-- bytes at 52-bit physical addresses (R245); regions 1 and 2 are the bytes at the far side -/
  mem      : List Host.Cell
  /-- bytes of the scratchpads (0x18_0000·core + offset) and weight stores (2^32·die + offset) -/
  scratch  : List Host.Cell
  ws       : List Host.Cell
  /-- the weight-store refresh slot (R254) -/
  slot     : Nat
  /-- compute cycles since package reset ($clock, R74) -/
  clock    : Nat
  /-- $time at package reset -/
  timeBase : Nat
  /-- the region table (R323): entry number, two words -/
  regions  : SMap (Word × Word)
  /-- cores of the secure world (R322) -/
  secure   : List Nat
  part     : Part
  released : Bool
  ctxs     : SMap Ctx
  queues   : SMap Queue
  launches : SMap Launch
  blocks   : SMap Block
  warps    : SMap Warp
  cores    : SMap Core
  lanes    : SMap Lane
  /-- the round-robin pointers (R43): the lane granted last, by sub-core; unlisted 7 -/
  rr       : SMap Nat
  dies     : SMap Die
  loads    : SMap Load
  cmds     : SMap Cmd
  ordq     : List Contrib
  ordSeq   : List OrdCount
  /-- launches about to end early, in the order in which their ends were decided -/
  doomed   : List Doom
  cells    : SMap Cell
  /-- writes that later ones have not made unobservable, newest first, and the next number (R264, R271) -/
  vers     : List Ver
  nextVer  : Nat
  /-- acq_rel fences performed, newest first (R269) -/
  fences   : List Head
  /-- reservations of peers' threads on granules of this package: package, thread, granule (R246) -/
  peerResv : List (Nat × Nat × Nat)
  /-- words whose stored bits stay uncorrectable until they are written (R375) -/
  bad      : List Place
  trellis  : Trellis
  saved    : List Saved
  host     : HostSide
  /-- what the outside has ordered, and the machine's own steps it has left in turn -/
  agenda   : List (Instr × Turn)
  /-- the counter of free choices -/
  tick     : Nat
  /-- the parts the next own step of the machine acts on -/
  turn     : Turn
  /-- the next number of a context, queue, launch, block, load or command -/
  nextId   : Nat
  /-- the issue whose syllables the next steps perform -/
  issue    : Option Issue
  /-- the other issues in progress, by warp slot (R43) -/
  parked   : SMap Issue
  /-- syllables that the issue performs before another step of the machine may come between -/
  burst    : Nat
  deriving DecidableEq, Repr

/-- No parts named. -/
def Turn.zero : Turn := ⟨0, 0, 0, false, .laneFile, .instr⟩

def HostSide.reset : HostSide :=
  { prints := [], notifies := [], interrupts := 0, reply := [], mchecks := [], dropped := 0, bbox := (0, []),
    report := none, fuseMin := 0, keyHash := Config.fusedKeyHash, version := 0, imageHash := [], regionHash := [], bootStatus := 0,
    caps := [], read := [], reports := [] }

/-- A part as R21 gives its figures, with every core at the position of its number (notes/assumptions/45.md). -/
def Part.base : Part :=
  { code := 0, coreMap := [], laneUnits := [], features := 7, saveWarp := 0, saveCore := 0, identity := Config.identity }

/-- The machine right after package reset, before the boot ROM's first step (R316 step 1): no context,
no launch, no resident warp; the compute dies are held in reset. Values the spec does not give are
DESIGN CHOICES named in notes/assumptions. -/
def State.reset : State :=
  { mem := [], scratch := [], ws := [], slot := 0, clock := 0, timeBase := 0, regions := [], secure := [],
    part := Part.base, released := false, ctxs := [], queues := [], launches := [], blocks := [],
    warps := [], cores := [], lanes := [], rr := [], dies := [], loads := [], cmds := [], ordq := [],
    ordSeq := [], doomed := [], cells := [], vers := [], nextVer := 1, fences := [],
    peerResv := [], bad := [], trellis := ⟨0, 1, 0, []⟩, saved := [], host := HostSide.reset, agenda := [],
    tick := 0, turn := Turn.zero, nextId := 1, issue := none, parked := [], burst := 0 }

end Sys2Proof.Machine
end

