-- ==== Sys2Proof/Machine/Float.lean ====
section
/-! DEFINITION. Number formats and exact arithmetic (06_numbers.md R104–R123): codes and their values,
rounding of exact results, NaN selection, conversions, and the arithmetic of one element. -/

namespace Sys2Proof.Machine

/-- A floating format (R104): fraction bits, exponent bits; p = fb + 1. -/
structure Fmt where
  fb  : Nat
  eb  : Nat
  inf : Bool
  deriving DecidableEq, Repr

def fp64 : Fmt := ⟨52, 11, true⟩
def fp32 : Fmt := ⟨23, 8, true⟩
def fp16 : Fmt := ⟨10, 5, true⟩
def bf16 : Fmt := ⟨7, 8, true⟩
def e5m2 : Fmt := ⟨2, 5, true⟩
def e4m3 : Fmt := ⟨3, 4, false⟩
def e2m1 : Fmt := ⟨1, 2, false⟩

def Fmt.width (F : Fmt) : Nat := 1 + F.eb + F.fb
def Fmt.bias (F : Fmt) : Int := 2 ^ (F.eb - 1) - 1
def Fmt.emin (F : Fmt) : Int := 1 - F.bias
def Fmt.p (F : Fmt) : Nat := F.fb + 1

/-- The format of a float type's elements (R110). -/
def fmtOf : FTy → Fmt
  | .f64 => fp64 | .f32 => fp32 | .f32x2 => fp32 | .f16x4 => fp16 | .bf16x4 => bf16 | .e4m3 => e4m3
  | .e5m2 => e5m2 | .e2m1 => e2m1

/-- The largest finite value as significand and exponent: the all-ones exponent holds ordinary values
in E4M3 and E2M1 (R104, R107, R108). -/
def Fmt.largest (F : Fmt) : Nat × Int :=
  if F.inf then (2 ^ F.p - 1, (2 : Int) ^ F.eb - 2 - F.bias - F.fb)
  else if F = e2m1 then (3, 1)
  else (2 ^ F.p - 2, (2 : Int) ^ F.eb - 1 - F.bias - F.fb)

/-- The value of a code: a NaN with its sign and fraction, an infinity, or ±m × 2^e. -/
inductive FVal where
  | nan (neg : Bool) (frac : Nat)
  | inf (neg : Bool)
  | fin (neg : Bool) (m : Nat) (e : Int)
  deriving DecidableEq, Repr

/-- dec(c, F) (R104). -/
def dec (F : Fmt) (c : Nat) : FVal :=
  let neg : Bool := c / 2 ^ (F.width - 1) % 2 = 1
  let ex := c / 2 ^ F.fb % 2 ^ F.eb
  let fr := c % 2 ^ F.fb
  if F.inf && ex = 2 ^ F.eb - 1 then (if fr = 0 then .inf neg else .nan neg fr)
  else if F = e4m3 && ex = 15 && fr = 7 then .nan neg fr
  else if ex = 0 then .fin neg fr (F.emin - F.fb)
  else .fin neg (2 ^ F.fb + fr) ((ex : Int) - F.bias - F.fb)

def signBit (F : Fmt) (neg : Bool) : Nat := if neg then 2 ^ (F.width - 1) else 0

/-- The canonical NaN (R106). -/
def Fmt.canonNaN (F : Fmt) : Nat :=
  if F.inf then (2 ^ F.eb - 1) * 2 ^ F.fb + 2 ^ (F.fb - 1) else 127

def Fmt.infCode (F : Fmt) (neg : Bool) : Nat :=
  signBit F neg + (if F.inf then (2 ^ F.eb - 1) * 2 ^ F.fb else if F = e2m1 then 7 else 127)

/-- The code of ±m × 2^e, exact in F and no larger than its largest finite value. -/
def encFin (F : Fmt) (neg : Bool) (m : Nat) (e : Int) : Nat :=
  if m = 0 then signBit F neg
  else
    let l := m.log2
    let ex : Int := l + e
    if F.emin ≤ ex then
      let fr := if l ≤ F.fb then m * 2 ^ (F.fb - l) else m / 2 ^ (l - F.fb)
      signBit F neg + ((ex - F.emin + 1).toNat) * 2 ^ F.fb + (fr - 2 ^ F.fb)
    else
      let sh : Int := e - (F.emin - F.fb)
      signBit F neg + (if 0 ≤ sh then m * 2 ^ sh.toNat else m / 2 ^ (-sh).toNat)

/-! ### Flags (R123) -/

abbrev Flags := BitVec 7
def flNV : Flags := 1
def flDZ : Flags := 2
def flOF : Flags := 4
def flUF : Flags := 8
def flNX : Flags := 16
def flSG : Flags := 32
def flNP : Flags := 64

/-! ### Exact values and rounding (R113–R116) -/

/-- A finite exact real: ±m × 2^e, or, with `sticky`, a real strictly between that and ±(m+1) × 2^e. -/
structure Ex where
  neg    : Bool
  m      : Nat
  e      : Int
  sticky : Bool
  deriving DecidableEq, Repr

/-- Round the magnitude to a multiple of 2^q: the multiple, and whether it is inexact. -/
def roundTo (rm : Rm) (x : Ex) (q : Int) : Nat × Bool :=
  if q ≤ x.e then (x.m * 2 ^ (x.e - q).toNat, x.sticky)
  else
    let sh := (q - x.e).toNat
    let lo := x.m / 2 ^ sh
    let rem := x.m % 2 ^ sh
    let half := 2 ^ (sh - 1)
    let exact := rem = 0 && !x.sticky
    let above := half < rem || (rem = half && x.sticky)
    let tie := rem = half && !x.sticky
    let up : Bool := match rm with
      | .rne => above || (tie && lo % 2 = 1)
      | .rna => above || tie
      | .rtz => false
      | .rdn => x.neg && !exact
      | .rup => !x.neg && !exact
    (if up then lo + 1 else lo, !exact)

/-- m × 2^e < n × 2^f. -/
def magLt (m : Nat) (e : Int) (n : Nat) (f : Int) : Bool :=
  let b := min e f
  m * 2 ^ (e - b).toNat < n * 2 ^ (f - b).toNat

/-- A non-zero exact real rounded to precision p with the exponent range of F: significand, exponent,
inexact, tiny after rounding (R113, R116). -/
def roundP (p : Nat) (emin : Int) (rm : Rm) (x : Ex) : Nat × Int × Bool × Bool :=
  let ex : Int := x.m.log2 + x.e
  let q := max ex emin - ((p : Int) - 1)
  let (y, nx) := roundTo rm x q
  let q' := ex - ((p : Int) - 1)
  let (y', _) := roundTo rm x q'
  (y, q, nx, magLt y' q' 1 emin)

/-- Overflow (R114): the code and OF, NX. -/
def overflow (F : Fmt) (rm : Rm) (sat neg : Bool) : Nat × Flags :=
  let toMax : Bool := sat || (match rm with
    | .rne | .rna => false
    | .rtz => true
    | .rdn => !neg
    | .rup => neg)
  let (m, e) := F.largest
  (if toMax then encFin F neg m e else F.infCode neg, flOF ||| flNX)

/-- The sign of an exact sum of zero that R115's last item does not settle by its addends. -/
def zeroNeg (rm : Rm) : Bool := rm = .rdn

/-- rnd(x, F, m) with its flags; `x.neg` gives the sign of a zero (R115). -/
def rnd (F : Fmt) (rm : Rm) (sat : Bool) (x : Ex) : Nat × Flags :=
  if x.m = 0 && !x.sticky then (signBit F x.neg, 0)
  else
    let (y, q, nx, tiny) := roundP F.p F.emin rm x
    let (lm, le) := F.largest
    if magLt lm le y q then overflow F rm sat x.neg
    else
      (encFin F x.neg y q,
        (if nx then flNX else 0) ||| (if nx && tiny then flUF else 0))

/-- The exact value of a finite code's value. -/
def Ex.of (neg : Bool) (m : Nat) (e : Int) : Ex := ⟨neg, m, e, false⟩

/-! ### NaNs (R105, R117) -/

def Fmt.isNaN (F : Fmt) (c : Nat) : Bool :=
  match dec F c with
  | .nan .. => true
  | _ => false

/-- The E4M3 NaN counts as quiet (R105). -/
def Fmt.isSNaN (F : Fmt) (c : Nat) : Bool :=
  match dec F c with
  | .nan _ fr => F.inf && fr < 2 ^ (F.fb - 1)
  | _ => false

def Fmt.quiet (F : Fmt) (c : Nat) : Nat := if F.isSNaN c then c + 2 ^ (F.fb - 1) else c

/-- nan_pick: the first NaN operand, quieted, with NV for a signalling operand; none without a NaN. -/
def nanPick (F : Fmt) (ops : List Nat) : Option (Nat × Flags) :=
  match ops.find? F.isNaN with
  | some c => some (F.quiet c, if ops.any F.isSNaN then flNV else 0)
  | none => none

/-- A new NaN (R117). -/
def newNaN (F : Fmt) : Nat × Flags := (F.canonNaN, flNV)

/-! ### Arithmetic of one element -/

/-- The exact sum of two finite values, with the sign rules of R115 for a zero. -/
def exAdd (rm : Rm) (a b : Ex) : Ex :=
  if a.m = 0 && b.m = 0 then ⟨if a.neg = b.neg then a.neg else zeroNeg rm, 0, 0, false⟩
  else
    let e := min a.e b.e
    let va : Int := (if a.neg then -1 else 1) * (a.m * 2 ^ (a.e - e).toNat : Nat)
    let vb : Int := (if b.neg then -1 else 1) * (b.m * 2 ^ (b.e - e).toNat : Nat)
    let v := va + vb
    ⟨if v = 0 then zeroNeg rm else v < 0, v.natAbs, e, false⟩

def exMul (a b : Ex) : Ex := ⟨a.neg != b.neg, a.m * b.m, a.e + b.e, false⟩

/-- a + b of codes. -/
def fAdd (F : Fmt) (rm : Rm) (sat : Bool) (a b : Nat) : Nat × Flags :=
  match nanPick F [a, b] with
  | some r => r
  | none =>
    match dec F a, dec F b with
    | .inf x, .inf y => if x = y then (F.infCode x, 0) else newNaN F
    | .inf x, _ => (F.infCode x, 0)
    | _, .inf y => (F.infCode y, 0)
    | .fin x m e, .fin y n f => rnd F rm sat (exAdd rm (.of x m e) (.of y n f))
    | _, _ => newNaN F

def fMul (F : Fmt) (rm : Rm) (a b : Nat) : Nat × Flags :=
  match nanPick F [a, b] with
  | some r => r
  | none =>
    match dec F a, dec F b with
    | .inf x, .inf y => (F.infCode (x != y), 0)
    | .inf x, .fin y n _ => if n = 0 then newNaN F else (F.infCode (x != y), 0)
    | .fin x m _, .inf y => if m = 0 then newNaN F else (F.infCode (x != y), 0)
    | .fin x m e, .fin y n f => rnd F rm false (exMul (.of x m e) (.of y n f))
    | _, _ => newNaN F

/-- a × b + c, rounded once; 0 × ∞ raises NV even when c is a quiet NaN (R117). -/
def fFma (F : Fmt) (rm : Rm) (a b c : Nat) : Nat × Flags :=
  let zi : Bool := match dec F a, dec F b with
    | .inf _, .fin _ 0 _ => true
    | .fin _ 0 _, .inf _ => true
    | _, _ => false
  match nanPick F [a, b, c] with
  | some (r, fl) => (r, if zi then fl ||| flNV else fl)
  | none =>
    if zi then newNaN F
    else
      let prod : FVal := match dec F a, dec F b with
        | .fin x m e, .fin y n f => .fin (x != y) (m * n) (e + f)
        | .inf x, .inf y | .inf x, .fin y _ _ | .fin x _ _, .inf y => .inf (x != y)
        | _, _ => .nan false 0
      match prod, dec F c with
      | .inf x, .inf y => if x = y then (F.infCode x, 0) else newNaN F
      | .inf x, _ => (F.infCode x, 0)
      | _, .inf y => (F.infCode y, 0)
      | .fin x m e, .fin y n f => rnd F rm false (exAdd rm (.of x m e) (.of y n f))
      | _, _ => newNaN F

/-- The order of two codes, none when one is a NaN (R158). -/
def fCmp (F : Fmt) (a b : Nat) : Option Ordering :=
  let key (v : FVal) : Option (Int × Nat × Int) := match v with
    | .nan .. => none
    | .inf n => some (if n then -2 else 2, 0, 0)
    | .fin n m e => some (if m = 0 then 0 else if n then -1 else 1, m, e)
  match key (dec F a), key (dec F b) with
  | some (s, m, e), some (t, n, f) =>
    if s < t then some .lt
    else if t < s then some .gt
    else if s = 1 then
      some (if magLt m e n f then .lt else if magLt n f m e then .gt else .eq)
    else if s = -1 then
      some (if magLt n f m e then .lt else if magLt m e n f then .gt else .eq)
    else some .eq
  | _, _ => none

/-- IEEE 754-2019 minimum and maximum: −0 below +0, a NaN operand gives a NaN (R117, R194). -/
def fMinMax (F : Fmt) (isMax : Bool) (a b : Nat) : Nat × Flags :=
  match nanPick F [a, b] with
  | some r => r
  | none =>
    let neg (c : Nat) : Bool := c / 2 ^ (F.width - 1) % 2 = 1
    let less : Bool := match fCmp F a b with
      | some .lt => true
      | some .eq => neg a && !neg b
      | _ => false
    (if less != isMax then a else b, 0)

/-! ### Conversions between formats (R118) -/

/-- The fraction of a NaN of F as a NaN code of G: the sign kept, the fraction's top bits at the top. R118 does not say
where a fraction stands in a wider one that is no widening (BF16 to FP16): at the top, zeros below it (DESIGN CHOICE,
notes/assumptions/64.md). -/
def cvtNaN (F G : Fmt) (neg : Bool) (fr : Nat) : Nat :=
  if !G.inf then signBit G neg + 127
  else
    let f :=
      if F.fb ≤ G.fb then fr * 2 ^ (G.fb - F.fb)
      else
        let top := fr / 2 ^ (F.fb - G.fb)
        if top = 0 then 1 else top
    signBit G neg + (2 ^ G.eb - 1) * 2 ^ G.fb + f

/-- cvt(x, G, m) of a code of F (neither E2M1). -/
def cvt (F G : Fmt) (rm : Rm) (sat : Bool) (c : Nat) : Nat × Flags :=
  match dec F c with
  | .nan neg fr => (cvtNaN F G neg fr, 0)
  | .inf neg =>
    if G.inf then (G.infCode neg, 0)
    else if sat then (encFin G neg G.largest.1 G.largest.2, 0)
    else (signBit G neg + 127, flNV)
  | .fin neg m e => rnd G rm sat (.of neg m e)

/-- Scale by 2^k: exact. -/
def FVal.scale (v : FVal) (k : Int) : FVal :=
  match v with
  | .fin n m e => .fin n m (e + k)
  | v => v

/-- dec_blk(c, F, sc, sv) (R112). -/
def decBlk (F : Fmt) (c sc sv : Nat) : FVal :=
  if sc = 255 then .nan false 0
  else if F = e2m1 && c = 8 then
    match dec e4m3 sv with
    | .nan .. => .nan false 0
    | v => v.scale (sc - 127)
  else (dec F c).scale (sc - 127)

/-- |v| is an ordinary E2M1 magnitude (R108). -/
def ordinary (v : FVal) : Bool :=
  match v with
  | .fin _ m e => [0, 1, 2, 3, 4, 6, 8, 12].any (fun k => !magLt m e k (-1) && !magLt k (-1) m e)
  | _ => false

/-- cvt_e2m1(x, sc, sv, m) (R119). -/
def cvtE2m1 (x : FVal) (rm : Rm) (sat : Bool) (sc sv : Nat) : Nat × Flags :=
  let svNaN : Bool := e4m3.isNaN sv
  match x with
  | .nan .. => if svNaN then (8, 0) else (0, flNV)
  | .inf neg =>
    if sc = 255 then (if svNaN then (8, 0) else (0, flNV))
    else (if neg then 15 else 7, flNV)
  | .fin neg m e =>
    if sc = 255 then (if svNaN then (8, 0) else (0, flNV))
    else
      let f : Int := e + (127 - sc)
      let match_ : Bool := match dec e4m3 sv with
        | .fin n k g => !ordinary (.fin n k g) && !magLt m f k g && !magLt k g m f && n = neg
        | _ => false
      if match_ then (8, 0)
      else
        let (c, fl) := rnd e2m1 rm sat (.of neg m f)
        (if c % 8 = 0 then 0 else c, fl)

/-- E2M1 to a format (R119). -/
def cvtFromE2m1 (G : Fmt) (rm : Rm) (sat : Bool) (c sc sv : Nat) : Nat × Flags :=
  match decBlk e2m1 c sc sv with
  | .fin n m e => rnd G rm sat (.of n m e)
  | _ => (G.canonNaN, 0)

/-! ### Integer conversions (R118) -/

/-- A value to a w-bit integer. -/
def valToInt (rm : Rm) (sat signed : Bool) (w : Nat) (v : FVal) : Nat × Flags :=
  let lo : Int := if signed then -(2 ^ (w - 1)) else 0
  let hi : Int := if signed then 2 ^ (w - 1) - 1 else 2 ^ w - 1
  let bad : Nat := if signed then 2 ^ (w - 1) else 2 ^ w - 1
  let enc (v : Int) : Nat := (v % 2 ^ w).toNat
  match v with
  | .nan .. => (if sat then 0 else bad, flNV)
  | .inf neg => if sat then (enc (if neg then lo else hi), flNX) else (bad, flNV)
  | .fin neg m e =>
    let (y, nx) := roundTo rm (.of neg m e) 0
    let v : Int := if neg then -(y : Int) else y
    if lo ≤ v ∧ v ≤ hi then (enc v, if nx then flNX else 0)
    else if sat then (enc (if v < lo then lo else hi), flNX)
    else (bad, flNV)

/-- An integer to a floating code. -/
def intToF (F : Fmt) (rm : Rm) (sat : Bool) (v : Int) : Nat × Flags :=
  rnd F rm sat (.of (v < 0) v.natAbs 0)

/-! ### Quotients and roots -/

/-- floor(√n) by bits, from bit k down. -/
def isqrtFrom (n : Nat) : Nat → Nat → Nat
  | 0, r => r
  | k + 1, r => isqrtFrom n k (if (r + 2 ^ k) * (r + 2 ^ k) ≤ n then r + 2 ^ k else r)

def isqrt (n : Nat) : Nat := isqrtFrom n (n.log2 / 2 + 1) 0

/-- (m × 2^e) / (n × 2^f) to more than 64 bits beyond the wider format. -/
def exDiv (a b : Ex) : Ex :=
  let k := 130 + b.m.log2
  let num := a.m * 2 ^ k
  ⟨a.neg != b.neg, num / b.m, a.e - b.e - k, num % b.m != 0⟩

/-- √(m × 2^e) for a positive exact value. -/
def exSqrt (a : Ex) : Ex :=
  let odd : Bool := a.e % 2 != 0
  let m := (if odd then 2 * a.m else a.m) * 2 ^ 160
  let e : Int := ((if odd then a.e - 1 else a.e) - 160) / 2
  let r := isqrt m
  ⟨false, r, e, r * r != m⟩

/-- 1 / √(m × 2^e) for a positive exact value. -/
def exRsqrt (a : Ex) : Ex :=
  let odd : Bool := a.e % 2 != 0
  let m := if odd then 2 * a.m else a.m
  let e : Int := (if odd then a.e - 1 else a.e) / 2
  let k := 130 + m.log2
  let n := 2 ^ (2 * k)
  let r := isqrt (n / m)
  ⟨false, r, -e - k, r * r * m != n⟩

end Sys2Proof.Machine
end

