-- ==== Sys2Proof/Machine/Func.lean ====
section
/-! DEFINITION. The special functions (R121, R122, R161): the exact value is enclosed between two
fixed-point bounds whose precision doubles until they agree on 70 bits; exact cases stand apart, so the
value lies strictly between the two and rounding is decided. -/

namespace Sys2Proof.Machine

/-- Fixed-point bounds: the value lies in [lo, hi] × 2^e. -/
structure Bnd where
  lo : Int
  hi : Int
  e  : Int

/-- The exact value once both bounds agree on at least 70 bits. -/
def Bnd.agree (b : Bnd) : Option Ex :=
  if b.lo ≤ 0 then none
  else
    let l := b.lo.toNat.log2
    if l < 70 then none
    else
      let g := l - 70
      if b.lo.toNat / 2 ^ g = b.hi.toNat / 2 ^ g then some ⟨false, b.lo.toNat / 2 ^ g, b.e + g, true⟩ else none

/-- Bounds at precision `p`, 2p, 4p, … until they agree. The last bound stands if the fuel ends, which
no operand of a supported format has been seen to reach (UNVERIFIED, notes/assumptions/23.md). -/
def refine (f : Nat → Bnd) : Nat → Nat → Ex
  | 0, p => let b := f p; ⟨false, b.lo.toNat, b.e, true⟩
  | k + 1, p =>
    match (f p).agree with
    | some x => x
    | none => refine f k (2 * p)

def refined (f : Nat → Bnd) : Ex := refine f 8 128

/-- Σ z^(2k+1)/(2k+1) by `n` more terms; `t` is 2^p z^(2k+1), rounded down. -/
def atanhSum (a2 b2 : Nat) : Nat → Nat → Nat → Nat
  | 0, _, _ => 0
  | n + 1, k, t => t / (2 * k + 1) + atanhSum a2 b2 n (k + 1) (t * a2 / b2)

/-- artanh(a/b) for a/b ≤ 1/3. -/
def atanhB (p a b : Nat) : Nat × Nat :=
  let n := p / 3 + 4
  let s := atanhSum (a * a) (b * b) n 0 (2 ^ p * a / b)
  (s, s + 3 * n + 4)

def ln2B (p : Nat) : Nat × Nat :=
  let (l, h) := atanhB p 1 3
  (2 * l, 2 * h)

/-- Σ y^k/k! by `n` more terms. -/
def expSum (p y : Nat) : Nat → Nat → Nat → Nat
  | 0, _, _ => 0
  | n + 1, k, t => t + expSum p y n (k + 1) (t * y / (2 ^ p * (k + 1)))

/-- e^y for y in [lo, hi] × 2^−p, 0 ≤ y ≤ 1. -/
def expB (p lo hi : Nat) : Nat × Nat :=
  let n := p / 2 + 16
  (expSum p lo n 0 (2 ^ p), expSum p hi n 0 (2 ^ p) + 2 * n + 4)

/-- floor and ceiling of m × 2^e × 2^p. -/
def fixB (m : Nat) (e : Int) (p : Nat) : Nat × Nat :=
  let k : Int := e + p
  if 0 ≤ k then (m * 2 ^ k.toNat, m * 2 ^ k.toNat)
  else (m / 2 ^ (-k).toNat, m / 2 ^ (-k).toNat + 1)

/-- e^u for u in [lo, hi] × 2^−p (signed): bounds with their own exponent. -/
def expI (p : Nat) (lo hi : Int) : Bnd :=
  let (l2, h2) := ln2B p
  let n : Int := if 0 ≤ lo then lo / h2 else lo / l2
  let ylo := lo - n * (if 0 ≤ n then (h2 : Int) else l2)
  let yhi := hi - n * (if 0 ≤ n then (l2 : Int) else h2)
  let (a, b) := expB p ylo.toNat yhi.toNat
  ⟨a, b, n - p⟩

/-- 2^(±m × 2^e), not an integer exponent. -/
def exp2B (neg : Bool) (m : Nat) (e : Int) (p : Nat) : Bnd :=
  let (a, b) := fixB m e p
  let (lo, hi) : Int × Int := if neg then (-(b : Int), -(a : Int)) else (a, b)
  let n := lo / 2 ^ p
  let (l2, h2) := ln2B p
  let (x, y) := expB p ((lo - n * 2 ^ p).toNat * l2 / 2 ^ p) ((hi - n * 2 ^ p).toNat * h2 / 2 ^ p + 1)
  ⟨x, y, n - p⟩

/-- |log2 (m × 2^e)|, and whether it is negative: not a power of two. -/
def log2B (m : Nat) (e : Int) (p : Nat) : Bool × Bnd :=
  let k := m.log2
  let n : Int := e + k
  let (a, b) := atanhB p (m - 2 ^ k) (m + 2 ^ k)
  let (l2, h2) := ln2B p
  let lo : Int := n * 2 ^ p + (2 * a * 2 ^ p / h2 : Nat)
  let hi : Int := n * 2 ^ p + (2 * b * 2 ^ p / l2 + 1 : Nat)
  if n < 0 then (true, ⟨-hi, -lo, -p⟩) else (false, ⟨lo, hi, -p⟩)

/-- Σ ± 1/((2k+1) q^(2k+1)) by `n` more terms. -/
def atanSum (q2 : Nat) : Nat → Nat → Nat → Int
  | 0, _, _ => 0
  | n + 1, k, t => (t / (2 * k + 1) : Nat) - atanSum q2 n (k + 1) (t / q2)

/-- π by Machin's formula. -/
def piB (p : Nat) : Nat × Nat :=
  let n := p / 4 + 4
  let s := 16 * atanSum 25 n 0 (2 ^ p / 5) - 4 * atanSum (239 * 239) n 0 (2 ^ p / 239)
  ((s - 40 * n - 80).toNat, (s + 40 * n + 80).toNat)

/-- The Taylor sum of sin (k = 1) or cos (k = 0) at y × 2^−p. -/
def trigSum (p y2 : Nat) : Nat → Nat → Nat → Int
  | 0, _, _ => 0
  | n + 1, k, t => (t : Int) - trigSum p y2 n (k + 2) (t * y2 / (2 ^ (2 * p) * ((k + 1) * (k + 2))))

/-- The quadrant of x = m × 2^e and |sin| or |cos| of it there. -/
def trigB (isCos : Bool) (m : Nat) (e : Int) (p : Nat) : Bool × Bnd :=
  let q := p + (max 0 (e + m.log2)).toNat + 8
  let (xl, xh) := fixB m e q
  let (pl, ph) := piB q
  let k := 2 * xl / ph
  let rl := (2 * xl - k * ph) / 2 / 2 ^ (q - p)
  let rh := (2 * xh - k * pl) / 2 / 2 ^ (q - p) + 2
  let n := p / 2 + 20
  let useCos : Bool := (k % 2 = 1) != isCos
  let s : Int := if useCos then trigSum p (rl * rl) n 0 (2 ^ p) else trigSum p (rl * rl) n 1 rl
  let w : Int := (rh - rl : Nat) + 2 * n + 8
  let neg : Bool := if isCos then k % 4 = 1 || k % 4 = 2 else 2 ≤ k % 4
  (neg, ⟨s - w, s + w, -p⟩)

/-- tanh of 0 < x ≤ 64. -/
def tanhB (m : Nat) (e : Int) (p : Nat) : Bnd :=
  let (a, b) := fixB m (e + 1) p
  let t := expI p (-(b : Int)) (-(a : Int))
  let sh (v : Int) : Nat := v.toNat / 2 ^ (-(p : Int) - t.e).toNat
  let tl := sh t.lo
  let th := sh t.hi + 1
  ⟨(2 ^ p - th : Nat) * 2 ^ p / (2 ^ p + th), (2 ^ p - tl : Nat) * 2 ^ p / (2 ^ p + tl) + 1, -p⟩

/-- 1/(1 + e^−x) for x = ±m × 2^e, |x| at most 4,096. -/
def sigmB (neg : Bool) (m : Nat) (e : Int) (p : Nat) : Bnd :=
  let (a, b) := fixB m e p
  let t := expI p (-(b : Int)) (-(a : Int))
  let k := (-(p : Int) - t.e).toNat
  let one := 2 ^ (p + k)
  if neg then
    ⟨t.lo.toNat * one / (one + t.hi.toNat), t.hi.toNat * one / (one + t.lo.toNat) + 1, t.e⟩
  else
    ⟨2 ^ p * one / (one + t.hi.toNat), 2 ^ p * one / (one + t.lo.toNat) + 1, -p⟩

/-- Σ (−1)^n x^(2n+1)/(n!(2n+1)) by more terms, at precision q. -/
def erfSum (q x2 : Nat) : Nat → Nat → Nat → Int
  | 0, _, _ => 0
  | n + 1, k, t => (t / (2 * k + 1) : Nat) - erfSum q x2 n (k + 1) (t * x2 / (2 ^ (2 * q) * (k + 1)))

/-- erf of 0 < x < 8. -/
def erfB (m : Nat) (e : Int) (p : Nat) : Bnd :=
  let q := p + 128
  let (xl, xh) := fixB m e q
  let n := q + 200
  let s := erfSum q (xl * xl) n 0 xl
  let w : Int := n * 2 ^ 110 + (xh - xl : Nat)
  let (pl, ph) := piB (2 * q)
  let rl := isqrt pl
  let rh := isqrt ph + 1
  ⟨2 * (s - w) * 2 ^ q / rh, 2 * (s + w) * 2 ^ q / rl + 1, -q⟩

/-- A real just below 1. -/
def belowOne : Ex := ⟨false, 2 ^ 80 - 1, -80, true⟩

/-- The special functions. -/
inductive Fn where
  | rcp | rsq | sqrt | div | exp2 | log2 | sin | cos | tanh | sigm | erf
  deriving DecidableEq, Repr

/-- What a function gives: a code that is special, with its flags, or an exact finite value. -/
inductive FnVal where
  | code (c : Nat) (fl : Flags)
  | val (x : Ex)

/-- ±m × 2^e is an integer, and which. -/
def asInt (neg : Bool) (m : Nat) (e : Int) : Option Int :=
  let s (n : Nat) : Int := if neg then -(n : Int) else n
  if 0 ≤ e then some (s (m * 2 ^ e.toNat))
  else if m % 2 ^ (-e).toNat = 0 then some (s (m / 2 ^ (-e).toNat)) else none

/-- f of one finite operand, m ≠ 0 (R161). -/
def fnFin (F : Fmt) (f : Fn) (neg : Bool) (m : Nat) (e : Int) : FnVal :=
  let bad : FnVal := .code F.canonNaN flNV
  match f with
  | .rcp | .div => .val (exDiv ⟨neg, 1, 0, false⟩ (.of false m e))
  | .rsq => if neg then bad else .val (exRsqrt (.of false m e))
  | .sqrt => if neg then bad else .val (exSqrt (.of false m e))
  | .exp2 =>
    if 14 < e + m.log2 then .val ⟨false, 1, if neg then -20000 else 20000, false⟩
    else match asInt neg m e with
      | some n => .val ⟨false, 1, n, false⟩
      | none => .val (refined (exp2B neg m e))
  | .log2 =>
    if neg then bad
    else if m = 2 ^ m.log2 then
      let n : Int := e + m.log2
      .val ⟨n < 0, n.natAbs, 0, false⟩
    else
      let x := refined (fun p => (log2B m e p).2)
      .val { x with neg := (log2B m e 128).1 }
  | .sin =>
    let x := refined (fun p => (trigB false m e p).2)
    .val { x with neg := (trigB false m e 4096).1 != neg }
  | .cos =>
    let x := refined (fun p => (trigB true m e p).2)
    .val { x with neg := (trigB true m e 4096).1 }
  | .tanh =>
    if 6 ≤ e + m.log2 then .val { belowOne with neg := neg }
    else .val { refined (tanhB m e) with neg := neg }
  | .sigm =>
    if 12 ≤ e + m.log2 then
      (if neg then .val ⟨false, 1, -5000, true⟩ else .val belowOne)
    else .val (refined (sigmB neg m e))
  | .erf =>
    if 3 ≤ e + m.log2 then .val { belowOne with neg := neg }
    else .val { refined (erfB m e) with neg := neg }

/-- f of operands as read, NaNs apart (R161). -/
def fnVal (F : Fmt) (f : Fn) (a b : FVal) : FnVal :=
  let bad : FnVal := .code F.canonNaN flNV
  let zero (n : Bool) : FnVal := .code (signBit F n) 0
  let one (n : Bool) : FnVal := .val ⟨n, 1, 0, false⟩
  match f with
  | .div =>
    match a, b with
    | .inf _, .inf _ => bad
    | .inf x, .fin y _ _ => .code (F.infCode (x != y)) 0
    | .fin x _ _, .inf y => zero (x != y)
    | .fin x m e, .fin y n g =>
      if n = 0 then (if m = 0 then bad else .code (F.infCode (x != y)) flDZ)
      else if m = 0 then zero (x != y)
      else .val (exDiv (.of x m e) (.of y n g))
    | _, _ => bad
  | .rcp =>
    match a with
    | .inf n => zero n
    | .fin n 0 _ => .code (F.infCode n) flDZ
    | .fin n m e => fnFin F f n m e
    | _ => bad
  | .rsq =>
    match a with
    | .inf n => if n then bad else zero false
    | .fin n 0 _ => .code (F.infCode n) flDZ
    | .fin n m e => fnFin F f n m e
    | _ => bad
  | .sqrt =>
    match a with
    | .inf n => if n then bad else .code (F.infCode false) 0
    | .fin n 0 _ => zero n
    | .fin n m e => fnFin F f n m e
    | _ => bad
  | .exp2 =>
    match a with
    | .inf n => if n then zero false else .code (F.infCode false) 0
    | .fin _ 0 _ => one false
    | .fin n m e => fnFin F f n m e
    | _ => bad
  | .log2 =>
    match a with
    | .inf n => if n then bad else .code (F.infCode false) 0
    | .fin _ 0 _ => .code (F.infCode true) flDZ
    | .fin n m e => fnFin F f n m e
    | _ => bad
  | .sin =>
    match a with
    | .fin n 0 _ => zero n
    | .fin n m e => fnFin F f n m e
    | _ => bad
  | .cos =>
    match a with
    | .fin _ 0 _ => one false
    | .fin n m e => fnFin F f n m e
    | _ => bad
  | .tanh | .erf =>
    match a with
    | .inf n => one n
    | .fin n 0 _ => zero n
    | .fin n m e => fnFin F f n m e
    | _ => bad
  | .sigm =>
    match a with
    | .inf n => if n then zero false else one false
    | .fin _ 0 _ => .val ⟨false, 1, -1, false⟩
    | .fin n m e => fnFin F f n m e
    | _ => bad

/-- Step 1 of .fast (R121): a subnormal operand becomes the zero of its sign. -/
def flushOp (F : Fmt) (c : Nat) : Nat :=
  if c / 2 ^ F.fb % 2 ^ F.eb = 0 then c / 2 ^ (F.width - 1) * 2 ^ (F.width - 1) else c

/-- .fast steps 2 and 3 with the flags of R122. -/
def rndFast (F : Fmt) (x : Ex) : Nat × Flags :=
  if x.m = 0 && !x.sticky then (signBit F x.neg, 0)
  else
    let p := min 12 F.p
    let (y, q, nx, tiny) := roundP p F.emin .rne x
    let (_, le) := F.largest
    if magLt (2 ^ p - 1) (le + (F.p - p : Nat)) y q then (F.infCode x.neg, flOF ||| flNX)
    else if y != 0 && magLt y q 1 F.emin then (signBit F x.neg, flUF ||| flNX)
    else
      (encFin F x.neg y q,
        (if nx then flNX else 0) ||| (if nx && tiny then flUF else 0))

/-- One element of a special function in either grade. -/
def fnElem (F : Fmt) (f : Fn) (fast : Bool) (rm : Rm) (a b : Nat) : Nat × Flags :=
  match nanPick F (if f = .div then [a, b] else [a]) with
  | some r => r
  | none =>
    let a := if fast then flushOp F a else a
    let b := if fast then flushOp F b else b
    match fnVal F f (dec F a) (dec F b) with
    | .code c fl => (c, fl)
    | .val x => if fast then rndFast F x else rnd F rm false x

/-- e^a of a finite value, exact (R230, vsw.exp). -/
def exExp (neg : Bool) (m : Nat) (e : Int) : Ex :=
  if m = 0 then ⟨false, 1, 0, false⟩
  else if 13 ≤ e + m.log2 then ⟨false, 1, if neg then -20000 else 20000, true⟩
  else refined (fun p =>
    let (a, b) := fixB m e p
    if neg then expI p (-(b : Int)) (-(a : Int)) else expI p a b)

end Sys2Proof.Machine
end

