-- ==== Sys2Proof/Machine/Ops.lean ====
section
/-! DEFINITION. The named operations over the state: sparse maps, bytes, translation (R249, R250), worlds
(R324), L1 and store queues (R248, R265), what reaches its home (R192–R196), taking a trap (R333–R339)
and returning from it (R240). -/

namespace Sys2Proof.Machine

abbrev Result := Host.Outcome State Fault Refusal

/-! ### Sparse maps -/

variable {α β : Type}

def SMap.get? : SMap α → Nat → Option α
  | [], _ => none
  | (j, x) :: r, k => if j = k then some x else SMap.get? r k

def SMap.get (m : SMap α) (dflt : α) (k : Nat) : α := (m.get? k).getD dflt

def SMap.put : SMap α → Nat → α → SMap α
  | [], k, x => [(k, x)]
  | (j, y) :: r, k, x =>
    if k < j then (k, x) :: (j, y) :: r
    else if k = j then (k, x) :: r
    else (j, y) :: SMap.put r k x

def SMap.del : SMap α → Nat → SMap α
  | [], _ => []
  | (j, y) :: r, k => if k = j then SMap.del r k else (j, y) :: SMap.del r k

/-- A write that keeps the canonical form of a map with a default. -/
def SMap.set [DecidableEq α] (m : SMap α) (dflt : α) (k : Nat) (x : α) : SMap α :=
  if x = dflt then m.del k else m.put k x

def SMap.upd (m : SMap α) (k : Nat) (f : α → α) : SMap α :=
  match m.get? k with
  | some x => m.put k (f x)
  | none => m

def SMap.vals (m : SMap α) : List α := m.map (·.2)

def SMap.keys (m : SMap α) : List Nat := m.map (·.1)

/-- The keys rise strictly. -/
def SMap.sorted : SMap α → Bool
  | [] => true
  | [_] => true
  | (j, _) :: (k, y) :: r => j < k && SMap.sorted ((k, y) :: r)

/-! ### Bytes (R6) -/

/-- Byte memories hold bytes other than 0; an address that nothing lists reads 0 (DESIGN CHOICE,
notes/assumptions/2.md; R253 and R257 state it for scratchpad tiles and weight stores). -/
abbrev Memory := List Host.Cell

def Memory.wf (m : Memory) : Bool := SMap.sorted m && m.all (fun c => c.2 != 0)

def rdByte (m : Memory) (a : Nat) : Byte := SMap.get m 0 a

def wrByte (m : Memory) (a : Nat) (b : Byte) : Memory := SMap.set m 0 a b

def rdBytes (m : Memory) (a : Nat) : Nat → List Byte
  | 0 => []
  | n + 1 => rdByte m a :: rdBytes m (a + 1) n

def wrBytes (m : Memory) (a : Nat) : List Byte → Memory
  | [] => m
  | b :: r => wrBytes (wrByte m a b) (a + 1) r

/-- The value of bytes with the least significant first. -/
def leNat : List Byte → Nat
  | [] => 0
  | b :: r => b.toNat + 256 * leNat r

def leBytes : Nat → Nat → List Byte
  | 0, _ => []
  | n + 1, x => BitVec.ofNat 8 (x % 256) :: leBytes n (x / 256)

def rdNat (m : Memory) (a n : Nat) : Nat := leNat (rdBytes m a n)

def rdWord (m : Memory) (a : Nat) : Word := BitVec.ofNat 64 (rdNat m a 8)

/-- Access sizes in bytes. -/
def sizeBytes : Size → Nat
  | .b => 1 | .h => 2 | .w => 4 | .d => 8

def dblBytes (dbl : Bool) : Nat := if dbl then 8 else 4

/-! ### Parts of the state -/

def State.warp? (s : State) (w : Nat) : Option Warp := s.warps.get? w

def State.setWarp (s : State) (w : Nat) (x : Warp) : State := { s with warps := s.warps.put w x }

def State.updWarp (s : State) (w : Nat) (f : Warp → Warp) : State :=
  { s with warps := s.warps.upd w f }

def Warp.thread (w : Warp) (t : Nat) : Thread := w.threads.get Thread.absent t

def Warp.setThread (w : Warp) (t : Nat) (x : Thread) : Warp :=
  { w with threads := w.threads.put t x }

def Warp.updThread (w : Warp) (t : Nat) (f : Thread → Thread) : Warp :=
  { w with threads := w.threads.upd t f }

def Warp.join (w : Warp) (j : Nat) : Join := w.joins.get Join.clear j

def Warp.setJoin (w : Warp) (j : Nat) (x : Join) : Warp :=
  { w with joins := w.joins.set Join.clear j x }

def State.core (s : State) (c : Nat) : Core := s.cores.get Core.empty c

def State.setCore (s : State) (c : Nat) (x : Core) : State :=
  { s with cores := s.cores.set Core.empty c x }

def State.updCore (s : State) (c : Nat) (f : Core → Core) : State := s.setCore c (f (s.core c))

def State.die (s : State) (d : Nat) : Die := s.dies.get Die.empty d

def State.updDie (s : State) (d : Nat) (f : Die → Die) : State :=
  { s with dies := s.dies.set Die.empty d (f (s.die d)) }

def State.lane (s : State) (l : Nat) : Lane := s.lanes.get Lane.idle l

def State.updLane (s : State) (l : Nat) (f : Lane → Lane) : State :=
  { s with lanes := s.lanes.set Lane.idle l (f (s.lane l)) }

def State.updBlock (s : State) (b : Nat) (f : Block → Block) : State :=
  { s with blocks := s.blocks.upd b f }

def State.updLaunch (s : State) (l : Nat) (f : Launch → Launch) : State :=
  { s with launches := s.launches.upd l f }

def State.updCtx (s : State) (c : Nat) (f : Ctx → Ctx) : State := { s with ctxs := s.ctxs.upd c f }

/-- Places of a warp slot (R14, R17). -/
def coreOf (w : Nat) : Nat := w / 96
def dieOf (w : Nat) : Nat := w / 96 / 132
/-- $warp -/
def warpNo (w : Nat) : Nat := w % 96
/-- The lane of a warp slot: 24 per sub-core and 3 per lane. -/
def laneOf (w : Nat) : Nat := 32 * (w / 96) + (w % 96) / 3
def dieOfCore (c : Nat) : Nat := c / 132

def bitOf (m : Mask) (t : Nat) : Bool := m.getLsbD t

def maskOf (ts : List Nat) : Mask := ts.foldl (fun m t => m ||| (1 <<< t)) 0

def threadsOf (m : Mask) : List Nat := (List.range 32).filter (bitOf m)

def Warp.liveMask (w : Warp) : Mask :=
  maskOf ((List.range 32).filter (fun t => (w.thread t).life == .live))

def Warp.ended (w : Warp) : Bool := (List.range 32).all (fun t => (w.thread t).life != .live)

/-- $time in nanoseconds: the compute clock runs at 1.2 GHz (R13, R74). -/
def State.time (s : State) : Nat := s.timeBase + s.clock * 5 / 6

/-- $wsphase (R254). -/
def State.wsphase (s : State) : Nat := s.time / 4000 % 16

/-- The bank of a weight-store offset (R254). -/
def bankOf (o : Nat) : Nat := o / 4096 % 16

/-- Advance the counter of free choices. -/
def State.draw (s : State) : State := { s with tick := s.tick + 1 }

def State.fresh (s : State) : Nat × State := (s.nextId, { s with nextId := s.nextId + 1 })

def State.ctxSecure (s : State) (c : Nat) : Bool := ((s.ctxs.get? c).map Ctx.secure).getD false

/-! ### The black box (R401) -/

def State.bboxAt (s : State) (time die source code core warp thread ctx : Nat) (detail : List Word) : State :=
  s.updDie die (fun d =>
    { d with
      events := (d.events ++ [Event.mk d.nextEvent time source code core warp thread (s.ctxSecure ctx)
        ctx detail]).drop (d.events.length + 1 - 4096)
      nextEvent := d.nextEvent + 1 })

def State.bbox (s : State) (die source code core warp thread ctx : Nat) (detail : List Word) : State :=
  s.bboxAt s.time die source code core warp thread ctx detail

def State.interrupt (s : State) : State :=
  { s with host := { s.host with interrupts := s.host.interrupts + 1 } }

/-! ### Worlds (R323, R324) -/

/-- Entry `e` contains the 64 KiB granule of address `a` of the space. -/
def regionHas (e : Word × Word) (space die a : Nat) : Bool :=
  let w := e.1
  w.getLsbD 0 && (w.toNat / 64 % 4 = space) && (space = 0 || w.toNat / 16 % 4 = die)
    && (w.toNat / 65536 % 2 ^ 36 ≤ a / 65536) && (a / 65536 ≤ e.2.toNat / 65536 % 2 ^ 36)

/-- The address is secure: by the lowest-numbered valid entry that contains it (R324). -/
def State.secureAt (s : State) (space die a : Nat) : Bool :=
  match s.regions.find? (fun e => regionHas e.2 space die a) with
  | some e => e.2.1.getLsbD 1
  | none => false

def State.secureMem (s : State) (pa : Nat) : Bool := s.secureAt 0 0 pa

def State.secureWs (s : State) (o : Nat) : Bool := s.secureAt 1 (o / 2 ^ 32) (o % 2 ^ 32)

/-! ### Physical addresses (R245, R246, R326) -/

/-- The local address lies in a stack of the part's HBM (R21, R245, R246). -/
def Part.hasMem (p : Part) (a : Nat) : Bool := a < 2 ^ 39 && a / 2 ^ 37 < p.dies && a % 2 ^ 36 < p.stackBytes

/-- The physical address an access reaches, if it exists: this package's own id in the domain region is
the local address. -/
def State.physical (s : State) (p : Nat) : Option Nat :=
  let a := p % 2 ^ 50
  match p / 2 ^ 50 with
  | 0 => if s.part.hasMem a then some p else none
  | 1 => some p
  | 2 =>
    let pkg := a / 2 ^ 44
    let loc := a % 2 ^ 44
    if loc < 2 ^ 39 ∧ s.trellis.members.getLsbD pkg then
      if pkg = s.trellis.id then (if s.part.hasMem loc then some loc else none) else some p
    else none
  | _ => none

def region (pa : Nat) : Nat := pa / 2 ^ 50

/-- The package id of a peer's place. -/
def Place.peer (p : Place) : Option Nat :=
  match p with
  | .mem a => if region a = 2 then some (a % 2 ^ 50 / 2 ^ 44) else none
  | _ => none

/-- Some port that is up reaches the place's package (R326, R380). -/
def State.reaches (s : State) (p : Place) : Bool :=
  match p.peer with
  | none => true
  | some k => (List.range 16).any (fun i => s.trellis.up.getLsbD i && (s.trellis.reach.getD i 0).getLsbD k)

/-- The home die of a local address (R246). -/
def homeDie (pa : Nat) : Nat := pa / 2 ^ 36 / 2 % 4

/-- The home slice within that die (R246). -/
def homeSlice (pa : Nat) : Nat := pa % 2 ^ 36 / 256 % 48

/-! ### Translation (R249, R250) -/

/-- What an access needs of its page. -/
inductive Acc where
  | r | w | rw | x
  deriving DecidableEq, Repr

def Acc.permitted (k : Acc) (e : Nat) : Bool :=
  let r := e / 4 % 2 = 1
  let w := e / 8 % 2 = 1
  let x := e / 16 % 2 = 1
  match k with
  | .r => r
  | .w => w
  | .rw => r && w
  | .x => x

/-- The levels: lowest bit and width of the index, and the leaf's page bits where a leaf is permitted. -/
def levels : List (Nat × Nat × Option Nat) :=
  [(48, 8, none), (39, 9, none), (30, 9, some 30), (21, 9, some 21), (16, 5, some 16)]

/-- Byte `i` of `p` as a store of `b` at `q` leaves it, if it covers that byte. -/
def covered (q : Place) (b : List Byte) (p : Place) (i : Nat) : Option Byte :=
  match p, q with
  | .mem x, .mem y => if y ≤ x + i then b[x + i - y]? else none
  | .sp x, .sp y => if y ≤ x + i then b[x + i - y]? else none
  | .ws x, .ws y => if y ≤ x + i then b[x + i - y]? else none
  | _, _ => none

/-- Byte `i` of `p`, now `b`, for a reader from whom the writes that `hid` selects are hidden, and the write that
it reads; the list has the newest write first (R264). -/
def peel (hid : Ver → Bool) (p : Place) (i : Nat) : List Ver → Byte → Byte × Option Nat
  | [], b => (b, none)
  | v :: r, b =>
    match covered v.place v.old p i with
    | none => peel hid p i r b
    | some o => if hid v then peel hid p i r o else (b, some v.id)

/-- A table entry as a walk of the access `key` reads it: as it stood at some moment since the context's last
shoot-down, or as it stands; an entry that was not valid is never kept (R250, R251, R362). -/
def State.entryAt (s : State) (shot key pa : Nat) : Nat :=
  let cut := max shot (Config.oldEntry s.tick key pa)
  let old := leNat ((rdBytes s.mem pa 8).zipIdx.map (fun (b, i) => (peel (fun v => cut ≤ v.id) (.mem pa) i s.vers b).1))
  if old % 2 = 0 then rdNat s.mem pa 8 else old

/-- The walk from table `t` of the access `key`: the page's address and whether it permits the access, or the kind of
the fault (8, 26). -/
def walk (s : State) (secure : Bool) (shot key va : Nat) (k : Acc) :
    List (Nat × Nat × Option Nat) → Nat → Except Nat (Nat × Bool)
  | [], _ => .error 8
  | (lo, len, leaf) :: rest, t =>
    match s.physical (t + 8 * (va / 2 ^ lo % 2 ^ len)) with
    | none => .error 8
    | some pa =>
      if !secure && s.secureMem pa then .error 26
      else
        let e := s.entryAt shot key pa
        if e % 2 = 0 || e / 2 ^ 52 != 0 || e / 32 % 8 != 0 then .error 8
        else if e / 2 % 2 = 1 then
          match leaf with
          | none => .error 8
          | some bits =>
            let page := e / 256 % 2 ^ 44 * 256
            if page % 2 ^ bits != 0 then .error 8
            else .ok (page + va % 2 ^ bits, k.permitted e)
        else if rest.isEmpty then .error 8
        else walk s secure shot key va k rest (e / 256 % 2 ^ 44 * 256)

/-- The physical address of a page of an allocated range (R314; notes/assumptions/31.md). -/
def allocated (c : Ctx) (va : Nat) : Option Nat :=
  match c.allocs.find? (fun a => a.va ≤ va && va < a.va + 65536 * a.frames.length) with
  | some a => (a.frames[(va - a.va) / 65536]?).map (fun f => 65536 * f + va % 65536)
  | none => none

/-- The capability list's place in every context (R319; notes/assumptions/34.md). -/
def capVa : Nat := 0x00FFFF0000000000

/-- The physical address behind a byte of the capability list's range. DESIGN CHOICE: its frame is one in the upper
half of HBM; which one is free (notes/assumptions/34.md). -/
def capPlace (va : Nat) : Nat := 2 ^ 20 * (2 ^ 18 + Config.capFrame % 2 ^ 18) + va % 2 ^ 20

/-- The address lies in the frame of the capability list, which nothing changes while the package is powered (R319). -/
def inCapFrame (pa : Nat) : Bool := 2 ^ 38 ≤ pa && pa / 2 ^ 20 = 2 ^ 18 + Config.capFrame % 2 ^ 18

/-- A byte of n at the address lies in that frame. -/
def capHit (pa n : Nat) : Bool := (List.range n).any (fun i => inCapFrame (pa + i))

/-- translate(va, kind) of R250 for context `c`, with R245 and the world check of R324 after it: the
physical address, or the kind of the fault, an invalid address before a permission that lacks (R337). The bytes of
one access share its `key`. A range that ALLOC has returned, and the capability list's, stand beside the context's
tables, which hold no entry for them (DESIGN CHOICE, notes/assumptions/31.md and 34.md). -/
def State.translateFor (s : State) (key ctx : Nat) (va : Word) (k : Acc) : Except Nat Nat :=
  match s.ctxs.get? ctx with
  | none => .error 8
  | some c =>
    if va.toNat / 2 ^ 56 != 0 then .error 8
    else
      let page : Except Nat (Nat × Bool) :=
        if va.toNat / 2 ^ 20 = capVa / 2 ^ 20 then .ok (capPlace va.toNat, k = .r)
        else match allocated c va.toNat with
        | some pa => .ok (pa, k != .x)
        | none => walk s c.secure c.shot key va.toNat k levels c.root
      match page with
      | .error e => .error e
      | .ok (p, may) =>
        match s.physical p with
        | none => .error 8
        | some pa =>
          if !may then .error 9
          else if !c.secure && s.secureMem pa then .error 26
          else if (k = .w || k = .rw) && inCapFrame pa then .error 9
          else .ok pa

/-- The translation of an access that lies in one page. -/
def State.translate (s : State) (ctx : Nat) (va : Word) (k : Acc) : Except Nat Nat := s.translateFor va.toNat ctx va k

/-! ### Where bytes stand -/

def State.home (s : State) (p : Place) (n : Nat) : List Byte :=
  match p with
  | .mem a => rdBytes s.mem a n
  | .sp a => rdBytes s.scratch a n
  | .ws a => rdBytes s.ws a n

def State.writeHome (s : State) (p : Place) (b : List Byte) : State :=
  match p with
  | .mem a => { s with mem := wrBytes s.mem a b }
  | .sp a => { s with scratch := wrBytes s.scratch a b }
  | .ws a => { s with ws := wrBytes s.ws a b }

/-- The place `i` bytes on. -/
def Place.plus (p : Place) (i : Nat) : Place :=
  match p with
  | .mem a => .mem (a + i)
  | .sp a => .sp (a + i)
  | .ws a => .ws (a + i)

def overlap (p : Place) (n : Nat) (q : Place) (m : Nat) : Bool :=
  match p, q with
  | .mem x, .mem y | .sp x, .sp y | .ws x, .ws y => x < y + m && y < x + n
  | _, _ => false

def StItem.len (i : StItem) : Nat :=
  match i.kind with
  | .store b => b.length
  | .atom _ _ _ dbl _ | .scond _ dbl _ | .ordf dbl | .contrib dbl _ _ _ => dblBytes dbl
  | .fence => 0

/-- The youngest store of a list (oldest first) that covers byte `i` of `p`, those that `skip` names apart. -/
def youngest (skip : StItem → Bool) (items : List StItem) (p : Place) (i : Nat) : Option Byte :=
  items.foldl (fun r x =>
    match x.kind with
    | .store b => if skip x then r else (covered x.place b p i).or r
    | _ => r) none

def noSkip : StItem → Bool := fun _ => false

/-! ### Agents, scopes and writes (R261, R263, R264, R271) -/

def Spot.core? : Spot → Option Nat
  | .core c | .engine c => some c
  | _ => none

def Spot.die? : Spot → Option Nat
  | .core c | .engine c => some (dieOfCore c)
  | .die d => some d
  | _ => none

/-- Agent `b` lies in the instance of the scope around agent `a`, the cores of whose block are `span` (R263). -/
def inScope (sc : Scope) (a : Spot) (span : List Nat) (b : Spot) : Bool :=
  a == b || match sc with
  | .core => a.core?.isSome && a.core? == b.core?
  | .span => b.core?.any span.contains
  | .die => a.die?.isSome && a.die? == b.die?
  | .pkg => a.die?.isSome && b.die?.isSome
  | .dom => a != .outside && b != .outside
  | .sys => true

/-- A release and an acquire by `a` at scope `sc` are mutually scoped (R263). -/
def Head.mutual (h : Head) (sc : Scope) (a : Spot) (span : List Nat) : Bool :=
  inScope h.scope h.spot h.span a && inScope sc a span h.spot

/-- Who writes: the agent, its issue (0 for none) and thread, the releases that a reader of the write meets, and for a
strong write its scope and the cores of its span. -/
structure Writer where
  spot   : Spot
  issue  : Nat := 0
  thread : Nat := 0
  heads  : List Head := []
  strong : Option (Scope × List Nat) := none

/-- The word at `q` lies within n bytes at `p`. -/
def wordWithin (q p : Place) (n : Nat) : Bool := (List.range 8).all (fun i => overlap (q.plus i) 1 p n)

/-- A write reaches its home: it is the newest of its bytes, and the words that it rewrites whole are good again
(R374, R375). -/
def State.write (s : State) (w : Writer) (p : Place) (b : List Byte) : State :=
  { s.writeHome p b with
    bad := s.bad.filter (fun q => !wordWithin q p b.length)
    vers := ⟨s.nextVer, p, s.home p b.length, w.spot, w.issue, w.thread, w.heads, s.clock, w.strong⟩ :: s.vers
    nextVer := s.nextVer + 1 }

/-- No earlier write of the bytes can be read any more. -/
def State.settled (s : State) (p : Place) (n : Nat) : State :=
  { s with vers := s.vers.filter (fun v => !overlap v.place v.old.length p n) }

/-- The bytes hold a word that cannot be corrected (R375). -/
def State.lost (s : State) (p : Place) (n : Nat) : Bool := s.bad.any (fun q => overlap q 8 p n)

/-- The newest write of any of the bytes. -/
def State.newest (s : State) (p : Place) (n : Nat) : Option Ver :=
  s.vers.find? (fun v => overlap v.place v.old.length p n)

/-- A thread of the issue other than the readers stored it (R181). -/
def Ver.sibling (v : Ver) (issue : Nat) (readers : List Nat) : Bool :=
  issue != 0 && v.issue = issue && !readers.contains v.thread

def StItem.sibling (i : StItem) (issue : Nat) (readers : List Nat) : Bool :=
  issue != 0 && i.issue = issue && !readers.contains i.thread

/-- A write that happens-before alone orders against the loads of other agents: not one of the weight store, nor an
engine's in a scratchpad, whose tile's flips order it (R214, R256). -/
def Ver.loose (v : Ver) : Bool :=
  match v.place, v.spot with
  | .ws _, _ | .sp _, .engine _ => false
  | _, _ => true

/-- A write that a load of a core need not return: another agent's, performed not longer ago than R331 bounds, neither
ordered before the load nor read by the core before (R264, R267, R271). What one of a core's threads has learned or read
holds for all of them: they share its L1, and none of their plain accesses is seen reordered (R248, R265; notes/assumptions/12.md). -/
def State.hideable (s : State) (core : Nat) (v : Ver) : Bool :=
  v.loose && v.spot != .core core && !(s.core core).known.contains v.id && !(s.core core).seen.contains v.id
    && s.clock ≤ v.time + Config.performBound && Config.hides s.tick v.id

/-- A strong load and the write stand in one order, which is that of their performance (R269). -/
def Ver.ordered (v : Ver) (core : Nat) (sc : Scope) (span : List Nat) : Bool :=
  match v.strong with
  | some (k, cs) => inScope k v.spot cs (.core core) && inScope sc (.core core) span v.spot
  | none => false

/-- Places whose lines an L1 may hold: global memory of this package (R246, R248). -/
def Place.cached : Place → Bool
  | .mem a => region a = 0
  | _ => false

/-- The bytes at home for a reader from whom `hid` hides writes, and the writes it reads. -/
def State.sight (s : State) (hid : Ver → Bool) (p : Place) (n : Nat) : List Byte × List Nat :=
  let xs := (s.home p n).zipIdx.map (fun (b, i) => peel hid p i s.vers b)
  (xs.map (·.1), (xs.filterMap (·.2)).eraseDups)

def addAll (xs ys : List Nat) : List Nat := ys.foldl (fun r y => if r.contains y then r else y :: r) xs

/-- The loads of a core have returned the writes. -/
def State.sees (s : State) (core : Nat) (ids : List Nat) : State :=
  if ids.isEmpty then s else s.updCore core (fun c => { c with seen := addAll c.seen ids })

/-- The core's later loads follow the writes: lines that lack one of them go. -/
def State.learn (s : State) (core : Nat) (view : List Nat) : State :=
  if view.isEmpty then s
  else
    let lacks (x : Nat × Line) : Bool := s.vers.any (fun v => view.contains v.id && !x.2.vis.contains v.id
      && overlap v.place v.old.length (.mem (64 * x.1)) 64)
    s.updCore core (fun c => { c with known := addAll c.known view, l1 := c.l1.filter (fun x => !lacks x) })

/-- The writes that a release of a core at a scope publishes: the core's own, those ordered before it, and those that
it has read of agents in the scope's instance (R271). -/
def State.published (s : State) (core : Nat) (sc : Scope) (span : List Nat) : List Nat :=
  let c := s.core core
  (s.vers.filter (fun v => v.spot == .core core || c.known.contains v.id
    || (c.seen.contains v.id && inScope sc (.core core) span v.spot))).map Ver.id

/-- The cores of the span of a warp's block. -/
def State.spanOf (s : State) (slot : Nat) : List Nat :=
  (((s.warp? slot).bind (fun w => s.blocks.get? w.block)).map Block.cores).getD []

/-! ### The L1 (R16, R248) -/

/-- What leaves the L1 when a line is to enter it: it holds 4,096 lines. -/
def Core.room (c : Core) (n : Nat) : Core :=
  let c := { c with
    l1 := c.l1.filter (fun x => !Config.l1Evicted n x.1)
    l1w := c.l1w.filter (fun x => !Config.l1wEvicted n x.1) }
  let full := c.l1.length + c.l1w.length
  if full < 4096 then c
  else
    let k := Config.l1Victim n % full
    if k < c.l1.length then { c with l1 := c.l1.eraseIdx k }
    else { c with l1w := c.l1w.eraseIdx (k - c.l1.length) }

/-- The 64-byte line of a physical address as the home and the core's stores on their way to it give it to the
core (R248, R265). -/
def State.fillLine (s : State) (core line : Nat) : Line :=
  let p : Place := .mem (64 * line)
  let b := (s.sight (s.hideable core) p 64).1
  { data := BitVec.ofNat 512 (leNat (b.zipIdx.map (fun (b, i) =>
      (youngest noSkip (s.core core).flight p i).getD b)))
    vis := (s.vers.filter (fun v => overlap v.place v.old.length p 64 && !s.hideable core v)).map Ver.id }

/-- A plain load keeps its line in the core's L1 (R248); regions 1 and 2 are read at the far side
(R246). A line with a word that cannot be corrected is not kept (R375). -/
def State.touchLine (s : State) (core : Nat) (p : Place) : State :=
  match p with
  | .mem a =>
    if region a != 0 || s.lost (.mem (a / 64 * 64)) 64 then s
    else match (s.core core).l1.get? (a / 64) with
      | some _ => s
      | none => s.updCore core (fun c =>
          { c.room s.tick with l1 := SMap.put (c.room s.tick).l1 (a / 64) (s.fillLine core (a / 64)) })
  | .ws a =>
    if s.lost (.ws (a / 64 * 64)) 64 then s
    else match (s.core core).l1w.get? (a / 64) with
    | some _ => s
    | none => s.updCore core (fun c => { c.room s.tick with
        l1w := SMap.put (c.room s.tick).l1w (a / 64) (BitVec.ofNat 512 (rdNat s.ws (64 * (a / 64)) 64)) })
  | .sp _ => s

def State.dropLine (s : State) (core : Nat) (p : Place) : State :=
  match p with
  | .mem a => s.updCore core (fun c => { c with l1 := c.l1.del (a / 64) })
  | _ => s

/-- Discard every global line of the core's L1 (R248, R270). -/
def State.discardL1 (s : State) (core : Nat) : State := s.updCore core (fun c => { c with l1 := [] })

/-- Byte `i` of `p` beyond the warp's queue, and the write it comes from: with `line`, as the L1 holds it; else the
stores on their way from the core, then the home. -/
def State.coreByte (s : State) (core : Nat) (line : Bool) (skip : StItem → Bool) (hid : Ver → Bool) (p : Place)
    (i : Nat) : Byte × Option Nat :=
  let beyond (b : Byte) : Byte × Option Nat :=
    match youngest skip (s.core core).flight p i with
    | some b => (b, none)
    | none => peel hid p i s.vers b
  match p with
  | .mem a =>
    match line, (s.core core).l1.get? ((a + i) / 64) with
    | true, some l => (l.data.extractLsb' (8 * ((a + i) % 64)) 8, (peel (fun v => !l.vis.contains v.id) p i s.vers 0).2)
    | _, _ => beyond (rdByte s.mem (a + i))
  | .sp a => beyond (rdByte s.scratch (a + i))
  | .ws a =>
    match (s.core core).l1w.get? ((a + i) / 64) with
    | some l => (l.extractLsb' (8 * ((a + i) % 64)) 8, none)
    | none => beyond (rdByte s.ws (a + i))

/-- A load's bytes and the writes they come from: the path's own earlier stores (latest first), then the youngest
of the warp's queue, then the core's (R60, R181, R265). -/
def State.loadBytes (s : State) (core : Nat) (line : Bool) (skip : StItem → Bool) (hid : Ver → Bool)
    (stq : List StItem) (path : List (Place × List Byte)) (p : Place) (n : Nat) : List Byte × List Nat :=
  let xs := (List.range n).map (fun i =>
    match path.findSome? (fun st => covered st.1 st.2 p i) with
    | some b => (b, none)
    | none =>
      match youngest skip stq p i with
      | some b => (b, none)
      | none => s.coreByte core line skip hid p i)
  (xs.map (·.1), (xs.filterMap (·.2)).eraseDups)

/-- Byte `i` of `p` comes to the load from the home: no earlier store, no queue and no L1 line holds it. -/
def State.fromHome (s : State) (core : Nat) (line : Bool) (skip : StItem → Bool) (stq : List StItem)
    (path : List (Place × List Byte)) (p : Place) (i : Nat) : Bool :=
  (path.findSome? (fun st => covered st.1 st.2 p i)).isNone && (youngest skip stq p i).isNone && match p with
    | .mem a => !(line && ((s.core core).l1.get? ((a + i) / 64)).isSome) && (youngest skip (s.core core).flight p i).isNone
    | .sp _ => (youngest skip (s.core core).flight p i).isNone
    | .ws a => ((s.core core).l1w.get? ((a + i) / 64)).isNone

/-- A store updates the copy of its line in its own core's L1 (R248). -/
def Core.updateLine (c : Core) (p : Place) (b : List Byte) : Core :=
  match p with
  | .mem a =>
    match c.l1.get? (a / 64) with
    | none => c
    | some l =>
      let old := leBytes 64 l.data.toNat
      let new := old.zipIdx.map (fun (x, i) => (covered p b (.mem (a / 64 * 64)) i).getD x)
      { c with l1 := c.l1.put (a / 64) { l with data := BitVec.ofNat 512 (leNat new) } }
  | _ => c

/-! ### Reservations (R190–R192, R366) -/

def granuleOf (pa : Nat) : Nat := pa / 32

/-- Clear the reservations that fail `keep`, in every warp. -/
def State.clearResv (s : State) (clear : Nat → Nat → Resv → Bool) : State :=
  { s with warps := s.warps.map (fun (w, x) =>
      (w, { x with threads := x.threads.map (fun (t, th) =>
        match th.resv with
        | some r => if clear w t r then (t, { th with resv := none }) else (t, th)
        | none => (t, th)) })) }

/-- Who may keep a reservation through a write: nobody, the writing thread, or the writing thread of a peer. -/
inductive Holder where
  | none
  | thread (w t : Nat)
  | peer (p t : Nat)
  deriving DecidableEq, Repr

/-- A write of `n` bytes at `p` clears the reservations that others than the writer hold on its granules
(R192). -/
def State.wrote (s : State) (p : Place) (n : Nat) (own : Holder) : State :=
  match p with
  | .mem a =>
    let hit (g : Nat) : Bool := a < 32 * g + 32 && 32 * g < a + n
    { s.clearResv (fun w t r => hit r.granule && own != .thread w t) with
      peerResv := s.peerResv.filter (fun x => !(hit x.2.2 && own != .peer x.1 x.2.1)) }
  | _ => s

/-- A write as every agent meets it: at home, in the order of writes, and for reservations. -/
def State.put (s : State) (w : Writer) (own : Holder) (p : Place) (b : List Byte) : State :=
  (s.write w p b).wrote p b.length own

/-! ### Atomics (R193) -/

/-- The new value of an integer ATOM on `w` bits; the float ones are in FloatOps. -/
def atomInt (op : AtomOp) (w old b c : Nat) : Nat :=
  let sgn (x : Nat) : Int := if x < 2 ^ (w - 1) then x else (x : Int) - 2 ^ w
  match op with
  | .add => (old + b) % 2 ^ w
  | .minI => if sgn b < sgn old then b else old
  | .minN => if b < old then b else old
  | .maxI => if sgn old < sgn b then b else old
  | .maxN => if old < b then b else old
  | .and => old &&& b
  | .or => old ||| b
  | .xor => old ^^^ b
  | .xchg => b
  | .cas => if old = c then b else old
  | .incwrap => if b ≤ old then 0 else old + 1
  | .fadd | .fmin | .fmax => old

/-- The result register of an ATOM: sign-extended for the signed minimum and maximum (R193). -/
def atomResult (op : AtomOp) (w old : Nat) : Word :=
  match op with
  | .minI | .maxI => (BitVec.ofNat w old).signExtend 64
  | _ => BitVec.ofNat 64 old

/-! ### The PC table (R27, R29, R30) -/

/-- Put thread t at its pc into a table: into the entry of that address, or a new one of age 0. -/
def placeThread (tbl : List Entry) (addr : Addr56) (t : Nat) : List Entry :=
  if tbl.any (fun e => e.addr == addr) then
    tbl.map (fun e => if e.addr == addr then { e with members := e.members ||| maskOf [t] } else e)
  else tbl ++ [⟨addr, maskOf [t], 0⟩]

/-- Live threads in ascending number, without the handler thread. -/
def Warp.live (w : Warp) : List Nat := (List.range 32).filter (fun t => (w.thread t).life == .live)

/-- More than 8 distinct addresses: serial mode, with p as given (R29, R30). -/
def Warp.fitTable (w : Warp) (p : Nat) : Warp :=
  if 8 < w.table.length then { w with table := [], serial := some p } else { w with serial := none }

/-- The table from the threads' PCs, every age 0 (R30, R240). -/
def Warp.rebuild (w : Warp) : Warp :=
  Warp.fitTable { w with table := w.live.foldl (fun tbl t => placeThread tbl (w.thread t).pc t) [] }
    (w.live.headD 0)

/-- The writes that the threads of a context act after since its last restore (R332). -/
def State.ctxView (s : State) (ctx : Nat) : List Nat := ((s.ctxs.get? ctx).map Ctx.view).getD []

/-! ### Taking a trap and returning from it (R333–R339, R366, R240, R399) -/

/-- What one thread reports: kind, syllable, expansion step, code and detail (R333, R334). -/
structure TrapRep where
  thread : Nat
  kind   : Nat
  syl    : Nat
  exp    : Option Nat
  code   : BitVec 12
  detail : Word
  deriving DecidableEq, Repr

/-- Bits expansion and step. -/
def expBits (e : Option Nat) (bit step : Nat) : Nat :=
  match e with
  | some k => 2 ^ bit + k * 2 ^ step
  | none => 0

/-- A thread's trap word (R334). -/
def TrapRep.word (r : TrapRep) : Word :=
  BitVec.ofNat 64 (r.kind * 2 ^ 24 + r.syl * 2 ^ 16 + expBits r.exp 15 13 + r.code.toNat)

/-- The primary: the lowest-numbered faulting thread, or the lowest-numbered one (R338). -/
def primaryRep (rs : List TrapRep) : Option TrapRep :=
  (rs.find? (fun r => 4 ≤ r.kind)).or rs.head?

/-- $trapinfo (R333). -/
def trapInfo (rs : List TrapRep) : Word :=
  match primaryRep rs with
  | some r =>
    BitVec.ofNat 64 (r.kind * 2 ^ 56 + r.thread * 2 ^ 51 + expBits r.exp 50 48 + r.syl * 2 ^ 43
      + (maskOf (rs.map TrapRep.thread)).toNat)
  | none => 0

/-- The trap: the report is written, the warp freezes until TRET, and its reservations go (R333, R334,
R338, R366). -/
def Warp.trap (w : Warp) (addr : Addr56) (rs : List TrapRep) : Warp :=
  { w with
    trappc := addr.zeroExtend 64
    trapinfo := trapInfo rs
    freeze := some .waiting
    double := none
    edits := []
    threads := w.threads.map (fun (t, th) =>
      let r := rs.find? (fun r => r.thread = t)
      (t, { th with
        trapWord := (r.map TrapRep.word).getD 0
        detail := (r.map TrapRep.detail).getD 0
        resv := none })) }

def State.takeTrap (s : State) (slot : Nat) (addr : Addr56) (rs : List TrapRep) : State :=
  s.updWarp slot (fun w => w.trap addr rs)

/-- The depth of a return stack set to d: the newest d entries, zeros added at the oldest end (R240). -/
def setDepth (r : List Addr56) (d : Nat) : List Addr56 := r.take d ++ List.replicate (d - r.length) 0

/-- A TWR that takes effect at TRET (R240): v registers whatever units the warp holds, and the low bits of a value wider than
its field (DESIGN CHOICE, notes/assumptions/78.md). -/
def Thread.edit (th : Thread) (sel : Nat) (x : Word) : Thread :=
  if sel < 0x100 then { th with v := th.v.set 0 sel x }
  else if sel = 0x100 then { th with d := x.setWidth 8 }
  else if sel = 0x101 then { th with flags := x.setWidth 7 }
  else if sel = 0x102 then { th with pc := x.setWidth 56, far := 0 }
  else if sel = 0x103 then { th with rsp := x }
  else if sel = 0x104 then { th with spill := x.setWidth 32 }
  else if sel = 0x105 then { th with ret := setDepth th.ret (min x.toNat 4) }
  else if 0x108 ≤ sel && sel < 0x10C then { th with ret := th.ret.set (sel - 0x108) (x.setWidth 56) }
  else if 0x110 ≤ sel && sel < 0x11C then { th with f := th.f.set 0 (sel - 0x110) (x.toNat % 16) }
  else if 0x140 ≤ sel && sel < 0x144 then
    { th with arrivals :=
        if x.getLsbD 9 then th.arrivals.put (sel - 0x140) (x.toNat / 2 % 256, x.getLsbD 0)
        else th.arrivals.del (sel - 0x140) }
  else th

def Warp.edit (w : Warp) (e : Nat × Nat × Word) : Warp :=
  if 0x800 ≤ e.2.1 then { w with s := w.s.set 0 (e.2.1 - 0x800) e.2.2 }
  else w.updThread e.1 (fun th => th.edit e.2.1 e.2.2)

/-- TRET: the deferred writes in order, the resume bits of the mask, the PC table rebuilt; the handler
thread is gone (R240, R393, R399). -/
def Warp.trapReturn (w : Warp) : Warp :=
  let w := w.edits.foldl Warp.edit w
  let mask : Mask := w.trapinfo.setWidth 32
  Warp.rebuild { w with
    freeze := none
    double := none
    edits := []
    threads := (w.threads.del 32).map (fun (t, th) =>
      (t, if bitOf mask t then { th with resume := true } else th)) }

/-- The lane's handler bank is free again (R392). -/
def State.freeBank (s : State) (slot : Nat) : State :=
  s.updLane (laneOf slot) (fun l => if l.bank = some slot then { l with bank := none } else l)

def State.trapReturn (s : State) (slot : Nat) : State :=
  (s.updWarp slot Warp.trapReturn).freeBank slot

end Sys2Proof.Machine
end

