-- ==== Sys2Proof/Machine/Home.lean ====
section
/-! DEFINITION. What stores, atomics, conditional stores, ordered contributions, their applications and fences do
when they leave a warp's queue and when they reach their home (R130, R187–R197, R248, R264–R271): the order in
which they may be performed, what a release publishes and what an acquire learns. -/

namespace Sys2Proof.Machine

/-- The new value of an ATOM or FATOM (R193, R194). -/
def atomNew (op : AtomOp) (dbl : Bool) (old b c : Nat) : Nat :=
  let F := if dbl then fp64 else fp32
  match op with
  | .fadd => (fAdd F .rne false old b).1
  | .fmin => (fMinMax F false old b).1
  | .fmax => (fMinMax F true old b).1
  | op => atomInt op (if dbl then 64 else 32) old b c

/-! ### Releases and acquires (R263, R268–R272) -/

/-- The releases of the writes numbered. -/
def State.headsOf (s : State) (ids : List Nat) : List Head :=
  (s.vers.filter (fun v => ids.contains v.id)).flatMap Ver.heads

/-- An acquire of a core at a scope that has read the writes numbered: it learns what the releases that are mutually
scoped with it publish; wider than core, the core's global lines go (R248, R268, R270). -/
def State.acquire (s : State) (core : Nat) (sc : Scope) (span ids : List Nat) : State :=
  let hs := (s.headsOf ids).filter (fun h => h.mutual sc (.core core) span)
  let s := s.learn core (hs.flatMap Head.view)
  if sc = .core then s else s.discardL1 core

/-- A release of a core now. -/
def State.headNow (s : State) (core : Nat) (sc : Scope) (span : List Nat) : Head :=
  ⟨sc, .core core, span, s.published core sc span⟩

/-- The order releases, or acquires. -/
def rels (o : Order) : Bool := o == .rel || o == .acqrel

def acqs (o : Order) : Bool := o == .acq || o == .acqrel

/-! ### Ordered contributions -/

/-- Ascending (class, block, rank, seq) (R130). -/
def OrdKey.lt (a b : OrdKey) : Bool :=
  a.cls < b.cls || (a.cls = b.cls && (a.block < b.block || (a.block = b.block &&
    (a.rank < b.rank || (a.rank = b.rank && a.seq < b.seq)))))

/-- Contribution `x` goes before `y`: by key, and among equal keys by a free place. -/
def ordBefore (tie : Nat → Nat) (x y : Nat × Contrib) : Bool :=
  x.2.key.lt y.2.key || (!y.2.key.lt x.2.key && tie x.1 < tie y.1)

def insertContrib (tie : Nat → Nat) (c : Nat × Contrib) : List (Nat × Contrib) → List (Nat × Contrib)
  | [] => [c]
  | x :: r => if ordBefore tie c x then c :: x :: r else x :: insertContrib tie c r

/-- The contributions in the order in which an application takes them. -/
def ordered (tie : Nat → Nat) (cs : List Contrib) : List Contrib :=
  ((cs.zipIdx.map (fun x => (x.2, x.1))).foldl (fun r c => insertContrib tie c r) []).map (·.2)

/-- An application of the contributions to a word that `take` selects, as one atomic write (R130, R195). Nothing
writes the capability list, in whole or in part (R319). -/
def State.applyOrd (s : State) (pa : Nat) (dbl : Bool) (take : Contrib → Bool) (by_ : Writer) (own : Holder) :
    State :=
  let n := dblBytes dbl
  let F := if dbl then fp64 else fp32
  let mine (c : Contrib) : Bool := c.pa = pa && c.dbl = dbl && take c
  let cs := ordered (Config.ordTie s.tick) (s.ordq.filter mine)
  let v := cs.foldl (fun v c => (fAdd F .rne false v (c.val.toNat % 2 ^ (8 * n))).1) (rdNat s.mem pa n)
  let s := { s with
    ordq := s.ordq.filter (fun c => !mine c)
    ordSeq := s.ordSeq.filter (fun c => !(c.pa = pa && c.dbl = dbl &&
      take ⟨pa, dbl, 0, ⟨c.cls, c.block, c.rank, 0⟩, s.trellis.id, c.launch⟩)) }
  if capHit pa n then s.draw else s.draw.put by_ own (.mem pa) (leBytes n v)

/-- Insert a queue's word by address, FP32 before FP64 (R195). -/
def insertWord (x : Nat × Bool) : List (Nat × Bool) → List (Nat × Bool)
  | [] => [x]
  | y :: r =>
    if x = y then y :: r
    else if x.1 < y.1 || (x.1 = y.1 && !x.2) then x :: y :: r
    else y :: insertWord x r

/-- The words to which selected contributions are queued, in the order in which a completion applies them
(R195). -/
def State.wordsOf (s : State) (take : Contrib → Bool) : List (Nat × Bool) :=
  (s.ordq.filter take).foldl (fun r c => insertWord (c.pa, c.dbl) r) []

/-- The window of a reduction cell holds the address (R327). -/
def State.cellAt (s : State) (pa : Nat) : Bool :=
  s.cells.any (fun (_, c) => c.cfg.window ≤ pa && pa < c.cfg.window + 256)

/-- Half of the context's queue backing area, the first or the `second`, cannot take item `used` of `unit` bytes:
it has no room, or the write cannot be made (R406; notes/assumptions/47.md). -/
def State.backingFull (s : State) (ctx : Nat) (second : Bool) (unit used : Nat) : Bool :=
  match s.ctxs.get? ctx with
  | none => true
  | some c =>
    let half := c.backingSize / 2
    let at_ := c.backing.toNat + (if second then half else 0) + unit * used
    half < unit * (used + 1) || (List.range unit).any (fun i =>
      match s.translateFor at_ ctx (BitVec.ofNat 64 (at_ + i)) .w with
      | .ok _ => false
      | .error _ => true)

/-- The first byte of that item that its context's world may not write, where that half has room (R324, R378). -/
def State.backingBarred (s : State) (ctx : Nat) (second : Bool) (unit used : Nat) : Option Nat :=
  match s.ctxs.get? ctx with
  | none => none
  | some c =>
    let half := c.backingSize / 2
    let at_ := c.backing.toNat + (if second then half else 0) + unit * used
    if half < unit * (used + 1) then none
    else ((List.range unit).find? (fun i =>
      match s.translateFor at_ ctx (BitVec.ofNat 64 (at_ + i)) .w with
      | .ok _ => false
      | .error k => k = 26)).map (at_ + ·)

/-- An access that a context's world forbids, made for the context by a unit of a die, is entered in the black box (R324,
R378). -/
def State.worldEntry (s : State) (die source ctx va : Nat) : State :=
  s.bbox die source 0x03 0 0xFF 0xFF ctx [BitVec.ofNat 64 va, 0]

/-- The home slice of a word of this package, by die and number; none for a word elsewhere (R246). -/
def sliceOf (pa : Nat) : Option (Nat × Nat) := if region pa = 0 then some (homeDie pa, homeSlice pa) else none

def State.launchCtx (s : State) (launch : Nat) : Nat := ((s.launches.get? launch).map Launch.ctx).getD 0

/-- The contributions of this package's launches that a slice has spilled: those beyond its first 2,048 (R372). -/
def State.spilledAt (s : State) (x : Nat × Nat) : List Contrib :=
  ((s.ordq.filter (fun c => sliceOf c.pa = some x)).drop 2048).filter (fun c => c.pkg = s.trellis.id)

/-- The contributions of a context that its backing area holds. -/
def State.spilled (s : State) (ctx : Nat) : Nat :=
  ((((s.ordq.filterMap (fun c => sliceOf c.pa)).eraseDups).flatMap s.spilledAt).filter (fun c =>
    s.launchCtx c.launch = ctx)).length

/-- The slice of the word holds as many as it can (R372). -/
def State.sliceFull (s : State) (pa : Nat) : Bool :=
  (sliceOf pa).any (fun x => 2048 ≤ (s.ordq.filter (fun c => sliceOf c.pa = some x)).length)

/-- The slice is full, and so is the second half of the backing area of the launch's context (R372, R373). -/
def State.ordFull (s : State) (pa launch : Nat) : Bool :=
  s.sliceFull pa && s.backingFull (s.launchCtx launch) true 32 (s.spilled (s.launchCtx launch))

/-- The slice's write of the contribution to the backing area is entered in the black box where its context's world may
not make it. -/
def State.spillBarred (s : State) (pa launch : Nat) : State :=
  let ctx := s.launchCtx launch
  match s.backingBarred ctx true 32 (s.spilled ctx) with
  | some va => s.worldEntry (homeDie pa) 6 ctx va
  | none => s

/-- The parts of a record of R377 that the place of the failure gives; the rest is filled when the launch
ends. -/
def mcheck (kind die store location core warp thread : Nat) (clause : Word) : MCheck :=
  ⟨1, kind, die, store, location, 0, 0, 0, 0, core, warp, thread, clause, 0⟩

/-- The store behind a place, as R377 codes it, and the location it gives. -/
def Place.store : Place → Nat × Nat
  | .mem a => (6, a)
  | .sp a => (2, a % 0x180000)
  | .ws a => (7, a % 2 ^ 32)

/-- The address of a launch's queue header. -/
def State.queueAddr (s : State) (l : Launch) : Word := ((s.queues.get? l.queue).map Queue.header).getD 0

/-- A machine-check record in its die's black box, made when its error is detected (R377, R403). -/
def State.checkEntry (s : State) (m : MCheck) : State :=
  s.bbox m.die m.source 0x01 m.core m.warp m.thread m.ctx
    [BitVec.ofNat 64 (m.cls + m.kind * 2 ^ 8 + m.die * 2 ^ 16 + m.store * 2 ^ 24), BitVec.ofNat 64 m.location,
      BitVec.ofNat 64 m.ctx, m.queue]

/-- The end of the launch is decided or has come (R376, R384). -/
def State.ending (s : State) (launch : Nat) : Bool :=
  s.doomed.any (fun d => d.launch = launch) || ((s.launches.get? launch).map Launch.closed).getD false

/-- The error has already been noted against a launch that is about to end: an operation that cannot go on meets it again
until then. -/
def State.noted (s : State) (launch : Nat) (m : MCheck) : Bool :=
  m.kind = 25 && s.doomed.any (fun d => d.launch = launch && { d.check with time := 0 } == { m with time := 0 })

/-- Decide that a launch ends early (R376, R384): the record takes the time of the detection, and is entered in the black
box when it is the one that decides, or an error of its own (R377). -/
def State.doom (s : State) (launch status : Nat) (m : MCheck) : State :=
  match s.launches.get? launch with
  | none => { s with doomed := s.doomed ++ [⟨launch, status, { m with time := s.time }⟩] }
  | some l =>
    let m := { m with time := s.time, ctx := l.ctx, queue := s.queueAddr l, index := l.index }
    if s.noted launch m then s
    else
      let s := if s.ending launch && m.kind != 25 then s else s.checkEntry m
      { s with doomed := s.doomed ++ [⟨launch, status, m⟩] }

/-- An operation of a thread has read a word that cannot be corrected: its launch ends (R375). -/
def State.loseAt (s : State) (launch slot thread : Nat) (clause : Word) (p : Place) : State :=
  s.doom launch 0x00010002
    (mcheck 25 (dieOf slot) p.store.1 p.store.2 (coreOf slot % 132) (warpNo slot) thread clause)

/-- The launch whose access to a peer cannot be made ends (R380). -/
def State.peerLost (s : State) (launch core warp thread pkg : Nat) (clause : Word) (p : Place) : State :=
  (s.bbox (dieOfCore core) 9 0x10 (core % 132) warp thread 0 [BitVec.ofNat 64 pkg]).doom launch 0x00010002
    { mcheck 25 (dieOfCore core) 6 p.store.2 (core % 132) warp thread clause with source := 9 }

/-- A contribution of a thread takes its number within its thread and word as it reaches its queue: one thread's arrive
in their order, and its applications come between them (R130). -/
def State.numbered (s : State) (c : Contrib) (task : Nat) : State × Contrib :=
  let mine (x : OrdCount) : Bool := x.pa = c.pa && x.dbl == c.dbl && x.launch = c.launch && x.cls = c.key.cls
    && x.block = c.key.block && x.rank = c.key.rank && x.task = task
  let n := ((s.ordSeq.find? mine).map OrdCount.n).getD 0
  ({ s with ordSeq := ⟨c.pa, c.dbl, c.launch, c.key.cls, c.key.block, c.key.rank, task, n + 1⟩
      :: s.ordSeq.filter (fun x => !mine x) },
    { c with key := { c.key with seq := n } })

/-- A contribution enters its queue, or ends its launch (R195, R373); one of a peer's launch has its backing
area at the peer. One of a launch that ends is discarded (R373, R376). One to a word in PCIe space is queued like one to
a word of this package (DESIGN CHOICE, notes/assumptions/57.md). -/
def State.contribute (s : State) (c : Contrib) : State :=
  if c.pkg = s.trellis.id && s.ending c.launch then s
  else if c.pkg = s.trellis.id && s.ordFull c.pa c.launch then
    (s.spillBarred c.pa c.launch).doom c.launch 0x00010003
      { mcheck 25 (homeDie c.pa) 5 c.pa (homeSlice c.pa) 0xFF 0xFF 0 with source := 6 }
  else { s with ordq := s.ordq ++ [c] }

/-! ### Performing at the home -/

/-- Deliver the answer of the home to an uncompleted operation: no value where the data cannot be corrected. -/
def State.answers (s : State) (id : Nat) (v : List Word) : State :=
  { s with loads := s.loads.upd id (fun l => { l with val := some v }) }

def State.answer (s : State) (id : Nat) (v : Word) : State := s.answers id [v]

/-- The reservation of thread t of warp slot w. -/
def State.resvOf (s : State) (w t : Nat) : Option Resv :=
  (s.warp? w).bind (fun x => (x.thread t).resv)

def State.dropResv (s : State) (w t : Nat) : State :=
  s.updWarp w (fun x => x.updThread t (fun th => { th with resv := none }))

/-- The item releases wider than its core, as an access. -/
def StItem.wideRel (i : StItem) : Bool := rels i.order && i.scope != .core

/-- Two threads of a warp are one program: the same, or a thread and the handler, which continues its warp's program
(R343). -/
def oneProgram (t u : Nat) : Bool := t = u || t = 32 || u = 32

/-- What a reader of the item's write meets: its own release, what release fences of its thread release, and for an
atomic the releases of the write it follows, whose sequence it continues (R268, R270). -/
def State.headsFor (s : State) (core : Nat) (i : StItem) (atomic : Bool) : List Head :=
  (if i.wideRel then [s.headNow core i.scope i.span] else [])
    ++ ((s.core core).rel.filter (fun x => x.1 = i.warp && oneProgram x.2.1 i.thread)).map (fun x => x.2.2)
    ++ (if atomic then ((s.newest i.place i.len).map Ver.heads).getD [] else [])

/-- A strong access, which stands in the total order of R269. -/
def StItem.strong (i : StItem) : Bool := i.kind != .fence && i.order != .plain

def State.writerOf (s : State) (core : Nat) (i : StItem) (atomic : Bool) : Writer :=
  ⟨.core core, i.issue, i.thread, s.headsFor core i atomic, if i.strong then some (i.scope, i.span) else none⟩

/-- An acq_rel fence comes after those performed before it that are mutually scoped with it (R269). -/
def State.fenceOrder (s : State) (core : Nat) (sc : Scope) (span : List Nat) (h : Head) : State :=
  let s := s.learn core ((s.fences.filter (fun f => f.mutual sc (.core core) span)).flatMap Head.view)
  { s with fences := h :: s.fences }

/-- A fence is performed (R197, R269, R270): a release stands for the thread's later stores, an acquire follows the
releases of what the core has read. -/
def State.fenceDone (s : State) (core warp thread : Nat) (span : List Nat) (o : Order) (sc : Scope) : State :=
  let h := s.headNow core sc span
  let s := if rels o && sc != .core then
      s.updCore core (fun c => { c with
        rel := (warp, thread, h) :: c.rel.filter (fun x => !(x.1 = warp && x.2.1 = thread && x.2.2.scope == sc)) })
    else s
  let s := if o == .acqrel && sc != .core then s.fenceOrder core sc span h else s
  if acqs o then s.acquire core sc span (s.core core).seen else s

/-- The release fences of warp slots are forgotten with their warps. -/
def State.dropRels (s : State) (slots : List Nat) : State :=
  slots.foldl (fun s x => s.updCore (coreOf x) (fun c => { c with rel := c.rel.filter (fun y => y.1 != x) })) s

/-- What an atomic of the item has read: its core has seen it, and an acquire follows its releases (R268). -/
def State.atomRead (s : State) (core : Nat) (i : StItem) : State :=
  let ids := (s.sight (fun _ => false) i.place i.len).2
  let s := s.sees core ids
  if acqs i.order then s.acquire core i.scope i.span ids else s

/-- The item reads its word and the word cannot be corrected (R375). -/
def State.cannotRead (s : State) (i : StItem) : Bool :=
  match i.kind with
  | .atom .. | .ordf _ => s.lost i.place i.len
  | _ => false

/-- Nothing is written: an operation with a result gets none, and the launch of one without ends (R375). -/
def State.performLost (s : State) (core : Nat) (i : StItem) : State :=
  match i.kind with
  | .atom _ _ _ _ (some id) => s.answers id []
  | _ => s.loseAt i.launch (96 * core + i.warp % 96) i.thread 0 i.place

/-- An item reaches its home and is performed there (R191, R193–R197). A store or atomic to a reduction
cell's window is dropped (R379); R328 gives an atomic or SCOND there no value to return, and its operation stays
uncompleted (DESIGN CHOICE, notes/assumptions/63.md). A thread's own ORDF leaves its reservation (DESIGN CHOICE,
notes/assumptions/76.md). -/
def State.perform (s : State) (core : Nat) (i : StItem) : State :=
  let n := i.len
  let own : Holder := .thread i.warp i.thread
  let inCell : Bool := match i.place with
    | .mem a => i.kind != .fence && s.cellAt a
    | _ => false
  if inCell then
    s.bbox (dieOfCore core) 9 0x04 (core % 132) (warpNo i.warp) i.thread 0 [i.va]
  else if s.cannotRead i then s.performLost core i
  else
  match i.kind with
  | .fence => s.fenceDone core i.warp i.thread i.span i.order i.scope
  | .store b => s.put (s.writerOf core i false) own i.place b
  | .atom op b c dbl load =>
    let old := leNat (s.home i.place n)
    let w := 8 * n
    let new := atomNew op dbl old (b.toNat % 2 ^ w) (c.toNat % 2 ^ w)
    let s := s.atomRead core i
    let s := (s.put (s.writerOf core i true) own i.place (leBytes n new)).dropLine core i.place
    match load with
    | some id => s.answer id (atomResult op w old)
    | none => s
  | .scond b _ load =>
    let ok : Bool := match s.resvOf i.warp i.thread, i.place with
      | some r, .mem a => r.granule = granuleOf a
      | _, _ => false
    let s := s.dropLine core i.place
    let s := if ok then s.put (s.writerOf core i true) own i.place (leBytes n b.toNat) else s
    (s.dropResv i.warp i.thread).answer load (if ok then 1 else 0)
  | .ordf dbl =>
    match i.place with
    | .mem a => (s.applyOrd a dbl (fun _ => true) (s.writerOf core i true) own).dropLine core i.place
    | _ => s
  | .contrib dbl v key launch =>
    match i.place with
    | .mem a =>
      let (s, c) := s.numbered ⟨a, dbl, v, key, s.trellis.id, launch⟩ i.task
      (s.contribute c).dropLine core i.place
    | _ => s

/-! ### On the way -/

/-- An atomic, SCOND or ORDF: it takes its value at the home. -/
def StItem.homeOp (i : StItem) : Bool :=
  match i.kind with
  | .atom .. | .scond .. | .ordf _ => true
  | _ => false

/-- The item orders the thread's later accesses after it: an acquire or acq_rel fence (R197, R269, R270) or an
atomic with an acquire (R268). -/
def StItem.ahead (i : StItem) : Bool :=
  match i.kind with
  | .fence | .atom .. => acqs i.order
  | _ => false

/-- Two items must keep their order: they share bytes, or one is an SCOND and they share a granule (R192, R264). -/
def StItem.clash (i j : StItem) : Bool :=
  let cond (x : StItem) : Bool := match x.kind with
    | .scond .. => true
    | _ => false
  overlap i.place i.len j.place j.len || ((cond i || cond j) && match i.place, j.place with
    | .mem a, .mem b => i.len != 0 && j.len != 0 && granuleOf a = granuleOf b
    | _, _ => false)

/-- Items of one thread, or of a warp and its handler, which continues the warp's program (R343). -/
def StItem.sameThread (i j : StItem) : Bool := i.warp = j.warp && oneProgram i.thread j.thread

/-- A strong access wider than core. -/
def StItem.wide (i : StItem) : Bool := i.strong && i.scope != .core

/-- Item k on its way from a core may be performed now: no earlier one clashes with it, none of its thread orders it
behind itself; a release wider than core behind its thread's and those that its thread may act after (R268, R272); an
acquire fence behind its thread's atomics; strong accesses wider than core in their thread's order (R264, R268–R270). -/
def mayPerform (fl : List StItem) (k : Nat) : Bool :=
  match fl[k]? with
  | none => false
  | some i =>
    let before := fl.take k
    before.all (fun j => !i.clash j && !(i.wideRel && j.pub) && !(i.sameThread j && (i.wideRel || j.kind == .fence
      || j.ahead || (i.wide && j.wide) || (i.kind == .fence && j.homeOp))))

/-- Item k on its way from a core reaches its home, or ends its launch where no port reaches it (R380). -/
def State.arrive (s : State) (core k : Nat) : State :=
  match (s.core core).flight[k]? with
  | none => s
  | some i =>
    let s := s.updCore core (fun c => { c with flight := c.flight.eraseIdx k })
    match s.reaches i.place, i.place.peer with
    | false, some pkg => s.peerLost i.launch core (warpNo i.warp) i.thread pkg 0 i.place
    | _, _ => s.perform core i

/-- Everything on its way from a core is performed, in order. -/
def State.drainFlight (core : Nat) : Nat → State → State
  | 0, s => s
  | n + 1, s => State.drainFlight core n (s.arrive core 0)

/-- Items on their way from a core that `want` selects are performed, each as soon as the order lets it; what
stands before one that may not goes first. -/
def State.forceFlight (core : Nat) (want : StItem → Bool) : Nat → State → State
  | 0, s => s
  | n + 1, s =>
    let fl := (s.core core).flight
    if !fl.any want then s
    else
      let k := fl.findIdx want
      State.forceFlight core want n (s.arrive core (if mayPerform fl k then k else 0))

/-- Items on their way from the core that `want` selects, all of them. -/
def State.forceCore (s : State) (core : Nat) (want : StItem → Bool) : State :=
  State.forceFlight core want (s.core core).flight.length s

/-- The item stands on its way from the core, and updates the core's L1 (R248, R265). A release fence at core scope has
then done all it does. -/
def State.launchItem (s : State) (core : Nat) (i : StItem) : State :=
  if i.kind == .fence && i.order == .rel && i.scope == .core then s
  else
    s.updCore core (fun c =>
      let c := { c with flight := c.flight ++ [i] }
      match i.kind with
      | .store b => c.updateLine i.place b
      | _ => c)

/-- The head of a warp's queue leaves it, once what its thread is ordered behind has been performed: from then on the
core's other threads see it (R265, R268, R270). -/
def State.depart (s : State) (w : Nat) : State :=
  match s.warp? w with
  | none => s
  | some x =>
    match x.stq with
    | [] => s
    | i :: rest =>
      let s := s.forceCore (coreOf w) (fun j => j.ahead && i.sameThread j)
      (s.updWarp w (fun x => { x with stq := rest })).launchItem (coreOf w) i

/-- The first n items of a warp's queue leave it. -/
def State.departAll (w : Nat) : Nat → State → State
  | 0, s => s
  | n + 1, s => State.departAll w n (s.depart w)

/-- The warp's queue. -/
def State.stqOf (s : State) (w : Nat) : List StItem := ((s.warp? w).map Warp.stq).getD []

/-- The whole queue of a warp leaves it. -/
def State.departWarp (s : State) (w : Nat) : State := State.departAll w (s.stqOf w).length s

/-- The warp's queue and everything on its way from its core are performed at their homes. -/
def State.drainWarp (s : State) (w : Nat) : State :=
  let s := s.departWarp w
  State.drainFlight (coreOf w) (s.core (coreOf w)).flight.length s

/-- The warp's queue up to the last item that `want` selects leaves it. -/
def State.pushOut (s : State) (w : Nat) (want : StItem → Bool) : State :=
  State.departAll w ((s.stqOf w).length - (s.stqOf w).reverse.findIdx want) s

/-- Items of a warp's queue and on its way from its core that `want` selects are performed. -/
def State.force (s : State) (w : Nat) (want : StItem → Bool) : State :=
  (s.pushOut w want).forceCore (coreOf w) want

/-- Other threads of the core may act after the items that `want` selects, in the warp's queue and on their way from its
core: they are marked (R263, R272). -/
def State.share (s : State) (w : Nat) (want : StItem → Bool) : State :=
  let mark (i : StItem) : StItem := if want i then { i with pub := true } else i
  (s.updWarp w (fun x => { x with stq := x.stq.map mark })).updCore (coreOf w) (fun c =>
    { c with flight := c.flight.map mark })

/-- A place on one of the tiles of a core. -/
def Place.onTiles (p : Place) (core : Nat) (tiles : List Nat) : Bool :=
  match p with
  | .sp a => a / 0x180000 = core && tiles.contains (a % 0x180000 / 4096)
  | _ => false

/-- What stands in queues or on its way and `want` selects is performed. -/
def State.forceAll (s : State) (want : StItem → Bool) : State :=
  let s := s.warps.keys.foldl (fun s w => s.force w want) s
  s.cores.keys.foldl (fun s c => State.forceFlight c want (s.core c).flight.length s) s

/-- Accesses that have passed their check are performed on the tiles, before they flip or are returned (R253, R365). -/
def State.drainTiles (s : State) (core : Nat) (tiles : List Nat) : State :=
  s.forceAll (fun i => i.place.onTiles core tiles)

/-- Every access of the machine on its way is performed: what a shoot-down, a pre-emption's restore or a launch's end
waits for. -/
def State.settle (s : State) : State :=
  let s := s.warps.keys.foldl (fun s w => s.drainWarp w) s
  s.cores.keys.foldl (fun s c => State.drainFlight c (s.core c).flight.length s) s

end Sys2Proof.Machine
end

