-- ==== Sys2Proof/Machine/Operands.lean ====
section
/-! DEFINITION. The clause's shape (R45–R48), what a syllable names, and every operand form: registers,
uniform registers at their entry values, special registers, inline constants, typed elements (R55,
R72–R74, R78, R110, R131, R153). -/

namespace Sys2Proof.Machine

/-! ### The shape of a clause -/

/-- What a syllable of the clause is by its position (R46). -/
inductive Slot where
  | root
  | test (k : Nat)
  | arc (k : Nat) (c : Bool)
  | leaf (p : Nat)
  deriving DecidableEq, Repr

/-- Header fields (R47). -/
def hWait (h : Word) : BitVec 12 := h.extractLsb' 52 12
def hSetA (h : Word) : Nat := (h.extractLsb' 48 4).toNat
def hSetB (h : Word) : Nat := (h.extractLsb' 44 4).toNat
def hNode (h : Word) (k : Nat) : Bool := 1 ≤ k && k ≤ 7 && h.getLsbD (44 - k)
def hPre (h : Word) : Nat := (h.extractLsb' 33 4).toNat
def hArc (h : Word) (k : Nat) (c : Bool) : Nat :=
  (h.extractLsb' (if c then 33 - 4 * k else 35 - 4 * k) 2).toNat
def hSafe (h : Word) : Bool := h.getLsbD 4

def nodeList (h : Word) : List Nat := [1, 2, 3, 4, 5, 6, 7].filter (hNode h)

/-- Leaf positions: the children of existing nodes that are no nodes, or 1 (R45). -/
def leafList (h : Word) : List Nat :=
  (List.range 15).filterMap (fun i =>
    let p := i + 1
    if hNode h p then none
    else if p = 1 then (if (nodeList h).isEmpty then some 1 else none)
    else if hNode h (p / 2) then some p else none)

/-- The syllables in order (R46). -/
def slots (h : Word) : List Slot :=
  List.replicate (hPre h) .root
    ++ (nodeList h).flatMap (fun k =>
      .test k :: (List.replicate (hArc h k false) (.arc k false) ++ List.replicate (hArc h k true) (.arc k true)))
    ++ (leafList h).map .leaf

/-- A well-formed header (R48). -/
def headerOk (h : Word) : Bool :=
  let ks := [1, 2, 3, 4, 5, 6, 7]
  ks.all (fun k => hNode h k || (hArc h k false = 0 && hArc h k true = 0))
    && ks.all (fun k => !hNode h k || k = 1 || hNode h (k / 2))
    && (slots h).length ≤ 31
    && (hSetA h ≤ 11 || hSetA h = 15) && (hSetB h ≤ 11 || hSetB h = 15)
    && h.extractLsb' 0 4 = 0

/-- A path that has reached heap position `pos` visits the syllable. -/
def Slot.on (sl : Slot) (pos : Nat) : Bool :=
  match sl with
  | .root => true
  | .test k => pos = k
  | .arc k c => pos = 2 * k + (if c then 1 else 0)
  | .leaf p => pos = p

/-- The position at which the decoder judges the syllable. -/
def Slot.pos : Slot → Pos
  | .root => .root
  | .test _ => .node
  | .arc .. => .arc
  | .leaf _ => .leaf

/-! ### What an instruction names -/

/-- A register operand or a small-matrix window (R164). -/
inductive Named where
  | op (o : Operand)
  | win (m : BitVec 4) (dbl : Bool)
  deriving DecidableEq, Repr

/-- The first register of a window, and how many it has (R164). -/
def winFirst (m : BitVec 4) : Nat := 64 + 18 * m.toNat
def winLen (dbl : Bool) : Nat := if dbl then 36 else 18

def nm (os : List Operand) : List Named := os.map .op
def nmV (r : BitVec 8) : Named := .op (.v r)

def memNames (m : Mem) : List Named := nm [m.base]
def idxNames (x : Idx) : List Named := nm [x.base, x.index]
def atomNames (x : Atom) : List Named :=
  nm [x.a, x.b] ++ (match x.d with | some d => [nmV d] | none => [])
def sweepNames (x : Sweep) : List Named := nm [x.d, x.a, x.b, x.c]
def copyNames (x : Copy) : List Named := nm [x.d, x.a, x.b, x.c]
def callNames (x : Call) : List Named := nmV x.d :: nm [x.a, x.b, x.c]

/-- Every register and window the syllable names as a source or destination. A source field that the
form leaves unused (0x000) names nothing. -/
def namesOf (i : Instr) : List Named :=
  match i with
  | .add _ d a b _ _ | .sub _ d a b _ _ | .mul _ d a b _ _ | .mulh _ d a b _ | .div _ d a b _ _
  | .rem _ d a b _ | .min _ d a b _ | .max _ d a b _ | .and _ d a b _ | .or _ d a b _ | .xor _ d a b _
  | .andn _ d a b _ | .shl _ d a b _ | .shr _ d a b _ | .sar _ d a b _ | .rotl _ d a b _
  | .sel _ d a b _ | .divF _ d a b _ _ _ _ => nm [d, a, b]
  | .mad _ d a b c _ _ | .madw _ d a b c _ _ | .lea _ d a b c _ | .truth _ d a b c _
  | .fshl _ d a b c _ | .bfx _ d a b c _ | .bfi _ d a b c _ => nm [d, a, b, c]
  | .abs _ d a _ _ | .neg _ d a _ _ | .addImm _ d a _ _ | .subRevImm _ d a _ _ | .mulImm _ d a _ _
  | .minImm _ d a _ _ | .maxImm _ d a _ _ | .leaImm _ d a _ | .popc _ d a _ | .clz _ d a _
  | .ctz _ d a _ | .brev _ d a _ | .andImm _ d a _ | .orImm _ d a _ | .xorImm _ d a _
  | .andnImm _ d a _ | .shlImm _ d a _ | .shrImm _ d a _ | .sarImm _ d a _ | .rotlImm _ d a _
  | .mov _ d a _ | .rcp _ d a _ _ _ _ | .rsq _ d a _ _ _ _ | .sqrt _ d a _ _ _ _
  | .exp2 _ d a _ _ _ _ | .log2 _ d a _ _ _ _ | .sin _ d a _ _ _ _ | .cos _ d a _ _ _ _
  | .tanh _ d a _ _ _ _ | .sigm _ d a _ _ _ _ | .erf _ d a _ _ _ _ | .redw _ d a _ _ _ _ => nm [d, a]
  | .movi _ d _ | .moviW _ d _ | .movhi _ d _ | .pget _ d | .ballot _ d _ _ | .jqry _ d _ _ => nm [d]
  | .cmp _ _ a b _ | .fcmp _ _ a b _ _ | .testCmpReg _ a b _ => nm [a, b]
  | .cmpImm _ _ a _ _ | .testCmpImm _ a _ _ | .pset _ a | .barx _ _ a _ | .ringput _ _ a
  | .mxtokGive _ a | .tspawn _ a | .tjob _ a | .twrKill _ a | .leafJmpi a | .leafCalli a
  | .swr _ _ a => nm [a]
  | .first _ d a => nm [.s d, a]
  | .srd _ d a | .xmov _ d a _ | .scan _ d a _ _ _ _ _ | .tileq _ d a => nmV d :: nm [a]
  | .fadd _ d a b _ _ _ | .fmul _ d a b _ _ _ | .fmin _ d a b _ _ _ | .fmax _ d a b _ _ _ =>
    nm [d, a.o, b.o]
  | .fma _ d a b c _ _ _ _ => nm [d, a.o, b.o, c]
  | .frnd _ d a _ _ _ | .fclass _ d a _ _ | .fexpo _ d a _ _ => nm [d, a.o]
  | .fscale _ d a b _ _ _ => nm [d, a.o, b]
  | .fcvt _ d a b c dst src _ _ _ =>
    nm (if dst.count ≤ src.count then [d, a, c] else [d, a, b, c])
  | .cvti _ d a b c dst src _ _ _ =>
    nm (if dst.count ≤ src.count then [d, a, c] else [d, a, b, c])
  | .cvtf _ d a b c dst src _ _ _ =>
    nm (if dst.count ≤ src.count then [d, a, c] else [d, a, b, c])
  | .mld _ m dbl base _ | .mst _ m dbl base _ => [.win m dbl, .op base]
  | .mset _ d a b sh _ => .win d sh.dbl :: nm [a, b]
  | .mmov _ d a sh _ | .mtr _ d a sh _ | .mchol _ d a sh _ => [.win d sh.dbl, .win a sh.dbl]
  | .mmul _ d a b _ sh _ | .mmad _ d a b _ sh _ | .mmv _ d a b _ sh _ | .mtrs _ d a b _ sh _ =>
    [.win d sh.dbl, .win a sh.dbl, .win b sh.dbl]
  | .mlup _ d a vp sh _ => [.win d sh.dbl, .win a sh.dbl, nmV vp]
  | .mlus _ d a b vp sh _ => [.win d sh.dbl, .win a sh.dbl, .win b sh.dbl, .op vp]
  | .mdet _ d a sh _ => [nmV d, .win a sh.dbl]
  | .ldN d m | .ldI d m | .ldSpN d m | .ldSpI d m | .ldWsN d m | .ldWsI d m | .ldSpPeekN d m
  | .ldSpPeekI d m | .lres d m => nmV d :: memNames m
  | .st x m | .stSp x m => .op x :: memNames m
  | .ldxN d x | .ldxI d x | .ldxSpN d x | .ldxSpI d x => nmV d :: idxNames x
  | .stx v x | .stxSp v x => .op v :: idxNames x
  | .ldu d m => .op (.s d) :: memNames m
  | .pref _ base _ _ => nm [base]
  | .scond _ d a b _ _ _ => nmV d :: nm [a, b]
  | .atomAdd x | .atomMinI x | .atomMinN x | .atomMaxI x | .atomMaxN x | .atomAnd x | .atomOr x
  | .atomXor x | .atomXchg x | .atomIncwrap x | .atomSpAdd x | .atomSpMinI x | .atomSpMinN x
  | .atomSpMaxI x | .atomSpMaxN x | .atomSpAnd x | .atomSpOr x | .atomSpXor x | .atomSpXchg x
  | .atomSpIncwrap x | .fatomAdd x | .fatomMin x | .fatomMax x | .fatomSpAdd x | .fatomSpMin x
  | .fatomSpMax x => atomNames x
  | .atomCas x c | .atomSpCas x c => .op c :: atomNames x
  | .fatomAddOrd _ a b _ => nm [a, b]
  | .ordf m => memNames m
  | .waita _ d a b c _ _ _ _ => nmV d :: nm [a, b, c]
  | .xcfg _ _ r => (List.range 13).map (fun k => .op (.s (r + BitVec.ofNat 9 k)))
  | .lread _ d _ b c width => nmV d :: nm (if width = 0 then [b] else [b, c])
  | .jsetUniform _ _ r => nm [.s r]
  | .own _ d a b | .trd _ d a b => nmV d :: nm [a, b]
  | .tilereg _ d a b => (if d = 0 then [] else [nmV d]) ++ nm [a, b]
  | .ringget _ _ a b | .tiledrop _ a b => nm [a, b]
  | .mxmac _ acc a b fmt _ _ | .mxsmac _ acc a b fmt _ _ _ =>
    nm [acc, .s a, .s (a + 1), .s b, .s (b + 1), fmt]
  | .mxzero _ acc _ _ => nm [acc]
  | .mxwait _ d _ => [nmV d]
  | .vswAdd x | .vswMul x | .vswFma x | .vswMax x | .vswMin x => sweepNames x
  | .vswExp x | .vswCvt x | .vswScl x | .vswRsum x | .vswRmax x => nm [x.d, x.a, x.c]
  | .cpyIn x _ | .cpyOut x | .cpyRows x | .cpyFill x | .cpyWs x => copyNames x
  | .syscVersion x | .syscAlloc x | .syscFree x | .syscPrint x | .syscResolve x | .syscNotify x
  | .syscAbort x | .syscCapread x | .syscEscalate x | .syscUnassigned _ x => callNames x
  | .twr _ a b c => nm [a, b, c]
  | .ldq _ d base _ => [nmV d, .op base]
  | .dot4 _ d a b c _ => nmV d :: nm [a, b, c]
  | _ => []

/-- The v registers of a named item. -/
def Named.vregs : Named → List Nat
  | .op (.v r) => [r.toNat]
  | .op _ => []
  | .win m dbl => (List.range (winLen dbl)).map (winFirst m + ·)

def Named.sreg : Named → Option (BitVec 9)
  | .op (.s r) => some r
  | _ => none

/-- The specifier that a report gives of a named item (R335 kinds 13 and 23). -/
def Named.spec : Named → Word
  | .op o => (o.enc).zeroExtend 64
  | .win m _ => BitVec.ofNat 64 (winFirst m)

/-- The uniform registers named (R28, R188). -/
def sregsOf (i : Instr) : List (BitVec 9) := (namesOf i).filterMap Named.sreg

/-! ### Special registers (R74) -/

/-- Coordinates of rank r in a box of width x and height y. -/
def coords (r x y : Nat) : Nat × Nat × Nat := (r % x, r / x % y, r / x / y)

/-- The record of a warp's launch. -/
def State.infoOf (s : State) (w : Warp) : Option Rec := (s.launches.get? w.launch).map Launch.info

/-- A thread's rank in its block (R31). -/
def rankOf (w : Warp) (t : Nat) : Nat := 32 * w.num + t

/-- The primary thread of the last trap (R333). -/
def primaryOf (w : Warp) : Nat := w.trapinfo.toNat / 2 ^ 51 % 32

/-- The thread number under which a thread has its coordinates: the handler thread (32) reads the primary
thread's number in $tid (R392). -/
def State.tidOf (s : State) (w : Warp) (t : Nat) : Nat × Nat × Nat :=
  if t = 32 then (primaryOf w, 0, 0)
  else match s.infoOf w with
    | some r => coords (rankOf w t) r.x r.y
    | none => (rankOf w t, 0, 0)

def State.bidOf (s : State) (w : Warp) : Nat × Nat × Nat :=
  match s.infoOf w, s.blocks.get? w.block with
  | some r, some b => coords b.index r.gx r.gy
  | _, _ => (0, 0, 0)

/-- The cycle in which a reading syllable occupies its slot (R18, R150): the slot has served the lower threads
of the same slot before it. -/
def clockAt (iss : Issue) (p : Path) : Nat :=
  iss.clock0 + iss.cost
    + ((iss.paths.filter (fun q => q.t % 4 = p.t % 4 && q.t < p.t)).map Path.weight).sum + p.weight

def State.special (s : State) (iss : Issue) (w : Warp) (p : Path) (r : Special) : Word :=
  let n (x : Nat) : Word := BitVec.ofNat 64 x
  match r with
  | .tid => n (s.tidOf w p.t).1
  | .tidy => n (s.tidOf w p.t).2.1
  | .tidz => n (s.tidOf w p.t).2.2
  | .bid => n (s.bidOf w).1
  | .bidy => n (s.bidOf w).2.1
  | .bidz => n (s.bidOf w).2.2
  | .warp => n (warpNo iss.warp)
  | .core => n (coreOf iss.warp % 132)
  | .die => n (dieOf iss.warp)
  | .stage => n w.role
  | .clock => n (clockAt iss p)
  | .time => n (s.timeBase + clockAt iss p * 5 / 6)
  | .wsphase => n ((s.timeBase + clockAt iss p * 5 / 6) / 4000 % 16)
  | .frame => p.th.frame
  | .ctx => n w.ctx
  | .rsp => p.th.rsp
  | .trappc => w.trappc
  | .trapinfo => w.trapinfo
  | .flags => p.th.flags.zeroExtend 64
  | .h k => p.h.get 0 k.toNat

/-! ### Constants -/

/-- The FP-constant table (R73): values that are exact in FP64, and the FP64 codes of the others. -/
def fpConst64 (k : BitVec 5) : Nat :=
  match k.toNat with
  | 0 => 0x0000000000000000 | 1 => 0x8000000000000000 | 2 => 0x3FE0000000000000
  | 3 => 0x3FF0000000000000 | 4 => 0x3FF8000000000000 | 5 => 0x4000000000000000
  | 6 => 0x4008000000000000 | 7 => 0x4010000000000000 | 8 => 0x4020000000000000
  | 9 => 0x4030000000000000 | 10 => 0x3FD0000000000000 | 11 => 0x3FC0000000000000
  | 12 => 0xBFE0000000000000 | 13 => 0xBFF0000000000000 | 14 => 0xC000000000000000
  | 15 => 0x3FE8000000000000 | 16 => 0x3FE62E42FEFA39EF | 17 => 0x3FF71547652B82FE
  | 18 => 0x400921FB54442D18 | 19 => 0x3FF921FB54442D18 | 20 => 0x3FD45F306DC9C883
  | 21 => 0x3FF6A09E667F3BCD | 22 => 0x3FE6A09E667F3BCD | 23 => 0x4005BF0A8B145769
  | 24 => 0x40026BB1BBB55516 | 25 => 0x407C000000000000 | 26 => 0x40EC000000000000
  | 27 => 0x40EFFC0000000000 | 28 => 0x4018000000000000 | 29 => 0x7FF0000000000000
  | 30 => 0xFFF0000000000000 | _ => 0x7FF8000000000000

/-- An entry rounded to nearest-even in the operand's format. No entry's FP64 code lies at a tie of a
narrower format, so rounding it rounds the value; entry 31 is the format's canonical NaN. -/
def fpConst (F : Fmt) (k : BitVec 5) : Nat :=
  if k = 31 then F.canonNaN else (cvt fp64 F .rne false (fpConst64 k)).1

/-- The signed value of an inline integer: specifier − 0x3A0 (R72). -/
def inlineInt (n : BitVec 6) : Int := (n.toNat : Int) - 32

/-! ### Typed elements -/

/-- Element width of an integer type (R131). -/
def wI : ITy → Nat
  | .i8 | .n8 | .i8x8 => 8
  | .i16 | .n16 | .i16x4 => 16
  | .i32 | .n32 | .i32x2 => 32
  | .i64 | .n64 => 64

/-- Field i of width w. -/
def fieldAt (x : Word) (w i : Nat) : Nat := x.toNat / 2 ^ (w * i) % 2 ^ w

/-- The value of w bits read as signed. -/
def sgnOf (w x : Nat) : Int := if x % 2 ^ w < 2 ^ (w - 1) then (x % 2 ^ w : Nat) else ((x % 2 ^ w : Nat) : Int) - 2 ^ w

/-- Element i read through the type (R131). -/
def elemI (ty : ITy) (x : Word) (i : Nat) : Int :=
  if ty.signed then sgnOf (wI ty) (fieldAt x (wI ty) i) else fieldAt x (wI ty) i

/-- Place fields of width w from element 0 up. -/
def pack (w : Nat) : List Nat → Nat
  | [] => 0
  | x :: r => x % 2 ^ w + 2 ^ w * pack w r

/-- A result written through the type: packed in every element, or extended to 64 bits (R131). -/
def writeI (ty : ITy) (xs : List Int) : Word :=
  let w := wI ty
  if ty.count = 1 then
    let v := (xs.headD 0 % 2 ^ w).toNat
    if ty.signed then (BitVec.ofNat w v).signExtend 64 else BitVec.ofNat 64 v
  else BitVec.ofNat 64 (pack w (xs.map (fun x => (x % 2 ^ w).toNat)))

/-- The elements of a register under a float type as codes (R110). -/
def elemsF (ty : FTy) (x : Word) : List Nat :=
  (List.range ty.count).map (fieldAt x (fmtOf ty).width)

def writeF (ty : FTy) (cs : List Nat) : Word := BitVec.ofNat 64 (pack (fmtOf ty).width cs)

/-- Replicate one code in every element of the type. -/
def splat (ty : FTy) (c : Nat) : Word := writeF ty (List.replicate ty.count c)

/-! ### Operand reads -/

/-- An operand as 64 bits: a v register at its point on the path, a uniform register at clause entry, a
special register, an inline integer sign-extended. An FP constant needs a type and gives 0 here. -/
def State.rd (s : State) (iss : Issue) (w : Warp) (p : Path) (o : Operand) : Word :=
  match o with
  | .v r => p.th.v.get 0 r.toNat
  | .s r => iss.entryS.get 0 r.toNat
  | .sp r => s.special iss w p r
  | .int n => BitVec.ofInt 64 (inlineInt n)
  | .fp _ => 0

/-- An operand under an integer type; an inline integer stands in every element of a packed type (R72). -/
def State.rdI (s : State) (iss : Issue) (w : Warp) (p : Path) (ty : ITy) (o : Operand) : Word :=
  match o with
  | .int n =>
    BitVec.ofNat 64 (pack (wI ty) (List.replicate ty.count ((inlineInt n) % 2 ^ wI ty).toNat))
  | o => s.rd iss w p o

/-- The code of an inline integer in a float type. The formats of page 3 hold each exactly (R72); the code in another
that cannot, as a merge source names it, is a free value (notes/assumptions/46.md). -/
def inlineCode (ty : FTy) (n : BitVec 6) : Nat :=
  match intToF (fmtOf ty) .rne false (inlineInt n) with
  | (c, f) => if f = 0 then c else Config.inlineCode ty.idx n.toNat % 2 ^ (fmtOf ty).width

/-- An operand under a float type: inline constants stand in every element (R72, R73). -/
def State.rdF (s : State) (iss : Issue) (w : Warp) (p : Path) (ty : FTy) (o : Operand) : Word :=
  match o with
  | .int n => splat ty (inlineCode ty n)
  | .fp k => splat ty (fpConst (fmtOf ty) k)
  | o => s.rd iss w p o

def State.rdD (s : State) (iss : Issue) (w : Warp) (p : Path) (ty : DTy) (o : Operand) : Word :=
  match ty with
  | .i t => s.rdI iss w p t o
  | .f t => s.rdF iss w p t o

/-- abs and then negate, on a code (R78). -/
def modCode (F : Fmt) (neg abs : Bool) (c : Nat) : Nat :=
  let h := 2 ^ (F.width - 1)
  let c := if abs then c % h else c
  if neg then (if c < h then c + h else c - h) else c

/-- The codes of a float source after its modifiers. -/
def State.rdFS (s : State) (iss : Issue) (w : Warp) (p : Path) (ty : FTy) (x : FSrc) : List Nat :=
  (elemsF ty (s.rdF iss w p ty x.o)).map (modCode (fmtOf ty) x.neg x.abs)

/-! ### Register writes on a path -/

def Path.setV (p : Path) (r : BitVec 8) (x : Word) : Path :=
  { p with th := { p.th with v := p.th.v.set 0 r.toNat x } }

/-- Write a v register, or record a uniform register's new value for the clause boundary (R55, R133). -/
def Path.setDst (p : Path) (d : Operand) (x : Word) : Path :=
  match d with
  | .v r => p.setV r x
  | .s r => { p with fx := p.fx ++ [.uni r x] }
  | _ => p

def Path.push (p : Path) (x : Bool) : Path :=
  { p with th := { p.th with d := (p.th.d <<< 1) ||| (if x then 1 else 0) } }

def Path.depth (p : Path) (d : BitVec 3) : Bool := p.th.d.getLsbD d.toNat

/-- The guard at its point on the path (R75). -/
def Path.guard (p : Path) (g : Guard) : Bool :=
  match g with
  | .always => true
  | .on d => p.depth d
  | .off d => !p.depth d

def Path.addFx (p : Path) (x : Fx) : Path := { p with fx := p.fx ++ [x] }

end Sys2Proof.Machine
end

