-- ==== Sys2Proof/Machine/Flags.lean ====
section
/-! DEFINITION. Raising floating-point flags (R123, R124) and completion-flag counts along a path (R58,
R341). -/

namespace Sys2Proof.Machine

/-- The flags of every element together (R124). -/
def orFlags (xs : List (Nat × Flags)) : Flags := xs.foldl (fun f x => f ||| x.2) 0

/-- OR the raised flags into $flags, unless the instruction carries .nf (R124). -/
def Path.raise (p : Path) (nf : Bool) (f : Flags) : Path :=
  if nf then p else { p with th := { p.th with flags := p.th.flags ||| f } }

/-- Write the elements' results and raise their flags. -/
def Path.fpDst (p : Path) (d : Operand) (ty : FTy) (nf : Bool) (xs : List (Nat × Flags)) : Path :=
  (p.setDst d (writeF ty (xs.map (·.1)))).raise nf (orFlags xs)

/-- The completion flag that an effect of the path will raise by 1 at commit (R58). -/
def Fx.flag : Fx → Option Nat
  | .load l | .ldu _ l | .atomLoad _ l => l.flag
  | .cmd c => c.flags.head?.map (·.2)
  | .mx _ _ _ f _ | .done f => f
  | _ => none

/-- The value flag `k` would have at this point of the path (R341). -/
def Path.flagAt (p : Path) (k : Nat) : Nat :=
  p.th.f.get 0 k + (p.fx.filter (fun x => x.flag == some k)).length

/-- The flag on which the clause's data-returning operations count (R47, R57). -/
def Issue.setA (iss : Issue) : Option Nat := if hSetA iss.header = 15 then none else some (hSetA iss.header)

/-- The flag on which its command operations count. -/
def Issue.setB (iss : Issue) : Option Nat := if hSetB iss.header = 15 then none else some (hSetB iss.header)

/-- One more count would raise the flag above 15 (R58). -/
def Path.overflows (p : Path) (f : Option Nat) : Bool :=
  match f with
  | some k => 15 ≤ p.flagAt k
  | none => false

end Sys2Proof.Machine
end

