-- ==== Sys2Proof/Machine/Driver.lean ====
section
/-! DEFINITION. Performing one syllable (R53, R54, R56, R67): the lane takes each thread in ascending number along its
path to the next collective, which it then performs for all (R18, R56); and the judgement every syllable undergoes
before its own effect (R336, R337, R349, R351). -/

namespace Sys2Proof.Machine

/-! ### The judgement -/

/-- The syllable at which a path stands. -/
def Issue.word (iss : Issue) (p : Path) : Word := iss.words.getD p.next 0

/-- A fault at the syllable at which the path stands. -/
def Path.flt (p : Path) (kind : Nat) (detail : Word) : PFault := ⟨kind, p.next + 1, none, detail⟩

/-- A fault whose detail is the syllable. -/
def Issue.fltW (iss : Issue) (p : Path) (kind : Nat) : PFault := p.flt kind (iss.word p)

/-- Deprecated instructions report expansion 1, step 0 for what is wrong with the syllable (R345). -/
def expOf (i : Instr) : Option Nat :=
  match i with
  | .ldq .. | .dot4 .. | .barw .. => some 0
  | _ => none

/-- Not permitted in the trap handler (R393). -/
def hdlForbids (i : Instr) : Bool :=
  match i with
  | .barArrive .. | .barWait .. | .barSync .. | .barx .. | .barw .. | .jset .. | .jsetUniform .. | .join ..
  | .jarr .. | .jqry .. | .ringget .. | .ringput .. | .mxtokGive .. | .mxtokTake .. | .mxmac .. | .mxsmac ..
  | .mxzero .. | .mxwait .. | .vswAdd .. | .vswMul .. | .vswFma .. | .vswMax .. | .vswMin .. | .vswExp ..
  | .vswCvt .. | .vswScl .. | .vswRsum .. | .vswRmax .. | .vswait .. | .cpyIn .. | .cpyOut .. | .cpyRows ..
  | .cpyFill .. | .cpyWs .. | .tspawn .. | .tjob .. | .tdone .. | .tilereg .. | .tileq .. | .tiledrop ..
  | .grow .. | .shed .. | .leafExit | .leafTrap .. => true
  | _ => false

/-- Not permitted in a save or restore routine (R308): kind 27. BAR.wait arrives at no barrier. -/
def routineForbids (i : Instr) : Bool :=
  match i with
  | .barArrive .. | .barSync .. | .barw .. | .join .. | .jarr .. | .ringget .. | .ringput ..
  | .mxtokGive .. | .mxtokTake .. | .mxmac .. | .mxsmac .. | .mxzero .. | .mxwait .. | .vswAdd ..
  | .vswMul .. | .vswFma .. | .vswMax .. | .vswMin .. | .vswExp .. | .vswCvt .. | .vswScl .. | .vswRsum ..
  | .vswRmax .. | .vswait .. | .cpyIn .. | .cpyOut .. | .cpyRows .. | .cpyFill .. | .cpyWs .. | .tspawn ..
  | .tjob .. | .tdone .. | .grow .. | .shed .. | .leafTrap .. => true
  | _ => false

/-- The role kind a command needs (R33). -/
def unitRole (i : Instr) : Option Nat :=
  match i with
  | .cpyIn .. | .cpyOut .. | .cpyRows .. | .cpyFill .. | .cpyWs .. => some 1
  | .mxmac .. | .mxsmac .. | .mxzero .. | .mxwait .. | .mxtokGive .. | .mxtokTake .. => some 2
  | .vswAdd .. | .vswMul .. | .vswFma .. | .vswMax .. | .vswMin .. | .vswExp .. | .vswCvt .. | .vswScl ..
  | .vswRsum .. | .vswRmax .. | .vswait .. => some 3
  | _ => none

/-- Its warp's role does not permit the command, or CPY.WS stands outside an interlude (R33, R255). -/
def State.roleBad (s : State) (w : Warp) (i : Instr) : Bool :=
  match unitRole i with
  | none => false
  | some k =>
    k != w.kind || match i with
      | .cpyWs .. => match s.infoOf w with
        | some r => !r.interlude
        | none => true
      | _ => false

/-- The warp slot holds its block's matrix token on its core (R35). -/
def State.holdsToken (s : State) (slot : Nat) (w : Warp) : Bool :=
  match s.blocks.get? w.block with
  | some b => b.token.get? w.pos == some slot
  | none => false

/-- The command needs the matrix token (R224, R243). -/
def needsToken (i : Instr) : Bool :=
  match i with
  | .mxmac .. | .mxsmac .. | .mxzero .. | .mxtokGive .. => true
  | _ => false

/-- A MAT-role warp of the same block on the same core (R228). -/
def State.matPeer (s : State) (slot : Nat) (w : Warp) (target : Nat) : Bool :=
  let t := 96 * coreOf slot + target
  target < 96 && match s.warp? t with
    | some x => x.block == w.block && x.kind == 2
    | none => false

/-- An h register is named as a source or written by SWR. -/
def namesH (i : Instr) : Bool :=
  (namesOf i).any (fun n => match n with
    | .op (.sp (.h _)) => true
    | _ => false)
  || match i with
    | .swr _ (.h _) _ => true
    | _ => false

def namesS (i : Instr) : Bool := !(sregsOf i).isEmpty

/-- The register that an LREAD reads in another thread: it is named, and is no register of the reader
(R203). -/
def otherReg (i : Instr) : List Named :=
  match i with
  | .lread _ _ a _ _ _ => [nmV a]
  | _ => []

/-- A register beyond the handler's bank is named; an LDQ names its second one too (R81, R392). -/
def namesHigh (i : Instr) : Bool :=
  (namesOf i ++ otherReg i).any (fun n => n.vregs.any (64 ≤ ·)) || match i with
    | .ldq _ d _ _ => d = 63
    | _ => false

/-- The reserved uses that the syllable's bits and the thread's own nature decide (R351, R392, R393,
R359). -/
def staticBad (t : Nat) (i : Instr) : Bool :=
  if t = 32 then namesS i || namesHigh i || hdlForbids i
  else namesH i || match i with
    | .trd .. | .twr .. | .twrKill .. | .tret .. => true
    | _ => false

/-- The first named item with a register outside the units the warp holds (R165, R336). -/
def unheld (w : Warp) (i : Instr) : Option Word :=
  ((namesOf i ++ otherReg i).find? (fun n => n.vregs.any (fun r => 64 + 48 * w.units ≤ r))).map Named.spec

/-- The registers of thread t that an uncompleted operation of an earlier clause will write (R59, R188,
R211). -/
def State.pendingV (s : State) (slot t : Nat) : List Nat :=
  s.loads.vals.flatMap (fun l =>
    if l.warp = slot && l.thread = t then
      match l.dst with
      | .v r => [r.toNat]
      | .m m dbl _ => (List.range (winLen dbl)).map (winFirst m + ·)
      | .s .. | .pc => []
    else [])
  ++ s.cmds.vals.flatMap (fun c =>
    match c.dst with
    | some r => if c.warp = slot && c.thread = t && !c.accepted then [r.toNat] else []
    | none => [])

/-- The uniform registers that LDUs of the warp have yet to write, with their performers. -/
def State.pendingS (s : State) (slot : Nat) : List (BitVec 9 × List Nat) :=
  s.loads.vals.filterMap (fun l =>
    match l.dst with
    | .s r ps => if l.warp = slot then some (r, ps.map (·.1)) else none
    | _ => none)

/-- The specifier of the first register named that is pending for thread t. -/
def State.pending (s : State) (slot t : Nat) (i : Instr) : Option Word :=
  let vs := s.pendingV slot t
  let ss := s.pendingS slot
  (namesOf i).findSome? (fun n =>
    match n with
    | .op (.s r) =>
      if ss.any (fun x => x.1 == r && x.2.contains t) then some (BitVec.ofNat 64 (0x100 + r.toNat)) else none
    | n => (n.vregs.find? vs.contains).map (BitVec.ofNat 64))

/-- What is wrong with the syllable before its own effect, first in the order of R337; `on` says that its
guard is true, `six` that a value it reads makes it a reserved use. DESIGN CHOICE: kind 27, to which R337 gives no place,
comes after 6 and before 18 (notes/assumptions/59.md). -/
def State.judge (s : State) (iss : Issue) (w : Warp) (p : Path) (i : Instr) (on six : Bool) :
    Option PFault :=
  let f (k : Nat) (d : Word) : Option PFault := some { p.flt k d with exp := expOf i }
  if staticBad p.t i || (on && six) then f 6 (iss.word p)
  else if on && (w.save = some .routine || w.save = some .restoring) && routineForbids i then f 27 (iss.word p)
  else if on && s.roleBad w i then f 18 (iss.word p)
  else if on && needsToken i && !s.holdsToken iss.warp w then f 19 (iss.word p)
  else match unheld w i with
    | some d => f 23 d
    | none => if on then (s.pending iss.warp p.t i).bind (f 13) else none

/-! ### Whose syllable comes next -/

/-- The operations of R56. -/
def isCollective (i : Instr) : Bool :=
  match i with
  | .scan .. | .redw .. | .ballot .. | .first .. | .xmov .. => true
  | _ => false

/-- A path that goes on, standing at its next syllable; none when it has faulted, has taken its leaf or meets no
more. -/
def Issue.stand (iss : Issue) (p : Path) : Option Path :=
  if p.fault.isSome || p.leaf.isSome then none
  else
    ((slots iss.header).zipIdx.find? (fun x => p.next ≤ x.2 && x.1.on p.pos)).map (fun x => { p with next := x.2 })

/-- The syllable at which a path stands, as the decoder reads it in its place. -/
def Issue.reads (iss : Issue) (p : Path) : Dec Instr :=
  decode (((slots iss.header)[p.next]?).map Slot.pos |>.getD .root) (iss.word p)

/-- The path stands at a collective. -/
def Issue.meets (iss : Issue) (p : Path) : Bool :=
  match iss.reads p with
  | .ok i => isCollective i
  | .error _ => false

/-- The paths that go on, in ascending thread number. -/
def Issue.going (iss : Issue) : List Path := iss.paths.filterMap iss.stand

/-- The path whose syllable the lane performs next: the first that does not stand at a collective (R18, R56). -/
def Issue.runner (iss : Issue) : Option Path := iss.going.find? (fun p => !iss.meets p)

/-- The path takes its place among the issue's. -/
def Issue.setPath (iss : Issue) (p : Path) : Issue :=
  { iss with paths := iss.paths.map (fun q => if q.t = p.t then p else q) }

/-! ### Performing a syllable -/

def Path.fail (p : Path) (f : PFault) : Path := { p with fault := some f }

def Path.weigh (p : Path) (n : Nat) : Path := { p with weight := p.weight + n }

/-- The path has passed its syllable. -/
def Path.pass (p : Path) : Path := { p with next := p.next + 1 }

/-- Perform with `f` the syllable of the path whose turn it is. Without one nothing happens. -/
def State.syllable (s : State) (f : Issue → Warp → State → Path → State × Path) : Result :=
  match s.issue with
  | none => .next s
  | some iss =>
    match s.warp? iss.warp, iss.runner with
    | some w, some p => .next { (f iss w s p).1 with issue := some (iss.setPath (f iss w s p).2.pass) }
    | _, _ => .next s

/-- What an operation does where its guard is true: a new path, or a fault. -/
abbrev Body := State → Issue → Warp → Path → State × Except PFault Path

/-- A condition on the values the syllable reads that makes it a reserved use. -/
abbrev Reserved := State → Issue → Warp → Path → Bool

def noReserved : Reserved := fun _ _ _ _ => false

/-- An operation of one path: its judgement, its guard and its body (R53, R54, R67). Whether the syllable at which a
thread faults counts its weight in the issue's cost is open: it does where the operation's own body faults, and not
where the judgement or the decoding does (DESIGN CHOICE, notes/assumptions/65.md). -/
def opPath (i : Instr) (g : Guard) (wt : Nat) (six : Reserved) (body : Body) (iss : Issue) (w : Warp)
    (s : State) (p : Path) : State × Path :=
  let on := p.guard g
  match s.judge iss w p i on (on && six s iss w p) with
  | some f => (s, p.fail f)
  | none =>
    if on then
      match body s iss w p with
      | (s, .ok p) => (s, p.weigh wt)
      | (s, .error f) => (s, (p.fail f).weigh wt)
    else (s, p.weigh 1)

def State.onOp (s : State) (i : Instr) (g : Guard) (wt : Nat) (six : Reserved) (body : Body) : Result :=
  s.syllable (opPath i g wt six body)

/-- An operation that only reads and writes its own thread's state and cannot fault by its values. -/
def State.alu (s : State) (i : Instr) (g : Guard) (wt : Nat) (f : State → Issue → Warp → Path → Path) :
    Result :=
  s.onOp i g wt noReserved (fun s iss w p => (s, .ok (f s iss w p)))

/-- A test (R51, R53): no guard, weight 1; the path goes on to the child its result names. -/
def testPath (i : Instr) (f : State → Issue → Warp → Path → Bool) (iss : Issue) (w : Warp) (s : State)
    (p : Path) : State × Path :=
  match s.judge iss w p i true false with
  | some e => (s, p.fail e)
  | none => (s, { p with pos := 2 * p.pos + (if f s iss w p then 1 else 0) }.weigh 1)

def State.onTest (s : State) (i : Instr) (f : State → Issue → Warp → Path → Bool) : Result :=
  s.syllable (testPath i f)

/-- A leaf (R63): no weight. -/
def leafPath (i : Instr) (f : Body) (iss : Issue) (w : Warp) (s : State) (p : Path) : State × Path :=
  match s.judge iss w p i true false with
  | some e => (s, p.fail e)
  | none =>
    match f s iss w p with
    | (s, .ok p) => (s, p)
    | (s, .error e) => (s, p.fail e)

def State.onLeaf (s : State) (i : Instr) (f : Body) : Result := s.syllable (leafPath i f)

/-- The cost of a stretch: the greatest of the four slots' sums (R67). -/
def stretchCost (ps : List Path) : Nat :=
  let slot (k : Nat) : Nat := ((ps.filter (fun p => p.t % 4 = k)).map Path.weight).sum
  max (max (slot 0) (slot 1)) (max (slot 2) (slot 3))

/-! ### Verdicts that need several paths (R228, R360) -/

/-- The latest JSET of join j among the paths that have raised no fault: its mask, if there is one. -/
def latestJset (w : Warp) (ps : List Path) (j : BitVec 4) : Option Mask :=
  let xs := (ps.filter (fun p => p.fault.isNone)).flatMap (fun p => p.fx.filterMap (fun x => match x with
    | .jset k syl m => if k == j then some (syl, p.t, m) else none
    | _ => none))
  match xs.foldl (fun (r : Option (Nat × Nat × Option Mask)) x => match r with
      | some y => if y.1 < x.1 then some x else r
      | none => some x) none with
  | none => none
  | some (k, _, m) => some (match m with
      | some m => m &&& w.liveMask
      | none => maskOf ((xs.filter (fun x => x.1 = k)).map (fun x => x.2.1)))

/-- Join j as the issue's signatures find it: at clause entry, or as a JSET of the issue leaves it. -/
def joinSeen (iss : Issue) (w : Warp) (ps : List Path) (j : BitVec 4) : Join :=
  match latestJset w ps j with
  | some m => { Join.clear with expected := m }
  | none => iss.entryJoins.get Join.clear j.toNat

/-- Two captures name the same command (R224). -/
def Capture.agrees (a b : Capture) : Bool :=
  a.op == b.op && a.stream == b.stream && a.acc == b.acc && a.fmt == b.fmt

/-- The signature that the issue's others on join j are held against (R360): the join's capture, or the first of the
lowest-numbered thread that nothing but the vote can fault there. `known` are the paths with what they perform. -/
def Issue.referenceIn (iss : Issue) (known : List Path) (w : Warp) (j : BitVec 4) : Option Capture :=
  let x := joinSeen iss w iss.paths j
  match x.capture with
  | some c => some c
  | none => known.findSome? (fun p =>
      if bitOf x.expected p.t then
        p.fx.findSome? (fun y => match y with
          | .mx _ k c _ true => if k == j then some c else none
          | _ => none)
      else none)

def Issue.reference (iss : Issue) (w : Warp) (j : BitVec 4) : Option Capture := iss.referenceIn iss.paths w j

/-- The target of the gives of some paths: that of the lowest-numbered thread (R228). -/
def giveOf (ps : List Path) : Option Nat :=
  ps.findSome? (fun p => p.fx.findSome? (fun y => match y with
    | .give _ x => some x
    | _ => none))

def Issue.giveTarget (iss : Issue) : Option Nat := giveOf iss.paths

/-- The verdict on one effect of thread t (R360 kind 20, R228 kind 19), where `known` are the paths with what they
perform. -/
def State.voteIn (s : State) (known : List Path) (iss : Issue) (w : Warp) (t : Nat) (x : Fx) : Option PFault :=
  match x with
  | .mx syl j c _ _ =>
    match iss.referenceIn known w j with
    | some r => if bitOf (joinSeen iss w iss.paths j).expected t && !c.agrees r then some ⟨20, syl + 1, none, c.fmt⟩
        else none
    | none => none
  | .give syl _ =>
    if (giveOf known).any (fun x => !s.matPeer iss.warp w x) then some ⟨19, syl + 1, none, iss.words.getD syl 0⟩ else none
  | _ => none

/-- The verdict where every path performs what it has met. -/
def State.vote (s : State) (iss : Issue) (w : Warp) (t : Nat) (x : Fx) : Option PFault := s.voteIn iss.paths iss w t x

/-- The first signature or give of a path that the verdicts fault: it comes before whatever else the path has raised. -/
def State.verdict (s : State) (iss : Issue) (w : Warp) (p : Path) : Option PFault := p.fx.findSome? (s.vote iss w p.t)

/-- The syllable whose verdict needs several paths. -/
def Fx.voted (x : Fx) : Option Nat :=
  match x with
  | .mx syl .. | .give syl _ => some syl
  | _ => none

/-- A path that a verdict at syllable n faults: it has not performed what follows; a give has named its target all the
same. -/
def Path.cut (p : Path) (n : Nat) (f : PFault) : Path :=
  { p.fail f with fx := p.fx.takeWhile (fun x => x.voted != some n) ++ p.fx.filter (fun x => match x with
      | .give k _ => k = n
      | _ => false) }

/-- The verdicts at syllable n. -/
def State.verdictsAt (s : State) (known : List Path) (w : Warp) (iss : Issue) (n : Nat) : Issue :=
  { iss with paths := iss.paths.map (fun p =>
      match (p.fx.filter (fun x => x.voted == some n)).findSome? (s.voteIn known iss w p.t) with
      | some f => p.cut n f
      | none => p) }

/-- The paths with the verdicts on all syllables, in their order, where `known` are the paths with what they perform. -/
def State.verdictPass (s : State) (iss : Issue) (w : Warp) (known : List Path) : List Path :=
  ((List.range 32).foldl (State.verdictsAt s known w) iss).paths

/-- Where each path ends, and how much of it is left. -/
def standing (ps : List Path) : List (Option PFault × Nat) := ps.map (fun p => (p.fault, p.fx.length))

/-- Passes until one leaves every path as it is known: a path performs nothing after a fault, so what the passes take for
performed in the end is (R337, R360). -/
def State.settleVerdicts (s : State) (iss : Issue) (w : Warp) : Nat → List Path → List Path
  | 0, known => known
  | n + 1, known =>
    let ps := s.verdictPass iss w known
    if standing ps == standing known then ps else s.settleVerdicts iss w n ps

/-- The paths with the verdicts known so far: a thread that one faults performs no later syllable, and what it does not
perform is no reference for the others (R337, R338, R360). A path's verdicts hang on those of lower threads, so a pass for
each settles them. -/
def State.verdicts (s : State) (iss : Issue) (w : Warp) : List Path := s.settleVerdicts iss w 33 iss.paths

/-! ### Collectives -/

/-- What a collective gives each participant, from the participants in ascending thread number. -/
abbrev Collective := State → Issue → Warp → List Path → Path → Path

/-- A path that stands at the collective after its judgement, and whether it participates (R340). -/
def joinIn (i : Instr) (g : Guard) (s : State) (iss : Issue) (w : Warp) (p : Path) : Path × Bool :=
  match iss.stand p with
  | none => (p, false)
  | some p =>
    match s.judge iss w p i (p.guard g) false with
    | some f => ((p.fail f).pass, false)
    | none => (p, p.guard g)

/-- A collective (R56), when every path that goes on stands at one: every participant's source stands before any
result is written; it ends a stretch of the cost (R67). -/
def State.onCollective (s : State) (i : Instr) (g : Guard) (wt : Nat) (f : Collective) : Result :=
  match s.issue with
  | none => .next s
  | some iss =>
    match s.warp? iss.warp, iss.runner with
    | some w, none =>
      let iss := { iss with paths := s.verdicts iss w }
      let ps := iss.paths.map (joinIn i g s iss w)
      let parts := (ps.filter (·.2)).map (·.1)
      let ps := ps.map (fun (p, on) =>
        if on then ((f s iss w parts p).weigh wt).pass else if (iss.stand p).isSome then (p.weigh 1).pass else p)
      .next { s with issue := some { iss with
        paths := ps.map (fun p => { p with weight := 0 })
        cost := iss.cost + stretchCost ps } }
    | _, _ => .next s

/-- A syllable that decodes to no instruction faults the thread that reaches it, whatever its guard: kind 4
or 6, as step 0 of an expansion for a deprecated opcode (R85, R336, R345, R361); a leaf has a kind where others have
their opcode (R352). -/
def State.badSyllable (s : State) (b : Bad) (word : Word) : State :=
  let op := (opcode word).toNat
  match s.issue with
  | none => s
  | some iss =>
    match iss.runner with
    | none => s
    | some p =>
      let (placed, leaf) : Bool × Bool := match (slots iss.header)[p.next]? with
        | some .root | some (.arc ..) => (true, false)
        | some (.leaf _) => (false, true)
        | _ => (false, false)
      let exp : Option Nat :=
        if (!leaf && 0x3C3 ≤ op && op ≤ 0x3C7) || (placed && b = .reserved && 0x3C0 ≤ op && op ≤ 0x3C2) then some 0
        else none
      let kind := if b = .illegal then 4 else 6
      { s with issue := some (iss.setPath (p.fail ⟨kind, p.next + 1, exp, word⟩).pass) }

end Sys2Proof.Machine
end

