-- ==== Sys2Proof/Machine/Sync.lean ====
section
/-! DEFINITION. Joins (R37–R39, R224), barriers (R40, R41), stage rings (R217–R219), the matrix token (R35,
R228), register units (R238) and the death of threads and warps (R25, R66, R347). -/

namespace Sys2Proof.Machine

/-! ### Joins -/

/-- The causes of each thread's block that satisfy `p` are over; a thread is released when none is left (R28). -/
def Warp.unblockIf (w : Warp) (p : Nat → Blocked → Bool) : Warp :=
  { w with threads := w.threads.map (fun (t, th) => (t, { th with blocked := th.blocked.filter (fun b => !p t b) })) }

/-- A thread begins to wait. -/
def Warp.hold (w : Warp) (t : Nat) (b : Blocked) : Warp :=
  w.updThread t (fun th => { th with blocked := if th.blocked.contains b then th.blocked else th.blocked ++ [b] })

def Thread.isBlocked (th : Thread) : Bool := !th.blocked.isEmpty

/-- Whether a join completes (some false) or breaks (some true) (R38). -/
def Warp.verdict (w : Warp) (j : Join) : Option Bool :=
  let miss := j.expected &&& ~~~j.signed &&& w.liveMask
  if j.signed != 0 && miss = 0 then some false
  else if j.waiters != 0 && miss != 0 && (threadsOf miss).all (fun t => (w.thread t).isBlocked) then
    some true
  else none

/-- The command of a capture (R224). -/
def Capture.body (c : Capture) : CmdBody :=
  .matrix (c.op.toNat - 0x208) c.stream c.resume c.acc c.fmt c.a0 c.a1 c.b0 c.b1

/-- The index of a block (R297). -/
def State.blockIndex (s : State) (blk : Nat) : Nat := ((s.blocks.get? blk).map Block.index).getD 0

/-- Send a command to its unit (R211, R212). -/
def State.send (s : State) (c : Cmd) : State :=
  let (id, s) := s.fresh
  { s with cmds := s.cmds.put id { c with index := s.blockIndex c.block } }

/-- The captured command of a join is sent (R224). -/
def State.sendCapture (s : State) (slot : Nat) (w : Warp) (c : Capture) : State :=
  s.send { warp := slot, block := w.block, launch := w.launch, ctx := w.ctx, core := coreOf slot,
           thread := c.thread, opcode := c.op, clause := c.clause, body := c.body, dst := none,
           flags := c.signers, index := 0, accepted := false, tiles := [], done := 0, held := [] }

/-- The threads of a mask no longer wait at join k. -/
def Warp.freeWaiters (w : Warp) (k : Nat) (m : Mask) : Warp :=
  w.unblockIf (fun t b => match b with
    | .join n => n.toNat = k && bitOf m t
    | _ => false)

/-- Apply a completion or a break of join k (R38). -/
def State.joinApply (s : State) (slot k : Nat) (w : Warp) (broke : Bool) : State :=
  let j := w.join k
  let w := (w.setJoin k { j with signed := 0, waiters := 0, lost := j.lost || broke, capture := none }).freeWaiters
    k j.waiters
  let s := s.setWarp slot w
  match j.capture with
  | some c => s.sendCapture slot w c
  | none => s

/-- The first join that completes or breaks. -/
def Warp.due (w : Warp) : Option (Nat × Bool) :=
  (List.range 16).findSome? (fun k => (w.verdict (w.join k)).map (fun b => (k, b)))

/-- The evaluation of R39: lowest join first, from j0 again after each change. Each change leaves its join
unarmed and without waiters, so sixteen suffice. -/
def evalJoins (slot : Nat) : Nat → State → State
  | 0, s => s
  | n + 1, s =>
    match s.warp? slot with
    | none => s
    | some w =>
      match w.due with
      | none => s
      | some (k, broke) => evalJoins slot n (s.joinApply slot k w broke)

def State.evalJoins (s : State) (slot : Nat) : State := Machine.evalJoins slot 16 s

/-- A flag of a thread falls by 1 (R58). -/
def State.decFlag (s : State) (slot : Nat) (tf : Nat × Nat) : State :=
  s.updWarp slot (fun w => w.updThread tf.1 (fun th =>
    { th with f := th.f.set 0 tf.2 (th.f.get 0 tf.2 - 1) }))

/-- JSET (R37, R224, R348): the mask is set, waiters go, a captured command is discarded with its flags. -/
def State.jset (s : State) (slot : Nat) (j : Nat) (mask : Mask) : State :=
  match s.warp? slot with
  | none => s
  | some w =>
    let old := w.join j
    let w := (w.setJoin j ⟨mask, 0, 0, false, none⟩).freeWaiters j old.waiters
    let s := s.setWarp slot w
    match old.capture with
    | some c => c.signers.foldl (fun s x => s.decFlag slot x) s
    | none => s

/-- The thread's accesses precede what follows its signature in the warp: what orders others behind itself has been
performed (R272). -/
def State.signed (s : State) (slot t : Nat) : State :=
  let mine (i : StItem) : Bool := i.warp = slot && i.thread = t
  (s.force slot (fun i => mine i && i.ahead)).share slot mine

/-- JARR and JOIN (R37): a thread outside the expected mask changes nothing. An exiting thread does not
wait (R347). -/
def State.sign (s : State) (slot t : Nat) (j : Nat) (wait : Bool) : State :=
  (s.signed slot t).updWarp slot (fun w =>
    let x := w.join j
    if !bitOf x.expected t then w
    else
      let w := w.setJoin j { x with
        signed := x.signed ||| maskOf [t]
        waiters := if wait then x.waiters ||| maskOf [t] else x.waiters }
      if wait then w.hold t (.join (BitVec.ofNat 4 j)) else w)

/-- The signature of a matrix command (R224, R360): the first captures. -/
def State.signMx (s : State) (slot t : Nat) (j : Nat) (cap : Capture) (flag : Option Nat) : State :=
  (s.signed slot t).updWarp slot (fun w =>
    let x := w.join j
    let me : List (Nat × Nat) := match flag with
      | some f => [(t, f)]
      | none => []
    let c := x.capture.getD cap
    w.setJoin j { x with
      signed := x.signed ||| maskOf [t]
      capture := some { c with signers := (if x.capture.isNone then [] else c.signers) ++ me } })

/-! ### Barriers -/

/-- The barrier of a block. -/
def Block.bar (b : Block) (n : Nat) : Bar := b.bars.get ⟨0, 0, 0, false, true, [], []⟩ n

def Block.setBar (b : Block) (n : Nat) (x : Bar) : Block := { b with bars := b.bars.put n x }

def waitsAt (n : Nat) (b : Blocked) : Bool :=
  match b with
  | .barrier m => m = n
  | _ => false

/-- The block's warp on a slot: an ended warp's slot may hold another block's (R41). -/
def State.member (s : State) (blk slot : Nat) : Option Warp :=
  match s.warp? slot with
  | some w => if w.block = blk then some w else none
  | none => none

/-- On a span, what follows a completed phase on a core: it learns what the arrivals have published, and its lines
go (R272). -/
def State.acquireBar (s : State) (b : Block) (slot : Nat) (view : List Nat) : State :=
  if 1 < b.cores.length then (s.learn (coreOf slot) view).discardL1 (coreOf slot) else s

/-- The threads of the block that are blocked at barrier n are released (R41, R272). -/
def State.releaseBar (s : State) (blk : Nat) (b : Block) (n : Nat) (view : List Nat) : State :=
  b.warps.foldl (fun s slot =>
    match s.member blk slot with
    | some w =>
      if w.threads.vals.any (fun th => th.blocked.any (waitsAt n)) then
        (s.setWarp slot (w.unblockIf (fun _ => waitsAt n))).acquireBar b slot view
      else s
    | none => s) s

/-- test(b) of R41; `arrived` says that an arrival just occurred. -/
def State.barTest (s : State) (blk n : Nat) (arrived : Bool) : State :=
  match s.blocks.get? blk with
  | none => s
  | some b =>
    let x := b.bar n
    if x.e ≤ x.a && (0 < x.a || (x.e = 0 && arrived)) then
      let y : Bar := { x with p := !x.p, a := 0, e := x.e - x.x, x := 0, view := [], done := addAll x.done x.view }
      (s.updBlock blk (fun b => b.setBar n y)).releaseBar blk b n x.view
    else s

/-- An outstanding entry of the arrival record (R41). -/
def outstanding (b : Block) (e : Nat × Bool) : Bool := (b.bar e.1).p == e.2

def Thread.outstandingFor (th : Thread) (b : Block) (n : Nat) : Bool :=
  th.arrivals.any (fun e => e.2.1 = n && outstanding b e.2)

/-- The free entry of the record that an arrival takes: the one of the lowest number (DESIGN CHOICE,
notes/assumptions/73.md). -/
def Thread.freeEntry (th : Thread) (b : Block) : Option Nat :=
  (List.range 4).find? (fun k =>
    match th.arrivals.get? k with
    | some e => !outstanding b e
    | none => true)

/-- What precedes an arrival, a put or a give has left the warp's queue, and what orders others behind itself has been
performed; on a span it has all reached its home (R272). -/
def State.release (s : State) (slot : Nat) (wide : Bool) : State :=
  if wide then s.drainWarp slot
  else ((s.departWarp slot).force slot (fun i => i.warp = slot && i.ahead)).share slot (fun i => i.warp = slot)

/-- arrive(t, b) of R41. An arrival that finds no free entry at its commit is counted and records nothing (DESIGN CHOICE,
notes/assumptions/73.md). -/
def State.barArrive (s : State) (slot t n : Nat) : State :=
  match s.warp? slot with
  | none => s
  | some w =>
    match s.blocks.get? w.block with
    | none => s
    | some b =>
      let s := s.release slot (1 < b.cores.length)
      let x := b.bar n
      let view := if 1 < b.cores.length then addAll x.view (s.published (coreOf slot) .span b.cores) else x.view
      let s := s.updWarp slot (fun w => w.updThread t (fun th =>
        match th.freeEntry b with
        | some k => { th with arrivals := th.arrivals.put k (n, x.p) }
        | none => th))
      (s.updBlock w.block (fun b => b.setBar n { x with a := x.a + 1, view := view })).barTest w.block n true

/-- wait(t, b) of R41. A second wait on one path holds its thread beside the first (DEDUCED, notes/assumptions/54.md). -/
def State.barWait (s : State) (slot t n : Nat) (exiting : Bool) : State :=
  match s.warp? slot with
  | none => s
  | some w =>
    match s.blocks.get? w.block with
    | none => s
    | some b =>
      if (w.thread t).outstandingFor b n then
        if exiting then s else s.updWarp slot (fun w => w.hold t (.barrier n))
      else s.acquireBar b slot (b.bar n).done

/-- BARX (R41, R206). -/
def State.barSet (s : State) (blk n count : Nat) (d : Bool) : State :=
  (s.updBlock blk (fun b => b.setBar n { b.bar n with e := count, d := d })).barTest blk n false

/-- exit(t) of R41. -/
def State.barExit (s : State) (blk : Nat) (th : Thread) : State :=
  match s.blocks.get? blk with
  | none => s
  | some b =>
    (List.range b.nbars).foldl (fun s n =>
      match s.blocks.get? blk with
      | none => s
      | some b =>
        let x := b.bar n
        if !x.d then s
        else if th.outstandingFor b n then s.updBlock blk (fun b => b.setBar n { x with x := x.x + 1 })
        else (s.updBlock blk (fun b => b.setBar n { x with e := x.e - 1 })).barTest blk n false) s

/-! ### Rings -/

/-- The key of a phase bit: span position, ring, slot. -/
def ringKey (pos : Nat) (q k : BitVec 4) : Nat := 256 * pos + 16 * q.toNat + k.toNat

def Block.phase (b : Block) (pos : Nat) (q k : BitVec 4) : Bool := b.rings.get false (ringKey pos q k)

/-- A put inverts the phase and releases the getters that name it (R218, R219). -/
def State.ringPut (s : State) (slot : Nat) (q k : BitVec 4) : State :=
  match s.warp? slot with
  | none => s
  | some w =>
    match s.blocks.get? w.block with
    | none => s
    | some b =>
      let ph := !b.phase w.pos q k
      let s := s.updBlock w.block (fun b =>
        { b with rings := b.rings.set false (ringKey w.pos q k) ph })
      b.warps.foldl (fun s x =>
        match s.member w.block x with
        | some y =>
          if coreOf x = coreOf slot then
            s.setWarp x (y.unblockIf (fun _ c => match c with
              | .ring q' k' p => q' == q && k' == k && p == ph
              | _ => false))
          else s
        | none => s) s

/-- A get blocks unless the slot's phase already is the one it names (R218). -/
def State.ringGet (s : State) (slot t : Nat) (q k : BitVec 4) (ph : Bool) : State :=
  match s.warp? slot with
  | none => s
  | some w =>
    match s.blocks.get? w.block with
    | none => s
    | some b =>
      if b.phase w.pos q k == ph then s
      else s.updWarp slot (fun w => w.hold t (.ring q k ph))

/-! ### The matrix token -/

def isToken (b : Blocked) : Bool :=
  match b with
  | .token => true
  | _ => false

/-- The token of the block at a span position goes to a warp slot, whose takers are released, or to
none (R35, R228). -/
def State.handToken (s : State) (blk pos : Nat) (heir : Option Nat) : State :=
  let s := s.updBlock blk (fun b =>
    { b with token := match heir with
        | some x => b.token.put pos x
        | none => b.token.del pos })
  match heir with
  | some x => s.updWarp x (fun w => w.unblockIf (fun _ => isToken))
  | none => s

/-- The holder has ended: the token passes to the lowest-numbered MAT-role warp that is blocked in
MXTOK.take, or stays unheld (R35). -/
def State.passToken (s : State) (slot : Nat) (w : Warp) : State :=
  if !s.holdsToken slot w then s
  else
    match s.blocks.get? w.block with
    | none => s
    | some b =>
      let heir := b.warps.find? (fun x => x != slot && coreOf x = coreOf slot &&
        match s.member w.block x with
        | some y => y.kind == 2 && y.threads.vals.any (fun th => th.blocked.any isToken)
        | none => false)
      s.handToken w.block w.pos heir

/-- MXTOK.take by a warp (R35, R228): at once when the token is unheld or its own; else the takers block. -/
def State.takeToken (s : State) (slot : Nat) (takers : List Nat) : State :=
  match s.warp? slot with
  | none => s
  | some w =>
    match s.blocks.get? w.block with
    | none => s
    | some b =>
      match b.token.get? w.pos with
      | none => s.handToken w.block w.pos (some slot)
      | some x =>
        if x = slot then s
        else s.updWarp slot (fun w => takers.foldl (fun w t => w.hold t .token) w)

/-! ### Register units -/

/-- The units of a lane (R19). -/
def Part.units (p : Part) (lane : Nat) : Nat := min 4 (p.laneUnits.get 4 lane)

/-- Units that the resident warps of a lane leave free (R19, R238). -/
def State.freeUnits (s : State) (lane : Nat) : Nat :=
  s.part.units lane - ((s.warps.filter (fun x => laneOf x.1 = lane)).map (fun x => x.2.units)).sum

/-- Registers above the base block and n units are lost (R238). -/
def Warp.dropAbove (w : Warp) (n : Nat) : Warp :=
  { w with
    units := n
    threads := w.threads.map (fun (t, th) =>
      if t < 32 then (t, { th with v := th.v.filter (fun e => e.1 < 64 + 48 * n) }) else (t, th)) }

/-- GROW (R238): the request queues at the lane behind those before it and its threads block, unless the warp holds
the units. -/
def State.growAsk (s : State) (slot : Nat) (ts : List Nat) (n : Nat) : State :=
  match s.warp? slot with
  | none => s
  | some w =>
    if n ≤ w.units then s
    else
      let w := ts.foldl (fun w t => w.hold t (.grow n)) { w with grows := w.grows ++ [(n, maskOf ts)] }
      (s.setWarp slot w).updLane (laneOf slot) (fun l => { l with grows := l.grows ++ [slot] })

/-- SHED (R238). -/
def State.shedTo (s : State) (slot n : Nat) : State :=
  s.updWarp slot (fun w => if n < w.units then w.dropAbove n else w)

/-- A lane grants the request at the head of its queue, whole, when its pool has the units (R238): those that the warp, which
may have shed some while it waited, then lacks (DESIGN CHOICE, notes/assumptions/77.md). -/
def State.grantGrow (s : State) (lane : Nat) : State :=
  match (s.lane lane).grows with
  | [] => s
  | slot :: rest =>
    let gone (s : State) : State := s.updLane lane (fun l => { l with grows := rest })
    match s.warp? slot with
    | none => gone s
    | some w =>
      match w.grows with
      | [] => gone s
      | (n, m) :: more =>
        if n - w.units ≤ s.freeUnits lane then
          let w := { w.dropAbove w.units with units := max n w.units, grows := more }
          (gone (s.setWarp slot (w.unblockIf (fun t b => match b with
            | .grow k => k = n && bitOf m t && !more.any (fun x => x.1 = n && bitOf x.2 t)
            | _ => false)))).evalJoins slot
        else s

/-! ### Death -/

/-- What a dead thread's uncompleted operations no longer write or count on (R66, R347): loads go, except
that an LDU's uniform register is still written; replies and signatures keep no flag of it. -/
def State.forget (s : State) (slot t : Nat) : State :=
  let mine (x : Nat × Nat) : Bool := x.1 = t
  { s with
    loads := s.loads.filterMap (fun (id, l) =>
      if l.warp = slot then
        match l.dst with
        | .s r ps => some (id, { l with dst := .s r (ps.filter (fun x => x.1 != t)) })
        | _ => if l.thread = t then none else some (id, l)
      else some (id, l))
    cmds := s.cmds.map (fun (id, c) =>
      if c.warp = slot then
        (id, { c with flags := c.flags.filter (fun x => !mine x), dst := if c.thread = t then none else c.dst })
      else (id, c)) }

/-- A join without a thread among its waiters and signers (R347). -/
def Join.without (j : Join) (t : Nat) : Join :=
  { j with
    waiters := j.waiters &&& ~~~maskOf [t]
    capture := j.capture.map (fun c => { c with signers := c.signers.filter (fun x => x.1 != t) }) }

/-- A thread leaves the PC table, the joins' waiters and the captures' signers, and is dead (R25, R27,
R347, R366). -/
def Warp.bury (w : Warp) (t : Nat) : Warp :=
  { w with
    threads := w.threads.upd t (fun th =>
      { th with life := .dead, blocked := [], resv := none, yielded := false, task := none, f := [] })
    table := (w.table.map (fun e => { e with members := e.members &&& ~~~maskOf [t] })).filter
      (fun e => e.members != 0)
    joins := (w.joins.map (fun x => (x.1, x.2.without t))).filter (fun x => x.2 != Join.clear) }

/-- The death of a live thread: barriers, joins, token, in that order (R347). -/
def State.kill (s : State) (slot t : Nat) : State :=
  match s.warp? slot with
  | none => s
  | some w =>
    let th := w.thread t
    if th.life != .live then s
    else
      let s := ((s.setWarp slot (w.bury t)).forget slot t).barExit w.block th
      let s := s.updLaunch w.launch (fun l => { l with lastEnd := s.time })
      let s := s.evalJoins slot
      match s.warp? slot with
      | some w => if w.ended then s.passToken slot w else s
      | none => s

/-- The warp belongs to a task pool: a launch of exactly one role, of kind GEN (R300). -/
def State.isPool (s : State) (launch : Nat) : Bool :=
  match (s.launches.get? launch).bind Launch.kpb with
  | some k => match k.roles with
    | [r] => r.kind = 0
    | _ => false
  | none => false

/-- Items of an ended warp that are on their way keep no tie to its slot. -/
def retag (slot : Nat) (i : StItem) : StItem := if i.warp = slot then { i with warp := slot + 960000 } else i

/-- The number that the items and release fences of a warp keep after it has left its slot. -/
def goneSlot (slot : Nat) : Nat := slot + 960000

/-- What an ended warp has sent and what its fences release keep no tie to its slot; the fences of an earlier one go with
the last of its items (R270). -/
def Core.retag (c : Core) (slot : Nat) : Core :=
  let old := c.flight.any (fun i => i.warp = goneSlot slot)
  { c with
    flight := c.flight.map (Machine.retag slot)
    rel := (c.rel.filter (fun x => old || x.1 != goneSlot slot)).map (fun x =>
      if x.1 = slot then (goneSlot slot, x.2) else x) }

/-- A warp leaves its residence: its items are on their way, its units and its handler bank are free (R299). -/
def State.leave (s : State) (slot : Nat) : State :=
  let s := s.release slot false
  let s := (s.updCore (coreOf slot) (fun c => c.retag slot)).freeBank slot
  State.updLane { s with
    warps := s.warps.del slot
    loads := s.loads.filter (fun x => x.2.warp != slot) } (laneOf slot) (fun l => { l with grows := l.grows.filter (· != slot) })

/-- An ended warp leaves its residence. A pool's warp stays, idle (R300). -/
def State.warpEnd (s : State) (slot : Nat) : State :=
  match s.warp? slot with
  | none => s
  | some w => if !w.ended || w.freeze.isSome || s.isPool w.launch then s else s.leave slot

/-! ### A handler's write to what holds a thread (R240) -/

/-- A write that does not wait for TRET: joins, barriers and the death of a thread. A wait for a phase is over
when the write changes the phase (R41). A thread whose bit a write clears in a join's waiters stays blocked until the
bit is set again and the join's completion, break or JSET releases it (DESIGN CHOICE, notes/assumptions/55.md). A write of
the signed mask leaves a captured command and its signers' flags as they are (DESIGN CHOICE, notes/assumptions/78.md). -/
def State.twrNow (s : State) (slot : Nat) (t k : Nat) (x : Word) : State :=
  match s.warp? slot with
  | none => s
  | some w =>
  if k = 0x130 then (if x.getLsbD 0 then s else s.kill slot t)
  else if k < 0x240 then
    let n := (k - 0x200) / 4
    let j := w.join n
    let m : Mask := x.setWidth 32
    let j := match k % 4 with
      | 0 => { j with expected := m }
      | 1 => { j with signed := m }
      | 2 => { j with waiters := m }
      | _ => { j with lost := x.getLsbD 0 }
    (s.setWarp slot (w.setJoin n j)).evalJoins slot
  else
    let n := (k - 0x400) / 4
    match s.blocks.get? w.block with
    | none => s
    | some b =>
      if b.nbars ≤ n then s
      else
        let y := b.bar n
        let v := x.toNat % 2 ^ 17
        let y := match k % 4 with
          | 0 => { y with e := v }
          | 1 => { y with a := v }
          | 2 => { y with x := v }
          | _ => { y with p := x.getLsbD 0, d := x.getLsbD 1 }
        let s := s.updBlock w.block (fun b => b.setBar n y)
        let s := if y.p == (b.bar n).p then s else s.releaseBar w.block b n y.view
        (s.barTest w.block n false).evalJoins slot

/-- The selectors of join and barrier state and of a thread's life, whose writes act at once (R240). The barrier record entries
0x140 to 0x143 are not among them (DESIGN CHOICE, notes/assumptions/78.md). -/
def atOnce (k : Nat) : Bool := k = 0x130 || (0x200 ≤ k && k ≤ 0x23F) || (0x400 ≤ k && k < 0x800)

end Sys2Proof.Machine
end

