-- ==== Sys2Proof/Machine/Access.lean ====
section
/-! DEFINITION. A thread's access to memory: its address (R177, R185), its checks in the order of R337 (R178,
R179, R210, R358), its watchpoints (R398) and its bytes (R60, R181, R183, R265, R268). -/

namespace Sys2Proof.Machine

/-- The three spaces of R177. -/
inductive Space where
  | global | sp | ws
  deriving DecidableEq, Repr

/-! ### Addresses -/

/-- A base and a signed displacement in a space. -/
def addrIn (spc : Space) (base disp : Word) : Word :=
  match spc with
  | .sp => ((base.setWidth 32 : BitVec 32) + disp.setWidth 32).setWidth 64
  | _ => base + disp

/-- base + offset (R177). -/
def State.vaOf (spc : Space) (base : Operand) (off : BitVec 22) (s : State) (iss : Issue) (w : Warp) (p : Path) :
    Word :=
  addrIn spc (s.rd iss w p base) (off.signExtend 64)

/-- base + index × 2^scale (R185). -/
def State.vaIdx (spc : Space) (x : Idx) (s : State) (iss : Issue) (w : Warp) (p : Path) : Word :=
  let i : BitVec 32 := (s.rd iss w p x.index).setWidth 32
  addrIn spc (s.rd iss w p x.base) ((i.signExtend 64) <<< x.scale.toNat)

/-! ### Where an address leads -/

/-- The core and the physical tile of a scratchpad address, if it is in range (R179, R252). -/
def State.spTile (s : State) (w : Warp) (va : Nat) : Option (Nat × Nat) :=
  match s.blocks.get? w.block with
  | none => none
  | some b =>
    let tile := va % 2 ^ 21 / 4096
    if va / 2 ^ 21 % 2 ^ 6 != 0 || b.tiles ≤ tile then none
    else match b.cores[va / 2 ^ 27]?, b.tileBase[va / 2 ^ 27]? with
      | some c, some t => some (c, t + tile)
      | _, _ => none

/-- The bytes of a tile of a core. -/
def tilePlace (core tile : Nat) : Nat := 0x180000 * core + 4096 * tile

/-- The place of an access of n bytes, or the kind of the first thing wrong with it. -/
def State.locate (s : State) (slot : Nat) (w : Warp) (spc : Space) (k : Acc) (owner : Bool) (n va : Nat) :
    Except Nat Place :=
  if va % n != 0 then .error 7
  else match spc with
    | .global =>
      match s.translate w.ctx (BitVec.ofNat 64 va) k with
      | .ok pa => .ok (.mem pa)
      | .error e => .error e
    | .ws =>
      if va / 2 ^ 32 != 0 then .error 12
      else if !s.ctxSecure w.ctx && s.secureWs (2 ^ 32 * dieOf slot + va) then .error 26
      else .ok (.ws (2 ^ 32 * dieOf slot + va))
    | .sp =>
      match s.spTile w va with
      | none => .error 10
      | some (c, tile) =>
        if owner && (s.core c).owner.get 0 tile != 0 then .error 11
        else .ok (.sp (tilePlace c tile + va % 4096))

/-- A watchpoint of the warp matches the access (R397, R398); none does in the handler or in a save or
restore routine (R393, R386). -/
def watched (w : Warp) (p : Path) (spc : Space) (va n : Nat) (reads writes : Bool) : Bool :=
  w.freeze.isNone && w.save.isNone && !p.th.resume && spc != .ws && w.dbg.wps.toList.any (fun x =>
    bitOf x.mask p.t && (x.sp == (spc == .sp))
      && ((reads && x.acc.getLsbD 0) || (writes && x.acc.getLsbD 1))
      && va < x.addr.toNat + 2 ^ x.size.toNat && x.addr.toNat < va + n)

/-- One access of a syllable: what R337 asks of it. `flag` is the completion flag it counts on. -/
structure Access where
  space  : Space
  kind   : Acc
  owner  : Bool
  n      : Nat
  va     : Word
  flag   : Option Nat
  reads  : Bool
  writes : Bool

def State.access (s : State) (iss : Issue) (w : Warp) (p : Path) (x : Access) : Except PFault Place :=
  match s.locate iss.warp w x.space x.kind x.owner x.n x.va.toNat with
  | .error k => .error (p.flt k x.va)
  | .ok pl =>
    if p.overflows x.flag then .error (p.flt 14 (BitVec.ofNat 64 (x.flag.getD 0)))
    else if watched w p x.space x.va.toNat x.n x.reads x.writes then .error (p.flt 2 x.va)
    else .ok pl

/-! ### What a path asks of memory -/

/-- Bytes as a register takes them. -/
def extend (n : Nat) (sx : Bool) (b : List Byte) : Word :=
  if sx then (BitVec.ofNat (8 * n) (leNat b)).signExtend 64 else BitVec.ofNat 64 (leNat b)

/-- The record of a data-returning operation of a path. Its values are read at the issue's end, in the warp's order
(R262, R265), or answered by the home. -/
def Issue.load (iss : Issue) (w : Warp) (p : Path) (dst : LoadDst) (pl : Place) (va : Word) (bytes : Nat) (sx : Bool)
    (how : How) : Load :=
  { warp := iss.warp, block := w.block, thread := p.t, dst := dst, flag := iss.setA, val := none,
    bytes := bytes, sx := sx, held := false, how := how, place := pl, va := va, clause := iss.addr }

/-- What a path sends to its warp's queue. -/
def Fx.item? : Fx → Option StItem
  | .item i | .atomLoad i _ => some i
  | _ => none

/-- The load of an effect that is read at the issue's end. -/
def Fx.read? : Fx → Option Load
  | .load l | .ldu _ l => some l
  | _ => none

/-- A store's bytes without those that n bytes at `p` take. -/
def uncovered (p : Place) (n : Nat) (st : Place × List Byte) : List (Place × List Byte) :=
  if overlap p n st.1 st.2.length then
    (st.2.zipIdx.filter (fun x => !overlap p n (st.1.plus x.2) 1)).map (fun x => (st.1.plus x.2, [x.1]))
  else [st]

/-- The stores of some effects that a later load of the path reads itself, latest first: what the home has written on
their bytes since is read there (R60, R195). -/
def storesOf (fx : List Fx) : List (Place × List Byte) :=
  (fx.filterMap Fx.item?).foldl (fun r i => match i.kind with
    | .store b => (i.place, b) :: r
    | _ => if i.homeOp then r.flatMap (uncovered i.place i.len) else r) []

/-- Where a load reads its words. -/
def Load.places (l : Load) : List Place :=
  match l.dst with
  | .m _ _ ps => ps
  | _ => [l.place]

/-- The load is performed at the home: an LRES, or a strong load wider than core (R248). -/
def How.home (h : How) : Bool := h.resv || (h.order != .plain && h.scope != .core)

def plainly : How := ⟨.plain, .core, false⟩

/-- A load that follows the effects on its path is read when they have been committed: it follows an acquire, an
atomic on its bytes, or as a strong load a strong access (R264, R268–R270). -/
def Load.late (l : Load) (before : List Fx) : Bool :=
  before.any (fun x => match x.item? with
    | some i => i.ahead || (l.how.order != .plain && i.strong)
        || (i.homeOp && l.places.any (fun q => overlap i.place i.len q l.bytes))
    | none => false)

/-- A store of the path: the item that enters the queue at commit, and what its own later loads see (R60). -/
def Path.store (p : Path) (iss : Issue) (pl : Place) (va : Word) (b : List Byte) (o : Order) (sc : Scope) :
    Path :=
  p.addFx (.item { kind := .store b, place := pl, va := va, order := o, scope := sc, warp := iss.warp, thread := p.t })

/-- The thread in whose name a thread contributes: the handler thread acts for the primary thread. -/
def contributor (w : Warp) (t : Nat) : Nat := if t = 32 then primaryOf w else t

/-! ### The read of a load (R60, R181, R248, R264–R270) -/

/-- Who reads: the warp slot, the issue, the threads in whose program order the read stands and whose own accesses of
the issue are not hidden from it, the cores of the span, and the stores before it on the path, latest first. -/
structure Reader where
  slot    : Nat
  issue   : Nat
  threads : List Nat
  span    : List Nat
  own     : List (Place × List Byte)

def StItem.of (i : StItem) (r : Reader) : Bool := i.warp = r.slot && (i.thread = 32 || r.threads.contains i.thread)

/-- The read waits for the item: one that orders its thread's loads behind itself, or one on its bytes that the core's
L1 cannot serve. -/
def Load.awaits (l : Load) (r : Reader) (i : StItem) : Bool :=
  (i.of r && (i.ahead || (l.how.order != .plain && i.strong && l.how.scope != .core && i.scope != .core)))
    || (!i.sibling r.issue r.threads && (i.homeOp || l.how.home)
      && l.places.any (fun q => overlap i.place i.len q l.bytes))

/-- The load may take the item's bytes from the warp's queue, though another thread made it. -/
def Load.forwards (l : Load) (r : Reader) (i : StItem) : Bool :=
  !i.of r && !i.sibling r.issue r.threads && l.places.any (fun q => overlap i.place i.len q l.bytes)

/-- What must be performed before the read is. A strong load at core scope needs its thread's strong accesses out of the
queue only; one that the queue may serve with another thread's store, what that thread's later accesses are ordered behind
(R268, R270). -/
def State.awaited (s : State) (r : Reader) (l : Load) : State :=
  let s := if l.how.order = .plain then s else s.pushOut r.slot (fun i => i.of r && i.strong)
  let from_ := (s.stqOf r.slot).filter (l.forwards r)
  s.force r.slot (fun i => l.awaits r i || (i.ahead && from_.any i.sameThread))

/-- An engine owns the tile of a scratchpad place. -/
def State.engineHas (s : State) (p : Place) : Bool :=
  match p with
  | .sp a => (s.core (a / 0x180000)).owner.get 0 (a % 0x180000 / 4096) != 0
  | _ => false

/-- A peek at an engine's tile: each 4-byte element as it stood when the tile left the threads, or after one of the
chunks that the engine has written since; `Ver.thread` of an engine's write numbers its chunk (R184). -/
def State.peekBytes (s : State) (p : Place) (n : Nat) : List Byte :=
  let since : Nat := match p with
    | .sp a => (s.core (a / 0x180000)).flips.get 0 (a % 0x180000 / 4096)
    | _ => 0
  (List.range (n / 4)).flatMap (fun e =>
    (s.sight (fun v => since ≤ v.id && Config.peekCut s.tick e ≤ v.thread) (p.plus (4 * e)) 4).1)

/-- A strong load performed at the home: it may leave unread a write that nothing orders before it (R269, R271). -/
def State.readHome (s : State) (r : Reader) (h : How) (n : Nat) (pl : Place) : State × List Byte :=
  let core := coreOf r.slot
  let (b, ids) := s.sight (fun v => v.sibling r.issue r.threads
    || (s.hideable core v && !v.ordered core h.scope r.span)) pl n
  let b := b.zipIdx.map (fun (b, i) => (r.own.findSome? (fun st => covered st.1 st.2 pl i)).getD b)
  let s := (s.sees core ids).dropLine core pl
  (if h.order = .plain then s else s.acquire core h.scope r.span ids, b)

/-- A load that the core serves. The stores of other threads that it reads there are ones its thread's later releases
follow (R271). -/
def State.readCore (s : State) (r : Reader) (late : Bool) (h : How) (n : Nat) (pl : Place) : State × List Byte :=
  let core := coreOf r.slot
  let s := if late then s.dropLine core pl else s.touchLine core pl
  let (b, ids) := s.loadBytes core (!late) (fun i => i.sibling r.issue r.threads)
    (fun v => v.sibling r.issue r.threads || s.hideable core v) (s.stqOf r.slot) r.own pl n
  let s := (s.sees core ids).share r.slot (fun i => !i.of r && overlap i.place i.len pl n)
  (if h.order = .plain then s else s.acquire core .core r.span ids, b)

/-- The bytes of one word. `late` reads pass the L1 by: it may show what the issue's other threads store. A peek takes
part in no ordering (R261). -/
def State.readWord (s : State) (r : Reader) (late peek : Bool) (h : How) (n : Nat) (pl : Place) : State × List Byte :=
  if peek then
    (s, if s.engineHas pl then s.peekBytes pl n
      else (s.loadBytes (coreOf r.slot) (!late) (fun i => i.sibling r.issue r.threads)
        (fun v => v.sibling r.issue r.threads) (s.stqOf r.slot) r.own pl n).1)
  else if h.home then s.readHome r h n pl
  else s.readCore r late h n pl

/-- A byte of the word comes from a home where it cannot be corrected (R375). -/
def State.lostBytes (s : State) (r : Reader) (late : Bool) (h : How) (n : Nat) (pl : Place) : Bool :=
  (List.range n).any (fun i => s.lost (pl.plus i) 1 &&
    if h.home then (r.own.findSome? (fun st => covered st.1 st.2 pl i)).isNone
    else s.fromHome (coreOf r.slot) (!late) (fun i => i.sibling r.issue r.threads) (s.stqOf r.slot) r.own pl i)

/-- The values of words, or none where one of them cannot be corrected. -/
def State.readWords (r : Reader) (late : Bool) (l : Load) : List Place → State → State × Option (List Word)
  | [], s => (s, some [])
  | pl :: ps, s =>
    let bad := s.lostBytes r late l.how l.bytes pl
    let (s, b) := s.draw.readWord r late l.peek l.how l.bytes pl
    let (s, ws) := State.readWords r late l ps s
    (s, if bad then none else ws.map (extend l.bytes l.sx b :: ·))

/-- The read of a load, without a value where its data cannot be corrected (R375); that of an LRES reserves its granule
(R190). -/
def State.readLoad (s : State) (r : Reader) (late : Bool) (l : Load) : State × Load :=
  let (s, ws) := State.readWords r late l l.places (s.awaited r l)
  let s := match l.how.resv, l.place with
    | true, .mem pa => s.updWarp r.slot (fun w => w.updThread l.thread (fun th =>
        { th with resv := some ⟨granuleOf pa, l.va.toNat⟩ }))
    | _, _ => s
  (s, { l with val := some (ws.getD []) })

end Sys2Proof.Machine
end

