-- ==== Sys2Proof/Machine/Fetch.lean ====
section
/-! DEFINITION. Fetching a clause (R46, R248, R336), which threads are ready (R28), which entry a warp issues
(R29, R30, R151), and how a lane sees its warps (R43, R299, R407). -/

namespace Sys2Proof.Machine

/-! ### Instruction bytes -/

/-- A byte of code as the core's instruction cache or the home gives it (R248). -/
def State.codeByte (s : State) (core pa : Nat) : Byte :=
  match (s.core core).l1i.get? (pa / 256) with
  | some l => l.extractLsb' (8 * (pa % 256)) 8
  | none => rdByte s.mem pa

/-- Where a syllable or header stands; an address that is no multiple of 8 cannot be fetched. -/
def State.codePlace (s : State) (ctx va : Nat) : Option Nat :=
  if va % 8 != 0 then none
  else match s.translate ctx (BitVec.ofNat 64 va) .x with
    | .ok pa => some pa
    | .error _ => none

/-- The 64-bit value at a code address, if it can be fetched. -/
def State.codeWord (s : State) (core ctx va : Nat) : Option Word :=
  (s.codePlace ctx va).map (fun pa =>
    BitVec.ofNat 64 (leNat ((List.range 8).map (fun i => s.codeByte core (pa + i)))))

/-- Address of syllable k of the clause at `a`, modulo 2^56; the header is syllable 0. -/
def sylAddr (a : Addr56) (k : Nat) : Nat := (a + BitVec.ofNat 56 (8 * k)).toNat

/-- The words at syllables k, k+1, …, or the first address that cannot be fetched. -/
def State.codeWords (s : State) (core ctx : Nat) (a : Addr56) : Nat → Nat → Except Nat (List Word)
  | _, 0 => .ok []
  | k, n + 1 =>
    match s.codeWord core ctx (sylAddr a k) with
    | none => .error (sylAddr a k)
    | some w =>
      match s.codeWords core ctx a (k + 1) n with
      | .ok ws => .ok (w :: ws)
      | .error x => .error x

/-- What leaves the instruction cache when a line is to enter it: it holds 512 lines (R16). -/
def Core.roomI (c : Core) (n : Nat) : SMap (BitVec 2048) :=
  let l := c.l1i.filter (fun x => !Config.l1iEvicted n x.1)
  if l.length < 512 then l else l.eraseIdx (Config.l1iVictim n % l.length)

/-- The fetch fills the lines it touches (R248), those apart that hold a word that cannot be corrected (R375). -/
def State.fillCode (s : State) (core ctx : Nat) (a : Addr56) (n : Nat) : State :=
  (List.range n).foldl (fun s k =>
    match s.codePlace ctx (sylAddr a k) with
    | none => s
    | some pa =>
      match (s.core core).l1i.get? (pa / 256) with
      | some _ => s
      | none => if s.lost (.mem (pa / 256 * 256)) 256 then s else s.updCore core (fun c => { c with
          l1i := SMap.put (c.roomI s.tick) (pa / 256) (BitVec.ofNat 2048 (rdNat s.mem (pa / 256 * 256) 256)) })) s

/-! ### Readiness -/

/-- Whether a thread can issue: it is ready, it is blocked or waits for a flag, or it stands for another
reason (R28, R43). -/
inductive Stand where
  | ready | waiting | stalled
  deriving DecidableEq, Repr

/-- Pre-emption of the warp's context is under way on its die (R307). -/
def State.preempting (s : State) (slot : Nat) (w : Warp) : Bool :=
  match s.ctxs.get? w.ctx with
  | some c => (c.preempt.get? (dieOf slot)).isSome
  | none => false

/-- A syllable of the clause names a uniform register that an LDU of other threads has yet to write (R28,
R188). -/
def State.heldBack (s : State) (slot t : Nat) (w : Warp) (a : Addr56) (h : Word) : Bool :=
  let ss := (s.pendingS slot).filter (fun x => !x.2.contains t)
  if ss.isEmpty || !headerOk h then false
  else match s.codeWords (coreOf slot) w.ctx a 1 (slots h).length with
    | .error _ => false
    | .ok ws =>
      ((slots h).zip ws).any (fun (sl, x) =>
        match decode sl.pos x with
        | .ok i => (sregsOf i).any (fun r => ss.any (fun y => y.1 == r))
        | .error _ => false)

/-- Every completion flag named in WAIT is zero (R28). -/
def flagsClear (th : Thread) (h : Word) : Bool :=
  (List.range 12).all (fun k => !(hWait h).getLsbD k || th.f.get 0 k = 0)

/-- The arguments of SYSC 6 within its row (R314). -/
def abortOk (a b c : Word) : Bool := 2 ≤ a.toNat && a.toNat ≤ 0xFFFF && b == 0 && c == 0

/-- The thread has sent an ABORT, and does not continue (R384). -/
def State.aborting (s : State) (slot t : Nat) : Bool :=
  s.cmds.vals.any (fun x => x.warp = slot && x.thread = t && match x.body with
    | .sysc n a b c => n == 6 && abortOk a b c
    | _ => false)

/-- How a thread of a warp stands. -/
def State.stand (s : State) (slot : Nat) (w : Warp) (t : Nat) : Stand :=
  let th := w.thread t
  if th.isBlocked then .waiting
  else if th.routineEnd || s.aborting slot t then .stalled
  else if th.far != 0 then .ready
  else
    match s.codeWord (coreOf slot) w.ctx th.pc.toNat with
    | none => .ready
    | some h =>
      if !flagsClear th h || s.heldBack slot t w th.pc h then .waiting
      else if s.preempting slot w && w.save = none && t < 32 && hSafe h then .stalled
      else .ready

/-- The device has stopped the warp for a save, or its launch is about to end. -/
def State.stopped (s : State) (w : Warp) : Bool :=
  w.save = some .soft || w.save = some .stopping || w.save = some .hard
    || s.doomed.any (fun d => d.launch = w.launch)

/-- The counts of a thread's flag that signatures of commands not yet sent hold up (R342). -/
def Warp.owed (w : Warp) (t k : Nat) : Nat :=
  (w.joins.vals.map (fun j =>
    match j.capture with
    | some c => (c.signers.filter (· == (t, k))).length
    | none => 0)).sum

/-- Nothing is outstanding for a warp (R307, R342): loads have landed, commands are accepted, flags are zero
but for what unsent signatures hold up. -/
def State.quiet (s : State) (slot : Nat) (w : Warp) : Bool :=
  s.loads.vals.all (fun l => l.warp != slot)
    && s.cmds.vals.all (fun c => c.warp != slot || c.accepted)
    && w.threads.all (fun (t, th) => th.f.all (fun x => x.2 = w.owed t x.1))

/-- The handler of a frozen warp may start: R342 holds and the lane's handler bank is free (R392). -/
def State.handlerReady (s : State) (slot : Nat) (w : Warp) : Bool :=
  w.freeze = some .waiting && s.quiet slot w && (s.lane (laneOf slot)).bank.isNone

/-- How a warp stands (R29, R43, R407). -/
def State.warpStand (s : State) (slot : Nat) (w : Warp) : Stand :=
  if s.stopped w then .stalled
  else match w.freeze with
    | some .running => s.stand slot w 32
    | some _ => if s.handlerReady slot w then .ready else .waiting
    | none =>
      let xs := w.live.map (s.stand slot w)
      if xs.any (· == .ready) then .ready
      else if xs.all (· == .waiting) then .waiting
      else .stalled

/-! ### The choice of an issue (R29, R30, R151) -/

/-- The entry of lowest address. -/
def lowest (es : List Entry) : Option Entry :=
  es.foldl (fun r e =>
    match r with
    | none => some e
    | some x => if e.addr.toNat < x.addr.toNat then some e else some x) none

/-- The entry to issue: of age 256, else with an unmarked ready member, else any eligible; lowest address
first. -/
def chooseEntry (ready marked : Nat → Bool) (tbl : List Entry) : Option Entry :=
  let el := tbl.filter (fun e => (threadsOf e.members).any ready)
  match lowest (el.filter (fun e => e.age = 256)) with
  | some e => some e
  | none =>
    match lowest (el.filter (fun e => (threadsOf e.members).any (fun t => ready t && !marked t))) with
    | some e => some e
    | none => lowest el

/-- The address and the path set of the warp's next issue. -/
def State.choose (s : State) (slot : Nat) (w : Warp) : Option (Addr56 × List Nat) :=
  let ready (t : Nat) : Bool := s.stand slot w t == .ready
  if w.freeze = some .running then
    if ready 32 then some ((w.thread 32).pc, [32]) else none
  else if w.freeze.isSome then none
  else match w.serial with
    | none =>
      (chooseEntry ready (fun t => (w.thread t).yielded) w.table).map (fun e =>
        (e.addr, (threadsOf e.members).filter ready))
    | some p =>
      (((List.range 32).map (fun k => (p + k) % 32)).find? (fun t =>
        (w.thread t).life == .live && ready t)).map (fun t => ((w.thread t).pc, [t]))

/-! ### Lanes (R43, R299, R407) -/

/-- The warp slot at a residence of a lane. -/
def slotAt (lane k : Nat) : Nat := 96 * (lane / 32) + 3 * (lane % 32) + k

def State.activeSlot (s : State) (lane : Nat) : Nat := slotAt lane (s.lane lane).active

/-- Every live thread is marked by YIELD (R151); a frozen warp has its handler thread only (R407). -/
def Warp.allYielded (w : Warp) : Bool :=
  match w.freeze with
  | none => !w.live.isEmpty && w.live.all (fun t => (w.thread t).yielded)
  | some .running => (w.thread 32).yielded
  | some _ => false

/-- The stall count of R299: it grows under case 2, stands still under case 1 and is 0 when the warp is ready. -/
def Lane.note (l : Lane) (now : Nat) (st : Stand) : Lane :=
  match st with
  | .stalled => { l with stalled := some (l.stalled.getD now) }
  | .waiting => { l with stalled := none, stallSum := l.stallSum + (now - l.stalled.getD now) }
  | .ready => { l with stalled := none, stallSum := 0 }

/-- Bring the records of time at a lane up to date: since when its active warp has been stalled for another
reason, and since when each of its warps has been ready. -/
def State.noteWarp (s : State) (slot : Nat) : State :=
  match s.warp? slot with
  | none => s
  | some w =>
    let st := s.warpStand slot w
    let r := if st == .ready then some (w.readyAt.getD s.clock) else none
    let s := if w.readyAt = r then s else s.setWarp slot { w with readyAt := r }
    let lane := laneOf slot
    if s.activeSlot lane = slot then
      let l := (s.lane lane).note s.clock st
      if s.lane lane = l then s else s.updLane lane (fun _ => l)
    else s

def State.noteAll (s : State) : State := s.warps.keys.foldl State.noteWarp s

/-- The pending warp of the lane that has been ready longest; on equal time, the lower residence (R299). -/
def State.pendingReady (s : State) (lane : Nat) : Option Nat :=
  ((List.range 3).filter (fun k => k != (s.lane lane).active)).foldl (fun r k =>
    match (s.warp? (slotAt lane k)).bind Warp.readyAt with
    | none => r
    | some t =>
      match r.bind (fun j => (s.warp? (slotAt lane j)).bind Warp.readyAt) with
      | some u => if t < u then some k else r
      | none => some k) none

/-- The lane replaces its active warp by residence k; the swap takes 2 cycles (R299). A ready warp that gives way counts as
ready from now on: each pending warp is reached within a bounded time (R43). -/
def State.swapIn (s : State) (lane k : Nat) : State :=
  (s.updWarp (s.activeSlot lane) (fun w => { w with readyAt := w.readyAt.map (fun _ => s.clock) })).updLane lane (fun l =>
    { l with active := k, since := s.clock, stalled := none, stallSum := 0, busy := max l.busy s.clock + 2, granted := false })

/-- The lane may replace its active warp at once: it has ended, or case 1 of R43, or R151. -/
def State.swapDue (s : State) (lane : Nat) : Bool :=
  match s.warp? (s.activeSlot lane) with
  | none => true
  | some w =>
    (w.freeze.isNone && w.live.isEmpty) || s.warpStand (s.activeSlot lane) w == .waiting || w.allYielded

/-- A pending warp is ready and replaces the active one before it issues again: at once, or after 4,096 cycles
(R43, R151, R299). -/
def State.mustSwap (s : State) (lane : Nat) : Bool :=
  (s.pendingReady lane).isSome && (s.swapDue lane || (s.lane lane).since + 4096 ≤ s.clock)

end Sys2Proof.Machine
end

