-- ==== Sys2Proof/Machine/Ending.lean ====
section
/-! DEFINITION. What the device itself reads and writes in a context's memory, the completion record (R290),
the gang fault record (R370), the early end of a launch (R376, R384) and the end of a block (R253, R259). -/

namespace Sys2Proof.Machine

/-! ### The device's own accesses -/

/-- The physical addresses of n bytes of a context at an address, for the access `key`. -/
def State.bytePlaces (s : State) (key ctx : Nat) (k : Acc) : Nat → Nat → Except Nat (List Nat)
  | _, 0 => .ok []
  | va, n + 1 =>
    match s.translateFor key ctx (BitVec.ofNat 64 va) k with
    | .error e => .error e
    | .ok pa =>
      match s.bytePlaces key ctx k (va + 1) n with
      | .error e => .error e
      | .ok r => .ok (pa :: r)

/-- The physical addresses of an access of n bytes: it meets each table entry once (R251). -/
def State.ctxPlaces (s : State) (ctx va : Nat) (k : Acc) (n : Nat) : Except Nat (List Nat) := s.bytePlaces va ctx k va n

/-- The byte cannot be read: its word cannot be corrected (R375), or no port reaches its package (R380). -/
def State.unreadable (s : State) (pa : Nat) : Bool := s.lost (.mem pa) 1 || !s.reaches (.mem pa)

/-- n bytes at a virtual address of a context, or the kind of the failure: 25 where they are translated but cannot be
read. -/
def State.ctxRead (s : State) (ctx va n : Nat) : Except Nat (List Byte) :=
  match s.ctxPlaces ctx va .r n with
  | .error k => .error k
  | .ok ps => if ps.any s.unreadable then .error 25 else .ok (ps.map (rdByte s.mem))

/-- The record of R377 for a read of a context's memory by a unit of a die that gave kind 25, at the first byte that cannot
be read. -/
def State.unreadCheck (s : State) (die source ctx va n : Nat) : MCheck :=
  let at_ := match s.ctxPlaces ctx va .r n with
    | .error _ => 0
    | .ok ps => (ps.find? s.unreadable).getD 0
  { mcheck 25 die 6 at_ 0 0xFF 0xFF 0 with source := source, ctx := ctx }

/-- An access of a die's scheduler (source 4) or Seedbed (5) that its context's world forbids is entered in the black box
(R324, R378). -/
def State.dieViolation (s : State) (die source ctx kind va : Nat) : State :=
  if kind = 26 then s.worldEntry die source ctx va else s

/-- n bytes at a virtual address of a context as a die's scheduler reads them, or the kind of the failure. -/
def State.dieRead (s : State) (die ctx va n : Nat) : State × Except Nat (List Byte) :=
  match s.ctxRead ctx va n with
  | .error k => (s.dieViolation die 4 ctx k va, .error k)
  | .ok b => (s, .ok b)

/-- Bytes at physical addresses as runs of consecutive ones. -/
def runsOf : List (Nat × Byte) → List (Nat × List Byte)
  | [] => []
  | (a, x) :: r =>
    match runsOf r with
    | (b, xs) :: rest => if a + 1 = b then (a, x :: xs) :: rest else (a, [x]) :: (b, xs) :: rest
    | [] => [(a, [x])]

/-- Write one run of physical bytes at its home. A write to a reduction cell's window is dropped (R379), and no byte of the
capability list's frame is written (R319). -/
def State.writePa (s : State) (w : Writer) (pa : Nat) (b : List Byte) : State :=
  if (List.range b.length).any (fun i => s.cellAt (pa + i)) then
    s.bbox ((w.spot.die?).getD 0) 9 0x04 0 0xFF 0xFF 0 [BitVec.ofNat 64 pa]
  else if capHit pa b.length then
    (runsOf ((b.zipIdx.map (fun (x, i) => (pa + i, x))).filter (fun x => !inCapFrame x.1))).foldl (fun s x =>
      s.put w .none (.mem x.1) x.2) s
  else s.put w .none (.mem pa) b

/-- Write bytes at a virtual address of a context: all of them or none. -/
def State.ctxWrite (s : State) (w : Writer) (ctx va : Nat) (b : List Byte) : Except Nat State :=
  match s.ctxPlaces ctx va .w b.length with
  | .error k => .error k
  | .ok ps => .ok ((runsOf (ps.zip b)).foldl (fun s x => s.writePa w x.1 x.2) s)

/-- Write if every byte can be written; a scheduler's write into another world is entered in the black box. -/
def State.tryWrite (s : State) (w : Writer) (ctx va : Nat) (b : List Byte) : State :=
  match s.ctxWrite w ctx va b with
  | .ok s' => s'
  | .error k => s.dieViolation ((w.spot.die?).getD 0) 4 ctx k va

/-- A die's scheduler or Seedbed as a writer; `rel` writes are releases at sys scope of all that has been performed
(R274, R370). -/
def State.dieWriter (s : State) (die : Nat) (rel : Bool) : Writer :=
  { spot := .die die, heads := if rel then [⟨.sys, .die die, [], s.vers.map Ver.id⟩] else [],
    strong := if rel then some (.sys, []) else none }

/-! ### Records -/

def State.queueDie (s : State) (l : Launch) : Nat := ((s.queues.get? l.queue).map Queue.die).getD 0

/-- The die is out of its interlude and every weight-store line of its cores' L1 goes (R255, R256). -/
def State.endInterlude (s : State) (launch : Nat) : State :=
  (List.range 4).foldl (fun s d =>
    if (s.die d).interlude = some launch then
      (s.cores.keys.filter (fun c => dieOfCore c = d)).foldl (fun s c =>
        s.updCore c (fun x => { x with l1w := [] })) (s.updDie d (fun x => { x with interlude := none }))
    else s) s

/-- Write the completion record (R290), raise the interrupt when `irq`, and close the launch. -/
def State.complete (s : State) (id : Nat) (l : Launch) (status start fin : Nat) (irq : Bool) : State :=
  let s := s.tryWrite (s.dieWriter (s.queueDie l) true) l.ctx l.info.done.toNat
    (leBytes 4 status ++ leBytes 4 0 ++ leBytes 8 start ++ leBytes 8 fin ++ leBytes 8 l.finished
      ++ leBytes 32 0)
  let s := if irq then s.interrupt else s
  (s.updLaunch id (fun l => { l with closed := true, lastEnd := fin })).endInterlude id

/-- A failure of a command or of Seedbed in the gang fault record (R370): only the first writes the other
fields, before the count. -/
def State.gangFault (s : State) (c : Cmd) (unit err : Nat) (addr : Word) : State :=
  match s.launches.get? c.launch with
  | none => s
  | some l =>
    let n := l.fails + 1
    let base := l.info.done.toNat + 0x40
    let s := s.updLaunch c.launch (fun l => { l with fails := n })
    let s := if n = 1 then
        s.tryWrite (s.dieWriter (dieOfCore c.core) false) l.ctx (base + 4) (leBytes 4 err ++ leBytes 8 c.index ++ leBytes 2 (c.core % 132)
          ++ leBytes 1 (dieOfCore c.core) ++ leBytes 1 (warpNo c.warp) ++ leBytes 1 c.thread ++ leBytes 1 unit
          ++ leBytes 2 c.opcode.toNat ++ leBytes 8 c.clause.toNat ++ leBytes 8 addr.toNat)
      else s
    s.tryWrite (s.dieWriter (dieOfCore c.core) true) l.ctx base (leBytes 4 (min n 0xFFFFFFFF))

/-- The error value of R369. -/
def errValue (kind row unit : Nat) : Nat := 2 ^ 31 + kind * 2 ^ 24 + row * 2 ^ 12 + unit

/-- A failed copy: gang fault record and black box (R370, R401). -/
def State.failCopy (s : State) (c : Cmd) (err : Nat) (addr : Word) : State :=
  (s.gangFault c 1 err addr).bbox (dieOfCore c.core) 1 0x0F (c.core % 132) (warpNo c.warp) c.thread c.ctx
    [BitVec.ofNat 64 err, addr]

/-- A failure of Seedbed (R390). -/
def State.failSeed (s : State) (c : Cmd) (kind : Nat) (addr : Word) (counter : Bool) : State :=
  let e := errValue kind 0 0
  ((s.dieViolation (dieOfCore c.core) 5 c.ctx kind addr.toNat).gangFault c 4 e addr).bbox (dieOfCore c.core) 5 (if counter then 0x0E else 0x0D) (c.core % 132)
    (warpNo c.warp) c.thread c.ctx (if counter then [addr] else [addr, BitVec.ofNat 64 e])

/-! ### The end of a block -/

/-- The residency entries of a block's tiles go (R259). -/
def State.dropResid (s : State) (id : Nat) : State :=
  (List.range 4).foldl (fun (s : State) d => s.updDie d (fun x =>
    { x with resid := x.resid.filter (fun e => e.slice || e.block != id) })) s

/-- What a call returns (R313, R385). -/
def State.ret (s : State) (xs : List Word) : State := { s with host := { s.host with reply := xs } }

/-- A PREEMPT of the context that waits for the die returns once no block of the context is left there (R313). -/
def State.preemptOver (s : State) (ctx die : Nat) : State :=
  match s.ctxs.get? ctx with
  | some c =>
    if c.asked.contains die && s.blocks.vals.all (fun b => b.ctx != ctx || dieOfCore (b.cores.headD 0) != die) then
      (s.updCtx ctx (fun c => { c with asked := c.asked.filter (· != die) })).ret [0]
    else s
  | none => s

/-- What a block's threads have sent to its windows is performed there. -/
def State.drainWindows (s : State) (b : Block) : State :=
  (b.cores.zip b.tileBase).foldl (fun s (c, t) => s.drainTiles c ((List.range b.tiles).map (t + ·))) s

/-- Remove a block and its windows, in which nothing is left to be performed (R253). -/
def State.dropBlock (s : State) (id : Nat) : State :=
  match s.blocks.get? id with
  | some b => State.preemptOver { s with blocks := s.blocks.del id } b.ctx (dieOfCore (b.cores.headD 0))
  | none => s

/-- A block goes once what stands before the end of its windows has been performed (R253). -/
def State.freeBlock (s : State) (id : Nat) : State :=
  (match s.blocks.get? id with
  | some b => s.drainWindows b
  | none => s).dropBlock id

/-- The block ends here: its residency entries and its window go (R253, R259). -/
def State.cutBlock (s : State) (id : Nat) : State := (s.dropResid id).freeBlock id

/-- The command names tiles of its block: a CPY.WS its completion word's only, a TILEREG those of a scratchpad entry
(R212, R253). -/
def Cmd.onWindow (c : Cmd) : Bool :=
  match c.body with
  | .copy kind _ _ d .. => kind != 4 || d.getLsbD 21
  | .tilereg _ loc => !loc.getLsbD 63
  | .matrix .. | .sweep .. => true
  | _ => false

/-- A started block whose warps have all ended ends; a pool's block ends with its launch (R290, R300). Its windows are
returned when no command names its tiles any more (R253). -/
def State.endBlock (s : State) (id : Nat) : State :=
  match s.blocks.get? id with
  | none => s
  | some b =>
    let s := if b.started && !b.ended && !s.isPool b.launch && b.warps.all (fun w => (s.member id w).isNone) then
        (s.dropResid id).updBlock id (fun b => { b with ended := true })
      else s
    match s.blocks.get? id with
    | none => s
    | some b =>
      if b.ended && s.cmds.vals.all (fun c => c.block != id || !c.onWindow) then
        (s.updLaunch b.launch (fun l => { l with finished := l.finished + 1 })).freeBlock id
      else s

def State.endBlocks (s : State) : State := s.blocks.keys.foldl State.endBlock s

/-! ### The early end of a launch -/

/-- A machine-check record enters the queue of the resident system (R377). -/
def State.record (s : State) (m : MCheck) : State := { s with host := { s.host with mchecks := s.host.mchecks ++ [m] } }

/-- A record that ends no launch: the queue, and the die's black box (R377). -/
def State.deliver (s : State) (m : MCheck) : State := (s.record m).checkEntry m

/-- The black-box entry of an early end (R384, R385): queue, index, status, warps whose live threads are
all blocked, and how many those are. -/
def State.endEntry (s : State) (l : Launch) (id status : Nat) : State :=
  let ws := (s.warps.vals.filter (fun w => w.launch = id)).filter (fun w =>
    !w.live.isEmpty && w.live.all (fun t => (w.thread t).isBlocked))
  s.bbox (s.queueDie l) 4 0x0C 0 0xFF 0xFF l.ctx
    [s.queueAddr l, BitVec.ofNat 64 (l.index + 2 ^ 32 * status), BitVec.ofNat 64 ws.length,
      BitVec.ofNat 64 ((ws.map (fun w => w.live.length)).sum)]

/-- The ABORTs of the launch that have not been answered: they reach the scheduler after what decided its end (R384). -/
def State.lateAborts (s : State) (id : Nat) : List Nat :=
  s.cmds.vals.filterMap (fun c => match c.body with
    | .sysc n a b d => if c.launch = id && c.done = 0 && n == 6 && abortOk a b d then some (0x40000 + a.toNat) else none
    | _ => none)

/-- The item is a contribution of the launch. -/
def StItem.contribOf (launch : Nat) (i : StItem) : Bool :=
  match i.kind with
  | .contrib _ _ _ l => l = launch
  | _ => false

/-- Every ordered contribution of the launch goes, queued, spilled or on its way (R373, R376). -/
def State.discard (s : State) (launch : Nat) : State :=
  let keep (xs : List StItem) : List StItem := xs.filter (fun i => !i.contribOf launch)
  { s with
    warps := s.warps.map (fun x => (x.1, { x.2 with stq := keep x.2.stq }))
    cores := s.cores.map (fun x => (x.1, { x.2 with flight := keep x.2.flight }))
    ordq := s.ordq.filter (fun c => c.launch != launch || c.pkg != s.trellis.id)
    ordSeq := s.ordSeq.filter (fun c => c.launch != launch) }

/-- Steps 1 to 6 of R376: the launch's warps, commands, contributions and blocks go without death
processing, and the completion record, the interrupt and the record of R377 follow. -/
def State.endLaunch (s : State) (d : Doom) (l : Launch) : State :=
  let id := d.launch
  let mine := (s.warps.filter (fun x => x.2.launch = id)).map (·.1)
  let s := mine.foldl State.drainWarp (s.discard id)
  let late := s.lateAborts id
  let s := mine.foldl State.freeBank (s.dropRels mine)
  let s : State := { s with
    warps := s.warps.filter (fun x => x.2.launch != id)
    loads := s.loads.filter (fun x => !mine.contains x.2.warp)
    cmds := s.cmds.filter (fun x => x.2.launch != id)
    saved := s.saved.filter (fun x => x.block.launch != id)
    lanes := s.lanes.map (fun (k, x) => (k, { x with grows := x.grows.filter (fun w => !mine.contains w) })) }
  let s := ((s.blocks.filter (fun x => x.2.launch = id)).map (·.1)).foldl State.cutBlock s
  let now := s.time
  let s := s.updLaunch id (fun l => { l with ended := true })
  let s := s.complete id l d.status (l.start.getD now) now true
  let s := s.record { d.check with ctx := l.ctx, queue := s.queueAddr l, index := l.index }
  late.foldl (fun s st => s.endEntry l id st) s

/-- ABORT and launch_end make the entry themselves; any end after the first makes one and does nothing else
(R384). An error found then delivers its record all the same, which the black box holds already (R377). -/
def State.endDoomed (s : State) (d : Doom) : State :=
  match s.launches.get? d.launch with
  | none => s
  | some l =>
    if l.closed then if d.check.kind = 25 then s.record d.check else s.endEntry l d.launch d.status
    else
      let s := if d.status = 0x00030001 || d.status / 65536 = 4 then s.endEntry l d.launch d.status else s
      s.endLaunch d l

/-- An issue of the launch is in progress: its warps stop at its boundary (R376 step 1). -/
def State.inIssue (s : State) (launch : Nat) : Bool :=
  s.parked.keys.any (fun w => ((s.warp? w).map Warp.launch) == some launch)

/-- Carry out the ends that have been decided, in their order. -/
def State.reap (s : State) : State :=
  (s.doomed.filter (fun d => !s.inIssue d.launch)).foldl State.endDoomed
    { s with doomed := s.doomed.filter (fun d => s.inIssue d.launch) }

/-! ### The machine's own steps -/

/-- A step of the machine between syllables: its effect, then what follows from it at once. -/
def State.event (s : State) (f : State → State) : Result :=
  match s.issue with
  | some _ => .next s
  | none => .next (f s).endBlocks.reap.endBlocks.noteAll

/-- A call of the control interface: the resident system, which serves it, runs once the compute dies have been
released (R313, R316). -/
def State.call (s : State) (f : State → State) : Result := s.event (fun s => if s.released then f s else s)

end Sys2Proof.Machine
end

