-- ==== Sys2Proof/Machine/Seedbed.lean ====
section
/-! DEFINITION. Seedbed (R235, R236, R300–R306, R390, R406): records, cards, queues, the end of a task,
dealing, and the start of task threads. -/

namespace Sys2Proof.Machine

/-! ### Records and cards in memory -/

/-- The little-endian value of n bytes at an offset of a record already read. -/
def fieldLE (b : List Byte) (off n : Nat) : Nat := leNat ((b.drop off).take n)

def zeroBytes (b : List Byte) (off n : Nat) : Bool := ((b.drop off).take n).all (· == 0)

/-- A continuation record (R301), or none where it is malformed (R390). -/
def parseTask (b : List Byte) : Option TaskRec :=
  let w (o : Nat) : Word := BitVec.ofNat 64 (fieldLE b o 8)
  let n := fieldLE b 0x39 1
  let prio := fieldLE b 0x38 1
  if prio < 8 && n ≤ 4 && zeroBytes b 0x3A 6 && fieldLE b 0 8 % 8 = 0 then
    some ⟨w 0, w 8, w 16, (List.range n).map (fun i => w (0x18 + 8 * i)), prio, [], 0⟩
  else none

/-- A job card (R303) with its priority, or none where it is malformed (R390). -/
def parseCard (b : List Byte) : Option (Item × Nat) :=
  let w (o : Nat) : Word := BitVec.ofNat 64 (fieldLE b o 8)
  let prio := fieldLE b 0x30 1
  let ids := fieldLE b 0x31 1
  let size := fieldLE b 0x10 4
  let count := fieldLE b 0x14 4
  if prio < 8 && ids < 2 && zeroBytes b 0x32 14 && size % 8 = 0 && count != 0 then
    some (.card (w 0) (w 8) size count (w 0x18) (w 0x20) (w 0x28) (ids = 1) 0 [], prio)
  else none

/-! ### Queues -/

def State.seed (s : State) (die ctx : Nat) : Seed := (s.die die).seeds.get ⟨[], []⟩ ctx

def State.updSeed (s : State) (die ctx : Nat) (f : Seed → Seed) : State :=
  s.updDie die (fun d => { d with seeds := d.seeds.set ⟨[], []⟩ ctx (f (d.seeds.get ⟨[], []⟩ ctx)) })

/-- Items that a context's queues on a die hold. -/
def Seed.size (x : Seed) : Nat := (x.queues.vals.map List.length).sum

/-- The item does not fit on the die, and the first half of the context's backing area cannot take it (R406). -/
def State.seedFull (s : State) (die ctx : Nat) : Bool :=
  let past (d : Nat) (extra : Nat) : Nat := (s.seed d ctx).size + extra - Config.seedOnDie d
  past die 1 != past die 0 && s.backingFull ctx false 64 ((List.range 4).map (fun d => past d 0)).sum

/-- Seedbed's write of one more item to the backing area is entered in the black box where its context's world may not make
it. -/
def State.seedBarred (s : State) (die ctx : Nat) : State :=
  match s.backingBarred ctx false 64 ((List.range 4).map (fun d => (s.seed d ctx).size - Config.seedOnDie d)).sum with
  | some va => s.worldEntry die 5 ctx va
  | none => s

/-- Place an item at the tail of the queue of its priority (R304). -/
def State.seedPush (s : State) (die ctx prio : Nat) (x : Item) : State :=
  s.updSeed die ctx (fun q => { q with queues := q.queues.set [] prio (q.queues.get [] prio ++ [x]) })

/-! ### The end of a task (R236, R302, R390) -/

/-- The message of a TDONE, as the gang fault record names it. -/
def doneCmd (w : Warp) (slot t : Nat) (clause : Addr56) : Cmd :=
  { warp := slot, block := w.block, launch := w.launch, ctx := w.ctx, core := coreOf slot, thread := t,
    opcode := 0x2C2, clause := clause, body := .vswait, dst := none, flags := [], index := 0, accepted := true, tiles := [],
    done := 0, held := [] }

/-- An item that finds the die and the backing area full fails (R390, R406). -/
def State.failFull (s : State) (c : Cmd) (addr : Word) : State :=
  (s.seedBarred (dieOfCore c.core) c.ctx).failSeed c 22 addr false

/-- A read of Seedbed's that a command of a thread asks for cannot be made: one of data that cannot be corrected, or at a
peer that no port reaches, ends the launch (R375, R380); else it fails (R390). -/
def State.unseeded (s : State) (c : Cmd) (kind : Nat) (addr : Word) (va n : Nat) : State :=
  if kind = 25 then
    s.doom c.launch 0x00010002 { s.unreadCheck (dieOfCore c.core) 5 c.ctx va n with
      core := c.core % 132, warp := warpNo c.warp, thread := c.thread, clause := c.clause.zeroExtend 64 }
  else s.failSeed c kind addr false

/-- Decrement the counter of a join record; at zero its continuation is queued, to act after every task that has
decremented it (R236, R272, R302). -/
def State.taskDone (s : State) (slot t : Nat) (clause : Addr56) : State :=
  match s.warp? slot with
  | none => s
  | some w =>
    match (w.thread t).task with
    | none => s
    | some j =>
      if j = 0 then s
      else
        let s := s.drainWarp slot
        let c := { doneCmd w slot t clause with index := s.blockIndex w.block }
        let die := dieOf slot
        match s.translate w.ctx j .rw with
        | .error k => s.failSeed c k j false
        | .ok pa =>
          let n := rdNat s.mem pa 4
          if s.unreadable pa then s.unseeded c 25 j j.toNat 4
          else if n = 0 then s.failSeed c 22 j true
          else
            let heads := s.headNow (coreOf slot) .die (s.spanOf slot)
              :: (((s.newest (.mem pa) 4).map Ver.heads).getD [])
            let s' := s.writePa { spot := .die die, heads := heads } pa (leBytes 4 (n - 1))
            if n != 1 then s'
            else match s.ctxRead w.ctx (j.toNat + 0x40) 64 with
              | .error k => s.unseeded c k j (j.toNat + 0x40) 64
              | .ok b =>
                match parseTask b with
                | none => s.failSeed c 22 j false
                | some r =>
                  if s.seedFull die w.ctx then s.failFull c j
                  else s'.seedPush die w.ctx r.priority (.task { r with view := (heads.flatMap Head.view).eraseDups })

/-! ### Dealing (R300, R304, R305) -/

/-- A pool warp all of whose threads are dead, and that nothing else keeps. -/
def State.idle (s : State) (w : Warp) : Bool :=
  s.isPool w.launch && w.ended && w.freeze.isNone && w.save.isNone && !s.stopped w
    && ((s.blocks.get? w.block).map Block.started).getD false

/-- The warps of a context's pools on a die. -/
def State.poolWarps (s : State) (die ctx : Nat) : List (Nat × Warp) :=
  s.warps.filter (fun x => dieOf x.1 = die && x.2.ctx = ctx && s.isPool x.2.launch)

def State.exclOf (s : State) (ctx : Nat) : List Nat := ((s.ctxs.get? ctx).map Ctx.excl).getD []

/-- Idle warps of a core for the context. -/
def State.idleCount (s : State) (die ctx core : Nat) : Nat :=
  ((s.poolWarps die ctx).filter (fun x => coreOf x.1 = core && s.idle x.2)).length

/-- The placement set: cores of the die, by number in the package, ascending, that hold a pool warp of the
context, are not excluded and whose list, with what the chunk's records in `dealt` leave over, is below 64
(R305). -/
def State.placeSet (s : State) (die ctx : Nat) (dealt : List Nat) : List Nat :=
  ((List.range 132).map (132 * die + ·)).filter (fun c =>
    (s.poolWarps die ctx).any (fun x => coreOf x.1 = c) && !(s.exclOf ctx).contains c
      && ((s.seed die ctx).lists.get [] c).length
          + ((dealt.filter (· = c)).length - 32 * s.idleCount die ctx c) < 64)

/-- The resident bytes that a record's ids have on a core (R305). -/
def State.residBytes (s : State) (die ctx : Nat) (r : TaskRec) (c : Nat) : Nat :=
  (r.ids.map (fun i => (((s.die die).resid.filter (fun e => e.ctx = ctx && e.id == i &&
    (if e.slice then e.first = 48 * (c % 132) / 132 else e.core = c))).map Resid.bytes).sum)).sum

/-- The load of a core (R305); `dealt` lists the cores on which records of this chunk wait for an idle
warp. -/
def State.poolLoad (s : State) (die ctx : Nat) (dealt : List Nat) (c : Nat) : Nat :=
  (((s.poolWarps die ctx).filter (fun x => coreOf x.1 = c)).map (fun x => x.2.live.length)).sum
    + ((s.seed die ctx).lists.get [] c).length + (dealt.filter (· = c)).length

/-- The core of a record: greatest bytes, then least load, then lowest (R305). -/
def State.placeOf (s : State) (die ctx : Nat) (dealt : List Nat) (r : TaskRec) : Option Nat :=
  (s.placeSet die ctx dealt).foldl (fun best c =>
    match best with
    | none => some c
    | some b =>
      let x := s.residBytes die ctx r c
      let y := s.residBytes die ctx r b
      if y < x || (x = y && s.poolLoad die ctx dealt c < s.poolLoad die ctx dealt b) then some c else some b) none

/-- Record k of a card. -/
def Item.record (x : Item) (k : Nat) : TaskRec :=
  match x with
  | .task r => r
  | .card entry args size _ join base stride hasId _ view =>
    ⟨entry, args + BitVec.ofNat 64 (k * size), join,
      if hasId then [base + BitVec.ofNat 64 k * stride] else [], 0, view, 0⟩

/-- A thread started from a record: the state of R26, with $frame and the PC of the record and the spill
pointer of its place in the pool's block (R300). -/
def taskThread (r : TaskRec) (rsp : Word) (id : Nat) : Thread :=
  { Thread.absent with
    life := .live, pc := r.code.setWidth 56, frame := r.frame, rsp := rsp, task := some r.join,
    taskFrame := r.frame, taskId := id, far := BitVec.ofNat 8 (r.code.toNat / 2 ^ 56) }

/-- The spill pointer of a block's rank (R298). -/
def spillTop (i : Rec) (index rank : Nat) : Word :=
  i.stack + BitVec.ofNat 64 ((index * (i.x * i.y * i.z) + rank + 1) * i.stackBytes)

/-- Give records to an idle warp: its threads 0, 1, … start, after what their senders did before (R272, R332). -/
def State.startTasks (s : State) (slot : Nat) (rs : List TaskRec) : State :=
  match s.warp? slot with
  | none => s
  | some w =>
    match s.infoOf w, s.blocks.get? w.block with
    | some i, some b =>
      let id := s.nextId
      let s := (s.learn (coreOf slot) (s.ctxView w.ctx ++ rs.flatMap TaskRec.view)).discardL1 (coreOf slot)
      State.setWarp { s with nextId := id + rs.length } slot (Warp.rebuild { w with
        threads := rs.zipIdx.foldl (fun m (r, t) =>
          m.put t (taskThread r (spillTop i b.index (rankOf w t)) (id + t))) w.threads })
    | _, _ => s

/-- An idle warp of a core for the context: the lowest (DESIGN CHOICE, notes/assumptions/72.md). -/
def State.idleOn (s : State) (die ctx core : Nat) : Option Nat :=
  ((s.poolWarps die ctx).find? (fun x => coreOf x.1 = core && s.idle x.2)).map (·.1)

/-- Give a core's chunk of records to its idle warps, 32 to a warp in ascending index; the rest waits on the
core's list. -/
def State.giveCore (s : State) (die ctx core : Nat) : Nat → List TaskRec → State
  | 0, rs => s.updSeed die ctx (fun q => { q with lists := q.lists.set [] core (q.lists.get [] core ++ rs) })
  | n + 1, rs =>
    if rs.isEmpty then s
    else match s.idleOn die ctx core with
      | none => s.updSeed die ctx (fun q => { q with lists := q.lists.set [] core (q.lists.get [] core ++ rs) })
      | some slot => (s.startTasks slot (rs.take 32)).giveCore die ctx core n (rs.drop 32)

/-- Records of a core's list that its idle warps take before the queues are considered (R305): up to 32, a warp's threads
(DESIGN CHOICE, notes/assumptions/72.md). -/
def State.takeList (s : State) (die ctx core : Nat) : State :=
  match s.idleOn die ctx core with
  | none => s
  | some slot =>
    let rs := (s.seed die ctx).lists.get [] core
    if rs.isEmpty then s
    else (s.updSeed die ctx (fun q => { q with lists := q.lists.set [] core (rs.drop 32) })).startTasks slot
      (rs.take 32)

/-- Place records k, k+1, … of an item until the placement set is empty: the cores and records placed, in
order. -/
def State.placeSome (s : State) (die ctx : Nat) (x : Item) (k : Nat) : Nat → List (Nat × TaskRec) →
    List (Nat × TaskRec)
  | 0, acc => acc
  | n + 1, acc =>
    match s.placeOf die ctx (acc.map (·.1)) (x.record k) with
    | none => acc
    | some c => s.placeSome die ctx x (k + 1) n (acc ++ [(c, x.record k)])

/-- The chunk of a card with r records left and n cores in the placement set (R304). -/
def chunkOf (r n : Nat) : Nat :=
  let c := max 32 ((r + 4 * n - 1) / (4 * n))
  min (32 * ((c + 31) / 32)) r

/-- Deal the head item of the highest non-empty queue of a context on a die. -/
def State.dealHead (s : State) (die ctx : Nat) : State :=
  match ([7, 6, 5, 4, 3, 2, 1, 0].findSome? (fun p =>
      match (s.seed die ctx).queues.get [] p with
      | [] => none
      | x :: rest => some (p, x, rest))) with
  | none => s
  | some (p, x, rest) =>
    let put (s : State) (q : List Item) : State :=
      s.updSeed die ctx (fun d => { d with queues := d.queues.set [] p q })
    let n := (s.placeSet die ctx []).length
    if n = 0 then s
    else
      let give (s : State) (ps : List (Nat × TaskRec)) : State :=
        let n := s.nextId
        let s := { s with nextId := n + ps.length }
        let ps := ps.zipIdx.map (fun (q, i) => (q.1, { q.2 with nth := n + i }))
        (ps.map (·.1)).eraseDups.foldl (fun s c =>
          s.giveCore die ctx c 96 ((ps.filter (fun q => q.1 = c)).map (·.2))) s
      match x with
      | .task _ =>
        match s.placeSome die ctx x 0 1 [] with
        | [] => s
        | ps => give (put s rest) ps
      | .card e a size count j b st h next view =>
        let ps := (s.placeSome die ctx x next (chunkOf (count - next) n) []).map (fun (c, r) =>
          (c, { r with priority := p }))
        let next' := next + ps.length
        let q := if next' = count then rest else .card e a size count j b st h next' view :: rest
        give (put s q) ps

/-- SEEDBED_DEAL for a context on a die (R304, R305, R307): lists first, then the queues when a pool core
holds an idle warp. -/
def State.deal (s : State) (die ctx : Nat) : State :=
  if ((s.ctxs.get? ctx).map (fun c => (c.preempt.get? die).isSome)).getD true then s
  else
    let cores := ((s.poolWarps die ctx).map (fun x => coreOf x.1)).eraseDups
    match cores.find? (fun c => (s.idleOn die ctx c).isSome && !((s.seed die ctx).lists.get [] c).isEmpty) with
    | some c => s.takeList die ctx c
    | none =>
      if cores.any (fun c => (s.idleOn die ctx c).isSome) then s.dealHead die ctx else s

end Sys2Proof.Machine
end

