-- ==== Sys2Proof/Machine/Commit.lean ====
section
/-! DEFINITION. The clause boundary: commit in ascending thread number (R60, R61), uniform writes (R55, R133),
the PC table (R29, R30), joins, barriers, rings, the token and register units (R207, R209, R219, R228,
R238), waits on an address (R199), deaths (R66, R347), traps (R338, R394–R396, R400) and the end of an
issue's time on its lane (R67). -/

namespace Sys2Proof.Machine

/-! ### One thread's commit -/

def StItem.withLoad (i : StItem) (id : Nat) : StItem :=
  { i with kind := match i.kind with
      | .atom op b c dbl _ => .atom op b c dbl (some id)
      | .scond b dbl _ => .scond b dbl id
      | k => k }

def State.enqueue (s : State) (slot : Nat) (i : StItem) : State :=
  s.updWarp slot (fun w => { w with stq := w.stq ++ [i] })

/-- An item enters the warp's queue. An acquire fence with nothing of its thread to wait for acts at once (R270). What its
thread has sent before a release is marked: other threads of the core may act after it (R263, R272). -/
def State.queueItem (s : State) (iss : Issue) (i : StItem) : State :=
  let w := s.warp? iss.warp
  let i := { i with
    issue := iss.id
    born := s.clock
    span := s.spanOf iss.warp
    launch := (w.map Warp.launch).getD 0
    task := (w.map (fun w => (w.thread (contributor w i.thread)).taskId)).getD 0 }
  let core := coreOf iss.warp
  if i.kind == .fence && i.order == .acq
      && !(s.stqOf iss.warp ++ (s.core core).flight).any (fun j => j.sameThread i && (j.homeOp || j.ahead)) then
    s.fenceDone core i.warp i.thread i.span i.order i.scope
  else (if rels i.order then s.share iss.warp (fun j => j.sameThread i) else s).enqueue iss.warp i

/-! ### The reads of the issue -/

/-- Who reads a path's load. The handler continues its warp's program (R343). -/
def State.readerOf (s : State) (iss : Issue) (t : Nat) (before : List Fx) : Reader :=
  ⟨iss.warp, iss.id, if t = 32 then List.range 33 else [t], s.spanOf iss.warp, storesOf before⟩

/-- The performers of a uniform load: thread, the effects before it on the path, the load. -/
def lduParts (ok : List Path) (syl : Nat) : List (Nat × List Fx × Load) :=
  ok.flatMap (fun p => p.fx.zipIdx.filterMap (fun (x, k) => match x with
    | .ldu n l => if n = syl then some (p.t, p.fx.take k, l) else none
    | _ => none))

/-- Who reads a uniform load: once for all its performers, with what the lowest of them has stored before it (R188). -/
def State.lduReader (s : State) (iss : Issue) (xs : List (Nat × List Fx × Load)) : Reader :=
  ⟨iss.warp, iss.id, xs.map (·.1), s.spanOf iss.warp, storesOf ((xs.head?.map (fun x => x.2.1)).getD [])⟩

/-- The first load of a path that has not been read: its place among the effects. -/
def Path.unread (p : Path) : Option (Nat × Fx × Load) :=
  p.fx.zipIdx.findSome? (fun (x, k) => match x.read? with
    | some l => if l.val.isNone then some (k, x, l) else none
    | none => none)

/-- The next load of the issue in the warp's order that is read before the commit (R60, R262, R265): none when all have
been read or the next follows what its path does at commit. Those that are left are read there, in their order. -/
def nextRead (ok : List Path) : Option (Path × Nat × Fx × Load) :=
  match ok.findSome? (fun p => (Path.unread p).map (fun x => (p, x))) with
  | none => none
  | some (p, k, x, l) =>
    let late := match x with
      | .ldu syl _ => (lduParts ok syl).any (fun y => y.2.2.late y.2.1)
      | _ => l.late (p.fx.take k)
    if late then none else some (p, k, x, l)

/-- Give a load its values, in each path of a uniform load. -/
def Issue.setRead (iss : Issue) (t k : Nat) (x : Fx) (l : Load) : Issue :=
  { iss with paths := iss.paths.map (fun p =>
      match x with
      | .ldu syl _ => { p with fx := p.fx.map (fun y => match y with
          | .ldu n m => if n = syl then .ldu n { m with val := l.val } else y
          | _ => y) }
      | _ => if p.t = t then { p with fx := p.fx.set k (.load l) } else p) }

/-- Read it. -/
def State.readStep (s : State) (iss : Issue) (ok : List Path) (p : Path) (k : Nat) (x : Fx) (l : Load) : State :=
  let r := match x with
    | .ldu syl _ => s.lduReader iss (lduParts ok syl)
    | _ => s.readerOf iss p.t (p.fx.take k)
  let (s, l) := s.readLoad r false l
  { s with issue := some (iss.setRead p.t k x l) }

/-- The successor that a refill gives (R64). -/
def Path.refilled (p : Path) (l : Load) : Path :=
  { p with leaf := some (.go (((l.val.getD []).headD 0).setWidth 56)) }

/-- A PCIe access of a core errs: the black box records it (R380). -/
def State.pcieNote (s : State) (core slot thread : Nat) (p : Place) : State :=
  match p with
  | .mem a => s.bbox (dieOfCore core) 8 0x05 (core % 132) (warpNo slot) thread
      (((s.warp? slot).map Warp.ctx).getD 0) [BitVec.ofNat 64 a]
  | _ => s

def Place.pcie (p : Place) : Bool :=
  match p with
  | .mem a => region a = 1
  | _ => false

/-- All ones as a load's register takes them. -/
def Load.ones (l : Load) : Word := extend l.bytes l.sx (List.replicate l.bytes 0xFF)

/-- The end of a refill's read (R64), which its thread cannot go on without: a peer that no port reaches, or a word that
cannot be corrected, ends the launch; a PCIe request that errs gives all ones (R375, R380). -/
def State.refillEnd (s : State) (iss : Issue) (t : Nat) (l : Load) : State × Load :=
  let slot := iss.warp
  let launch := ((s.warp? slot).map Warp.launch).getD 0
  let clause : Word := iss.addr.zeroExtend 64
  if !s.reaches l.place then
    (s.peerLost launch (coreOf slot) (warpNo slot) t (l.place.peer.getD 0) clause l.place, l)
  else if l.val = some [] then (s.loseAt launch slot t clause l.place, l)
  else if l.place.pcie && Config.pcieFails s.tick 0 then
    (s.draw.pcieNote (coreOf slot) slot t l.place, { l with val := some [l.ones] })
  else (s, l)

/-- The record of a uniform load for its performers (R188). -/
def State.enterLdu (s : State) (xs : List (Nat × List Fx × Load)) (l : Load) : State :=
  let (id, s) := s.fresh
  let dst := match l.dst with
    | .s r _ => LoadDst.s r (xs.map (fun x => (x.1, x.2.2.flag)))
    | d => d
  { s with loads := s.loads.put id { l with dst := dst } }

/-- A uniform load that has been read: its record is made when its last performer commits (R188). -/
def State.commitLdu (s : State) (ok : List Path) (t syl : Nat) (l : Load) : State :=
  let xs := lduParts ok syl
  if (xs.getLast?.map (·.1)) != some t then s else s.enterLdu xs l

/-- What one effect of a path does when its thread commits (R60); the others belong to the boundary. -/
def State.fxCommit (iss : Issue) (ok : List Path) (a : State × Path) (x : Fx × Nat) : State × Path :=
  let (s, p) := a
  let slot := iss.warp
  match x.1 with
  | .item i => (s.queueItem iss i, p)
  | .atomLoad i l =>
    let (id, s) := s.fresh
    (State.queueItem { s with loads := s.loads.put id { l with homed := true } } iss (i.withLoad id), p)
  | .load l =>
    let (s, l) := if l.val.isSome then (s, l) else s.readLoad (s.readerOf iss p.t (p.fx.take x.2)) true l
    match l.dst with
    | .pc =>
      let (s, l) := s.refillEnd iss p.t l
      (s, p.refilled l)
    | _ =>
      let (id, s) := s.fresh
      ({ s with loads := s.loads.put id l }, p)
  | .ldu syl l => (s.commitLdu ok p.t syl l, p)
  | .cmd c => (s.send c, p)
  | .ifence =>
    ((s.force slot (fun i => i.warp = slot && oneProgram i.thread p.t)).updCore (coreOf slot) (fun c =>
      { c with l1i := [] }), p)
  | .edit t sel v => (s.updWarp slot (fun w => { w with edits := w.edits ++ [(t, sel, v)] }), p)
  | .twr t sel v => (s.twrNow slot t sel v, p)
  | _ => (s, p)

/-! ### Uniform loads that follow what their paths send (R60, R188, R264–R266)

Such a load is read once, after what it follows on every performer's path and before what follows it there, so what the
issue sends is sent effect by effect until it has been read. -/

/-- The effect is sent at the commit by its path alone. -/
def Fx.sends (x : Fx) : Bool :=
  match x with
  | .item _ | .atomLoad .. | .cmd _ | .load _ | .ifence | .edit .. | .twr .. => true
  | _ => false

/-- A uniform load that has not been read: its syllable and its load. -/
def Fx.openLdu (x : Fx) : Option (Nat × Load) :=
  match x with
  | .ldu n l => if l.val.isNone then some (n, l) else none
  | _ => none

/-- Effect k of thread t. -/
def effectAt (ps : List Path) (t k : Nat) : Option Fx := (ps.find? (fun p => p.t = t)).bind (fun p => p.fx[k]?)

/-- Effect k of thread t is sent. -/
def State.sendFx (iss : Issue) (a : State × List Path) (t k : Nat) : State × List Path :=
  match a.2.find? (fun p => p.t = t) with
  | none => a
  | some p =>
    match p.fx[k]? with
    | none => a
    | some x =>
      if !x.sends then a
      else
        let (s, q) := State.fxCommit iss a.2 (a.1, p) (x, k)
        (s, a.2.map (fun r => if r.t = t then { q with fx := q.fx.set k (.done x.flag) } else r))

/-- The uniform load follows the effect on a path. -/
def Load.follows (l : Load) (x : Fx) : Bool := l.late [x] || (x.read?.map Load.val) == some none

/-- The effect must itself come after earlier ones of its path. -/
def Fx.heavy (x : Fx) (before : List Fx) : Bool :=
  match x.item? with
  | some i => i.kind == .fence || rels i.order || (before.filterMap Fx.item?).any i.clash
  | none => true

/-- The places of the effects before a uniform load that are sent before it is read: those that it follows, or all up to the
last of them where one must come after what stands before it. -/
def dueBefore (l : Load) (before : List Fx) : List Nat :=
  let ks := (before.zipIdx.filter (fun x => l.follows x.1)).map (·.2)
  match ks.getLast? with
  | none => []
  | some m => if ks.any (fun k => (before[k]?).any (fun x => x.heavy (before.take k))) then List.range (m + 1) else ks

/-- The uniform load of syllable n is read, for all its performers. -/
def State.readLdu (iss : Issue) (a : State × List Path) (n : Nat) (l : Load) : State × List Path :=
  let xs := lduParts a.2 n
  let (s, l) := a.1.readLoad (a.1.lduReader iss xs) true l
  (s.enterLdu xs l, a.2.map (fun p => { p with fx := p.fx.map (fun x => match x with
    | .ldu k m => if k = n then .done m.flag else x
    | _ => x) }))

/-- The uniform load of syllable n, once what it follows on its performers' paths has been sent. -/
def State.sendLdu (iss : Issue) : Nat → State × List Path → Nat → Load → State × List Path
  | 0, a, _, _ => a
  | f + 1, a, n, l =>
    State.readLdu iss ((lduParts a.2 n).foldl (fun a x => (dueBefore l x.2.1).foldl (fun a k =>
      match (effectAt a.2 x.1 k).bind Fx.openLdu with
      | some (m, y) => State.sendLdu iss f a m y
      | none => State.sendFx iss a x.1 k) a) a) n l

/-- What the issue's paths send, in ascending thread number and path order, each unread uniform load in its place. -/
def State.sendAll (s : State) (iss : Issue) (ok : List Path) : State × List Path :=
  ok.foldl (fun a p => (List.range p.fx.length).foldl (fun a k =>
    match (effectAt a.2 p.t k).bind Fx.openLdu with
    | some (n, l) => State.sendLdu iss 32 a n l
    | none => State.sendFx iss a p.t k) a) (s, ok)

/-- A uniform load of the paths has not been read. -/
def lateLdu (ok : List Path) : Bool := ok.any (fun p => p.fx.any (fun x => x.openLdu.isSome))

/-- What the paths have to send before they commit one by one. -/
def State.presend (s : State) (iss : Issue) (ok : List Path) : State × List Path :=
  if lateLdu ok then s.sendAll iss ok else (s, ok)

/-- The successor (R63). -/
def Path.successor (p : Path) : Addr56 :=
  match p.leaf with
  | some (.go a) => a
  | _ => p.th.pc

/-- A thread after its clause: registers, depths, $flags, return stack, spill count, $rsp, $frame and PC of
the path, its flags raised; what the path does not hold stays as it is. -/
def Path.committed (p : Path) (now : Thread) : Thread :=
  { now with
    pc := p.successor
    v := p.th.v
    d := p.th.d
    flags := p.th.flags
    ret := p.th.ret
    spill := p.th.spill
    rsp := p.th.rsp
    frame := p.th.frame
    f := p.fx.foldl (fun f x => match x.flag with
      | some k => f.set 0 k (f.get 0 k + 1)
      | none => f) now.f
    yielded := p.fx.contains .yield
    far := 0 }

/-- One thread's commit (R60): its effects, then its state. -/
def State.commitPath (iss : Issue) (ok : List Path) (s : State) (p : Path) : State :=
  let (s, p) := p.fx.zipIdx.foldl (State.fxCommit iss ok) (s, p)
  s.updWarp iss.warp (fun w =>
    let w := w.updThread p.t p.committed
    if p.t = 32 then { w with h := p.h } else w)

/-- Uniform registers and exchange configurations take their new values (R55, R133, R201). -/
def Warp.commitUniform (w : Warp) (iss : Issue) (ok : List Path) : Warp :=
  let fx := ok.flatMap Path.fx
  let w := fx.foldl (fun w x => match x with
    | .uni r v => { w with s := w.s.set 0 r.toNat v }
    | _ => w) w
  fx.foldl (fun w x => match x with
    | .xcfg k src =>
      let v := (List.range 13).foldl (fun (n : Nat) i =>
        n + (iss.entryS.get 0 (src.toNat + i)).toNat * 2 ^ (64 * i)) 0
      { w with xc := w.xc.set 0 k.toNat (BitVec.ofNat 832 v) }
    | _ => w) w

/-- The committing paths with the matrix signatures of threads in the join's expected mask only, each with its flag
(R224). -/
def Path.expectedOnly (iss : Issue) (w : Warp) (ok : List Path) (p : Path) : Path :=
  { p with fx := p.fx.filterMap (fun x => match x with
      | .mx syl j c _ good => if bitOf (joinSeen iss w ok j).expected p.t then some (.mx syl j c iss.setB good) else none
      | x => some x) }

/-! ### The PC table (R29, R30) -/

/-- The table after an issue of `mask` at `addr`; `dying` threads take part in no entry. -/
def Warp.retire (w : Warp) (addr : Addr56) (mask dying : List Nat) : Warp :=
  match w.serial with
  | none =>
    let tbl := w.table.map (fun e =>
      if e.addr == addr then { e with members := e.members &&& ~~~maskOf mask, age := 0 }
      else { e with age := min (e.age + 1) 256 })
    let stay := mask.filter (fun t => !dying.contains t)
    let tbl := stay.foldl (fun tbl t => placeThread tbl (w.thread t).pc t) tbl
    let w := { w with table := tbl.filter (fun e => e.members != 0) }
    w.fitTable ((w.live.filter (fun t => !dying.contains t)).headD 0)
  | some _ =>
    let p := (mask.headD 0 + 1) % 32
    let alive := w.live.filter (fun t => !dying.contains t)
    Warp.fitTable { w with table := alive.foldl (fun tbl t => placeThread tbl (w.thread t).pc t) [] } p

/-! ### The boundary -/

/-- The effects of the committing threads in ascending thread number and path order. -/
def actsOf (ok : List Path) : List (Nat × Fx) := ok.flatMap (fun p => p.fx.map (fun x => (p.t, x)))

/-- JSETs in ascending syllable, one value for each (R209, R340). -/
def State.jsets (s : State) (slot : Nat) (acts : List (Nat × Fx)) : State :=
  let xs : List (Nat × Nat × Nat × Option Mask) := acts.filterMap (fun (t, x) => match x with
    | .jset j k m => some (k, j.toNat, t, m)
    | _ => none)
  (List.range 32).foldl (fun s k =>
    match xs.filter (fun x => x.1 = k) with
    | [] => s
    | (_, j, t, m) :: rest =>
      let live := ((s.warp? slot).map Warp.liveMask).getD 0
      let mask := match m with
        | some m => m &&& live
        | none => maskOf (t :: rest.map (fun x => x.2.2.1))
      s.jset slot j mask) s

/-- Signatures and barrier operations, in thread and path order (R207, R209). -/
def State.signs (slot : Nat) (dying : List Nat) (s : State) (a : Nat × Fx) : State :=
  let dies := dying.contains a.1
  match a.2 with
  | .sign j wait => s.sign slot a.1 j.toNat (wait && !dies)
  | .mx _ j c f _ => s.signMx slot a.1 j.toNat c f
  | .bar op n count d =>
    match op with
    | 0 => s.barArrive slot a.1 n
    | 1 => s.barWait slot a.1 n dies
    | 2 => (s.barArrive slot a.1 n).barWait slot a.1 n dies
    | _ => s.barSet (((s.warp? slot).map Warp.block).getD 0) n count d
  | _ => s

/-- Ring puts, once for each ring and slot, then the gets (R218, R219). -/
def State.rings (s : State) (slot : Nat) (acts : List (Nat × Fx)) (dying : List Nat) : State :=
  let puts := (acts.filterMap (fun a => match a.2 with
    | .ringPut q k => some (q, k)
    | _ => none)).eraseDups
  let s := if puts.isEmpty then s else s.release slot false
  let s := puts.foldl (fun s x => s.ringPut slot x.1 x.2) s
  acts.foldl (fun s a => match a.2 with
    | .ringGet q k ph => if dying.contains a.1 then s else s.ringGet slot a.1 q k ph
    | _ => s) s

/-- GROW (R238): the greatest n of the performing threads. -/
def State.grows (s : State) (slot : Nat) (acts : List (Nat × Fx)) (dying : List Nat) : State :=
  let xs := acts.filterMap (fun a => match a.2 with
    | .grow n => some (a.1, n)
    | _ => none)
  if xs.isEmpty then s
  else s.growAsk slot ((xs.map (·.1)).filter (fun t => !dying.contains t)) (xs.foldl (fun m x => max m x.2) 0)

/-- The token: give, then take, once each (R228). A give acts when a thread that performs it commits; its target is
that of the lowest performer, committing or not (R340). -/
def State.tokens (s : State) (iss : Issue) (acts : List (Nat × Fx)) (dying : List Nat) : State :=
  let slot := iss.warp
  let gave := acts.any (fun a => match a.2 with
    | .give .. => true
    | _ => false)
  let s := match gave, iss.giveTarget, s.warp? slot with
    | true, some x, some w => (s.release slot false).handToken w.block w.pos (some (96 * coreOf slot + x))
    | _, _, _ => s
  let takes := acts.filterMap (fun a => match a.2 with
    | .take => if dying.contains a.1 then none else some a.1
    | _ => none)
  if acts.any (fun a => a.2 == .take) then s.takeToken slot takes else s

/-- SHED (R238): the least n. -/
def State.sheds (s : State) (slot : Nat) (acts : List (Nat × Fx)) : State :=
  match acts.filterMap (fun a => match a.2 with
    | .shed n => some n
    | _ => none) with
  | [] => s
  | n :: r => s.shedTo slot (r.foldl min n)

/-! ### Waiting on an address (R198, R199) -/

def WCond.holds (c : WCond) (x y : Int) : Bool :=
  match c with
  | .eq => x = y | .ne => x ≠ y | .lt => x < y | .le => x ≤ y | .gt => x > y | .ge => x ≥ y

/-- The waits on an address of a thread, in order. -/
def Thread.waitas (th : Thread) : List Wait :=
  th.blocked.filterMap (fun b => match b with
    | .waita x => some x
    | _ => none)

/-- The bytes that a wait reads at the home: all ones where a PCIe request errs (R380). -/
def State.waitaBytes (s : State) (slot t : Nat) (p : Place) (n : Nat) : State × List Byte × List Nat :=
  if p.pcie && Config.pcieFails s.tick 0 then
    (s.draw.pcieNote (coreOf slot) slot t p, List.replicate n 0xFF, [])
  else
    let (b, ids) := s.sight (fun _ => false) p n
    ((s.sees (coreOf slot) ids).dropLine (coreOf slot) p, b, ids)

/-- One read for wait k of a thread blocked in WAITA: performed at the home; it ends the wait when the condition
holds or the deadline has come. With the acquire bit it is an acquire load, in the order of its thread's strong accesses
(R198, R248, R269, R272). It reads the newest write:
no later read need follow a wait's last (R199). A word that cannot be corrected, or at a peer that no port reaches, ends
the launch (R375, R380). -/
def State.waitaRead (s : State) (slot t k : Nat) : State :=
  match (s.warp? slot).bind (fun w => (w.thread t).waitas[k]?) with
  | none => s
  | some x =>
    let core := coreOf slot
    let n := dblBytes x.dbl
    let launch := ((s.warp? slot).map Warp.launch).getD 0
    let wide := x.acquire && x.scope != .core
    let s := s.force slot (fun i => (i.warp = slot && oneProgram i.thread t && (i.ahead || (wide && i.wide)))
      || overlap i.place i.len x.place n)
    if !s.reaches x.place then s.peerLost launch core (warpNo slot) t (x.place.peer.getD 0) 0 x.place
    else if s.lost x.place n then s.loseAt launch slot t 0 x.place else
    let (s, b, ids) := s.waitaBytes slot t x.place n
    let v := leNat b
    let rd (v : Nat) : Int := if x.signed then sgnOf (8 * n) v else (v % 2 ^ (8 * n) : Nat)
    let late : Bool := match x.deadline with
      | some d => d ≤ s.time
      | none => false
    if WCond.holds x.cond (rd v) (rd x.b.toNat) || late then
      let s := s.updWarp slot (fun w => w.updThread t (fun th =>
        { th with blocked := th.blocked.erase (.waita x), v := th.v.set 0 x.dst.toNat (BitVec.ofInt 64 (rd v)) }))
      if x.acquire then s.acquire core x.scope (s.spanOf slot) ids else s
    else s

/-- The waits of an issue that has committed (R199): the threads block, which evaluates the joins (R39), then make their
first read. -/
def State.waits (s : State) (slot at_ : Nat) (acts : List (Nat × Fx)) (dying : List Nat) : State :=
  let xs := acts.filterMap (fun a => match a.2 with
    | .waita x timeout => if dying.contains a.1 then none else some (a.1, x, timeout)
    | _ => none)
  let s := xs.foldl (fun s (t, x, timeout) =>
    let d := if timeout = 0xFFFFFFFF then none else some (at_ + timeout)
    s.updWarp slot (fun w => w.hold t (.waita { x with deadline := d }))) s
  let s := if xs.isEmpty then s else s.evalJoins slot
  (xs.map (·.1)).eraseDups.foldl (fun s t =>
    let n := (((s.warp? slot).map (fun w => (w.thread t).waitas)).getD []).length
    (List.range n).foldr (fun k s => s.waitaRead slot t k) s) s

/-! ### Traps -/

/-- The syllable number of the leaf at position p. -/
def leafSyl (h : Word) (p : Nat) : Nat :=
  ((slots h).findIdx (fun sl => sl == .leaf p)) + 1

/-- What a committed thread reports after the issue, in the order of R334: its first BKPT, its TRAP leaf,
step mode (R400). -/
def afterCommit (iss : Issue) (step : Bool) (p : Path) : Option TrapRep :=
  match p.fx.findSome? (fun x => match x with
      | .bkpt k c => some (k, c)
      | _ => none) with
  | some (k, c) => some ⟨p.t, 1, k, none, c.zeroExtend 12, 0⟩
  | none =>
    match p.leaf with
    | some (.trap c) => some ⟨p.t, 0, leafSyl iss.header p.pos, none, c, 0⟩
    | some .exit => none
    | _ => if step then some ⟨p.t, 3, 0, none, 0, 0⟩ else none

/-- Every report of the issue, in ascending thread number (R338, R398). -/
def reportsOf (iss : Issue) (step : Bool) : List TrapRep :=
  (List.range 33).filterMap (fun t =>
    if t < 32 && bitOf iss.broke t then some ⟨t, 1, 0, none, 0, 0⟩
    else match iss.paths.find? (fun p => p.t = t) with
      | none => none
      | some p =>
        match p.fault with
        | some f => some ⟨t, f.kind, f.syl, f.exp, 0, f.detail⟩
        | none => afterCommit iss step p)

/-- The record of R377 that goes with the end of a launch by a trap. -/
def trapCheck (slot kind thread : Nat) (clause : Word) : MCheck :=
  mcheck kind (dieOf slot) 0 0 (coreOf slot % 132) (warpNo slot) thread clause

/-- Hand a frozen warp to the debugger (R396). -/
def State.escalate (s : State) (slot : Nat) (w : Warp) (detail : List Word) : State :=
  (s.setWarp slot { w with freeze := some .escalated }).bbox (dieOf slot) 0 0x07 (coreOf slot % 132)
    (warpNo slot) (primaryOf w) w.ctx detail

def State.hasDebugger (s : State) (ctx : Nat) : Bool := ((s.ctxs.get? ctx).map Ctx.debugger).getD false

/-- A fault in the handler's own clause (R395): the handler is abandoned; its fault goes to the debugger, or
the launch ends. -/
def State.doubleFault (s : State) (slot : Nat) (addr : Addr56) (r : TrapRep) : State :=
  match s.warp? slot with
  | none => s
  | some w =>
    let a : Word := addr.zeroExtend 64
    let w := { w with threads := w.threads.del 32, double := some (addr, r.word) }
    let s := (s.setWarp slot w).freeBank slot
    let detail := [w.trappc, w.trapinfo, a, r.word]
    if s.hasDebugger w.ctx then s.escalate slot w detail
    else
      (s.bbox (dieOf slot) 0 0x06 (coreOf slot % 132) (warpNo slot) (primaryOf w) w.ctx detail).doom w.launch
        0x00030003 (trapCheck slot r.kind (primaryOf w) a)

/-- A flag of a thread whose routine is abandoned: what it counted before, and what the routine's own
operations still hold up. -/
def refill (c th : Thread) (w : Warp) (t : Nat) : SMap Nat :=
  (List.range 12).foldl (fun m k => m.set 0 k (c.f.get 0 k + th.f.get 0 k - w.owed t k)) []

/-- A save routine is abandoned: the warp stands as it was captured, with the v registers as the routine left
them (R309; notes/assumptions/40.md). -/
def Warp.putBack (w : Warp) : Warp :=
  Warp.rebuild { w with
    threads := w.captured.map (fun (t, c) =>
      (t, { c with v := (w.thread t).v, f := refill c (w.thread t) w t }))
    joins := w.capJoins
    s := w.capS
    xc := w.capXc
    captured := []
    capJoins := []
    capS := []
    capXc := [] }

/-- A fault or misuse in a save routine ends soft saving for the warp (R386). -/
def State.abandonSave (s : State) (slot : Nat) (addr : Addr56) (kind : Nat) : State :=
  match s.warp? slot with
  | none => s
  | some w =>
    (s.setWarp slot { w.putBack with save := some .stopping }).bbox (dieOf slot) 0 0x09 (coreOf slot % 132)
      (warpNo slot) 0xFF w.ctx [addr.zeroExtend 64, BitVec.ofNat 64 kind]

/-- The fetch failed because the code lies in another world (R324). -/
def State.hiddenCode (s : State) (slot : Nat) (va : Word) : Bool :=
  match s.translate (((s.warp? slot).map Warp.ctx).getD 0) va .x with
  | .error k => k = 26
  | .ok _ => false

/-- A world violation that a thread reports is also entered in the black box (R378). -/
def State.noteWorld (s : State) (slot : Nat) (rs : List TrapRep) : State :=
  rs.foldl (fun s r =>
    if r.kind = 26 || (r.kind = 24 && s.hiddenCode slot r.detail) then
      s.bbox (dieOf slot) 0 0x03 (coreOf slot % 132) (warpNo slot) r.thread
        (((s.warp? slot).map Warp.ctx).getD 0) [r.detail, BitVec.ofNat 64 r.thread]
    else s) s

/-- The traps of an issue (R338, R386, R395). What the warp has sent is not hastened (R343). -/
def State.traps (s : State) (slot : Nat) (addr : Addr56) (rs : List TrapRep) : State :=
  match rs, s.warp? slot with
  | [], _ | _, none => s
  | r :: _, some w =>
    let s := s.noteWorld slot rs
    if r.thread = 32 then s.doubleFault slot addr r
    else if w.save = some .routine then s.abandonSave slot addr (((primaryRep rs).map TrapRep.kind).getD 0)
    else s.takeTrap slot addr rs

/-! ### The end of an issue -/

def StItem.isScond (i : StItem) : Bool :=
  match i.kind with
  | .scond .. => true
  | _ => false

/-- The threads that take an EXIT leaf. -/
def exiting (ok : List Path) : List Nat := (ok.filter (fun p => p.leaf == some .exit)).map Path.t

/-- EXIT leaves: threads die; in a save or restore routine they end the routine (R66, R308, R347). An SCOND
of a dying thread is performed first. -/
def State.exits (s : State) (slot : Nat) (ts : List Nat) : State :=
  match s.warp? slot with
  | none => s
  | some w =>
    if w.save = some .routine || w.save = some .restoring then
      s.setWarp slot (ts.foldl (fun w t => w.updThread t (fun th => { th with routineEnd := true })) w)
    else
      ts.foldl (fun s t => s.kill slot t) (s.force slot (fun i => i.warp = slot && ts.contains i.thread && i.isScond))

/-- The cost of the issue (R67): the stretches completed, and the last. -/
def Issue.total (iss : Issue) : Nat := iss.cost + stretchCost iss.paths

/-- The clause boundary's actions on the rest of the warp and block, in their order. -/
def State.boundary (s : State) (iss : Issue) (ok : List Path) (dying : List Nat) : State :=
  let slot := iss.warp
  let acts := actsOf ok
  let s := s.jsets slot acts
  let s := acts.foldl (State.signs slot dying) s
  let s := s.rings slot acts dying
  let s := s.grows slot acts dying
  let s := s.evalJoins slot
  let s := s.tokens iss acts dying
  let s := s.sheds slot acts
  let s := s.waits slot (s.timeBase + (iss.clock0 + iss.total) * 5 / 6) acts dying
  let s := acts.foldl (fun s a => match a.2 with
    | .tdone => s.taskDone slot a.1 iss.addr
    | _ => s) s
  s.evalJoins slot

/-- The paths that commit: they have reached their leaves without a fault. -/
def Issue.clean (iss : Issue) : List Path := iss.paths.filter (fun p => p.fault.isNone && p.leaf.isSome)

/-- The SCONDs of the issue that are still queued are performed before a trap clears the reservations of its warp: a pair on
one path of one clause has its outcome whether or not the clause ends in a trap (R366). -/
def State.finishPairs (s : State) (iss : Issue) (ok : List Path) : State :=
  if ok.any (fun p => p.fx.any (fun x => (x.item?.map StItem.isScond).getD false)) then
    s.force iss.warp (fun i => i.warp = iss.warp && i.issue = iss.id && i.isScond)
  else s

/-- The issue ends: its threads commit or roll back, the warp's table is updated, and the lane is busy for
its cost. A thread that ends a save or restore routine does not die: it waits for what its clause makes it wait for (R308). -/
def State.finishIssue (s : State) (iss : Issue) : State :=
  let slot := iss.warp
  let ok := match s.warp? slot with
    | some w => iss.clean.map (Path.expectedOnly iss w iss.clean)
    | none => iss.clean
  let mask := threadsOf iss.broke ++ iss.paths.map Path.t
  let step : Bool := match s.warp? slot with
    | some w => w.dbg.step && w.freeze.isNone && w.save.isNone
    | none => false
  let s := { s with issue := none, clock := max s.clock (iss.clock0 + iss.total) }
  let (s, sent) := s.presend iss ok
  let s := sent.foldl (State.commitPath iss sent) s
  let s := s.updWarp slot (fun w => w.commitUniform iss ok)
  let dying := if ((s.warp? slot).bind Warp.save).isSome then [] else exiting ok
  let s := if mask.contains 32 then s else s.updWarp slot (fun w => w.retire iss.addr mask dying)
  let s := s.boundary iss ok dying
  let s := s.exits slot (exiting ok)
  let reports := reportsOf iss step
  let s := (if reports.isEmpty then s else s.finishPairs iss ok).traps slot iss.addr reports
  let s := if ok.any (fun p => p.fx.contains .tret) then (s.trapReturn slot).evalJoins slot else s
  let s := s.updLane (laneOf slot) (fun l =>
    { l with busy := max l.busy (iss.clock0 + iss.total), granted := false })
  s.warpEnd slot

end Sys2Proof.Machine
end

