-- ==== Sys2Proof/Machine/Issue.lean ====
section
/-! DEFINITION. CLAUSE_ISSUE and SERIAL_ISSUE: the start of an issue (R29, R30, R336, R398) and, when its
syllables have been performed, its end; and the event that comes next when no issue is in progress. -/

namespace Sys2Proof.Machine

/-- The threads of the path set that an enabled breakpoint of the warp matches (R398, R399). None matches in
the handler or in a save or restore routine (R393, R386). -/
def Warp.brokeAt (w : Warp) (a : Addr56) (ts : List Nat) : Mask :=
  if w.freeze.isSome || w.save.isSome then 0
  else
    let m : Mask := w.dbg.bps.toList.foldl (fun m b => if b.enable && b.addr == a then m ||| b.mask else m) 0
    m &&& maskOf (ts.filter (fun t => !(w.thread t).resume && (w.thread t).far == 0))

/-- No thread of the path set fetches the clause at `a`: each has a start address beyond 56 bits, of which it cannot fetch
(R404), or is stopped by a breakpoint first (R398). -/
def Warp.fetchless (w : Warp) (a : Addr56) (ts : List Nat) : Bool :=
  let broke := { w with dbg := w.dbgNext.getD w.dbg }.brokeAt a ts
  !ts.isEmpty && ts.all (fun t => (bitOf broke t && t != 32) || (w.thread t).far != 0)

/-- A path at the entry of the clause: `f` is what the fetch raises, and a start address beyond 56 bits cannot be
fetched (R390, R404). -/
def Warp.path (w : Warp) (f : Option PFault) (t : Nat) : Path :=
  let th := w.thread t
  { t := t, th := th, pos := 1, next := 0, h := if t = 32 then w.h else [], fx := [], weight := 0,
    fault := if th.far = 0 then f else some ⟨24, 0, none, th.far ++ th.pc⟩, leaf := none }

/-- The header and syllables at an address, or the fault of every thread of the path set (R336). -/
def State.fetchClause (s : State) (core ctx : Nat) (a : Addr56) : Except PFault (Word × List Word) :=
  match s.codeWord core ctx a.toNat with
  | none => .error ⟨24, 0, none, a.zeroExtend 64⟩
  | some h =>
    if !headerOk h then .error ⟨5, 0, none, h⟩
    else match s.codeWords core ctx a 1 (slots h).length with
      | .error x => .error ⟨24, 0, none, BitVec.ofNat 64 x⟩
      | .ok ws => .ok (h, ws)

/-- When a restored warp first issues, no core on which its context is restored holds an L1 line (R332). -/
def State.dropRestored (s : State) (ctx : Nat) : State :=
  ((s.blocks.vals.filter (fun b => b.ctx = ctx
    && b.warps.any (fun x => ((s.warp? x).map Warp.restored).getD false))).flatMap Block.cores).foldl State.discardL1 s

/-- What a warp's next issue changes in it: new debug settings hold (R397), the marks and resume bits of the path set
clear (R151, R399). -/
def Warp.issuing (w : Warp) (ts : List Nat) : Warp :=
  ts.foldl (fun w t => w.updThread t (fun th => { th with resume := false, yielded := false }))
    { w with dbg := w.dbgNext.getD w.dbg, dbgNext := none, restored := false }

/-- Start an issue at address `a` for the path set `ts`: breakpoints first, then the fetch and the header
(R398). -/
def State.beginIssue (s : State) (slot : Nat) (w : Warp) (a : Addr56) (ts : List Nat) : State :=
  let core := coreOf slot
  let s := if w.restored then s.dropRestored w.ctx else s
  let w := { w with dbg := w.dbgNext.getD w.dbg }
  let broke := w.brokeAt a ts
  let run := ts.filter (fun t => !bitOf broke t || t = 32)
  let (h, ws, f) : Word × List Word × Option PFault :=
    if w.fetchless a ts then (0, [], none)
    else match s.fetchClause core w.ctx a with
      | .ok (h, ws) => (h, ws, none)
      | .error f => (0, [], some f)
  let t := s.setWarp slot (w.issuing ts)
  let (id, s) := (if w.fetchless a ts then t else t.fillCode core w.ctx a (1 + ws.length)).fresh
  { s.draw with burst := Config.burst s.tick + 1, issue := some {
      id := id, warp := slot, addr := a, header := h, words := ws, paths := run.map (w.path f),
      entry := w.threads, entryJoins := w.joins, entryS := w.s, entryXc := w.xc, clock0 := s.clock, cost := 0,
      broke := broke, serial := w.serial.isSome && w.freeze.isNone, judged := false } }

/-- A word of the clause at `a` that the fetch would take from memory and that cannot be corrected (R375). -/
def State.lostFetch (s : State) (core ctx : Nat) (a : Addr56) : Option Nat :=
  let n := match s.fetchClause core ctx a with
    | .ok (_, ws) => 1 + ws.length
    | .error _ => 1
  (List.range n).findSome? (fun k => (s.codePlace ctx (sylAddr a k)).bind (fun pa =>
    if ((s.core core).l1i.get? (pa / 256)).isNone && s.lost (.mem pa) 8 then some pa else none))

/-- The warp issues when its lane has been granted to it (R43), no other is to replace it, and some of its threads are
ready. -/
def State.startIssue (s : State) (slot : Nat) (serial : Bool) : State :=
  match s.warp? slot with
  | none => s
  | some w =>
    if s.activeSlot (laneOf slot) = slot && (s.lane (laneOf slot)).granted && !s.mustSwap (laneOf slot) && !s.stopped w
        && (w.serial.isSome && w.freeze.isNone) == serial then
      match s.choose slot w with
      | some (a, ts) =>
        match if w.fetchless a ts then none else s.lostFetch (coreOf slot) w.ctx a with
        | some pa => s.doom w.launch 0x00010002
            (mcheck 25 (dieOf slot) 6 pa (coreOf slot % 132) (warpNo slot) 0xFF (a.zeroExtend 64))
        | none => s.beginIssue slot w a ts
      | none => s
    else s

/-- The path whose syllable the issue performs next; without a runner every path that goes on stands at a collective.
None when the issue is at its end. -/
def Issue.current (iss : Issue) : Option Path := iss.runner.or iss.going.head?

/-- An issue in progress takes its next turn. -/
def State.resumeIssue (s : State) (slot : Nat) (iss : Issue) : State :=
  { s.draw with issue := some iss, parked := s.parked.del slot, burst := Config.burst s.tick + 1 }

/-- The issue leaves the next steps to others. -/
def State.park (s : State) (iss : Issue) : State :=
  { s with issue := none, parked := s.parked.put iss.warp iss }

/-- The step that an issue's end or turn is. -/
def Issue.instr (iss : Issue) : Instr := if iss.serial then .serialIssue else .clauseIssue

/-- The end of an issue whose paths have all come to theirs, a step at a time: the verdicts that need all of them
(R228, R360), the reads of the threads that commit in the warp's order (R265), then commit. -/
def State.endStep (s : State) (iss : Issue) : State :=
  if !iss.judged then
    match s.warp? iss.warp with
    | some w => { s with issue := some { iss with paths := s.verdicts iss w, judged := true } }
    | none => { s with issue := some { iss with judged := true } }
  else match nextRead iss.clean with
    | some (p, k, x, l) => s.readStep iss iss.clean p k x l
    | none => (s.finishIssue iss).endBlocks.reap.endBlocks.noteAll

/-- CLAUSE_ISSUE and SERIAL_ISSUE. -/
def State.issueStep (s : State) (serial : Bool) : Result :=
  match s.issue with
  | none =>
    match s.parked.get? s.turn.ix with
    | some iss => .next (if iss.serial == serial then s.resumeIssue s.turn.ix iss else s)
    | none => .next (s.startIssue s.turn.ix serial)
  | some iss => .next (if iss.serial == serial && iss.current.isNone then s.endStep iss else s)

def execClauseIssue (s : State) : Result := s.issueStep false

def execSerialIssue (s : State) : Result := s.issueStep true

/-- The cycle by which an item has reached its home (R331). -/
def StItem.due (i : StItem) : Nat := i.born + Config.performBound

/-- The time within which an item reaches its home has run out. -/
def State.late (s : State) (i : StItem) : Bool := i.due ≤ s.clock

/-- The step by which an item that has left its queue arrives. -/
def StItem.instr (i : StItem) : Instr :=
  match i.kind with
  | .store _ | .fence => .storePerform
  | .atom .. | .scond .. => .atomicAtHome
  | .contrib .. => .orderedContributionArrival
  | .ordf _ => .ordfApplication

/-- The item on its way from a core whose step comes because time has run out: the first late one that may be performed,
or one that such an item waits for, of those that a port reaches (R331, R380). -/
def State.overdueAt (s : State) (fl : List StItem) : Option (StItem × Nat) :=
  let late (i : StItem) : Bool := s.late i && s.reaches i.place
  let may (x : StItem × Nat) : Bool := s.reaches x.1.place && mayPerform fl x.2
  (fl.zipIdx.find? (fun x => late x.1 && may x)).or
    (if fl.any late then (fl.zipIdx.take (fl.findIdx late)).find? may else none)

/-- The cycle by which an item to a peer that no port reaches has failed: within 10 ms of the time by which it would have
reached its home (R331, R380; DESIGN CHOICE, notes/assumptions/80.md). -/
def StItem.lapse (i : StItem) : Nat := i.due + 12000000

/-- An item on its way from a core that has failed so. -/
def State.lapsedAt (s : State) (fl : List StItem) : Option Nat :=
  (fl.zipIdx.find? (fun x => !s.reaches x.1.place && x.1.lapse ≤ s.clock)).map (·.2)

/-- The step of a store or atomic whose time has run out: on its way from a core, to its home or to a peer that cannot be
reached, or at the head of a warp's queue (R331, R380). -/
def State.overdue (s : State) : Option (Instr × Turn) :=
  ((s.cores.findSome? (fun x => (s.overdueAt x.2.flight).map (fun (i, k) =>
    (i.instr, { Turn.zero with ix := x.1, k := k })))).or
  (s.cores.findSome? (fun x => (s.lapsedAt x.2.flight).map (fun k =>
    (.peerUnreachable, { Turn.zero with ix := x.1, k := k, m := 1 }))))).or
  (s.warps.findSome? (fun x => match x.2.stq with
    | i :: _ => if s.late i then some (.storePerform, { Turn.zero with ix := x.1, flag := true }) else none
    | [] => none))

/-- The time that passes before the machine's next own step: never past the cycle by which an item is due, or has failed
(R331, R380). -/
def State.passes (s : State) : Nat :=
  let items := s.cores.vals.flatMap Core.flight ++ s.warps.vals.flatMap Warp.stq
  let dues := items.map StItem.due ++ items.map StItem.lapse
  (dues.filter (s.clock < ·)).foldl (fun n d => min n (d - s.clock)) (Config.elapsed s.tick)

/-- The next event when no issue has the turn: what is overdue, then what stands first on the agenda, once no issue is
in progress, or the machine's own next step, before which time passes (R23, R43). -/
def State.nextEvent (s : State) : Instr × State :=
  match s.overdue, s.agenda, s.parked with
  | some (i, t), _, _ => (i, { s with turn := t })
  | none, (i, t) :: rest, [] => (i, { s with agenda := rest, turn := t })
  | none, _ :: _, (slot, iss) :: _ => (iss.instr, { s with turn := { Turn.zero with ix := slot } })
  | none, [], _ =>
    let (i, t) := Config.schedule s.tick
    (i, { s.draw with clock := s.clock + s.passes, turn := t })

/-- What step does next: an instruction on a state, or a syllable that is none. -/
inductive Next where
  | run (i : Instr) (s : State)
  | bad (b : Bad) (w : Word) (s : State)

/-- The next instruction: the syllable of the issue that has the turn, its end, or the next event. -/
def State.fetchNext (s : State) : Next :=
  match s.issue, s.burst with
  | none, _ => let (i, s) := s.nextEvent; .run i s
  | some iss, 0 => let (i, s) := (s.park iss).nextEvent; .run i s
  | some iss, n + 1 =>
    let s := { s with burst := n }
    match iss.current with
    | some p =>
      match iss.reads p with
      | .ok i => .run i s
      | .error b => .bad b (iss.word p) s
    | none => .run iss.instr s

end Sys2Proof.Machine
end

