-- ==== Sys2Proof/Machine/Alu.lean ====
section
/-! DEFINITION. Page 0: integer arithmetic (R131–R137, R79, R80). -/

namespace Sys2Proof.Machine

/-! ### Elements -/

/-- Lowest and highest value of an element (R132). -/
def loI (ty : ITy) : Int := if ty.signed then -(2 : Int) ^ (wI ty - 1) else 0

def hiI (ty : ITy) : Int := if ty.signed then (2 : Int) ^ (wI ty - 1) - 1 else (2 : Int) ^ wI ty - 1

/-- Clamp under .sat; without it the write reduces modulo 2^w (R132). -/
def satI (ty : ITy) (sat : Bool) (x : Int) : Int := if sat then max (loI ty) (min x (hiI ty)) else x

/-- Apply to each element of one, two or three sources, and write through the type. -/
def map1 (ty : ITy) (f : Int → Int) (a : Word) : Word :=
  writeI ty ((List.range ty.count).map (fun i => f (elemI ty a i)))

def map2 (ty : ITy) (f : Int → Int → Int) (a b : Word) : Word :=
  writeI ty ((List.range ty.count).map (fun i => f (elemI ty a i) (elemI ty b i)))

def map3 (ty : ITy) (f : Int → Int → Int → Int) (a b c : Word) : Word :=
  writeI ty ((List.range ty.count).map (fun i => f (elemI ty a i) (elemI ty b i) (elemI ty c i)))

/-- DIV (R135). -/
def divI (ty : ITy) (sat : Bool) (a b : Int) : Int :=
  if b = 0 then
    if !ty.signed then hiI ty
    else if sat then (if 0 ≤ a then hiI ty else loI ty) else -1
  else if ty.signed && a = loI ty && b = -1 then (if sat then hiI ty else loI ty)
  else a.tdiv b

/-- REM (R135). -/
def remI (ty : ITy) (a b : Int) : Int :=
  if b = 0 then a else if ty.signed && a = loI ty && b = -1 then 0 else a.tmod b

/-- Weight of DIV and REM (R135). -/
def divWeight (ty : ITy) : Nat := if ty.scalar && wI ty ≤ 32 then 4 else 8

/-- MADW (R136). -/
def madwI (signed sat : Bool) (a b c : Word) : Word :=
  let v (w : Nat) (x : Word) : Int := if signed then sgnOf w x.toNat else (x.toNat % 2 ^ w : Nat)
  let x := v 32 a * v 32 b + v 64 c
  let ty : ITy := if signed then .i64 else .n64
  BitVec.ofInt 64 (satI ty sat x)

/-- LEA (R137). -/
def leaI (ty : ITy) (a b c : Word) : Word :=
  BitVec.ofInt 64 (a.toNat + elemI ty b 0 * 2 ^ (c.toNat % 64))

/-! ### Operations with one destination -/

/-- One, two or three sources under a type, one destination. -/
def State.op1 (s : State) (i : Instr) (g : Guard) (wt : Nat) (ty : DTy) (d a : Operand) (f : Word → Word) :
    Result :=
  s.alu i g wt (fun s iss w p => p.setDst d (f (s.rdD iss w p ty a)))

def State.op2 (s : State) (i : Instr) (g : Guard) (wt : Nat) (ty : DTy) (d a b : Operand)
    (f : Word → Word → Word) : Result :=
  s.alu i g wt (fun s iss w p => p.setDst d (f (s.rdD iss w p ty a) (s.rdD iss w p ty b)))

def State.op3 (s : State) (i : Instr) (g : Guard) (wt : Nat) (ty : DTy) (d a b c : Operand)
    (f : Word → Word → Word → Word) : Result :=
  s.alu i g wt (fun s iss w p =>
    p.setDst d (f (s.rdD iss w p ty a) (s.rdD iss w p ty b) (s.rdD iss w p ty c)))

/-- An immediate, sign-extended to 64 bits (R80). -/
def immWord {n : Nat} (imm : BitVec n) : Word := imm.signExtend 64

/-! ### The instructions -/

def execAdd (g : Guard) (d a b : Operand) (ty : ITy) (sat : Bool) (s : State) : Result :=
  s.op2 (.add g d a b ty sat) g 1 (.i ty) d a b (map2 ty (fun x y => satI ty sat (x + y)))

def execSub (g : Guard) (d a b : Operand) (ty : ITy) (sat : Bool) (s : State) : Result :=
  s.op2 (.sub g d a b ty sat) g 1 (.i ty) d a b (map2 ty (fun x y => satI ty sat (x - y)))

def execMul (g : Guard) (d a b : Operand) (ty : ITy) (sat : Bool) (s : State) : Result :=
  s.op2 (.mul g d a b ty sat) g 1 (.i ty) d a b (map2 ty (fun x y => satI ty sat (x * y)))

def execMulh (g : Guard) (d a b : Operand) (ty : ITy) (s : State) : Result :=
  s.op2 (.mulh g d a b ty) g 1 (.i ty) d a b (map2 ty (fun x y => (x * y).fdiv (2 ^ wI ty)))

def execMad (g : Guard) (d a b c : Operand) (ty : ITy) (sat : Bool) (s : State) : Result :=
  s.op3 (.mad g d a b c ty sat) g 1 (.i ty) d a b c (map3 ty (fun x y z => satI ty sat (x * y + z)))

/-- MADW (R136). DESIGN CHOICE: an inline integer as c is sign-extended to its 64 bits (notes/assumptions/52.md). -/
def execMadw (g : Guard) (d a b c : Operand) (signed sat : Bool) (s : State) : Result :=
  s.op3 (.madw g d a b c signed sat) g 1 (.i .i64) d a b c (madwI signed sat)

def execDiv (g : Guard) (d a b : Operand) (ty : ITy) (sat : Bool) (s : State) : Result :=
  s.op2 (.div g d a b ty sat) g (divWeight ty) (.i ty) d a b (map2 ty (divI ty sat))

def execRem (g : Guard) (d a b : Operand) (ty : ITy) (s : State) : Result :=
  s.op2 (.rem g d a b ty) g (divWeight ty) (.i ty) d a b (map2 ty (remI ty))

def execMin (g : Guard) (d a b : Operand) (ty : ITy) (s : State) : Result :=
  s.op2 (.min g d a b ty) g 1 (.i ty) d a b (map2 ty min)

def execMax (g : Guard) (d a b : Operand) (ty : ITy) (s : State) : Result :=
  s.op2 (.max g d a b ty) g 1 (.i ty) d a b (map2 ty max)

def execAbs (g : Guard) (d a : Operand) (ty : ITy) (sat : Bool) (s : State) : Result :=
  s.op1 (.abs g d a ty sat) g 1 (.i ty) d a (map1 ty (fun x => satI ty sat (if x < 0 then -x else x)))

def execNeg (g : Guard) (d a : Operand) (ty : ITy) (sat : Bool) (s : State) : Result :=
  s.op1 (.neg g d a ty sat) g 1 (.i ty) d a (map1 ty (fun x => satI ty sat (-x)))

/-- The base and the shift are read as 64 bits, the index through the type (R137). -/
def execLea (g : Guard) (d a b c : Operand) (ty : ITy) (s : State) : Result :=
  s.alu (.lea g d a b c ty) g 1 (fun s iss w p =>
    p.setDst d (leaI ty (s.rd iss w p a) (s.rdI iss w p ty b) (s.rd iss w p c)))

/-- The immediate forms (R79, R80): b is the immediate. -/
def execAddImm (g : Guard) (d a : Operand) (ty : ImTy) (imm : BitVec 29) (s : State) : Result :=
  s.op1 (.addImm g d a ty imm) g 1 (.i ty.ty) d a (fun x => map2 ty.ty (· + ·) x (immWord imm))

/-- The reversed form: imm − a. -/
def execSubRevImm (g : Guard) (d a : Operand) (ty : ImTy) (imm : BitVec 29) (s : State) : Result :=
  s.op1 (.subRevImm g d a ty imm) g 1 (.i ty.ty) d a (fun x => map2 ty.ty (· - ·) (immWord imm) x)

def execMulImm (g : Guard) (d a : Operand) (ty : ImTy) (imm : BitVec 29) (s : State) : Result :=
  s.op1 (.mulImm g d a ty imm) g 1 (.i ty.ty) d a (fun x => map2 ty.ty (· * ·) x (immWord imm))

def execMinImm (g : Guard) (d a : Operand) (ty : ImTy) (imm : BitVec 29) (s : State) : Result :=
  s.op1 (.minImm g d a ty imm) g 1 (.i ty.ty) d a (fun x => map2 ty.ty min x (immWord imm))

def execMaxImm (g : Guard) (d a : Operand) (ty : ImTy) (imm : BitVec 29) (s : State) : Result :=
  s.op1 (.maxImm g d a ty imm) g 1 (.i ty.ty) d a (fun x => map2 ty.ty max x (immWord imm))

def execLeaImm (g : Guard) (d a : Operand) (imm : BitVec 29) (s : State) : Result :=
  s.op1 (.leaImm g d a imm) g 1 (.i .i64) d a (fun x => x + immWord imm)

end Sys2Proof.Machine
end

