-- ==== Sys2Proof/Machine/Crypto.lean ====
section
/-! DEFINITION. The two functions that R317 and R318 name: SHAKE256 with an output of 64 bytes, and the verification of
a Falcon-1024 signature. The spec names them and leaves their contents to their standards, FIPS 202 and the Falcon
specification 1.2 (PRESUMED, notes/assumptions/61.md). -/

namespace Sys2Proof.Machine

/-! ### SHAKE256 -/

/-- The 25 lanes, lane x + 5·y. -/
abbrev Keccak := List (BitVec 64)

def laneAt (a : Keccak) (x y : Nat) : BitVec 64 := a.getD (x % 5 + 5 * (y % 5)) 0

def keccakRot : List Nat :=
  [0, 1, 62, 28, 27, 36, 44, 6, 55, 20, 3, 10, 43, 25, 39, 41, 45, 15, 21, 8, 18, 2, 61, 56, 14]

def keccakRc : List (BitVec 64) :=
  [0x0000000000000001, 0x0000000000008082, 0x800000000000808A, 0x8000000080008000, 0x000000000000808B,
   0x0000000080000001, 0x8000000080008081, 0x8000000000008009, 0x000000000000008A, 0x0000000000000088,
   0x0000000080008009, 0x000000008000000A] ++
  [0x000000008000808B, 0x800000000000008B, 0x8000000000008089, 0x8000000000008003, 0x8000000000008002,
   0x8000000000000080, 0x000000000000800A, 0x800000008000000A, 0x8000000080008081, 0x8000000000008080,
   0x0000000080000001, 0x8000000080008008]

/-- A new state from a function of column and row. -/
def lanesOf (f : Nat → Nat → BitVec 64) : Keccak := (List.range 25).map (fun i => f (i % 5) (i / 5))

def keccakTheta (a : Keccak) : Keccak :=
  let c := (List.range 5).map (fun x =>
    laneAt a x 0 ^^^ laneAt a x 1 ^^^ laneAt a x 2 ^^^ laneAt a x 3 ^^^ laneAt a x 4)
  lanesOf (fun x y => laneAt a x y ^^^ c.getD ((x + 4) % 5) 0 ^^^ (c.getD ((x + 1) % 5) 0).rotateLeft 1)

/-- Rotation of the lanes and their new places. -/
def keccakRhoPi (a : Keccak) : Keccak :=
  lanesOf (fun x y =>
    let x' := (x + 3 * y) % 5
    (laneAt a x' x).rotateLeft (keccakRot.getD (x' + 5 * x) 0))

def keccakChi (a : Keccak) : Keccak :=
  lanesOf (fun x y => laneAt a x y ^^^ (~~~laneAt a (x + 1) y &&& laneAt a (x + 2) y))

def keccakRound (a : Keccak) (rc : BitVec 64) : Keccak :=
  match keccakChi (keccakRhoPi (keccakTheta a)) with
  | [] => []
  | l :: r => (l ^^^ rc) :: r

def keccakF (a : Keccak) : Keccak := keccakRc.foldl keccakRound a

/-- The rate in bytes. -/
def shakeRate : Nat := 136

/-- A block of the padded input is absorbed. -/
def absorbBlock (a : Keccak) (b : List Byte) : Keccak :=
  keccakF (a.zipIdx.map (fun (l, i) =>
    if i < 17 then l ^^^ BitVec.ofNat 64 (leNat ((b.drop (8 * i)).take 8)) else l))

/-- The bytes with the padding of SHAKE: 0x1F after them and 0x80 in the last byte of the block. -/
def shakePad (b : List Byte) : List Byte :=
  let n := shakeRate - b.length % shakeRate
  b ++ (if n = 1 then [0x9F] else 0x1F :: (List.replicate (n - 2) 0 ++ [0x80]))

def absorbAll : Nat → List Byte → Keccak → Keccak
  | 0, _, a => a
  | n + 1, b, a => absorbAll n (b.drop shakeRate) (absorbBlock a (b.take shakeRate))

/-- The sponge after its input. -/
def shakeState (b : List Byte) : Keccak :=
  let p := shakePad b
  absorbAll (p.length / shakeRate) p (List.replicate 25 0)

/-- A block of output. -/
def shakeBlock (a : Keccak) : List Byte := (a.take 17).flatMap (fun l => leBytes 8 l.toNat)

/-- SHAKE256 with 64 bytes of output (R317, R318). -/
def shake256 (b : List Byte) : List Byte := (shakeBlock (shakeState b)).take 64

/-! ### Falcon-1024 -/

def falconQ : Nat := 12289

/-- Bits, the highest of each byte first. -/
def bitList (b : List Byte) : List Bool := b.flatMap (fun x => (List.range 8).map (fun i => x.getLsbD (7 - i)))

/-- The value of bits, the highest first. -/
def bitsVal (b : List Bool) : Nat := b.foldl (fun n x => 2 * n + (if x then 1 else 0)) 0

/-- Coefficients of the public key: n of 14 bits, each below q. -/
def keyPoly : Nat → List Bool → Option (List Nat)
  | 0, _ => some []
  | n + 1, b =>
    let v := bitsVal (b.take 14)
    if falconQ ≤ v then none else (keyPoly n (b.drop 14)).map (v :: ·)

/-- A compressed polynomial: for each coefficient a sign, seven low bits, and the rest in unary; no coefficient is
minus zero, and nothing but zeros follows. -/
def sigPoly : Nat → List Bool → Option (List Int)
  | 0, b => if b.all (fun x => !x) then some [] else none
  | n + 1, b =>
    let high := (b.drop 8).takeWhile (fun x => !x)
    let v := bitsVal ((b.take 8).drop 1) + 128 * high.length
    if b.length ≤ 8 + high.length || (b.headD false && v = 0) then none
    else (sigPoly n (b.drop (9 + high.length))).map ((if b.headD false then -(v : Int) else v) :: ·)

/-- 16-bit big-endian samples of a block below 5·q, modulo q. -/
def pointSamples : List Byte → List Nat
  | x :: y :: r =>
    let t := 256 * x.toNat + y.toNat
    if t < 5 * falconQ then t % falconQ :: pointSamples r else pointSamples r
  | _ => []

/-- Samples of successive blocks until n stand; the blocks are bounded. -/
def hashPoint (n : Nat) : Nat → Keccak → List Nat → List Nat
  | 0, _, got => got.take n
  | k + 1, a, got =>
    if n ≤ got.length then got.take n else hashPoint n k (keccakF a) (got ++ pointSamples (shakeBlock a))

/-- Coefficient k of the product modulo x^n + 1. -/
def mulCoeff (n k : Nat) (a : List Int) (b : List Nat) : Int :=
  (a.zipIdx.map (fun (x, i) =>
    if i ≤ k then x * (b.getD (k - i) 0 : Nat) else -(x * (b.getD (n + k - i) 0 : Nat)))).sum

/-- The representative between −q/2 and q/2. -/
def centred (x : Int) : Int :=
  let r := x % (falconQ : Int)
  if (falconQ : Int) < 2 * r then r - falconQ else r

/-- Verification of a Falcon-1024 signature of 1,280 bytes under a public key of 1,793 (R317). -/
def falconVerify (key message sig : List Byte) : Bool :=
  let n := 1024
  let salt := (sig.drop 1).take 40
  match keyPoly n (bitList (key.drop 1)), sigPoly n (bitList (sig.drop 41)) with
  | some h, some s2 =>
    let c := hashPoint n 1024 (shakeState (salt ++ message)) []
    let s1 := (List.range n).map (fun k => centred ((c.getD k 0 : Nat) - mulCoeff n k s2 h))
    key.length = 1793 && key.headD 0 = 0x0A && sig.length = 1280 && sig.headD 0 = 0x3A
      && ((s1 ++ s2).map (fun x => x * x)).sum ≤ 70265242
  | _, _ => false

end Sys2Proof.Machine
end

