-- ==== Sys2Proof/Machine/Logic.lean ====
section
/-! DEFINITION. Page 1: logic, shifts, bit fields, moves and selection (R138–R143). -/

namespace Sys2Proof.Machine

/-- A 64-bit result written as the type writes it: through an integer type by R131, under .f32 with bits
63:32 zero, under the other float types whole (R138, R142). -/
def writeD (ty : DTy) (x : Word) : Word :=
  match ty with
  | .i t => map1 t id x
  | .f .f32 => BitVec.ofNat 64 (x.toNat % 2 ^ 32)
  | .f _ => x

/-- TRUTH (R138): entry a + 2b + 4c of the table at each bit. -/
def truthW (table : BitVec 8) (a b c : Word) : Word :=
  BitVec.ofNat 64 ((List.range 64).foldl (fun n k =>
    let i := (if a.getLsbD k then 1 else 0) + (if b.getLsbD k then 2 else 0) + (if c.getLsbD k then 4 else 0)
    if table.getLsbD i then n + 2 ^ k else n) 0)

/-! ### Shifts (R139): `n` is the count read as unsigned -/

def shlE (w : Nat) (a n : Nat) : Nat := if w ≤ n then 0 else a * 2 ^ n % 2 ^ w

def shrE (w : Nat) (a n : Nat) : Nat := if w ≤ n then 0 else a % 2 ^ w / 2 ^ n

def sarE (w : Nat) (a n : Nat) : Int :=
  let x := sgnOf w a
  if w ≤ n then (if x < 0 then -1 else 0) else x.fdiv (2 ^ n)

def rotlE (w : Nat) (a n : Nat) : Nat :=
  let k := n % w
  a % 2 ^ w * 2 ^ k % 2 ^ w + a % 2 ^ w / 2 ^ (w - k)

/-- Apply a function of unsigned fields to the elements of one or two sources. -/
def mapU1 (ty : ITy) (f : Nat → Int) (a : Word) : Word :=
  writeI ty ((List.range ty.count).map (fun i => f (fieldAt a (wI ty) i)))

def mapU2 (ty : ITy) (f : Nat → Nat → Int) (a b : Word) : Word :=
  writeI ty ((List.range ty.count).map (fun i => f (fieldAt a (wI ty) i) (fieldAt b (wI ty) i)))

/-- FSHL (R139). -/
def fshlW (ty : ITy) (a b c : Word) : Word :=
  let w := wI ty
  let x := fieldAt a w 0 * 2 ^ w + fieldAt b w 0
  writeI ty [(x * 2 ^ (fieldAt c w 0 % w) / 2 ^ w % 2 ^ w : Nat)]

/-! ### Bit fields (R140) -/

def bfxW (ty : ITy) (a b c : Word) : Word :=
  let w := wI ty
  let pos := b.toNat % 256
  let len := c.toNat % 256
  let n := min len w
  let x := ((elemI ty a 0).fdiv (2 ^ pos) % 2 ^ n).toNat
  writeI ty [if ty.signed && 0 < len && len < w then sgnOf len x else (x : Int)]

def bfiW (ty : ITy) (a b c : Word) : Word :=
  let w := wI ty
  let pos := c.toNat % 256
  let n := min (c.toNat / 256 % 256) (w - pos)
  let x := fieldAt a w 0
  let old := x / 2 ^ pos % 2 ^ n
  writeI ty [(x - old * 2 ^ pos + b.toNat % 2 ^ n * 2 ^ pos : Nat)]

/-! ### Bit counts (R141) -/

def popcN (w x : Nat) : Nat := ((List.range w).filter (fun k => x.testBit k)).length

def clzN (w x : Nat) : Nat := if x = 0 then w else w - 1 - x.log2

def ctzN (w x : Nat) : Nat := ((List.range w).find? (fun k => x.testBit k)).getD w

def brevN (w x : Nat) : Nat :=
  (List.range w).foldl (fun n k => if x.testBit (w - 1 - k) then n + 2 ^ k else n) 0

/-! ### The instructions -/

def execAnd (g : Guard) (d a b : Operand) (ty : DTy) (s : State) : Result :=
  s.op2 (.and g d a b ty) g 1 ty d a b (fun x y => writeD ty (x &&& y))

def execOr (g : Guard) (d a b : Operand) (ty : DTy) (s : State) : Result :=
  s.op2 (.or g d a b ty) g 1 ty d a b (fun x y => writeD ty (x ||| y))

def execXor (g : Guard) (d a b : Operand) (ty : DTy) (s : State) : Result :=
  s.op2 (.xor g d a b ty) g 1 ty d a b (fun x y => writeD ty (x ^^^ y))

def execAndn (g : Guard) (d a b : Operand) (ty : DTy) (s : State) : Result :=
  s.op2 (.andn g d a b ty) g 1 ty d a b (fun x y => writeD ty (x &&& ~~~y))

def execTruth (g : Guard) (d a b c : Operand) (table : BitVec 8) (s : State) : Result :=
  s.op3 (.truth g d a b c table) g 1 (.i .i64) d a b c (truthW table)

def execShl (g : Guard) (d a b : Operand) (ty : ITy) (s : State) : Result :=
  s.op2 (.shl g d a b ty) g 1 (.i ty) d a b (mapU2 ty (fun x n => (shlE (wI ty) x n : Int)))

def execShr (g : Guard) (d a b : Operand) (ty : ITy) (s : State) : Result :=
  s.op2 (.shr g d a b ty) g 1 (.i ty) d a b (mapU2 ty (fun x n => (shrE (wI ty) x n : Int)))

def execSar (g : Guard) (d a b : Operand) (ty : ITy) (s : State) : Result :=
  s.op2 (.sar g d a b ty) g 1 (.i ty) d a b (mapU2 ty (sarE (wI ty)))

def execRotl (g : Guard) (d a b : Operand) (ty : ITy) (s : State) : Result :=
  s.op2 (.rotl g d a b ty) g 1 (.i ty) d a b (mapU2 ty (fun x n => (rotlE (wI ty) x n : Int)))

def execFshl (g : Guard) (d a b c : Operand) (ty : ImTy) (s : State) : Result :=
  s.op3 (.fshl g d a b c ty) g 1 (.i ty.ty) d a b c (fshlW ty.ty)

def execBfx (g : Guard) (d a b c : Operand) (ty : ITy) (s : State) : Result :=
  s.alu (.bfx g d a b c ty) g 1 (fun s iss w p =>
    p.setDst d (bfxW ty (s.rdI iss w p ty a) (s.rd iss w p b) (s.rd iss w p c)))

/-- BFI (R140). DESIGN CHOICE: an inline integer as b or c is sign-extended to 64 bits under every type
(notes/assumptions/52.md). -/
def execBfi (g : Guard) (d a b c : Operand) (ty : ITy) (s : State) : Result :=
  s.alu (.bfi g d a b c ty) g 1 (fun s iss w p =>
    p.setDst d (bfiW ty (s.rdI iss w p ty a) (s.rd iss w p b) (s.rd iss w p c)))

def execPopc (g : Guard) (d a : Operand) (ty : ITy) (s : State) : Result :=
  s.op1 (.popc g d a ty) g 1 (.i ty) d a (mapU1 ty (fun x => (popcN (wI ty) x : Int)))

def execClz (g : Guard) (d a : Operand) (ty : ITy) (s : State) : Result :=
  s.op1 (.clz g d a ty) g 1 (.i ty) d a (mapU1 ty (fun x => (clzN (wI ty) x : Int)))

def execCtz (g : Guard) (d a : Operand) (ty : ITy) (s : State) : Result :=
  s.op1 (.ctz g d a ty) g 1 (.i ty) d a (mapU1 ty (fun x => (ctzN (wI ty) x : Int)))

def execBrev (g : Guard) (d a : Operand) (ty : ITy) (s : State) : Result :=
  s.op1 (.brev g d a ty) g 1 (.i ty) d a (mapU1 ty (fun x => (brevN (wI ty) x : Int)))

/-- The immediate forms work on 64 bits (R138, R139). -/
def execAndImm (g : Guard) (d a : Operand) (imm : BitVec 29) (s : State) : Result :=
  s.op1 (.andImm g d a imm) g 1 (.i .n64) d a (fun x => x &&& immWord imm)

def execOrImm (g : Guard) (d a : Operand) (imm : BitVec 29) (s : State) : Result :=
  s.op1 (.orImm g d a imm) g 1 (.i .n64) d a (fun x => x ||| immWord imm)

def execXorImm (g : Guard) (d a : Operand) (imm : BitVec 29) (s : State) : Result :=
  s.op1 (.xorImm g d a imm) g 1 (.i .n64) d a (fun x => x ^^^ immWord imm)

def execAndnImm (g : Guard) (d a : Operand) (imm : BitVec 29) (s : State) : Result :=
  s.op1 (.andnImm g d a imm) g 1 (.i .n64) d a (fun x => x &&& ~~~immWord imm)

def execShlImm (g : Guard) (d a : Operand) (imm : BitVec 29) (s : State) : Result :=
  s.op1 (.shlImm g d a imm) g 1 (.i .n64) d a (fun x => BitVec.ofNat 64 (shlE 64 x.toNat (immWord imm).toNat))

def execShrImm (g : Guard) (d a : Operand) (imm : BitVec 29) (s : State) : Result :=
  s.op1 (.shrImm g d a imm) g 1 (.i .n64) d a (fun x => BitVec.ofNat 64 (shrE 64 x.toNat (immWord imm).toNat))

def execSarImm (g : Guard) (d a : Operand) (imm : BitVec 29) (s : State) : Result :=
  s.op1 (.sarImm g d a imm) g 1 (.i .n64) d a (fun x => BitVec.ofInt 64 (sarE 64 x.toNat (immWord imm).toNat))

def execRotlImm (g : Guard) (d a : Operand) (imm : BitVec 29) (s : State) : Result :=
  s.op1 (.rotlImm g d a imm) g 1 (.i .n64) d a (fun x => BitVec.ofNat 64 (rotlE 64 x.toNat (immWord imm).toNat))

def execMovi (g : Guard) (d : Operand) (imm : BitVec 29) (s : State) : Result :=
  s.alu (.movi g d imm) g 1 (fun _ _ _ p => p.setDst d (immWord imm))

def execMoviW (g : Guard) (d : Operand) (imm : BitVec 32) (s : State) : Result :=
  s.alu (.moviW g d imm) g 1 (fun _ _ _ p => p.setDst d (imm.zeroExtend 64))

/-- MOVHI reads its destination as a source (R142). -/
def execMovhi (g : Guard) (d : Operand) (imm : BitVec 32) (s : State) : Result :=
  s.alu (.movhi g d imm) g 1 (fun s iss w p =>
    p.setDst d (imm ++ (s.rd iss w p d).extractLsb' 0 32))

def execMov (g : Guard) (d a : Operand) (ty : DTy) (s : State) : Result :=
  s.op1 (.mov g d a ty) g 1 ty d a (writeD ty)

def execSel (g : Guard) (d a b : Operand) (k : BitVec 3) (s : State) : Result :=
  s.alu (.sel g d a b k) g 1 (fun s iss w p =>
    p.setDst d (if p.depth k then s.rd iss w p a else s.rd iss w p b))

end Sys2Proof.Machine
end

