-- ==== Sys2Proof/Machine/Pred.lean ====
section
/-! DEFINITION. Page 2: tests and compares (R51, R144, R158), the predicate stack (R145, R146), BALLOT and
FIRST (R147, R148), special registers (R149, R150), NOP and YIELD (R151). -/

namespace Sys2Proof.Machine

/-! ### Conditions -/

/-- A condition of two elements under an integer type (R51, R144). -/
def condI (c : Cond) (ty : ITy) (a b : Word) : Bool :=
  let x := elemI ty a 0
  let y := elemI ty b 0
  let both := fieldAt a (wI ty) 0 &&& fieldAt b (wI ty) 0
  match c with
  | .eq => x = y
  | .ne => x ≠ y
  | .lt => x < y
  | .le => x ≤ y
  | .gt => x > y
  | .ge => x ≥ y
  | .un => false
  | .or => true
  | .tst => both ≠ 0
  | .tcl => both = 0

/-- A condition of two codes (R158). -/
def condF (c : Cond) (F : Fmt) (a b : Nat) : Bool :=
  match c, fCmp F a b with
  | .eq, some .eq => true
  | .ne, some .eq => false
  | .ne, _ => true
  | .lt, some .lt => true
  | .le, some .lt | .le, some .eq => true
  | .gt, some .gt => true
  | .ge, some .gt | .ge, some .eq => true
  | .un, none => true
  | .or, some _ => true
  | _, _ => false

/-- NV of a comparison: a signalling NaN always, a quiet one under the ordering conditions (R158). -/
def condNV (c : Cond) (F : Fmt) (a b : Nat) : Flags :=
  let ordering : Bool := match c with
    | .lt | .le | .gt | .ge => true
    | _ => false
  if F.isSNaN a || F.isSNaN b || (ordering && (F.isNaN a || F.isNaN b)) then flNV else 0

/-- A condition under any type. -/
def condD (c : Cond) (ty : DTy) (a b : Word) : Bool :=
  match ty with
  | .i t => condI c t a b
  | .f t => condF c (fmtOf t) (fieldAt a (fmtOf t).width 0) (fieldAt b (fmtOf t).width 0)

/-! ### Compares and tests -/

def execCmp (g : Guard) (c : Cond) (a b : Operand) (ty : ITy) (s : State) : Result :=
  s.alu (.cmp g c a b ty) g 1 (fun s iss w p => p.push (condI c ty (s.rdI iss w p ty a) (s.rdI iss w p ty b)))

/-- The immediate is sign-extended to the type (R144). -/
def execCmpImm (g : Guard) (c : Cond) (a : Operand) (ty : ITy) (imm : BitVec 29) (s : State) : Result :=
  s.alu (.cmpImm g c a ty imm) g 1 (fun s iss w p => p.push (condI c ty (s.rdI iss w p ty a) (immWord imm)))

def execFcmp (g : Guard) (c : Cond) (a b : Operand) (dbl nf : Bool) (s : State) : Result :=
  s.alu (.fcmp g c a b dbl nf) g 1 (fun s iss w p =>
    let ty : FTy := if dbl then .f64 else .f32
    let F := fmtOf ty
    let x := fieldAt (s.rdF iss w p ty a) F.width 0
    let y := fieldAt (s.rdF iss w p ty b) F.width 0
    (p.push (condF c F x y)).raise nf (condNV c F x y))

def execTestCmpReg (c : Cond) (a b : Operand) (ty : DTy) (s : State) : Result :=
  s.onTest (.testCmpReg c a b ty) (fun s iss w p => condD c ty (s.rdD iss w p ty a) (s.rdD iss w p ty b))

def execTestCmpImm (c : Cond) (a : Operand) (ty : ITy) (imm : BitVec 24) (s : State) : Result :=
  s.onTest (.testCmpImm c a ty imm) (fun s iss w p => condI c ty (s.rdI iss w p ty a) (immWord imm))

def execTestPred (clr : Bool) (d : BitVec 3) (s : State) : Result :=
  s.onTest (.testPred clr d) (fun _ _ _ p => p.depth d != clr)

/-! ### The predicate stack -/

/-- PCOMB reads its depths before the push (R145). -/
def execPcomb (g : Guard) (table : BitVec 8) (x y z : BitVec 3) (s : State) : Result :=
  s.alu (.pcomb g table x y z) g 1 (fun _ _ _ p =>
    let b (d : BitVec 3) : Nat := if p.depth d then 1 else 0
    p.push (table.getLsbD (4 * b x + 2 * b y + b z)))

def Path.setD (p : Path) (d : BitVec 8) : Path := { p with th := { p.th with d := d } }

def execPdrop (g : Guard) (n : BitVec 4) (s : State) : Result :=
  s.alu (.pdrop g n) g 1 (fun _ _ _ p => p.setD (p.th.d >>> n.toNat))

def execPget (g : Guard) (d : Operand) (s : State) : Result :=
  s.alu (.pget g d) g 1 (fun _ _ _ p => p.setDst d (p.th.d.zeroExtend 64))

def execPset (g : Guard) (a : Operand) (s : State) : Result :=
  s.alu (.pset g a) g 1 (fun s iss w p => p.setD ((s.rd iss w p a).setWidth 8))

/-! ### Collectives to registers -/

/-- Bit t of the result for each thread number t of the list (R147). -/
def ballotMask (ts : List Nat) : Word := ts.foldl (fun m t => m ||| (1 <<< t)) 0

/-- BALLOT: a bit for each participant. The handler thread has the number $tid gives it, the primary thread's
(R392, DEDUCED, notes/assumptions/27). -/
def execBallot (g : Guard) (d : Operand) (k : BitVec 3) (inv : Bool) (s : State) : Result :=
  s.onCollective (.ballot g d k inv) g 1 (fun _ _ w ps p =>
    p.setDst d (ballotMask ((ps.filter (fun q => q.depth k != inv)).map (fun q => contributor w q.t))))

def execFirst (g : Guard) (d : BitVec 9) (a : Operand) (s : State) : Result :=
  s.onCollective (.first g d a) g 1 (fun s iss w ps p =>
    match ps with
    | q :: _ => p.setDst (.s d) (s.rd iss w q a)
    | [] => p)

/-! ### Special registers -/

/-- The number in a names a reserved specifier, or h0–h15 outside the handler (R149). -/
def srdBad (a : Operand) : Reserved := fun s iss w p =>
  match Special.ofCode ((s.rd iss w p a).toNat % 128) with
  | some (.h _) => p.t != 32
  | some _ => false
  | none => true

def execSrd (g : Guard) (d : BitVec 8) (a : Operand) (s : State) : Result :=
  s.onOp (.srd g d a) g 1 (srdBad a) (fun s iss w p =>
    match Special.ofCode ((s.rd iss w p a).toNat % 128) with
    | some r => (s, .ok (p.setV d (s.special iss w p r)))
    | none => (s, .ok p))

/-- The writable registers (R74, R149). -/
def Path.setSpecial (p : Path) (x : Special) (v : Word) : Path :=
  match x with
  | .frame => { p with th := { p.th with frame := v } }
  | .rsp => { p with th := { p.th with rsp := v } }
  | .flags => { p with th := { p.th with flags := v.setWidth 7 } }
  | .h k => { p with h := p.h.set 0 k.toNat v }
  | _ => p

/-- $flags takes no bit of 63:7 (R149). -/
def swrBad (x : Special) (a : Operand) : Reserved := fun s iss w p =>
  x = .flags && 128 ≤ (s.rd iss w p a).toNat

def execSwr (g : Guard) (x : Special) (a : Operand) (s : State) : Result :=
  s.onOp (.swr g x a) g 1 (swrBad x a) (fun s iss w p => (s, .ok (p.setSpecial x (s.rd iss w p a))))

/-! ### NOP and YIELD -/

def execNop (s : State) : Result := s.alu .nop .always 1 (fun _ _ _ p => p)

def execYield (s : State) : Result := s.alu .yield .always 1 (fun _ _ _ p => p.addFx .yield)

end Sys2Proof.Machine
end

