-- ==== Sys2Proof/Machine/FloatOps.lean ====
section
/-! DEFINITION. Page 3: floating arithmetic, selection, rounding to integers, scaling, classes and exponents
(R153–R157). -/

namespace Sys2Proof.Machine

/-! ### One element -/

/-- FMIN and FMAX in both forms (R156). -/
def fSelect (F : Fmt) (isMax num : Bool) (a b : Nat) : Nat × Flags :=
  let nv : Flags := if F.isSNaN a || F.isSNaN b then flNV else 0
  if num && F.isNaN a && !F.isNaN b then (b, nv)
  else if num && F.isNaN b && !F.isNaN a then (a, nv)
  else fMinMax F isMax a b

/-- FRND (R157). -/
def fRound (F : Fmt) (rm : Rm) (a : Nat) : Nat × Flags :=
  match nanPick F [a] with
  | some r => r
  | none =>
    match dec F a with
    | .fin neg m e => (encFin F neg (roundTo rm (.of neg m e) 0).1 0, 0)
    | _ => (a, 0)

/-- FSCALE (R157). A scale beyond 5000 either way rounds as 5000 does. -/
def fScaleE (F : Fmt) (rm : Rm) (a : Nat) (n : Int) : Nat × Flags :=
  match nanPick F [a] with
  | some r => r
  | none =>
    match dec F a with
    | .fin neg m e => if m = 0 then (a, 0) else rnd F rm false (.of neg m (e + max (-5000) (min n 5000)))
    | _ => (a, 0)

/-- The class of a code (R157). -/
def fClass (F : Fmt) (a : Nat) : Nat :=
  let sub : Bool := a / 2 ^ F.fb % 2 ^ F.eb = 0
  match dec F a with
  | .nan .. => if F.isSNaN a then 0 else 1
  | .inf neg => if neg then 2 else 9
  | .fin neg m _ =>
    if m = 0 then (if neg then 5 else 6)
    else if sub then (if neg then 4 else 7)
    else (if neg then 3 else 8)

/-- FEXPO (R157). -/
def fExpo (F : Fmt) (a : Nat) : Nat × Flags :=
  match nanPick F [a] with
  | some r => r
  | none =>
    match dec F a with
    | .fin _ m e => if m = 0 then (F.infCode true, flDZ) else intToF F .rne false (m.log2 + e)
    | _ => (F.infCode false, 0)

/-! ### The instructions -/

/-- The integer type through which FSCALE reads b: the type's element width, signed (R157). -/
def scaleTy : FTy → ITy
  | .f64 => .i64
  | .f32 => .i32
  | .f32x2 => .i32x2
  | _ => .i16x4

/-- The elements of FSCALE's b: an inline integer stands as itself (R72), an FP constant as its code. -/
def State.scaleOf (s : State) (iss : Issue) (w : Warp) (p : Path) (ty : FTy) (b : Operand) : List Int :=
  let x := match b with
    | .fp _ => s.rdF iss w p ty b
    | b => s.rdI iss w p (scaleTy ty) b
  (List.range ty.count).map (elemI (scaleTy ty) x)

/-- An operation on two sources, element by element. -/
def State.fp2 (s : State) (i : Instr) (g : Guard) (d : Operand) (a b : FSrc) (ty : FTy) (nf : Bool)
    (f : Fmt → Nat → Nat → Nat × Flags) : Result :=
  s.alu i g 1 (fun s iss w p =>
    p.fpDst d ty nf (List.zipWith (f (fmtOf ty)) (s.rdFS iss w p ty a) (s.rdFS iss w p ty b)))

/-- An operation on one source. -/
def State.fp1 (s : State) (i : Instr) (g : Guard) (d : Operand) (a : FSrc) (ty : FTy) (nf : Bool)
    (f : Fmt → Nat → Nat × Flags) : Result :=
  s.alu i g 1 (fun s iss w p => p.fpDst d ty nf ((s.rdFS iss w p ty a).map (f (fmtOf ty))))

def execFadd (g : Guard) (d : Operand) (a b : FSrc) (ty : FTy) (rm : Rm) (nf : Bool) (s : State) : Result :=
  s.fp2 (.fadd g d a b ty rm nf) g d a b ty nf (fun F => fAdd F rm false)

def execFmul (g : Guard) (d : Operand) (a b : FSrc) (ty : FTy) (rm : Rm) (nf : Bool) (s : State) : Result :=
  s.fp2 (.fmul g d a b ty rm nf) g d a b ty nf (fun F => fMul F rm)

def execFma (g : Guard) (d : Operand) (a b : FSrc) (c : Operand) (negc : Bool) (ty : FTy) (rm : Rm)
    (nf : Bool) (s : State) : Result :=
  s.alu (.fma g d a b c negc ty rm nf) g 1 (fun s iss w p =>
    let xs := s.rdFS iss w p ty a
    let ys := s.rdFS iss w p ty b
    let zs := s.rdFS iss w p ty ⟨c, negc, false⟩
    p.fpDst d ty nf (List.zipWith (fun x yz => fFma (fmtOf ty) rm x yz.1 yz.2) xs (ys.zip zs)))

def execFmin (g : Guard) (d : Operand) (a b : FSrc) (ty : FTy) (num nf : Bool) (s : State) : Result :=
  s.fp2 (.fmin g d a b ty num nf) g d a b ty nf (fun F => fSelect F false num)

def execFmax (g : Guard) (d : Operand) (a b : FSrc) (ty : FTy) (num nf : Bool) (s : State) : Result :=
  s.fp2 (.fmax g d a b ty num nf) g d a b ty nf (fun F => fSelect F true num)

def execFrnd (g : Guard) (d : Operand) (a : FSrc) (ty : FTy) (rm : Rm) (nf : Bool) (s : State) : Result :=
  s.fp1 (.frnd g d a ty rm nf) g d a ty nf (fun F => fRound F rm)

def execFscale (g : Guard) (d : Operand) (a : FSrc) (b : Operand) (ty : FTy) (rm : Rm) (nf : Bool)
    (s : State) : Result :=
  s.alu (.fscale g d a b ty rm nf) g 1 (fun s iss w p =>
    p.fpDst d ty nf (List.zipWith (fScaleE (fmtOf ty) rm) (s.rdFS iss w p ty a) (s.scaleOf iss w p ty b)))

def execFclass (g : Guard) (d : Operand) (a : FSrc) (ty : FTy) (nf : Bool) (s : State) : Result :=
  s.fp1 (.fclass g d a ty nf) g d a ty nf (fun F x => (2 ^ fClass F x, 0))

def execFexpo (g : Guard) (d : Operand) (a : FSrc) (ty : FTy) (nf : Bool) (s : State) : Result :=
  s.fp1 (.fexpo g d a ty nf) g d a ty nf fExpo

end Sys2Proof.Machine
end

