-- ==== Sys2Proof/Machine/Mem.lean ====
section
/-! DEFINITION. Page 6: loads, stores, gathers, reservations, atomics, ordered adds, fences and WAITA
(R177–R199). -/

namespace Sys2Proof.Machine

/-! ### Loads and stores -/

/-- A load's bank is refreshing in its cycle (R183, R254). -/
def State.refreshing (s : State) (iss : Issue) (p : Path) (pl : Place) : Bool :=
  match pl with
  | .ws o => bankOf o = (s.timeBase + clockAt iss p * 5 / 6) / 4000 % 16
  | _ => false

/-- A load of n bytes at `va` (R180–R185): checked at the syllable, read at the issue's end. -/
def loadBody (spc : Space) (owner sx : Bool) (d : BitVec 8) (n : Nat) (order : Order) (scope : Scope)
    (va : State → Issue → Warp → Path → Word) : Body := fun s iss w p =>
  let a := va s iss w p
  match s.access iss w p ⟨spc, .r, owner, n, a, iss.setA, true, false⟩ with
  | .error f => (s, .error f)
  | .ok pl =>
    (s, .ok (p.addFx (.load { iss.load w p (.v d) pl a n sx ⟨order, scope, false⟩ with
      held := s.refreshing iss p pl, peek := !owner })))

def State.onLoad (s : State) (i : Instr) (spc : Space) (owner sx : Bool) (d : BitVec 8) (m : Mem) : Result :=
  s.onOp i m.g 1 noReserved
    (loadBody spc owner sx d (sizeBytes m.size) m.order m.scope (State.vaOf spc m.base m.off))

def State.onGather (s : State) (i : Instr) (spc : Space) (sx : Bool) (d : BitVec 8) (x : Idx) : Result :=
  s.onOp i x.g 1 noReserved (loadBody spc true sx d (sizeBytes x.size) .plain .core (State.vaIdx spc x))

/-- A store of n bytes of `data` at `va`. -/
def storeBody (spc : Space) (data : Operand) (n : Nat) (order : Order) (scope : Scope)
    (va : State → Issue → Warp → Path → Word) : Body := fun s iss w p =>
  let a := va s iss w p
  match s.access iss w p ⟨spc, .w, true, n, a, none, false, true⟩ with
  | .error f => (s, .error f)
  | .ok pl => (s, .ok (p.store iss pl a (leBytes n (s.rd iss w p data).toNat) order scope))

def State.onStore (s : State) (i : Instr) (spc : Space) (data : Operand) (m : Mem) : Result :=
  s.onOp i m.g 1 noReserved
    (storeBody spc data (sizeBytes m.size) m.order m.scope (State.vaOf spc m.base m.off))

def State.onScatter (s : State) (i : Instr) (spc : Space) (data : Operand) (x : Idx) : Result :=
  s.onOp i x.g 1 noReserved (storeBody spc data (sizeBytes x.size) .plain .core (State.vaIdx spc x))

def execLdN (d : BitVec 8) (m : Mem) (s : State) : Result := s.onLoad (.ldN d m) .global true false d m

def execLdI (d : BitVec 8) (m : Mem) (s : State) : Result := s.onLoad (.ldI d m) .global true true d m

def execSt (data : Operand) (m : Mem) (s : State) : Result := s.onStore (.st data m) .global data m

def execLdSpN (d : BitVec 8) (m : Mem) (s : State) : Result := s.onLoad (.ldSpN d m) .sp true false d m

def execLdSpI (d : BitVec 8) (m : Mem) (s : State) : Result := s.onLoad (.ldSpI d m) .sp true true d m

def execStSp (data : Operand) (m : Mem) (s : State) : Result := s.onStore (.stSp data m) .sp data m

def execLdWsN (d : BitVec 8) (m : Mem) (s : State) : Result := s.onLoad (.ldWsN d m) .ws true false d m

def execLdWsI (d : BitVec 8) (m : Mem) (s : State) : Result := s.onLoad (.ldWsI d m) .ws true true d m

/-- A peek makes no owner check (R184, R365). -/
def execLdSpPeekN (d : BitVec 8) (m : Mem) (s : State) : Result :=
  s.onLoad (.ldSpPeekN d m) .sp false false d m

def execLdSpPeekI (d : BitVec 8) (m : Mem) (s : State) : Result :=
  s.onLoad (.ldSpPeekI d m) .sp false true d m

def execLdxN (d : BitVec 8) (x : Idx) (s : State) : Result := s.onGather (.ldxN d x) .global false d x

def execLdxI (d : BitVec 8) (x : Idx) (s : State) : Result := s.onGather (.ldxI d x) .global true d x

def execStx (data : Operand) (x : Idx) (s : State) : Result := s.onScatter (.stx data x) .global data x

def execLdxSpN (d : BitVec 8) (x : Idx) (s : State) : Result := s.onGather (.ldxSpN d x) .sp false d x

def execLdxSpI (d : BitVec 8) (x : Idx) (s : State) : Result := s.onGather (.ldxSpI d x) .sp true d x

def execStxSp (data : Operand) (x : Idx) (s : State) : Result := s.onScatter (.stxSp data x) .sp data x

/-! ### Uniform load and prefetch -/

/-- LDU (R188): the reads of the performers are one at commit. -/
def execLdu (d : BitVec 9) (m : Mem) (s : State) : Result :=
  s.onOp (.ldu d m) m.g 1 noReserved (fun s iss w p =>
    let a := s.vaOf .global m.base m.off iss w p
    let n := sizeBytes m.size
    match s.access iss w p ⟨.global, .r, true, n, a, iss.setA, true, false⟩ with
    | .error f => (s, .error f)
    | .ok pl =>
      (s, .ok (p.addFx (.ldu p.next (iss.load w p (.s d []) pl a n false ⟨m.order, m.scope, false⟩)))))

/-- PREF (R189): a line comes into the L1 where a load of it would not fault. -/
def execPref (g : Guard) (base : Operand) (l2 : Bool) (off : BitVec 22) (s : State) : Result :=
  s.onOp (.pref g base l2 off) g 1 noReserved (fun s iss w p =>
    match s.translate w.ctx (s.vaOf .global base off iss w p) .r with
    | .ok pa => (if l2 then s else s.touchLine (coreOf iss.warp) (.mem pa), .ok p)
    | .error _ => (s, .ok p))

/-! ### Reservations -/

/-- LRES (R190): the load is performed at the home, and the reservation made with it. -/
def execLres (d : BitVec 8) (m : Mem) (s : State) : Result :=
  s.onOp (.lres d m) m.g 1 noReserved (fun s iss w p =>
    let a := s.vaOf .global m.base m.off iss w p
    let n := sizeBytes m.size
    match s.access iss w p ⟨.global, .r, true, n, a, iss.setA, true, false⟩ with
    | .error f => (s, .error f)
    | .ok pl =>
      (s, .ok (p.addFx (.load (iss.load w p (.v d) pl a n false ⟨m.order, m.scope, true⟩)))))

/-- SCOND (R191): sent at commit; the home answers its status. -/
def execScond (g : Guard) (d : BitVec 8) (a b : Operand) (dbl : Bool) (order : Order) (scope : Scope)
    (s : State) : Result :=
  s.onOp (.scond g d a b dbl order scope) g 1 noReserved (fun s iss w p =>
    let va := s.rd iss w p a
    match s.access iss w p ⟨.global, .w, true, dblBytes dbl, va, iss.setA, true, true⟩ with
    | .error f => (s, .error f)
    | .ok pl =>
      let i : StItem :=
        { kind := .scond (s.rd iss w p b) dbl 0, place := pl, va := va, order := order, scope := scope,
          warp := iss.warp, thread := p.t }
      (s, .ok (p.addFx (.atomLoad i (iss.load w p (.v d) pl va 8 false plainly)))))

/-! ### Atomics -/

/-- An atomic (R193, R194): `b` and `c` give its operands. -/
def atomBody (spc : Space) (op : AtomOp) (x : Atom) (b c : State → Issue → Warp → Path → Word) : Body :=
  fun s iss w p =>
    let va := addrIn spc (s.rd iss w p x.a) 0
    let flag := if x.d.isSome then iss.setA else none
    match s.access iss w p ⟨spc, .rw, true, dblBytes x.dbl, va, flag, true, true⟩ with
    | .error f => (s, .error f)
    | .ok pl =>
      let i : StItem :=
        { kind := .atom op (b s iss w p) (c s iss w p) x.dbl none, place := pl, va := va, order := x.order,
          scope := x.scope, warp := iss.warp, thread := p.t }
      (s, .ok (p.addFx (match x.d with
        | some d => .atomLoad i (iss.load w p (.v d) pl va (dblBytes x.dbl) (op == .minI || op == .maxI) plainly)
        | none => .item i)))

def State.onAtom (s : State) (i : Instr) (spc : Space) (op : AtomOp) (x : Atom) : Result :=
  s.onOp i x.g 1 noReserved (atomBody spc op x (fun s iss w p => s.rd iss w p x.b) (fun _ _ _ _ => 0))

def State.onCas (s : State) (i : Instr) (spc : Space) (x : Atom) (c : Operand) : Result :=
  s.onOp i x.g 1 noReserved
    (atomBody spc .cas x (fun s iss w p => s.rd iss w p x.b) (fun s iss w p => s.rd iss w p c))

/-- The operand of a FATOM is read under its float type (R72, R194). -/
def fatomOperand (dbl : Bool) (b : Operand) (s : State) (iss : Issue) (w : Warp) (p : Path) : Word :=
  s.rdF iss w p (if dbl then .f64 else .f32) b

def State.onFatom (s : State) (i : Instr) (spc : Space) (op : AtomOp) (x : Atom) : Result :=
  s.onOp i x.g 1 noReserved (atomBody spc op x (fatomOperand x.dbl x.b) (fun _ _ _ _ => 0))

def execAtomAdd (x : Atom) (s : State) : Result := s.onAtom (.atomAdd x) .global .add x

def execAtomMinI (x : Atom) (s : State) : Result := s.onAtom (.atomMinI x) .global .minI x

def execAtomMinN (x : Atom) (s : State) : Result := s.onAtom (.atomMinN x) .global .minN x

def execAtomMaxI (x : Atom) (s : State) : Result := s.onAtom (.atomMaxI x) .global .maxI x

def execAtomMaxN (x : Atom) (s : State) : Result := s.onAtom (.atomMaxN x) .global .maxN x

def execAtomAnd (x : Atom) (s : State) : Result := s.onAtom (.atomAnd x) .global .and x

def execAtomOr (x : Atom) (s : State) : Result := s.onAtom (.atomOr x) .global .or x

def execAtomXor (x : Atom) (s : State) : Result := s.onAtom (.atomXor x) .global .xor x

def execAtomXchg (x : Atom) (s : State) : Result := s.onAtom (.atomXchg x) .global .xchg x

def execAtomCas (x : Atom) (c : Operand) (s : State) : Result := s.onCas (.atomCas x c) .global x c

def execAtomIncwrap (x : Atom) (s : State) : Result := s.onAtom (.atomIncwrap x) .global .incwrap x

def execAtomSpAdd (x : Atom) (s : State) : Result := s.onAtom (.atomSpAdd x) .sp .add x

def execAtomSpMinI (x : Atom) (s : State) : Result := s.onAtom (.atomSpMinI x) .sp .minI x

def execAtomSpMinN (x : Atom) (s : State) : Result := s.onAtom (.atomSpMinN x) .sp .minN x

def execAtomSpMaxI (x : Atom) (s : State) : Result := s.onAtom (.atomSpMaxI x) .sp .maxI x

def execAtomSpMaxN (x : Atom) (s : State) : Result := s.onAtom (.atomSpMaxN x) .sp .maxN x

def execAtomSpAnd (x : Atom) (s : State) : Result := s.onAtom (.atomSpAnd x) .sp .and x

def execAtomSpOr (x : Atom) (s : State) : Result := s.onAtom (.atomSpOr x) .sp .or x

def execAtomSpXor (x : Atom) (s : State) : Result := s.onAtom (.atomSpXor x) .sp .xor x

def execAtomSpXchg (x : Atom) (s : State) : Result := s.onAtom (.atomSpXchg x) .sp .xchg x

def execAtomSpCas (x : Atom) (c : Operand) (s : State) : Result := s.onCas (.atomSpCas x c) .sp x c

def execAtomSpIncwrap (x : Atom) (s : State) : Result := s.onAtom (.atomSpIncwrap x) .sp .incwrap x

def execFatomAdd (x : Atom) (s : State) : Result := s.onFatom (.fatomAdd x) .global .fadd x

def execFatomMin (x : Atom) (s : State) : Result := s.onFatom (.fatomMin x) .global .fmin x

def execFatomMax (x : Atom) (s : State) : Result := s.onFatom (.fatomMax x) .global .fmax x

def execFatomSpAdd (x : Atom) (s : State) : Result := s.onFatom (.fatomSpAdd x) .sp .fadd x

def execFatomSpMin (x : Atom) (s : State) : Result := s.onFatom (.fatomSpMin x) .sp .fmin x

def execFatomSpMax (x : Atom) (s : State) : Result := s.onFatom (.fatomSpMax x) .sp .fmax x

/-! ### Ordered adds -/

/-- The key of a thread's contributions (R130), its number apart. -/
def State.ordKey (s : State) (w : Warp) (t : Nat) : OrdKey :=
  let t := contributor w t
  let th := w.thread t
  if th.task.isSome then ⟨1, th.taskFrame.toNat, 0, 0⟩
  else ⟨0, ((s.blocks.get? w.block).map Block.index).getD 0, rankOf w t, 0⟩

/-- FATOM.add.ord (R195). -/
def execFatomAddOrd (g : Guard) (a b : Operand) (dbl : Bool) (s : State) : Result :=
  s.onOp (.fatomAddOrd g a b dbl) g 1 noReserved (fun s iss w p =>
    let va := s.rd iss w p a
    match s.access iss w p ⟨.global, .rw, true, dblBytes dbl, va, none, true, true⟩ with
    | .error f => (s, .error f)
    | .ok pl =>
      let k : StKind := .contrib dbl (fatomOperand dbl b s iss w p) (s.ordKey w p.t) w.launch
      let i : StItem :=
        { kind := k, place := pl, va := va, order := .plain, scope := .core, warp := iss.warp, thread := p.t }
      (s, .ok (p.addFx (.item i))))

/-- ORDF (R195). -/
def execOrdf (m : Mem) (s : State) : Result :=
  s.onOp (.ordf m) m.g 1 noReserved (fun s iss w p =>
    let a := s.vaOf .global m.base m.off iss w p
    match s.access iss w p ⟨.global, .w, true, sizeBytes m.size, a, none, true, true⟩ with
    | .error f => (s, .error f)
    | .ok pl =>
      let i : StItem :=
        { kind := .ordf (m.size == .d), place := pl, va := a, order := m.order, scope := m.scope,
          warp := iss.warp, thread := p.t }
      (s, .ok (p.addFx (.item i))))

/-! ### Fences and waiting -/

/-- FENCE (R197, R270): it takes its place among what its path sends at commit. -/
def execFence (g : Guard) (order : Order) (scope : Scope) (s : State) : Result :=
  s.onOp (.fence g order scope) g 1 noReserved (fun s iss _ p =>
    let i : StItem :=
      { kind := .fence, place := .mem 0, va := 0, order := order, scope := scope, warp := iss.warp, thread := p.t }
    (s, .ok (p.addFx (.item i))))

/-- Scope 6 or 7 in the control value is a reserved use (R357). -/
def waitaBad (c : Operand) : Reserved := fun s iss w p =>
  (Scope.ofCode ((s.rd iss w p c).toNat / 2 ^ 32 % 8)).isNone

/-- WAITA (R198, R199): the wait begins when its issue has committed. -/
def execWaita (g : Guard) (d : BitVec 8) (a b c : Operand) (dbl : Bool) (cond : WCond) (signed sp : Bool)
    (s : State) : Result :=
  s.onOp (.waita g d a b c dbl cond signed sp) g 1 (waitaBad c) (fun s iss w p =>
    let spc : Space := if sp then .sp else .global
    let va := addrIn spc (s.rd iss w p a) 0
    match s.access iss w p ⟨spc, .r, true, dblBytes dbl, va, none, true, false⟩ with
    | .error f => (s, .error f)
    | .ok pl =>
      let ctl := s.rd iss w p c
      let x : Wait :=
        { va := va, place := pl, sp := sp, dbl := dbl, cond := cond, signed := signed, b := s.rd iss w p b,
          acquire := ctl.getLsbD 35, scope := (Scope.ofCode (ctl.toNat / 2 ^ 32 % 8)).getD .core,
          deadline := none, dst := d }
      (s, .ok (p.addFx (.waita x (ctl.toNat % 2 ^ 32)))))

end Sys2Proof.Machine
end

