-- ==== Sys2Proof/Machine/Engines.lean ====
section
/-! DEFINITION. Commands in general (R211–R213): descriptors, windows and tile sets (R212, R216, R220–R222, R229,
R232); OWN (R215), stage rings (R217), the token (R228) and register units (R238). -/

namespace Sys2Proof.Machine

/-- Bits hi:lo of a word. -/
def bits (x : Word) (hi lo : Nat) : Nat := x.toNat / 2 ^ lo % 2 ^ (hi - lo + 1)

/-- The same, signed. -/
def sbits (x : Word) (hi lo : Nat) : Int := sgnOf (hi - lo + 1) (bits x hi lo)

/-! ### Windows -/

/-- A block's window on a core: its first tile and its size (R252). -/
def State.window (s : State) (blk core : Nat) : Option (Nat × Nat) :=
  match s.blocks.get? blk with
  | none => none
  | some b => (b.tileBase[b.cores.findIdx (· = core)]?).map (fun t => (t, b.tiles))

/-- Tiles of the window of a warp's block on its own core. -/
def State.windowSize (s : State) (slot : Nat) (w : Warp) : Nat :=
  ((s.window w.block (coreOf slot)).map (·.2)).getD 0

/-- The tiles that a run of bytes touches. -/
def tileRun (lo len : Nat) : List Nat :=
  if len = 0 then [] else (List.range ((lo + len - 1) / 4096 - lo / 4096 + 1)).map (lo / 4096 + ·)

/-- Byte x of row r under rotation z, from the row's start (R216). -/
def rotPlace (z r x : Nat) : Nat :=
  128 * (x / 128) + 16 * ((x / 16 % 8) ^^^ (r % 2 ^ z)) + x % 16

/-! ### Copies (R232) -/

/-- Rows and row length of a shape. -/
def cpRows (c : Word) : Nat := bits c 23 12 + 1
def cpUnits (c : Word) : Nat := bits c 11 0 + 1

/-- The start of scratchpad row r, and unit u of it. -/
def cpRow (b : Word) (r : Nat) : Nat := bits b 20 0 + r * bits b 44 24
def cpUnit (b : Word) (r u : Nat) : Nat := cpRow b r + rotPlace (bits b 22 21) r (16 * u)

/-- The tiles of the scratchpad side. -/
def cpTiles (b c : Word) : List Nat :=
  let n := cpUnits c
  (List.range (cpRows c)).flatMap (fun r =>
    tileRun (cpRow b r) (128 * (n / 8))
      ++ (List.range (n % 8)).map (fun k => cpUnit b r (8 * (n / 8) + k) / 4096))

/-- The run of a far side in the weight store lies below 4 GiB (R367). -/
def wsRun (a stride : Int) (m n : Nat) : Bool :=
  let last := a + (m - 1 : Nat) * stride
  0 ≤ a && 0 ≤ last && a + 16 * n ≤ 2 ^ 32 && last + 16 * n ≤ 2 ^ 32

/-- What R359 asks of a copy's descriptors, tiles apart: kinds 0 IN, 1 OUT, 2 ROWS, 3 FILL, 4 WS. The word field is
judged only where enable is 1 (DESIGN CHOICE, notes/assumptions/51.md). -/
def cpOk (kind : Nat) (ws : Bool) (size : Nat) (d a b c : Word) : Bool :=
  let m := cpRows c
  let n := cpUnits c
  let word := bits d 20 0
  bits d 31 22 = 0 && (!d.getLsbD 21 || (word % 4 = 0 && word + 4 ≤ 4096 * size))
    && (kind = 3 || a.toNat % 16 = 0)
    && (if kind = 4 then b.toNat % 16 = 0 && wsRun b.toNat (16 * n) m n
        else bits b 63 45 = 0 && !b.getLsbD 23 && bits b 44 24 % 16 = 0 && bits b 20 0 % 16 = 0)
    && (if kind = 2 then bits c 44 24 % 4 = 0
        else if kind = 3 then bits c 63 24 = 0
        else bits c 63 24 % 16 = 0)
    && (!ws || wsRun a.toNat (sbits c 63 24) m n)

/-! ### Sweeps (R229, R230) -/

def vsFmt : Nat → Option Fmt
  | 0 => some fp32
  | 1 => some fp16
  | 2 => some bf16
  | 3 => some e4m3
  | 4 => some e5m2
  | _ => none

def vsSrc (c : Word) : Option Fmt := vsFmt (bits c 27 24)
def vsDst (c : Word) : Option Fmt := vsFmt (bits c 31 28)
def vsRows (c : Word) : Nat := bits c 23 12 + 1
def vsElems (c : Word) : Nat := bits c 11 0 + 1

/-- Element e of row r of a walk. -/
def walkAt (x : Word) (r e : Nat) : Int := bits x 20 0 + r * sbits x 63 48 + e * sbits x 47 36

/-- Least and greatest element offset of row r with n elements. -/
def walkLo (x : Word) (r n : Nat) : Int := min (walkAt x r 0) (walkAt x r (n - 1))
def walkHi (x : Word) (r n : Nat) : Int := max (walkAt x r 0) (walkAt x r (n - 1))

/-- Every element is aligned and lies in the scratchpad. -/
def walkOk (x : Word) (m n size : Nat) : Bool :=
  bits x 35 21 = 0 && bits x 20 0 % size = 0
    && (m = 1 || sbits x 63 48 % size = 0) && (n = 1 || sbits x 47 36 % size = 0)
    && 0 ≤ walkLo x 0 n && 0 ≤ walkLo x (m - 1) n
    && walkHi x 0 n + size ≤ 0x180000 && walkHi x (m - 1) n + size ≤ 0x180000

/-- The tiles of a walk: steps are below a tile, so a row touches every tile between its ends. -/
def walkTiles (x : Word) (m n size : Nat) : List Nat :=
  (List.range m).flatMap (fun r =>
    tileRun (walkLo x r n).toNat ((walkHi x r n).toNat + size - (walkLo x r n).toNat))

/-- Forms with a second source; the reductions write one element of each row. -/
def vsTwo (op : Nat) : Bool := op ≤ 4
def vsDstElems (op : Nat) (c : Word) : Nat := if 8 ≤ op then 1 else vsElems c

def vsOk (op : Nat) (d a b c : Word) : Bool :=
  match vsSrc c, vsDst c with
  | some F, some G =>
    walkOk a (vsRows c) (vsElems c) (F.width / 8)
      && (!vsTwo op || walkOk b (vsRows c) (vsElems c) (F.width / 8))
      && walkOk d (vsRows c) (vsDstElems op c) (G.width / 8)
  | _, _ => false

def vsTiles (op : Nat) (d a b c : Word) : List Nat :=
  match vsSrc c, vsDst c with
  | some F, some G =>
    walkTiles a (vsRows c) (vsElems c) (F.width / 8)
      ++ (if vsTwo op then walkTiles b (vsRows c) (vsElems c) (F.width / 8) else [])
      ++ walkTiles d (vsRows c) (vsDstElems op c) (G.width / 8)
  | _, _ => []

/-! ### Matrix commands (R220–R223) -/

/-- Class of an operand format (R222). -/
def mxClass : Nat → Option Nat
  | 0 | 1 => some 0
  | 2 | 3 => some 1
  | 4 | 5 => some 2
  | 6 => some 3
  | _ => none

/-- K of a class. -/
def mxK : Nat → Nat
  | 0 => 64
  | 3 => 256
  | _ => 128

/-- Block-scaled formats (R111). -/
def mxScaled (f : Nat) : Bool := f = 2 || f = 3 || f = 6

def mxFa (fmt : Word) : Nat := bits fmt 3 0
def mxFb (fmt : Word) : Nat := bits fmt 7 4
def mxLa (fmt : Word) : Nat := 16 * 2 ^ bits fmt 9 8
def mxLb (fmt : Word) : Nat := 16 * 2 ^ bits fmt 11 10

/-- K′: K for MXMAC, 16G for MXSMAC (R222). -/
def mxKp (kind : Nat) (fmt : Word) : Nat :=
  if kind = 1 then 16 * (bits fmt 44 39 + 1) else mxK ((mxClass (mxFa fmt)).getD 0)

/-- The format word is good (R359): kinds 0 MXMAC, 1 MXSMAC, 2 MXZERO. -/
def mxFmtOk (kind : Nat) (fmt : Word) : Bool :=
  kind = 2 ||
    (bits fmt 63 45 = 0 && (kind = 1 || bits fmt 44 30 = 0)
      && (mxClass (mxFa fmt)).isSome && mxClass (mxFa fmt) == mxClass (mxFb fmt)
      && (!mxScaled (mxFa fmt) || mxKp kind fmt % mxLa fmt = 0)
      && (!mxScaled (mxFb fmt) || mxKp kind fmt % mxLb fmt = 0))

/-- Geometry and side offset are good (R220, R359). -/
def mxGeoOk (g side : Word) : Bool :=
  bits g 63 23 = 0 && bits g 11 9 ≤ 5 && bits g 20 12 != 0 && bits side 63 12 = 0 && side.toNat % 2 = 0

/-- Rows in one tile. -/
def mxPerTile (g : Word) : Nat := 32 / 2 ^ bits g 11 9

/-- The tiles of a region. -/
def mxRegion (g : Word) : List Nat :=
  (List.range (128 / mxPerTile g)).map (fun k => bits g 8 0 + k * bits g 20 12)

/-- First byte of an operand's side data. -/
def mxSide (tile : Nat) (side : Word) : Nat := 4096 * tile + bits side 11 0

def mxSideTiles (f tile : Nat) (side : Word) (kp l : Nat) : List Nat :=
  if mxScaled f then tileRun (mxSide tile side) (2 * 128 * (kp / l)) else []

/-- The operands' tiles, bitmap apart. -/
def mxOperandTiles (kind : Nat) (fmt a0 a1 b0 b1 : Word) : List Nat :=
  if kind = 2 then []
  else mxRegion a0 ++ mxRegion b0
    ++ mxSideTiles (mxFa fmt) (bits fmt 20 12) a1 (mxKp kind fmt) (mxLa fmt)
    ++ mxSideTiles (mxFb fmt) (bits fmt 29 21) b1 (mxKp kind fmt) (mxLb fmt)

def mxAccTiles (acc : BitVec 9) : List Nat := (List.range 16).map (acc.toNat + ·)

/-- The descriptors are good, window apart; the accumulator meets no operand (R243), an operand's side data being part
of it and the bitmap tile not (DESIGN CHOICE, notes/assumptions/68.md). -/
def mxDescOk (kind : Nat) (acc : BitVec 9) (fmt a0 a1 b0 b1 : Word) : Bool :=
  kind = 2 || (mxGeoOk a0 a1 && mxGeoOk b0 b1
    && (mxOperandTiles kind fmt a0 a1 b0 b1).all (fun t => !(mxAccTiles acc).contains t))

/-! ### Commands -/

/-- The tile set of a command, by tiles of the window (R212). -/
def CmdBody.tiles (x : CmdBody) : List Nat :=
  match x with
  | .copy kind _ _ _ _ b c =>
    if kind = 4 then []
    else cpTiles b c ++ (if kind = 2 then tileRun (bits c 44 24) (4 * cpRows c) else [])
  | .matrix kind _ _ acc fmt a0 a1 b0 b1 =>
    mxAccTiles acc ++ mxOperandTiles kind fmt a0 a1 b0 b1 ++ (if kind = 1 then [bits fmt 38 30] else [])
  | .sweep op _ d a b c => vsTiles op d a b c
  | _ => []

/-- The descriptors of a command are good in a window of `size` tiles (R212, R243, R359). -/
def CmdBody.ok (x : CmdBody) (size : Nat) : Bool :=
  (match x with
  | .copy kind ws _ d a b c => cpOk kind ws size d a b c
  | .matrix kind _ _ acc fmt a0 a1 b0 b1 => mxDescOk kind acc fmt a0 a1 b0 b1
  | .sweep op _ d a b c => vsOk op d a b c
  | _ => true) && x.tiles.all (· < size)

/-- Bits of an element of a matrix operand format. -/
def mxBits : Nat → Nat
  | 0 | 1 => 16
  | 6 => 4
  | _ => 8

/-- The tiles that rows with `n` groups touch: compressed rows may be longer than the row pitch (R220, R225). -/
def mxRowTiles (f : Nat) (g : Word) (n : Nat) : List Nat :=
  let per := mxPerTile g
  ((List.range 128).flatMap (fun r =>
    tileRun (4096 * (bits g 8 0 + r / per * bits g 20 12) + r % per * (4096 / per)) (128 * ((2 * mxBits f * n + 127) / 128)))).eraseDups

/-- A byte of a core's scratchpad, at an offset of the core. -/
def State.spByte (s : State) (core off : Nat) : Nat :=
  if off < 0x180000 then (rdByte s.scratch (0x180000 * core + off)).toNat else 0

/-- The presence bits of an MXSMAC operand, from byte `o` of the bitmap tile, in its G groups (R225); `byte` gives the
core's scratchpad. -/
def mxPresent (byte : Nat → Nat) (base o : Nat) (fmt : Word) : List Bool :=
  let t := 4096 * (base + bits fmt 38 30)
  (List.range (bits fmt 44 39 + 1)).map (fun g => byte (t + o + g / 8) / 2 ^ (g % 8) % 2 = 1)

/-- The tiles of the compressed rows of an MXSMAC, as its bitmaps stand (R212). -/
def mxSparseTiles (byte : Nat → Nat) (base : Nat) (x : CmdBody) : List Nat :=
  match x with
  | .matrix 1 _ _ _ fmt a0 _ b0 _ =>
    mxRowTiles (mxFa fmt) a0 ((mxPresent byte base 0 fmt).filter id).length
      ++ mxRowTiles (mxFb fmt) b0 ((mxPresent byte base 8 fmt).filter id).length
  | _ => []

/-- A byte of the core's scratchpad as a load of the path would read it: what the path and the warp have stored is there
for the command too (R214, R284). -/
def State.pathByte (s : State) (iss : Issue) (p : Path) (off : Nat) : Nat :=
  let core := coreOf iss.warp
  if off < 0x180000 then
    (((s.loadBytes core false (fun i => i.sibling iss.id [p.t]) (fun v => v.sibling iss.id [p.t]) (s.stqOf iss.warp)
      (storesOf p.fx) (.sp (0x180000 * core + off)) 1).1).headD 0).toNat
  else 0

/-- The compressed rows of an MXSMAC lie in the window and meet no accumulator. -/
def State.mxSparseOk (s : State) (blk core : Nat) (byte : Nat → Nat) (x : CmdBody) : Bool :=
  let (base, size) := (s.window blk core).getD (0, 0)
  let acc : List Nat := match x with
    | .matrix _ _ _ acc .. => mxAccTiles acc
    | _ => []
  (mxSparseTiles byte base x).all (fun t => t < size && !acc.contains t)

/-- What an engine writes with: its command, and the number of its chunk's first write (R184). -/
def State.engineWriter (s : State) (core cmd : Nat) : Writer :=
  { spot := .engine core, issue := cmd, thread := s.nextVer }

/-- A command of a path (R211). -/
def Issue.cmd (iss : Issue) (w : Warp) (p : Path) (opcode : Nat) (body : CmdBody) (dst : Option (BitVec 8)) :
    Cmd :=
  { warp := iss.warp, block := w.block, launch := w.launch, ctx := w.ctx, core := coreOf iss.warp,
    thread := p.t, opcode := BitVec.ofNat 10 opcode, clause := iss.addr, body := body, dst := dst,
    flags := (match iss.setB with
      | some k => [(p.t, k)]
      | none => []),
    index := 0, accepted := false, tiles := [], done := 0, held := [] }

/-- Send a command: its descriptors are judged at the syllable (22), its flag last (14). -/
def sendBody (opcode : Nat) (dst : Option (BitVec 8)) (mk : State → Issue → Warp → Path → CmdBody) : Body :=
  fun s iss w p =>
    let x := mk s iss w p
    if !x.ok (s.windowSize iss.warp w) then (s, .error (iss.fltW p 22))
    else if p.overflows iss.setB then (s, .error (p.flt 14 (BitVec.ofNat 64 (iss.setB.getD 0))))
    else (s, .ok (p.addFx (.cmd (iss.cmd w p opcode x dst))))

/-! ### OWN (R215) -/

/-- A count of 0 or above 32 is a reserved use (R359). -/
def ownBad (b : Operand) : Reserved := fun s iss w p =>
  let n := (s.rd iss w p b).toNat % 64
  n = 0 || 32 < n

/-- OWN is an acquire of each flip to THREADS that it reads (R214, R215, R272). -/
def State.ownAcquire (s : State) (core : Nat) (tiles : List Nat) : State :=
  s.learn core (tiles.flatMap (fun t => if (s.core core).owner.get 0 t = 0 then (s.core core).freed.get [] t else []))

def execOwn (g : Guard) (d : BitVec 8) (a b : Operand) (s : State) : Result :=
  s.onOp (.own g d a b) g 1 (ownBad b) (fun s iss w p =>
    let first := (s.rd iss w p a).toNat % 512
    let n := (s.rd iss w p b).toNat % 64
    let core := coreOf iss.warp
    let (base, size) := (s.window w.block core).getD (0, 0)
    match ((List.range n).map (first + ·)).find? (size ≤ ·) with
    | some t => (s, .error (p.flt 10 (BitVec.ofNat 64 (w.pos * 2 ^ 27 + 4096 * t % 2 ^ 21))))
    | none =>
      let ts := (List.range n).map (base + first + ·)
      let own := ts.map (fun t => ((s.core core).owner.get 0 t).toNat)
      (s.ownAcquire core ts, .ok (p.setV d (BitVec.ofNat 64 (pack 2 own)))))

/-! ### Stage rings (R217) -/

def execRingget (g : Guard) (q : BitVec 4) (a b : Operand) (s : State) : Result :=
  s.alu (.ringget g q a b) g 1 (fun s iss w p =>
    p.addFx (.ringGet q ((s.rd iss w p a).setWidth 4) ((s.rd iss w p b).getLsbD 0)))

def execRingput (g : Guard) (q : BitVec 4) (a : Operand) (s : State) : Result :=
  s.alu (.ringput g q a) g 1 (fun s iss w p => p.addFx (.ringPut q ((s.rd iss w p a).setWidth 4)))

/-! ### The matrix token (R228) -/

/-- MXTOK.give for one path: it names its target, that of the lowest-numbered performer is judged for all at the issue's
end (R228). A target that is no MAT-role warp (19) comes before what the judgement ranks below it (R337): 23 and 13. -/
def givePath (g : Guard) (a : Operand) (iss : Issue) (w : Warp) (s : State) (p : Path) : State × Path :=
  let q := p.addFx (.give p.next ((s.rd iss w p a).toNat % 128))
  match s.judge iss w p (.mxtokGive g a) (p.guard g) false with
  | some f => (s, (if p.guard g && (f.kind = 23 || f.kind = 13) then q else p).fail f)
  | none => (s, if p.guard g then q.weigh 1 else p.weigh 1)

def execMxtokGive (g : Guard) (a : Operand) (s : State) : Result := s.syllable (givePath g a)

def execMxtokTake (g : Guard) (s : State) : Result :=
  s.alu (.mxtokTake g) g 1 (fun _ _ _ p => p.addFx .take)

/-! ### Register units (R238) -/

def execGrow (g : Guard) (n : BitVec 3) (s : State) : Result :=
  s.onOp (.grow g n) g 1 noReserved (fun s iss _ p =>
    if s.part.units (laneOf iss.warp) < n.toNat then (s, .error (p.flt 23 (n.zeroExtend 64)))
    else (s, .ok (p.addFx (.grow n.toNat))))

def execShed (g : Guard) (n : BitVec 3) (s : State) : Result :=
  s.alu (.shed g n) g 1 (fun _ _ _ p => p.addFx (.shed n.toNat))

end Sys2Proof.Machine
end

