-- ==== Sys2Proof/Machine/Matrix.lean ====
section
/-! DEFINITION. The matrix engine: signing a command (R224, R360), MXWAIT (R227), and what the engine does
with an accepted command (R125–R127, R220–R222, R225, R226). -/

namespace Sys2Proof.Machine

/-! ### Signing -/

/-- The command that a thread would sign: kinds 0 MXMAC, 1 MXSMAC, 2 MXZERO. -/
def State.mxCapture (s : State) (iss : Issue) (w : Warp) (p : Path) (kind : Nat) (acc : Operand)
    (a b : BitVec 9) (fmt : Option Operand) (str : BitVec 2) (resume : Bool) : Capture :=
  let u (r : BitVec 9) : Word := if kind = 2 then 0 else iss.entryS.get 0 r.toNat
  { op := BitVec.ofNat 10 (0x208 + kind), stream := str, resume := resume,
    acc := (s.rd iss w p acc).setWidth 9,
    fmt := (match fmt with
      | some o => s.rd iss w p o
      | none => 0),
    a0 := u a, a1 := u (a + 1), b0 := u b, b1 := u (b + 1), clause := iss.addr, thread := p.t, signers := [] }

/-- Capability 0x0007 (R320): a part without E2M1 operands does not have the format code, one without MXSMAC does not
have the opcode (notes/assumptions/49.md). -/
def State.hasFormat (s : State) (kind : Nat) (fmt : Word) : Bool :=
  s.part.features.getLsbD 0 || kind = 2 || mxFa fmt != 6

def State.lacksSparse (s : State) (i : Instr) : Bool :=
  match i with
  | .mxsmac .. => !s.part.features.getLsbD 1
  | _ => false

/-- One performing thread (R224, R360): a format fault (21); else its signature stands for the verdict on divergence
(20), which comes before a fault of its descriptor (22) or flag (14) in the order of R337. -/
def mxSign (s : State) (iss : Issue) (w : Warp) (j : BitVec 4) (p : Path) (c : Capture) : Except PFault Path × Path :=
  if !mxFmtOk (c.op.toNat - 0x208) c.fmt || !s.hasFormat (c.op.toNat - 0x208) c.fmt then (.error (p.flt 21 c.fmt), p)
  else
    let inMask := bitOf (joinSeen iss w (iss.setPath p).paths j).expected p.t
    let flag := if inMask then iss.setB else none
    let late : Option PFault :=
      if !c.body.ok (s.windowSize iss.warp w) || !s.mxSparseOk w.block (coreOf iss.warp) (s.pathByte iss p) c.body then some (iss.fltW p 22)
      else if p.overflows flag then some (p.flt 14 (BitVec.ofNat 64 (iss.setB.getD 0)))
      else none
    let q := p.addFx (.mx p.next j c flag late.isNone)
    match late with
    | some f => (.error f, q)
    | none => (.ok q, q)

/-- A matrix command's syllable for one path; a signature that faults is still known to the vote. -/
def mxPath (i : Instr) (g : Guard) (j : BitVec 4) (cap : State → Issue → Warp → Path → Capture) (iss : Issue)
    (w : Warp) (s : State) (p : Path) : State × Path :=
  if s.lacksSparse i then (s, p.fail (iss.fltW p 4))
  else match s.judge iss w p i (p.guard g) false with
  | some f => (s, p.fail f)
  | none =>
    if p.guard g then
      match mxSign s iss w j p (cap s iss w p) with
      | (.ok q, _) => (s, q.weigh 1)
      | (.error f, q) => (s, (q.fail f).weigh 1)
    else (s, p.weigh 1)

/-- MXMAC, MXSMAC and MXZERO. -/
def State.onMx (s : State) (i : Instr) (g : Guard) (j : BitVec 4)
    (cap : State → Issue → Warp → Path → Capture) : Result := s.syllable (mxPath i g j cap)

def execMxmac (g : Guard) (acc : Operand) (a b : BitVec 9) (fmt : Operand) (str : BitVec 2) (j : BitVec 4)
    (s : State) : Result :=
  s.onMx (.mxmac g acc a b fmt str j) g j (fun s iss w p => s.mxCapture iss w p 0 acc a b (some fmt) str false)

def execMxsmac (g : Guard) (acc : Operand) (a b : BitVec 9) (fmt : Operand) (str : BitVec 2) (j : BitVec 4)
    (resume : Bool) (s : State) : Result :=
  s.onMx (.mxsmac g acc a b fmt str j resume) g j
    (fun s iss w p => s.mxCapture iss w p 1 acc a b (some fmt) str resume)

def execMxzero (g : Guard) (acc : Operand) (str : BitVec 2) (j : BitVec 4) (s : State) : Result :=
  s.onMx (.mxzero g acc str j) g j (fun s iss w p => s.mxCapture iss w p 2 acc 0 0 none str false)

def execMxwait (g : Guard) (d : BitVec 8) (mask : BitVec 4) (s : State) : Result :=
  s.onOp (.mxwait g d mask) g 1 noReserved (sendBody 0x20B (some d) (fun _ _ _ _ => .mxwait mask))

/-- MXWAIT's reply: the step counters of the streams in its mask (R227). -/
def mxReply (c : Core) (mask : BitVec 4) : Word :=
  BitVec.ofNat 64 (pack 16 ((List.range 4).map (fun i => if mask.getLsbD i then c.steps.get 0 i else 0)))

/-! ### Operands in the scratchpad -/

/-- Byte x of row r of a region whose window begins at tile `base` (R220). -/
def mxPlace (base : Nat) (g : Word) (r x : Nat) : Nat :=
  let per := mxPerTile g
  4096 * (base + bits g 8 0 + r / per * bits g 20 12) + r % per * (4096 / per) + rotPlace (bits g 22 21) r x

/-- The floating format of an operand format. -/
def mxFmt : Nat → Fmt
  | 0 => bf16
  | 1 => fp16
  | 2 => e4m3
  | 3 => e5m2
  | _ => e2m1

/-- A byte of an operand region of a command whose window begins at tile `base` and has `size` tiles. -/
def State.mxByte (s : State) (core base size off : Nat) : Nat :=
  if off < 4096 * (base + size) then s.spByte core off else (Config.strayByte s.tick off).toNat

/-- Element at position k of row r. -/
def State.mxCode (s : State) (core base size : Nat) (f : Nat) (g : Word) (r k : Nat) : Nat :=
  let byte (x : Nat) : Nat := s.mxByte core base size (mxPlace base g r x)
  match mxBits f with
  | 16 => byte (2 * k) + 256 * byte (2 * k + 1)
  | 4 => byte (k / 2) / 16 ^ (k % 2) % 16
  | _ => byte k

/-- The parts of a command that describe one operand: format, geometry, first byte of its side data, blocks
of a row, block length. -/
structure MxOp where
  f    : Nat
  geo  : Word
  side : Nat
  nblk : Nat
  len  : Nat

def mxOpA (kind : Nat) (fmt a0 a1 : Word) : MxOp :=
  ⟨mxFa fmt, a0, mxSide (bits fmt 20 12) a1, mxKp kind fmt / mxLa fmt, mxLa fmt⟩

def mxOpB (kind : Nat) (fmt b0 b1 : Word) : MxOp :=
  ⟨mxFb fmt, b0, mxSide (bits fmt 29 21) b1, mxKp kind fmt / mxLb fmt, mxLb fmt⟩

/-- The value of the element that stands at position `pos` of row r and has index k along K (R112, R222). -/
def State.mxValue (s : State) (core base size : Nat) (o : MxOp) (r pos k : Nat) : FVal :=
  let c := s.mxCode core base size o.f o.geo r pos
  if mxScaled o.f then
    let at_ := 4096 * base + o.side + 2 * (r * o.nblk + k / o.len)
    decBlk (mxFmt o.f) c (s.spByte core at_) (s.spByte core (at_ + 1))
  else dec (mxFmt o.f) c

/-- The integer at a position (R127). -/
def State.mxInt (s : State) (core base size : Nat) (o : MxOp) (r pos : Nat) : Int :=
  let c := s.mxCode core base size o.f o.geo r pos
  if o.f = 4 then sgnOf 8 c else c

/-! ### Chunks (R125, R127) -/

/-- A product of two elements. -/
def mxProd (x y : FVal) : FVal :=
  match x, y with
  | .nan .., _ | _, .nan .. => .nan false 0
  | .inf a, .inf b => .inf (a != b)
  | .inf a, .fin b m _ | .fin b m _, .inf a => if m = 0 then .nan false 0 else .inf (a != b)
  | .fin a m e, .fin b n f => .fin (a != b) (m * n) (e + f)

/-- The sum of a chunk's products. -/
def mxSum (ps : List FVal) : FVal :=
  let isNaN : FVal → Bool := fun x => match x with
    | .nan .. => true
    | _ => false
  let pos := ps.contains (.inf false)
  let neg := ps.contains (.inf true)
  if ps.any isNaN || (pos && neg) then .nan false 0
  else if pos then .inf false
  else if neg then .inf true
  else
    let exs := ps.filterMap (fun x => match x with
      | .fin n m e => some (Ex.of n m e)
      | _ => none)
    match exs with
    | [] => .fin false 0 0
    | x :: r =>
      let t := r.foldl (exAdd .rne) x
      .fin t.neg t.m t.e

/-- acc_add of R125, on an FP32 code. -/
def accAdd (c : Nat) (v : FVal) : Nat :=
  match dec fp32 c, v with
  | .nan .., _ | _, .nan .. => fp32.canonNaN
  | .inf a, .inf b => if a = b then fp32.infCode a else fp32.canonNaN
  | .inf a, _ => fp32.infCode a
  | _, .inf b => fp32.infCode b
  | .fin a m e, .fin b n f => (rnd fp32 .rne false (exAdd .rne (.of a m e) (.of b n f))).1

/-- A chunk: the first positions in the rows of A and B, and its first index along K. -/
structure Chunk where
  pa : Nat
  pb : Nat
  k  : Nat
  deriving DecidableEq, Repr

/-- A command's chunks in order: K/16 of a dense one, a step for each group present in both operands of a
sparse one (R225). -/
def State.mxChunks (s : State) (core base kind : Nat) (fmt : Word) : List Chunk :=
  if kind = 0 then (List.range (mxKp 0 fmt / 16)).map (fun c => ⟨16 * c, 16 * c, 16 * c⟩)
  else if kind = 1 then
    let a := mxPresent (s.spByte core) base 0 fmt
    let b := mxPresent (s.spByte core) base 8 fmt
    let below (m : List Bool) (g : Nat) : Nat := 16 * ((m.take g).filter id).length
    ((List.range (bits fmt 44 39 + 1)).filter (fun g => a.getD g false && b.getD g false)).map (fun g =>
      ⟨below a g, below b g, 16 * g⟩)
  else []

/-- Write the accumulator from its elements in row order, as one chunk of command `id` (R184, R221). -/
def State.putAcc (s : State) (core id base : Nat) (acc : BitVec 9) (xs : List Nat) : State :=
  s.put (s.engineWriter core id) .none (.sp (0x180000 * core + 4096 * (base + acc.toNat))) (xs.flatMap (leBytes 4))

def State.accAt (s : State) (core base : Nat) (acc : BitVec 9) (i j : Nat) : Nat :=
  let o := 4096 * (base + acc.toNat) + 4 * (128 * i + j)
  leNat ((List.range 4).map (fun k => BitVec.ofNat 8 (s.spByte core (o + k))))

/-- Apply one chunk to every element. R126 lets two streams interleave their chunks differently at each element of an
accumulator that they share; here one interleaving serves all (DESIGN CHOICE, notes/assumptions/50.md). -/
def State.mxChunk (s : State) (core id base size kind : Nat) (acc : BitVec 9) (fmt a0 a1 b0 b1 : Word) (c : Chunk) :
    State :=
  let A := mxOpA kind fmt a0 a1
  let B := mxOpB kind fmt b0 b1
  let row : List Nat := List.range 16
  let rows : List Nat := List.range 128
  if mxClass A.f = some 2 then
    let av := rows.map (fun i => row.map (fun e => s.mxInt core base size A i (c.pa + e)))
    let bv := rows.map (fun j => row.map (fun e => s.mxInt core base size B j (c.pb + e)))
    s.putAcc core id base acc (av.zipIdx.flatMap (fun (x, i) => bv.zipIdx.map (fun (y, j) =>
      (((s.accAt core base acc i j : Nat) + (List.zipWith (· * ·) x y).sum : Int) % 2 ^ 32).toNat)))
  else
    let av := rows.map (fun i => row.map (fun e => s.mxValue core base size A i (c.pa + e) (c.k + e)))
    let bv := rows.map (fun j => row.map (fun e => s.mxValue core base size B j (c.pb + e) (c.k + e)))
    s.putAcc core id base acc (av.zipIdx.flatMap (fun (x, i) => bv.zipIdx.map (fun (y, j) =>
      accAdd (s.accAt core base acc i j) (mxSum (List.zipWith mxProd x y)))))

/-! ### Running a command (R225, R226) -/

/-- An MXSMAC that starts without .resume starts its stream's counter at 0. -/
def State.mxStart (s : State) (c : Cmd) : State :=
  match c.body with
  | .matrix 1 str false .. =>
    if c.done = 0 then s.updCore c.core (fun x => { x with steps := x.steps.del str.toNat }) else s
  | _ => s

/-- The chunks of a command not yet applied: a sparse one counts them in its stream's counter. -/
def State.mxRest (s : State) (c : Cmd) (base : Nat) : List Chunk :=
  match c.body with
  | .matrix 1 str _ _ fmt .. => (s.mxChunks c.core base 1 fmt).drop ((s.core c.core).steps.get 0 str.toNat)
  | .matrix kind _ _ _ fmt .. => (s.mxChunks c.core base kind fmt).drop c.done
  | _ => []

/-- Apply a list of chunks, counting them. -/
def State.mxRun (s : State) (id : Nat) (c : Cmd) (base size : Nat) (cs : List Chunk) : State :=
  match c.body with
  | .matrix kind str _ acc fmt a0 a1 b0 b1 =>
    let s := cs.foldl (fun s k => s.mxChunk c.core id base size kind acc fmt a0 a1 b0 b1 k) s
    let s := if kind = 1 then s.updCore c.core (fun x =>
        { x with steps := x.steps.set 0 str.toNat (x.steps.get 0 str.toNat + cs.length) }) else s
    { s with cmds := s.cmds.upd id (fun x => { x with done := x.done + cs.length }) }
  | _ => s

/-- Some chunks of an accepted command, one at least. -/
def State.mxSome (s : State) (id n : Nat) (c : Cmd) : State :=
  let (base, size) := (s.window c.block c.core).getD (0, 0)
  let s := s.draw.mxStart c
  s.mxRun id c base size ((s.mxRest c base).take (n + 1))

/-- All that remains of an accepted command; its stream's counter returns to 0. -/
def State.mxAll (s : State) (id : Nat) (c : Cmd) : State :=
  let (base, size) := (s.window c.block c.core).getD (0, 0)
  let s := s.draw
  match c.body with
  | .matrix 2 _ _ acc .. => s.putAcc c.core id base acc (List.replicate 16384 0)
  | .matrix 1 str .. =>
    let s := s.mxStart c
    let s := s.mxRun id c base size (s.mxRest c base)
    s.updCore c.core (fun x => { x with steps := x.steps.del str.toNat })
  | _ => s.mxRun id c base size (s.mxRest c base)

end Sys2Proof.Machine
end

