-- ==== Sys2Proof/Machine/Sweep.lean ====
section
/-! DEFINITION. The sweep vector unit (R129, R229–R231). -/

namespace Sys2Proof.Machine

/-! ### Sending -/

/-- A sweep of a path: opcode 0x240 + op; the single-source forms have no second walk. -/
def State.onSweep (s : State) (i : Instr) (op : Nat) (x : Sweep) : Result :=
  s.onOp i x.g 1 noReserved (sendBody (0x240 + op) none (fun s iss w p =>
    .sweep op x.sat (s.rd iss w p x.d) (s.rd iss w p x.a) (if vsTwo op then s.rd iss w p x.b else 0)
      (s.rd iss w p x.c)))

def execVswAdd (x : Sweep) (s : State) : Result := s.onSweep (.vswAdd x) 0 x

def execVswMul (x : Sweep) (s : State) : Result := s.onSweep (.vswMul x) 1 x

def execVswFma (x : Sweep) (s : State) : Result := s.onSweep (.vswFma x) 2 x

def execVswMax (x : Sweep) (s : State) : Result := s.onSweep (.vswMax x) 3 x

def execVswMin (x : Sweep) (s : State) : Result := s.onSweep (.vswMin x) 4 x

def execVswExp (x : Sweep) (s : State) : Result := s.onSweep (.vswExp x) 5 x

def execVswCvt (x : Sweep) (s : State) : Result := s.onSweep (.vswCvt x) 6 x

def execVswScl (x : Sweep) (s : State) : Result := s.onSweep (.vswScl x) 7 x

def execVswRsum (x : Sweep) (s : State) : Result := s.onSweep (.vswRsum x) 8 x

def execVswRmax (x : Sweep) (s : State) : Result := s.onSweep (.vswRmax x) 9 x

def execVswait (g : Guard) (s : State) : Result :=
  s.onOp (.vswait g) g 1 noReserved (sendBody 0x24F none (fun _ _ _ _ => .vswait))

/-! ### One element -/

/-- The sum of two values, exact. -/
def valAdd (x y : FVal) : FVal :=
  match x, y with
  | .nan .., _ | _, .nan .. => .nan false 0
  | .inf a, .inf b => if a = b then .inf a else .nan false 0
  | .inf a, _ => .inf a
  | _, .inf b => .inf b
  | .fin a m e, .fin b n f =>
    let t := exAdd .rne (.of a m e) (.of b n f)
    .fin t.neg t.m t.e

/-- An exact result into a format (R114, R118); a NaN here is a new one (R117). -/
def vsRound (G : Fmt) (sat : Bool) (v : FVal) : Nat :=
  match v with
  | .nan .. => G.canonNaN
  | .inf neg =>
    if G.inf then G.infCode neg
    else if sat then encFin G neg G.largest.1 G.largest.2 else signBit G neg + 127
  | .fin neg m e => (rnd G .rne sat (.of neg m e)).1

/-- The first NaN among operands, each in its own format, taken into the format of the result and quieted there
(R117; notes/assumptions/41.md). -/
def vsNaN (G : Fmt) (ops : List (Fmt × Nat)) : Option Nat :=
  match ops.find? (fun o => o.1.isNaN o.2) with
  | none => none
  | some (F, c) => match dec F c with
    | .nan neg fr => some (G.quiet (cvtNaN F G neg fr))
    | _ => none

/-- e^a rounded once (R230). -/
def vsExp (F G : Fmt) (sat : Bool) (a : Nat) : Nat :=
  match dec F a with
  | .inf neg => if neg then 0 else vsRound G sat (.inf false)
  | .fin neg m e => (rnd G .rne sat (exExp neg m e)).1
  | .nan .. => G.canonNaN

/-- One element of an elementwise sweep: sources a, b in F, the destination d and the result in G, the scalar
in FP32 (R230). -/
def vsElem (op : Nat) (F G : Fmt) (sat : Bool) (scalar a b d : Nat) : Nat :=
  match op with
  | 0 => (vsNaN G [(F, a), (F, b)]).getD (vsRound G sat (valAdd (dec F a) (dec F b)))
  | 1 => (vsNaN G [(F, a), (F, b)]).getD (vsRound G sat (mxProd (dec F a) (dec F b)))
  | 2 => (vsNaN G [(F, a), (F, b), (G, d)]).getD
      (vsRound G sat (valAdd (mxProd (dec F a) (dec F b)) (dec G d)))
  | 3 => (vsNaN G [(F, a), (F, b)]).getD (cvt F G .rne sat (fMinMax F true a b).1).1
  | 4 => (vsNaN G [(F, a), (F, b)]).getD (cvt F G .rne sat (fMinMax F false a b).1).1
  | 5 => (vsNaN G [(F, a)]).getD (vsExp F G sat a)
  | 6 => (cvt F G .rne sat a).1
  | _ => (vsNaN G [(F, a), (fp32, scalar)]).getD (vsRound G sat (mxProd (dec F a) (dec fp32 scalar)))

/-- A row folded in FP32 (R129). -/
def vsFold (isMax : Bool) (xs : List Nat) : Nat :=
  match xs with
  | [] => 0
  | x :: r => r.foldl (fun a e => if isMax then (fMinMax fp32 true a e).1 else (fAdd fp32 .rne false a e).1) x

/-! ### A command -/

/-- Element e of row r of a walk, in a window that begins at byte `base` of the core's scratchpad. -/
def State.walkGet (s : State) (core base : Nat) (x : Word) (F : Fmt) (r e : Nat) : Nat :=
  let o := base + (walkAt x r e).toNat
  leNat ((List.range (F.width / 8)).map (fun k => BitVec.ofNat 8 (s.spByte core (o + k))))

/-- A result of command `id`: a chunk of its own, after which a peek may see the tile (R184; DESIGN CHOICE,
notes/assumptions/67.md). -/
def State.walkPut (s : State) (core id base : Nat) (x : Word) (F : Fmt) (r e v : Nat) : State :=
  s.put (s.engineWriter core id) .none (.sp (0x180000 * core + base + (walkAt x r e).toNat)) (leBytes (F.width / 8) v)

/-- One row: its elements in order, each read after every earlier write (R231). -/
def State.vsRow (s : State) (core id base op : Nat) (sat : Bool) (d a b c : Word) (F G : Fmt) (r : Nat) : State :=
  if 8 ≤ op then
    let xs := (List.range (vsElems c)).map (fun e => (cvt F fp32 .rne false (s.walkGet core base a F r e)).1)
    s.walkPut core id base d G r 0 (cvt fp32 G .rne sat (vsFold (op = 9) xs)).1
  else
    (List.range (vsElems c)).foldl (fun s e =>
      s.walkPut core id base d G r e (vsElem op F G sat (bits c 63 32) (s.walkGet core base a F r e)
        (if vsTwo op then s.walkGet core base b F r e else 0) (s.walkGet core base d G r e))) s

/-- The next n rows of a sweep. -/
def State.vsSome (s : State) (id n : Nat) (c : Cmd) : State :=
  let base := 4096 * ((s.window c.block c.core).map (·.1)).getD 0
  match c.body with
  | .sweep op sat d a b ctl =>
    match vsSrc ctl, vsDst ctl with
    | some F, some G =>
      let rs := ((List.range (vsRows ctl)).drop c.done).take n
      let s := rs.foldl (fun s r => s.vsRow c.core id base op sat d a b ctl F G r) s
      { s with cmds := s.cmds.upd id (fun x => { x with done := x.done + rs.length }) }
    | _, _ => s
  | _ => s

/-- All that remains of a sweep. -/
def State.vsAll (s : State) (id : Nat) (c : Cmd) : State := s.vsSome id 4096 c

end Sys2Proof.Machine
end

