-- ==== Sys2Proof/Machine/Copy.lean ====
section
/-! DEFINITION. The copy engine (R232–R234, R364, R368, R369), and reduction cells (R328, R329, R379). -/

namespace Sys2Proof.Machine

/-! ### Sending -/

/-- A copy of a path: kinds 0 IN, 1 OUT, 2 ROWS, 3 FILL, 4 WS. -/
def State.onCopy (s : State) (i : Instr) (kind : Nat) (ws : Bool) (x : Copy) : Result :=
  s.onOp i x.g 1 noReserved (sendBody (0x280 + kind) none (fun s iss w p =>
    .copy kind ws x.scope (s.rd iss w p x.d) (s.rd iss w p x.a) (s.rd iss w p x.b) (s.rd iss w p x.c)))

def execCpyIn (x : Copy) (ws : Bool) (s : State) : Result := s.onCopy (.cpyIn x ws) 0 ws x

def execCpyOut (x : Copy) (s : State) : Result := s.onCopy (.cpyOut x) 1 false x

def execCpyRows (x : Copy) (s : State) : Result := s.onCopy (.cpyRows x) 2 false x

def execCpyFill (x : Copy) (s : State) : Result := s.onCopy (.cpyFill x) 3 false x

def execCpyWs (x : Copy) (s : State) : Result := s.onCopy (.cpyWs x) 4 false x

/-! ### Reduction cells -/

/-- Width in bytes of a cell's elements. -/
def cellBytes : CellFmt → Nat
  | .f32 | .i32 => 4
  | .f64 | .i64 => 8
  | .bf16 => 2

/-- One combination step on codes; BF16 sums stand in FP32 (R329). -/
def cellStep (op : CellOp) (fmt : CellFmt) (r e : Nat) : Nat :=
  let int (w : Nat) : Nat := match op with
    | .add => (r + e) % 2 ^ w
    | .min => if sgnOf w e < sgnOf w r then e else r
    | .max => if sgnOf w r < sgnOf w e then e else r
  let flt (F : Fmt) : Nat := match op with
    | .add => (fAdd F .rne false r e).1
    | .min => (fMinMax F false r e).1
    | .max => (fMinMax F true r e).1
  match fmt with
  | .i32 => int 32
  | .i64 => int 64
  | .f32 => flt fp32
  | .f64 => flt fp64
  | .bf16 => if op = .add then (fAdd fp32 .rne false r (cvt bf16 fp32 .rne false e).1).1 else flt bf16

/-- One element folded over the members in ascending package id. -/
def cellFold (op : CellOp) (fmt : CellFmt) (xs : List Nat) : Nat :=
  match xs with
  | [] => 0
  | x :: r =>
    if fmt = .bf16 && op = .add then
      (cvt fp32 bf16 .rne false (r.foldl (cellStep op fmt) (cvt bf16 fp32 .rne false x).1)).1
    else r.foldl (cellStep op fmt) x

/-- The 256 combined bytes of a round, whose contributions stand in ascending package id. -/
def cellCombine (cfg : CellCfg) (round : SMap (List Byte)) : List Byte :=
  let n := cellBytes cfg.fmt
  (List.range (256 / n)).flatMap (fun i =>
    leBytes n (cellFold cfg.op cfg.fmt (round.vals.map (fun b => fieldLE b (n * i) n))))

/-- Contributions that wait and can enter the open round do. -/
def Cell.admitWaiting (c : Cell) : Cell :=
  c.waiting.foldl (fun c x =>
    if (c.round.get? x.1).isNone then { c with round := c.round.put x.1 x.2 }
    else { c with waiting := c.waiting ++ [x] }) { c with waiting := [] }

def Cell.full (c : Cell) : Bool :=
  c.cfg.members != 0 && (List.range 64).all (fun p => !c.cfg.members.getLsbD p || (c.round.get? p).isSome)

/-- The address of a local address of a member of the domain, as this package reaches it (R245, R326). -/
def State.memberAddr (s : State) (p pa : Nat) : Nat := if p = s.trellis.id then pa else 2 ^ 51 + p * 2 ^ 44 + pa

/-- The switches as a writer; the round word is a release at dom scope (R328). -/
def State.cellWriter (s : State) (rel : Bool) : Writer :=
  { spot := .peer 64, heads := if rel then [⟨.dom, .peer 64, [], s.vers.map Ver.id⟩] else [],
    strong := if rel then some (.dom, []) else none }

/-- Close the rounds of a cell that every member has contributed to: the result to every member, then every member's
round word (R328). -/
def State.closeRounds (cell : Nat) : Nat → State → State
  | 0, s => s
  | n + 1, s =>
    match s.cells.get? cell with
    | none => s
    | some c =>
      if c.full then
        let ms := (List.range 64).filter (c.cfg.members.getLsbD ·)
        let s := ms.foldl (fun s p =>
          s.writePa (s.cellWriter false) (s.memberAddr p c.cfg.result) (cellCombine c.cfg c.round)) s
        let s := ms.foldl (fun s p =>
          let a := s.memberAddr p c.cfg.round
          s.writePa (s.cellWriter true) a (leBytes 4 (rdNat s.mem a 4 + 1))) s
        State.closeRounds cell n { s with cells := s.cells.put cell ({ c with round := [] }.admitWaiting) }
      else s

/-- A valid contribution of a member (R328): into its package's next round. -/
def State.cellContribute (s : State) (cell pkg : Nat) (b : List Byte) : State :=
  match s.cells.get? cell with
  | none => s
  | some c =>
    let c := { c with waiting := c.waiting ++ [(pkg, b)] }
    State.closeRounds cell (c.waiting.length + 1) { s with cells := s.cells.put cell c.admitWaiting }

/-! ### Far accesses -/

/-- The far address of unit u of row r, or its weight-store offset; `x` gives the entries of the list. -/
def cpFar (kind : Nat) (a c : Word) (x : Nat → Int) (r u : Nat) : Word :=
  if kind = 2 then a + BitVec.ofInt 64 (x r * 16 * bits c 63 45) + BitVec.ofNat 64 (16 * u)
  else if kind = 3 then a
  else a + BitVec.ofInt 64 (r * sbits c 63 24) + BitVec.ofNat 64 (16 * u)

/-- Entry r of a CPY.ROWS's list. -/
def State.cpIndex (s : State) (core base : Nat) (c : Word) (r : Nat) : Int :=
  sgnOf 32 (leNat ((List.range 4).map (fun k => BitVec.ofNat 8 (s.spByte core (base + bits c 44 24 + 4 * r + k)))))

/-- A weight-store offset of the command's die, unless its world forbids it. -/
def State.wsPlace (s : State) (ctx die o : Nat) : Except Nat Place :=
  let a := 2 ^ 32 * die + o % 2 ^ 32
  if !s.ctxSecure ctx && s.secureWs a then .error 26 else .ok (.ws a)

/-- The place of a far unit (R364). -/
def State.farPlace (s : State) (c : Cmd) (ws : Bool) (k : Acc) (far : Word) : Except Nat Place :=
  if ws then s.wsPlace c.ctx (dieOfCore c.core) far.toNat
  else match s.translate c.ctx far k with
    | .ok pa => .ok (.mem pa)
    | .error e => .error e

/-- The cell whose window holds a place. -/
def State.cellOf (s : State) (p : Place) : Option (Nat × Cell) :=
  match p with
  | .mem a => s.cells.find? (fun x => x.2.cfg.window ≤ a && a < x.2.cfg.window + 256)
  | _ => none

/-- An access to PCIe space of a copy errs (R380): the black box records it. -/
def State.pcieEntry (s : State) (c : Cmd) (p : Place) : State :=
  match p with
  | .mem a => s.bbox (dieOfCore c.core) 1 0x05 (c.core % 132) (warpNo c.warp) c.thread c.ctx [BitVec.ofNat 64 a]
  | _ => s

/-- Sixteen bytes as an engine's plain read finds them at home (R214, R233, R271). -/
def State.engineSight (s : State) (core : Nat) (p : Place) : State × List Byte :=
  let (b, ids) := s.sight (fun v => v.spot != .engine core && s.hideable core v) p 16
  ((s.sees core ids).draw, b)

/-- Sixteen far bytes: all ones where a PCIe request errs. -/
def State.farRead (s : State) (c : Cmd) (err : Bool) (p : Place) : State × List Byte :=
  if err && p.pcie then (s.pcieEntry c p, List.replicate 16 0xFF) else s.engineSight c.core p

/-- The offset in the weight store that unit u of row r reads or writes. -/
def cpWsOff (kind : Nat) (ws : Bool) (a b sh : Word) (r u : Nat) : Option Nat :=
  if kind = 4 then some (b.toNat + r * 16 * cpUnits sh + 16 * u)
  else if ws then some (cpFar kind a sh (fun _ => 0) r u).toNat
  else none

/-- Unit u of row r is written, or the kind of its failure; `err` says that a PCIe request of it would
err. The entry of CPY.ROWS's list is read anew for each unit, from the scratchpad as earlier units have left it (DESIGN
CHOICE, notes/assumptions/51.md). -/
def State.cpUnitRun (s : State) (id : Nat) (c : Cmd) (kind : Nat) (ws : Bool) (a b sh : Word) (base : Nat) (err : Bool)
    (r u : Nat) : Except Nat State :=
  let sp : Place := .sp (0x180000 * c.core + base + cpUnit b r u)
  let far := cpFar kind a sh (s.cpIndex c.core base sh) r u
  let put (s : State) (p : Place) (x : List Byte) : State := s.put (s.engineWriter c.core id) .none p x
  match kind with
  | 3 => .ok (put s sp (leBytes 8 a.toNat ++ leBytes 8 a.toNat))
  | 1 =>
    match s.farPlace c false .w far with
    | .error e => .error e
    | .ok p => if (s.cellOf p).isSome then .error 22
      else if err && p.pcie then .ok (s.pcieEntry c p)
      else .ok ((put s p (s.home sp 16)).dropLine c.core p)
  | 4 =>
    match s.farPlace c false .r far, s.wsPlace c.ctx (dieOfCore c.core) ((cpWsOff 4 ws a b sh r u).getD 0) with
    | .ok p, .ok q =>
      let (s, x) := s.farRead c err p
      .ok (put s q x)
    | .error e, _ | _, .error e => .error e
  | _ =>
    match s.farPlace c ws .r far with
    | .error e => .error e
    | .ok p =>
      let (s, x) := s.farRead c err p
      .ok (put s sp x)

/-- The units in order: rows, and units within a row. -/
def cpList (sh : Word) : List (Nat × Nat) :=
  (List.range (cpRows sh)).flatMap (fun r => (List.range (cpUnits sh)).map (fun u => (r, u)))

/-- A failure: kind, row, unit and far address. -/
abbrev CopyFail := Nat × Nat × Nat × Word

/-- The far place of a unit, where it has one that can be reached by its translation. -/
def State.cpFarPlace (s : State) (c : Cmd) (kind : Nat) (ws : Bool) (a sh : Word) (base r u : Nat) : Option Place :=
  if kind = 3 then none
  else match s.farPlace c ws (if kind = 1 then .w else .r) (cpFar kind a sh (s.cpIndex c.core base sh) r u) with
    | .ok p => some p
    | .error _ => none

/-- What a unit reads, its entry of CPY.ROWS's list included: places and bytes. -/
def State.cpReads (s : State) (c : Cmd) (kind : Nat) (ws : Bool) (a b sh : Word) (base r u : Nat) : List (Place × Nat) :=
  let sp (o : Nat) : Place := .sp (0x180000 * c.core + base + o)
  (if kind = 2 then [(sp (bits sh 44 24 + 4 * r), 4)] else [])
    ++ (if kind = 1 then [(sp (cpUnit b r u), 16)] else (s.cpFarPlace c kind ws a sh base r u).toList.map (fun p => (p, 16)))

/-- A word that a unit reads and that cannot be corrected (R375). -/
def State.cpLost (s : State) (c : Cmd) (kind : Nat) (ws : Bool) (a b sh : Word) (base r u : Nat) : Option Place :=
  ((s.cpReads c kind ws a b sh base r u).find? (fun x => s.lost x.1 x.2)).map (·.1)

/-- The bank of a unit is refreshing (R254). -/
def State.cpBank (s : State) (kind : Nat) (ws : Bool) (a b sh : Word) (r u : Nat) : Bool :=
  ((cpWsOff kind ws a b sh r u).map bankOf) == some s.wsphase

/-- A unit cannot be made: no port reaches its package (R380), or its source cannot be corrected (R375). -/
def State.cpCut (s : State) (c : Cmd) (kind : Nat) (ws : Bool) (a b sh : Word) (base r u : Nat) : Bool :=
  (s.cpFarPlace c kind ws a sh base r u).any (fun p => !s.reaches p) || (s.cpLost c kind ws a b sh base r u).isSome

/-- Unit number, row, and unit of the row. -/
abbrev CopyUnit := Nat × Nat × Nat

/-- The units of a copy that have not been made, in order: those that wait for their bank, then those not reached. -/
def Cmd.cpTodo (c : Cmd) (sh : Word) : List CopyUnit :=
  let xs : List CopyUnit := (cpList sh).zipIdx.map (fun (x, n) => (n, x.1, x.2))
  xs.filter (fun x => c.held.contains x.1) ++ xs.drop c.done

/-- Units into the scratchpad write the same bytes. -/
def sameSlot (kind : Nat) (b : Word) (x y : CopyUnit) : Bool :=
  kind != 4 && cpUnit b x.2.1 x.2.2 = cpUnit b y.2.1 y.2.2

/-- Run units until one fails or cannot be made. One whose bank is refreshing is passed over, and so are later ones that
write its bytes (R232, R254); a unit fails once none before it waits (R368). Answers the units passed over, those not
reached, and the failure. -/
def State.cpRun (id : Nat) (c : Cmd) (kind : Nat) (ws : Bool) (a b sh : Word) (base : Nat) :
    List CopyUnit → List CopyUnit → State → State × List CopyUnit × List CopyUnit × Option CopyFail
  | [], held, s => (s, held, [], none)
  | x :: rest, held, s =>
    let (n, r, u) := x
    if s.cpBank kind ws a b sh r u || held.any (sameSlot kind b x) then
      State.cpRun id c kind ws a b sh base rest (held ++ [x]) s
    else if s.cpCut c kind ws a b sh base r u then (s, held, x :: rest, none)
    else match s.cpUnitRun id c kind ws a b sh base (Config.pcieFails s.tick n) r u with
      | .ok s' => State.cpRun id c kind ws a b sh base rest held s'.draw
      | .error k => (s, held, x :: rest,
          if held.isEmpty then some (k, r, u, cpFar kind a sh (s.cpIndex c.core base sh) r u) else none)

/-- Units after the failing one: each that can be made may still be written (R368). -/
def State.cpTail (id : Nat) (c : Cmd) (kind : Nat) (ws : Bool) (a b sh : Word) (base : Nat) (xs : List CopyUnit)
    (s : State) : State :=
  xs.foldl (fun s (n, r, u) =>
    if Config.copyTail s.tick n && !s.cpBank kind ws a b sh r u && !s.cpCut c kind ws a b sh base r u then
      match s.cpUnitRun id c kind ws a b sh base (Config.pcieFails s.tick n) r u with
      | .ok s' => s'
      | .error _ => s
    else s) s.draw

/-- The unit of a copy that comes next: the first whose bank is not refreshing. -/
def State.cpNext (s : State) (c : Cmd) (kind : Nat) (ws : Bool) (a b sh : Word) : Option (Nat × Nat) :=
  ((c.cpTodo sh).find? (fun x => !s.cpBank kind ws a b sh x.2.1 x.2.2)).map (·.2)

/-- The cell that a CPY.OUT contributes to: one row of 256 bytes at exactly its window (R328). -/
def State.cpCell (s : State) (c : Cmd) (kind : Nat) (a sh : Word) : Option (Nat × Cell) :=
  if kind = 1 && cpRows sh = 1 && cpUnits sh = 16 then
    match s.translate c.ctx a .w with
    | .ok pa => match s.cellOf (.mem pa) with
      | some (k, x) => if x.cfg.window = pa then some (k, x) else none
      | none => none
    | .error _ => none
  else none

/-- The next n units of a copy: those passed over, those not reached, and its failure. -/
def State.cpBody (s : State) (id n : Nat) (c : Cmd) (kind : Nat) (ws : Bool) (a b sh : Word) (base : Nat) :
    State × List CopyUnit × List CopyUnit × Option CopyFail :=
  match s.cpCell c kind a sh with
  | some (k, x) =>
    if x.cfg.members.getLsbD s.trellis.id then
      (s.cellContribute k s.trellis.id ((List.range 16).flatMap (fun u =>
        s.home (.sp (0x180000 * c.core + base + cpUnit b 0 u)) 16)), [], [], none)
    else (s, [], [], some (9, 0, 0, a))
  | none =>
    let todo := c.cpTodo sh
    let (s, held, rest, f) := State.cpRun id c kind ws a b sh base (todo.take n) [] s.draw
    (s, held, rest ++ todo.drop n, f)

/-- CPY.WS has changed the die's weight store: no core of the die keeps a line of it (R256). -/
def State.dropWs (s : State) (die : Nat) : State :=
  (s.cores.keys.filter (fun c => dieOfCore c = die)).foldl (fun s c => s.updCore c (fun x => { x with l1w := [] })) s

/-- A world violation of an engine's far access is also entered in the black box (R378). -/
def State.copyViolation (s : State) (c : Cmd) (f : CopyFail) : State :=
  if f.1 = 26 then
    s.bbox (dieOfCore c.core) 1 0x03 (c.core % 132) (warpNo c.warp) c.thread c.ctx
      [f.2.2.2, BitVec.ofNat 64 c.thread]
  else s

/-- The completion word as a release at the completion scope of the payload and of what precedes it (R233, R272). -/
def State.cpWriter (s : State) (id : Nat) (c : Cmd) (sc : Scope) : Writer :=
  let span := ((s.blocks.get? c.block).map Block.cores).getD []
  let paid := (s.vers.filter (fun v => v.spot == .engine c.core && v.issue = id)).map Ver.id
  { spot := .engine c.core, issue := id, thread := s.nextVer,
    heads := [⟨sc, .engine c.core, span, addAll (s.published c.core sc span) paid⟩], strong := some (sc, span) }

/-- The completion word, after `free` has returned the tiles: the value, or the error value (R233, R369). -/
def State.cpDone (s : State) (id : Nat) (c : Cmd) (sc : Scope) (d : Word) (base : Nat) (f : Option CopyFail) : State :=
  let v := match f with
    | some (k, r, u, _) => errValue k r u
    | none => bits d 63 32
  let s := if d.getLsbD 21 then
      s.put (s.cpWriter id c sc) .none (.sp (0x180000 * c.core + base + bits d 20 0)) (leBytes 4 v)
    else s
  match f with
  | some (k, r, u, far) => (s.copyViolation c (k, r, u, far)).failCopy c (errValue k r u) far
  | none => s

/-- Up to n units of a copy; when it is through or has failed, `free` returns its tiles to the threads and it
completes. With `part` it stops before its last unit or its failure. -/
def State.cpSome (s : State) (id n : Nat) (part : Bool) (c : Cmd) (free : State → State) : State :=
  let base := 4096 * ((s.window c.block c.core).map (·.1)).getD 0
  match c.body with
  | .copy kind ws sc d a b sh =>
    let left := (c.cpTodo sh).length
    let cell := (s.cpCell c kind a sh).isSome
    if part && (cell || left ≤ 1) then s
    else
      let (s, held, rest, f) := s.cpBody id (if part then min n (left - 1) else left) c kind ws a b sh base
      if part || (f.isNone && !(held ++ rest).isEmpty) then
        let next := ((rest.find? (fun x => c.done ≤ x.1)).map (·.1)).getD (cpList sh).length
        { s with cmds := s.cmds.upd id (fun x =>
          { x with done := next, held := ((held ++ rest).map (·.1)).filter (· < next) }) }
      else
        let s := if f.isSome && !cell then State.cpTail id c kind ws a b sh base (rest.drop 1) s else s
        let s := if kind = 4 then s.dropWs (dieOfCore c.core) else s
        (free s).cpDone id c sc d base f
  | _ => free s

/-- All that remains of a copy. -/
def State.cpAll (s : State) (id : Nat) (c : Cmd) (free : State → State) : State := s.cpSome id 0 false c free

end Sys2Proof.Machine
end

