-- ==== Sys2Proof/Machine/Tasks.lean ====
section
/-! DEFINITION. Task commands (R235, R236) and the residency table (R237, R258–R260), with what their units do
at acceptance (R390). -/

namespace Sys2Proof.Machine

/-! ### Sending -/

/-- A command whose address operand is a multiple of 64 (R359). -/
def taskBody (opcode : Nat) (a : Operand) (mk : Word → CmdBody) : Body := fun s iss w p =>
  let x := s.rd iss w p a
  if x.toNat % 64 != 0 then (s, .error (p.flt 7 x))
  else if p.overflows iss.setB then (s, .error (p.flt 14 (BitVec.ofNat 64 (iss.setB.getD 0))))
  else (s, .ok (p.addFx (.cmd (iss.cmd w p opcode (mk x) none))))

def execTspawn (g : Guard) (a : Operand) (s : State) : Result :=
  s.onOp (.tspawn g a) g 1 noReserved (taskBody 0x2C0 a .tspawn)

def execTjob (g : Guard) (a : Operand) (s : State) : Result :=
  s.onOp (.tjob g a) g 1 noReserved (taskBody 0x2C1 a .tjob)

/-- What a test gives on a path. -/
def State.testGives (s : State) (iss : Issue) (w : Warp) (p : Path) (i : Instr) : Bool :=
  match i with
  | .testCmpReg c a b ty => condD c ty (s.rdD iss w p ty a) (s.rdD iss w p ty b)
  | .testCmpImm c a ty imm => condI c ty (s.rdI iss w p ty a) (immWord imm)
  | .testPred clr d => p.depth d != clr
  | _ => false

/-- What remains of a path after its last operation: tests, then an EXIT leaf (R236). -/
def State.endsInExit (s : State) (iss : Issue) (w : Warp) (p : Path) : List (Slot × Word) → Nat → Bool
  | [], _ => false
  | (sl, x) :: rest, pos =>
    if !sl.on pos then s.endsInExit iss w p rest pos
    else match sl, decode sl.pos x with
      | .leaf _, .ok .leafExit => true
      | .test _, .ok i => s.endsInExit iss w p rest (2 * pos + (if s.testGives iss w p i then 1 else 0))
      | _, _ => false

/-- TDONE is not the last operation of its path, or its leaf is not EXIT: reserved, whatever the guard
(R359). -/
def State.doneBad (s : State) (iss : Issue) (w : Warp) (p : Path) : Bool :=
  !s.endsInExit iss w p (((slots iss.header).zip iss.words).drop (p.next + 1)) p.pos

def tdonePath (g : Guard) (iss : Issue) (w : Warp) (s : State) (p : Path) : State × Path :=
  if s.doneBad iss w p then (s, p.fail (iss.fltW p 6))
  else opPath (.tdone g) g 1 noReserved (fun s iss _ p =>
    if p.overflows iss.setB then (s, .error (p.flt 14 (BitVec.ofNat 64 (iss.setB.getD 0))))
    else (s, .ok (p.addFx .tdone))) iss w s p

def execTdone (g : Guard) (s : State) : Result := s.syllable (tdonePath g)

/-- A location value is good (R237, R359). -/
def locOk (x : Word) : Bool :=
  bits x 62 40 = 0 && bits x 39 18 != 0
    && (if x.getLsbD 63 then bits x 17 9 = 0 && bits x 8 0 ≤ 47
        else bits x 17 9 != 0 && bits x 17 9 ≤ 384 && bits x 39 18 ≤ 4096 * bits x 17 9)

/-- A table command: a descriptor fault, or a flag overflow, or the command. -/
def tableBody (opcode : Nat) (dst : Option (BitVec 8)) (ok : Bool) (x : CmdBody) : Body := fun s iss w p =>
  if !ok then (s, .error (iss.fltW p 22))
  else if p.overflows iss.setB then (s, .error (p.flt 14 (BitVec.ofNat 64 (iss.setB.getD 0))))
  else (s, .ok (p.addFx (.cmd (iss.cmd w p opcode x dst))))

/-- TILEREG; a destination of 0x000 names none (R237). -/
def execTilereg (g : Guard) (d : BitVec 8) (a b : Operand) (s : State) : Result :=
  s.onOp (.tilereg g d a b) g 1 noReserved (fun s iss w p =>
    let loc := s.rd iss w p b
    tableBody 0x2C8 (if d = 0 then none else some d) (locOk loc) (.tilereg (s.rd iss w p a) loc) s iss w p)

def execTileq (g : Guard) (d : BitVec 8) (a : Operand) (s : State) : Result :=
  s.onOp (.tileq g d a) g 1 noReserved (fun s iss w p =>
    tableBody 0x2C9 (some d) true (.tileq (s.rd iss w p a)) s iss w p)

def execTiledrop (g : Guard) (a b : Operand) (s : State) : Result :=
  s.onOp (.tiledrop g a b) g 1 noReserved (fun s iss w p =>
    let sel := s.rd iss w p b
    tableBody 0x2CA none (sel.toNat ≤ 1) (.tiledrop (s.rd iss w p a) sel) s iss w p)

/-! ### Seedbed (R235, R390) -/

/-- The writes that the tasks of a sender act after: what a release of it at die scope publishes now (R235, R272). -/
def State.sentView (s : State) (c : Cmd) : List Nat :=
  (s.headNow c.core .die (((s.blocks.get? c.block).map Block.cores).getD [])).view

/-- The item acts after some writes. -/
def Item.after (view : List Nat) (x : Item) : Item :=
  match x with
  | .task r => .task { r with view := view }
  | .card e a size count j b st h next _ => .card e a size count j b st h next view

/-- TSPAWN is accepted: the record is read and queued, or fails. -/
def State.acceptSpawn (s : State) (c : Cmd) (a : Word) : State :=
  let die := dieOfCore c.core
  match s.ctxRead c.ctx a.toNat 64 with
  | .error k => s.unseeded c k a a.toNat 64
  | .ok b =>
    match parseTask b with
    | none => s.failSeed c 22 a false
    | some r =>
      if s.seedFull die c.ctx then s.failFull c a
      else s.seedPush die c.ctx r.priority (Item.after (s.sentView c) (.task r))

/-- TJOB is accepted: the card is read and queued, or fails. -/
def State.acceptJob (s : State) (c : Cmd) (a : Word) : State :=
  let die := dieOfCore c.core
  match s.ctxRead c.ctx a.toNat 64 with
  | .error k => s.unseeded c k a a.toNat 64
  | .ok b =>
    match parseCard b with
    | none => s.failSeed c 22 a false
    | some (x, prio) =>
      if s.seedFull die c.ctx then s.failFull c a else s.seedPush die c.ctx prio (x.after (s.sentView c))

/-! ### The residency table -/

/-- The entry stands for the id's same core or slice. -/
def Resid.same (e : Resid) (ctx : Nat) (id : Word) (slice : Bool) (at_ : Nat) : Bool :=
  e.ctx = ctx && e.id == id && e.slice == slice && (if slice then e.first else e.core) = at_

/-- TILEREG (R237, R258): the entry is entered or replaced; status 0 when the table is full. An entry that stands for the
same core or slice is replaced in a full table too (DESIGN CHOICE, notes/assumptions/56.md). -/
def State.acceptReg (s : State) (c : Cmd) (id loc : Word) : State × Word :=
  let die := dieOfCore c.core
  let slice := loc.getLsbD 63
  let first := bits loc 8 0
  let at_ := if slice then first else c.core
  let others := (s.die die).resid.filter (fun e => !e.same c.ctx id slice at_)
  let e : Resid := ⟨c.ctx, id, slice, if slice then 0 else c.core, first, bits loc 17 9, bits loc 39 18,
    if slice then 0 else c.block, if slice then 0 else ((s.window c.block c.core).map (·.1)).getD 0 + first⟩
  if 16384 ≤ others.length then (s, 0) else (s.updDie die (fun d => { d with resid := others ++ [e] }), 1)

/-- e is a better answer than f (R237): more bytes; then a scratchpad entry; then the lower core or slice. -/
def Resid.better (e f : Resid) : Bool :=
  f.bytes < e.bytes || (f.bytes = e.bytes &&
    ((!e.slice && f.slice) || (e.slice == f.slice &&
      (if e.slice then e.first < f.first else e.core < f.core))))

/-- An entry as TILEQ gives it. -/
def Resid.result (e : Resid) : Word :=
  BitVec.ofNat 64 ((if e.slice then 2 ^ 63 else 0) + 2 ^ 62 + (if e.slice then 0 else e.core % 132) * 2 ^ 48
    + e.bytes * 2 ^ 18 + e.count * 2 ^ 9 + e.first)

/-- TILEQ's reply. -/
def State.tileqReply (s : State) (c : Cmd) (id : Word) : Word :=
  match ((s.die (dieOfCore c.core)).resid.filter (fun e => e.ctx = c.ctx && e.id == id)).foldl
      (fun (r : Option Resid) e => match r with
        | some f => if e.better f then some e else r
        | none => some e) none with
  | some e => e.result
  | none => 0

/-- TILEDROP. -/
def State.acceptDrop (s : State) (c : Cmd) (id sel : Word) : State :=
  s.updDie (dieOfCore c.core) (fun d =>
    { d with resid := d.resid.filter (fun e => !(e.ctx = c.ctx && e.id == id
        && (sel == 1 || (!e.slice && e.core = c.core)))) })

/-- A copy into the scratchpad removes every entry of its core whose tiles meet its tile set, by physical
tile (R234, R259). -/
def State.dropMet (s : State) (core : Nat) (tiles : List Nat) : State :=
  s.updDie (dieOfCore core) (fun d =>
    { d with resid := d.resid.filter (fun e => e.slice || e.core != core ||
        !tiles.any (fun t => e.phys ≤ t && t < e.phys + e.count)) })

end Sys2Proof.Machine
end

