-- ==== Sys2Proof/Machine/SystemOps.lean ====
section
/-! DEFINITION. Page 12: system calls and what the resident system does with them (R239, R314, R315, R384,
R396), TRD, TWR and TRET (R240), BKPT (R241) and IFENCE (R242). -/

namespace Sys2Proof.Machine

/-! ### System calls -/

def State.onSysc (s : State) (i : Instr) (n : BitVec 8) (x : Call) : Result :=
  s.onOp i x.g 1 noReserved (sendBody 0x300 (some x.d) (fun s iss w p =>
    .sysc n (s.rd iss w p x.a) (s.rd iss w p x.b) (s.rd iss w p x.c)))

def execSyscVersion (x : Call) (s : State) : Result := s.onSysc (.syscVersion x) 0 x

def execSyscAlloc (x : Call) (s : State) : Result := s.onSysc (.syscAlloc x) 1 x

def execSyscFree (x : Call) (s : State) : Result := s.onSysc (.syscFree x) 2 x

def execSyscPrint (x : Call) (s : State) : Result := s.onSysc (.syscPrint x) 3 x

def execSyscResolve (x : Call) (s : State) : Result := s.onSysc (.syscResolve x) 4 x

def execSyscNotify (x : Call) (s : State) : Result := s.onSysc (.syscNotify x) 5 x

def execSyscAbort (x : Call) (s : State) : Result := s.onSysc (.syscAbort x) 6 x

def execSyscCapread (x : Call) (s : State) : Result := s.onSysc (.syscCapread x) 7 x

def execSyscEscalate (x : Call) (s : State) : Result := s.onSysc (.syscEscalate x) 8 x

def execSyscUnassigned (n : BitVec 8) (x : Call) (s : State) : Result := s.onSysc (.syscUnassigned n x) n x

/-! ### What a call does when it is served -/

/-- The reply to a call outside its row (R314). -/
def allOnes : Word := BitVec.allOnes 64

/-- Pages of an ALLOC, and the stack on which page k stands (R246). -/
def allocPages (a : Word) : Nat := (a.toNat + 65535) / 65536
def allocStack (die k : Nat) : Nat := if die = 0xFF then k % 8 else 2 * die + k % 2

/-- The pages' frames: each in its stack, holding zeros, in the context's world, used by no other range. -/
def State.allocFrames (s : State) (ctx die : Nat) : Nat → List Nat
  | 0 => []
  | n + 1 => s.allocFrames ctx die n ++ [2 ^ 20 * allocStack die n + Config.allocFrame s.tick n % 2 ^ 20]

def State.frameFree (s : State) (ctx f : Nat) : Bool :=
  s.part.hasMem (65536 * f) && s.mem.all (fun c => c.1 / 65536 != f) && !inCapFrame (65536 * f)
    && (s.ctxSecure ctx || !s.secureMem (65536 * f))
    && s.ctxs.vals.all (fun c => c.allocs.all (fun a => !a.frames.contains f))

/-- A page of the context's address space that nothing maps. -/
def State.pageFree (s : State) (ctx page : Nat) : Bool :=
  match s.translate ctx (BitVec.ofNat 64 (65536 * page)) .r with
  | .error 8 => true
  | _ => false

/-- ALLOC (R314, R315): a new range, or 0 when the request cannot be met. Where the resident system places it
is free (notes/assumptions/31.md). -/
def State.sysAlloc (s : State) (ctx die : Nat) (a : Word) : State × Word :=
  let n := allocPages a
  let page := 1 + Config.allocPage s.tick % 2 ^ 40
  let frames := s.allocFrames ctx die n
  let ok := n ≤ 2 ^ 23 && page + n ≤ 2 ^ 40 && frames.eraseDups.length = n
    && frames.all (s.frameFree ctx) && (List.range n).all (fun k => s.pageFree ctx (page + k))
  let s := s.draw
  if ok then
    (s.updCtx ctx (fun c => { c with allocs := c.allocs ++ [⟨65536 * page, frames⟩] }),
      BitVec.ofNat 64 (65536 * page))
  else (s, 0)

/-- FREE of a range: accesses before it are performed, its reservations go, and its frames are zero again. -/
def State.sysFree (s : State) (ctx : Nat) (x : Alloc) : State :=
  let s := s.settle
  let held (a : Nat) : Bool := x.frames.contains (a / 65536)
  let s := s.clearResv (fun _ _ r => held (32 * r.granule))
  State.updCtx { s with
    mem := s.mem.filter (fun c => !held c.1)
    vers := s.vers.filter (fun v => match v.place with
      | .mem pa => !held pa
      | _ => true)
    cores := s.cores.map (fun c => (c.1, { c.2 with l1 := c.2.l1.filter (fun l => !held (64 * l.1)) })) } ctx
    (fun c => { c with allocs := c.allocs.filter (· != x) })

/-- A plain load of the byte behind the warp's queue cannot give it: it comes from its home, where its word cannot be
corrected (R375), or from a package that no port reaches (R380). -/
def State.noByte (s : State) (stq : List StItem) (core pa : Nat) : Bool :=
  s.unreadable pa && s.fromHome core true noSkip stq [] (.mem pa) 0

/-- The bytes of a PRINT as plain loads behind the warp's queue read them, or none (R265, R315). -/
def State.printBytes (s : State) (stq : List StItem) (ctx core va : Nat) : Nat → Option (List Byte)
  | 0 => some []
  | n + 1 =>
    match s.translate ctx (BitVec.ofNat 64 va) .r with
    | .error _ => none
    | .ok pa =>
      if s.noByte stq core pa then none
      else (s.printBytes stq ctx core (va + 1) n).map (fun r =>
        (s.loadBytes core true noSkip (s.hideable core) stq [] (.mem pa) 1).1 ++ r)

/-- A PRINT of bytes that its thread's world may not read is entered in the black box, at the first of them (R324, R378). -/
def State.printBarred (s : State) (c : Cmd) (va n : Nat) : State :=
  match (List.range n).find? (fun i => match s.translate c.ctx (BitVec.ofNat 64 (va + i)) .r with
      | .error k => k = 26
      | .ok _ => false) with
  | some i => s.bbox (dieOfCore c.core) 0 0x03 (c.core % 132) (warpNo c.warp) c.thread c.ctx
      [BitVec.ofNat 64 (va + i), BitVec.ofNat 64 c.thread]
  | none => s

/-- The body of the capability entry with an id (R319). -/
def capBody (id : Nat) : Nat → List Byte → Option (List Byte)
  | 0, _ => none
  | n + 1, b =>
    let h := fieldLE b 0 8
    let len := h / 2 ^ 32
    if b.isEmpty || h % 65536 = 0 || len < 8 then none
    else if h % 65536 = id then some ((b.take len).drop 8)
    else capBody id n (b.drop len)

/-- CAPREAD (R314). -/
def State.capRead (s : State) (a b : Word) : Word :=
  match capBody a.toNat s.host.caps.length s.host.caps with
  | none => allOnes
  | some x =>
    if b.toNat % 8 != 0 || x.length < b.toNat + 8 then allOnes
    else BitVec.ofNat 64 (fieldLE x b.toNat 8)

/-- Serve a call (R314): the state, and the reply if there is one yet. -/
def State.serve (s : State) (c : Cmd) (n : BitVec 8) (a b d : Word) : State × Option Word :=
  let none2 : Bool := b == 0 && d == 0
  match n.toNat with
  | 0 => (s, some (if a == 0 && none2 then BitVec.ofNat 64 (3 * 2 ^ 48 + Config.systemVersion.toNat) else allOnes))
  | 1 =>
    if a != 0 && (b.toNat ≤ 3 || b.toNat = 0xFF) && d == 0 then
      let (s, r) := s.sysAlloc c.ctx b.toNat a
      (s, some r)
    else (s, some allOnes)
  | 2 =>
    match ((s.ctxs.get? c.ctx).map Ctx.allocs).getD [] |>.find? (fun x => x.va = a.toNat) with
    | some x => if none2 then (s.sysFree c.ctx x, some 0) else (s, some allOnes)
    | none => (s, some allOnes)
  | 3 =>
    if 1 ≤ b.toNat && b.toNat ≤ 4096 && d == 0 then
      match s.printBytes (((s.member c.block c.warp).map Warp.stq).getD []) c.ctx c.core a.toNat b.toNat with
      | some x => ({ s with host := { s.host with prints := s.host.prints ++ [(c.ctx, x)] } }, some 0)
      | none => (s.printBarred c a.toNat b.toNat, some allOnes)
    else (s, some allOnes)
  | 4 =>
    match ((s.ctxs.get? c.ctx).map Ctx.imports).getD [] |>.find? (fun x => x.1 == a) with
    | some x => (s, some (if none2 then x.2 else allOnes))
    | none => (s, some allOnes)
  | 5 =>
    if none2 then ({ s with host := { s.host with notifies := s.host.notifies ++ [(c.ctx, a)] } }, some 0)
    else (s, some allOnes)
  | 6 =>
    if abortOk a b d then
      (s.doom c.launch (0x00040000 + a.toNat)
        (mcheck 0 (dieOfCore c.core) 0 0 (c.core % 132) (warpNo c.warp) c.thread (c.clause.zeroExtend 64)), none)
    else (s, some allOnes)
  | 7 => (s, some (if d == 0 then s.capRead a b else allOnes))
  | 8 =>
    if c.thread = 32 && none2 && s.hasDebugger c.ctx then
      match s.warp? c.warp with
      | some w =>
        if w.freeze = some .running then
          (State.escalate { s with host := { s.host with reports := s.host.reports ++ [(c.ctx, a)] } } c.warp w
            [w.trappc, w.trapinfo], none)
        else (s, some allOnes)
      | none => (s, some allOnes)
    else (s, some allOnes)
  | _ => (s, some allOnes)

/-! ### TRD and TWR (R240) -/

/-- The kind under which selector 0x130 shows a blocked thread. -/
def blockedKind : Blocked → Nat
  | .join _ => 0
  | .barrier _ => 1
  | .waita _ => 2
  | .ring .. => 3
  | .grow _ => 4
  | .token => 5

/-- A selector that the table names. -/
def selOk (k : Nat) : Bool :=
  k ≤ 0x105 || (0x108 ≤ k && k ≤ 0x10B) || (0x110 ≤ k && k ≤ 0x11B) || k = 0x120 || k = 0x121 || k = 0x130
    || (0x140 ≤ k && k ≤ 0x143) || (0x200 ≤ k && k ≤ 0x23F) || (0x400 ≤ k && k ≤ 0x9FF)

/-- The state that a selector names in thread t of a warp. A barrier that the block does not have reads
zero. -/
def State.trdVal (s : State) (w : Warp) (t k : Nat) : Word :=
  let th := w.thread t
  let n (x : Nat) : Word := BitVec.ofNat 64 x
  if k < 0x100 then th.v.get 0 k
  else if k = 0x100 then th.d.zeroExtend 64
  else if k = 0x101 then th.flags.zeroExtend 64
  else if k = 0x102 then th.pc.zeroExtend 64
  else if k = 0x103 then th.rsp
  else if k = 0x104 then th.spill.zeroExtend 64
  else if k = 0x105 then n th.ret.length
  else if k < 0x10C then (th.ret.getD (k - 0x108) 0).zeroExtend 64
  else if k < 0x11C then n (th.f.get 0 (k - 0x110))
  else if k = 0x120 then th.trapWord
  else if k = 0x121 then th.detail
  else if k = 0x130 then
    n ((if th.life == .live then 1 else 0) + (match th.blocked with
      | b :: _ => 2 + 4 * blockedKind b
      | [] => 0))
  else if k < 0x144 then
    match th.arrivals.get? (k - 0x140), s.blocks.get? w.block with
    | some e, some b => if outstanding b e then n (2 ^ 9 + 2 * e.1 + (if e.2 then 1 else 0)) else 0
    | _, _ => 0
  else if k < 0x240 then
    let j := w.join ((k - 0x200) / 4)
    match k % 4 with
    | 0 => j.expected.zeroExtend 64
    | 1 => j.signed.zeroExtend 64
    | 2 => j.waiters.zeroExtend 64
    | _ => if j.lost then 1 else 0
  else if k < 0x800 then
    match s.blocks.get? w.block with
    | none => 0
    | some b =>
      let m := (k - 0x400) / 4
      if b.nbars ≤ m then 0
      else
        let x := b.bar m
        match k % 4 with
        | 0 => n x.e
        | 1 => n x.a
        | 2 => n x.x
        | _ => n ((if x.p then 1 else 0) + (if x.d then 2 else 0))
  else w.s.get 0 (k - 0x800)

/-- The depth of thread t's return stack after the writes performed before. -/
def depthAfter (w : Warp) (t : Nat) (edits : List (Nat × Nat × Word)) : Nat :=
  ((edits.filter (fun e => e.1 = t && e.2.1 < 0x800)).foldl (fun th e => th.edit e.2.1 e.2.2)
    (w.thread t)).ret.length

/-- A write that is a reserved use. -/
def twrBad (w : Warp) (t k : Nat) (x : Word) (edits : List (Nat × Nat × Word)) : Bool :=
  !selOk k || k = 0x120 || k = 0x121
    || (k = 0x130 && x.getLsbD 0 && (w.thread t).life != .live)
    || (k = 0x105 && 4 < x.toNat)
    || (0x108 ≤ k && k ≤ 0x10B && depthAfter w t edits ≤ k - 0x108)

/-- The writes of the handler so far: those of committed clauses, then those of this path. -/
def editsSoFar (w : Warp) (p : Path) : List (Nat × Nat × Word) :=
  w.edits ++ p.fx.filterMap (fun x => match x with
    | .edit t k v => some (t, k, v)
    | _ => none)

/-- The machine as the handler's TWRs of this clause that act at once will leave it: they act at its commit, and its
later syllables read what they have written (R240, R395). -/
def State.overlay (s : State) (iss : Issue) (p : Path) : State :=
  p.fx.foldl (fun s x => match x with
    | .twr t k v => s.twrNow iss.warp t k v
    | _ => s) s

def State.warpNow (s : State) (iss : Issue) (w : Warp) : Warp := (s.warp? iss.warp).getD w

def trdBad (b : Operand) : Reserved := fun s iss w p => !selOk (s.rd iss w p b).toNat

def execTrd (g : Guard) (d : BitVec 8) (a b : Operand) (s : State) : Result :=
  s.onOp (.trd g d a b) g 1 (trdBad b) (fun s iss w p =>
    let s' := s.overlay iss p
    (s, .ok (p.setV d (s'.trdVal (s'.warpNow iss w) ((s.rd iss w p a).toNat % 32) (s.rd iss w p b).toNat))))

def twrReserved (a b c : Operand) : Reserved := fun s iss w p =>
  let w' := (s.overlay iss p).warpNow iss w
  twrBad w' ((s.rd iss w p a).toNat % 32) (s.rd iss w p b).toNat (s.rd iss w p c) (editsSoFar w' p)

def execTwr (g : Guard) (a b c : Operand) (s : State) : Result :=
  s.onOp (.twr g a b c) g 1 (twrReserved a b c) (fun s iss w p =>
    let t := (s.rd iss w p a).toNat % 32
    let k := (s.rd iss w p b).toNat
    let x := s.rd iss w p c
    (s, .ok (p.addFx (if atOnce k then .twr t k x else .edit t k x))))

/-- TWR of 0 to selector 0x130: it kills the thread. -/
def execTwrKill (g : Guard) (a : Operand) (s : State) : Result :=
  s.onOp (.twrKill g a) g 1 noReserved (fun s iss w p =>
    (s, .ok (p.addFx (.twr ((s.rd iss w p a).toNat % 32) 0x130 0))))

def execTret (g : Guard) (s : State) : Result := s.alu (.tret g) g 1 (fun _ _ _ p => p.addFx .tret)

/-! ### BKPT and IFENCE -/

/-- BKPT traps after the issue when the warp has breakpoints enabled; never in the handler or in a save or
restore routine (R241, R386, R393). -/
def execBkpt (g : Guard) (n : BitVec 8) (s : State) : Result :=
  s.alu (.bkpt g n) g 1 (fun _ _ w p =>
    if w.dbg.bkpt && w.freeze.isNone && w.save.isNone then p.addFx (.bkpt (p.next + 1) n) else p)

def execIfence (s : State) : Result := s.alu .ifence .always 1 (fun _ _ _ p => p.addFx .ifence)

end Sys2Proof.Machine
end

