-- ==== Sys2Proof/Machine/Lanes.lean ====
section
/-! DEFINITION. The scheduler of a sub-core and its lanes as steps of their own: SUBCORE_GRANT, WARP_SWAP,
STALL_LIMIT_EXPIRY, HOLD_LIMIT_EXPIRY (R43, R299, R407, R151) and GROW_GRANT (R238). Each acts on the part
that `State.turn` names and changes nothing where its condition does not hold. -/

namespace Sys2Proof.Machine

/-- The active warp of the lane is ready. -/
def State.activeReady (s : State) (lane : Nat) : Bool :=
  match s.warp? (s.activeSlot lane) with
  | some w => s.warpStand (s.activeSlot lane) w == .ready
  | none => false

/-- No issue of the lane is in progress or about to start, and it is not swapping. A grant lapses when the warp cannot
use it (R43). -/
def State.laneFree (s : State) (lane : Nat) : Bool :=
  (s.lane lane).busy ≤ s.clock && !((s.lane lane).granted && s.activeReady lane && !s.mustSwap lane)
    && s.parked.keys.all (fun w => laneOf w != lane)

/-- A lane that the round robin does not pass over. -/
def State.grantable (s : State) (lane : Nat) : Bool :=
  s.laneFree lane && s.activeReady lane && !s.mustSwap lane

/-- The lanes of a sub-core in the order of the round robin: from the one after the last granted. -/
def State.roundRobin (s : State) (sub : Nat) : List Nat :=
  (List.range 8).map (fun k => 8 * sub + (s.rr.get 7 sub + 1 + k) % 8)

/-- SUBCORE_GRANT at sub-core `turn.ix`. -/
def execSubcoreGrant (s : State) : Result :=
  s.event (fun s =>
    match (s.roundRobin s.turn.ix).find? s.grantable with
    | some lane => State.updLane { s with rr := s.rr.set 7 s.turn.ix (lane % 8) } lane (fun l => { l with granted := true })
    | none => s)

/-- The lane swaps when `due` says so and a pending warp is ready. -/
def State.swapWhen (s : State) (lane : Nat) (due : Bool) : State :=
  match s.pendingReady lane with
  | some k => if due && s.laneFree lane then s.swapIn lane k else s
  | none => s

/-- WARP_SWAP at lane `turn.ix`: the active warp has ended, or case 1 of R43, or every thread has yielded. -/
def execWarpSwap (s : State) : Result := s.event (fun s => s.swapWhen s.turn.ix (s.swapDue s.turn.ix))

/-- STALL_LIMIT_EXPIRY at lane `turn.ix`: 64 cycles stalled (case 2). -/
def execStallLimitExpiry (s : State) : Result :=
  s.event (fun s => s.swapWhen s.turn.ix (match (s.lane s.turn.ix).stalled with
    | some t => t + 64 ≤ s.clock + (s.lane s.turn.ix).stallSum
    | none => false))

/-- HOLD_LIMIT_EXPIRY at lane `turn.ix`: 4,096 cycles held by a warp that is not stalled (case 3). -/
def execHoldLimitExpiry (s : State) : Result :=
  s.event (fun s =>
    s.swapWhen s.turn.ix ((s.lane s.turn.ix).since + 4096 ≤ s.clock && s.activeReady s.turn.ix))

/-- GROW_GRANT at lane `turn.ix`, when the warp at the head of its queue is at an issue boundary. -/
def execGrowGrant (s : State) : Result :=
  s.event (fun s =>
    match (s.lane s.turn.ix).grows with
    | slot :: _ => if (s.parked.get? slot).isSome then s else s.grantGrow s.turn.ix
    | [] => s)

end Sys2Proof.Machine
end

