-- ==== Sys2Proof/Machine/Events.lean ====
section
/-! DEFINITION. The memory system and the units as steps of their own: completions of loads (R58, R59), stores,
atomics and contributions at their homes (R195, R196, R331), acceptance and completion of commands (R211–R214,
R225–R235, R365), waits on an address (R199), the refresh slot (R254), errors (R374–R377, R380) and eviction
(R248). Each acts on the part that `State.turn` names and changes nothing where its condition does not
hold. -/

namespace Sys2Proof.Machine

/-- An issue of the warp slot is in progress. -/
def State.issuing (s : State) (slot : Nat) : Bool := (s.parked.get? slot).isSome

/-! ### Loads -/

/-- A data-returning operation completes: its destination is written, then its flag falls (R58). -/
def State.landLoad (s : State) (id : Nat) (l : Load) (vals : List Word) : State :=
  let s := { s with loads := s.loads.del id }
  let flag (s : State) : State := match l.flag with
    | some k => s.decFlag l.warp (l.thread, k)
    | none => s
  match l.dst with
  | .v r => flag (s.updWarp l.warp (fun w => w.updThread l.thread (fun th =>
      { th with v := th.v.set 0 r.toNat (vals.headD 0) })))
  | .m m _ _ => flag (s.updWarp l.warp (fun w => w.updThread l.thread (fun th =>
      { th with v := vals.zipIdx.foldl (fun v (x, k) => v.set 0 (winFirst m + k) x) th.v })))
  | .s r ps =>
    ps.foldl (fun s x => match x.2 with
      | some k => s.decFlag l.warp (x.1, k)
      | none => s) (s.updWarp l.warp (fun w => { w with s := w.s.set 0 r.toNat (vals.headD 0) }))
  | .pc => s

/-! ### Errors in data (R375–R377) -/

/-- The code of a store in R377. -/
def storeCode : ErrStore → Nat
  | .laneFile => 0
  | .uniform => 1
  | .scratchpad => 2
  | .l1Data => 3
  | .l1Instr => 4
  | .l2 => 5
  | .hbm => 6
  | .weight => 7
  | .dieTables => 8

/-- The end of a launch by a machine check (R375, R376). -/
def State.machineCheck (s : State) (launch : Nat) (m : MCheck) : State := s.doom launch 0x00010002 m

/-- An operation's data is lost: the operation's launch ends; its destination is not written (R375). -/
def State.loseLoad (s : State) (l : Load) (store loc : Nat) : State :=
  s.machineCheck (((s.warp? l.warp).map Warp.launch).getD 0)
    (mcheck 25 (dieOf l.warp) store loc (coreOf l.warp % 132) (warpNo l.warp) l.thread (l.clause.zeroExtend 64))

/-- The place whose data an operation should return, where its read or its home has given it no value: the data cannot
be corrected (R375). -/
def State.lostPlace (s : State) (l : Load) (vals : List Word) : Option Place :=
  if vals.isEmpty then some ((l.places.find? (fun p => s.lost p l.bytes)).getD l.place) else none

/-- Data that a command reads is lost: the command's launch ends (R375). -/
def State.loseCmd (s : State) (c : Cmd) (store loc : Nat) : State :=
  s.machineCheck c.launch
    { mcheck 25 (dieOfCore c.core) store loc (c.core % 132) (warpNo c.warp) c.thread (c.clause.zeroExtend 64) with
      source := match c.body with
        | .copy .. => 1
        | .matrix .. => 2
        | .sweep .. => 3
        | _ => 0 }

/-- LOAD_COMPLETION of operation `turn.ix`, when its values have come, its bank is not refreshing and its warp is at an
issue boundary. Data that cannot be corrected ends the launch (R375). -/
def execLoadCompletion (s : State) : Result :=
  s.event (fun s =>
    match s.loads.get? s.turn.ix with
    | some l =>
      match l.val with
      | some vals =>
        if s.issuing l.warp || l.held || !l.places.all s.reaches then s
        else match s.lostPlace l vals with
          | some p => s.loseLoad l p.store.1 p.store.2
          | none => s.landLoad s.turn.ix l vals
      | none => s
    | none => s)

/-! ### Stores and atomics -/

/-- Item `turn.k` on its way from core `turn.ix` is performed at its home if it is of the kind and may be. -/
def State.arriveIf (s : State) (kind : StKind → Bool) : State :=
  match (s.core s.turn.ix).flight[s.turn.k]? with
  | some i =>
    if kind i.kind && s.reaches i.place && mayPerform (s.core s.turn.ix).flight s.turn.k then s.arrive s.turn.ix s.turn.k
    else s
  | none => s

/-- STORE_PERFORM: with `turn.flag`, the head of warp slot `turn.ix`'s queue leaves it; else a store or fence
arrives. -/
def execStorePerform (s : State) : Result :=
  s.event (fun s =>
    if s.turn.flag then s.depart s.turn.ix
    else s.arriveIf (fun k => match k with
      | .store _ | .fence => true
      | _ => false))

def execAtomicAtHome (s : State) : Result :=
  s.event (fun s => s.arriveIf (fun k => match k with
    | .atom .. | .scond .. => true
    | _ => false))

def execOrderedContributionArrival (s : State) : Result :=
  s.event (fun s => s.arriveIf (fun k => match k with
    | .contrib .. => true
    | _ => false))

def execOrdfApplication (s : State) : Result :=
  s.event (fun s => s.arriveIf (fun k => match k with
    | .ordf _ => true
    | _ => false))

/-! ### Acceptance of commands -/

/-- The units: copy, matrix, sweep, Seedbed, residency table, resident system; MXWAIT and VSWAIT, which wait
by themselves. -/
inductive Unit_ where
  | copy | matrix | sweep | seedbed | table | system | wait
  deriving DecidableEq, Repr

def CmdBody.unit (x : CmdBody) : Unit_ :=
  match x with
  | .copy .. => .copy
  | .matrix .. => .matrix
  | .sweep .. => .sweep
  | .tspawn _ | .tjob _ => .seedbed
  | .tilereg .. | .tileq _ | .tiledrop .. => .table
  | .sysc .. => .system
  | .mxwait _ | .vswait => .wait

/-- The owner code of an engine (R213). -/
def Unit_.owner : Unit_ → BitVec 2
  | .copy => 1
  | .matrix => 2
  | .sweep => 3
  | _ => 0

/-- An earlier command of the same unit and core has not been accepted; a call handed to the debugger holds up
none. -/
def State.behind (s : State) (id : Nat) (c : Cmd) : Bool :=
  c.body.unit != .wait && s.cmds.any (fun x => x.1 < id && !x.2.accepted && x.2.core = c.core
    && x.2.body.unit == c.body.unit && !(x.2.body.unit == .system && x.2.done != 0))

/-- What MXWAIT and VSWAIT wait for has completed (R227, R231). -/
def State.waitOver (s : State) (id : Nat) (c : Cmd) : Bool :=
  match c.body with
  | .mxwait mask => s.cmds.all (fun x => !(x.1 < id && x.2.block = c.block && x.2.core = c.core
      && match x.2.body with
        | .matrix _ str .. => mask.getLsbD str.toNat
        | _ => false))
  | .vswait => s.cmds.all (fun x => !(x.1 < id && x.2.block = c.block && x.2.warp = c.warp
      && x.2.thread = c.thread && match x.2.body with
        | .sweep .. => true
        | _ => false))
  | _ => true

/-- The physical tiles that the words of a command name. -/
def State.namedTiles (s : State) (c : Cmd) : List Nat :=
  c.body.tiles.map ((((s.window c.block c.core).map (·.1)).getD 0) + ·)

/-- The physical tiles of a command's tile set: those of a sparse operand's rows as its bitmaps stand (R212). -/
def State.physTiles (s : State) (c : Cmd) : List Nat :=
  let (base, size) := (s.window c.block c.core).getD (0, 0)
  (s.namedTiles c ++ ((mxSparseTiles (s.spByte c.core) base c.body).filter (· < size)).map (base + ·)).eraseDups

/-- The path has an access to the tiles that has passed its owner check. -/
def Path.onTiles (p : Path) (core : Nat) (tiles : List Nat) : Bool :=
  p.fx.any (fun x => match x with
    | .item i | .atomLoad i _ => i.place.onTiles core tiles
    | .load l | .ldu _ l => l.val.isNone && !l.peek && l.places.any (fun q => q.onTiles core tiles)
    | .waita x _ => x.place.onTiles core tiles
    | _ => false)

/-- An access that has passed its owner check waits for its issue's end (R365). -/
def State.checkedAccess (s : State) (core : Nat) (tiles : List Nat) : Bool :=
  s.parked.vals.any (fun iss => iss.paths.any (fun p => p.onTiles core tiles))

/-- The item of a slot's warp precedes the command: its thread's, for a matrix command its warp's, and a handler's and
its warp's precede each other's (R343); or its thread may act after it (R214, R263, R272). -/
def StItem.precedes (i : StItem) (slot : Nat) (c : Cmd) : Bool :=
  let whole : Bool := match c.body with
    | .matrix .. => true
    | _ => false
  i.pub || (i.warp = slot && (whole || i.thread = c.thread || i.thread = 32 || c.thread = 32))

/-- What precedes the command has been performed (R214, R235, R239, R272). An ended warp's items keep its number beyond
the slots. -/
def State.drainFor (s : State) (c : Cmd) : State :=
  if (s.member c.block c.warp).isSome then s.force c.warp (fun i => i.precedes c.warp c)
  else s.forceCore c.core (fun i => i.precedes (c.warp + 960000) c)

/-- The unit may take the tiles: each belongs to the threads or to it. -/
def State.tilesFree (s : State) (c : Cmd) (tiles : List Nat) : Bool :=
  tiles.all (fun t => let o := (s.core c.core).owner.get 0 t; o == 0 || o == c.body.unit.owner)

/-- The tiles flip to the unit (R213). -/
def State.takeTiles (s : State) (c : Cmd) (tiles : List Nat) : State :=
  s.updCore c.core (fun x => tiles.foldl (fun x t =>
    { x with
      owner := x.owner.set 0 t c.body.unit.owner
      count := x.count.set 0 t (x.count.get 0 t + 1)
      flips := if x.owner.get 0 t = 0 then x.flips.set 0 t s.nextVer else x.flips
      freed := if x.owner.get 0 t = 0 then x.freed.del t else x.freed }) x)

/-- The flags that the command holds up fall. -/
def State.dropFlags (s : State) (c : Cmd) : State := c.flags.foldl (fun s x => s.decFlag c.warp x) s

/-- The reply: the destination is written before the flags fall (R211). -/
def State.reply (s : State) (id : Nat) (c : Cmd) (v : Word) : State :=
  let s := match c.dst with
    | some r => s.updWarp c.warp (fun w => w.updThread c.thread (fun th => { th with v := th.v.set 0 r.toNat v }))
    | none => s
  State.dropFlags { s with cmds := s.cmds.del id } c

/-- The unit may take the tiles now (R213, R365). -/
def State.mayTake (s : State) (c : Cmd) (tiles : List Nat) : Bool := s.tilesFree c tiles && !s.checkedAccess c.core tiles

/-- The command has the tiles: a copy into the scratchpad removes the residency entries that meet them (R234), and what
it holds up falls. -/
def State.seated (s : State) (id : Nat) (c : Cmd) (tiles : List Nat) : State :=
  let s := (s.drainTiles c.core tiles).takeTiles c tiles
  let s := match c.body with
    | .copy kind .. => if kind = 0 || kind = 2 || kind = 3 then s.dropMet c.core tiles else s
    | _ => s
  State.dropFlags { s with cmds := s.cmds.upd id (fun x => { x with accepted := true, tiles := tiles, flags := [] }) } c

/-- An engine accepts a command: the tiles that a sparse operand's bitmaps add are known once what precedes the command
stands in the tiles that its words name (R212, R214). -/
def State.acceptEngine (s : State) (id : Nat) (c : Cmd) : State :=
  if !s.mayTake c (s.namedTiles c) then s
  else
    let t := (s.drainFor c).drainTiles c.core (s.namedTiles c)
    if t.mayTake c (t.physTiles c) then t.seated id c (t.physTiles c) else s

/-- A unit accepts a command (R213): a command whose unit answers at once is done with it. -/
def State.accept (s : State) (id : Nat) (c : Cmd) : State :=
  match c.body with
  | .copy .. | .matrix .. | .sweep .. => s.acceptEngine id c
  | .mxwait mask => s.reply id c (mxReply (s.core c.core) mask)
  | .vswait => s.reply id c 0
  | .tspawn a => ((s.drainFor c).acceptSpawn c a).reply id c 0
  | .tjob a => ((s.drainFor c).acceptJob c a).reply id c 0
  | .tilereg i loc => let (s, v) := s.acceptReg c i loc; s.reply id c v
  | .tileq i => s.reply id c (s.tileqReply c i)
  | .tiledrop i sel => (s.acceptDrop c i sel).reply id c 0
  | .sysc n a b d =>
    match (s.drainFor c).serve c n a b d with
    | (s, some v) => (s.reply id c v).discardL1 c.core
    | (s, none) => { s with cmds := s.cmds.upd id (fun x => { x with done := 1 }) }

/-- COMMAND_ACCEPT of command `turn.ix`, its warp at an issue boundary. -/
def execCommandAccept (s : State) : Result :=
  s.event (fun s =>
    match s.cmds.get? s.turn.ix with
    | some c =>
      if c.accepted || c.done != 0 || s.ending c.launch || s.behind s.turn.ix c || !s.waitOver s.turn.ix c || s.issuing c.warp then s
      else s.accept s.turn.ix c
    | none => s)

/-! ### Completion of commands -/

/-- The tiles' counts fall; a tile that no command names returns to the threads, after every write of the commands that
have named it since it left them (R213, R214). -/
def State.freeTiles (s : State) (core id : Nat) (tiles : List Nat) : State :=
  let mine := (s.vers.filter (fun v => v.spot == .engine core && v.issue = id)).map Ver.id
  s.updCore core (fun x => tiles.foldl (fun x t =>
    let n := x.count.get 0 t - 1
    { x with
      count := x.count.set 0 t n
      owner := if n = 0 then x.owner.del t else x.owner
      freed := x.freed.set [] t (addAll (x.freed.get [] t) mine) }) x)

/-- The command leaves its unit. -/
def State.finishCmd (s : State) (id : Nat) (c : Cmd) : State :=
  State.freeTiles { s with cmds := s.cmds.del id } c.core id c.tiles

/-- An accepted command of the same core must complete first: sweeps in acceptance order, matrix commands in
that of their stream (R225, R231). -/
def State.inLine (s : State) (id : Nat) (c : Cmd) : Bool :=
  s.cmds.any (fun x => x.1 < id && x.2.accepted && x.2.core = c.core && match x.2.body, c.body with
    | .sweep .., .sweep .. => true
    | .matrix _ a .., .matrix _ b .. => a == b
    | _, _ => false)

/-- The bytes that a sweep's rows read: offset in the core's scratchpad and length. The destination is a source of VSW.FMA
alone (R230). -/
def vsReads (base op : Nat) (d a b c : Word) (F G : Fmt) (rows : List Nat) : List (Nat × Nat) :=
  rows.flatMap (fun r => (List.range (vsElems c)).flatMap (fun e =>
    let at_ (x : Word) (X : Fmt) : Nat × Nat := (base + (walkAt x r e).toNat, X.width / 8)
    at_ a F :: (if vsTwo op then [at_ b F] else []) ++ (if op = 2 then [at_ d G] else [])))

/-- The bytes of an operand that a chunk reads from position `pos` on, at index k. -/
def mxOpReads (base : Nat) (o : MxOp) (pos k : Nat) : List (Nat × Nat) :=
  (List.range 128).flatMap (fun r =>
    (List.range (2 * mxBits o.f)).map (fun x => (mxPlace base o.geo r (pos * mxBits o.f / 8 + x), 1))
      ++ if mxScaled o.f then [(4096 * base + o.side + 2 * (r * o.nblk + k / o.len), 2)] else [])

/-- The bytes that a matrix command reads for its next chunks, n at most where there is a bound: the bitmaps of a sparse
one, then the accumulator and both operands of each chunk (R125, R225). MXZERO reads nothing. -/
def State.mxReads (s : State) (c : Cmd) (n : Option Nat) : List (Nat × Nat) :=
  let base := ((s.window c.block c.core).map (·.1)).getD 0
  match c.body with
  | .matrix kind _ _ acc fmt a0 a1 b0 b1 =>
    let rest := (s.mxStart c).mxRest c base
    let cs := match n with
      | some n => rest.take n
      | none => rest
    (if kind = 1 then [(4096 * (base + bits fmt 38 30), 16)] else [])
      ++ (if cs.isEmpty then [] else [(4096 * (base + acc.toNat), 65536)])
      ++ cs.flatMap (fun x => mxOpReads base (mxOpA kind fmt a0 a1) x.pa x.k
        ++ mxOpReads base (mxOpB kind fmt b0 b1) x.pb x.k)
  | _ => []

/-- A word of the core's scratchpad in one of some runs of bytes that cannot be corrected. -/
def State.badAmong (s : State) (core : Nat) (xs : List (Nat × Nat)) : Option Place :=
  s.bad.find? (fun p => xs.any (fun x => overlap p 8 (.sp (0x180000 * core + x.1)) x.2))

/-- A word that the command is about to read and that cannot be corrected (R375): in the next n rows or chunks, or in all
that remain. -/
def State.lostNext (s : State) (c : Cmd) (n : Option Nat) : Option Place :=
  match c.body with
  | .matrix .. => s.badAmong c.core (s.mxReads c n)
  | .sweep op _ d a b ctl =>
    match vsSrc ctl, vsDst ctl with
    | some F, some G =>
      let rest := (List.range (vsRows ctl)).drop c.done
      let rows := match n with
        | some n => rest.take n
        | none => rest
      s.badAmong c.core (vsReads (4096 * ((s.window c.block c.core).map (·.1)).getD 0) op d a b ctl F G rows)
    | _, _ => none
  | .copy kind ws _ _ a b sh =>
    let base := 4096 * ((s.window c.block c.core).map (·.1)).getD 0
    if (s.cpCell c kind a sh).isSome then (List.range 16).findSome? (s.cpLost c kind ws a b sh base 0)
    else (s.cpNext c kind ws a b sh).bind (fun x => s.cpLost c kind ws a b sh base x.1 x.2)
  | _ => none

/-- Of all that remains. -/
def State.lostRead (s : State) (c : Cmd) : Option Place := s.lostNext c none

/-- The work of an engine on an accepted command: all that remains, or with `part` some chunks of it, n + 1 at
most. -/
def State.work (s : State) (id n : Nat) (part : Bool) (c : Cmd) : State :=
  match c.body with
  | .copy .. => s.cpSome id (n + 1) part c (fun s => s.finishCmd id c)
  | .sweep .. => if part then s.vsSome id (n + 1) c else (s.vsAll id c).finishCmd id c
  | .matrix kind .. => if part then (if kind = 2 then s else s.mxSome id n c) else (s.mxAll id c).finishCmd id c
  | _ => s

/-- COMMAND_COMPLETE of command `turn.ix`; with `turn.flag`, only turn.k + 1 of its chunks: a matrix command's (R126),
rows of a sweep, units of a copy (R254, R256). -/
def execCommandComplete (s : State) : Result :=
  s.event (fun s =>
    match s.cmds.get? s.turn.ix with
    | some c =>
      if !c.accepted || s.ending c.launch || s.inLine s.turn.ix c then s
      else match (if s.turn.flag then s.lostNext c (some (s.turn.k + 1)) else s.lostRead c) with
        | some p => s.loseCmd c p.store.1 p.store.2
        | none => s.work s.turn.ix s.turn.k s.turn.flag c
    | none => s)

/-! ### WAITA and the refresh slot -/

/-- WAITA_REREAD by thread `turn.k` of warp slot `turn.ix`, for wait `turn.m` of those that hold it. -/
def execWaitaReread (s : State) : Result := s.event (fun s => s.waitaRead s.turn.ix s.turn.k s.turn.m)

/-- WAITA_TIMEOUT: the one read at the deadline. -/
def execWaitaTimeout (s : State) : Result :=
  s.event (fun s =>
    match (s.warp? s.turn.ix).bind (fun w => (w.thread s.turn.k).waitas[s.turn.m]?) with
    | some x =>
      match x.deadline with
      | some d => if d ≤ s.time then s.waitaRead s.turn.ix s.turn.k s.turn.m else s
      | none => s
    | none => s)

/-- A read that its bank's refresh held. -/
def State.readHeld (s : State) (l : Load) : Load :=
  match l.place with
  | .ws o => if bankOf o = s.wsphase then l else { l with held := false }
  | _ => l

/-- WS_REFRESH_SLOT: the slot of the time; what the earlier bank held goes on. -/
def execWsRefreshSlot (s : State) : Result :=
  s.event (fun s =>
    let s := { s with slot := s.wsphase }
    { s with loads := s.loads.map (fun x => (x.1, s.readHeld x.2)) })

/-! ### Errors -/

/-- Who finds an error in a store, as R401 numbers the sources. -/
def storeSource : ErrStore → Nat
  | .l2 => 6
  | .hbm | .weight => 7
  | .dieTables => 4
  | _ => 0

/-- The core or slice that an event names: a core's for what a core holds, a slice's for an L2. -/
def errPlace (store : ErrStore) (loc core : Nat) : Nat :=
  match store with
  | .l2 => homeSlice loc
  | .hbm | .weight | .dieTables => 0
  | _ => core % 132

/-- An L2 and the HBM of a die hold only the lines of which the die is the home (R246, R247). -/
def errHere (store : ErrStore) (die loc : Nat) : Bool :=
  match store with
  | .l2 | .hbm => loc < 2 ^ 39 && homeDie loc = die
  | _ => true

/-- A class-0 record (R374, R377); with `turn.flag` the queue is full, and only the count is kept. A line of an
instruction cache is fetched again. -/
def State.corrected (s : State) : State :=
  if !errHere s.turn.store s.turn.k s.turn.ix then s else
  let s := if s.turn.store = .l1Instr then
      s.updCore (132 * s.turn.k + s.turn.m % 132) (fun c => { c with l1i := c.l1i.del (s.turn.ix / 256) })
    else s
  if s.turn.flag then
    let s := { s with host := { s.host with dropped := s.host.dropped + 1 } }
    s.bbox s.turn.k 8 0x02 0 0xFF 0xFF 0 [BitVec.ofNat 64 s.host.dropped]
  else
    s.deliver { mcheck 25 s.turn.k (storeCode s.turn.store) s.turn.ix (errPlace s.turn.store s.turn.ix s.turn.m) 0xFF 0xFF 0 with
      cls := 0, source := storeSource s.turn.store, time := s.time }

/-- CORRECTED_ERROR: location `turn.ix` of die `turn.k`, at core `turn.m`. -/
def execCorrectedError (s : State) : Result := s.event State.corrected

/-- SCRUB_CORRECTION: HBM and the weight stores are scrubbed (R374). -/
def execScrubCorrection (s : State) : Result :=
  s.event (fun s => if s.turn.store = .hbm || s.turn.store = .weight then s.corrected else s)

/-- Launches with a block or a queue on a die. -/
def State.onDie (s : State) (die : Nat) : List (Nat × Launch) :=
  s.launches.filter (fun x => !x.2.closed && (s.queueDie x.2 = die
    || s.blocks.vals.any (fun b => b.launch = x.1 && b.cores.any (fun c => dieOfCore c = die))))

/-- A dirty L2 line is lost: its home keeps its earlier value, as of the writes that had been written back (R375). -/
def State.loseDirty (s : State) (loc : Nat) : State :=
  let p : Place := .mem (loc / 64 * 64)
  (s.draw.writeHome p (s.sight (fun v => !Config.writtenBack s.tick v.id) p 64).1).settled p 64

/-- The word at a location of a store whose bits stay uncorrectable (R375). -/
def badPlace (store : ErrStore) (die loc core : Nat) : Option Place :=
  match store with
  | .l2 | .hbm => some (.mem (loc / 8 * 8))
  | .weight => some (.ws (2 ^ 32 * die + loc / 8 * 8))
  | .scratchpad => some (.sp (0x180000 * core + loc / 8 * 8))
  | _ => none

/-- UNCORRECTABLE_ERROR found at `turn.site`, in `turn.store`, at location `turn.m` of die `turn.k`; with `turn.flag`
the stored bits stay so. An instruction cache has none (R374), and an L2 or HBM none of another die's lines (R247). -/
def execUncorrectableError (s : State) : Result :=
  s.event (fun s =>
    let store := storeCode s.turn.store
    let m := { mcheck 25 s.turn.k store s.turn.m (errPlace s.turn.store s.turn.m s.turn.ix) 0xFF 0xFF 0 with
      source := storeSource s.turn.store }
    if s.turn.store = .l1Instr || !errHere s.turn.store s.turn.k s.turn.m then s
    else
      let s := match s.turn.flag, badPlace s.turn.store s.turn.k s.turn.m s.turn.ix with
        | true, some p => { s with bad := p :: s.bad.filter (· != p) }
        | _, _ => s
      match s.turn.site with
      | .load id =>
        match s.loads.get? id with
        | some l => s.loseLoad l store s.turn.m
        | none => s
      | .owned l => if (s.launches.get? l).isSome then s.machineCheck l m else s
      | .command id =>
        match s.cmds.get? id with
        | some c => s.loseCmd c store s.turn.m
        | none => s
      | .dieWide =>
        let s := if s.turn.store = .l2 then s.loseDirty s.turn.m else s
        let ls := s.onDie s.turn.k
        if ls.isEmpty then s.deliver { m with cls := 2, time := s.time }
        else ls.foldl (fun s l => s.machineCheck l.1 { m with cls := 2 }) s
      | .instr =>
        match s.warp? s.turn.ix with
        | some w => s.machineCheck w.launch { m with
            die := dieOf s.turn.ix, core := coreOf s.turn.ix % 132, warp := warpNo s.turn.ix, source := 0 }
        | none => s)

/-- PCIE_TIMEOUT: the read of operation `turn.ix` returns all ones; with `turn.flag`, item `turn.k` on its way from core
`turn.ix` is dropped, and an atomic's result is all ones (R380). -/
def execPcieTimeout (s : State) : Result :=
  s.event (fun s =>
    if s.turn.flag then
      match (s.core s.turn.ix).flight[s.turn.k]? with
      | some i =>
        if i.place.pcie && mayPerform (s.core s.turn.ix).flight s.turn.k then
          let s := s.updCore s.turn.ix (fun c => { c with flight := c.flight.eraseIdx s.turn.k })
          let s := s.pcieNote s.turn.ix i.warp i.thread i.place
          let ones (id : Nat) : State := { s with loads := s.loads.upd id (fun l => { l with val := some [l.ones] }) }
          match i.kind with
          | .atom _ _ _ _ (some id) => ones id
          | .scond _ _ id => ones id
          | _ => s
        else s
      | none => s
    else
      match s.loads.get? s.turn.ix with
      | some l =>
        if l.place.pcie && !l.homed then
          State.pcieNote { s with loads := s.loads.put s.turn.ix { l with val := l.val.map (fun v => v.map (fun _ => l.ones)) } }
            (coreOf l.warp) l.warp l.thread l.place
        else s
      | none => s)

/-- The peer that no port reaches, of the accesses at some places. -/
def State.cutOff (s : State) (ps : List Place) : Option (Place × Nat) :=
  (ps.find? (fun p => !s.reaches p)).bind (fun p => p.peer.map (fun k => (p, k)))

/-- The next unit of a copy is at a peer that no port reaches: its launch ends. -/
def State.cutCopy (s : State) (c : Cmd) : State :=
  match c.body with
  | .copy kind ws _ _ a b sh =>
    let base := 4096 * ((s.window c.block c.core).map (·.1)).getD 0
    match (s.cpNext c kind ws a b sh).bind (fun x => s.cutOff (s.cpFarPlace c kind ws a sh base x.1 x.2).toList) with
    | some (p, k) => s.peerLost c.launch c.core (warpNo c.warp) c.thread k (c.clause.zeroExtend 64) p
    | none => s
  | _ => s

/-- PEER_UNREACHABLE, when no up port reaches the peer: operation `turn.ix`; with turn.m 1, item `turn.k` on
its way from core `turn.ix`, which goes no further; with turn.m 2, the next unit of copy `turn.ix`. -/
def execPeerUnreachable (s : State) : Result :=
  s.event (fun s =>
    match s.turn.m with
    | 0 =>
      match s.loads.get? s.turn.ix with
      | some l => match s.cutOff l.places with
        | some (p, k) => s.peerLost (((s.warp? l.warp).map Warp.launch).getD 0) (coreOf l.warp)
            (warpNo l.warp) l.thread k (l.clause.zeroExtend 64) p
        | none => s
      | none => s
    | 1 =>
      match (s.core s.turn.ix).flight[s.turn.k]? with
      | some i => match s.cutOff [i.place] with
        | some (p, k) => (s.updCore s.turn.ix (fun c => { c with flight := c.flight.eraseIdx s.turn.k })).peerLost i.launch
            s.turn.ix (warpNo i.warp) i.thread k 0 p
        | none => s
      | none => s
    | _ =>
      match s.cmds.get? s.turn.ix with
      | some c => s.cutCopy c
      | none => s)

/-! ### Eviction -/

/-- L1_LINE_EVICTION: line `turn.k` of core `turn.ix`, of the weight store with `turn.flag`. -/
def execL1LineEviction (s : State) : Result :=
  s.event (fun s => s.updCore s.turn.ix (fun c =>
    if s.turn.flag then { c with l1w := c.l1w.del s.turn.k } else { c with l1 := c.l1.del s.turn.k }))

end Sys2Proof.Machine
end

