-- ==== Sys2Proof/Machine/Launching.lean ====
section
/-! DEFINITION. From a launch record to running blocks and back: LAUNCH_RECORD_READ (R288, R289, R408, R382,
R409), BLOCK_ADMISSION and COOPERATIVE_ADMISSION (R291–R297, R383, R255), GANG_START (R26, R34, R35, R298),
LAUNCH_COMPLETION (R130, R274, R290, R300, R371) and SEEDBED_DEAL (R304–R306). -/

namespace Sys2Proof.Machine

/-- The scheduler of a die reports: the interrupt of the host die and a black-box entry. -/
def State.report (s : State) (die code ctx : Nat) (detail : List Word) : State :=
  (s.bbox die 4 code 0 0xFF 0xFF ctx detail).interrupt

/-! ### The launch record -/

/-- The first of a list of limits that is broken: offset and whether the field keeps its limit. -/
def firstBroken (xs : List (Nat × Bool)) : Option Nat := (xs.find? (fun x => !x.2)).map (·.1)

/-- The fields of a record (R289). -/
def parseRec (b : List Byte) : Rec :=
  let f (o n : Nat) : Nat := fieldLE b o n
  let w (o : Nat) : Word := BitVec.ofNat 64 (f o 8)
  { kpb := w 0, params := w 8, gx := f 0x10 4, gy := f 0x14 2, gz := f 0x16 2, x := f 0x18 4, y := f 0x1C 4,
    z := f 0x20 4, span := f 0x24 1, dies := BitVec.ofNat 4 (f 0x25 1), interlude := f 0x26 1 % 2 = 1,
    intr := f 0x26 1 / 2 % 2 = 1, serial := f 0x26 1 / 4 % 2 = 1, done := w 0x28, stack := w 0x30,
    stackBytes := f 0x38 4, grace := if f 0x3C 2 = 0 then 200 else f 0x3C 2 }

def Rec.threads (r : Rec) : Nat := r.x * r.y * r.z
def Rec.blocks (r : Rec) : Nat := r.gx * r.gy * r.gz
def Rec.dieList (r : Rec) : List Nat := (List.range 4).filter r.dies.getLsbD

/-- The limits of a record in the order of R289, a limit of several fields at its last (R31, R409). -/
def recLimits (b : List Byte) (r : Rec) : List (Nat × Bool) :=
  let f (o n : Nat) : Nat := fieldLE b o n
  let dim (n : Nat) : Bool := 1 ≤ n && n ≤ 65536
  let xs : List (Nat × Bool) := [(0x00, r.kpb.toNat % 64 = 0), (0x08, r.params.toNat % 8 = 0), (0x10, 1 ≤ r.gx && r.gx ≤ 2 ^ 31),
   (0x14, 1 ≤ r.gy), (0x16, 1 ≤ r.gz), (0x18, dim r.x), (0x1C, dim r.y), (0x20, dim r.z),
   (0x24, 1 ≤ r.span && r.span ≤ 32 && r.threads ≤ 3072 * r.span && (r.span ≤ 1 || r.threads ≤ 65536)),
   (0x25, f 0x25 1 < 16), (0x26, f 0x26 1 < 8 && (!r.interlude || r.dieList.length = 1)),
   (0x27, f 0x27 1 = 0), (0x28, r.done.toNat % 64 = 0), (0x30, r.stack.toNat % 8 = 0),
   (0x38, r.stackBytes % 8 = 0), (0x3E, f 0x3E 2 = 0)]
  xs

/-- A launch that the scheduler has read. -/
def newLaunch (q : Queue) (qid index : Nat) (r : Rec) : Launch :=
  { ctx := q.ctx, queue := qid, index := index, info := r, kpb := none, admitted := 0, finished := 0,
    start := none, lastEnd := 0, fails := 0, closed := false, ended := false, view := [] }

/-- A launch is rejected (R382): it admits no block, and its completion record is written at once. -/
def State.reject (s : State) (id status : Nat) : State :=
  match s.launches.get? id with
  | none => s
  | some l =>
    (s.complete id l status s.time s.time false).report (s.queueDie l) 0x0B l.ctx
      [s.queueAddr l, BitVec.ofNat 64 l.index, BitVec.ofNat 64 status]

/-- The record just read becomes a launch, or is rejected, or was marked by launch_end (R385). -/
def State.enterLaunch (s : State) (qid : Nat) (q : Queue) (index : Nat) (b : List Byte) : State :=
  let r := parseRec b
  let (id, s) := s.fresh
  let l := { newLaunch q qid index r with view := s.vers.map Ver.id }
  let s := { s with launches := s.launches.put id l }
  if q.marked.contains index then s.complete id l 0x00030001 s.time s.time r.intr
  else match firstBroken (recLimits b r) with
    | some k => s.reject id (0x00020000 + k)
    | none => s

/-- The queue is served no more (R288, R408). -/
def State.stopQueue (s : State) (qid : Nat) (q : Queue) (code : Nat) (detail : List Word) : State :=
  State.report { s with queues := s.queues.put qid { q with served := false } } q.die code q.ctx detail

/-- A read of n bytes for a queue gave data that cannot be corrected: no launch owns it, and its record names the queue and
the next record's index (DESIGN CHOICE, notes/assumptions/18.md). -/
def State.queueCheck (s : State) (q : Queue) (va n : Nat) : State :=
  s.deliver { s.unreadCheck q.die 4 q.ctx va n with queue := q.header, index := q.consume.toNat, time := s.time }

/-- The header of a queue cannot be read, for the reason of a kind. -/
def State.headerFailed (s : State) (q : Queue) (kind : Nat) : State :=
  let s := s.dieViolation q.die 4 q.ctx kind q.header.toNat
  if kind = 25 then s.queueCheck q q.header.toNat 64 else s

/-- The header's fields: ring, log2 of its size, produce. -/
def headerFields (b : List Byte) : Nat × Nat × BitVec 32 :=
  (fieldLE b 0 8, fieldLE b 8 1, BitVec.ofNat 32 (fieldLE b 0x10 4))

/-- A header is not malformed (R408). -/
def headerGood (b : List Byte) : Bool :=
  fieldLE b 8 1 ≤ 16 && zeroBytes b 0x09 7 && zeroBytes b 0x18 40 && fieldLE b 0 8 % 64 = 0

/-- All blocks of a launch have been admitted, or it will admit none (R294). -/
def Launch.admittedAll (l : Launch) : Bool := l.closed || (l.kpb.isSome && l.info.blocks ≤ l.admitted)

/-- The record of an interlude launch is read once the earlier launches of its queue have been admitted, for which it
would wait (R294) and whose blocks it bars once it is queued (R255; notes/assumptions/20.md). -/
def State.interludeWaits (s : State) (qid : Nat) (got : Except Nat (List Byte)) : Bool :=
  match got with
  | .ok b => (parseRec b).interlude && s.launches.vals.any (fun x => x.queue = qid && !x.admittedAll)
  | .error _ => false

/-- The scheduler has read record `consume` of a queue, and writes consume + 1. -/
def State.takeRecord (s : State) (qid : Nat) (q : Queue) (got : Except Nat (List Byte)) : State :=
  let index := q.consume.toNat
  let q' := { q with consume := q.consume + 1, marked := q.marked.filter (· != index) }
  let s := { s with queues := s.queues.put qid q' }
  let s := match s.ctxWrite (s.dieWriter q.die false) q.ctx (q.header.toNat + 0x14) (leBytes 4 q'.consume.toNat) with
    | .ok s => s
    | .error k => (s.dieViolation q.die 4 q.ctx k q.header.toNat).stopQueue qid q' 0x12 [q.header, BitVec.ofNat 64 k]
  match got with
  | .ok b => s.enterLaunch qid q index b
  | .error _ => s.report q.die 0x0B q.ctx [q.header, BitVec.ofNat 64 index, BitVec.ofNat 64 0x00020400]

def State.readRecord (s : State) (qid : Nat) (q : Queue) (ring size : Nat) : State :=
  let at_ := ring + 64 * (q.consume.toNat % 2 ^ size)
  let (t, got) := s.dieRead q.die q.ctx at_ 64
  let bad : Bool := match got with
    | .error k => k = 25
    | .ok _ => false
  if s.interludeWaits qid got then s else (if bad then t.queueCheck q at_ 64 else t).takeRecord qid q got

/-- LAUNCH_RECORD_READ from queue `turn.ix`. -/
def execLaunchRecordRead (s : State) : Result :=
  s.event (fun s =>
    match s.queues.get? s.turn.ix with
    | none => s
    | some q =>
      if !q.served || !s.released then s
      else match s.dieRead q.die q.ctx q.header.toNat 64 with
        | (t, .error k) => (s.headerFailed q k).stopQueue t.turn.ix q 0x12 [q.header, BitVec.ofNat 64 k]
        | (s, .ok b) =>
          let (ring, size, produce) := headerFields b
          let n := (produce - q.consume).toNat
          if !headerGood b then s.stopQueue s.turn.ix q 0x12 [q.header, 22]
          else if n = 0 then s
          else if 2 ^ size < n then
            s.stopQueue s.turn.ix q 0x11 [q.header, produce.zeroExtend 64, q.consume.zeroExtend 64]
          else s.readRecord s.turn.ix q ring size)

/-! ### The kernel parameter block (R291–R293) -/

/-- The limits of the header, the role entries and the prefetch lines, in their order. -/
def kpbLimits (r : Rec) (b : List Byte) : List (Nat × Bool) :=
  let f (o n : Nat) : Nat := fieldLE b o n
  let roles := f 2 1
  let total := ((List.range roles).map (fun k => f (0x4A + 32 * k) 1)).sum
  let role (k : Nat) : List (Nat × Bool) :=
    let o := 0x40 + 32 * k
    let there : List (Nat × Bool) :=
      [(o, f o 8 % 8 = 0 && f o 8 < 2 ^ 56), (o + 8, f (o + 8) 1 ≤ 3), (o + 9, f (o + 9) 1 ≤ 4),
       (o + 0xA, 1 ≤ f (o + 0xA) 1 && f (o + 0xA) 1 ≤ 96
          && (k + 1 != roles || r.span * total = (r.threads + 31) / 32)),
       (o + 0xB, zeroBytes b (o + 0xB) 21)]
    let absent : List (Nat × Bool) :=
      [(o, zeroBytes b o 8), (o + 8, f (o + 8) 1 = 0), (o + 9, f (o + 9) 1 = 0), (o + 0xA, f (o + 0xA) 1 = 0),
        (o + 0xB, zeroBytes b (o + 0xB) 21)]
    if k < roles then there else absent
  let head : List (Nat × Bool) := [(0x00, f 0 2 = 3), (0x02, 1 ≤ roles && roles ≤ 4), (0x03, f 3 1 < 2), (0x04, f 4 2 ≤ 256), (0x06, f 6 2 ≤ 384),
   (0x08, f 8 1 ≤ 64), (0x09, f 9 1 ≤ 8), (0x0C, f 0xC 2 ≤ 4096), (0x0E, zeroBytes b 0x0E 50)]
  head ++ (List.range 4).flatMap role
    ++ (List.range 8).map (fun i =>
      (0xC0 + 8 * i, f (0xC0 + 8 * i) 8 % 256 = 0 && (i < f 9 1 || f (0xC0 + 8 * i) 8 = 0)))

/-- The parts of the block, from its first 256 bytes, its parameters and its safe-point table. -/
def parseKpb (b params safes : List Byte) : Kpb :=
  let f (o n : Nat) : Nat := fieldLE b o n
  let w (x : List Byte) (o : Nat) : Word := BitVec.ofNat 64 (fieldLE x o 8)
  { roles := (List.range (f 2 1)).map (fun k =>
      let o := 0x40 + 32 * k
      ⟨w b o, f (o + 8) 1, f (o + 9) 1, f (o + 0xA) 1⟩),
    coop := f 3 1 % 2 = 1, bars := f 4 2, tiles := f 6 2, regs := f 8 1,
    lines := (List.range (f 9 1)).map (fun i => w b (0xC0 + 8 * i)),
    safes := (List.range (f 0xA 2)).map (fun i => (w safes (24 * i), w safes (24 * i + 8), w safes (24 * i + 16))),
    params := params }

/-- What the scheduler reads for a launch, or none where it cannot: data that cannot be corrected ends the launch
(R375). -/
def State.launchRead (s : State) (id : Nat) (l : Launch) (va n : Nat) : State × Option (List Byte) :=
  match s.dieRead (s.queueDie l) l.ctx va n with
  | (s, .error k) => (if k = 25 then s.machineCheck id (s.unreadCheck (s.queueDie l) 4 l.ctx va n) else s, none)
  | (s, .ok b) => (s, some b)

/-- Read a launch's parameters and its safe-point table: none where a byte cannot be read. -/
def State.readKpb (s : State) (id : Nat) (l : Launch) (b : List Byte) : State × Option Kpb :=
  let base := l.info.kpb.toNat
  let p := fieldLE b 0xC 2
  let from_ := if l.info.params = 0 then base + 0x100 else l.info.params.toNat
  match s.launchRead id l from_ p with
  | (s, none) => (s, none)
  | (s, some x) =>
    match s.launchRead id l (base + 0x100 + (p + 7) / 8 * 8) (24 * fieldLE b 0xA 2) with
    | (s, none) => (s, none)
    | (s, some y) => (s, some (parseKpb b x y))

/-! ### Fitting (R295) -/

/-- Warps of a block on one core, by role in the order of R32: role number and role. -/
def Kpb.warpsOn (k : Kpb) : List (Nat × Role) :=
  k.roles.zipIdx.flatMap (fun (r, i) => List.replicate r.w (i, r))

/-- The residence that a warp of `units` takes on core c, given those taken already: warp slot and units. -/
def State.residence (s : State) (c units : Nat) (taken : List (Nat × Nat)) : Option Nat :=
  ((List.range 96).map (96 * c + ·)).find? (fun slot =>
    (s.warp? slot).isNone && taken.all (fun x => x.1 != slot)
      && units + ((taken.filter (fun x => laneOf x.1 = laneOf slot)).map (·.2)).sum ≤ s.freeUnits (laneOf slot))

/-- Residences for warps with the given unit needs, in order; none when one finds no place. -/
def State.residences (s : State) (c : Nat) : List Nat → List (Nat × Nat) → Option (List Nat)
  | [], taken => some (taken.map (·.1))
  | u :: rest, taken =>
    match s.residence c u taken with
    | none => none
    | some slot => s.residences c rest (taken ++ [(slot, u)])

/-- First of n consecutive numbers below `size` that `used` leaves free. -/
def lowestRun (size n : Nat) (used : Nat → Bool) : Option Nat :=
  (List.range (size + 1 - n)).find? (fun a => (List.range n).all (fun k => !used (a + k)))

/-- The blocks resident on a core, each with its position there. -/
def State.blocksOn (s : State) (c : Nat) : List (Block × Nat) :=
  s.blocks.vals.filterMap (fun b => if b.cores.contains c then some (b, b.cores.findIdx (· = c)) else none)

/-- A number lies in the window of size n of a resident block on the core. -/
def inWindow (bs : List (Block × Nat)) (base : Block → List Nat) (n : Block → Nat) (x : Nat) : Bool :=
  bs.any (fun (b, p) => (base b).getD p 0 ≤ x && x < (base b).getD p 0 + n b)

/-- A block on the core that has not ended has a MAT role (R35). -/
def State.hasMat (s : State) (c : Nat) : Bool := s.blocks.vals.any (fun b => b.mat && !b.ended && b.cores.contains c)

/-- fits(core, block): residences, first tile, first barrier. -/
def State.fits (s : State) (c : Nat) (units : List Nat) (tiles bars : Nat) (mat : Bool) :
    Option (List Nat × Nat × Nat) :=
  let bs := s.blocksOn c
  match s.residences c units [], lowestRun s.part.tiles tiles (inWindow bs Block.tileBase Block.tiles),
      lowestRun 256 bars (inWindow bs Block.barBase Block.nbars) with
  | some ws, some t, some b => if mat && s.hasMat c then none else some (ws, t, b)
  | _, _, _ => none

/-- The part has the core: one of the enabled cores of its dies (R14, R21). -/
def Part.has (p : Part) (core : Nat) : Bool := core / 132 < p.dies && core % 132 < p.cores

/-- The core belongs to the context's world (R322). -/
def State.worldOf (s : State) (ctx c : Nat) : Bool := s.secure.contains c == s.ctxSecure ctx

/-- Where a block of `span` cores goes on a die: the first cores that fit, with their placements. `units`
gives the needs by span position. -/
def State.place (s : State) (ctx die span : Nat) (units : Nat → List Nat) (tiles bars : Nat) (mat : Bool)
    (excl : List Nat) : Option (List (Nat × (List Nat × Nat × Nat))) :=
  let got := ((List.range 132).map (132 * die + ·)).foldl (fun (r : List (Nat × (List Nat × Nat × Nat))) c =>
    if r.length < span && s.part.has c && s.worldOf ctx c && !excl.contains c then
      match s.fits c (units r.length) tiles bars mat with
      | some f => r ++ [(c, f)]
      | none => r
    else r) []
  if got.length = span then some got else none

/-! ### Admission -/

/-- A warp as admission leaves it: resident, its threads not yet there. -/
def admittedWarp (l : Launch) (launch block num role kind pos units : Nat) : Warp :=
  { ctx := l.ctx, launch := launch, block := block, num := num, role := role, kind := kind, pos := pos,
    threads := [], table := [], serial := none, joins := [], xc := [], s := [], units := units, grows := [],
    stq := [], trappc := 0, trapinfo := 0, freeze := none, double := none, edits := [], h := [], dbg := dbgNone,
    dbgNext := none, restored := false, readyAt := none, save := none, captured := [], capJoins := [],
    capS := [], capXc := [] }

/-- A warp that comes into a lane's active residence has held the lane since then (R299). -/
def State.takeLane (s : State) (slot : Nat) : State :=
  if s.activeSlot (laneOf slot) = slot then
    s.updLane (laneOf slot) (fun l => { l with since := s.clock, stalled := none, stallSum := 0, granted := false })
  else s

/-- The placement of one block is committed (R295). -/
def State.commitBlock (s : State) (id : Nat) (l : Launch) (k : Kpb)
    (got : List (Nat × (List Nat × Nat × Nat))) : State :=
  let (bid, s) := s.fresh
  let per := k.warpsOn
  let slots := got.flatMap (fun x => x.2.1)
  let b : Block :=
    { launch := id, ctx := l.ctx, index := l.admitted, cores := got.map (·.1), tileBase := got.map (fun x => x.2.2.1),
      tiles := k.tiles, barBase := got.map (fun x => x.2.2.2), nbars := k.bars,
      bars := (List.range k.bars).map (fun n => (n, ⟨l.info.threads, 0, 0, false, true, [], []⟩)), rings := [],
      warps := slots, started := false, token := [], mat := k.roles.any (fun r => r.kind = 2), ended := false }
  let s := slots.zipIdx.foldl (fun (s : State) (slot, n) =>
    let (i, r) := per.getD (n % per.length) (0, ⟨0, 0, 0, 0⟩)
    (s.setWarp slot (admittedWarp l id bid n i r.kind (n / per.length) r.units)).takeLane slot) s
  { s with
    blocks := s.blocks.put bid b
    launches := s.launches.upd id (fun l => { l with admitted := l.admitted + 1 }) }

/-- The prefetch lines of a launch come into the instruction caches of the block's cores (R297). A line with a word that
cannot be corrected is not kept. -/
def State.prefetch (s : State) (ctx : Nat) (lines : List Word) (cores : List Nat) : State :=
  lines.foldl (fun s a =>
    match s.translate ctx a .x with
    | .error k => s.dieViolation (dieOfCore (cores.headD 0)) 4 ctx k a.toNat
    | .ok pa => if s.lost (.mem (pa / 256 * 256)) 256 then s else cores.foldl (fun s c => s.updCore c (fun x =>
        { x with l1i := SMap.put (x.roomI s.tick) (pa / 256) (BitVec.ofNat 2048 (rdNat s.mem (pa / 256 * 256) 256)) })) s) s

/-- Pre-emption of the context is under way on the die (R307). -/
def State.preempted (s : State) (ctx die : Nat) : Bool :=
  match s.ctxs.get? ctx with
  | some c => (c.preempt.get? die).isSome
  | none => true

/-- The launch may begin admission: every block of the earlier launches of its queue has been admitted, and for a
serial launch the previous one has written its completion record (R294). -/
def State.mayAdmit (s : State) (id : Nat) (l : Launch) : Bool :=
  let before := s.launches.filter (fun x => x.1 < id && x.2.queue = l.queue)
  before.all (fun x => x.2.admittedAll) && (!l.info.serial || match before.getLast? with
    | some x => x.2.closed
    | none => true)

/-- The interlude launch that a die makes way for: the first that has been read and is not over (R255). -/
def State.interludeNext (s : State) (die : Nat) : Option (Nat × Launch) :=
  s.launches.find? (fun x => x.2.info.interlude && x.2.info.dies.getLsbD die && !x.2.closed)

/-- The die makes way for an interlude of another launch; an interlude launch waits until no block of another stands on
the die (R255), one that has ended and whose window a command still holds among them (DESIGN CHOICE,
notes/assumptions/70.md). -/
def State.interludeBars (s : State) (id : Nat) (l : Launch) (die : Nat) : Bool :=
  (match s.interludeNext die with
  | some (k, _) => k != id
  | none => false)
  || (l.info.interlude && s.blocks.vals.any (fun b => b.launch != id && b.cores.any (fun c => dieOfCore c = die)))

/-! ### Where saved blocks go (R311, R388) -/

/-- Units that the warps of a saved block hold, at a span position. -/
def Saved.unitsAt (x : Saved) (p : Nat) : List Nat := (x.warps.filter (fun w => w.pos = p)).map Warp.units

/-- The block as placed: its cores, windows, warps and the token's holders. -/
def Saved.moved (x : Saved) (got : List (Nat × (List Nat × Nat × Nat))) (slots : List Nat) : Block :=
  let b := x.block
  let at_ (old : Nat) : Nat := slots.getD (b.warps.findIdx (· = old)) old
  { b with
    cores := got.map (·.1), tileBase := got.map (fun g => g.2.2.1), barBase := got.map (fun g => g.2.2.2),
    warps := slots, token := b.token.map (fun e => (e.1, at_ e.2)) }

/-- The slots of the block's warps in their order: those that had ended keep a slot of no warp. -/
def slotsFor (got : List (Nat × (List Nat × Nat × Nat))) (b : Block) (ws : List Warp) : List Nat :=
  let per := b.warps.length / max 1 b.cores.length
  (List.range b.warps.length).map (fun n =>
    match ws.find? (fun w => w.num = n) with
    | some w =>
      let mine := (ws.filter (fun x => x.pos = w.pos)).map Warp.num
      ((got.getD w.pos (0, [], 0, 0)).2.1).getD (mine.findIdx (· = n)) 0
    | none => 96 * (got.getD (n / max 1 per) (0, [], 0, 0)).1 + 1000000)

/-- Where a saved block goes on a die now. -/
def State.placeSaved (s : State) (die : Nat) (x : Saved) : Option (List (Nat × (List Nat × Nat × Nat))) :=
  let bars : Bool := match s.launches.get? x.block.launch with
    | some l => s.interludeBars x.block.launch l die
    | none => false
  if bars || s.preempted x.block.ctx die then none
  else s.place x.block.ctx die x.block.cores.length x.unitsAt x.block.tiles x.block.nbars x.block.mat
    (s.exclOf x.block.ctx ++ x.excl)

/-- The saved blocks that are admitted together with one: those of its cooperative launch (R388). -/
def State.together (s : State) (x : Saved) : List Saved :=
  match (s.launches.get? x.block.launch).bind Launch.kpb with
  | some k => if k.coop then s.saved.filter (fun y => y.block.launch = x.block.launch) else [x]
  | none => [x]

/-- The resources of a placed block are taken. -/
def State.hold (s : State) (x : Saved) (got : List (Nat × (List Nat × Nat × Nat))) : State :=
  let (id, s) := s.fresh
  let slots := slotsFor got x.block x.warps
  let s := { s with blocks := s.blocks.put id (x.moved got slots) }
  x.warps.foldl (fun s w => s.setWarp (slots.getD w.num 0) w) s

/-- Saved blocks all fit on a die now. -/
def State.fitTogether (die : Nat) : List Saved → State → Bool
  | [], _ => true
  | x :: r, s =>
    match s.placeSaved die x with
    | some g => State.fitTogether die r (s.hold x g)
    | none => false

/-- A block that restore refused waits on the die and would fit now, with those that go together with it: it comes first
(R388). -/
def State.restoreFirst (s : State) (ctx die : Nat) : Bool :=
  s.saved.any (fun x => x.block.ctx = ctx && x.waits = some die
    && (s.together x).all (fun y => y.waits = some die) && State.fitTogether die (s.together x) s)

/-- The lowest die of the mask on which the next block fits now, with its placement. -/
def State.blockPlace (s : State) (id : Nat) (l : Launch) (k : Kpb) :
    Option (Nat × List (Nat × (List Nat × Nat × Nat))) :=
  l.info.dieList.findSome? (fun d =>
    if s.preempted l.ctx d || s.interludeBars id l d || s.restoreFirst l.ctx d then none
    else (s.place l.ctx d l.info.span (fun _ => k.warpsOn.map (fun x => x.2.units)) k.tiles k.bars
      (k.roles.any (fun r => r.kind = 2)) []).map (fun g => (d, g)))

/-- Admit the next block if it fits (R295, R297, R255). -/
def State.admitNext (s : State) (id : Nat) : Option State :=
  match s.launches.get? id with
  | none => none
  | some l =>
    match l.kpb with
    | none => none
    | some k =>
      match s.blockPlace id l k with
      | none => none
      | some (d, got) =>
        let s := (s.commitBlock id l k got).prefetch l.ctx k.lines (got.map (·.1))
        some (if l.info.interlude then s.updDie d (fun x => { x with interlude := some id }) else s)

/-- Admit the next n blocks, all or none (R296). -/
def State.admitAll (id : Nat) : Nat → State → Option State
  | 0, s => some s
  | n + 1, s =>
    match s.admitNext id with
    | some s => State.admitAll id n s
    | none => none

/-- The device as if no block of any launch were resident, for the check of R383. -/
def State.emptied (s : State) (id : Nat) : State :=
  { s with
    warps := []
    blocks := []
    saved := []
    ctxs := s.ctxs.map (fun x => (x.1, { x.2 with preempt := [] }))
    launches := s.launches.filter (fun x => x.1 = id)
    dies := s.dies.map (fun x => (x.1, { x.2 with interlude := none })) }

/-- A launch whose parameter block cannot be read is rejected, unless that ends it. -/
def State.unopened (s : State) (id : Nat) : State := if s.ending id then s else s.reject id 0x00020200

/-- Before its first block: the block is read and checked, the launch rejected where it breaks a limit or can
never fit, and the gang fault record cleared (R370, R382, R383, R409). -/
def State.openLaunch (s : State) (id : Nat) (l : Launch) : State :=
  match s.launchRead id l l.info.kpb.toNat 256 with
  | (s, none) => s.unopened id
  | (s, some b) =>
    match firstBroken (kpbLimits l.info b) with
    | some k => s.reject id (0x00020100 + k)
    | none =>
      match s.readKpb id l b with
      | (s, none) => s.unopened id
      | (s, some k) =>
        let s := s.updLaunch id (fun l => { l with kpb := some k })
        let n := if k.coop then l.info.blocks else 1
        if (State.admitAll id n (s.emptied id)).isNone then s.reject id 0x00020300
        else s.tryWrite (s.dieWriter (s.queueDie l) false) l.ctx (l.info.done.toNat + 0x40) (leBytes 64 0)

/-- What the launch admits next would fit now: a block, or all blocks of a cooperative launch. -/
def State.couldAdmit (s : State) (id : Nat) (l : Launch) : Bool :=
  match l.kpb with
  | some k => if k.coop then (State.admitAll id l.info.blocks s).isSome else (s.admitNext id).isSome
  | none => false

/-- A launch of an earlier queue could admit now: it is served first (R294). One that cannot holds up none (R296). -/
def State.earlierQueue (s : State) (l : Launch) : Bool :=
  s.launches.any (fun x => x.2.queue < l.queue && !x.2.admittedAll && s.mayAdmit x.1 x.2 && s.couldAdmit x.1 x.2)

/-- The launch stands to admit blocks. -/
def State.admitting (s : State) (id : Nat) (l : Launch) : Bool :=
  s.released && !l.closed && s.doomed.all (fun d => d.launch != id) && s.mayAdmit id l

/-- BLOCK_ADMISSION for launch `turn.ix`. -/
def execBlockAdmission (s : State) : Result :=
  s.event (fun s =>
    match s.launches.get? s.turn.ix with
    | none => s
    | some l =>
      if !s.admitting s.turn.ix l then s
      else match l.kpb with
        | none => s.openLaunch s.turn.ix l
        | some k =>
          if k.coop || l.info.blocks ≤ l.admitted || s.earlierQueue l then s
          else (s.admitNext s.turn.ix).getD s)

/-- COOPERATIVE_ADMISSION for launch `turn.ix`. -/
def execCooperativeAdmission (s : State) : Result :=
  s.event (fun s =>
    match s.launches.get? s.turn.ix with
    | none => s
    | some l =>
      match l.kpb with
      | none => s
      | some k =>
        if !k.coop || !s.admitting s.turn.ix l || l.admitted != 0 || s.earlierQueue l then s
        else (State.admitAll s.turn.ix l.info.blocks s).getD s)

/-! ### The gang start (R26, R298) -/

/-- A thread that a launch starts. -/
def launchThread (r : Rec) (role : Role) (index rank : Nat) : Thread :=
  if rank < r.threads then
    { Thread.absent with life := .live, pc := role.entry.setWidth 56, rsp := spillTop r index rank }
  else Thread.absent

/-- The uniform registers that launch places: parameter bytes, those beyond the set zero (R293). -/
def launchUniform (k : Kpb) : SMap Word :=
  (List.range k.regs).foldl (fun m i => m.set 0 i (BitVec.ofNat 64 (fieldLE k.params (8 * i) 8))) []

/-- The selector names a warp of a block (R397). -/
def selNames (x : WarpSel) (block num : Nat) : Bool :=
  match x with
  | .all => true
  | .one b w => b = block && w = num

/-- The debug settings that a warp of the block receives: the last of the template that selects it (R397). -/
def State.debugFor (s : State) (ctx index num : Nat) : DbgSet :=
  (((s.ctxs.get? ctx).map Ctx.template).getD []).foldl (fun d x =>
    if selNames x.1 index num then x.2 else d) dbgNone

/-- A warp starts. -/
def State.startWarp (s : State) (b : Block) (r : Rec) (k : Kpb) (slot : Nat) : State :=
  s.updWarp slot (fun w =>
    let role := k.roles.getD w.role ⟨0, 0, 0, 0⟩
    Warp.rebuild { w with
      threads := (List.range 32).map (fun t => (t, launchThread r role b.index (rankOf w t)))
      s := launchUniform k
      dbg := s.debugFor w.ctx b.index w.num })

/-- The tokens at the start: by span position, the lowest MAT-role warp there (R35). -/
def State.firstTokens (s : State) (b : Block) : SMap Nat :=
  b.cores.zipIdx.foldl (fun m (c, p) =>
    match ((b.warps.filter (fun x => coreOf x = c && match s.warp? x with
        | some w => w.kind = 2
        | none => false)).foldl (fun (r : Option Nat) x => match r with
          | some y => some (min x y)
          | none => some x) none) with
    | some x => m.put p x
    | none => m) []

/-- The windows' tiles read zero and belong to the threads; no earlier write of them is seen (R253). -/
def State.clearWindows (s : State) (b : Block) : State :=
  (b.cores.zip b.tileBase).foldl (fun s (c, t) =>
    let lo := 0x180000 * c + 4096 * t
    let mine (a : Nat) : Bool := lo ≤ a && a < lo + 4096 * b.tiles
    let at_ (k : Nat) : Bool := t ≤ k && k < t + b.tiles
    State.updCore { s with
      scratch := s.scratch.filter (fun x => !mine x.1)
      vers := s.vers.filter (fun v => match v.place with
        | .sp a => !mine a
        | _ => true)
      bad := s.bad.filter (fun p => match p with
        | .sp a => !mine a
        | _ => true) } c
      (fun x => { x with
        owner := x.owner.filter (fun e => !at_ e.1)
        count := x.count.filter (fun e => !at_ e.1)
        flips := x.flips.filter (fun e => !at_ e.1)
        freed := x.freed.filter (fun e => !at_ e.1) })) s

/-- GANG_START of block `turn.ix`: all its warps become ready together, after the control program's accesses
before it wrote the launch record (R274), and after what preceded the context's last restore (R332). -/
def execGangStart (s : State) : Result :=
  s.event (fun s =>
    match s.blocks.get? s.turn.ix with
    | none => s
    | some b =>
      match s.launches.get? b.launch with
      | none => s
      | some l =>
        match l.kpb with
        | some k =>
          if b.started || b.warps.any (fun x => ((s.warp? x).bind Warp.save).isSome) then s
          else
            let s := b.cores.foldl (fun s c => (s.learn c (l.view ++ s.ctxView l.ctx)).discardL1 c) (s.clearWindows b)
            let s := b.warps.foldl (fun s slot => s.startWarp b l.info k slot) s
            let s := s.updBlock s.turn.ix (fun b => { b with started := true, token := s.firstTokens b })
            s.updLaunch b.launch (fun l => { l with start := some (l.start.getD s.time) })
        | none => s)

/-! ### Completion -/

/-- A pool's launch is over: its warps are idle, its dies' queues and lists are empty (R300). -/
def State.poolOver (s : State) (id : Nat) (l : Launch) : Bool :=
  let bs := s.blocks.filter (fun x => x.2.launch = id)
  let ds := (bs.flatMap (fun x => x.2.cores.map dieOfCore)).eraseDups
  bs.all (fun x => x.2.started)
    && s.warps.all (fun x => x.2.launch != id || s.idle x.2)
    && ds.all (fun d => (s.seed d l.ctx).size = 0 && (s.seed d l.ctx).lists.vals.all List.isEmpty)
    && s.saved.all (fun x => x.block.launch != id)

/-- The pool's warps and blocks leave. -/
def State.endPool (s : State) (id : Nat) : State :=
  let ws := s.warps.filter (fun x => x.2.launch = id)
  let bs := s.blocks.filter (fun x => x.2.launch = id)
  let s := ws.foldl (fun s x => s.leave x.1) s
  let s := bs.foldl (fun s x => s.cutBlock x.1) s
  s.updLaunch id (fun l => { l with finished := l.finished + bs.length })

def StItem.isContrib (i : StItem) : Bool :=
  match i.kind with
  | .contrib .. => true
  | _ => false

/-- The launch's contributions have all been queued: they are applied, then its writes are performed, then its record
is written (R274), unless a write that cannot be made, or a read that cannot, ends it (R375, R380). -/
def State.endNormally (s : State) (id : Nat) : State :=
  let mine (c : Contrib) : Bool := c.launch = id && c.pkg = s.trellis.id
  let s := (s.wordsOf mine).foldl (fun s x => s.applyOrd x.1 x.2 mine (s.dieWriter (homeDie x.1) false) .none) s
  let s := { s with ordSeq := s.ordSeq.filter (fun c => c.launch != id) }
  let s := s.forceAll (fun i => i.launch = id)
  match s.launches.get? id with
  | none => s
  | some l =>
    if s.ending id then s else
    let bad := l.fails != 0
    s.complete id l (if bad then 0x00010001 else 1) (l.start.getD s.time) l.lastEnd (l.info.intr || bad)

/-- A word that the launch's completion would read for its contributions and that cannot be corrected (R375). -/
def State.lostWord (s : State) (id : Nat) : Option Nat :=
  ((s.wordsOf (fun c => c.launch = id && c.pkg = s.trellis.id)).find? (fun x =>
    s.lost (.mem x.1) (dblBytes x.2))).map (·.1)

/-- LAUNCH_COMPLETION of launch `turn.ix`. -/
def execLaunchCompletion (s : State) : Result :=
  s.event (fun s =>
    let id := s.turn.ix
    match s.launches.get? id with
    | none => s
    | some l =>
      let done := l.kpb.isSome && l.info.blocks ≤ l.admitted && s.cmds.vals.all (fun c => c.launch != id)
        && !s.ending id
      if l.closed || !done then s
      else if !(if s.isPool id then s.poolOver id l else l.info.blocks ≤ l.finished) then s
      else
        let s := s.forceAll (fun i => i.launch = id && i.isContrib)
        if s.ending id then s
        else match s.lostWord id with
          | some a => s.machineCheck id { mcheck 25 (homeDie a) 6 a 0 0xFF 0xFF 0 with source := 7 }
          | none => (if s.isPool id then s.endPool id else s).endNormally id)

/-- SEEDBED_DEAL on die `turn.ix` for context `turn.k`. -/
def execSeedbedDeal (s : State) : Result := s.event (fun s => s.deal s.turn.ix s.turn.k)

end Sys2Proof.Machine
end

