-- ==== Sys2Proof/Machine/Saving.lean ====
section
/-! DEFINITION. Pre-emption and its undoing: PREEMPT (R307, R313, R389), SOFT_SAVE (R308, R311, R386),
GRACE_PERIOD_EXPIRY (R309, R387, R389), BLOCK_IMAGE_WRITE (R310, R226), RESTORE and RESTORE_RETRY (R311, R312,
R322, R332, R388, R389). -/

namespace Sys2Proof.Machine

/-- The launches that have a resident block of the context on a die. -/
def State.residents (s : State) (ctx die : Nat) : List (Nat × Launch) :=
  s.launches.filter (fun x => x.2.ctx = ctx && s.blocks.vals.any (fun b =>
    b.launch = x.1 && b.cores.any (fun c => dieOfCore c = die)))

/-- PREEMPT: the die admits and deals nothing more of the context, and the grace periods start (R307). A second
request changes nothing. The call returns when no block of the context is left on the die (R313). -/
def execPreempt (ctx die : Nat) (s : State) : Result :=
  s.call (fun s =>
    let s := (s.ret []).updCtx ctx (fun c => { c with asked := die :: c.asked.filter (· != die) })
    if s.preempted ctx die then s.preemptOver ctx die
    else
      let ends : SMap Nat := (s.residents ctx die).map (fun x => (x.1, s.time + 1000 * x.2.info.grace))
      (s.updCtx ctx (fun c => { c with preempt := c.preempt.put die ends })).preemptOver ctx die)

/-! ### Saving a warp -/

/-- The entries of the safe-point table of a warp's launch. -/
def State.safesOf (s : State) (w : Warp) : List (Word × Word × Word) :=
  (((s.launches.get? w.launch).bind Launch.kpb).map Kpb.safes).getD []

/-- The entry for a clause: its save routine and its restore routine. -/
def State.safeAt (s : State) (w : Warp) (pc : Addr56) : Option (Word × Word) :=
  ((s.safesOf w).find? (fun x => x.1 == pc.zeroExtend 64)).map (·.2)

/-- The clause that a thread stands before has its SAFE bit set; there is none at an address beyond 56 bits (R404). -/
def State.atSafe (s : State) (slot : Nat) (w : Warp) (t : Nat) : Bool :=
  (w.thread t).far = 0 && match s.codeWord (coreOf slot) w.ctx (w.thread t).pc.toNat with
  | some h => hSafe h
  | none => false

/-- A warp is ready to save (R307, R389). -/
def State.readyToSave (s : State) (slot : Nat) (w : Warp) : Bool :=
  w.save.isNone && w.freeze.isNone && s.preempting slot w && !s.stopped w && !s.issuing slot
    && w.live.all (s.atSafe slot w) && s.quiet slot w

/-- Where a routine of a warp starts: its live threads at the routines' addresses, not blocked. An address beyond 56 bits
cannot be fetched (R404). -/
def Warp.enterRoutine (w : Warp) (pick : Addr56 → Word) : Warp :=
  Warp.rebuild { w with threads := w.threads.map (fun (t, th) =>
    (t, if th.life == .live then
        { th with pc := (pick th.pc).setWidth 56, far := BitVec.ofNat 8 ((pick th.pc).toNat / 2 ^ 56), blocked := [],
                  routineEnd := false }
      else th)) }

/-- The captured state of R308. -/
def Warp.capture (w : Warp) : Warp :=
  { w with captured := w.threads, capJoins := w.joins, capS := w.s, capXc := w.xc }

/-- A request that the lane has not granted is taken back; the warp keeps what it asked for. -/
def State.dropGrow (s : State) (slot : Nat) : State :=
  s.updLane (laneOf slot) (fun l => { l with grows := l.grows.filter (· != slot) })

/-- A soft save begins; a warp with a live thread whose clause has no entry in the table is saved hard. -/
def State.beginSave (s : State) (slot : Nat) (w : Warp) : State :=
  if w.live.all (fun t => (s.safeAt w (w.thread t).pc).isSome) then
    let pick (pc : Addr56) : Word := ((s.safeAt w pc).map (fun x => x.1)).getD (pc.zeroExtend 64)
    (s.setWarp slot { w.capture.enterRoutine pick with save := some .routine }).dropGrow slot
  else s.setWarp slot { w with save := some .stopping }

/-- Every live thread has ended its routine and waits for nothing, and nothing is outstanding. -/
def State.routineOver (s : State) (slot : Nat) (w : Warp) : Bool :=
  w.live.all (fun t => (w.thread t).routineEnd && !(w.thread t).isBlocked) && s.quiet slot w && !s.issuing slot

/-- The soft save is done: each thread's $rsp is recorded. -/
def Warp.saved (w : Warp) : Warp :=
  { w with
    save := some .soft
    captured := w.captured.map (fun (t, c) => (t, { c with rsp := (w.thread t).rsp })) }

/-- A thread after its restore routine: what the device reinstates, and what the routine left. -/
def reinstated (c th : Thread) : Thread :=
  { th with
    pc := c.pc, far := c.far, ret := c.ret, spill := c.spill, d := c.d, flags := c.flags, frame := c.frame,
    blocked := c.blocked, f := c.f, routineEnd := false }

/-- The restore routines are over (R311). -/
def Warp.resumed (w : Warp) : Warp :=
  Warp.rebuild { w with
    save := none
    threads := w.threads.map (fun (t, th) => match w.captured.get? t with
      | some c => (t, reinstated c th)
      | none => (t, th))
    captured := []
    capJoins := []
    capS := []
    capXc := [] }

/-- A cause of a thread's block that has gone while its warp was saved is over: its barrier's phase has changed, its
slot has the phase it names, the token is its warp's, its request has been met. -/
def State.stillBlocked (s : State) (slot : Nat) (w : Warp) (t : Nat) (c : Blocked) : Bool :=
  match c, s.blocks.get? w.block with
  | .barrier n, some b => (w.thread t).outstandingFor b n
  | .ring q k ph, some b => b.phase w.pos q k != ph
  | .token, some b => b.token.get? w.pos != some slot
  | .grow n, _ => w.grows.any (fun x => x.1 = n && bitOf x.2 t)
  | _, _ => true

/-- The state of a reloaded warp is brought up to date, and the tests of R39 run. -/
def State.settleWarp (s : State) (slot : Nat) : State :=
  match s.warp? slot with
  | none => s
  | some w =>
    if w.save.isSome then s
    else
      let w' := w.unblockIf (fun t c => !s.stillBlocked slot w t c)
      let s := s.setWarp slot w'
      let takers := w'.live.filter (fun t => (w'.thread t).blocked.any isToken)
      let free : Bool := match s.blocks.get? w.block with
        | some b => (b.token.get? w.pos).isNone
        | none => false
      (if !takers.isEmpty && free then s.takeToken slot takers else s).evalJoins slot

/-- A hard save is done once the warp is at an issue boundary and nothing is outstanding (R309). -/
def State.hardDone (s : State) (slot : Nat) (w : Warp) : State :=
  if w.save = some .stopping && !s.issuing slot && s.quiet slot w then
    (s.setWarp slot { w with save := some .hard }).dropGrow slot
  else s

/-- SOFT_SAVE of warp slot `turn.ix`: its save begins or is done; a restore routine that is over gives way to the
clause it stands for; a warp whose routine was abandoned is saved hard. -/
def execSoftSave (s : State) : Result :=
  s.event (fun s =>
    let slot := s.turn.ix
    match s.warp? slot with
    | none => s
    | some w =>
      match w.save with
      | none => if s.readyToSave slot w then s.beginSave slot w else s
      | some .routine => if s.routineOver slot w then s.setWarp slot w.saved else s
      | some .restoring =>
        if s.routineOver slot w && w.freeze.isNone then (s.setWarp slot w.resumed).settleWarp slot else s
      | some .stopping => s.hardDone slot w
      | _ => s)

/-! ### The end of the grace period -/

/-- The handler of a frozen warp is abandoned; the warp keeps its report (R389). -/
def State.abandonHandler (s : State) (slot : Nat) (w : Warp) : State × Warp :=
  if w.freeze.isSome then
    let s := s.freeBank slot
    let s := { s with
      loads := s.loads.filter (fun x => !(x.2.warp = slot && x.2.thread = 32))
      cmds := s.cmds.filter (fun x => !(x.2.warp = slot && x.2.thread = 32 && x.2.done != 0 && !x.2.accepted)) }
    (s, { w with
      threads := w.threads.del 32
      edits := []
      freeze := if w.freeze = some .escalated then some .escalated else some .waiting })
  else (s, w)

/-- A warp that has not completed a soft save is stopped (R309), with its entry in the black box (R387). -/
def State.stopWarp (s : State) (slot : Nat) (w : Warp) : State :=
  let pc : Word := ((w.live.head?.map (fun t => (w.thread t).pc)).getD 0).zeroExtend 64
  let (s, w) := s.abandonHandler slot w
  let w := if w.save = some .routine then w.putBack else w
  (s.setWarp slot { w with save := some .stopping }).bbox (dieOf slot) 0 0x08 (coreOf slot % 132) (warpNo slot)
    0xFF w.ctx [pc]

/-- What the end of the grace period does to one warp. -/
def State.expire (s : State) (slot : Nat) : State :=
  match s.warp? slot with
  | none => s
  | some w =>
    if s.issuing slot then s
    else match w.save with
      | none | some .routine | some .restoring => s.stopWarp slot w
      | some .stopping => s.hardDone slot w
      | _ => s

/-- GRACE_PERIOD_EXPIRY of launch `turn.ix` on die `turn.k`. -/
def execGracePeriodExpiry (s : State) : Result :=
  s.event (fun s =>
    match s.launches.get? s.turn.ix with
    | none => s
    | some l =>
      match ((s.ctxs.get? l.ctx).bind (fun c => c.preempt.get? s.turn.k)).bind (fun m => m.get? s.turn.ix) with
      | none => s
      | some d =>
        if s.time < d then s
        else ((s.warps.filter (fun x => x.2.launch = s.turn.ix && dieOf x.1 = s.turn.k)).map (·.1)).foldl
          State.expire s)

/-! ### The image of a block -/

/-- An accepted MXSMAC, which alone is stopped. -/
def Cmd.stoppable (c : Cmd) : Bool :=
  c.accepted && match c.body with
    | .matrix 1 .. => true
    | _ => false

/-- An MXSMAC with the counter at which it stops, and .resume set (R226, R311). -/
def State.stopCmd (s : State) (id : Nat) (c : Cmd) : Cmd × Nat :=
  match c.body with
  | .matrix k str res acc fmt a0 a1 b0 b1 =>
    ({ c with body := .matrix k str true acc fmt a0 a1 b0 b1, accepted := false, flags := [], tiles := [],
              done := 0 },
      if s.inLine id c || (!res && c.done = 0) then 0 else (s.core c.core).steps.get 0 str.toNat)
  | _ => (c, 0)

/-- The MXSMACs of a block stop between steps and leave their streams. -/
def State.stopCmds (s : State) (id : Nat) : State × List (Cmd × Nat) :=
  let mine := s.cmds.filter (fun x => x.2.block = id && x.2.stoppable)
  let got := mine.map (fun x => s.stopCmd x.1 x.2)
  (mine.foldl (fun s x =>
    let s := s.finishCmd x.1 x.2
    match x.2.body with
    | .matrix _ str .. => s.updCore x.2.core (fun c => { c with steps := c.steps.del str.toNat })
    | _ => s) s, got)

/-- The contents of a block's tile windows, by span position and offset in the window. -/
def State.windowBytes (s : State) (b : Block) : List Host.Cell :=
  (b.cores.zip b.tileBase).zipIdx.flatMap (fun ((c, t), p) =>
    let lo := 0x180000 * c + 4096 * t
    (s.scratch.filter (fun x => lo ≤ x.1 && x.1 < lo + 4096 * b.tiles)).map (fun x =>
      (0x180000 * p + (x.1 - lo), x.2)))

/-- The record that stands at the head of a queue by its return. -/
def Item.returned (x : Item) : Bool :=
  match x with
  | .task r => r.nth != 0
  | .card .. => false

/-- Insert a record by its place in the order of dealing. -/
def insertRec (r : TaskRec) : List TaskRec → List TaskRec
  | [] => [r]
  | x :: xs => if r.nth < x.nth then r :: x :: xs else x :: insertRec r xs

/-- Records that wait on the lists of the block's cores return to the heads of their queues in their former order,
those that have returned before among them (R310). -/
def State.returnLists (s : State) (ctx die : Nat) (cores : List Nat) : State :=
  s.updSeed die ctx (fun q =>
    let back := (q.lists.filter (fun x => cores.contains x.1)).flatMap (·.2)
    { queues := (List.range 8).foldl (fun m p =>
        let old := m.get [] p
        let head := (old.takeWhile Item.returned).filterMap (fun x => match x with
          | .task r => some r
          | .card .. => none)
        m.set [] p (((back.filter (fun r => r.priority = p)).foldl (fun xs r => insertRec r xs) head).map Item.task
          ++ old.dropWhile Item.returned)) q.queues,
      lists := q.lists.filter (fun x => !cores.contains x.1) })

/-- All warps of a block are saved. -/
def State.blockSaved (s : State) (id : Nat) (b : Block) : Bool :=
  b.warps.all (fun x => match s.member id x with
    | some w => w.save = some .soft || w.save = some .hard
    | none => true)

/-- Bytes of a block's image (R310, R320). -/
def State.imageSize (s : State) (b : Block) : Nat := s.part.saveWarp * b.warps.length + s.part.saveCore * b.cores.length

/-- The image in the context's save area: its layout is not architectural, so its bytes are free (R310). -/
def State.putImage (s : State) (b : Block) : State :=
  let at_ := ((s.saved.filter (fun x => x.block.ctx = b.ctx)).map (fun x => s.imageSize x.block)).sum
  let save := ((s.ctxs.get? b.ctx).map Ctx.save).getD 0
  s.draw.tryWrite (s.dieWriter (dieOfCore (b.cores.headD 0)) false) b.ctx (save.toNat + at_)
    ((List.range (s.imageSize b)).map (Config.imageByte s.tick))

/-- A warp whose threads, as they stand and as captured, hold no reservation. -/
def Warp.unreserved (w : Warp) : Warp :=
  let f (m : SMap Thread) : SMap Thread := m.map (fun (t, th) => (t, { th with resv := none }))
  { w with threads := f w.threads, captured := f w.captured }

/-- Everything that a block's warps have sent is performed, of those that have ended too. -/
def State.drainBlock (s : State) (b : Block) (slots : List Nat) : State :=
  b.cores.foldl (fun s c => s.forceCore c (fun _ => true)) (slots.foldl State.departWarp s)

/-- The image of a block, and the block's resources free (R310). What its warps have sent is performed first (R332). -/
def State.writeImage (s : State) (id : Nat) (b : Block) : State :=
  let mine := b.warps.filter (fun x => (s.member id x).isSome)
  let s := s.drainBlock b mine
  let (s, cmds) := s.stopCmds id
  let s := s.clearResv (fun w _ _ => ((s.warp? w).map Warp.ctx) == some b.ctx)
  let rels := mine.flatMap (fun x => ((s.core (coreOf x)).rel.filter (fun y => y.1 = x)).map (fun y =>
    (((s.warp? x).map Warp.num).getD 0, y.2)))
  let image : Saved :=
    { block := b, warps := mine.filterMap (fun x => (s.warp? x).map Warp.unreserved), tiles := s.windowBytes b, cmds := cmds,
      excl := [], waits := none, rels := rels }
  let s := (((s.dropRels mine).dropResid id).putImage b).returnLists b.ctx (dieOfCore (b.cores.headD 0)) b.cores
  let s := mine.foldl State.freeBank s
  State.dropBlock { s with
    warps := s.warps.filter (fun x => !mine.contains x.1)
    saved := s.saved ++ [image] } id

/-- BLOCK_IMAGE_WRITE of block `turn.ix`, when its warps are saved and its other commands have completed. -/
def execBlockImageWrite (s : State) : Result :=
  s.event (fun s =>
    match s.blocks.get? s.turn.ix with
    | none => s
    | some b =>
      if s.preempted b.ctx (dieOfCore (b.cores.headD 0)) && s.blockSaved s.turn.ix b
          && s.cmds.all (fun x => x.2.block != s.turn.ix || x.2.stoppable) then
        s.writeImage s.turn.ix b
      else s)

/-! ### Restoring -/

/-- A warp as it is reloaded on a slot (R308, R311, R389). -/
def State.reload (s : State) (blk slot : Nat) (w : Warp) : State :=
  let w : Warp := { w with block := blk, readyAt := none, restored := true }
  let pick (pc : Addr56) : Word := ((s.safeAt w pc).map (fun x => x.2)).getD (pc.zeroExtend 64)
  let w := match w.save with
    | some .soft =>
      let w : Warp := { w with threads := w.captured, joins := w.capJoins, s := w.capS, xc := w.capXc }
      let w : Warp := { w with threads := w.threads.map (fun (t, th) => (t, { th with v := [] })) }
      if w.live.isEmpty then w.resumed else { w.enterRoutine pick with save := some .restoring }
    | _ => Warp.rebuild { w with save := if w.captured.isEmpty then none else some .restoring }
  let s := ((s.setWarp slot w).takeLane slot).updLane (laneOf slot) (fun l =>
    { l with grows := l.grows ++ w.grows.map (fun _ => slot) })
  if w.freeze = some .escalated then
    s.escalate slot w ([w.trappc, w.trapinfo] ++ match w.double with
      | some (a, x) => [a.zeroExtend 64, x]
      | none => [])
  else s

/-- A place in a scratchpad of the span as the new windows lay it out. -/
def movePlace (old new : Block) (p : Place) : Place :=
  match p with
  | .sp a =>
    let k := old.cores.findIdx (· = a / 0x180000)
    .sp (0x180000 * new.cores.getD k 0 + (a % 0x180000 - 4096 * old.tileBase.getD k 0) + 4096 * new.tileBase.getD k 0)
  | p => p

/-- Threads that wait on an address in a scratchpad read it where it stands now. -/
def Warp.moveWaits (old new : Block) (w : Warp) : Warp :=
  let move (m : SMap Thread) : SMap Thread := m.map (fun (t, th) =>
    (t, { th with blocked := th.blocked.map (fun b => match b with
      | .waita x => .waita { x with place := movePlace old new x.place }
      | b => b) }))
  { w with threads := move w.threads, captured := move w.captured }

/-- A saved block stands on its new cores, after everything that has been performed (R311, R312, R332). -/
def State.reinstate (s : State) (x : Saved) (got : List (Nat × (List Nat × Nat × Nat))) : State :=
  let (id, s) := s.fresh
  let slots := slotsFor got x.block x.warps
  let b := x.moved got slots
  let s := { s with saved := s.saved.filter (· != x), blocks := s.blocks.put id b }
  let s := b.cores.foldl (fun s c => s.learn c (s.vers.map Ver.id)) (s.clearWindows b)
  let s := { s with scratch := x.tiles.foldl (fun m c =>
    let p := c.1 / 0x180000
    wrByte m (0x180000 * b.cores.getD p 0 + 4096 * b.tileBase.getD p 0 + c.1 % 0x180000) c.2) s.scratch }
  let s := x.warps.foldl (fun s w => s.reload id (slots.getD w.num 0) (w.moveWaits x.block b)) s
  let s := x.cmds.foldl (fun s (c, n) =>
    let at_ := slots.getD (x.block.warps.findIdx (· = c.warp)) c.warp
    let core := b.cores.getD (x.block.cores.findIdx (· = c.core)) 0
    let s := s.send { c with warp := at_, core := core, block := id }
    match c.body with
    | .matrix _ str .. => if n = 0 then s else s.updCore core (fun y => { y with steps := y.steps.set 0 str.toNat n })
    | _ => s) s
  let s := x.rels.foldl (fun s (n, r) =>
    let slot := slots.getD n 0
    s.updCore (coreOf slot) (fun c => { c with rel := (slot, r) :: c.rel })) s
  let s := (List.range b.nbars).foldl (fun s n => s.barTest id n false) s
  let s := slots.foldl State.settleWarp s
  match s.launches.get? b.launch with
  | some l => if l.info.interlude then s.updDie (dieOfCore (b.cores.headD 0)) (fun d => { d with interlude := some b.launch })
    else s
  | none => s

/-- The block's own mask: cores of the die whose lanes, even when empty, hold its warps at no span position
(R388). -/
def State.ownMask (s : State) (die : Nat) (x : Saved) : List Nat :=
  let e := { s with warps := [], blocks := [] }
  ((List.range 132).map (132 * die + ·)).filter (fun c =>
    (List.range x.block.cores.length).all (fun p => (e.residences c (x.unitsAt p) []).isNone))

/-- The two masks leave fewer cores than the span needs. -/
def State.unplaceable (s : State) (die : Nat) (x : Saved) : Bool :=
  (((List.range 132).map (132 * die + ·)).filter (fun c => s.part.has c && s.worldOf x.block.ctx c
    && !(s.exclOf x.block.ctx).contains c && !x.excl.contains c)).length < x.block.cores.length

/-- A mask of the cores of a die, as words. -/
def coreMask (die : Nat) (cs : List Nat) : List Word :=
  (List.range 3).map (fun k => BitVec.ofNat 64
    ((cs.filter (fun c => dieOfCore c = die && c % 132 / 64 = k)).map (fun c => 2 ^ (c % 132 % 64))).sum)

/-- A block that cannot be admitted: refused, with a place in the die's restore queue, or unplaceable (R388). -/
def State.refuseBlock (s : State) (die : Nat) (x : Saved) : State :=
  let y := { x with excl := s.ownMask die x }
  let un := s.unplaceable die y
  let y := { y with waits := if un then none else some die }
  let s := { s with saved := s.saved.map (fun z => if z == x then y else z) }
  let s := s.bbox die 4 0x0A 0 0xFF 0xFF x.block.ctx (BitVec.ofNat 64 x.block.index :: coreMask die y.excl)
  { s with host := { s.host with
    reply := s.host.reply ++ [BitVec.ofNat 64 (x.block.index + 2 ^ 62 * (if un then 2 else 1))] } }

/-- Admit saved blocks in order, all or none. -/
def State.restoreAll (die : Nat) : List Saved → State → Option State
  | [], s => some s
  | x :: r, s =>
    match s.placeSaved die x with
    | some g => State.restoreAll die r (s.reinstate x g)
    | none => none

/-- Restore the blocks of a list, group by group in save order; a group goes together when `may` holds of all of it, and
`refuse` says what happens to one that does not fit. -/
def State.restoreEach (die : Nat) (may : Saved → Bool) (refuse : State → Saved → State) : Nat → List Saved → State → State
  | 0, _, s => s
  | _ + 1, [], s => s
  | n + 1, x :: r, s =>
    let g := s.together x
    let rest := r.filter (fun y => !g.contains y)
    let got := if g.all may then State.restoreAll die g s else none
    State.restoreEach die may refuse n rest (got.getD (g.foldl refuse s))

/-- Every access of the context's threads has been performed, and its threads act after it from here on: those that run, and
by `Ctx.view` those that start later (R332). -/
def State.resync (s : State) (ctx : Nat) : State :=
  let s := s.forceAll (fun i => s.launchCtx i.launch = ctx)
  let s := ((s.blocks.vals.filter (fun b => b.ctx = ctx)).flatMap Block.cores).foldl (fun s c =>
    s.learn c (s.vers.map Ver.id)) s
  s.updCtx ctx (fun c => { c with view := s.vers.map Ver.id })

/-- RESTORE (R311, R313, R388): it replies for each block that it refuses. The bar of R307 is over on the die that it
names, and on no other (DESIGN CHOICE, notes/assumptions/71.md). -/
def execRestore (ctx die : Nat) (excl : List Nat) (s : State) : Result :=
  s.call (fun s =>
    let s := ((s.resync ctx).updCtx ctx (fun c => { c with excl := excl, preempt := c.preempt.del die })).ret []
    let xs := s.saved.filter (fun x => x.block.ctx = ctx)
    State.restoreEach die (fun _ => true) (fun s x => s.refuseBlock die x) xs.length xs s)

/-- RESTORE_RETRY for context `turn.ix` on die `turn.k`. A block that pre-emption bars is not placed (R307). -/
def execRestoreRetry (s : State) : Result :=
  s.event (fun s =>
    let die := s.turn.k
    let xs := s.saved.filter (fun x => x.block.ctx = s.turn.ix && x.waits = some die)
    State.restoreEach die (fun y => y.waits = some die) (fun s _ => s) xs.length xs s)

end Sys2Proof.Machine
end

