-- ==== Sys2Proof/Machine/Debug.lean ====
section
/-! DEFINITION. The start of a trap handler (R342, R343, R392, R394), the debugger's calls (R385, R396, R397), the
early end ordered by system software (R384, R385) and the reading of the black box (R402). -/

namespace Sys2Proof.Machine

/-! ### The handler -/

/-- The kind that a warp's report names (R333). -/
def trapKind (w : Warp) : Nat := w.trapinfo.toNat / 2 ^ 56

/-- A handler is installed for the kind (R392, R394). -/
def Ctx.handles (c : Ctx) (kind : Nat) : Bool := c.handler != 0 && c.kinds.getLsbD kind

/-- The handler thread at entry (R392): $frame is the primary thread's, as $tid is. -/
def handlerThread (c : Ctx) (w : Warp) : Thread :=
  { Thread.absent with life := .live, pc := c.handler, frame := (w.thread (primaryOf w)).frame }

/-- A trap that no handler receives: it goes to the debugger, or the launch ends (R394). -/
def State.unhandled (s : State) (slot : Nat) (w : Warp) : State :=
  let detail := [w.trappc, w.trapinfo]
  if s.hasDebugger w.ctx then s.escalate slot w detail
  else
    (s.bbox (dieOf slot) 0 0x06 (coreOf slot % 132) (warpNo slot) (primaryOf w) w.ctx detail).doom w.launch
      0x00030002 (trapCheck slot (trapKind w) (primaryOf w) w.trappc)

/-- The warp enters its handler: one thread, in the lane's handler bank. -/
def State.enterHandler (s : State) (slot : Nat) (w : Warp) (c : Ctx) : State :=
  (s.setWarp slot { w.setThread 32 (handlerThread c w) with freeze := some .running }).updLane (laneOf slot)
    (fun l => { l with bank := some slot })

/-- HANDLER_START of warp slot `turn.ix`. -/
def execHandlerStart (s : State) : Result :=
  s.event (fun s =>
    let slot := s.turn.ix
    match s.warp? slot with
    | none => s
    | some w =>
      match s.ctxs.get? w.ctx with
      | none => s
      | some c =>
        if w.freeze != some .waiting || s.stopped w then s
        else if !c.handles (trapKind w) then s.unhandled slot w
        else if s.handlerReady slot w then s.enterHandler slot w c
        else s)

/-! ### Calls -/

/-- TRAP_SET. -/
def execTrapSet (ctx : Nat) (handler : Addr56) (kinds : BitVec 28) (s : State) : Result :=
  s.call (fun s => s.updCtx ctx (fun c => { c with handler := handler, kinds := kinds }))

/-- DBG_ATTACH to context `turn.ix`. -/
def execDbgAttach (s : State) : Result := s.call (fun s => s.updCtx s.turn.ix (fun c => { c with debugger := true }))

/-- DBG_DETACH from context `turn.ix`. -/
def execDbgDetach (s : State) : Result := s.call (fun s => s.updCtx s.turn.ix (fun c => { c with debugger := false }))

/-- The settings keep the table of R397: clause addresses, sizes and aligned ranges. What a call does with others
is not stated: it changes nothing (DESIGN CHOICE, notes/assumptions/60.md). -/
def dbgOk (c : DbgSet) : Bool :=
  c.bps.toList.all (fun b => b.addr.toNat % 8 = 0)
    && c.wps.toList.all (fun x => x.size.toNat ≤ 12 && x.addr.toNat % 2 ^ x.size.toNat = 0)

/-- DBG_SET: the selected warps take the settings at their next issue, and warps admitted later find them in the
template. -/
def execDbgSet (ctx : Nat) (sel : WarpSel) (cfg : DbgSet) (s : State) : Result :=
  s.call (fun s =>
    let give (i : Nat) (w : Warp) : Warp :=
      if w.ctx = ctx && selNames sel i w.num then { w with dbgNext := some cfg } else w
    if !dbgOk cfg then s
    else State.updCtx { s with
      warps := s.warps.map (fun x => (x.1, give (((s.blocks.get? x.2.block).map Block.index).getD 0) x.2))
      saved := s.saved.map (fun x => { x with warps := x.warps.map (give x.block.index) }) } ctx
      (fun c => { c with template := c.template ++ [(sel, cfg)] }))

/-- A frozen warp of a context. -/
def State.frozen (s : State) (ctx slot : Nat) : Option Warp :=
  (s.warp? slot).filter (fun w => w.ctx = ctx && w.freeze.isSome && !s.issuing slot)

/-- DBG_READ: what TRD gives; nothing for a selector that the table does not name. -/
def execDbgRead (ctx w : Nat) (t : BitVec 5) (sel : Word) (s : State) : Result :=
  s.call (fun s =>
    match s.frozen ctx w with
    | some x => s.ret (if selOk sel.toNat then [s.trdVal x t.toNat sel.toNat] else [])
    | none => s.ret [])

/-- DBG_WRITE: what TWR does; nothing where TWR would be a reserved use. -/
def execDbgWrite (ctx w : Nat) (t : BitVec 5) (sel val : Word) (s : State) : Result :=
  s.call (fun s =>
    match s.frozen ctx w with
    | none => s
    | some x =>
      let k := sel.toNat
      if twrBad x t.toNat k val x.edits then s
      else if atOnce k then s.twrNow w t.toNat k val
      else s.setWarp w { x with edits := x.edits ++ [(t.toNat, k, val)] })

/-- The handler's SYSC 8 that waits for the debugger. -/
def State.escalated8 (s : State) (slot : Nat) (w : Warp) : Option (Nat × Cmd) :=
  if w.double.isSome || (w.threads.get? 32).isNone then none
  else s.cmds.find? (fun x => x.2.warp = slot && x.2.thread = 32 && !x.2.accepted && x.2.done != 0)

/-- The handler is abandoned, and what it has outstanding. -/
def State.dropHandler (s : State) (slot : Nat) : State :=
  { s with
    loads := s.loads.filter (fun x => !(x.2.warp = slot && x.2.thread = 32))
    cmds := s.cmds.filter (fun x => !(x.2.warp = slot && x.2.thread = 32 && !x.2.accepted)) }

/-- DBG_RESUME of an escalated warp. The debugger's value is the reply of the handler's SYSC 8, an acquire (R239). -/
def execDbgResume (ctx w action : Nat) (val : Word) (s : State) : Result :=
  s.call (fun s =>
    match s.frozen ctx w with
    | none => s
    | some x =>
      if x.freeze != some .escalated then s
      else
        let back := ((s.dropHandler w).trapReturn w).evalJoins w
        match action with
        | 0 =>
          match s.escalated8 w x with
          | some (id, c) => ((s.setWarp w { x with freeze := some .running }).reply id c val).discardL1 (coreOf w)
          | none => back
        | 1 => back
        | 2 => s.doom x.launch 0x00030001 (trapCheck w (trapKind x) (primaryOf x) x.trappc)
        | _ => s)

/-! ### The early end of a launch -/

/-- The latest queue of a context with a header address. -/
def State.queueOf (s : State) (ctx : Nat) (header : Word) : Option (Nat × Queue) :=
  (s.queues.filter (fun x => x.2.ctx = ctx && x.2.header == header)).getLast?

/-- LAUNCH_END: a launch that runs ends, a record not yet read is marked, and a launch that is over is
reported (R385); where that launch ended early, the call is entered in the black box (R384). -/
def execLaunchEnd (ctx : Nat) (header : Word) (index : Nat) (s : State) : Result :=
  s.call (fun s =>
    match s.queueOf ctx header with
    | none => s.ret [1]
    | some (qid, q) =>
      let n := index % 2 ^ 32
      if (BitVec.ofNat 32 n - q.consume).toNat < 2 ^ 31 then
        State.ret { s with queues := s.queues.put qid { q with marked := q.marked ++ [n] } } [0]
      else match (s.launches.filter (fun x => x.2.queue = qid && x.2.index = n)).getLast? with
        | none => s.ret [1]
        | some (id, l) =>
          if l.closed then (if l.ended then s.endEntry l id 0x00030001 else s).ret [1]
          else (s.doom id 0x00030001 { mcheck 0 (s.queueDie l) 0 0 0 0xFF 0xFF 0 with source := 4 }).ret [0])

/-! ### The black box -/

/-- The 64 bytes of an entry (R401). -/
def Event.bytes (e : Event) : List Byte :=
  leBytes 8 e.seq ++ leBytes 8 e.time ++ leBytes 1 e.source ++ leBytes 1 e.code ++ leBytes 2 e.core ++ leBytes 1 e.warp
    ++ leBytes 1 e.thread ++ leBytes 1 (if e.secure then 1 else 0) ++ leBytes 1 0 ++ leBytes 8 e.ctx
    ++ ((List.range 4).flatMap (fun k => leBytes 8 (e.detail.getD k 0).toNat))

/-- What a caller receives of an entry (R402). -/
def Event.shown (secureCaller : Bool) (e : Event) : Event :=
  if e.secure && !secureCaller then { e with ctx := 0, detail := [] } else e

/-- BBOX_READ: the ring in sequence order, in the caller's buffer (R385, R402). -/
def execBboxRead (die : Nat) (call : BboxCall) (s : State) : Result :=
  s.call (fun s => { s with host := { s.host with
    bbox := (call.buffer, (s.die die).events.flatMap (fun e => (e.shown call.secure).bytes)) } })

end Sys2Proof.Machine
end

