-- ==== Sys2Proof/Machine/Host.lean ====
section
/-! DEFINITION. The control interface (R313, R318, R251, R363, R408), reduction cells as the switches and the peers
see them (R327, R328), the accesses of host-die cores, PCIe endpoints and peer packages (R246, R274, R366, R378,
R379), the region table (R323) and Trellis (R326). -/

namespace Sys2Proof.Machine

/-! ### Contexts and queues -/

/-- CTX_CREATE: the call returns the context's id. A root that is not a multiple of 256 is taken as it is (DESIGN CHOICE,
notes/assumptions/69.md). -/
def execCtxCreate (secure : Bool) (root : Nat) (backing backingSize save : Word) (excl : List Nat)
    (imports : List (Word × Word)) (s : State) : Result :=
  s.call (fun s =>
    let (id, s) := s.fresh
    let c : Ctx :=
      { secure := secure, root := root, backing := backing, backingSize := backingSize.toNat, save := save,
        excl := excl, handler := 0, kinds := 0, debugger := false, template := [], allocs := [],
        imports := imports, preempt := [], asked := [], view := [], shot := s.nextVer }
    State.ret { s with ctxs := s.ctxs.put id c } [BitVec.ofNat 64 id])

/-- A block of the context is resident or saved. -/
def State.ctxBusy (s : State) (ctx : Nat) : Bool :=
  s.blocks.vals.any (fun b => b.ctx = ctx) || s.saved.any (fun x => x.block.ctx = ctx)

/-- CTX_DESTROY of context `turn.ix`: its residency entries, queues, waiting records and launches go with it. -/
def execCtxDestroy (s : State) : Result :=
  s.call (fun s =>
    let ctx := s.turn.ix
    if (s.ctxs.get? ctx).isNone || s.ctxBusy ctx then s.ret [1]
    else
      let mine (id : Nat) : Bool := ((s.launches.get? id).map Launch.ctx) == some ctx
      State.ret { s with
        ctxs := s.ctxs.del ctx
        queues := s.queues.filter (fun x => x.2.ctx != ctx)
        launches := s.launches.map (fun x => (x.1, if x.2.ctx = ctx then { x.2 with closed := true } else x.2))
        ordq := s.ordq.filter (fun c => !(c.pkg = s.trellis.id && mine c.launch))
        ordSeq := s.ordSeq.filter (fun c => !mine c.launch)
        dies := s.dies.map (fun x => (x.1, { x.2 with
          resid := x.2.resid.filter (fun e => e.ctx != ctx)
          seeds := x.2.seeds.del ctx })) } [0])

/-- QUEUE_CREATE: the queue is served from the next produce; a malformed header is refused, and one that cannot be
read stops the queue. A queue of the same header is created anew, and keeps the
marks of records not yet read (R385). -/
def execQueueCreate (ctx : Nat) (header : Word) (die : Nat) (s : State) : Result :=
  s.call (fun s =>
    let (id, s) := s.fresh
    let marks := ((s.queueOf ctx header).map (fun x => x.2.marked)).getD []
    let q : Queue := { ctx := ctx, header := header, die := die, served := true, consume := 0, marked := marks }
    match s.ctxRead ctx header.toNat 64 with
    | .error k => ((s.headerFailed q k).stopQueue id q 0x12 [header, BitVec.ofNat 64 k]).ret [1]
    | .ok b =>
      if !headerGood b then s.ret [1]
      else
        let produce := (headerFields b).2.2
        let old := s.queues.map (fun x =>
          (x.1, if x.2.ctx = ctx && x.2.header == header then { x.2 with served := false } else x.2))
        let s := State.ret { s with queues := SMap.put old id { q with consume := produce } } [0]
        s.tryWrite (s.dieWriter die false) ctx (header.toNat + 0x14) (leBytes 4 produce.toNat))

/-! ### Shoot-down -/

/-- The cores on which the context has a block. -/
def State.ctxCores (s : State) (ctx : Nat) : List Nat :=
  ((s.blocks.vals.filter (fun b => b.ctx = ctx)).flatMap Block.cores).eraseDups

/-- What `f` does to each copy of the context that has begun and whose launch goes on. -/
def State.eachCopy (f : State → Nat → Cmd → State) (s : State) (ctx : Nat) : State :=
  s.cmds.keys.foldl (fun s id =>
    match s.cmds.get? id with
    | some c =>
      let begun : Bool := match c.body with
        | .copy .. => c.ctx = ctx && c.accepted && (c.done != 0 || !c.held.isEmpty) && !s.ending c.launch
        | _ => false
      if begun then f s id c else s
    | none => s) s

/-- Copies of the context that have begun are through, for they may have translated by an old entry (R363). What waits
for its bank goes on in the next refresh slot; a copy that cannot go on ends its launch. -/
def State.settleCopies (s : State) (ctx : Nat) : State :=
  let run (s : State) (id : Nat) (c : Cmd) : State := s.cpAll id c (fun s => s.finishCmd id c)
  let s := s.eachCopy run ctx
  let wait : Bool := s.cmds.vals.any (fun c => c.ctx = ctx && !c.held.isEmpty)
  let s := if wait then State.eachCopy run { s with clock := s.clock + 4800 } ctx else s
  s.eachCopy (fun s _ c => match s.lostRead c with
    | some p => s.loseCmd c p.store.1 p.store.2
    | none => s.cutCopy c) ctx

/-- SHOOTDOWN: what was translated before is performed, the range's reservations go, later walks read the entries as
they stand, and the context's cores keep no line (R251, R363, R366). -/
def execShootdown (ctx va size : Nat) (s : State) : Result :=
  s.call (fun s =>
    let s := s.settle.settleCopies ctx
    let s := s.clearResv (fun w _ r =>
      ((s.warp? w).map Warp.ctx) == some ctx && va ≤ r.va && r.va < va + size)
    let s := s.updCtx ctx (fun c => { c with shot := s.nextVer })
    (s.ctxCores ctx).foldl State.discardL1 s)

/-! ### Reduction cells -/

/-- The settings of a cell keep R327: one of 64 cells, its window a 256-byte aligned domain address, its result and
round word in this package's own memory; and the part has cells (R320). -/
def State.cellOk (s : State) (cell : Nat) (cfg : CellCfg) : Bool :=
  s.part.features.getLsbD 2 && cell < 64 && cfg.window / 2 ^ 50 = 2 && cfg.window % 256 = 0
    && cfg.result < 2 ^ 39 && cfg.round < 2 ^ 39

/-- CELL_CONFIG: refused while a round is open. -/
def execCellConfig (cell : Nat) (cfg : CellCfg) (s : State) : Result :=
  s.call (fun s =>
    let busy : Bool := match s.cells.get? cell with
      | some c => !c.round.isEmpty
      | none => false
    match busy || !s.cellOk cell cfg, s.physical cfg.window with
    | false, some a =>
      State.ret { s with cells := s.cells.put cell ⟨{ cfg with window := a }, [], []⟩ } [0]
    | _, _ => s.ret [1])

/-- CELL_CONTRIBUTION: a member package's 256 bytes reach the cell. -/
def execCellContribution (cell pkg : Nat) (data : List Byte) (s : State) : Result :=
  s.event (fun s =>
    match s.cells.get? cell with
    | some c => if c.cfg.members.getLsbD pkg && data.length = 256 then s.cellContribute cell pkg data else s
    | none => s)

/-! ### Attestation -/

/-- The region table's bytes. -/
def regionBytes (m : SMap (Word × Word)) : List Byte :=
  (List.range 64).flatMap (fun k =>
    let e := m.get (0, 0) k
    leBytes 8 e.1.toNat ++ leBytes 8 e.2.toNat)

/-- The public key of the identity key, as capability 0x0009 shows it (R318). -/
def Part.identityKey (p : Part) : List Byte := p.identity.take 1793

/-- What the report's signature is computed over. -/
def Report.digest (r : Report) : List Byte :=
  shake256 (r.nonce ++ leBytes 4 r.version.toNat ++ r.image ++ r.region ++ r.caps)

/-- The report for a nonce (R318); the region table's digest is that of the table as boot locked it. -/
def State.attest (s : State) (nonce : List Byte) : Report :=
  let r : Report := { nonce := nonce, version := s.host.version, image := s.host.imageHash, region := s.host.regionHash,
                      caps := shake256 s.host.caps, sig := [] }
  { r with sig := Config.falconSign s.part.identityKey r.digest }

/-- The report bears a signature by the identity key. -/
def Report.signed (r : Report) (p : Part) : Bool := falconVerify p.identityKey r.digest r.sig

/-- ATTEST. The signature is a free value among those that verify: the report stands where it does
(notes/assumptions/61.md). -/
def execAttest (nonce : BitVec 256) (s : State) : Result :=
  s.call (fun s =>
    let r := s.attest (leBytes 32 nonce.toNat)
    { s with host := { s.host with report := if r.signed s.part then some r else none } })

/-! ### Agents outside the compute dies -/

/-- An agent outside: its black-box source, its number for R401, its world, where it stands, and the package whose
launches it speaks for. -/
structure Agent where
  source : Nat
  num    : Nat
  secure : Bool
  spot   : Spot
  pkg    : Option Nat
  deriving DecidableEq, Repr

/-- The first byte and length of an access; a fence has none. -/
def reach (x : ExtAccess) : Option (Nat × Nat) :=
  match x with
  | .read pa n => some (pa, n)
  | .write pa b => some (pa, b.length)
  | .atom _ pa dbl _ _ | .contribute pa dbl .. | .lres pa dbl _ | .scond pa dbl .. | .ordf pa dbl => some (pa, dblBytes dbl)
  | .fence => none

def isRead (x : ExtAccess) : Bool :=
  match x with
  | .read .. | .lres .. => true
  | _ => false

/-- The number under which an agent's thread holds a reservation: a peer's is its package id. -/
def Agent.id (g : Agent) : Nat := match g.pkg with
  | some k => k
  | none => 64 + g.num

/-- The agent as a writer: its writes release what its last fence has (R274), and stand for strong loads in the order of
their performance (notes/assumptions/12.md). -/
def State.agentWriter (s : State) (g : Agent) : Writer :=
  { spot := g.spot, heads := (s.fences.find? (fun h => h.spot == g.spot)).toList, strong := some (.sys, []) }

/-- A fence of an agent outside: acq_rel at sys scope (R274). -/
def State.agentFence (s : State) (g : Agent) : State :=
  { s with fences := ⟨.sys, g.spot, [], s.vers.map Ver.id⟩ :: s.fences.filter (fun h => h.spot != g.spot) }

/-- What the agent reads. -/
def State.saw (s : State) (b : List Byte) : State := { s with host := { s.host with read := b } }

/-- The reservation of an agent's thread is gone, or stands on a granule. -/
def State.reserve (s : State) (g : Agent) (t : Nat) (granule : Option Nat) : State :=
  { s with peerResv := (granule.map (fun x => (g.id, t, x))).toList ++ s.peerResv.filter (fun x => !(x.1 = g.id && x.2.1 = t)) }

/-- The access at its home (R246): what it reads is what the agent sees. -/
def State.outsideAt (s : State) (g : Agent) (x : ExtAccess) (pa : Nat) : State :=
  let me := s.agentWriter g
  match x with
  | .read _ n => s.saw (rdBytes s.mem pa n)
  | .write _ b => s.writePa me pa b
  | .atom op _ dbl b c =>
    let n := dblBytes dbl
    let old := rdBytes s.mem pa n
    (s.writePa { me with heads := me.heads ++ ((s.newest (.mem pa) n).map Ver.heads).getD [] } pa
      (leBytes n (atomNew op dbl (leNat old) (b.toNat % 2 ^ (8 * n)) (c.toNat % 2 ^ (8 * n))))).saw old
  | .contribute _ dbl v launch cls block rank seq =>
    match g.pkg with
    | some k => s.contribute ⟨pa, dbl, v, ⟨cls, block, rank, seq⟩, k, launch⟩
    | none => s
  | .lres _ dbl t => (s.reserve g t (some (granuleOf pa))).saw (rdBytes s.mem pa (dblBytes dbl))
  | .scond _ dbl v t =>
    if s.peerResv.contains (g.id, t, granuleOf pa) then
      ((s.writePa me pa (leBytes (dblBytes dbl) v.toNat)).reserve g t none).saw [1]
    else (s.reserve g t none).saw [0]
  | .ordf _ dbl => s.applyOrd pa dbl (fun _ => true) me .none
  | .fence => s

/-- One access from outside. An address that R245 says does not exist has no effect that the spec gives. -/
def State.outside (s : State) (g : Agent) (x : ExtAccess) : Result :=
  match reach x with
  | none => s.event (fun s => s.agentFence g)
  | some (p, n) =>
    match s.physical p, s.physical (p + (n - 1)) with
    | some pa, some _ =>
      s.event (fun s =>
        let bytes := (List.range (max 1 n)).map (pa + ·)
        if !g.secure && bytes.any s.secureMem then
          State.bbox (s.saw []) 0 g.source 0x03 0 0xFF 0xFF 0 [BitVec.ofNat 64 p, BitVec.ofNat 64 g.num]
        else if !isRead x && bytes.any s.cellAt then
          s.bbox 0 9 0x04 0 0xFF 0xFF 0 [BitVec.ofNat 64 p]
        else s.outsideAt g x pa)
    | _, _ => .fault (.noSuchAddress p)

/-- HOST_CORE_ACCESS. The cores' accesses are performed at once (R274). Until the dies are released the cores wait
(R316). -/
def execHostCoreAccess (secure : Bool) (x : ExtAccess) (s : State) : Result :=
  if s.released then s.outside ⟨8, 0, secure, .outside, none⟩ x else s.event id

/-- PCIE_ENDPOINT_ACCESS. -/
def execPcieEndpointAccess (x : ExtAccess) (s : State) : Result := s.outside ⟨8, 1, false, .outside, none⟩ x

/-- PEER_PACKAGE_ACCESS. -/
def execPeerPackageAccess (pkg : Nat) (x : ExtAccess) (s : State) : Result := s.outside ⟨9, pkg, false, .peer pkg, some pkg⟩ x

/-- PEER_APPLICATION_REQUEST for launch `turn.k` of package `turn.ix`: its contributions are applied (R246, R274). -/
def execPeerApplicationRequest (s : State) : Result :=
  s.event (fun s =>
    let mine (c : Contrib) : Bool := c.launch = s.turn.k && c.pkg = s.turn.ix && s.turn.ix != s.trellis.id
    (s.wordsOf mine).foldl (fun s x => s.applyOrd x.1 x.2 mine (s.dieWriter (homeDie x.1) false) .none) s)

/-! ### The region table and the domain -/

/-- An entry as the table holds it: reserved bits read as zero (R3, R323). -/
def regionEntry (e : Word × Word) : Word × Word := (e.1 &&& 0x000FFFFFFFFF00FB, e.2 &&& 0x000FFFFFFFFF0000)

/-- REGION_TABLE_WRITE by secure software of the host die, which runs after boot (R316): a locked entry does not
change. -/
def execRegionTableWrite (entry : Nat) (w0 w1 : Word) (s : State) : Result :=
  s.call (fun s =>
    if 64 ≤ entry || (s.regions.get (0, 0) entry).1.getLsbD 3 then s
    else { s with regions := s.regions.set (0, 0) entry (regionEntry (w0, w1)) })

/-- DOMAIN_BRING_UP by software of the host die: the package's id, the members, which of the 16 ports are up and the
packages that each reaches. -/
def execDomainBringUp (id : Nat) (members : BitVec 64) (ports : Ports) (s : State) : Result :=
  s.call (fun s => { s with trellis := ⟨id, members, ports.up, ports.reach⟩ })

end Sys2Proof.Machine
end

