-- ==== Sys2Proof/Machine/Boot.lean ====
section
/-! DEFINITION. PACKAGE_RESET: boot and signed firmware (R316, R317, R257, R322, R323), and the capability list of the
part (R319, R320). -/

namespace Sys2Proof.Machine

/-- The fields of a header (R317). -/
def imgVersion (i : Image) : BitVec 32 := BitVec.ofNat 32 (fieldLE i.head 8 4)

def imgAdvances (i : Image) : Bool := fieldLE i.head 0xC 4 % 2 = 1

/-- The body: as many bytes as the header says. -/
def imgBody (i : Image) : List Byte := i.body.take (fieldLE i.head 0x10 8)

def imgKey (i : Image) : List Byte := (i.head.drop 0x20).take 1793

/-- An image verifies (R317). -/
def State.verifies (s : State) (i : Image) : Bool :=
  i.head.length = 0x1000 && fieldLE i.head 0x10 8 ≤ i.body.length
    && fieldLE i.head 0 4 = 0x4B424649 && fieldLE i.head 4 2 = 1 && s.host.fuseMin.toNat ≤ (imgVersion i).toNat
    && zeroBytes i.head 6 2 && fieldLE i.head 0xC 4 < 2 && zeroBytes i.head 0x18 8 && zeroBytes i.head 0x721 7
    && zeroBytes i.head 0xC28 984
    && shake256 (imgKey i) == leBytes 64 s.host.keyHash.toNat
    && falconVerify (imgKey i) (shake256 (i.head.take 0x728 ++ imgBody i)) ((i.head.drop 0x728).take 1280)

/-! ### The capability list (R14, R19, R21, R319, R320)

The spec gives the content of each entry and, for 0x0002 and 0x0003, its layout; elsewhere each item is an 8-byte word
in the order of R320 (DESIGN CHOICE, notes/assumptions/62.md). -/

/-- An entry of version 1: its header and its body, filled to a multiple of 8 bytes. -/
def capEntry (id : Nat) (body : List Byte) : List Byte :=
  let fill := (8 - body.length % 8) % 8
  leBytes 8 ((8 + body.length + fill) * 2 ^ 32 + 2 ^ 16 + id) ++ body ++ List.replicate fill 0

def capWords (xs : List Nat) : List Byte := xs.flatMap (leBytes 8)

/-- The physical position of an enabled core on its die (R14). -/
def Part.position (p : Part) (core : Nat) : Nat := p.coreMap.get (core % 132) core

/-- The list that firmware builds for the part (R1, R21, R320), its own figures in it, with the domain as it stands at boot.
The architecture is revision 3 (R1, R314). -/
def capList (p : Part) (t : Trellis) : List Byte :=
  capEntry 1 (capWords [p.code, 3, 1200000000, 2400000000, p.dies, p.cores])
    ++ capEntry 2 ((List.range 528).flatMap (fun c => leBytes 2 (p.position c)))
    ++ capEntry 3 ((List.range 16896).map (fun l => BitVec.ofNat 8 (p.units l)))
    ++ capEntry 4 (capWords [p.stackBytes, p.wsBytes, p.slices, p.tiles])
    ++ capEntry 5 (capWords [p.saveWarp, p.saveCore])
    ++ capEntry 6 (capWords [t.id, t.members.toNat, t.up.toNat, if p.features.getLsbD 2 then 64 else 0])
    ++ capEntry 7 (capWords [p.features.toNat])
    ++ capEntry 9 (p.identity.take 65536)
    ++ leBytes 8 0

/-! ### Boot -/

/-- A secure entry is locked as firmware writes it. -/
def lockEntry (e : Word × Word) : Word × Word :=
  let e := regionEntry e
  if e.1.getLsbD 1 then (e.1 ||| 8, e.2) else e

/-- The machine as package reset leaves it before the ROM's first step: the part, its fuses and its links stay. -/
def State.fresh0 (s : State) : State :=
  { State.reset with
    agenda := s.agenda, tick := s.tick, turn := s.turn, nextId := s.nextId, part := s.part, trellis := s.trellis,
    host := { HostSide.reset with fuseMin := s.host.fuseMin, keyHash := s.host.keyHash } }

/-- The region table that firmware leaves. -/
def bootRegions (fw : FwSetup) : SMap (Word × Word) :=
  fw.regions.foldl (fun m x => SMap.set m (0, 0) (x.1 % 64) (lockEntry x.2)) []

/-- What the firmware of an image does (R316 steps 5 to 7): weight stores hold zeros, the region table, the
worlds and the capability list stand, the measurements are recorded, and the dies leave reset. -/
def State.boots (s : State) (i : Image) (fw : FwSetup) : State :=
  let caps := capList s.part s.trellis
  let regions := bootRegions fw
  { s with
    mem := wrBytes s.mem (capPlace capVa) caps
    regions := regions
    secure := fw.secure
    released := true
    host := { s.host with
      caps := caps, version := (imgVersion i), imageHash := shake256 (i.head ++ imgBody i),
      regionHash := shake256 (regionBytes regions), bootStatus := 1,
      fuseMin := if imgAdvances i then BitVec.ofNat 32 (max s.host.fuseMin.toNat (imgVersion i).toNat) else s.host.fuseMin } }

/-- PACKAGE_RESET: the primary image, else the recovery image, else the failure code. -/
def execPackageReset (primary recovery : Image) (fw : FwSetup) (s : State) : Result :=
  s.event (fun s =>
    let s := s.fresh0
    if s.verifies primary then s.boots primary fw
    else if s.verifies recovery then s.boots recovery fw
    else { s with host := { s.host with bootStatus := 2 } })

end Sys2Proof.Machine
end

