-- ==== Sys2Proof/Machine/Convert.lean ====
section
/-! DEFINITION. Page 4: conversions (R159, R160) and special functions (R161, R162). -/

namespace Sys2Proof.Machine

/-! ### Conversions -/

/-- The control word (R159): part, sc and sv. -/
def cvPart (c : Word) : Nat := c.toNat % 16
def cvSc (c : Word) : Nat := c.toNat / 2 ^ 8 % 256
def cvSv (c : Word) : Nat := c.toNat / 2 ^ 16 % 256

/-- Convert one group (R160): `src` are the source elements, `m` the destination's element count, `w` its
element width and `merge` the register that receives the group. -/
def convGroup (src : List Nat) (m w part : Nat) (merge : Word) (conv : Nat → Nat × Flags) :
    List Nat × Flags :=
  let n := src.length
  if m ≤ n then
    let p := part % (n / m)
    let xs := ((src.drop (p * m)).take m).map conv
    (xs.map (·.1), orFlags xs)
  else
    let p := part % (m / n)
    let xs := src.map conv
    ((List.range m).map (fun i =>
        if p * n ≤ i && i < p * n + n then ((xs.map (·.1)).getD (i - p * n) 0) else fieldAt merge w i),
      orFlags xs)

/-- FCVT of one element (R160). -/
def cvFF (dst src : FTy) (rm : Rm) (sat : Bool) (c : Word) (y : Nat) : Nat × Flags :=
  let F := fmtOf src
  let G := fmtOf dst
  if dst = .e2m1 then
    let v := if src = .e2m1 then decBlk e2m1 y (cvSc c) (cvSv c) else dec F y
    cvtE2m1 v rm sat (cvSc c) (cvSv c)
  else if src = .e2m1 then cvtFromE2m1 G rm sat y (cvSc c) (cvSv c)
  else cvt F G rm sat y

/-- CVTI of one element. -/
def cvFI (dst : ITy) (src : FTy) (rm : Rm) (sat : Bool) (c : Word) (y : Nat) : Nat × Flags :=
  let v := if src = .e2m1 then decBlk e2m1 y (cvSc c) (cvSv c) else dec (fmtOf src) y
  valToInt rm sat dst.signed (wI dst) v

/-- CVTF of one element. -/
def cvIF (dst : FTy) (rm : Rm) (sat : Bool) (c : Word) (y : Int) : Nat × Flags :=
  if dst = .e2m1 then cvtE2m1 (.fin (y < 0) y.natAbs 0) rm sat (cvSc c) (cvSv c)
  else intToF (fmtOf dst) rm sat y

/-- The inline integer under a source format that need not hold it exactly: it denotes its value all the same (R72;
notes/assumptions/46.md). -/
def exactInt (src : FTy) (a : Operand) : Option Int :=
  match a with
  | .int n => if src = .e4m3 || src = .e5m2 || src = .e2m1 then some (inlineInt n) else none
  | _ => none

/-- Its value as an element of the format, in its block for an E2M1 one (R112, R160). -/
def inlineVal (src : FTy) (c : Word) (k : Int) : FVal :=
  let v : FVal := .fin (k < 0) k.natAbs 0
  if src != .e2m1 then v else if cvSc c = 255 then .nan false 0 else v.scale (cvSc c - 127)

/-- FCVT of a value that no code gives. -/
def cvVF (dst : FTy) (rm : Rm) (sat : Bool) (c : Word) (v : FVal) : Nat × Flags :=
  if dst = .e2m1 then cvtE2m1 v rm sat (cvSc c) (cvSv c)
  else match v with
    | .fin n m e => rnd (fmtOf dst) rm sat (.of n m e)
    | _ => ((fmtOf dst).canonNaN, 0)

/-- FCVT (R160). DESIGN CHOICE: an inline integer as merge source b is read under D, its value in every element
(notes/assumptions/52.md); so in CVTI and CVTF. -/
def execFcvt (g : Guard) (d a b c : Operand) (dst src : FTy) (rm : Rm) (sat nf : Bool) (s : State) : Result :=
  s.alu (.fcvt g d a b c dst src rm sat nf) g 1 (fun s iss w p =>
    let ctl := s.rd iss w p c
    let (xs, fl) := convGroup (elemsF src (s.rdF iss w p src a)) dst.count (fmtOf dst).width (cvPart ctl)
      (s.rdF iss w p dst b) (match exactInt src a with
        | some k => fun _ => cvVF dst rm sat ctl (inlineVal src ctl k)
        | none => cvFF dst src rm sat ctl)
    (p.setDst d (writeF dst xs)).raise nf fl)

def execCvti (g : Guard) (d a b c : Operand) (dst : ITy) (src : FTy) (rm : Rm) (sat nf : Bool) (s : State) :
    Result :=
  s.alu (.cvti g d a b c dst src rm sat nf) g 1 (fun s iss w p =>
    let ctl := s.rd iss w p c
    let (xs, fl) := convGroup (elemsF src (s.rdF iss w p src a)) dst.count (wI dst) (cvPart ctl)
      (s.rdI iss w p dst b) (match exactInt src a with
        | some k => fun _ => valToInt rm sat dst.signed (wI dst) (inlineVal src ctl k)
        | none => cvFI dst src rm sat ctl)
    (p.setDst d (writeI dst (xs.map Int.ofNat))).raise nf fl)

def execCvtf (g : Guard) (d a b c : Operand) (dst : FTy) (src : ITy) (rm : Rm) (sat nf : Bool) (s : State) :
    Result :=
  s.alu (.cvtf g d a b c dst src rm sat nf) g 1 (fun s iss w p =>
    let ctl := s.rd iss w p c
    let x := s.rdI iss w p src a
    let conv (y : Nat) : Nat × Flags :=
      cvIF dst rm sat ctl (if src.signed then sgnOf (wI src) y else y)
    let (xs, fl) := convGroup ((List.range src.count).map (fieldAt x (wI src))) dst.count (fmtOf dst).width
      (cvPart ctl) (s.rdF iss w p dst b) conv
    (p.setDst d (writeF dst xs)).raise nf fl)

/-! ### Special functions -/

/-- Weights (R162): the packed forms weigh twice the .f32 figure. -/
def fnWeight (f : Fn) (ty : FTy) (fast : Bool) : Nat :=
  let (q, a) : Nat × Nat := match f with
    | .rcp | .rsq | .sqrt => (1, 3)
    | .div => (2, 4)
    | .exp2 | .log2 => (1, 4)
    | .sin | .cos | .tanh | .sigm => (2, 6)
    | .erf => (2, 8)
  match ty with
  | .f64 => if fast then q else 2 * a
  | .f32 => if fast then q else a
  | _ => 2 * (if fast then q else a)

/-- A function of one source. -/
def State.fn1 (s : State) (i : Instr) (g : Guard) (d a : Operand) (f : Fn) (ty : FTy) (fast : Bool) (rm : Rm)
    (nf : Bool) : Result :=
  s.alu i g (fnWeight f ty fast) (fun s iss w p =>
    p.fpDst d ty nf ((elemsF ty (s.rdF iss w p ty a)).map (fun x => fnElem (fmtOf ty) f fast rm x x)))

def execRcp (g : Guard) (d a : Operand) (ty : FTy) (fast : Bool) (rm : Rm) (nf : Bool) (s : State) : Result :=
  s.fn1 (.rcp g d a ty fast rm nf) g d a .rcp ty fast rm nf

def execRsq (g : Guard) (d a : Operand) (ty : FTy) (fast : Bool) (rm : Rm) (nf : Bool) (s : State) : Result :=
  s.fn1 (.rsq g d a ty fast rm nf) g d a .rsq ty fast rm nf

def execSqrt (g : Guard) (d a : Operand) (ty : FTy) (fast : Bool) (rm : Rm) (nf : Bool) (s : State) : Result :=
  s.fn1 (.sqrt g d a ty fast rm nf) g d a .sqrt ty fast rm nf

def execDivF (g : Guard) (d a b : Operand) (ty : FTy) (fast : Bool) (rm : Rm) (nf : Bool) (s : State) :
    Result :=
  s.alu (.divF g d a b ty fast rm nf) g (fnWeight .div ty fast) (fun s iss w p =>
    p.fpDst d ty nf (List.zipWith (fnElem (fmtOf ty) .div fast rm) (elemsF ty (s.rdF iss w p ty a))
      (elemsF ty (s.rdF iss w p ty b))))

def execExp2 (g : Guard) (d a : Operand) (ty : FTy) (fast : Bool) (rm : Rm) (nf : Bool) (s : State) : Result :=
  s.fn1 (.exp2 g d a ty fast rm nf) g d a .exp2 ty fast rm nf

def execLog2 (g : Guard) (d a : Operand) (ty : FTy) (fast : Bool) (rm : Rm) (nf : Bool) (s : State) : Result :=
  s.fn1 (.log2 g d a ty fast rm nf) g d a .log2 ty fast rm nf

def execSin (g : Guard) (d a : Operand) (ty : FTy) (fast : Bool) (rm : Rm) (nf : Bool) (s : State) : Result :=
  s.fn1 (.sin g d a ty fast rm nf) g d a .sin ty fast rm nf

def execCos (g : Guard) (d a : Operand) (ty : FTy) (fast : Bool) (rm : Rm) (nf : Bool) (s : State) : Result :=
  s.fn1 (.cos g d a ty fast rm nf) g d a .cos ty fast rm nf

def execTanh (g : Guard) (d a : Operand) (ty : FTy) (fast : Bool) (rm : Rm) (nf : Bool) (s : State) : Result :=
  s.fn1 (.tanh g d a ty fast rm nf) g d a .tanh ty fast rm nf

def execSigm (g : Guard) (d a : Operand) (ty : FTy) (fast : Bool) (rm : Rm) (nf : Bool) (s : State) : Result :=
  s.fn1 (.sigm g d a ty fast rm nf) g d a .sigm ty fast rm nf

def execErf (g : Guard) (d a : Operand) (ty : FTy) (fast : Bool) (rm : Rm) (nf : Bool) (s : State) : Result :=
  s.fn1 (.erf g d a ty fast rm nf) g d a .erf ty fast rm nf

end Sys2Proof.Machine
end

