-- ==== Sys2Proof/Machine/SyncOps.lean ====
section
/-! DEFINITION. Page 7: barriers (R206, R207, R41) and joins (R208, R209). -/

namespace Sys2Proof.Machine

/-- Outstanding entries of the thread's record, the arrivals earlier on its path included (R41). -/
def recordUse (b : Block) (p : Path) : Nat :=
  (p.th.arrivals.filter (fun e => outstanding b e.2)).length
    + (p.fx.filter (fun x => match x with
      | .bar op _ _ _ => op = 0 || op = 2
      | _ => false)).length

/-- A barrier operation: 0 arrive, 1 wait, 2 both, 3 BARX (R206), with the faults of R210. -/
def barBody (op : Nat) (n : BitVec 8) (exp : Option Nat) (count : State → Issue → Warp → Path → Nat) (d : Bool) :
    Body := fun s iss w p =>
  let bad (k : Nat) : PFault := { p.flt k (n.zeroExtend 64) with exp := exp }
  match s.blocks.get? w.block with
  | none => (s, .error (bad 17))
  | some b =>
    if b.nbars ≤ n.toNat then (s, .error (bad 17))
    else if (op = 0 || op = 2) && 4 ≤ recordUse b p then (s, .error (bad 16))
    else (s, .ok (p.addFx (.bar op n.toNat (count s iss w p) d)))

def noCount : State → Issue → Warp → Path → Nat := fun _ _ _ _ => 0

def execBarArrive (g : Guard) (n : BitVec 8) (s : State) : Result :=
  s.onOp (.barArrive g n) g 1 noReserved (barBody 0 n none noCount false)

def execBarWait (g : Guard) (n : BitVec 8) (s : State) : Result :=
  s.onOp (.barWait g n) g 1 noReserved (barBody 1 n none noCount false)

def execBarSync (g : Guard) (n : BitVec 8) (s : State) : Result :=
  s.onOp (.barSync g n) g 1 noReserved (barBody 2 n none noCount false)

/-- BARX reads bits 16:0 of its count (R206). -/
def execBarx (g : Guard) (n : BitVec 8) (a : Operand) (ded : Bool) (s : State) : Result :=
  s.onOp (.barx g n a ded) g 1 noReserved
    (barBody 3 n none (fun s iss w p => (s.rd iss w p a).toNat % 2 ^ 17) ded)

def execJset (g : Guard) (j : BitVec 4) (s : State) : Result :=
  s.alu (.jset g j) g 1 (fun _ _ _ p => p.addFx (.jset j p.next none))

def execJsetUniform (g : Guard) (j : BitVec 4) (r : BitVec 9) (s : State) : Result :=
  s.alu (.jsetUniform g j r) g 1 (fun s iss w p =>
    p.addFx (.jset j p.next (some ((s.rd iss w p (.s r)).setWidth 32))))

def execJoin (g : Guard) (j : BitVec 4) (s : State) : Result :=
  s.alu (.join g j) g 1 (fun _ _ _ p => p.addFx (.sign j true))

def execJarr (g : Guard) (j : BitVec 4) (s : State) : Result :=
  s.alu (.jarr g j) g 1 (fun _ _ _ p => p.addFx (.sign j false))

/-- The join as it stood at clause entry (R209). -/
def execJqry (g : Guard) (d : Operand) (j : BitVec 4) (sel : BitVec 2) (s : State) : Result :=
  s.alu (.jqry g d j sel) g 1 (fun _ iss _ p =>
    let x := iss.entryJoins.get Join.clear j.toNat
    let m : Mask := if sel = 0 then x.expected else if sel = 1 then x.signed else x.waiters
    p.setDst d (m.zeroExtend 64 ||| (if x.lost then 1 <<< 63 else 0)))

end Sys2Proof.Machine
end

