-- ==== Sys2Proof/Machine/Deprecated.lean ====
section
/-! DEFINITION. The deprecated instructions and their expansions (R81–R84, R345, R361). -/

namespace Sys2Proof.Machine

/-- One step of an LDQ: LD.n64 of v(d) at base + offset, its faults marked with the step (R345). -/
def ldqStep (k : Nat) (d : BitVec 8) (base : Operand) (off : BitVec 22) (s : State) (iss : Issue) (w : Warp)
    (p : Path) : State × Except PFault Path :=
  let va (s : State) (iss : Issue) (w : Warp) (p : Path) : Word :=
    s.vaOf .global base off iss w p + BitVec.ofNat 64 (8 * k)
  match loadBody .global true false d 8 .plain .core va s iss w p with
  | (s, .ok p) => (s, .ok p)
  | (s, .error f) => (s, .error { f with exp := some k })

/-- What is wrong with the second register before step 1: not held, or pending. -/
def State.ldqSecond (s : State) (iss : Issue) (w : Warp) (p : Path) (d : BitVec 8) (on : Bool) : Option PFault :=
  let r := (d + 1).toNat
  let f (k : Nat) : PFault := { p.flt k (BitVec.ofNat 64 r) with exp := some 1 }
  if 64 + 48 * w.units ≤ r then some (f 23)
  else if on && (s.pendingV iss.warp p.t).contains r then some (f 13)
  else none

/-- The two loads of an LDQ. -/
def ldqSteps (d : BitVec 8) (base : Operand) (off : BitVec 22) (s : State) (iss : Issue) (w : Warp) (p : Path) :
    State × Except PFault Path :=
  match ldqStep 0 d base off s iss w p with
  | (s, .error f) => (s, .error f)
  | (s, .ok q) =>
    match s.ldqSecond iss w q d true with
    | some f => (s, .error f)
    | none => ldqStep 1 (d + 1) base off s iss w q

/-- The path as one that no watchpoint matches. -/
def Path.unwatched (p : Path) : Path := { p with th := { p.th with resume := true } }

/-- LDQ for one path (R81). A watchpoint counts only when neither load raises a fault (R398). -/
def ldqPath (g : Guard) (d : BitVec 8) (base : Operand) (off : BitVec 22) (iss : Issue) (w : Warp) (s : State)
    (p : Path) : State × Path :=
  let on := p.guard g
  match s.judge iss w p (.ldq g d base off) on false with
  | some f => (s, p.fail f)
  | none =>
    if on then
      match ldqSteps d base off s iss w p.unwatched with
      | (s, .error f) => (s, (p.fail f).weigh 2)
      | (s, .ok _) =>
        match ldqSteps d base off s iss w p with
        | (s, .ok q) => (s, q.weigh 2)
        | (s, .error f) => (s, (p.fail f).weigh 2)
    else match s.ldqSecond iss w p d false with
      | some f => (s, (p.fail f).weigh 1)
      | none => (s, p.weigh 1)

def execLdq (g : Guard) (d : BitVec 8) (base : Operand) (off : BitVec 22) (s : State) : Result :=
  s.syllable (ldqPath g d base off)

/-- DOT4 (R82): four multiply-add steps on bytes. -/
def dot4W (signed : Bool) (a b c : Word) : Word :=
  let v (x : Word) (k : Nat) : Int := if signed then sgnOf 8 (fieldAt x 8 k) else fieldAt x 8 k
  let t := (List.range 4).foldl (fun t k => t + v a k * v b k) (fieldAt c 32 0 : Int)
  if signed then writeI .i32 [t] else writeI .n32 [t]

def execDot4 (g : Guard) (d : BitVec 8) (a b c : Operand) (signed : Bool) (s : State) : Result :=
  s.alu (.dot4 g d a b c signed) g 4 (fun s iss w p =>
    p.setV d (dot4W signed (s.rd iss w p a) (s.rd iss w p b) (s.rd iss w p c)))

/-- BARW is BAR.arrive and then BAR.wait (R83). -/
def execBarw (g : Guard) (n : BitVec 8) (s : State) : Result :=
  s.onOp (.barw g n) g 2 noReserved (barBody 2 n (some 0) noCount false)

end Sys2Proof.Machine
end

