-- ==== Sys2Proof/Machine/Exchange.lean ====
section
/-! DEFINITION. Page 7: the exchange network, reads of other threads' registers, scans and warp reductions
(R200–R205, R128). -/

namespace Sys2Proof.Machine

/-! ### The exchange network (R200) -/

/-- The position bit on which stage k acts. -/
def stageBit (k : Nat) : Nat := if k ≤ 6 then 6 - k else k - 6

/-- One stage: a switch whose control is 1 exchanges the values at its two positions. -/
def exchange (xc : BitVec 832) (k : Nat) (xs : List Nat) : List Nat :=
  let b := 2 ^ stageBit k
  (List.range 128).map (fun p =>
    let sw := p / (2 * b) * b + p % b
    let q := if p / b % 2 = 0 then p + b else p - b
    if xc.getLsbD (64 * k + sw) then xs.getD q 0 else xs.getD p 0)

def network (xc : BitVec 832) (xs : List Nat) : List Nat := (List.range 13).foldl (fun xs k => exchange xc k xs) xs

/-- The 128 positions of the participants' values; others enter as zero (R202). -/
def positions (vals : List (Nat × Word)) : List Nat :=
  (List.range 128).map (fun p =>
    match vals.find? (fun v => v.1 = p / 4) with
    | some v => fieldAt v.2 16 (p % 4)
    | none => 0)

def execXcfg (g : Guard) (k : BitVec 2) (src : BitVec 9) (s : State) : Result :=
  s.alu (.xcfg g k src) g 1 (fun _ _ _ p => p.addFx (.xcfg k src))

/-- XMOV: the handler thread stands at the position of the number $tid gives it (DEDUCED, notes/assumptions/27). -/
def execXmov (g : Guard) (d : BitVec 8) (a : Operand) (k : BitVec 2) (s : State) : Result :=
  s.onCollective (.xmov g d a k) g 2 (fun s iss w ps p =>
    let out := network (iss.entryXc.get 0 k.toNat) 
      (positions (ps.map (fun q => (contributor w q.t, s.rd iss w q a))))
    p.setV d (BitVec.ofNat 64 (pack 16 ((out.drop (4 * contributor w p.t)).take 4))))

/-! ### Another thread's register (R203) -/

/-- LREAD: width code 0 to 3 for 64, 32, 16 and 8 bits. -/
def execLread (g : Guard) (d a : BitVec 8) (b c : Operand) (width : BitVec 2) (s : State) : Result :=
  s.alu (.lread g d a b c width) g 1 (fun s iss w p =>
    let n := (s.rd iss w p b).toNat % 32
    let x := (iss.entry.get Thread.absent n).v.get 0 a.toNat
    let e := if width = 0 then 0 else (s.rd iss w p c).toNat % 2 ^ width.toNat
    p.setV d (BitVec.ofNat 64 (fieldAt x (64 / 2 ^ width.toNat) e)))

/-! ### Scans and reductions (R204, R205, R128) -/

/-- One step under an integer type. -/
def scanI (ty : ITy) (op : ScanOp) (sat : Bool) (run x : Word) : Word :=
  match op with
  | .add => map2 ty (fun a b => satI ty sat (a + b)) run x
  | .min => map2 ty min run x
  | .max => map2 ty max run x
  | .and => mapU2 ty (fun a b => (a &&& b : Nat)) run x
  | .or => mapU2 ty (fun a b => (a ||| b : Nat)) run x
  | .xor => mapU2 ty (fun a b => (a ^^^ b : Nat)) run x

/-- One step under a float type; the other operations are reserved uses there. -/
def scanF (ty : FTy) (op : ScanOp) (rm : Rm) (run x : Word) : Word :=
  let F := fmtOf ty
  writeF ty (List.zipWith (fun a b =>
    match op with
    | .add => (fAdd F rm false a b).1
    | .min => (fMinMax F false a b).1
    | _ => (fMinMax F true a b).1) (elemsF ty run) (elemsF ty x))

def scanOp (ty : DTy) (op : ScanOp) (rm : Rm) (sat : Bool) (run x : Word) : Word :=
  match ty with
  | .i t => scanI t op sat run x
  | .f t => scanF t op rm run x

/-- The running value after the values given, each with whether it starts a segment. -/
def scanRun (f : Word → Word → Word) : List (Bool × Word) → Word
  | [] => 0
  | (_, x) :: rest => rest.foldl (fun run v => if v.1 then v.2 else f run v.2) x

/-- A participant's value, read and written through the type. -/
def State.scanVal (s : State) (iss : Issue) (w : Warp) (ty : DTy) (a : Operand) (q : Path) : Word :=
  writeD ty (s.rdD iss w q ty a)

def execScan (g : Guard) (d : BitVec 8) (a : Operand) (seg : Option (BitVec 3)) (rm : Rm) (sat : Bool)
    (ty : DTy) (op : ScanOp) (s : State) : Result :=
  s.onCollective (.scan g d a seg rm sat ty op) g 2 (fun s iss w ps p =>
    let starts (q : Path) : Bool := match seg with
      | some k => q.depth k
      | none => false
    p.setV d (scanRun (scanOp ty op rm sat)
      ((ps.filter (fun q => q.t ≤ p.t)).map (fun q => (starts q, s.scanVal iss w ty a q)))))

def execRedw (g : Guard) (d : Operand) (a : Operand) (rm : Rm) (sat : Bool) (ty : DTy) (op : ScanOp)
    (s : State) : Result :=
  s.onCollective (.redw g d a rm sat ty op) g 2 (fun s iss w ps p =>
    p.setDst d (scanRun (scanOp ty op rm sat) (ps.map (fun q => (false, s.scanVal iss w ty a q)))))

end Sys2Proof.Machine
end

