-- ==== Sys2Proof/Machine/Leaves.lean ====
section
/-! DEFINITION. Leaves (R52, R63–R66, R152): the successor, the return stack with its spill and refill, and
the faults of R336 at a leaf. -/

namespace Sys2Proof.Machine

/-- The address after the clause. -/
def Issue.after (iss : Issue) : Addr56 := iss.addr + BitVec.ofNat 56 (8 * (1 + iss.words.length))

/-- A target at an offset of 8-byte units. -/
def Issue.target (iss : Issue) (off : BitVec 32) : Addr56 := iss.addr + ((off.signExtend 56) <<< 3)

def Path.goTo (p : Path) (a : Addr56) : Path := { p with leaf := some (.go a) }

/-- The path ends in EXIT or TRAP. The PC it leaves to a thread that exits is the model's choice (DESIGN CHOICE,
notes/assumptions/58.md). -/
def Path.ends (p : Path) (e : LeafEnd) (pc : Addr56) : Path :=
  { p with leaf := some e, th := { p.th with pc := pc } }

/-- What is wrong with a register target: misaligned (7), or out of the address space (8). RESOLVE's reply for an unbound
(DEDUCED, notes/assumptions/48.md). -/
def targetFault (x : Word) : Option Nat :=
  if x = BitVec.allOnes 64 then some 8
  else if x.toNat % 8 != 0 then some 7 else if x.toNat / 2 ^ 56 != 0 then some 8 else none

/-- A push that spills is a store of 8 bytes below $rsp (R64). -/
def Path.spills (p : Path) : Bool := 4 ≤ p.th.ret.length

def spillAccess (va : Word) (store : Bool) : Access :=
  { space := .global, kind := if store then .w else .r, owner := false, n := 8, va := va, flag := none,
    reads := !store, writes := store }

/-- push(x) (R64), the spill's faults apart. -/
def Path.pushRet (p : Path) (iss : Issue) (pl : Place) (x : Addr56) : Path :=
  if p.spills then
    let va := p.th.rsp - 8
    let old : Word := (p.th.ret.getLastD 0).zeroExtend 64
    let p := { p with th := { p.th with
      rsp := va, spill := p.th.spill + 1, ret := x :: p.th.ret.take 3 } }
    p.store iss pl va (leBytes 8 old.toNat) .plain .core
  else { p with th := { p.th with ret := x :: p.th.ret } }

/-- A call: the faults of the target and of the spill in the order of R337, then the push. Where both fail with one kind, the
target's address is the detail (DESIGN CHOICE, notes/assumptions/79.md). -/
def callBody (target : State → Issue → Warp → Path → Word) : Body := fun s iss w p =>
  let x := target s iss w p
  let spill : Except PFault Place :=
    if p.spills then s.access iss w p (spillAccess (p.th.rsp - 8) true) else .ok (.mem 0)
  let low : Bool := match spill with
    | .error f => f.kind = 7
    | .ok _ => false
  match targetFault x, spill with
  | some 7, _ => (s, .error (p.flt 7 x))
  | some k, .error f => (s, .error (if low then f else p.flt k x))
  | some k, .ok _ => (s, .error (p.flt k x))
  | none, .error f => (s, .error f)
  | none, .ok pl => (s, .ok ((p.pushRet iss pl iss.after).goTo (x.setWidth 56)))

def execLeafNext (s : State) : Result :=
  s.onLeaf .leafNext (fun s iss _ p => (s, .ok (p.goTo iss.after)))

def execLeafJmp (off : BitVec 32) (s : State) : Result :=
  s.onLeaf (.leafJmp off) (fun s iss _ p => (s, .ok (p.goTo (iss.target off))))

def execLeafJmpi (r : Operand) (s : State) : Result :=
  s.onLeaf (.leafJmpi r) (fun s iss w p =>
    let x := s.rd iss w p r
    match targetFault x with
    | some k => (s, .error (p.flt k x))
    | none => (s, .ok (p.goTo (x.setWidth 56))))

def execLeafCall (off : BitVec 32) (s : State) : Result :=
  s.onLeaf (.leafCall off) (callBody (fun _ iss _ _ => (iss.target off).zeroExtend 64))

def execLeafCalli (r : Operand) (s : State) : Result :=
  s.onLeaf (.leafCalli r) (callBody (fun s iss w p => s.rd iss w p r))

/-- pop() (R64): a refill is a plain load, read before the thread commits. -/
def retBody : Body := fun s iss w p =>
  match p.th.ret with
  | a :: rest => (s, .ok ({ p with th := { p.th with ret := rest } }.goTo a))
  | [] =>
    if p.th.spill = 0 then (s, .error (p.flt 15 0))
    else
      match s.access iss w p (spillAccess p.th.rsp false) with
      | .error f => (s, .error f)
      | .ok pl =>
        let l := { iss.load w p .pc pl p.th.rsp 8 false plainly with flag := none }
        let p := { p with th := { p.th with rsp := p.th.rsp + 8, spill := p.th.spill - 1 } }
        (s, .ok { (p.addFx (.load l)) with leaf := some .refill })

def execLeafRet (s : State) : Result := s.onLeaf .leafRet retBody

def execLeafExit (s : State) : Result :=
  s.onLeaf .leafExit (fun s iss _ p => (s, .ok (p.ends .exit iss.after)))

def execLeafTrap (code : BitVec 12) (s : State) : Result :=
  s.onLeaf (.leafTrap code) (fun s iss _ p => (s, .ok (p.ends (.trap code) iss.after)))

end Sys2Proof.Machine
end

