-- ==== Sys2Proof/Machine/Small.lean ====
section
/-! DEFINITION. Page 5: small matrices in windows of registers (R164–R176, R355, R356). -/

namespace Sys2Proof.Machine

/-! ### Windows -/

/-- The 36 element codes of a window, element (i, j) at index 6i + j. -/
abbrev Mat := List Nat

def Mat.at (m : Mat) (i j : Nat) : Nat := m.getD (6 * i + j) 0

def Mat.put (m : Mat) (i j x : Nat) : Mat := m.set (6 * i + j) x

def prec (dbl : Bool) : Fmt := if dbl then fp64 else fp32

/-- Element e of a window (R164). -/
def Path.winElem (p : Path) (m : BitVec 4) (dbl : Bool) (e : Nat) : Nat :=
  if dbl then (p.th.v.get 0 (winFirst m + e)).toNat else fieldAt (p.th.v.get 0 (winFirst m + e / 2)) 32 (e % 2)

def Path.win (p : Path) (m : BitVec 4) (dbl : Bool) : Mat := (List.range 36).map (p.winElem m dbl)

/-- The registers of a window image. -/
def winWords (dbl : Bool) (x : Mat) : List Word :=
  if dbl then x.map (BitVec.ofNat 64)
  else (List.range 18).map (fun k => BitVec.ofNat 64 (x.getD (2 * k) 0 + 2 ^ 32 * x.getD (2 * k + 1) 0))

/-- Write registers from the window's first up. -/
def Path.setWords (p : Path) (first : Nat) (ws : List Word) : Path :=
  { p with th := { p.th with v := ws.zipIdx.foldl (fun v (x, k) => v.set 0 (first + k) x) p.th.v } }

def Path.setWin (p : Path) (m : BitVec 4) (dbl : Bool) (x : Mat) : Path :=
  p.setWords (winFirst m) (winWords dbl x)

/-- A result of shape R × C: every other element is +0 (R167). -/
def shaped (r c : Nat) (f : Nat → Nat → Nat) : Mat :=
  (List.range 36).map (fun e => if e / 6 < r && e % 6 < c then f (e / 6) (e % 6) else 0)

/-- The same of elements that raise flags. -/
def shapedF (r c : Nat) (f : Nat → Nat → Nat × Flags) : Mat × Flags :=
  let xs := (List.range 36).map (fun e => if e / 6 < r && e % 6 < c then f (e / 6) (e % 6) else (0, 0))
  (xs.map (·.1), orFlags xs)

/-! ### Arithmetic (R167) -/

def negF (F : Fmt) (x : Nat) : Nat := modCode F true false x

def mDiv (F : Fmt) (x y : Nat) : Nat × Flags := fnElem F .div false .rne x y

/-- s, then fma(x, y, s) for each pair in order. -/
def fmaSum (F : Fmt) (s : Nat × Flags) (xys : List (Nat × Nat)) : Nat × Flags :=
  xys.foldl (fun s xy =>
    let r := fFma F .rne xy.1 xy.2 s.1
    (r.1, s.2 ||| r.2)) s

/-- MMUL and MMAD (R170). -/
def mmulM (F : Fmt) (r c k : Nat) (acc : Option Mat) (a b : Mat) : Mat × Flags :=
  shapedF r c (fun i j =>
    let pairs := (List.range k).map (fun n => (a.at i n, b.at n j))
    match acc with
    | some d => fmaSum F (d.at i j, 0) pairs
    | none => fmaSum F (fMul F .rne (a.at i 0) (b.at 0 j)) (pairs.drop 1))

/-- MMV (R170). -/
def mmvM (F : Fmt) (r c : Nat) (acc : Option Mat) (a b : Mat) : Mat × Flags :=
  shapedF 1 r (fun _ i =>
    let pairs := (List.range c).map (fun n => (a.at i n, b.at 0 n))
    match acc with
    | some d => fmaSum F (d.at 0 i, 0) pairs
    | none => fmaSum F (fMul F .rne (a.at i 0) (b.at 0 0)) (pairs.drop 1))

/-- s ≤ 0 or s is NaN. -/
def notPositive (F : Fmt) (s : Nat) : Bool :=
  match dec F s with
  | .nan .. => true
  | .inf n => n
  | .fin n m _ => n || m = 0

/-- A factorisation under way: the matrix, the flags, and whether it has stopped. -/
structure Fact where
  m    : Mat
  fl   : Flags
  stop : Bool

/-- Column j of MCHOL (R171). -/
def cholStep (F : Fmt) (n : Nat) (a : Mat) (x : Fact) (j : Nat) : Fact :=
  if x.stop then x
  else
    let row (i : Nat) : List (Nat × Nat) := (List.range j).map (fun k => (negF F (x.m.at i k), x.m.at j k))
    let (s, fl) := fmaSum F (a.at j j, 0) (row j)
    let fl := x.fl ||| fl
    if notPositive F s then
      let m := (List.range 36).map (fun e =>
        if e / 6 < n && e % 6 < n && j ≤ e % 6 && e % 6 ≤ e / 6 then F.canonNaN else x.m.getD e 0)
      ⟨m, fl ||| flNP, true⟩
    else
      let (d, f1) := fnElem F .sqrt false .rne s s
      ((List.range n).filter (j < ·)).foldl (fun y i =>
        let (t, f2) := fmaSum F (a.at i j, 0) (row i)
        let (q, f3) := mDiv F t d
        { y with m := y.m.put i j q, fl := y.fl ||| f2 ||| f3 }) ⟨x.m.put j j d, fl ||| f1, false⟩

def cholM (F : Fmt) (n : Nat) (a : Mat) : Mat × Flags :=
  let x := (List.range n).foldl (cholStep F n a) ⟨List.replicate 36 0, 0, false⟩
  (x.m, x.fl)

/-- |x| > |y|, a NaN greater than every number (R172). -/
def pivotGt (F : Fmt) (x y : Nat) : Bool :=
  let h := 2 ^ (F.width - 1)
  if F.isNaN y then false else if F.isNaN x then true else fCmp F (x % h) (y % h) == some .gt

/-- A factorisation with pivoting: matrix, permutation, swaps, flags. -/
structure Lu where
  w     : Mat
  perm  : List Nat
  swaps : Nat
  fl    : Flags

/-- Swap two entries of a list. -/
def swapAt (l : List Nat) (i j : Nat) : List Nat := (l.set i (l.getD j 0)).set j (l.getD i 0)

def swapRows (m : Mat) (i j : Nat) : Mat :=
  (List.range 6).foldl (fun m c => swapAt m (6 * i + c) (6 * j + c)) m

/-- ±0. -/
def isZero (F : Fmt) (x : Nat) : Bool := x % 2 ^ (F.width - 1) = 0

/-- Row i of step k: the multiplier and its row update. -/
def luRow (F : Fmt) (n k : Nat) (x : Lu) (i : Nat) : Lu :=
  let (q, f) := mDiv F (x.w.at i k) (x.w.at k k)
  ((List.range n).filter (k < ·)).foldl (fun x j =>
    let (v, f) := fFma F .rne (negF F q) (x.w.at k j) (x.w.at i j)
    { x with w := x.w.put i j v, fl := x.fl ||| f }) { x with w := x.w.put i k q, fl := x.fl ||| f }

/-- Step k of MLUP (R172). -/
def luStep (F : Fmt) (n : Nat) (x : Lu) (k : Nat) : Lu :=
  let rows := (List.range n).filter (k < ·)
  let p := rows.foldl (fun p i => if pivotGt F (x.w.at i k) (x.w.at p k) then i else p) k
  let x := if p = k then x
    else { x with w := swapRows x.w p k, perm := swapAt x.perm p k, swaps := x.swaps + 1 }
  if isZero F (x.w.at k k) then
    { x with w := rows.foldl (fun w i => w.put i k 0) (x.w.put k k 0), fl := x.fl ||| flSG }
  else rows.foldl (luRow F n k) x

def luM (F : Fmt) (n : Nat) (a : Mat) : Lu :=
  (List.range n).foldl (luStep F n) ⟨a, List.range 6, 0, 0⟩

def permWord (perm : List Nat) : Nat := perm.foldr (fun p v => p + 16 * v) 0

/-- One division of a triangular solve: y(i) = (y(i) − Σ …) / d. -/
def solveAt (F : Fmt) (y : List Nat × Flags) (i : Nat) (pairs : List (Nat × Nat)) (d : Option Nat) :
    List Nat × Flags :=
  let (t, f) := fmaSum F (y.1.getD i 0, 0) pairs
  match d with
  | none => (y.1.set i t, y.2 ||| f)
  | some d =>
    let (q, g) := mDiv F t d
    (y.1.set i q, y.2 ||| f ||| g)

/-- Column j of MLUS (R173, R356). -/
def lusCol (F : Fmt) (n : Nat) (w b : Mat) (vp : Word) (j : Nat) : List Nat × Flags :=
  let y0 := (List.range n).map (fun i =>
    let p := vp.toNat / 16 ^ i % 16
    if p < 6 then b.at p j else 0)
  let y := (List.range n).foldl (fun y i =>
    solveAt F y i ((List.range i).map (fun k => (negF F (w.at i k), y.1.getD k 0))) none) (y0, 0)
  (List.range n).reverse.foldl (fun y i =>
    let y := solveAt F y i (((List.range n).filter (i < ·)).map (fun k => (negF F (w.at i k), y.1.getD k 0)))
      (some (w.at i i))
    if isZero F (w.at i i) then (y.1, y.2 ||| flSG) else y) y

/-- Forward and backward substitution of column values (R174). -/
def forwardCol (F : Fmt) (n : Nat) (l : Mat) (y : List Nat × Flags) : List Nat × Flags :=
  (List.range n).foldl (fun y i =>
    solveAt F y i ((List.range i).map (fun k => (negF F (l.at i k), y.1.getD k 0))) (some (l.at i i))) y

def backwardCol (F : Fmt) (n : Nat) (l : Mat) (y : List Nat × Flags) : List Nat × Flags :=
  (List.range n).reverse.foldl (fun y i =>
    solveAt F y i (((List.range n).filter (i < ·)).map (fun k => (negF F (l.at k i), y.1.getD k 0)))
      (some (l.at i i))) y

def trsCol (F : Fmt) (n mode : Nat) (l b : Mat) (j : Nat) : List Nat × Flags :=
  let y : List Nat × Flags := ((List.range n).map (fun i => b.at i j), 0)
  match mode with
  | 0 => forwardCol F n l y
  | 1 => backwardCol F n l y
  | _ => backwardCol F n l (forwardCol F n l y)

/-- A result given column by column. -/
def fromCols (n c : Nat) (cols : List (List Nat × Flags)) : Mat × Flags :=
  (shaped n c (fun i j => ((cols.map (·.1)).getD j []).getD i 0), cols.foldl (fun f x => f ||| x.2) 0)

/-- MDET (R175). -/
def detM (F : Fmt) (n : Nat) (a : Mat) : Nat × Flags :=
  let x := luM F n a
  let one := encFin F (x.swaps % 2 = 1) 1 0
  (List.range n).foldl (fun d k =>
    let r := fMul F .rne d.1 (x.w.at k k)
    (r.1, d.2 ||| r.2)) (one, x.fl)

/-! ### Shapes and weights (R166, R176) -/

def nR (sh : Shape) : Nat := sh.rows.toNat + 1
def nC (sh : Shape) : Nat := sh.cols.toNat + 1

def ceilDiv (a b : Nat) : Nat := (a + b - 1) / b

def smallWeight (sh : Shape) (n : Nat) : Nat := if sh.dbl then 2 * n else n

def luWeight (n : Nat) : Nat := 4 * n + ceilDiv (n * n * n) 4

def solveWeight (n c : Nat) : Nat := 4 * n + ceilDiv (n * n * c) 4

/-! ### The instructions -/

/-- One result window from the path's windows. -/
def State.onWin (s : State) (i : Instr) (g : Guard) (wt : Nat) (d : BitVec 4) (sh : Shape) (nf : Bool)
    (f : Path → Mat × Flags) : Result :=
  s.alu i g (smallWeight sh wt) (fun _ _ _ p =>
    let (x, fl) := f p
    (p.setWin d sh.dbl x).raise nf fl)

/-- Accesses of 8 bytes in ascending order: the fault of the first kind in the order of R337. Where several words fault, its
address is that of the lowest-indexed word of that kind (DESIGN CHOICE, notes/assumptions/75.md). -/
def State.accessWords (s : State) (iss : Issue) (w : Warp) (p : Path) (k : Acc) (va : Word) (count : Nat)
    (flag : Option Nat) (reads : Bool) : Except PFault (List (Word × Place)) :=
  let vas := (List.range count).map (fun i => va + BitVec.ofNat 64 (8 * i))
  let xs := vas.map (fun a => (a, s.locate iss.warp w .global k false 8 a.toNat))
  let bad := xs.foldl (fun (r : Option (Nat × Word)) x =>
    match x.2, r with
    | .ok _, r => r
    | .error e, none => some (e, x.1)
    | .error e, some (e', a) => if e < e' then some (e, x.1) else some (e', a)) none
  match bad with
  | some (e, a) => .error (p.flt e a)
  | none =>
    if p.overflows flag then .error (p.flt 14 (BitVec.ofNat 64 (flag.getD 0)))
    else match vas.find? (fun a => watched w p .global a.toNat 8 reads (!reads)) with
      | some a => .error (p.flt 2 a)
      | none => .ok (xs.filterMap (fun x => match x.2 with
        | .ok pl => some (x.1, pl)
        | .error _ => none))

def execMld (g : Guard) (m : BitVec 4) (dbl : Bool) (base : Operand) (off : BitVec 22) (s : State) : Result :=
  s.onOp (.mld g m dbl base off) g 1 noReserved (fun s iss w p =>
    let va := s.vaOf .global base off iss w p
    match s.accessWords iss w p .r va (winLen dbl) iss.setA true with
    | .error f => (s, .error f)
    | .ok ps =>
      let pl := ((ps.head?).map (·.2)).getD (.mem 0)
      (s, .ok (p.addFx (.load (iss.load w p (.m m dbl (ps.map (·.2))) pl va 8 false plainly)))))

def execMst (g : Guard) (m : BitVec 4) (dbl : Bool) (base : Operand) (off : BitVec 22) (s : State) : Result :=
  s.onOp (.mst g m dbl base off) g (if dbl then 4 else 2) noReserved (fun s iss w p =>
    let va := s.vaOf .global base off iss w p
    match s.accessWords iss w p .w va (winLen dbl) none false with
    | .error f => (s, .error f)
    | .ok ps =>
      let ws := (List.range (winLen dbl)).map (fun k => p.th.v.get 0 (winFirst m + k))
      (s, .ok ((ps.zip ws).foldl (fun p x =>
        p.store iss x.1.2 x.1.1 (leBytes 8 x.2.toNat) .plain .core) p)))

def execMset (g : Guard) (d : BitVec 4) (a b : Operand) (sh : Shape) (nf : Bool) (s : State) : Result :=
  s.alu (.mset g d a b sh nf) g (smallWeight sh 2) (fun s iss w p =>
    let ty : FTy := if sh.dbl then .f64 else .f32
    let rd (o : Operand) : Nat := fieldAt (s.rdF iss w p ty o) (prec sh.dbl).width 0
    p.setWin d sh.dbl (shaped (nR sh) (nC sh) (fun i j => if i = j then rd a else rd b)))

def execMmov (g : Guard) (d a : BitVec 4) (sh : Shape) (nf : Bool) (s : State) : Result :=
  s.onWin (.mmov g d a sh nf) g 2 d sh nf (fun p => (shaped (nR sh) (nC sh) (p.win a sh.dbl).at, 0))

def execMtr (g : Guard) (d a : BitVec 4) (sh : Shape) (nf : Bool) (s : State) : Result :=
  s.onWin (.mtr g d a sh nf) g 2 d sh nf (fun p =>
    (shaped (nC sh) (nR sh) (fun i j => (p.win a sh.dbl).at j i), 0))

def execMmul (g : Guard) (d a b : BitVec 4) (k : BitVec 3) (sh : Shape) (nf : Bool) (s : State) : Result :=
  s.onWin (.mmul g d a b k sh nf) g (ceilDiv ((nR sh) * (nC sh) * k.toNat) 8) d sh nf (fun p =>
    mmulM (prec sh.dbl) (nR sh) (nC sh) k.toNat none (p.win a sh.dbl) (p.win b sh.dbl))

def execMmad (g : Guard) (d a b : BitVec 4) (k : BitVec 3) (sh : Shape) (nf : Bool) (s : State) : Result :=
  s.onWin (.mmad g d a b k sh nf) g (ceilDiv ((nR sh) * (nC sh) * k.toNat) 8) d sh nf (fun p =>
    mmulM (prec sh.dbl) (nR sh) (nC sh) k.toNat (some (p.win d sh.dbl)) (p.win a sh.dbl) (p.win b sh.dbl))

def execMmv (g : Guard) (d a b : BitVec 4) (acc : Bool) (sh : Shape) (nf : Bool) (s : State) : Result :=
  s.onWin (.mmv g d a b acc sh nf) g (ceilDiv ((nR sh) * (nC sh)) 4) d sh nf (fun p =>
    mmvM (prec sh.dbl) (nR sh) (nC sh) (if acc then some (p.win d sh.dbl) else none) (p.win a sh.dbl) (p.win b sh.dbl))

def execMchol (g : Guard) (d a : BitVec 4) (sh : Shape) (nf : Bool) (s : State) : Result :=
  s.onWin (.mchol g d a sh nf) g (4 * (nR sh) + ceilDiv ((nR sh) * (nR sh) * (nR sh)) 8) d sh nf (fun p =>
    cholM (prec sh.dbl) (nR sh) (p.win a sh.dbl))

/-- The factors are written, then vp. -/
def execMlup (g : Guard) (d a : BitVec 4) (vp : BitVec 8) (sh : Shape) (nf : Bool) (s : State) : Result :=
  s.alu (.mlup g d a vp sh nf) g (smallWeight sh (luWeight (nR sh))) (fun _ _ _ p =>
    let x := luM (prec sh.dbl) (nR sh) (p.win a sh.dbl)
    ((p.setWin d sh.dbl (shaped (nR sh) (nR sh) x.w.at)).setV vp (BitVec.ofNat 64 (permWord x.perm))).raise nf x.fl)

def execMlus (g : Guard) (d a b : BitVec 4) (vp : Operand) (sh : Shape) (nf : Bool) (s : State) : Result :=
  s.alu (.mlus g d a b vp sh nf) g (smallWeight sh (solveWeight (nR sh) (nC sh))) (fun s iss w p =>
    let (x, fl) := fromCols (nR sh) (nC sh) ((List.range (nC sh)).map
      (lusCol (prec sh.dbl) (nR sh) (p.win a sh.dbl) (p.win b sh.dbl) (s.rd iss w p vp)))
    (p.setWin d sh.dbl x).raise nf fl)

def execMtrs (g : Guard) (d a b : BitVec 4) (mode : BitVec 2) (sh : Shape) (nf : Bool) (s : State) : Result :=
  s.onWin (.mtrs g d a b mode sh nf) g (if mode = 2 then 2 * solveWeight (nR sh) (nC sh) else solveWeight (nR sh) (nC sh))
    d sh nf (fun p =>
      fromCols (nR sh) (nC sh) ((List.range (nC sh)).map
        (trsCol (prec sh.dbl) (nR sh) mode.toNat (p.win a sh.dbl) (p.win b sh.dbl))))

def execMdet (g : Guard) (d : BitVec 8) (a : BitVec 4) (sh : Shape) (nf : Bool) (s : State) : Result :=
  s.alu (.mdet g d a sh nf) g (smallWeight sh (luWeight (nR sh))) (fun _ _ _ p =>
    let (x, fl) := detM (prec sh.dbl) (nR sh) (p.win a sh.dbl)
    (p.setV d (BitVec.ofNat 64 x)).raise nf fl)

end Sys2Proof.Machine
end

