-- ==== Sys2Proof/Machine/Dispatch.lean ====
section
/-! DEFINITION. One arm per instruction of spec/opcode_table.json. -/

namespace Sys2Proof.Machine

open Sys2Proof

def exec (i : Instr) (s : State) : Host.Outcome State Fault Refusal :=
  match i with
  | .cellContribution cell pkg data => Sys2Proof.Machine.execCellContribution cell pkg data s
  | .packageReset primary recovery fw => Sys2Proof.Machine.execPackageReset primary recovery fw s
  | .ctxCreate secure root backing backingSize save excl imports => Sys2Proof.Machine.execCtxCreate secure root backing backingSize save excl imports s
  | .queueCreate ctx header die => Sys2Proof.Machine.execQueueCreate ctx header die s
  | .shootdown ctx va size => Sys2Proof.Machine.execShootdown ctx va size s
  | .preempt ctx die => Sys2Proof.Machine.execPreempt ctx die s
  | .restore ctx die excl => Sys2Proof.Machine.execRestore ctx die excl s
  | .cellConfig cell cfg => Sys2Proof.Machine.execCellConfig cell cfg s
  | .attest nonce => Sys2Proof.Machine.execAttest nonce s
  | .launchEnd ctx header index => Sys2Proof.Machine.execLaunchEnd ctx header index s
  | .trapSet ctx handler kinds => Sys2Proof.Machine.execTrapSet ctx handler kinds s
  | .dbgSet ctx sel cfg => Sys2Proof.Machine.execDbgSet ctx sel cfg s
  | .dbgRead ctx w t sel => Sys2Proof.Machine.execDbgRead ctx w t sel s
  | .dbgWrite ctx w t sel val => Sys2Proof.Machine.execDbgWrite ctx w t sel val s
  | .dbgResume ctx w action val => Sys2Proof.Machine.execDbgResume ctx w action val s
  | .bboxRead die call => Sys2Proof.Machine.execBboxRead die call s
  | .add g d a b ty sat => Sys2Proof.Machine.execAdd g d a b ty sat s
  | .sub g d a b ty sat => Sys2Proof.Machine.execSub g d a b ty sat s
  | .mul g d a b ty sat => Sys2Proof.Machine.execMul g d a b ty sat s
  | .mulh g d a b ty => Sys2Proof.Machine.execMulh g d a b ty s
  | .mad g d a b c ty sat => Sys2Proof.Machine.execMad g d a b c ty sat s
  | .madw g d a b c signed sat => Sys2Proof.Machine.execMadw g d a b c signed sat s
  | .div g d a b ty sat => Sys2Proof.Machine.execDiv g d a b ty sat s
  | .rem g d a b ty => Sys2Proof.Machine.execRem g d a b ty s
  | .min g d a b ty => Sys2Proof.Machine.execMin g d a b ty s
  | .max g d a b ty => Sys2Proof.Machine.execMax g d a b ty s
  | .abs g d a ty sat => Sys2Proof.Machine.execAbs g d a ty sat s
  | .neg g d a ty sat => Sys2Proof.Machine.execNeg g d a ty sat s
  | .lea g d a b c ty => Sys2Proof.Machine.execLea g d a b c ty s
  | .addImm g d a ty imm => Sys2Proof.Machine.execAddImm g d a ty imm s
  | .subRevImm g d a ty imm => Sys2Proof.Machine.execSubRevImm g d a ty imm s
  | .mulImm g d a ty imm => Sys2Proof.Machine.execMulImm g d a ty imm s
  | .minImm g d a ty imm => Sys2Proof.Machine.execMinImm g d a ty imm s
  | .maxImm g d a ty imm => Sys2Proof.Machine.execMaxImm g d a ty imm s
  | .leaImm g d a imm => Sys2Proof.Machine.execLeaImm g d a imm s
  | .and g d a b ty => Sys2Proof.Machine.execAnd g d a b ty s
  | .or g d a b ty => Sys2Proof.Machine.execOr g d a b ty s
  | .xor g d a b ty => Sys2Proof.Machine.execXor g d a b ty s
  | .andn g d a b ty => Sys2Proof.Machine.execAndn g d a b ty s
  | .truth g d a b c table => Sys2Proof.Machine.execTruth g d a b c table s
  | .shl g d a b ty => Sys2Proof.Machine.execShl g d a b ty s
  | .shr g d a b ty => Sys2Proof.Machine.execShr g d a b ty s
  | .sar g d a b ty => Sys2Proof.Machine.execSar g d a b ty s
  | .rotl g d a b ty => Sys2Proof.Machine.execRotl g d a b ty s
  | .fshl g d a b c ty => Sys2Proof.Machine.execFshl g d a b c ty s
  | .bfx g d a b c ty => Sys2Proof.Machine.execBfx g d a b c ty s
  | .bfi g d a b c ty => Sys2Proof.Machine.execBfi g d a b c ty s
  | .popc g d a ty => Sys2Proof.Machine.execPopc g d a ty s
  | .clz g d a ty => Sys2Proof.Machine.execClz g d a ty s
  | .ctz g d a ty => Sys2Proof.Machine.execCtz g d a ty s
  | .brev g d a ty => Sys2Proof.Machine.execBrev g d a ty s
  | .andImm g d a imm => Sys2Proof.Machine.execAndImm g d a imm s
  | .orImm g d a imm => Sys2Proof.Machine.execOrImm g d a imm s
  | .xorImm g d a imm => Sys2Proof.Machine.execXorImm g d a imm s
  | .andnImm g d a imm => Sys2Proof.Machine.execAndnImm g d a imm s
  | .shlImm g d a imm => Sys2Proof.Machine.execShlImm g d a imm s
  | .shrImm g d a imm => Sys2Proof.Machine.execShrImm g d a imm s
  | .sarImm g d a imm => Sys2Proof.Machine.execSarImm g d a imm s
  | .rotlImm g d a imm => Sys2Proof.Machine.execRotlImm g d a imm s
  | .movi g d imm => Sys2Proof.Machine.execMovi g d imm s
  | .moviW g d imm => Sys2Proof.Machine.execMoviW g d imm s
  | .movhi g d imm => Sys2Proof.Machine.execMovhi g d imm s
  | .mov g d a ty => Sys2Proof.Machine.execMov g d a ty s
  | .sel g d a b k => Sys2Proof.Machine.execSel g d a b k s
  | .cmp g c a b ty => Sys2Proof.Machine.execCmp g c a b ty s
  | .cmpImm g c a ty imm => Sys2Proof.Machine.execCmpImm g c a ty imm s
  | .fcmp g c a b dbl nf => Sys2Proof.Machine.execFcmp g c a b dbl nf s
  | .testCmpReg c a b ty => Sys2Proof.Machine.execTestCmpReg c a b ty s
  | .testCmpImm c a ty imm => Sys2Proof.Machine.execTestCmpImm c a ty imm s
  | .testPred clr d => Sys2Proof.Machine.execTestPred clr d s
  | .pcomb g table x y z => Sys2Proof.Machine.execPcomb g table x y z s
  | .pdrop g n => Sys2Proof.Machine.execPdrop g n s
  | .pget g d => Sys2Proof.Machine.execPget g d s
  | .pset g a => Sys2Proof.Machine.execPset g a s
  | .ballot g d k inv => Sys2Proof.Machine.execBallot g d k inv s
  | .first g d a => Sys2Proof.Machine.execFirst g d a s
  | .srd g d a => Sys2Proof.Machine.execSrd g d a s
  | .swr g x a => Sys2Proof.Machine.execSwr g x a s
  | .leafJmp off => Sys2Proof.Machine.execLeafJmp off s
  | .leafJmpi r => Sys2Proof.Machine.execLeafJmpi r s
  | .leafCall off => Sys2Proof.Machine.execLeafCall off s
  | .leafCalli r => Sys2Proof.Machine.execLeafCalli r s
  | .leafTrap code => Sys2Proof.Machine.execLeafTrap code s
  | .fadd g d a b ty rm nf => Sys2Proof.Machine.execFadd g d a b ty rm nf s
  | .fmul g d a b ty rm nf => Sys2Proof.Machine.execFmul g d a b ty rm nf s
  | .fma g d a b c negc ty rm nf => Sys2Proof.Machine.execFma g d a b c negc ty rm nf s
  | .fmin g d a b ty num nf => Sys2Proof.Machine.execFmin g d a b ty num nf s
  | .fmax g d a b ty num nf => Sys2Proof.Machine.execFmax g d a b ty num nf s
  | .frnd g d a ty rm nf => Sys2Proof.Machine.execFrnd g d a ty rm nf s
  | .fscale g d a b ty rm nf => Sys2Proof.Machine.execFscale g d a b ty rm nf s
  | .fclass g d a ty nf => Sys2Proof.Machine.execFclass g d a ty nf s
  | .fexpo g d a ty nf => Sys2Proof.Machine.execFexpo g d a ty nf s
  | .fcvt g d a b c dst src rm sat nf => Sys2Proof.Machine.execFcvt g d a b c dst src rm sat nf s
  | .cvti g d a b c dst src rm sat nf => Sys2Proof.Machine.execCvti g d a b c dst src rm sat nf s
  | .cvtf g d a b c dst src rm sat nf => Sys2Proof.Machine.execCvtf g d a b c dst src rm sat nf s
  | .rcp g d a ty fast rm nf => Sys2Proof.Machine.execRcp g d a ty fast rm nf s
  | .rsq g d a ty fast rm nf => Sys2Proof.Machine.execRsq g d a ty fast rm nf s
  | .sqrt g d a ty fast rm nf => Sys2Proof.Machine.execSqrt g d a ty fast rm nf s
  | .divF g d a b ty fast rm nf => Sys2Proof.Machine.execDivF g d a b ty fast rm nf s
  | .exp2 g d a ty fast rm nf => Sys2Proof.Machine.execExp2 g d a ty fast rm nf s
  | .log2 g d a ty fast rm nf => Sys2Proof.Machine.execLog2 g d a ty fast rm nf s
  | .sin g d a ty fast rm nf => Sys2Proof.Machine.execSin g d a ty fast rm nf s
  | .cos g d a ty fast rm nf => Sys2Proof.Machine.execCos g d a ty fast rm nf s
  | .tanh g d a ty fast rm nf => Sys2Proof.Machine.execTanh g d a ty fast rm nf s
  | .sigm g d a ty fast rm nf => Sys2Proof.Machine.execSigm g d a ty fast rm nf s
  | .erf g d a ty fast rm nf => Sys2Proof.Machine.execErf g d a ty fast rm nf s
  | .mld g m dbl base off => Sys2Proof.Machine.execMld g m dbl base off s
  | .mst g m dbl base off => Sys2Proof.Machine.execMst g m dbl base off s
  | .mset g d a b sh nf => Sys2Proof.Machine.execMset g d a b sh nf s
  | .mmov g d a sh nf => Sys2Proof.Machine.execMmov g d a sh nf s
  | .mtr g d a sh nf => Sys2Proof.Machine.execMtr g d a sh nf s
  | .mmul g d a b k sh nf => Sys2Proof.Machine.execMmul g d a b k sh nf s
  | .mmad g d a b k sh nf => Sys2Proof.Machine.execMmad g d a b k sh nf s
  | .mmv g d a b acc sh nf => Sys2Proof.Machine.execMmv g d a b acc sh nf s
  | .mchol g d a sh nf => Sys2Proof.Machine.execMchol g d a sh nf s
  | .mlup g d a vp sh nf => Sys2Proof.Machine.execMlup g d a vp sh nf s
  | .mlus g d a b vp sh nf => Sys2Proof.Machine.execMlus g d a b vp sh nf s
  | .mtrs g d a b mode sh nf => Sys2Proof.Machine.execMtrs g d a b mode sh nf s
  | .mdet g d a sh nf => Sys2Proof.Machine.execMdet g d a sh nf s
  | .ldN d m => Sys2Proof.Machine.execLdN d m s
  | .ldI d m => Sys2Proof.Machine.execLdI d m s
  | .st data m => Sys2Proof.Machine.execSt data m s
  | .ldSpN d m => Sys2Proof.Machine.execLdSpN d m s
  | .ldSpI d m => Sys2Proof.Machine.execLdSpI d m s
  | .stSp data m => Sys2Proof.Machine.execStSp data m s
  | .ldWsN d m => Sys2Proof.Machine.execLdWsN d m s
  | .ldWsI d m => Sys2Proof.Machine.execLdWsI d m s
  | .ldSpPeekN d m => Sys2Proof.Machine.execLdSpPeekN d m s
  | .ldSpPeekI d m => Sys2Proof.Machine.execLdSpPeekI d m s
  | .ldxN d x => Sys2Proof.Machine.execLdxN d x s
  | .ldxI d x => Sys2Proof.Machine.execLdxI d x s
  | .stx data x => Sys2Proof.Machine.execStx data x s
  | .ldxSpN d x => Sys2Proof.Machine.execLdxSpN d x s
  | .ldxSpI d x => Sys2Proof.Machine.execLdxSpI d x s
  | .stxSp data x => Sys2Proof.Machine.execStxSp data x s
  | .ldu d m => Sys2Proof.Machine.execLdu d m s
  | .pref g base l2 off => Sys2Proof.Machine.execPref g base l2 off s
  | .lres d m => Sys2Proof.Machine.execLres d m s
  | .scond g d a b dbl order scope => Sys2Proof.Machine.execScond g d a b dbl order scope s
  | .atomAdd x => Sys2Proof.Machine.execAtomAdd x s
  | .atomMinI x => Sys2Proof.Machine.execAtomMinI x s
  | .atomMinN x => Sys2Proof.Machine.execAtomMinN x s
  | .atomMaxI x => Sys2Proof.Machine.execAtomMaxI x s
  | .atomMaxN x => Sys2Proof.Machine.execAtomMaxN x s
  | .atomAnd x => Sys2Proof.Machine.execAtomAnd x s
  | .atomOr x => Sys2Proof.Machine.execAtomOr x s
  | .atomXor x => Sys2Proof.Machine.execAtomXor x s
  | .atomXchg x => Sys2Proof.Machine.execAtomXchg x s
  | .atomCas x c => Sys2Proof.Machine.execAtomCas x c s
  | .atomIncwrap x => Sys2Proof.Machine.execAtomIncwrap x s
  | .atomSpAdd x => Sys2Proof.Machine.execAtomSpAdd x s
  | .atomSpMinI x => Sys2Proof.Machine.execAtomSpMinI x s
  | .atomSpMinN x => Sys2Proof.Machine.execAtomSpMinN x s
  | .atomSpMaxI x => Sys2Proof.Machine.execAtomSpMaxI x s
  | .atomSpMaxN x => Sys2Proof.Machine.execAtomSpMaxN x s
  | .atomSpAnd x => Sys2Proof.Machine.execAtomSpAnd x s
  | .atomSpOr x => Sys2Proof.Machine.execAtomSpOr x s
  | .atomSpXor x => Sys2Proof.Machine.execAtomSpXor x s
  | .atomSpXchg x => Sys2Proof.Machine.execAtomSpXchg x s
  | .atomSpCas x c => Sys2Proof.Machine.execAtomSpCas x c s
  | .atomSpIncwrap x => Sys2Proof.Machine.execAtomSpIncwrap x s
  | .fatomAdd x => Sys2Proof.Machine.execFatomAdd x s
  | .fatomMin x => Sys2Proof.Machine.execFatomMin x s
  | .fatomMax x => Sys2Proof.Machine.execFatomMax x s
  | .fatomAddOrd g a b dbl => Sys2Proof.Machine.execFatomAddOrd g a b dbl s
  | .fatomSpAdd x => Sys2Proof.Machine.execFatomSpAdd x s
  | .fatomSpMin x => Sys2Proof.Machine.execFatomSpMin x s
  | .fatomSpMax x => Sys2Proof.Machine.execFatomSpMax x s
  | .ordf m => Sys2Proof.Machine.execOrdf m s
  | .fence g order scope => Sys2Proof.Machine.execFence g order scope s
  | .waita g d a b c dbl cond signed sp => Sys2Proof.Machine.execWaita g d a b c dbl cond signed sp s
  | .xcfg g k r => Sys2Proof.Machine.execXcfg g k r s
  | .xmov g d a k => Sys2Proof.Machine.execXmov g d a k s
  | .lread g d a b c width => Sys2Proof.Machine.execLread g d a b c width s
  | .scan g d a seg rm sat ty op => Sys2Proof.Machine.execScan g d a seg rm sat ty op s
  | .redw g d a rm sat ty op => Sys2Proof.Machine.execRedw g d a rm sat ty op s
  | .barArrive g n => Sys2Proof.Machine.execBarArrive g n s
  | .barWait g n => Sys2Proof.Machine.execBarWait g n s
  | .barSync g n => Sys2Proof.Machine.execBarSync g n s
  | .barx g n a ded => Sys2Proof.Machine.execBarx g n a ded s
  | .jset g j => Sys2Proof.Machine.execJset g j s
  | .jsetUniform g j r => Sys2Proof.Machine.execJsetUniform g j r s
  | .join g j => Sys2Proof.Machine.execJoin g j s
  | .jarr g j => Sys2Proof.Machine.execJarr g j s
  | .jqry g d j sel => Sys2Proof.Machine.execJqry g d j sel s
  | .own g d a b => Sys2Proof.Machine.execOwn g d a b s
  | .ringget g q a b => Sys2Proof.Machine.execRingget g q a b s
  | .ringput g q a => Sys2Proof.Machine.execRingput g q a s
  | .mxmac g acc a b fmt str j => Sys2Proof.Machine.execMxmac g acc a b fmt str j s
  | .mxsmac g acc a b fmt str j resume => Sys2Proof.Machine.execMxsmac g acc a b fmt str j resume s
  | .mxzero g acc str j => Sys2Proof.Machine.execMxzero g acc str j s
  | .mxwait g d mask => Sys2Proof.Machine.execMxwait g d mask s
  | .mxtokGive g a => Sys2Proof.Machine.execMxtokGive g a s
  | .mxtokTake g => Sys2Proof.Machine.execMxtokTake g s
  | .vswAdd x => Sys2Proof.Machine.execVswAdd x s
  | .vswMul x => Sys2Proof.Machine.execVswMul x s
  | .vswFma x => Sys2Proof.Machine.execVswFma x s
  | .vswMax x => Sys2Proof.Machine.execVswMax x s
  | .vswMin x => Sys2Proof.Machine.execVswMin x s
  | .vswExp x => Sys2Proof.Machine.execVswExp x s
  | .vswCvt x => Sys2Proof.Machine.execVswCvt x s
  | .vswScl x => Sys2Proof.Machine.execVswScl x s
  | .vswRsum x => Sys2Proof.Machine.execVswRsum x s
  | .vswRmax x => Sys2Proof.Machine.execVswRmax x s
  | .vswait g => Sys2Proof.Machine.execVswait g s
  | .cpyIn x ws => Sys2Proof.Machine.execCpyIn x ws s
  | .cpyOut x => Sys2Proof.Machine.execCpyOut x s
  | .cpyRows x => Sys2Proof.Machine.execCpyRows x s
  | .cpyFill x => Sys2Proof.Machine.execCpyFill x s
  | .cpyWs x => Sys2Proof.Machine.execCpyWs x s
  | .tspawn g a => Sys2Proof.Machine.execTspawn g a s
  | .tjob g a => Sys2Proof.Machine.execTjob g a s
  | .tdone g => Sys2Proof.Machine.execTdone g s
  | .tilereg g d a b => Sys2Proof.Machine.execTilereg g d a b s
  | .tileq g d a => Sys2Proof.Machine.execTileq g d a s
  | .tiledrop g a b => Sys2Proof.Machine.execTiledrop g a b s
  | .grow g n => Sys2Proof.Machine.execGrow g n s
  | .shed g n => Sys2Proof.Machine.execShed g n s
  | .syscVersion x => Sys2Proof.Machine.execSyscVersion x s
  | .syscAlloc x => Sys2Proof.Machine.execSyscAlloc x s
  | .syscFree x => Sys2Proof.Machine.execSyscFree x s
  | .syscPrint x => Sys2Proof.Machine.execSyscPrint x s
  | .syscResolve x => Sys2Proof.Machine.execSyscResolve x s
  | .syscNotify x => Sys2Proof.Machine.execSyscNotify x s
  | .syscAbort x => Sys2Proof.Machine.execSyscAbort x s
  | .syscCapread x => Sys2Proof.Machine.execSyscCapread x s
  | .syscEscalate x => Sys2Proof.Machine.execSyscEscalate x s
  | .syscUnassigned n x => Sys2Proof.Machine.execSyscUnassigned n x s
  | .trd g d a b => Sys2Proof.Machine.execTrd g d a b s
  | .twr g a b c => Sys2Proof.Machine.execTwr g a b c s
  | .twrKill g a => Sys2Proof.Machine.execTwrKill g a s
  | .tret g => Sys2Proof.Machine.execTret g s
  | .bkpt g n => Sys2Proof.Machine.execBkpt g n s
  | .ldq g d base off => Sys2Proof.Machine.execLdq g d base off s
  | .dot4 g d a b c signed => Sys2Proof.Machine.execDot4 g d a b c signed s
  | .barw g n => Sys2Proof.Machine.execBarw g n s
  | .hostCoreAccess secure x => Sys2Proof.Machine.execHostCoreAccess secure x s
  | .pcieEndpointAccess x => Sys2Proof.Machine.execPcieEndpointAccess x s
  | .peerPackageAccess pkg x => Sys2Proof.Machine.execPeerPackageAccess pkg x s
  | .regionTableWrite entry w0 w1 => Sys2Proof.Machine.execRegionTableWrite entry w0 w1 s
  | .domainBringUp id members ports => Sys2Proof.Machine.execDomainBringUp id members ports s
  | .nop => Sys2Proof.Machine.execNop s
  | .yield => Sys2Proof.Machine.execYield s
  | .leafNext => Sys2Proof.Machine.execLeafNext s
  | .leafRet => Sys2Proof.Machine.execLeafRet s
  | .leafExit => Sys2Proof.Machine.execLeafExit s
  | .ifence => Sys2Proof.Machine.execIfence s
  | .clauseIssue => Sys2Proof.Machine.execClauseIssue s
  | .serialIssue => Sys2Proof.Machine.execSerialIssue s
  | .subcoreGrant => Sys2Proof.Machine.execSubcoreGrant s
  | .warpSwap => Sys2Proof.Machine.execWarpSwap s
  | .stallLimitExpiry => Sys2Proof.Machine.execStallLimitExpiry s
  | .holdLimitExpiry => Sys2Proof.Machine.execHoldLimitExpiry s
  | .loadCompletion => Sys2Proof.Machine.execLoadCompletion s
  | .storePerform => Sys2Proof.Machine.execStorePerform s
  | .atomicAtHome => Sys2Proof.Machine.execAtomicAtHome s
  | .orderedContributionArrival => Sys2Proof.Machine.execOrderedContributionArrival s
  | .ordfApplication => Sys2Proof.Machine.execOrdfApplication s
  | .commandAccept => Sys2Proof.Machine.execCommandAccept s
  | .commandComplete => Sys2Proof.Machine.execCommandComplete s
  | .waitaReread => Sys2Proof.Machine.execWaitaReread s
  | .waitaTimeout => Sys2Proof.Machine.execWaitaTimeout s
  | .growGrant => Sys2Proof.Machine.execGrowGrant s
  | .wsRefreshSlot => Sys2Proof.Machine.execWsRefreshSlot s
  | .launchRecordRead => Sys2Proof.Machine.execLaunchRecordRead s
  | .blockAdmission => Sys2Proof.Machine.execBlockAdmission s
  | .cooperativeAdmission => Sys2Proof.Machine.execCooperativeAdmission s
  | .gangStart => Sys2Proof.Machine.execGangStart s
  | .launchCompletion => Sys2Proof.Machine.execLaunchCompletion s
  | .seedbedDeal => Sys2Proof.Machine.execSeedbedDeal s
  | .softSave => Sys2Proof.Machine.execSoftSave s
  | .gracePeriodExpiry => Sys2Proof.Machine.execGracePeriodExpiry s
  | .blockImageWrite => Sys2Proof.Machine.execBlockImageWrite s
  | .restoreRetry => Sys2Proof.Machine.execRestoreRetry s
  | .handlerStart => Sys2Proof.Machine.execHandlerStart s
  | .correctedError => Sys2Proof.Machine.execCorrectedError s
  | .scrubCorrection => Sys2Proof.Machine.execScrubCorrection s
  | .uncorrectableError => Sys2Proof.Machine.execUncorrectableError s
  | .pcieTimeout => Sys2Proof.Machine.execPcieTimeout s
  | .peerUnreachable => Sys2Proof.Machine.execPeerUnreachable s
  | .l1LineEviction => Sys2Proof.Machine.execL1LineEviction s
  | .ctxDestroy => Sys2Proof.Machine.execCtxDestroy s
  | .dbgAttach => Sys2Proof.Machine.execDbgAttach s
  | .dbgDetach => Sys2Proof.Machine.execDbgDetach s
  | .peerApplicationRequest => Sys2Proof.Machine.execPeerApplicationRequest s

end Sys2Proof.Machine
end

