-- ==== Sys2Proof/Machine/Step.lean ====
section
/-! DEFINITION. One step: the next syllable of the issue in progress, its end, or the next event
(95_what_each_step_holds.md: each row of the table is one step; a clause's syllables are steps of its
issue). -/

namespace Sys2Proof.Machine

open Sys2Proof

def step (s : State) : Host.Outcome State Fault Refusal :=
  match s.fetchNext with
  | .run i s => exec i s
  | .bad b w s => .next (s.badSyllable b w)

/-- A warp of one live thread for `withFetchWord`. -/
def fetchWarp : Warp :=
  { ctx := 0, launch := 0, block := 0, num := 0, role := 0, kind := 0, pos := 0,
    threads := [(0, { Thread.absent with life := .live })], table := [⟨0, 1, 0⟩], serial := none, joins := [],
    xc := [], s := [], units := 0, grows := [], stq := [], trappc := 0, trapinfo := 0, freeze := none,
    double := none, edits := [], h := [], dbg := dbgNone, dbgNext := none, restored := false, readyAt := none, save := none,
    captured := [], capJoins := [], capS := [], capXc := [] }

/-- An issue of that warp that stands before its one operation syllable. -/
def fetchIssue (x : Word) (clock : Nat) : Issue :=
  { id := 0, warp := 0, addr := 0, header := 0x000FF00200000000, words := [x, 0], paths := [fetchWarp.path none 0],
    entry := fetchWarp.threads, entryJoins := [], entryS := [], entryXc := [], clock0 := clock, cost := 0,
    broke := 0, serial := false, judged := false }

/-- `s` with a clause in progress whose next syllable is the word: the machine loads its programs itself, so
this stands for everything that brings a clause to its first syllable (notes/assumptions/33.md). -/
def State.withFetchWord (s : State) (nbits w : Nat) : State :=
  { s with
    warps := s.warps.put 0 fetchWarp
    issue := some (fetchIssue (BitVec.ofNat 64 (w % 2 ^ nbits)) s.clock)
    parked := s.parked.del 0
    burst := 1 }

end Sys2Proof.Machine
end

