-- ==== Sys2Proof/Laws/Codec.lean ====
section
/-! SUPPORT. Reading back what the encoder wrote: the formats, the fields and the codes. -/

namespace Sys2Proof

/-! ### Fields of a syllable -/

/-- A field at or above the lower part's width lies in the upper part. -/
theorem fld_append_hi {n m : Nat} (x : BitVec n) (y : BitVec m) (lo len : Nat) (h : m ≤ lo) :
    fld (x ++ y) lo len = fld x (lo - m) len := by
  apply BitVec.eq_of_getLsbD_eq
  intro i hi
  simp only [fld, BitVec.getLsbD_extractLsb', BitVec.getLsbD_append, hi, decide_true, Bool.true_and]
  rw [if_neg (by omega)]
  congr 1
  omega

/-- A field below the lower part's width lies in the lower part. -/
theorem fld_append_lo {n m : Nat} (x : BitVec n) (y : BitVec m) (lo len : Nat) (h : lo + len ≤ m) :
    fld (x ++ y) lo len = fld y lo len := by
  apply BitVec.eq_of_getLsbD_eq
  intro i hi
  simp only [fld, BitVec.getLsbD_extractLsb', BitVec.getLsbD_append, hi, decide_true, Bool.true_and]
  rw [if_pos (by omega)]

/-- The whole of a vector. -/
theorem fld_self {n : Nat} (x : BitVec n) : fld x 0 n = x := by
  apply BitVec.eq_of_getLsbD_eq
  intro i hi
  simp [fld, hi]

theorem fld_w3 (op : BitVec 10) (x : F3) (lo len : Nat) :
    fld (w3 op x) lo len = fld (n := 10 + 5 + 10 + 10 + 10 + 10 + 8 + 1) (op ++ x.g ++ x.d ++ x.a ++ x.b ++ x.c ++ x.m ++ x.nf) lo len := rfl

@[simp] theorem f3_w3 (op : BitVec 10) (x : F3) : f3 (w3 op x) = x := by
  have h0 : fld (w3 op x) 49 5 = x.g := by rw [fld_w3, fld_append_hi _ _ _ _ (by omega), fld_append_hi _ _ _ _ (by omega), fld_append_hi _ _ _ _ (by omega), fld_append_hi _ _ _ _ (by omega), fld_append_hi _ _ _ _ (by omega), fld_append_hi _ _ _ _ (by omega), fld_append_lo _ _ _ _ (by omega), fld_self]
  have h1 : fld (w3 op x) 39 10 = x.d := by rw [fld_w3, fld_append_hi _ _ _ _ (by omega), fld_append_hi _ _ _ _ (by omega), fld_append_hi _ _ _ _ (by omega), fld_append_hi _ _ _ _ (by omega), fld_append_hi _ _ _ _ (by omega), fld_append_lo _ _ _ _ (by omega), fld_self]
  have h2 : fld (w3 op x) 29 10 = x.a := by rw [fld_w3, fld_append_hi _ _ _ _ (by omega), fld_append_hi _ _ _ _ (by omega), fld_append_hi _ _ _ _ (by omega), fld_append_hi _ _ _ _ (by omega), fld_append_lo _ _ _ _ (by omega), fld_self]
  have h3 : fld (w3 op x) 19 10 = x.b := by rw [fld_w3, fld_append_hi _ _ _ _ (by omega), fld_append_hi _ _ _ _ (by omega), fld_append_hi _ _ _ _ (by omega), fld_append_lo _ _ _ _ (by omega), fld_self]
  have h4 : fld (w3 op x) 9 10 = x.c := by rw [fld_w3, fld_append_hi _ _ _ _ (by omega), fld_append_hi _ _ _ _ (by omega), fld_append_lo _ _ _ _ (by omega), fld_self]
  have h5 : fld (w3 op x) 1 8 = x.m := by rw [fld_w3, fld_append_hi _ _ _ _ (by omega), fld_append_lo _ _ _ _ (by omega), fld_self]
  have h6 : fld (w3 op x) 0 1 = x.nf := by rw [fld_w3, fld_append_lo _ _ _ _ (by omega), fld_self]
  simp only [f3, h0, h1, h2, h3, h4, h5, h6]

@[simp] theorem opcode_w3 (op : BitVec 10) (x : F3) : opcode (w3 op x) = op := by
  rw [opcode, fld_w3, fld_append_hi _ _ _ _ (by omega), fld_append_hi _ _ _ _ (by omega), fld_append_hi _ _ _ _ (by omega), fld_append_hi _ _ _ _ (by omega), fld_append_hi _ _ _ _ (by omega), fld_append_hi _ _ _ _ (by omega), fld_append_hi _ _ _ _ (by omega), fld_self]

theorem fld_wI (op : BitVec 10) (x : FI) (lo len : Nat) :
    fld (wImm op x) lo len = fld (n := 10 + 5 + 10 + 10 + 29) (op ++ x.g ++ x.d ++ x.a ++ x.imm) lo len := rfl

@[simp] theorem fI_wI (op : BitVec 10) (x : FI) : fI (wImm op x) = x := by
  have h0 : fld (wImm op x) 49 5 = x.g := by rw [fld_wI, fld_append_hi _ _ _ _ (by omega), fld_append_hi _ _ _ _ (by omega), fld_append_hi _ _ _ _ (by omega), fld_append_lo _ _ _ _ (by omega), fld_self]
  have h1 : fld (wImm op x) 39 10 = x.d := by rw [fld_wI, fld_append_hi _ _ _ _ (by omega), fld_append_hi _ _ _ _ (by omega), fld_append_lo _ _ _ _ (by omega), fld_self]
  have h2 : fld (wImm op x) 29 10 = x.a := by rw [fld_wI, fld_append_hi _ _ _ _ (by omega), fld_append_lo _ _ _ _ (by omega), fld_self]
  have h3 : fld (wImm op x) 0 29 = x.imm := by rw [fld_wI, fld_append_lo _ _ _ _ (by omega), fld_self]
  simp only [fI, h0, h1, h2, h3]

@[simp] theorem opcode_wI (op : BitVec 10) (x : FI) : opcode (wImm op x) = op := by
  rw [opcode, fld_wI, fld_append_hi _ _ _ _ (by omega), fld_append_hi _ _ _ _ (by omega), fld_append_hi _ _ _ _ (by omega), fld_append_hi _ _ _ _ (by omega), fld_self]

theorem fld_wW (op : BitVec 10) (x : FW) (lo len : Nat) :
    fld (wW op x) lo len = fld (n := 10 + 5 + 10 + 7 + 32) (op ++ x.g ++ x.d ++ x.pad ++ x.imm) lo len := rfl

@[simp] theorem fW_wW (op : BitVec 10) (x : FW) : fW (wW op x) = x := by
  have h0 : fld (wW op x) 49 5 = x.g := by rw [fld_wW, fld_append_hi _ _ _ _ (by omega), fld_append_hi _ _ _ _ (by omega), fld_append_hi _ _ _ _ (by omega), fld_append_lo _ _ _ _ (by omega), fld_self]
  have h1 : fld (wW op x) 39 10 = x.d := by rw [fld_wW, fld_append_hi _ _ _ _ (by omega), fld_append_hi _ _ _ _ (by omega), fld_append_lo _ _ _ _ (by omega), fld_self]
  have h2 : fld (wW op x) 32 7 = x.pad := by rw [fld_wW, fld_append_hi _ _ _ _ (by omega), fld_append_lo _ _ _ _ (by omega), fld_self]
  have h3 : fld (wW op x) 0 32 = x.imm := by rw [fld_wW, fld_append_lo _ _ _ _ (by omega), fld_self]
  simp only [fW, h0, h1, h2, h3]

@[simp] theorem opcode_wW (op : BitVec 10) (x : FW) : opcode (wW op x) = op := by
  rw [opcode, fld_wW, fld_append_hi _ _ _ _ (by omega), fld_append_hi _ _ _ _ (by omega), fld_append_hi _ _ _ _ (by omega), fld_append_hi _ _ _ _ (by omega), fld_self]

theorem fld_wM (op : BitVec 10) (x : FM) (lo len : Nat) :
    fld (wM op x) lo len = fld (n := 10 + 5 + 10 + 10 + 2 + 2 + 3 + 22) (op ++ x.g ++ x.d ++ x.base ++ x.size ++ x.order ++ x.scope ++ x.off) lo len := rfl

@[simp] theorem fM_wM (op : BitVec 10) (x : FM) : fM (wM op x) = x := by
  have h0 : fld (wM op x) 49 5 = x.g := by rw [fld_wM, fld_append_hi _ _ _ _ (by omega), fld_append_hi _ _ _ _ (by omega), fld_append_hi _ _ _ _ (by omega), fld_append_hi _ _ _ _ (by omega), fld_append_hi _ _ _ _ (by omega), fld_append_hi _ _ _ _ (by omega), fld_append_lo _ _ _ _ (by omega), fld_self]
  have h1 : fld (wM op x) 39 10 = x.d := by rw [fld_wM, fld_append_hi _ _ _ _ (by omega), fld_append_hi _ _ _ _ (by omega), fld_append_hi _ _ _ _ (by omega), fld_append_hi _ _ _ _ (by omega), fld_append_hi _ _ _ _ (by omega), fld_append_lo _ _ _ _ (by omega), fld_self]
  have h2 : fld (wM op x) 29 10 = x.base := by rw [fld_wM, fld_append_hi _ _ _ _ (by omega), fld_append_hi _ _ _ _ (by omega), fld_append_hi _ _ _ _ (by omega), fld_append_hi _ _ _ _ (by omega), fld_append_lo _ _ _ _ (by omega), fld_self]
  have h3 : fld (wM op x) 27 2 = x.size := by rw [fld_wM, fld_append_hi _ _ _ _ (by omega), fld_append_hi _ _ _ _ (by omega), fld_append_hi _ _ _ _ (by omega), fld_append_lo _ _ _ _ (by omega), fld_self]
  have h4 : fld (wM op x) 25 2 = x.order := by rw [fld_wM, fld_append_hi _ _ _ _ (by omega), fld_append_hi _ _ _ _ (by omega), fld_append_lo _ _ _ _ (by omega), fld_self]
  have h5 : fld (wM op x) 22 3 = x.scope := by rw [fld_wM, fld_append_hi _ _ _ _ (by omega), fld_append_lo _ _ _ _ (by omega), fld_self]
  have h6 : fld (wM op x) 0 22 = x.off := by rw [fld_wM, fld_append_lo _ _ _ _ (by omega), fld_self]
  simp only [fM, h0, h1, h2, h3, h4, h5, h6]

@[simp] theorem opcode_wM (op : BitVec 10) (x : FM) : opcode (wM op x) = op := by
  rw [opcode, fld_wM, fld_append_hi _ _ _ _ (by omega), fld_append_hi _ _ _ _ (by omega), fld_append_hi _ _ _ _ (by omega), fld_append_hi _ _ _ _ (by omega), fld_append_hi _ _ _ _ (by omega), fld_append_hi _ _ _ _ (by omega), fld_append_hi _ _ _ _ (by omega), fld_self]

theorem fld_wT (op : BitVec 10) (x : FT) (lo len : Nat) :
    fld (wT op x) lo len = fld (n := 10 + 4 + 10 + 10 + 6 + 24) (op ++ x.cond ++ x.a ++ x.b ++ x.ty ++ x.imm) lo len := rfl

@[simp] theorem fT_wT (op : BitVec 10) (x : FT) : fT (wT op x) = x := by
  have h0 : fld (wT op x) 50 4 = x.cond := by rw [fld_wT, fld_append_hi _ _ _ _ (by omega), fld_append_hi _ _ _ _ (by omega), fld_append_hi _ _ _ _ (by omega), fld_append_hi _ _ _ _ (by omega), fld_append_lo _ _ _ _ (by omega), fld_self]
  have h1 : fld (wT op x) 40 10 = x.a := by rw [fld_wT, fld_append_hi _ _ _ _ (by omega), fld_append_hi _ _ _ _ (by omega), fld_append_hi _ _ _ _ (by omega), fld_append_lo _ _ _ _ (by omega), fld_self]
  have h2 : fld (wT op x) 30 10 = x.b := by rw [fld_wT, fld_append_hi _ _ _ _ (by omega), fld_append_hi _ _ _ _ (by omega), fld_append_lo _ _ _ _ (by omega), fld_self]
  have h3 : fld (wT op x) 24 6 = x.ty := by rw [fld_wT, fld_append_hi _ _ _ _ (by omega), fld_append_lo _ _ _ _ (by omega), fld_self]
  have h4 : fld (wT op x) 0 24 = x.imm := by rw [fld_wT, fld_append_lo _ _ _ _ (by omega), fld_self]
  simp only [fT, h0, h1, h2, h3, h4]

@[simp] theorem opcode_wT (op : BitVec 10) (x : FT) : opcode (wT op x) = op := by
  rw [opcode, fld_wT, fld_append_hi _ _ _ _ (by omega), fld_append_hi _ _ _ _ (by omega), fld_append_hi _ _ _ _ (by omega), fld_append_hi _ _ _ _ (by omega), fld_append_hi _ _ _ _ (by omega), fld_self]

theorem fld_wL (x : FL) (lo len : Nat) :
    fld (wL x) lo len = fld (n := 4 + 10 + 32 + 12 + 6) (x.kind ++ x.reg ++ x.off ++ x.code ++ x.low) lo len := rfl

@[simp] theorem fL_wL (x : FL) : fL (wL x) = x := by
  have h0 : fld (wL x) 60 4 = x.kind := by rw [fld_wL, fld_append_hi _ _ _ _ (by omega), fld_append_hi _ _ _ _ (by omega), fld_append_hi _ _ _ _ (by omega), fld_append_hi _ _ _ _ (by omega), fld_self]
  have h1 : fld (wL x) 50 10 = x.reg := by rw [fld_wL, fld_append_hi _ _ _ _ (by omega), fld_append_hi _ _ _ _ (by omega), fld_append_hi _ _ _ _ (by omega), fld_append_lo _ _ _ _ (by omega), fld_self]
  have h2 : fld (wL x) 18 32 = x.off := by rw [fld_wL, fld_append_hi _ _ _ _ (by omega), fld_append_hi _ _ _ _ (by omega), fld_append_lo _ _ _ _ (by omega), fld_self]
  have h3 : fld (wL x) 6 12 = x.code := by rw [fld_wL, fld_append_hi _ _ _ _ (by omega), fld_append_lo _ _ _ _ (by omega), fld_self]
  have h4 : fld (wL x) 0 6 = x.low := by rw [fld_wL, fld_append_lo _ _ _ _ (by omega), fld_self]
  simp only [fL, h0, h1, h2, h3, h4]

/-! ### Codes -/

@[simp] theorem rdG_enc (g : Guard) : rdG g.enc = .ok g := by
  cases g with
  | always => rfl
  | on d => revert d; decide
  | off d => revert d; decide

theorem special_code (x : Special) : x.code < 0x80 ∧ Special.ofCode x.code = some x := by
  cases x with
  | h n => revert n; decide
  | _ => decide

theorem toNat_sEnc (r : BitVec 9) : (Operand.s r).enc.toNat = 0x100 + r.toNat := by
  have := r.isLt
  simp [Operand.enc]
  omega

theorem toNat_spEnc (x : Special) : (Operand.sp x).enc.toNat = 0x300 + x.code := by
  have := (special_code x).1
  simp [Operand.enc]
  omega

@[simp] theorem dec_enc (o : Operand) : Operand.dec o.enc = some o := by
  cases o with
  | v r => revert r; decide
  | s r =>
    have := r.isLt
    have h : ¬ (256 + r.toNat < 256) := by omega
    simp [Operand.dec, toNat_sEnc, h]
    omega
  | sp x =>
    have h := special_code x
    have h1 : ¬ (768 + x.code < 256) := by omega
    have h2 : ¬ (768 + x.code < 768) := by omega
    have h3 : 768 + x.code < 896 := by omega
    simp [Operand.dec, toNat_spEnc, h1, h2, h3, h.2]
  | int n => revert n; decide
  | fp k => revert k; decide

@[simp] theorem rdO_enc (o : Operand) : rdO o.enc = .ok o := by simp [rdO, need]

@[simp] theorem rdV_encV (r : BitVec 8) : rdV (encV r) = .ok r := by
  simp [rdV, encV]
  rfl

@[simp] theorem rdS_encS (r : BitVec 9) : rdS (encS r) = .ok r := by
  simp [rdS, encS]
  rfl

@[simp] theorem rdV_enc (r : BitVec 8) : rdV (Operand.v r).enc = .ok r := rdV_encV r

@[simp] theorem zero_zero {n : Nat} : zero 0#n = .ok () := by simp [zero]

@[simp] theorem ok_bind {α β : Type} (x : α) (f : α → Dec β) : ((Except.ok x : Dec α) >>= f) = f x := rfl

@[simp] theorem need_some {α : Type} (x : α) : need (some x) = .ok x := rfl

@[simp] theorem check_true : check true = .ok () := rfl

@[simp] theorem rdO_zero : rdO 0#10 = .ok (.v 0#8) := by decide

@[simp] theorem rdIntM_enc (ty : DTy) (sat : Bool) : rdIntM (encIntM ty sat) = .ok (ty, sat) := by
  cases ty with
  | i t => cases t <;> cases sat <;> rfl
  | f t => cases t <;> cases sat <;> rfl

@[simp] theorem rdM_encM (m : BitVec 4) (h : m.toNat ≤ 9) : rdM (encM m) = .ok m := by
  revert m; decide

@[simp] theorem win_le (dbl : Bool) (m : BitVec 4) (h : winOk dbl m = true) : rdM (encM m) = .ok m := by
  revert dbl m; decide

/-! ### Fields of numbers -/

theorem fld_toNat {n : Nat} (x : BitVec n) (lo len : Nat) : (fld x lo len).toNat = x.toNat / 2 ^ lo % 2 ^ len := by
  simp [fld, BitVec.extractLsb'_toNat, Nat.shiftRight_eq_div_pow]

theorem fld_ofNat (n x lo len y : Nat) (h : x < 2 ^ n) (hy : x / 2 ^ lo % 2 ^ len = y % 2 ^ len) :
    fld (BitVec.ofNat n x) lo len = BitVec.ofNat len y := by
  apply BitVec.eq_of_toNat_eq
  rw [fld_toNat, BitVec.toNat_ofNat, Nat.mod_eq_of_lt h, hy, BitVec.toNat_ofNat]

theorem bit_le (b : Bool) : bit b ≤ 1 := by cases b <;> decide

@[simp] theorem bit_eq (b : Bool) : (BitVec.ofNat 1 (bit b) = 1#1) ↔ b = true := by cases b <;> decide

@[simp] theorem bit_false : bit false = 0 := rfl

@[simp] theorem bit_true : bit true = 1 := rfl

@[simp] theorem rm_code (x : Rm) : Rm.ofCode (x.code % 8) = some x := by cases x <;> rfl

@[simp] theorem rm_lt (x : Rm) : x.code < 5 := by cases x <;> decide

@[simp] theorem rm_lt8 (x : Rm) : x.code < 8 := by cases x <;> decide

@[simp] theorem cond_code (x : Cond) : Cond.ofCode (x.code % 16) = some x := by cases x <;> rfl

@[simp] theorem wcond_code (x : WCond) : WCond.ofCode (x.code % 8) = some x := by cases x <;> rfl

theorem wcond_lt (x : WCond) : x.code < 6 := by cases x <;> decide

@[simp] theorem size_code (x : Size) : Size.ofCode (x.code % 4) = x := by cases x <;> rfl

@[simp] theorem order_code (x : Order) : Order.ofCode (x.code % 4) = x := by cases x <;> rfl

theorem order_lt (x : Order) : x.code < 4 := by cases x <;> decide

@[simp] theorem scope_code (x : Scope) : Scope.ofCode (x.code % 8) = some x := by cases x <;> rfl

theorem scope_lt (x : Scope) : x.code < 6 := by cases x <;> decide

@[simp] theorem scanOp_code (x : ScanOp) : ScanOp.ofCode (x.code % 8) = some x := by
  cases x <;> rfl

theorem scanOp_lt (x : ScanOp) : x.code < 6 := by cases x <;> decide

@[simp] theorem dty_code5 (x : DTy) : DTy.ofCode (x.code % 32) = some x := by
  cases x with
  | i t => cases t <;> rfl
  | f t => cases t <;> rfl

@[simp] theorem dty_code6 (x : DTy) : DTy.ofCode (x.code % 64) = some x := by
  cases x with
  | i t => cases t <;> rfl
  | f t => cases t <;> rfl

@[simp] theorem ity_code6 (t : ITy) : DTy.ofCode (t.idx % 64) = some (.i t) := by cases t <;> rfl

theorem dty_lt (x : DTy) : x.code < 24 := by
  cases x with
  | i t => cases t <;> decide
  | f t => cases t <;> decide

@[simp] theorem fty_idx3 (t : FTy) : FTy.ofIdx (t.idx % 8) = some t := by cases t <;> rfl

@[simp] theorem fty_idx4 (t : FTy) : FTy.ofIdx (t.idx % 16) = some t := by cases t <;> rfl

@[simp] theorem ity_idx4 (t : ITy) : ITy.ofIdx (t.idx % 16) = some t := by cases t <;> rfl

@[simp] theorem fty_lt16 (t : FTy) : t.idx < 16 := by cases t <;> decide

@[simp] theorem ity_lt16 (t : ITy) : t.idx < 16 := by cases t <;> decide

theorem fty_lt (t : FTy) : t.idx < 8 := by cases t <;> decide

theorem ity_lt (t : ITy) : t.idx < 11 := by cases t <;> decide

/-! ### The modifier bytes -/

@[simp] theorem flt_0_1 (top : Nat) (a b : FSrc) (c : Bool) (h : top < 8) : fld (encFltM top a b c) 0 1 = BitVec.ofNat 1 (bit c) := by
  have := bit_le a.neg
  have := bit_le a.abs
  have := bit_le b.neg
  have := bit_le b.abs
  have := bit_le c
  exact fld_ofNat _ _ _ _ _ (by omega) (by omega)

@[simp] theorem flt_1_1 (top : Nat) (a b : FSrc) (c : Bool) (h : top < 8) : fld (encFltM top a b c) 1 1 = BitVec.ofNat 1 (bit b.abs) := by
  have := bit_le a.neg
  have := bit_le a.abs
  have := bit_le b.neg
  have := bit_le b.abs
  have := bit_le c
  exact fld_ofNat _ _ _ _ _ (by omega) (by omega)

@[simp] theorem flt_2_1 (top : Nat) (a b : FSrc) (c : Bool) (h : top < 8) : fld (encFltM top a b c) 2 1 = BitVec.ofNat 1 (bit b.neg) := by
  have := bit_le a.neg
  have := bit_le a.abs
  have := bit_le b.neg
  have := bit_le b.abs
  have := bit_le c
  exact fld_ofNat _ _ _ _ _ (by omega) (by omega)

@[simp] theorem flt_3_1 (top : Nat) (a b : FSrc) (c : Bool) (h : top < 8) : fld (encFltM top a b c) 3 1 = BitVec.ofNat 1 (bit a.abs) := by
  have := bit_le a.neg
  have := bit_le a.abs
  have := bit_le b.neg
  have := bit_le b.abs
  have := bit_le c
  exact fld_ofNat _ _ _ _ _ (by omega) (by omega)

@[simp] theorem flt_4_1 (top : Nat) (a b : FSrc) (c : Bool) (h : top < 8) : fld (encFltM top a b c) 4 1 = BitVec.ofNat 1 (bit a.neg) := by
  have := bit_le a.neg
  have := bit_le a.abs
  have := bit_le b.neg
  have := bit_le b.abs
  have := bit_le c
  exact fld_ofNat _ _ _ _ _ (by omega) (by omega)

@[simp] theorem flt_5_3 (top : Nat) (a b : FSrc) (c : Bool) (h : top < 8) : fld (encFltM top a b c) 5 3 = BitVec.ofNat 3 (top) := by
  have := bit_le a.neg
  have := bit_le a.abs
  have := bit_le b.neg
  have := bit_le b.abs
  have := bit_le c
  exact fld_ofNat _ _ _ _ _ (by omega) (by omega)

@[simp] theorem flt_5_1 (top : Nat) (a b : FSrc) (c : Bool) (h : top < 8) : fld (encFltM top a b c) 5 1 = BitVec.ofNat 1 (top % 2) := by
  have := bit_le a.neg
  have := bit_le a.abs
  have := bit_le b.neg
  have := bit_le b.abs
  have := bit_le c
  exact fld_ofNat _ _ _ _ _ (by omega) (by omega)

@[simp] theorem flt_6_1 (top : Nat) (a b : FSrc) (c : Bool) (h : top < 8) : fld (encFltM top a b c) 6 1 = BitVec.ofNat 1 (top / 2 % 2) := by
  have := bit_le a.neg
  have := bit_le a.abs
  have := bit_le b.neg
  have := bit_le b.abs
  have := bit_le c
  exact fld_ofNat _ _ _ _ _ (by omega) (by omega)

@[simp] theorem flt_7_1 (top : Nat) (a b : FSrc) (c : Bool) (h : top < 8) : fld (encFltM top a b c) 7 1 = BitVec.ofNat 1 (top / 4) := by
  have := bit_le a.neg
  have := bit_le a.abs
  have := bit_le b.neg
  have := bit_le b.abs
  have := bit_le c
  exact fld_ofNat _ _ _ _ _ (by omega) (by omega)

@[simp] theorem flt_0_3 (top : Nat) (a b : FSrc) (c : Bool) (h : top < 8) : fld (encFltM top a b c) 0 3 = BitVec.ofNat 3 (4 * bit b.neg + 2 * bit b.abs + bit c) := by
  have := bit_le a.neg
  have := bit_le a.abs
  have := bit_le b.neg
  have := bit_le b.abs
  have := bit_le c
  exact fld_ofNat _ _ _ _ _ (by omega) (by omega)

@[simp] theorem cvt_0_1 (src : Nat) (rm : Rm) (sat : Bool) (h : src < 16) : fld (encCvtM src rm sat) 0 1 = BitVec.ofNat 1 (bit sat) := by
  have := bit_le sat
  have := rm_lt rm
  exact fld_ofNat _ _ _ _ _ (by omega) (by omega)

@[simp] theorem cvt_1_3 (src : Nat) (rm : Rm) (sat : Bool) (h : src < 16) : fld (encCvtM src rm sat) 1 3 = BitVec.ofNat 3 (rm.code) := by
  have := bit_le sat
  have := rm_lt rm
  exact fld_ofNat _ _ _ _ _ (by omega) (by omega)

@[simp] theorem cvt_4_4 (src : Nat) (rm : Rm) (sat : Bool) (h : src < 16) : fld (encCvtM src rm sat) 4 4 = BitVec.ofNat 4 (src) := by
  have := bit_le sat
  have := rm_lt rm
  exact fld_ofNat _ _ _ _ _ (by omega) (by omega)

@[simp] theorem fn_0_1 (ty : FTy) (fast : Bool) (rm : Rm) : fld (encFnM ty fast rm) 0 1 = BitVec.ofNat 1 (0) := by
  have := bit_le fast
  have := rm_lt rm
  have := fty_lt ty
  exact fld_ofNat _ _ _ _ _ (by omega) (by omega)

@[simp] theorem fn_1_3 (ty : FTy) (fast : Bool) (rm : Rm) : fld (encFnM ty fast rm) 1 3 = BitVec.ofNat 3 (rm.code) := by
  have := bit_le fast
  have := rm_lt rm
  have := fty_lt ty
  exact fld_ofNat _ _ _ _ _ (by omega) (by omega)

@[simp] theorem fn_4_1 (ty : FTy) (fast : Bool) (rm : Rm) : fld (encFnM ty fast rm) 4 1 = BitVec.ofNat 1 (bit fast) := by
  have := bit_le fast
  have := rm_lt rm
  have := fty_lt ty
  exact fld_ofNat _ _ _ _ _ (by omega) (by omega)

@[simp] theorem fn_5_3 (ty : FTy) (fast : Bool) (rm : Rm) : fld (encFnM ty fast rm) 5 3 = BitVec.ofNat 3 (ty.idx) := by
  have := bit_le fast
  have := rm_lt rm
  have := fty_lt ty
  exact fld_ofNat _ _ _ _ _ (by omega) (by omega)

@[simp] theorem shape_0_1 (sh : Shape) (v : Bool) : fld (encShape sh v) 0 1 = BitVec.ofNat 1 (bit v) := by
  have := bit_le v
  have := bit_le sh.dbl
  have := sh.rows.isLt
  have := sh.cols.isLt
  exact fld_ofNat _ _ _ _ _ (by omega) (by omega)

@[simp] theorem shape_1_3 (sh : Shape) (v : Bool) : fld (encShape sh v) 1 3 = BitVec.ofNat 3 (sh.cols.toNat) := by
  have := bit_le v
  have := bit_le sh.dbl
  have := sh.rows.isLt
  have := sh.cols.isLt
  exact fld_ofNat _ _ _ _ _ (by omega) (by omega)

@[simp] theorem shape_4_3 (sh : Shape) (v : Bool) : fld (encShape sh v) 4 3 = BitVec.ofNat 3 (sh.rows.toNat) := by
  have := bit_le v
  have := bit_le sh.dbl
  have := sh.rows.isLt
  have := sh.cols.isLt
  exact fld_ofNat _ _ _ _ _ (by omega) (by omega)

@[simp] theorem shape_7_1 (sh : Shape) (v : Bool) : fld (encShape sh v) 7 1 = BitVec.ofNat 1 (bit sh.dbl) := by
  have := bit_le v
  have := bit_le sh.dbl
  have := sh.rows.isLt
  have := sh.cols.isLt
  exact fld_ofNat _ _ _ _ _ (by omega) (by omega)

@[simp] theorem atomM_0_1 (dbl : Bool) (o : Order) (sc : Scope) (nr : Bool) : fld (encAtomM dbl o sc nr) 0 1 = BitVec.ofNat 1 (bit nr) := by
  have := bit_le dbl
  have := bit_le nr
  have := order_lt o
  have := scope_lt sc
  exact fld_ofNat _ _ _ _ _ (by omega) (by omega)

@[simp] theorem atomM_1_3 (dbl : Bool) (o : Order) (sc : Scope) (nr : Bool) : fld (encAtomM dbl o sc nr) 1 3 = BitVec.ofNat 3 (sc.code) := by
  have := bit_le dbl
  have := bit_le nr
  have := order_lt o
  have := scope_lt sc
  exact fld_ofNat _ _ _ _ _ (by omega) (by omega)

@[simp] theorem atomM_4_2 (dbl : Bool) (o : Order) (sc : Scope) (nr : Bool) : fld (encAtomM dbl o sc nr) 4 2 = BitVec.ofNat 2 (o.code) := by
  have := bit_le dbl
  have := bit_le nr
  have := order_lt o
  have := scope_lt sc
  exact fld_ofNat _ _ _ _ _ (by omega) (by omega)

@[simp] theorem atomM_6_2 (dbl : Bool) (o : Order) (sc : Scope) (nr : Bool) : fld (encAtomM dbl o sc nr) 6 2 = BitVec.ofNat 2 (2 + bit dbl) := by
  have := bit_le dbl
  have := bit_le nr
  have := order_lt o
  have := scope_lt sc
  exact fld_ofNat _ _ _ _ _ (by omega) (by omega)

@[simp] theorem scanM_0_1 (seg : Bool) (d : BitVec 3) (rm : Rm) (sat : Bool) (ty : DTy) (op : ScanOp) : fld (encScan seg d rm sat ty op) 0 1 = BitVec.ofNat 1 (0) := by
  have := bit_le seg
  have := bit_le sat
  have := d.isLt
  have := rm_lt rm
  have := dty_lt ty
  have := scanOp_lt op
  exact fld_ofNat _ _ _ _ _ (by omega) (by omega)

@[simp] theorem scanM_1_3 (seg : Bool) (d : BitVec 3) (rm : Rm) (sat : Bool) (ty : DTy) (op : ScanOp) : fld (encScan seg d rm sat ty op) 1 3 = BitVec.ofNat 3 (op.code) := by
  have := bit_le seg
  have := bit_le sat
  have := d.isLt
  have := rm_lt rm
  have := dty_lt ty
  have := scanOp_lt op
  exact fld_ofNat _ _ _ _ _ (by omega) (by omega)

@[simp] theorem scanM_4_5 (seg : Bool) (d : BitVec 3) (rm : Rm) (sat : Bool) (ty : DTy) (op : ScanOp) : fld (encScan seg d rm sat ty op) 4 5 = BitVec.ofNat 5 (ty.code) := by
  have := bit_le seg
  have := bit_le sat
  have := d.isLt
  have := rm_lt rm
  have := dty_lt ty
  have := scanOp_lt op
  exact fld_ofNat _ _ _ _ _ (by omega) (by omega)

@[simp] theorem scanM_9_6 (seg : Bool) (d : BitVec 3) (rm : Rm) (sat : Bool) (ty : DTy) (op : ScanOp) : fld (encScan seg d rm sat ty op) 9 6 = BitVec.ofNat 6 (0) := by
  have := bit_le seg
  have := bit_le sat
  have := d.isLt
  have := rm_lt rm
  have := dty_lt ty
  have := scanOp_lt op
  exact fld_ofNat _ _ _ _ _ (by omega) (by omega)

@[simp] theorem scanM_15_1 (seg : Bool) (d : BitVec 3) (rm : Rm) (sat : Bool) (ty : DTy) (op : ScanOp) : fld (encScan seg d rm sat ty op) 15 1 = BitVec.ofNat 1 (bit sat) := by
  have := bit_le seg
  have := bit_le sat
  have := d.isLt
  have := rm_lt rm
  have := dty_lt ty
  have := scanOp_lt op
  exact fld_ofNat _ _ _ _ _ (by omega) (by omega)

@[simp] theorem scanM_16_3 (seg : Bool) (d : BitVec 3) (rm : Rm) (sat : Bool) (ty : DTy) (op : ScanOp) : fld (encScan seg d rm sat ty op) 16 3 = BitVec.ofNat 3 (rm.code) := by
  have := bit_le seg
  have := bit_le sat
  have := d.isLt
  have := rm_lt rm
  have := dty_lt ty
  have := scanOp_lt op
  exact fld_ofNat _ _ _ _ _ (by omega) (by omega)

@[simp] theorem scanM_19_6 (seg : Bool) (d : BitVec 3) (rm : Rm) (sat : Bool) (ty : DTy) (op : ScanOp) : fld (encScan seg d rm sat ty op) 19 6 = BitVec.ofNat 6 (0) := by
  have := bit_le seg
  have := bit_le sat
  have := d.isLt
  have := rm_lt rm
  have := dty_lt ty
  have := scanOp_lt op
  exact fld_ofNat _ _ _ _ _ (by omega) (by omega)

@[simp] theorem scanM_25_3 (seg : Bool) (d : BitVec 3) (rm : Rm) (sat : Bool) (ty : DTy) (op : ScanOp) : fld (encScan seg d rm sat ty op) 25 3 = BitVec.ofNat 3 (d.toNat) := by
  have := bit_le seg
  have := bit_le sat
  have := d.isLt
  have := rm_lt rm
  have := dty_lt ty
  have := scanOp_lt op
  exact fld_ofNat _ _ _ _ _ (by omega) (by omega)

@[simp] theorem scanM_28_1 (seg : Bool) (d : BitVec 3) (rm : Rm) (sat : Bool) (ty : DTy) (op : ScanOp) : fld (encScan seg d rm sat ty op) 28 1 = BitVec.ofNat 1 (bit seg) := by
  have := bit_le seg
  have := bit_le sat
  have := d.isLt
  have := rm_lt rm
  have := dty_lt ty
  have := scanOp_lt op
  exact fld_ofNat _ _ _ _ _ (by omega) (by omega)

@[simp] theorem sweepM_0_7 (sat : Bool) : fld (BitVec.ofNat 8 (128 * bit sat)) 0 7 = BitVec.ofNat 7 (0) := by
  have := bit_le sat
  exact fld_ofNat _ _ _ _ _ (by omega) (by omega)

@[simp] theorem sweepM_7_1 (sat : Bool) : fld (BitVec.ofNat 8 (128 * bit sat)) 7 1 = BitVec.ofNat 1 (bit sat) := by
  have := bit_le sat
  exact fld_ofNat _ _ _ _ _ (by omega) (by omega)

@[simp] theorem copyM_0_4 (ws : Bool) (sc : Scope) : fld (BitVec.ofNat 8 (128 * bit ws + 16 * sc.code)) 0 4 = BitVec.ofNat 4 (0) := by
  have := bit_le ws
  have := scope_lt sc
  exact fld_ofNat _ _ _ _ _ (by omega) (by omega)

@[simp] theorem copyM_4_3 (ws : Bool) (sc : Scope) : fld (BitVec.ofNat 8 (128 * bit ws + 16 * sc.code)) 4 3 = BitVec.ofNat 3 (sc.code) := by
  have := bit_le ws
  have := scope_lt sc
  exact fld_ofNat _ _ _ _ _ (by omega) (by omega)

@[simp] theorem copyM_7_1 (ws : Bool) (sc : Scope) : fld (BitVec.ofNat 8 (128 * bit ws + 16 * sc.code)) 7 1 = BitVec.ofNat 1 (bit ws) := by
  have := bit_le ws
  have := scope_lt sc
  exact fld_ofNat _ _ _ _ _ (by omega) (by omega)

@[simp] theorem waitaM_0_1 (dbl : Bool) (c : WCond) (sg sp : Bool) : fld (BitVec.ofNat 8 (64 * (2 + bit dbl) + 8 * c.code + 4 * bit sg + 2 * bit sp)) 0 1 = BitVec.ofNat 1 (0) := by
  have := bit_le dbl
  have := bit_le sg
  have := bit_le sp
  have := wcond_lt c
  exact fld_ofNat _ _ _ _ _ (by omega) (by omega)

@[simp] theorem waitaM_1_1 (dbl : Bool) (c : WCond) (sg sp : Bool) : fld (BitVec.ofNat 8 (64 * (2 + bit dbl) + 8 * c.code + 4 * bit sg + 2 * bit sp)) 1 1 = BitVec.ofNat 1 (bit sp) := by
  have := bit_le dbl
  have := bit_le sg
  have := bit_le sp
  have := wcond_lt c
  exact fld_ofNat _ _ _ _ _ (by omega) (by omega)

@[simp] theorem waitaM_2_1 (dbl : Bool) (c : WCond) (sg sp : Bool) : fld (BitVec.ofNat 8 (64 * (2 + bit dbl) + 8 * c.code + 4 * bit sg + 2 * bit sp)) 2 1 = BitVec.ofNat 1 (bit sg) := by
  have := bit_le dbl
  have := bit_le sg
  have := bit_le sp
  have := wcond_lt c
  exact fld_ofNat _ _ _ _ _ (by omega) (by omega)

@[simp] theorem waitaM_3_3 (dbl : Bool) (c : WCond) (sg sp : Bool) : fld (BitVec.ofNat 8 (64 * (2 + bit dbl) + 8 * c.code + 4 * bit sg + 2 * bit sp)) 3 3 = BitVec.ofNat 3 (c.code) := by
  have := bit_le dbl
  have := bit_le sg
  have := bit_le sp
  have := wcond_lt c
  exact fld_ofNat _ _ _ _ _ (by omega) (by omega)

@[simp] theorem waitaM_6_2 (dbl : Bool) (c : WCond) (sg sp : Bool) : fld (BitVec.ofNat 8 (64 * (2 + bit dbl) + 8 * c.code + 4 * bit sg + 2 * bit sp)) 6 2 = BitVec.ofNat 2 (2 + bit dbl) := by
  have := bit_le dbl
  have := bit_le sg
  have := bit_le sp
  have := wcond_lt c
  exact fld_ofNat _ _ _ _ _ (by omega) (by omega)

theorem num_toNat {n : Nat} (k : BitVec n) (h : n ≤ 29) : (BitVec.ofNat 29 k.toNat).toNat = k.toNat := by
  rw [BitVec.toNat_ofNat]
  exact Nat.mod_eq_of_lt (Nat.lt_of_lt_of_le k.isLt (Nat.pow_le_pow_right (by omega) h))

theorem num_lo {n : Nat} (k : BitVec n) (h : n ≤ 29) : fld (BitVec.ofNat 29 k.toNat) 0 n = k := by
  apply BitVec.eq_of_toNat_eq
  rw [fld_toNat, num_toNat k h, Nat.pow_zero, Nat.div_one, Nat.mod_eq_of_lt k.isLt]

theorem num_hi {n : Nat} (k : BitVec n) (h : n ≤ 29) : fld (BitVec.ofNat 29 k.toNat) n (29 - n) = 0#(29 - n) := by
  apply BitVec.eq_of_toNat_eq
  rw [fld_toNat, num_toNat k h, Nat.div_eq_of_lt k.isLt]
  simp

theorem ofNat_toNat {n : Nat} (k : BitVec n) : BitVec.ofNat 29 k.toNat = k.setWidth 29 := by
  apply BitVec.eq_of_toNat_eq
  simp

@[simp] theorem num3_lo (k : BitVec 3) : fld (k.setWidth 29) 0 3 = k := by rw [← ofNat_toNat, num_lo k (by omega)]

@[simp] theorem num3_hi (k : BitVec 3) : fld (k.setWidth 29) 3 26 = 0#26 := by
  rw [← ofNat_toNat]
  exact num_hi k (by omega)

@[simp] theorem num4_lo (k : BitVec 4) : fld (k.setWidth 29) 0 4 = k := by rw [← ofNat_toNat, num_lo k (by omega)]

@[simp] theorem num4_hi (k : BitVec 4) : fld (k.setWidth 29) 4 25 = 0#25 := by
  rw [← ofNat_toNat]
  exact num_hi k (by omega)

@[simp] theorem num8_lo (k : BitVec 8) : fld (k.setWidth 29) 0 8 = k := by rw [← ofNat_toNat, num_lo k (by omega)]

@[simp] theorem num8_hi (k : BitVec 8) : fld (k.setWidth 29) 8 21 = 0#21 := by
  rw [← ofNat_toNat]
  exact num_hi k (by omega)

@[simp] theorem pred_lo (k : BitVec 3) : fld (k.setWidth 24) 0 3 = k := by revert k; decide

@[simp] theorem pred_hi (k : BitVec 3) : fld (k.setWidth 24) 3 21 = 0#21 := by revert k; decide

@[simp] theorem pair_dbl (b : Bool) : (BitVec.ofNat 2 (2 + bit b) = 3#2) ↔ b = true := by cases b <;> decide

@[simp] theorem pair_mod (b : Bool) : (2 + bit b) % 4 = 2 + bit b := by cases b <;> rfl

@[simp] theorem pair_one (b : Bool) : (BitVec.ofNat 2 (bit b) = 1#2) ↔ b = true := by cases b <;> decide

@[simp] theorem clr_one (b : Bool) : (BitVec.ofNat 4 (bit b) = 1#4) ↔ b = true := by cases b <;> decide

@[simp] theorem bit_mod4 (b : Bool) : bit b % 4 ≤ 1 := by cases b <;> decide

@[simp] theorem bit_mod16 (b : Bool) : bit b % 16 ≤ 1 := by cases b <;> decide

@[simp] theorem pad5_5_3 (k : BitVec 3) : fld (n := 8) (k ++ 0#5) 5 3 = k := by
  revert k; decide

@[simp] theorem pad5_0_5 (k : BitVec 3) : fld (n := 8) (k ++ 0#5) 0 5 = 0#5 := by
  revert k; decide

@[simp] theorem pad6_6_2 (k : BitVec 2) : fld (n := 8) (k ++ 0#6) 6 2 = k := by
  revert k; decide

@[simp] theorem pad6_0_6 (k : BitVec 2) : fld (n := 8) (k ++ 0#6) 0 6 = 0#6 := by
  revert k; decide

@[simp] theorem pad4_4_4 (k : BitVec 4) : fld (n := 8) (k ++ 0#4) 4 4 = k := by
  revert k; decide

@[simp] theorem pad4_0_4 (k : BitVec 4) : fld (n := 8) (k ++ 0#4) 0 4 = 0#4 := by
  revert k; decide

@[simp] theorem ballotM_5_3 (k : BitVec 3) (b : Bool) : fld (n := 8) (k ++ BitVec.ofNat 1 (bit b) ++ 0#4) 5 3 = k := by
  revert k b; decide

@[simp] theorem ballotM_4_1 (k : BitVec 3) (b : Bool) : fld (n := 8) (k ++ BitVec.ofNat 1 (bit b) ++ 0#4) 4 1 = BitVec.ofNat 1 (bit b) := by
  revert k b; decide

@[simp] theorem ballotM_0_4 (k : BitVec 3) (b : Bool) : fld (n := 8) (k ++ BitVec.ofNat 1 (bit b) ++ 0#4) 0 4 = 0#4 := by
  revert k b; decide

@[simp] theorem mxM_6_2 (s : BitVec 2) (j : BitVec 4) (b : Bool) : fld (n := 8) (encMx s j b) 6 2 = s := by
  revert s j b; decide

@[simp] theorem mxM_2_4 (s : BitVec 2) (j : BitVec 4) (b : Bool) : fld (n := 8) (encMx s j b) 2 4 = j := by
  revert s j b; decide

@[simp] theorem mxM_0_1 (s : BitVec 2) (j : BitVec 4) (b : Bool) : fld (n := 8) (encMx s j b) 0 1 = 0#1 := by
  revert s j b; decide

@[simp] theorem mxM_1_1 (s : BitVec 2) (j : BitVec 4) (b : Bool) : fld (n := 8) (encMx s j b) 1 1 = BitVec.ofNat 1 (bit b) := by
  revert s j b; decide

@[simp] theorem mxM_0_2 (s : BitVec 2) (j : BitVec 4) (b : Bool) : fld (n := 8) (encMx s j b) 0 2 = BitVec.ofNat 2 (2 * bit b) := by
  revert s j b; decide

@[simp] theorem cmpD_0_4 (t c : Nat) : fld (n := 10) (BitVec.ofNat 6 t ++ BitVec.ofNat 4 c) 0 4 = BitVec.ofNat 4 c := by
  exact (fld_append_lo (BitVec.ofNat 6 t) _ _ _ (by omega)).trans (fld_self _)

@[simp] theorem cmpD_4_6 (t c : Nat) : fld (n := 10) (BitVec.ofNat 6 t ++ BitVec.ofNat 4 c) 4 6 = BitVec.ofNat 6 t := by
  exact (fld_append_hi _ (BitVec.ofNat 4 c) _ _ (by omega)).trans (fld_self _)

@[simp] theorem idxM_12_10 (i : BitVec 10) (s : BitVec 2) : fld (n := 22) (i ++ s ++ 0#10) 12 10 = i := by
  exact ((fld_append_hi (i ++ s) 0#10 12 10 (by omega)).trans (fld_append_hi i s 2 10 (by omega))).trans (fld_self _)

@[simp] theorem idxM_10_2 (i : BitVec 10) (s : BitVec 2) : fld (n := 22) (i ++ s ++ 0#10) 10 2 = s := by
  exact ((fld_append_hi (i ++ s) 0#10 10 2 (by omega)).trans (fld_append_lo i s 0 2 (by omega))).trans (fld_self _)

@[simp] theorem idxM_0_10 (i : BitVec 10) (s : BitVec 2) : fld (n := 22) (i ++ s ++ 0#10) 0 10 = 0#10 := by
  exact (fld_append_lo (i ++ s) 0#10 0 10 (by omega)).trans (fld_self _)

@[simp] theorem pcombM_0_8 (x y z : BitVec 3) (t : BitVec 8) : fld (n := 29) (0#12 ++ z ++ y ++ x ++ t) 0 8 = t := by
  exact (fld_append_lo (0#12 ++ z ++ y ++ x) t 0 8 (by omega)).trans (fld_self _)

@[simp] theorem pcombM_8_3 (x y z : BitVec 3) (t : BitVec 8) : fld (n := 29) (0#12 ++ z ++ y ++ x ++ t) 8 3 = x := by
  exact ((fld_append_hi (0#12 ++ z ++ y ++ x) t 8 3 (by omega)).trans (fld_append_lo (0#12 ++ z ++ y) x 0 3 (by omega))).trans (fld_self _)

@[simp] theorem pcombM_11_3 (x y z : BitVec 3) (t : BitVec 8) : fld (n := 29) (0#12 ++ z ++ y ++ x ++ t) 11 3 = y := by
  exact (((fld_append_hi (0#12 ++ z ++ y ++ x) t 11 3 (by omega)).trans (fld_append_hi (0#12 ++ z ++ y) x 3 3 (by omega))).trans (fld_append_lo (0#12 ++ z) y 0 3 (by omega))).trans (fld_self _)

@[simp] theorem pcombM_14_3 (x y z : BitVec 3) (t : BitVec 8) : fld (n := 29) (0#12 ++ z ++ y ++ x ++ t) 14 3 = z := by
  exact ((((fld_append_hi (0#12 ++ z ++ y ++ x) t 14 3 (by omega)).trans (fld_append_hi (0#12 ++ z ++ y) x 6 3 (by omega))).trans (fld_append_hi (0#12 ++ z) y 3 3 (by omega))).trans (fld_append_lo 0#12 z 0 3 (by omega))).trans (fld_self _)

@[simp] theorem pcombM_17_12 (x y z : BitVec 3) (t : BitVec 8) : fld (n := 29) (0#12 ++ z ++ y ++ x ++ t) 17 12 = 0#12 := by
  exact ((((fld_append_hi (0#12 ++ z ++ y ++ x) t 17 12 (by omega)).trans (fld_append_hi (0#12 ++ z ++ y) x 9 12 (by omega))).trans (fld_append_hi (0#12 ++ z) y 6 12 (by omega))).trans (fld_append_hi 0#12 z 3 12 (by omega))).trans (fld_self _)

theorem fld_wI_imm (op : BitVec 10) (x : FI) (lo len : Nat) (h : lo + len ≤ 29) :
    fld (wImm op x) lo len = fld x.imm lo len := by
  rw [fld_wI]
  exact fld_append_lo _ _ _ _ h

@[simp] theorem rdScan_wI (op : BitVec 10) (g : BitVec 5) (d a : BitVec 10) (seg : Bool) (k : BitVec 3) (rm : Rm)
    (sat : Bool) (ty : DTy) (o : ScanOp) :
    rdScan (wImm op ⟨g, d, a, encScan seg k rm sat ty o⟩) = .ok (seg, k, rm, sat, ty, o) := by
  simp [rdScan, fld_wI_imm]

@[simp] theorem rdMem_enc (d : BitVec 10) (m : Mem) : rdMem ⟨m.g.enc, d, m.base.enc, BitVec.ofNat 2 m.size.code,
    BitVec.ofNat 2 m.order.code, BitVec.ofNat 3 m.scope.code, m.off⟩ = .ok m := by
  simp [rdMem]

@[simp] theorem rdIdx_enc (d : BitVec 10) (x : Idx) : rdIdx ⟨x.g.enc, d, x.base.enc, BitVec.ofNat 2 x.size.code, 0#2,
    0#3, x.index.enc ++ x.scale ++ 0#10⟩ = .ok x := by
  simp [rdIdx]

@[simp] theorem rdShape_enc (sh : Shape) : rdShape (encShape sh false) = .ok sh := by
  simp [rdShape]

@[simp] theorem copyM0_0_4 (sc : Scope) : fld (BitVec.ofNat 8 (16 * sc.code)) 0 4 = 0#4 := by cases sc <;> rfl

@[simp] theorem copyM0_4_3 (sc : Scope) : fld (BitVec.ofNat 8 (16 * sc.code)) 4 3 = BitVec.ofNat 3 sc.code := by
  cases sc <;> rfl

@[simp] theorem copyM0_7_1 (sc : Scope) : fld (BitVec.ofNat 8 (16 * sc.code)) 7 1 = 0#1 := by cases sc <;> rfl

@[simp] theorem fld_zero (n lo len : Nat) : fld 0#n lo len = 0#len := by
  apply BitVec.eq_of_toNat_eq
  simp [fld_toNat]

@[simp] theorem barxM_0_8 (ded : Bool) (n : BitVec 8) : fld (BitVec.ofNat 29 (256 * bit ded + n.toNat)) 0 8 = n := by
  have h1 := bit_le ded
  have h2 := n.isLt
  rw [fld_ofNat 29 _ 0 8 n.toNat (by omega) (by omega)]
  simp

@[simp] theorem barxM_8_1 (ded : Bool) (n : BitVec 8) :
    fld (BitVec.ofNat 29 (256 * bit ded + n.toNat)) 8 1 = BitVec.ofNat 1 (bit ded) := by
  have h1 := bit_le ded
  have h2 := n.isLt
  exact fld_ofNat _ _ _ _ _ (by omega) (by omega)

@[simp] theorem barxM_9_20 (ded : Bool) (n : BitVec 8) : fld (BitVec.ofNat 29 (256 * bit ded + n.toNat)) 9 20 = 0#20 := by
  have h1 := bit_le ded
  have h2 := n.isLt
  exact fld_ofNat _ _ _ _ 0 (by omega) (by omega)

@[simp] theorem jqryM_0_4 (q : BitVec 2) (j : BitVec 4) : fld (BitVec.ofNat 29 (16 * q.toNat + j.toNat)) 0 4 = j := by
  have h1 := q.isLt
  have h2 := j.isLt
  rw [fld_ofNat 29 _ 0 4 j.toNat (by omega) (by omega)]
  simp

@[simp] theorem jqryM_4_2 (q : BitVec 2) (j : BitVec 4) : fld (BitVec.ofNat 29 (16 * q.toNat + j.toNat)) 4 2 = q := by
  have h1 := q.isLt
  have h2 := j.isLt
  rw [fld_ofNat 29 _ 4 2 q.toNat (by omega) (by omega)]
  simp

@[simp] theorem jqryM_6_23 (q : BitVec 2) (j : BitVec 4) :
    fld (BitVec.ofNat 29 (16 * q.toNat + j.toNat)) 6 23 = 0#23 := by
  have h1 := q.isLt
  have h2 := j.isLt
  exact fld_ofNat _ _ _ _ 0 (by omega) (by omega)

@[simp] theorem opcode_encAtom (op : Nat) (x : Atom) (c : BitVec 10) : opcode (encAtom op x c) = BitVec.ofNat 10 op := by
  simp [encAtom, encF]

@[simp] theorem c_encAtom (op : Nat) (x : Atom) (c : BitVec 10) : (f3 (encAtom op x c)).c = c := by
  simp [encAtom, encF]

@[simp] theorem rdAtom_encAtom (op : Nat) (x : Atom) (c : BitVec 10) : rdAtom (f3 (encAtom op x c)) = .ok x := by
  rcases x with ⟨g, d, a, b, dbl, o, sc⟩
  cases d <;> simp [encAtom, encF, rdAtom]

@[simp] theorem g_wI (op : BitVec 10) (x : FI) : (f3 (wImm op x)).g = x.g := by
  have h : (f3 (wImm op x)).g = (fI (wImm op x)).g := rfl
  rw [h, fI_wI]

@[simp] theorem d_wI (op : BitVec 10) (x : FI) : (f3 (wImm op x)).d = x.d := by
  have h : (f3 (wImm op x)).d = (fI (wImm op x)).d := rfl
  rw [h, fI_wI]

@[simp] theorem a_wI (op : BitVec 10) (x : FI) : (f3 (wImm op x)).a = x.a := by
  have h : (f3 (wImm op x)).a = (fI (wImm op x)).a := rfl
  rw [h, fI_wI]

theorem idx_f64 : FTy.f64.idx = 0 := rfl

theorem of_f64 : FTy.ofIdx 0 = some .f64 := rfl

theorem idx_f32 : FTy.f32.idx = 1 := rfl

theorem of_f32 : FTy.ofIdx 1 = some .f32 := rfl

theorem idx_f32x2 : FTy.f32x2.idx = 2 := rfl

theorem of_f32x2 : FTy.ofIdx 2 = some .f32x2 := rfl

theorem idx_f16x4 : FTy.f16x4.idx = 3 := rfl

theorem of_f16x4 : FTy.ofIdx 3 = some .f16x4 := rfl

theorem idx_bf16x4 : FTy.bf16x4.idx = 4 := rfl

theorem of_bf16x4 : FTy.ofIdx 4 = some .bf16x4 := rfl

theorem idx_e4m3 : FTy.e4m3.idx = 5 := rfl

theorem of_e4m3 : FTy.ofIdx 5 = some .e4m3 := rfl

theorem idx_e5m2 : FTy.e5m2.idx = 6 := rfl

theorem of_e5m2 : FTy.ofIdx 6 = some .e5m2 := rfl

theorem idx_e2m1 : FTy.e2m1.idx = 7 := rfl

theorem of_e2m1 : FTy.ofIdx 7 = some .e2m1 := rfl

end Sys2Proof
end

