-- ==== Sys2Proof/Laws/PerInstr.lean ====
section
/-! SUPPORT. Per instruction: a well-formed syllable's word decodes to it (R46, R85). -/

namespace Sys2Proof.Laws.RoundTrip

open Sys2Proof

set_option Elab.async false
set_option linter.unusedSimpArgs false

/-- The word of a well-formed syllable decodes to it, at its position. -/
def Statement (i : Instr) : Prop := i.isStep = false → i.wf = true → decode i.pos (encode i) = .ok i

theorem posOk (i : Instr) : (i.pos == .root || !i.collective) = true := by cases i <;> rfl

/-- A step of the machine has no word. -/
theorem ofStep {i : Instr} (h : i.isStep = true) : Statement i :=
  fun h' => absurd (h.symm.trans h') (by decide)

/-- Its fields are read back. -/
theorem ofRaw {i : Instr} (h : i.wf = true → raw i.pos (encode i) = .ok i) : Statement i := by
  intro _ hw
  have hp := posOk i
  simp only [decode, h hw, ok_bind, hw, hp, Bool.and_self, if_true]

theorem cellContribution (cell : Nat) (pkg : Nat) (data : List Byte) : Statement (.cellContribution cell pkg data) :=
  ofStep rfl

theorem packageReset (primary : Image) (recovery : Image) (fw : FwSetup) : Statement (.packageReset primary recovery fw) :=
  ofStep rfl

theorem ctxCreate (secure : Bool) (root : Nat) (backing : Word) (backingSize : Word) (save : Word) (excl : List Nat) (imports : List (Word × Word)) : Statement (.ctxCreate secure root backing backingSize save excl imports) :=
  ofStep rfl

theorem queueCreate (ctx : Nat) (header : Word) (die : Nat) : Statement (.queueCreate ctx header die) :=
  ofStep rfl

theorem shootdown (ctx : Nat) (va : Nat) (size : Nat) : Statement (.shootdown ctx va size) :=
  ofStep rfl

theorem preempt (ctx : Nat) (die : Nat) : Statement (.preempt ctx die) :=
  ofStep rfl

theorem restore (ctx : Nat) (die : Nat) (excl : List Nat) : Statement (.restore ctx die excl) :=
  ofStep rfl

theorem cellConfig (cell : Nat) (cfg : CellCfg) : Statement (.cellConfig cell cfg) :=
  ofStep rfl

theorem attest (nonce : BitVec 256) : Statement (.attest nonce) :=
  ofStep rfl

theorem launchEnd (ctx : Nat) (header : Word) (index : Nat) : Statement (.launchEnd ctx header index) :=
  ofStep rfl

theorem trapSet (ctx : Nat) (handler : Addr56) (kinds : BitVec 28) : Statement (.trapSet ctx handler kinds) :=
  ofStep rfl

theorem dbgSet (ctx : Nat) (sel : WarpSel) (cfg : DbgSet) : Statement (.dbgSet ctx sel cfg) :=
  ofStep rfl

theorem dbgRead (ctx : Nat) (w : Nat) (t : BitVec 5) (sel : Word) : Statement (.dbgRead ctx w t sel) :=
  ofStep rfl

theorem dbgWrite (ctx : Nat) (w : Nat) (t : BitVec 5) (sel : Word) (val : Word) : Statement (.dbgWrite ctx w t sel val) :=
  ofStep rfl

theorem dbgResume (ctx : Nat) (w : Nat) (action : Nat) (val : Word) : Statement (.dbgResume ctx w action val) :=
  ofStep rfl

theorem bboxRead (die : Nat) (call : BboxCall) : Statement (.bboxRead die call) :=
  ofStep rfl

theorem add (g : Guard) (d : Operand) (a : Operand) (b : Operand) (ty : ITy) (sat : Bool) : Statement (.add g d a b ty sat) :=
  ofRaw (fun _ => by
    show rawOp _ = _
    simp [rawOp, encode, encInt, encF, decPage0, dInt1, dInt2, dInt3, dImm, rd2, asI])

theorem sub (g : Guard) (d : Operand) (a : Operand) (b : Operand) (ty : ITy) (sat : Bool) : Statement (.sub g d a b ty sat) :=
  ofRaw (fun _ => by
    show rawOp _ = _
    simp [rawOp, encode, encInt, encF, decPage0, dInt1, dInt2, dInt3, dImm, rd2, asI])

theorem mul (g : Guard) (d : Operand) (a : Operand) (b : Operand) (ty : ITy) (sat : Bool) : Statement (.mul g d a b ty sat) :=
  ofRaw (fun _ => by
    show rawOp _ = _
    simp [rawOp, encode, encInt, encF, decPage0, dInt1, dInt2, dInt3, dImm, rd2, asI])

theorem mulh (g : Guard) (d : Operand) (a : Operand) (b : Operand) (ty : ITy) : Statement (.mulh g d a b ty) :=
  ofRaw (fun _ => by
    show rawOp _ = _
    simp [rawOp, encode, encInt, encF, decPage0, dInt1, dInt2, dInt3, dImm, rd2, asI])

theorem mad (g : Guard) (d : Operand) (a : Operand) (b : Operand) (c : Operand) (ty : ITy) (sat : Bool) : Statement (.mad g d a b c ty sat) :=
  ofRaw (fun _ => by
    show rawOp _ = _
    simp [rawOp, encode, encInt, encF, decPage0, dInt1, dInt2, dInt3, dImm, rd2, asI])

theorem madw (g : Guard) (d : Operand) (a : Operand) (b : Operand) (c : Operand) (signed : Bool) (sat : Bool) : Statement (.madw g d a b c signed sat) :=
  ofRaw (fun h => by
    show rawOp _ = _
    cases signed <;> simp [rawOp, encode, encInt, encF, decPage0, dInt1, dInt2, dInt3, dImm, rd2, asI])

theorem div (g : Guard) (d : Operand) (a : Operand) (b : Operand) (ty : ITy) (sat : Bool) : Statement (.div g d a b ty sat) :=
  ofRaw (fun _ => by
    show rawOp _ = _
    simp [rawOp, encode, encInt, encF, decPage0, dInt1, dInt2, dInt3, dImm, rd2, asI])

theorem rem (g : Guard) (d : Operand) (a : Operand) (b : Operand) (ty : ITy) : Statement (.rem g d a b ty) :=
  ofRaw (fun _ => by
    show rawOp _ = _
    simp [rawOp, encode, encInt, encF, decPage0, dInt1, dInt2, dInt3, dImm, rd2, asI])

theorem min (g : Guard) (d : Operand) (a : Operand) (b : Operand) (ty : ITy) : Statement (.min g d a b ty) :=
  ofRaw (fun _ => by
    show rawOp _ = _
    simp [rawOp, encode, encInt, encF, decPage0, dInt1, dInt2, dInt3, dImm, rd2, asI])

theorem max (g : Guard) (d : Operand) (a : Operand) (b : Operand) (ty : ITy) : Statement (.max g d a b ty) :=
  ofRaw (fun _ => by
    show rawOp _ = _
    simp [rawOp, encode, encInt, encF, decPage0, dInt1, dInt2, dInt3, dImm, rd2, asI])

theorem abs (g : Guard) (d : Operand) (a : Operand) (ty : ITy) (sat : Bool) : Statement (.abs g d a ty sat) :=
  ofRaw (fun _ => by
    show rawOp _ = _
    simp [rawOp, encode, encInt, encF, decPage0, dInt1, dInt2, dInt3, dImm, rd2, asI])

theorem neg (g : Guard) (d : Operand) (a : Operand) (ty : ITy) (sat : Bool) : Statement (.neg g d a ty sat) :=
  ofRaw (fun _ => by
    show rawOp _ = _
    simp [rawOp, encode, encInt, encF, decPage0, dInt1, dInt2, dInt3, dImm, rd2, asI])

theorem lea (g : Guard) (d : Operand) (a : Operand) (b : Operand) (c : Operand) (ty : ITy) : Statement (.lea g d a b c ty) :=
  ofRaw (fun _ => by
    show rawOp _ = _
    simp [rawOp, encode, encInt, encF, decPage0, dInt1, dInt2, dInt3, dImm, rd2, asI])

theorem addImm (g : Guard) (d : Operand) (a : Operand) (ty : ImTy) (imm : BitVec 29) : Statement (.addImm g d a ty imm) :=
  ofRaw (fun _ => by
    show rawOp _ = _
    cases ty <;> simp [rawOp, encode, encI, decPage0, dInt1, dInt2, dInt3, dImm, rd2, asI, ImTy.idx, ImTy.ofIdx])

theorem subRevImm (g : Guard) (d : Operand) (a : Operand) (ty : ImTy) (imm : BitVec 29) : Statement (.subRevImm g d a ty imm) :=
  ofRaw (fun _ => by
    show rawOp _ = _
    cases ty <;> simp [rawOp, encode, encI, decPage0, dInt1, dInt2, dInt3, dImm, rd2, asI, ImTy.idx, ImTy.ofIdx])

theorem mulImm (g : Guard) (d : Operand) (a : Operand) (ty : ImTy) (imm : BitVec 29) : Statement (.mulImm g d a ty imm) :=
  ofRaw (fun _ => by
    show rawOp _ = _
    cases ty <;> simp [rawOp, encode, encI, decPage0, dInt1, dInt2, dInt3, dImm, rd2, asI, ImTy.idx, ImTy.ofIdx])

theorem minImm (g : Guard) (d : Operand) (a : Operand) (ty : ImTy) (imm : BitVec 29) : Statement (.minImm g d a ty imm) :=
  ofRaw (fun _ => by
    show rawOp _ = _
    cases ty <;> simp [rawOp, encode, encI, decPage0, dInt1, dInt2, dInt3, dImm, rd2, asI, ImTy.idx, ImTy.ofIdx])

theorem maxImm (g : Guard) (d : Operand) (a : Operand) (ty : ImTy) (imm : BitVec 29) : Statement (.maxImm g d a ty imm) :=
  ofRaw (fun _ => by
    show rawOp _ = _
    cases ty <;> simp [rawOp, encode, encI, decPage0, dInt1, dInt2, dInt3, dImm, rd2, asI, ImTy.idx, ImTy.ofIdx])

theorem leaImm (g : Guard) (d : Operand) (a : Operand) (imm : BitVec 29) : Statement (.leaImm g d a imm) :=
  ofRaw (fun _ => by
    show rawOp _ = _
    simp [rawOp, encode, encI, decPage0, dInt1, dInt2, dInt3, dImm, rd2, asI])

theorem and (g : Guard) (d : Operand) (a : Operand) (b : Operand) (ty : DTy) : Statement (.and g d a b ty) :=
  ofRaw (fun _ => by
    show rawOp _ = _
    simp [rawOp, encode, encInt, encF, decPage1, dInt1, dInt2, dInt3, dLogic, dImm, rd2, asI])

theorem or (g : Guard) (d : Operand) (a : Operand) (b : Operand) (ty : DTy) : Statement (.or g d a b ty) :=
  ofRaw (fun _ => by
    show rawOp _ = _
    simp [rawOp, encode, encInt, encF, decPage1, dInt1, dInt2, dInt3, dLogic, dImm, rd2, asI])

theorem xor (g : Guard) (d : Operand) (a : Operand) (b : Operand) (ty : DTy) : Statement (.xor g d a b ty) :=
  ofRaw (fun _ => by
    show rawOp _ = _
    simp [rawOp, encode, encInt, encF, decPage1, dInt1, dInt2, dInt3, dLogic, dImm, rd2, asI])

theorem andn (g : Guard) (d : Operand) (a : Operand) (b : Operand) (ty : DTy) : Statement (.andn g d a b ty) :=
  ofRaw (fun _ => by
    show rawOp _ = _
    simp [rawOp, encode, encInt, encF, decPage1, dInt1, dInt2, dInt3, dLogic, dImm, rd2, asI])

theorem truth (g : Guard) (d : Operand) (a : Operand) (b : Operand) (c : Operand) (table : BitVec 8) : Statement (.truth g d a b c table) :=
  ofRaw (fun _ => by
    show rawOp _ = _
    simp [rawOp, encode, encF, decPage1, dInt1, dInt2, dInt3, dLogic, dImm, rd2, asI])

theorem shl (g : Guard) (d : Operand) (a : Operand) (b : Operand) (ty : ITy) : Statement (.shl g d a b ty) :=
  ofRaw (fun _ => by
    show rawOp _ = _
    simp [rawOp, encode, encInt, encF, decPage1, dInt1, dInt2, dInt3, dLogic, dImm, rd2, asI])

theorem shr (g : Guard) (d : Operand) (a : Operand) (b : Operand) (ty : ITy) : Statement (.shr g d a b ty) :=
  ofRaw (fun _ => by
    show rawOp _ = _
    simp [rawOp, encode, encInt, encF, decPage1, dInt1, dInt2, dInt3, dLogic, dImm, rd2, asI])

theorem sar (g : Guard) (d : Operand) (a : Operand) (b : Operand) (ty : ITy) : Statement (.sar g d a b ty) :=
  ofRaw (fun _ => by
    show rawOp _ = _
    simp [rawOp, encode, encInt, encF, decPage1, dInt1, dInt2, dInt3, dLogic, dImm, rd2, asI])

theorem rotl (g : Guard) (d : Operand) (a : Operand) (b : Operand) (ty : ITy) : Statement (.rotl g d a b ty) :=
  ofRaw (fun _ => by
    show rawOp _ = _
    simp [rawOp, encode, encInt, encF, decPage1, dInt1, dInt2, dInt3, dLogic, dImm, rd2, asI])

theorem fshl (g : Guard) (d : Operand) (a : Operand) (b : Operand) (c : Operand) (ty : ImTy) : Statement (.fshl g d a b c ty) :=
  ofRaw (fun h => by
    show rawOp _ = _
    cases ty <;> simp [rawOp, encode, encInt, encF, decPage1, dInt1, dInt2, dInt3, dLogic, dImm, rd2, asI, ImTy.ofTy, ImTy.ty, ImTy.ofTy, ImTy.ty])

theorem bfx (g : Guard) (d : Operand) (a : Operand) (b : Operand) (c : Operand) (ty : ITy) : Statement (.bfx g d a b c ty) :=
  ofRaw (fun _ => by
    show rawOp _ = _
    simp [rawOp, encode, encInt, encF, decPage1, dInt1, dInt2, dInt3, dLogic, dImm, rd2, asI])

theorem bfi (g : Guard) (d : Operand) (a : Operand) (b : Operand) (c : Operand) (ty : ITy) : Statement (.bfi g d a b c ty) :=
  ofRaw (fun _ => by
    show rawOp _ = _
    simp [rawOp, encode, encInt, encF, decPage1, dInt1, dInt2, dInt3, dLogic, dImm, rd2, asI])

theorem popc (g : Guard) (d : Operand) (a : Operand) (ty : ITy) : Statement (.popc g d a ty) :=
  ofRaw (fun _ => by
    show rawOp _ = _
    simp [rawOp, encode, encInt, encF, decPage1, dInt1, dInt2, dInt3, dLogic, dImm, rd2, asI])

theorem clz (g : Guard) (d : Operand) (a : Operand) (ty : ITy) : Statement (.clz g d a ty) :=
  ofRaw (fun _ => by
    show rawOp _ = _
    simp [rawOp, encode, encInt, encF, decPage1, dInt1, dInt2, dInt3, dLogic, dImm, rd2, asI])

theorem ctz (g : Guard) (d : Operand) (a : Operand) (ty : ITy) : Statement (.ctz g d a ty) :=
  ofRaw (fun _ => by
    show rawOp _ = _
    simp [rawOp, encode, encInt, encF, decPage1, dInt1, dInt2, dInt3, dLogic, dImm, rd2, asI])

theorem brev (g : Guard) (d : Operand) (a : Operand) (ty : ITy) : Statement (.brev g d a ty) :=
  ofRaw (fun _ => by
    show rawOp _ = _
    simp [rawOp, encode, encInt, encF, decPage1, dInt1, dInt2, dInt3, dLogic, dImm, rd2, asI])

theorem andImm (g : Guard) (d : Operand) (a : Operand) (imm : BitVec 29) : Statement (.andImm g d a imm) :=
  ofRaw (fun _ => by
    show rawOp _ = _
    simp [rawOp, encode, encI, decPage1, dInt1, dInt2, dInt3, dLogic, dImm, rd2, asI])

theorem orImm (g : Guard) (d : Operand) (a : Operand) (imm : BitVec 29) : Statement (.orImm g d a imm) :=
  ofRaw (fun _ => by
    show rawOp _ = _
    simp [rawOp, encode, encI, decPage1, dInt1, dInt2, dInt3, dLogic, dImm, rd2, asI])

theorem xorImm (g : Guard) (d : Operand) (a : Operand) (imm : BitVec 29) : Statement (.xorImm g d a imm) :=
  ofRaw (fun _ => by
    show rawOp _ = _
    simp [rawOp, encode, encI, decPage1, dInt1, dInt2, dInt3, dLogic, dImm, rd2, asI])

theorem andnImm (g : Guard) (d : Operand) (a : Operand) (imm : BitVec 29) : Statement (.andnImm g d a imm) :=
  ofRaw (fun _ => by
    show rawOp _ = _
    simp [rawOp, encode, encI, decPage1, dInt1, dInt2, dInt3, dLogic, dImm, rd2, asI])

theorem shlImm (g : Guard) (d : Operand) (a : Operand) (imm : BitVec 29) : Statement (.shlImm g d a imm) :=
  ofRaw (fun _ => by
    show rawOp _ = _
    simp [rawOp, encode, encI, decPage1, dInt1, dInt2, dInt3, dLogic, dImm, rd2, asI])

theorem shrImm (g : Guard) (d : Operand) (a : Operand) (imm : BitVec 29) : Statement (.shrImm g d a imm) :=
  ofRaw (fun _ => by
    show rawOp _ = _
    simp [rawOp, encode, encI, decPage1, dInt1, dInt2, dInt3, dLogic, dImm, rd2, asI])

theorem sarImm (g : Guard) (d : Operand) (a : Operand) (imm : BitVec 29) : Statement (.sarImm g d a imm) :=
  ofRaw (fun _ => by
    show rawOp _ = _
    simp [rawOp, encode, encI, decPage1, dInt1, dInt2, dInt3, dLogic, dImm, rd2, asI])

theorem rotlImm (g : Guard) (d : Operand) (a : Operand) (imm : BitVec 29) : Statement (.rotlImm g d a imm) :=
  ofRaw (fun _ => by
    show rawOp _ = _
    simp [rawOp, encode, encI, decPage1, dInt1, dInt2, dInt3, dLogic, dImm, rd2, asI])

theorem movi (g : Guard) (d : Operand) (imm : BitVec 29) : Statement (.movi g d imm) :=
  ofRaw (fun _ => by
    show rawOp _ = _
    simp [rawOp, encode, encI, decPage1, dInt1, dInt2, dInt3, dLogic, dImm, rd2, asI])

theorem moviW (g : Guard) (d : Operand) (imm : BitVec 32) : Statement (.moviW g d imm) :=
  ofRaw (fun _ => by
    show rawOp _ = _
    simp [rawOp, encode, decPage1, dInt1, dInt2, dInt3, dLogic, dImm, rd2, asI])

theorem movhi (g : Guard) (d : Operand) (imm : BitVec 32) : Statement (.movhi g d imm) :=
  ofRaw (fun _ => by
    show rawOp _ = _
    simp [rawOp, encode, decPage1, dInt1, dInt2, dInt3, dLogic, dImm, rd2, asI])

theorem mov (g : Guard) (d : Operand) (a : Operand) (ty : DTy) : Statement (.mov g d a ty) :=
  ofRaw (fun _ => by
    show rawOp _ = _
    simp [rawOp, encode, encInt, encF, decPage1, dInt1, dInt2, dInt3, dLogic, dImm, rd2, asI])

theorem sel (g : Guard) (d : Operand) (a : Operand) (b : Operand) (k : BitVec 3) : Statement (.sel g d a b k) :=
  ofRaw (fun _ => by
    show rawOp _ = _
    simp [rawOp, encode, encF, decPage1, dInt1, dInt2, dInt3, dLogic, dImm, rd2, asI])

theorem cmp (g : Guard) (c : Cond) (a : Operand) (b : Operand) (ty : ITy) : Statement (.cmp g c a b ty) :=
  ofRaw (fun _ => by
    show rawOp _ = _
    simp [rawOp, encode, encF, decPage2, asI])

theorem cmpImm (g : Guard) (c : Cond) (a : Operand) (ty : ITy) (imm : BitVec 29) : Statement (.cmpImm g c a ty imm) :=
  ofRaw (fun _ => by
    show rawOp _ = _
    simp [rawOp, encode, encI, decPage2, asI])

theorem fcmp (g : Guard) (c : Cond) (a : Operand) (b : Operand) (dbl : Bool) (nf : Bool) : Statement (.fcmp g c a b dbl nf) :=
  ofRaw (fun h => by
    show rawOp _ = _
    cases dbl <;> simp [rawOp, encode, encF, decPage2, asI, DTy.ofCode, FTy.ofIdx])

theorem testCmpReg (c : Cond) (a : Operand) (b : Operand) (ty : DTy) : Statement (.testCmpReg c a b ty) :=
  ofRaw (fun h => by
    show rawTest _ = _
    simp [rawTest, encode, asI])

theorem testCmpImm (c : Cond) (a : Operand) (ty : ITy) (imm : BitVec 24) : Statement (.testCmpImm c a ty imm) :=
  ofRaw (fun h => by
    show rawTest _ = _
    simp [rawTest, encode, asI])

theorem testPred (clr : Bool) (d : BitVec 3) : Statement (.testPred clr d) :=
  ofRaw (fun h => by
    show rawTest _ = _
    simp [rawTest, encode, asI])

theorem pcomb (g : Guard) (table : BitVec 8) (x : BitVec 3) (y : BitVec 3) (z : BitVec 3) : Statement (.pcomb g table x y z) :=
  ofRaw (fun _ => by
    show rawOp _ = _
    simp [rawOp, encode, encI, decPage2, asI])

theorem pdrop (g : Guard) (n : BitVec 4) : Statement (.pdrop g n) :=
  ofRaw (fun _ => by
    show rawOp _ = _
    simp [rawOp, encode, encNum, encI, decPage2, asI])

theorem pget (g : Guard) (d : Operand) : Statement (.pget g d) :=
  ofRaw (fun _ => by
    show rawOp _ = _
    simp [rawOp, encode, encF, decPage2, asI])

theorem pset (g : Guard) (a : Operand) : Statement (.pset g a) :=
  ofRaw (fun _ => by
    show rawOp _ = _
    simp [rawOp, encode, encF, decPage2, asI])

theorem ballot (g : Guard) (d : Operand) (k : BitVec 3) (inv : Bool) : Statement (.ballot g d k inv) :=
  ofRaw (fun _ => by
    show rawOp _ = _
    simp [rawOp, encode, encF, decPage2, asI])

theorem first (g : Guard) (d : BitVec 9) (a : Operand) : Statement (.first g d a) :=
  ofRaw (fun _ => by
    show rawOp _ = _
    simp [rawOp, encode, encF, decPage2, asI])

theorem srd (g : Guard) (d : BitVec 8) (a : Operand) : Statement (.srd g d a) :=
  ofRaw (fun _ => by
    show rawOp _ = _
    simp [rawOp, encode, encF, decPage2, asI])

theorem swr (g : Guard) (x : Special) (a : Operand) : Statement (.swr g x a) :=
  ofRaw (fun _ => by
    show rawOp _ = _
    simp [rawOp, encode, encF, decPage2, asI])

theorem leafJmp (off : BitVec 32) : Statement (.leafJmp off) :=
  ofRaw (fun _ => by
    show rawLeaf _ = _
    simp [rawLeaf, encode, encLeaf])

theorem leafJmpi (r : Operand) : Statement (.leafJmpi r) :=
  ofRaw (fun _ => by
    show rawLeaf _ = _
    simp [rawLeaf, encode, encLeaf])

theorem leafCall (off : BitVec 32) : Statement (.leafCall off) :=
  ofRaw (fun _ => by
    show rawLeaf _ = _
    simp [rawLeaf, encode, encLeaf])

theorem leafCalli (r : Operand) : Statement (.leafCalli r) :=
  ofRaw (fun _ => by
    show rawLeaf _ = _
    simp [rawLeaf, encode, encLeaf])

theorem leafTrap (code : BitVec 12) : Statement (.leafTrap code) :=
  ofRaw (fun _ => by
    show rawLeaf _ = _
    simp [rawLeaf, encode, encLeaf])

theorem fadd (g : Guard) (d : Operand) (a : FSrc) (b : FSrc) (ty : FTy) (rm : Rm) (nf : Bool) : Statement (.fadd g d a b ty rm nf) :=
  ofRaw (fun h => by
    show rawOp _ = _
    cases ty <;> simp [Instr.wf, FTy.arith, FTy.idx] at h <;> simp [rawOp, encode, encF, decPage3, fsA, fsB, FTy.idx, FTy.ofIdx, FTy.arith, FSrc.none])

theorem fmul (g : Guard) (d : Operand) (a : FSrc) (b : FSrc) (ty : FTy) (rm : Rm) (nf : Bool) : Statement (.fmul g d a b ty rm nf) :=
  ofRaw (fun h => by
    show rawOp _ = _
    cases ty <;> simp [Instr.wf, FTy.arith, FTy.idx] at h <;> simp [rawOp, encode, encF, decPage3, fsA, fsB, FTy.idx, FTy.ofIdx, FTy.arith, FSrc.none])

theorem fma (g : Guard) (d : Operand) (a : FSrc) (b : FSrc) (c : Operand) (negc : Bool) (ty : FTy) (rm : Rm) (nf : Bool) : Statement (.fma g d a b c negc ty rm nf) :=
  ofRaw (fun h => by
    show rawOp _ = _
    cases ty <;> simp [Instr.wf, FTy.arith, FTy.idx] at h <;> simp [rawOp, encode, encF, decPage3, fsA, fsB, FTy.idx, FTy.ofIdx, FTy.arith, FSrc.none])

theorem fmin (g : Guard) (d : Operand) (a : FSrc) (b : FSrc) (ty : FTy) (num : Bool) (nf : Bool) : Statement (.fmin g d a b ty num nf) :=
  ofRaw (fun h => by
    show rawOp _ = _
    cases num <;> cases ty <;> simp [Instr.wf, FTy.arith, FTy.idx] at h <;> simp [rawOp, encode, encF, decPage3, fsA, fsB, FTy.idx, FTy.ofIdx, FTy.arith])

theorem fmax (g : Guard) (d : Operand) (a : FSrc) (b : FSrc) (ty : FTy) (num : Bool) (nf : Bool) : Statement (.fmax g d a b ty num nf) :=
  ofRaw (fun h => by
    show rawOp _ = _
    cases num <;> cases ty <;> simp [Instr.wf, FTy.arith, FTy.idx] at h <;> simp [rawOp, encode, encF, decPage3, fsA, fsB, FTy.idx, FTy.ofIdx, FTy.arith])

theorem frnd (g : Guard) (d : Operand) (a : FSrc) (ty : FTy) (rm : Rm) (nf : Bool) : Statement (.frnd g d a ty rm nf) :=
  ofRaw (fun h => by
    show rawOp _ = _
    cases ty <;> simp [Instr.wf, FTy.arith, FTy.idx] at h <;> simp [rawOp, encode, encF, decPage3, fsA, fsB, FTy.idx, FTy.ofIdx, FTy.arith, FSrc.none])

theorem fscale (g : Guard) (d : Operand) (a : FSrc) (b : Operand) (ty : FTy) (rm : Rm) (nf : Bool) : Statement (.fscale g d a b ty rm nf) :=
  ofRaw (fun h => by
    show rawOp _ = _
    cases ty <;> simp [Instr.wf, FTy.arith, FTy.idx] at h <;> simp [rawOp, encode, encF, decPage3, fsA, fsB, FTy.idx, FTy.ofIdx, FTy.arith, FSrc.none])

theorem fclass (g : Guard) (d : Operand) (a : FSrc) (ty : FTy) (nf : Bool) : Statement (.fclass g d a ty nf) :=
  ofRaw (fun h => by
    show rawOp _ = _
    cases ty <;> simp [Instr.wf, FTy.arith, FTy.idx] at h <;> simp [rawOp, encode, encF, decPage3, fsA, fsB, FTy.idx, FTy.ofIdx, FTy.arith, FSrc.none])

theorem fexpo (g : Guard) (d : Operand) (a : FSrc) (ty : FTy) (nf : Bool) : Statement (.fexpo g d a ty nf) :=
  ofRaw (fun h => by
    show rawOp _ = _
    cases ty <;> simp [Instr.wf, FTy.arith, FTy.idx] at h <;> simp [rawOp, encode, encF, decPage3, fsA, fsB, FTy.idx, FTy.ofIdx, FTy.arith, FSrc.none])

theorem fcvt (g : Guard) (d : Operand) (a : Operand) (b : Operand) (c : Operand) (dst : FTy) (src : FTy) (rm : Rm) (sat : Bool) (nf : Bool) : Statement (.fcvt g d a b c dst src rm sat nf) :=
  ofRaw (fun h => by
    show rawOp _ = _
    cases dst <;> simp [rawOp, encode, encF, decPage4, dFn, rd2, idx_f64, of_f64, idx_f32, of_f32, idx_f32x2, of_f32x2, idx_f16x4, of_f16x4, idx_bf16x4, of_bf16x4, idx_e4m3, of_e4m3, idx_e5m2, of_e5m2, idx_e2m1, of_e2m1])

theorem cvti (g : Guard) (d : Operand) (a : Operand) (b : Operand) (c : Operand) (dst : ITy) (src : FTy) (rm : Rm) (sat : Bool) (nf : Bool) : Statement (.cvti g d a b c dst src rm sat nf) :=
  ofRaw (fun h => by
    show rawOp _ = _
    cases dst <;> simp [rawOp, encode, encF, decPage4, dFn, rd2, ITy.idx, ITy.ofIdx])

theorem cvtf (g : Guard) (d : Operand) (a : Operand) (b : Operand) (c : Operand) (dst : FTy) (src : ITy) (rm : Rm) (sat : Bool) (nf : Bool) : Statement (.cvtf g d a b c dst src rm sat nf) :=
  ofRaw (fun h => by
    show rawOp _ = _
    cases dst <;> simp [rawOp, encode, encF, decPage4, dFn, rd2, FTy.idx, FTy.ofIdx])

theorem rcp (g : Guard) (d : Operand) (a : Operand) (ty : FTy) (fast : Bool) (rm : Rm) (nf : Bool) : Statement (.rcp g d a ty fast rm nf) :=
  ofRaw (fun _ => by
    show rawOp _ = _
    simp [rawOp, encode, encFn, encF, decPage4, dFn, rd2])

theorem rsq (g : Guard) (d : Operand) (a : Operand) (ty : FTy) (fast : Bool) (rm : Rm) (nf : Bool) : Statement (.rsq g d a ty fast rm nf) :=
  ofRaw (fun _ => by
    show rawOp _ = _
    simp [rawOp, encode, encFn, encF, decPage4, dFn, rd2])

theorem sqrt (g : Guard) (d : Operand) (a : Operand) (ty : FTy) (fast : Bool) (rm : Rm) (nf : Bool) : Statement (.sqrt g d a ty fast rm nf) :=
  ofRaw (fun _ => by
    show rawOp _ = _
    simp [rawOp, encode, encFn, encF, decPage4, dFn, rd2])

theorem divF (g : Guard) (d : Operand) (a : Operand) (b : Operand) (ty : FTy) (fast : Bool) (rm : Rm) (nf : Bool) : Statement (.divF g d a b ty fast rm nf) :=
  ofRaw (fun _ => by
    show rawOp _ = _
    simp [rawOp, encode, encFn, encF, decPage4, dFn, rd2])

theorem exp2 (g : Guard) (d : Operand) (a : Operand) (ty : FTy) (fast : Bool) (rm : Rm) (nf : Bool) : Statement (.exp2 g d a ty fast rm nf) :=
  ofRaw (fun _ => by
    show rawOp _ = _
    simp [rawOp, encode, encFn, encF, decPage4, dFn, rd2])

theorem log2 (g : Guard) (d : Operand) (a : Operand) (ty : FTy) (fast : Bool) (rm : Rm) (nf : Bool) : Statement (.log2 g d a ty fast rm nf) :=
  ofRaw (fun _ => by
    show rawOp _ = _
    simp [rawOp, encode, encFn, encF, decPage4, dFn, rd2])

theorem sin (g : Guard) (d : Operand) (a : Operand) (ty : FTy) (fast : Bool) (rm : Rm) (nf : Bool) : Statement (.sin g d a ty fast rm nf) :=
  ofRaw (fun _ => by
    show rawOp _ = _
    simp [rawOp, encode, encFn, encF, decPage4, dFn, rd2])

theorem cos (g : Guard) (d : Operand) (a : Operand) (ty : FTy) (fast : Bool) (rm : Rm) (nf : Bool) : Statement (.cos g d a ty fast rm nf) :=
  ofRaw (fun _ => by
    show rawOp _ = _
    simp [rawOp, encode, encFn, encF, decPage4, dFn, rd2])

theorem tanh (g : Guard) (d : Operand) (a : Operand) (ty : FTy) (fast : Bool) (rm : Rm) (nf : Bool) : Statement (.tanh g d a ty fast rm nf) :=
  ofRaw (fun _ => by
    show rawOp _ = _
    simp [rawOp, encode, encFn, encF, decPage4, dFn, rd2])

theorem sigm (g : Guard) (d : Operand) (a : Operand) (ty : FTy) (fast : Bool) (rm : Rm) (nf : Bool) : Statement (.sigm g d a ty fast rm nf) :=
  ofRaw (fun _ => by
    show rawOp _ = _
    simp [rawOp, encode, encFn, encF, decPage4, dFn, rd2])

theorem erf (g : Guard) (d : Operand) (a : Operand) (ty : FTy) (fast : Bool) (rm : Rm) (nf : Bool) : Statement (.erf g d a ty fast rm nf) :=
  ofRaw (fun _ => by
    show rawOp _ = _
    simp [rawOp, encode, encFn, encF, decPage4, dFn, rd2])

theorem mld (g : Guard) (m : BitVec 4) (dbl : Bool) (base : Operand) (off : BitVec 22) : Statement (.mld g m dbl base off) :=
  ofRaw (fun h => by
    show rawOp _ = _
    simp [Instr.wf] at h
    have hm := fun q (hq : winOk dbl q = true) => win_le dbl q hq
    simp [rawOp, encode, decPage5, dMwin, h, hm])

theorem mst (g : Guard) (m : BitVec 4) (dbl : Bool) (base : Operand) (off : BitVec 22) : Statement (.mst g m dbl base off) :=
  ofRaw (fun h => by
    show rawOp _ = _
    simp [Instr.wf] at h
    have hm := fun q (hq : winOk dbl q = true) => win_le dbl q hq
    simp [rawOp, encode, decPage5, dMwin, h, hm])

theorem mset (g : Guard) (d : BitVec 4) (a : Operand) (b : Operand) (sh : Shape) (nf : Bool) : Statement (.mset g d a b sh nf) :=
  ofRaw (fun h => by
    show rawOp _ = _
    simp [Instr.wf] at h
    have hm := fun q (hq : winOk sh.dbl q = true) => win_le sh.dbl q hq
    simp [rawOp, encode, encF, decPage5, dMwin, h, hm])

theorem mmov (g : Guard) (d : BitVec 4) (a : BitVec 4) (sh : Shape) (nf : Bool) : Statement (.mmov g d a sh nf) :=
  ofRaw (fun h => by
    show rawOp _ = _
    simp [Instr.wf] at h
    have hm := fun q (hq : winOk sh.dbl q = true) => win_le sh.dbl q hq
    simp [rawOp, encode, encF, decPage5, dMwin, h, hm])

theorem mtr (g : Guard) (d : BitVec 4) (a : BitVec 4) (sh : Shape) (nf : Bool) : Statement (.mtr g d a sh nf) :=
  ofRaw (fun h => by
    show rawOp _ = _
    simp [Instr.wf] at h
    have hm := fun q (hq : winOk sh.dbl q = true) => win_le sh.dbl q hq
    simp [rawOp, encode, encF, decPage5, dMwin, h, hm])

theorem mmul (g : Guard) (d : BitVec 4) (a : BitVec 4) (b : BitVec 4) (k : BitVec 3) (sh : Shape) (nf : Bool) : Statement (.mmul g d a b k sh nf) :=
  ofRaw (fun h => by
    show rawOp _ = _
    simp [Instr.wf] at h
    have hm := fun q (hq : winOk sh.dbl q = true) => win_le sh.dbl q hq
    have hk := k.isLt
    have h1 : (928 + k.toNat) % 1024 = 928 + k.toNat := by omega
    have h2 : 929 ≤ 928 + k.toNat := by omega
    have h3 : 928 + k.toNat ≤ 934 := by omega
    simp [rawOp, encode, encF, decPage5, dMwin, h, hm, h1, h2, h3])

theorem mmad (g : Guard) (d : BitVec 4) (a : BitVec 4) (b : BitVec 4) (k : BitVec 3) (sh : Shape) (nf : Bool) : Statement (.mmad g d a b k sh nf) :=
  ofRaw (fun h => by
    show rawOp _ = _
    simp [Instr.wf] at h
    have hm := fun q (hq : winOk sh.dbl q = true) => win_le sh.dbl q hq
    have hk := k.isLt
    have h1 : (928 + k.toNat) % 1024 = 928 + k.toNat := by omega
    have h2 : 929 ≤ 928 + k.toNat := by omega
    have h3 : 928 + k.toNat ≤ 934 := by omega
    simp [rawOp, encode, encF, decPage5, dMwin, h, hm, h1, h2, h3])

theorem mmv (g : Guard) (d : BitVec 4) (a : BitVec 4) (b : BitVec 4) (acc : Bool) (sh : Shape) (nf : Bool) : Statement (.mmv g d a b acc sh nf) :=
  ofRaw (fun h => by
    show rawOp _ = _
    simp [Instr.wf] at h
    have hm := fun q (hq : winOk sh.dbl q = true) => win_le sh.dbl q hq
    simp [rawOp, encode, encF, decPage5, dMwin, h, hm])

theorem mchol (g : Guard) (d : BitVec 4) (a : BitVec 4) (sh : Shape) (nf : Bool) : Statement (.mchol g d a sh nf) :=
  ofRaw (fun h => by
    show rawOp _ = _
    simp [Instr.wf] at h
    have hm := fun q (hq : winOk sh.dbl q = true) => win_le sh.dbl q hq
    simp [rawOp, encode, encF, decPage5, dMwin, h, hm])

theorem mlup (g : Guard) (d : BitVec 4) (a : BitVec 4) (vp : BitVec 8) (sh : Shape) (nf : Bool) : Statement (.mlup g d a vp sh nf) :=
  ofRaw (fun h => by
    show rawOp _ = _
    simp [Instr.wf] at h
    have hm := fun q (hq : winOk sh.dbl q = true) => win_le sh.dbl q hq
    simp [rawOp, encode, encF, decPage5, dMwin, h, hm])

theorem mlus (g : Guard) (d : BitVec 4) (a : BitVec 4) (b : BitVec 4) (vp : Operand) (sh : Shape) (nf : Bool) : Statement (.mlus g d a b vp sh nf) :=
  ofRaw (fun h => by
    show rawOp _ = _
    simp [Instr.wf] at h
    have hm := fun q (hq : winOk sh.dbl q = true) => win_le sh.dbl q hq
    simp [rawOp, encode, encF, decPage5, dMwin, h, hm])

theorem mtrs (g : Guard) (d : BitVec 4) (a : BitVec 4) (b : BitVec 4) (mode : BitVec 2) (sh : Shape) (nf : Bool) : Statement (.mtrs g d a b mode sh nf) :=
  ofRaw (fun h => by
    show rawOp _ = _
    simp [Instr.wf] at h
    have hm := fun q (hq : winOk sh.dbl q = true) => win_le sh.dbl q hq
    have hk := mode.isLt
    have h1 : (928 + mode.toNat) % 1024 = 928 + mode.toNat := by omega
    have h3 : 928 + mode.toNat ≤ 930 := by omega
    simp [rawOp, encode, encF, decPage5, dMwin, h, hm, h1, h3])

theorem mdet (g : Guard) (d : BitVec 8) (a : BitVec 4) (sh : Shape) (nf : Bool) : Statement (.mdet g d a sh nf) :=
  ofRaw (fun h => by
    show rawOp _ = _
    simp [Instr.wf] at h
    have hm := fun q (hq : winOk sh.dbl q = true) => win_le sh.dbl q hq
    simp [rawOp, encode, encF, decPage5, dMwin, h, hm])

theorem ldN (d : BitVec 8) (m : Mem) : Statement (.ldN d m) :=
  ofRaw (fun _ => by
    show rawOp _ = _
    simp [rawOp, encode, encMem, decPage6, dLd, dSt, dLdx, dStx, dAtom])

theorem ldI (d : BitVec 8) (m : Mem) : Statement (.ldI d m) :=
  ofRaw (fun _ => by
    show rawOp _ = _
    simp [rawOp, encode, encMem, decPage6, dLd, dSt, dLdx, dStx, dAtom])

theorem st (data : Operand) (m : Mem) : Statement (.st data m) :=
  ofRaw (fun _ => by
    show rawOp _ = _
    simp [rawOp, encode, encMem, decPage6, dLd, dSt, dLdx, dStx, dAtom])

theorem ldSpN (d : BitVec 8) (m : Mem) : Statement (.ldSpN d m) :=
  ofRaw (fun _ => by
    show rawOp _ = _
    simp [rawOp, encode, encMem, decPage6, dLd, dSt, dLdx, dStx, dAtom])

theorem ldSpI (d : BitVec 8) (m : Mem) : Statement (.ldSpI d m) :=
  ofRaw (fun _ => by
    show rawOp _ = _
    simp [rawOp, encode, encMem, decPage6, dLd, dSt, dLdx, dStx, dAtom])

theorem stSp (data : Operand) (m : Mem) : Statement (.stSp data m) :=
  ofRaw (fun _ => by
    show rawOp _ = _
    simp [rawOp, encode, encMem, decPage6, dLd, dSt, dLdx, dStx, dAtom])

theorem ldWsN (d : BitVec 8) (m : Mem) : Statement (.ldWsN d m) :=
  ofRaw (fun _ => by
    show rawOp _ = _
    simp [rawOp, encode, encMem, decPage6, dLd, dSt, dLdx, dStx, dAtom])

theorem ldWsI (d : BitVec 8) (m : Mem) : Statement (.ldWsI d m) :=
  ofRaw (fun _ => by
    show rawOp _ = _
    simp [rawOp, encode, encMem, decPage6, dLd, dSt, dLdx, dStx, dAtom])

theorem ldSpPeekN (d : BitVec 8) (m : Mem) : Statement (.ldSpPeekN d m) :=
  ofRaw (fun _ => by
    show rawOp _ = _
    simp [rawOp, encode, encMem, decPage6, dLd, dSt, dLdx, dStx, dAtom])

theorem ldSpPeekI (d : BitVec 8) (m : Mem) : Statement (.ldSpPeekI d m) :=
  ofRaw (fun _ => by
    show rawOp _ = _
    simp [rawOp, encode, encMem, decPage6, dLd, dSt, dLdx, dStx, dAtom])

theorem ldxN (d : BitVec 8) (x : Idx) : Statement (.ldxN d x) :=
  ofRaw (fun _ => by
    show rawOp _ = _
    simp [rawOp, encode, encIdx, decPage6, dLd, dSt, dLdx, dStx, dAtom])

theorem ldxI (d : BitVec 8) (x : Idx) : Statement (.ldxI d x) :=
  ofRaw (fun _ => by
    show rawOp _ = _
    simp [rawOp, encode, encIdx, decPage6, dLd, dSt, dLdx, dStx, dAtom])

theorem stx (data : Operand) (x : Idx) : Statement (.stx data x) :=
  ofRaw (fun _ => by
    show rawOp _ = _
    simp [rawOp, encode, encIdx, decPage6, dLd, dSt, dLdx, dStx, dAtom])

theorem ldxSpN (d : BitVec 8) (x : Idx) : Statement (.ldxSpN d x) :=
  ofRaw (fun _ => by
    show rawOp _ = _
    simp [rawOp, encode, encIdx, decPage6, dLd, dSt, dLdx, dStx, dAtom])

theorem ldxSpI (d : BitVec 8) (x : Idx) : Statement (.ldxSpI d x) :=
  ofRaw (fun _ => by
    show rawOp _ = _
    simp [rawOp, encode, encIdx, decPage6, dLd, dSt, dLdx, dStx, dAtom])

theorem stxSp (data : Operand) (x : Idx) : Statement (.stxSp data x) :=
  ofRaw (fun _ => by
    show rawOp _ = _
    simp [rawOp, encode, encIdx, decPage6, dLd, dSt, dLdx, dStx, dAtom])

theorem ldu (d : BitVec 9) (m : Mem) : Statement (.ldu d m) :=
  ofRaw (fun _ => by
    show rawOp _ = _
    simp [rawOp, encode, encMem, decPage6, dLd, dSt, dLdx, dStx, dAtom])

theorem pref (g : Guard) (base : Operand) (l2 : Bool) (off : BitVec 22) : Statement (.pref g base l2 off) :=
  ofRaw (fun _ => by
    show rawOp _ = _
    simp [rawOp, encode, decPage6, dLd, dSt, dLdx, dStx, dAtom])

theorem lres (d : BitVec 8) (m : Mem) : Statement (.lres d m) :=
  ofRaw (fun _ => by
    show rawOp _ = _
    simp [rawOp, encode, encMem, decPage6, dLd, dSt, dLdx, dStx, dAtom])

theorem scond (g : Guard) (d : BitVec 8) (a : Operand) (b : Operand) (dbl : Bool) (order : Order) (scope : Scope) : Statement (.scond g d a b dbl order scope) :=
  ofRaw (fun _ => by
    show rawOp _ = _
    simp [rawOp, encode, encF, decPage6, dLd, dSt, dLdx, dStx, dAtom])

theorem atomAdd (x : Atom) : Statement (.atomAdd x) :=
  ofRaw (fun _ => by
    show rawOp _ = _
    simp [rawOp, encode, decPage6, dLd, dSt, dLdx, dStx, dAtom])

theorem atomMinI (x : Atom) : Statement (.atomMinI x) :=
  ofRaw (fun _ => by
    show rawOp _ = _
    simp [rawOp, encode, decPage6, dLd, dSt, dLdx, dStx, dAtom])

theorem atomMinN (x : Atom) : Statement (.atomMinN x) :=
  ofRaw (fun _ => by
    show rawOp _ = _
    simp [rawOp, encode, decPage6, dLd, dSt, dLdx, dStx, dAtom])

theorem atomMaxI (x : Atom) : Statement (.atomMaxI x) :=
  ofRaw (fun _ => by
    show rawOp _ = _
    simp [rawOp, encode, decPage6, dLd, dSt, dLdx, dStx, dAtom])

theorem atomMaxN (x : Atom) : Statement (.atomMaxN x) :=
  ofRaw (fun _ => by
    show rawOp _ = _
    simp [rawOp, encode, decPage6, dLd, dSt, dLdx, dStx, dAtom])

theorem atomAnd (x : Atom) : Statement (.atomAnd x) :=
  ofRaw (fun _ => by
    show rawOp _ = _
    simp [rawOp, encode, decPage6, dLd, dSt, dLdx, dStx, dAtom])

theorem atomOr (x : Atom) : Statement (.atomOr x) :=
  ofRaw (fun _ => by
    show rawOp _ = _
    simp [rawOp, encode, decPage6, dLd, dSt, dLdx, dStx, dAtom])

theorem atomXor (x : Atom) : Statement (.atomXor x) :=
  ofRaw (fun _ => by
    show rawOp _ = _
    simp [rawOp, encode, decPage6, dLd, dSt, dLdx, dStx, dAtom])

theorem atomXchg (x : Atom) : Statement (.atomXchg x) :=
  ofRaw (fun _ => by
    show rawOp _ = _
    simp [rawOp, encode, decPage6, dLd, dSt, dLdx, dStx, dAtom])

theorem atomCas (x : Atom) (c : Operand) : Statement (.atomCas x c) :=
  ofRaw (fun _ => by
    show rawOp _ = _
    simp [rawOp, encode, decPage6, dLd, dSt, dLdx, dStx, dAtom])

theorem atomIncwrap (x : Atom) : Statement (.atomIncwrap x) :=
  ofRaw (fun _ => by
    show rawOp _ = _
    simp [rawOp, encode, decPage6, dLd, dSt, dLdx, dStx, dAtom])

theorem atomSpAdd (x : Atom) : Statement (.atomSpAdd x) :=
  ofRaw (fun _ => by
    show rawOp _ = _
    simp [rawOp, encode, decPage6, dLd, dSt, dLdx, dStx, dAtom])

theorem atomSpMinI (x : Atom) : Statement (.atomSpMinI x) :=
  ofRaw (fun _ => by
    show rawOp _ = _
    simp [rawOp, encode, decPage6, dLd, dSt, dLdx, dStx, dAtom])

theorem atomSpMinN (x : Atom) : Statement (.atomSpMinN x) :=
  ofRaw (fun _ => by
    show rawOp _ = _
    simp [rawOp, encode, decPage6, dLd, dSt, dLdx, dStx, dAtom])

theorem atomSpMaxI (x : Atom) : Statement (.atomSpMaxI x) :=
  ofRaw (fun _ => by
    show rawOp _ = _
    simp [rawOp, encode, decPage6, dLd, dSt, dLdx, dStx, dAtom])

theorem atomSpMaxN (x : Atom) : Statement (.atomSpMaxN x) :=
  ofRaw (fun _ => by
    show rawOp _ = _
    simp [rawOp, encode, decPage6, dLd, dSt, dLdx, dStx, dAtom])

theorem atomSpAnd (x : Atom) : Statement (.atomSpAnd x) :=
  ofRaw (fun _ => by
    show rawOp _ = _
    simp [rawOp, encode, decPage6, dLd, dSt, dLdx, dStx, dAtom])

theorem atomSpOr (x : Atom) : Statement (.atomSpOr x) :=
  ofRaw (fun _ => by
    show rawOp _ = _
    simp [rawOp, encode, decPage6, dLd, dSt, dLdx, dStx, dAtom])

theorem atomSpXor (x : Atom) : Statement (.atomSpXor x) :=
  ofRaw (fun _ => by
    show rawOp _ = _
    simp [rawOp, encode, decPage6, dLd, dSt, dLdx, dStx, dAtom])

theorem atomSpXchg (x : Atom) : Statement (.atomSpXchg x) :=
  ofRaw (fun _ => by
    show rawOp _ = _
    simp [rawOp, encode, decPage6, dLd, dSt, dLdx, dStx, dAtom])

theorem atomSpCas (x : Atom) (c : Operand) : Statement (.atomSpCas x c) :=
  ofRaw (fun _ => by
    show rawOp _ = _
    simp [rawOp, encode, decPage6, dLd, dSt, dLdx, dStx, dAtom])

theorem atomSpIncwrap (x : Atom) : Statement (.atomSpIncwrap x) :=
  ofRaw (fun _ => by
    show rawOp _ = _
    simp [rawOp, encode, decPage6, dLd, dSt, dLdx, dStx, dAtom])

theorem fatomAdd (x : Atom) : Statement (.fatomAdd x) :=
  ofRaw (fun _ => by
    show rawOp _ = _
    simp [rawOp, encode, decPage6, dLd, dSt, dLdx, dStx, dAtom])

theorem fatomMin (x : Atom) : Statement (.fatomMin x) :=
  ofRaw (fun _ => by
    show rawOp _ = _
    simp [rawOp, encode, decPage6, dLd, dSt, dLdx, dStx, dAtom])

theorem fatomMax (x : Atom) : Statement (.fatomMax x) :=
  ofRaw (fun _ => by
    show rawOp _ = _
    simp [rawOp, encode, decPage6, dLd, dSt, dLdx, dStx, dAtom])

theorem fatomAddOrd (g : Guard) (a : Operand) (b : Operand) (dbl : Bool) : Statement (.fatomAddOrd g a b dbl) :=
  ofRaw (fun h => by
    show rawOp _ = _
    simp [rawOp, encode, encF, decPage6, dLd, dSt, dLdx, dStx, dAtom, rdAtom, check])

theorem fatomSpAdd (x : Atom) : Statement (.fatomSpAdd x) :=
  ofRaw (fun _ => by
    show rawOp _ = _
    simp [rawOp, encode, decPage6, dLd, dSt, dLdx, dStx, dAtom])

theorem fatomSpMin (x : Atom) : Statement (.fatomSpMin x) :=
  ofRaw (fun _ => by
    show rawOp _ = _
    simp [rawOp, encode, decPage6, dLd, dSt, dLdx, dStx, dAtom])

theorem fatomSpMax (x : Atom) : Statement (.fatomSpMax x) :=
  ofRaw (fun _ => by
    show rawOp _ = _
    simp [rawOp, encode, decPage6, dLd, dSt, dLdx, dStx, dAtom])

theorem ordf (m : Mem) : Statement (.ordf m) :=
  ofRaw (fun _ => by
    show rawOp _ = _
    simp [rawOp, encode, encMem, decPage6, dLd, dSt, dLdx, dStx, dAtom])

theorem fence (g : Guard) (order : Order) (scope : Scope) : Statement (.fence g order scope) :=
  ofRaw (fun _ => by
    show rawOp _ = _
    simp [rawOp, encode, decPage6, dLd, dSt, dLdx, dStx, dAtom])

theorem waita (g : Guard) (d : BitVec 8) (a : Operand) (b : Operand) (c : Operand) (dbl : Bool) (cond : WCond) (signed : Bool) (sp : Bool) : Statement (.waita g d a b c dbl cond signed sp) :=
  ofRaw (fun _ => by
    show rawOp _ = _
    simp [rawOp, encode, encF, decPage6, dLd, dSt, dLdx, dStx, dAtom])

theorem xcfg (g : Guard) (k : BitVec 2) (s : BitVec 9) : Statement (.xcfg g k s) :=
  ofRaw (fun h => by
    show rawOp _ = _
    have hk := k.isLt
    have h1 : k.toNat % 1024 = k.toNat := by omega
    have h2 : k.toNat ≤ 3 := by omega
    simp [rawOp, encode, encF, decPage7, dNum, h1, h2])

theorem xmov (g : Guard) (d : BitVec 8) (a : Operand) (k : BitVec 2) : Statement (.xmov g d a k) :=
  ofRaw (fun _ => by
    show rawOp _ = _
    simp [rawOp, encode, encF, decPage7, dNum])

theorem lread (g : Guard) (d : BitVec 8) (a : BitVec 8) (b : Operand) (c : Operand) (width : BitVec 2) : Statement (.lread g d a b c width) :=
  ofRaw (fun _ => by
    show rawOp _ = _
    simp [rawOp, encode, encF, decPage7, dNum])

theorem scan (g : Guard) (d : BitVec 8) (a : Operand) (seg : Option (BitVec 3)) (rm : Rm) (sat : Bool) (ty : DTy) (op : ScanOp) : Statement (.scan g d a seg rm sat ty op) :=
  ofRaw (fun h => by
    show rawOp _ = _
    cases seg <;> simp [rawOp, encode, encI, decPage7, dNum])

theorem redw (g : Guard) (d : Operand) (a : Operand) (rm : Rm) (sat : Bool) (ty : DTy) (op : ScanOp) : Statement (.redw g d a rm sat ty op) :=
  ofRaw (fun _ => by
    show rawOp _ = _
    simp [rawOp, encode, encI, decPage7, dNum])

theorem barArrive (g : Guard) (n : BitVec 8) : Statement (.barArrive g n) :=
  ofRaw (fun _ => by
    show rawOp _ = _
    simp [rawOp, encode, encNum, encI, decPage7, dNum])

theorem barWait (g : Guard) (n : BitVec 8) : Statement (.barWait g n) :=
  ofRaw (fun _ => by
    show rawOp _ = _
    simp [rawOp, encode, encNum, encI, decPage7, dNum])

theorem barSync (g : Guard) (n : BitVec 8) : Statement (.barSync g n) :=
  ofRaw (fun _ => by
    show rawOp _ = _
    simp [rawOp, encode, encNum, encI, decPage7, dNum])

theorem barx (g : Guard) (n : BitVec 8) (a : Operand) (ded : Bool) : Statement (.barx g n a ded) :=
  ofRaw (fun _ => by
    show rawOp _ = _
    simp [rawOp, encode, encI, decPage7, dNum])

theorem jset (g : Guard) (j : BitVec 4) : Statement (.jset g j) :=
  ofRaw (fun _ => by
    show rawOp _ = _
    simp [rawOp, encode, encNum, encI, decPage7, dNum])

theorem jsetUniform (g : Guard) (j : BitVec 4) (s : BitVec 9) : Statement (.jsetUniform g j s) :=
  ofRaw (fun _ => by
    show rawOp _ = _
    simp [rawOp, encode, encI, decPage7, dNum])

theorem join (g : Guard) (j : BitVec 4) : Statement (.join g j) :=
  ofRaw (fun _ => by
    show rawOp _ = _
    simp [rawOp, encode, encNum, encI, decPage7, dNum])

theorem jarr (g : Guard) (j : BitVec 4) : Statement (.jarr g j) :=
  ofRaw (fun _ => by
    show rawOp _ = _
    simp [rawOp, encode, encNum, encI, decPage7, dNum])

theorem jqry (g : Guard) (d : Operand) (j : BitVec 4) (sel : BitVec 2) : Statement (.jqry g d j sel) :=
  ofRaw (fun _ => by
    show rawOp _ = _
    simp [rawOp, encode, encI, decPage7, dNum])

theorem own (g : Guard) (d : BitVec 8) (a : Operand) (b : Operand) : Statement (.own g d a b) :=
  ofRaw (fun _ => by
    show rawOp _ = _
    simp [rawOp, encode, encF, decPage8])

theorem ringget (g : Guard) (q : BitVec 4) (a : Operand) (b : Operand) : Statement (.ringget g q a b) :=
  ofRaw (fun _ => by
    show rawOp _ = _
    simp [rawOp, encode, encF, decPage8])

theorem ringput (g : Guard) (q : BitVec 4) (a : Operand) : Statement (.ringput g q a) :=
  ofRaw (fun _ => by
    show rawOp _ = _
    simp [rawOp, encode, encF, decPage8])

theorem mxmac (g : Guard) (acc : Operand) (a : BitVec 9) (b : BitVec 9) (fmt : Operand) (str : BitVec 2) (j : BitVec 4) : Statement (.mxmac g acc a b fmt str j) :=
  ofRaw (fun _ => by
    show rawOp _ = _
    simp [rawOp, encode, encF, decPage8])

theorem mxsmac (g : Guard) (acc : Operand) (a : BitVec 9) (b : BitVec 9) (fmt : Operand) (str : BitVec 2) (j : BitVec 4) (resume : Bool) : Statement (.mxsmac g acc a b fmt str j resume) :=
  ofRaw (fun _ => by
    show rawOp _ = _
    simp [rawOp, encode, encF, decPage8])

theorem mxzero (g : Guard) (acc : Operand) (str : BitVec 2) (j : BitVec 4) : Statement (.mxzero g acc str j) :=
  ofRaw (fun _ => by
    show rawOp _ = _
    simp [rawOp, encode, encF, decPage8])

theorem mxwait (g : Guard) (d : BitVec 8) (mask : BitVec 4) : Statement (.mxwait g d mask) :=
  ofRaw (fun _ => by
    show rawOp _ = _
    simp [rawOp, encode, encF, decPage8])

theorem mxtokGive (g : Guard) (a : Operand) : Statement (.mxtokGive g a) :=
  ofRaw (fun _ => by
    show rawOp _ = _
    simp [rawOp, encode, encF, decPage8])

theorem mxtokTake (g : Guard) : Statement (.mxtokTake g) :=
  ofRaw (fun _ => by
    show rawOp _ = _
    simp [rawOp, encode, encF, decPage8])

theorem vswAdd (x : Sweep) : Statement (.vswAdd x) :=
  ofRaw (fun _ => by
    show rawOp _ = _
    simp [rawOp, encode, encSweep, encF, decPage9])

theorem vswMul (x : Sweep) : Statement (.vswMul x) :=
  ofRaw (fun _ => by
    show rawOp _ = _
    simp [rawOp, encode, encSweep, encF, decPage9])

theorem vswFma (x : Sweep) : Statement (.vswFma x) :=
  ofRaw (fun _ => by
    show rawOp _ = _
    simp [rawOp, encode, encSweep, encF, decPage9])

theorem vswMax (x : Sweep) : Statement (.vswMax x) :=
  ofRaw (fun _ => by
    show rawOp _ = _
    simp [rawOp, encode, encSweep, encF, decPage9])

theorem vswMin (x : Sweep) : Statement (.vswMin x) :=
  ofRaw (fun _ => by
    show rawOp _ = _
    simp [rawOp, encode, encSweep, encF, decPage9])

theorem vswExp (x : Sweep) : Statement (.vswExp x) :=
  ofRaw (fun _ => by
    show rawOp _ = _
    simp [rawOp, encode, encSweep, encF, decPage9])

theorem vswCvt (x : Sweep) : Statement (.vswCvt x) :=
  ofRaw (fun _ => by
    show rawOp _ = _
    simp [rawOp, encode, encSweep, encF, decPage9])

theorem vswScl (x : Sweep) : Statement (.vswScl x) :=
  ofRaw (fun _ => by
    show rawOp _ = _
    simp [rawOp, encode, encSweep, encF, decPage9])

theorem vswRsum (x : Sweep) : Statement (.vswRsum x) :=
  ofRaw (fun _ => by
    show rawOp _ = _
    simp [rawOp, encode, encSweep, encF, decPage9])

theorem vswRmax (x : Sweep) : Statement (.vswRmax x) :=
  ofRaw (fun _ => by
    show rawOp _ = _
    simp [rawOp, encode, encSweep, encF, decPage9])

theorem vswait (g : Guard) : Statement (.vswait g) :=
  ofRaw (fun h => by
    have hg : g = .always := by simpa [Instr.wf] using h
    subst hg
    decide)

theorem cpyIn (x : Copy) (ws : Bool) : Statement (.cpyIn x ws) :=
  ofRaw (fun _ => by
    show rawOp _ = _
    simp [rawOp, encode, encCopy, encF, decPage10])

theorem cpyOut (x : Copy) : Statement (.cpyOut x) :=
  ofRaw (fun _ => by
    show rawOp _ = _
    simp [rawOp, encode, encCopy, encF, decPage10])

theorem cpyRows (x : Copy) : Statement (.cpyRows x) :=
  ofRaw (fun _ => by
    show rawOp _ = _
    simp [rawOp, encode, encCopy, encF, decPage10])

theorem cpyFill (x : Copy) : Statement (.cpyFill x) :=
  ofRaw (fun _ => by
    show rawOp _ = _
    simp [rawOp, encode, encCopy, encF, decPage10])

theorem cpyWs (x : Copy) : Statement (.cpyWs x) :=
  ofRaw (fun _ => by
    show rawOp _ = _
    simp [rawOp, encode, encCopy, encF, decPage10])

theorem tspawn (g : Guard) (a : Operand) : Statement (.tspawn g a) :=
  ofRaw (fun _ => by
    show rawOp _ = _
    simp [rawOp, encode, encF, decPage11, dNum])

theorem tjob (g : Guard) (a : Operand) : Statement (.tjob g a) :=
  ofRaw (fun _ => by
    show rawOp _ = _
    simp [rawOp, encode, encF, decPage11, dNum])

theorem tdone (g : Guard) : Statement (.tdone g) :=
  ofRaw (fun _ => by
    show rawOp _ = _
    simp [rawOp, encode, encF, decPage11, dNum])

theorem tilereg (g : Guard) (d : BitVec 8) (a : Operand) (b : Operand) : Statement (.tilereg g d a b) :=
  ofRaw (fun _ => by
    show rawOp _ = _
    simp [rawOp, encode, encF, decPage11, dNum])

theorem tileq (g : Guard) (d : BitVec 8) (a : Operand) : Statement (.tileq g d a) :=
  ofRaw (fun _ => by
    show rawOp _ = _
    simp [rawOp, encode, encF, decPage11, dNum])

theorem tiledrop (g : Guard) (a : Operand) (b : Operand) : Statement (.tiledrop g a b) :=
  ofRaw (fun _ => by
    show rawOp _ = _
    simp [rawOp, encode, encF, decPage11, dNum])

theorem grow (g : Guard) (n : BitVec 3) : Statement (.grow g n) :=
  ofRaw (fun _ => by
    show rawOp _ = _
    simp [rawOp, encode, encNum, encI, decPage11, dNum])

theorem shed (g : Guard) (n : BitVec 3) : Statement (.shed g n) :=
  ofRaw (fun _ => by
    show rawOp _ = _
    simp [rawOp, encode, encNum, encI, decPage11, dNum])

theorem syscVersion (x : Call) : Statement (.syscVersion x) :=
  ofRaw (fun h => by
    show rawOp _ = _
    simp [rawOp, encode, encCall, encF, decPage12]
    rfl)

theorem syscAlloc (x : Call) : Statement (.syscAlloc x) :=
  ofRaw (fun h => by
    show rawOp _ = _
    simp [rawOp, encode, encCall, encF, decPage12]
    rfl)

theorem syscFree (x : Call) : Statement (.syscFree x) :=
  ofRaw (fun h => by
    show rawOp _ = _
    simp [rawOp, encode, encCall, encF, decPage12]
    rfl)

theorem syscPrint (x : Call) : Statement (.syscPrint x) :=
  ofRaw (fun h => by
    show rawOp _ = _
    simp [rawOp, encode, encCall, encF, decPage12]
    rfl)

theorem syscResolve (x : Call) : Statement (.syscResolve x) :=
  ofRaw (fun h => by
    show rawOp _ = _
    simp [rawOp, encode, encCall, encF, decPage12]
    rfl)

theorem syscNotify (x : Call) : Statement (.syscNotify x) :=
  ofRaw (fun h => by
    show rawOp _ = _
    simp [rawOp, encode, encCall, encF, decPage12]
    rfl)

theorem syscAbort (x : Call) : Statement (.syscAbort x) :=
  ofRaw (fun h => by
    show rawOp _ = _
    simp [rawOp, encode, encCall, encF, decPage12]
    rfl)

theorem syscCapread (x : Call) : Statement (.syscCapread x) :=
  ofRaw (fun h => by
    show rawOp _ = _
    simp [rawOp, encode, encCall, encF, decPage12]
    rfl)

theorem syscEscalate (x : Call) : Statement (.syscEscalate x) :=
  ofRaw (fun h => by
    show rawOp _ = _
    simp [rawOp, encode, encCall, encF, decPage12]
    rfl)

theorem syscUnassigned (n : BitVec 8) (x : Call) : Statement (.syscUnassigned n x) :=
  ofRaw (fun h => by
    show rawOp _ = _
    simp [Instr.wf] at h
    simp [rawOp, encode, encCall, encF, decPage12, syscOf]
    split <;> simp_all)

theorem trd (g : Guard) (d : BitVec 8) (a : Operand) (b : Operand) : Statement (.trd g d a b) :=
  ofRaw (fun _ => by
    show rawOp _ = _
    simp [rawOp, encode, encF, decPage12])

theorem twr (g : Guard) (a : Operand) (b : Operand) (c : Operand) : Statement (.twr g a b c) :=
  ofRaw (fun _ => by
    show rawOp _ = _
    simp [rawOp, encode, encF, decPage12])

theorem twrKill (g : Guard) (a : Operand) : Statement (.twrKill g a) :=
  ofStep rfl

theorem tret (g : Guard) : Statement (.tret g) :=
  ofRaw (fun _ => by
    show rawOp _ = _
    simp [rawOp, encode, encF, decPage12])

theorem bkpt (g : Guard) (n : BitVec 8) : Statement (.bkpt g n) :=
  ofRaw (fun _ => by
    show rawOp _ = _
    simp [rawOp, encode, encF, decPage12])

theorem ldq (g : Guard) (d : BitVec 8) (base : Operand) (off : BitVec 22) : Statement (.ldq g d base off) :=
  ofRaw (fun _ => by
    show rawOp _ = _
    simp [rawOp, encode, decPage15, dNum])

theorem dot4 (g : Guard) (d : BitVec 8) (a : Operand) (b : Operand) (c : Operand) (signed : Bool) : Statement (.dot4 g d a b c signed) :=
  ofRaw (fun h => by
    show rawOp _ = _
    cases signed <;> simp [rawOp, encode, encInt, encF, decPage15, dNum])

theorem barw (g : Guard) (n : BitVec 8) : Statement (.barw g n) :=
  ofRaw (fun _ => by
    show rawOp _ = _
    simp [rawOp, encode, encNum, encI, decPage15, dNum])

theorem hostCoreAccess (secure : Bool) (x : ExtAccess) : Statement (.hostCoreAccess secure x) :=
  ofStep rfl

theorem pcieEndpointAccess (x : ExtAccess) : Statement (.pcieEndpointAccess x) :=
  ofStep rfl

theorem peerPackageAccess (pkg : Nat) (x : ExtAccess) : Statement (.peerPackageAccess pkg x) :=
  ofStep rfl

theorem regionTableWrite (entry : Nat) (w0 : Word) (w1 : Word) : Statement (.regionTableWrite entry w0 w1) :=
  ofStep rfl

theorem domainBringUp (id : Nat) (members : BitVec 64) (ports : Ports) : Statement (.domainBringUp id members ports) :=
  ofStep rfl

theorem nop : Statement (.nop) :=
  ofRaw (fun _ => by decide)

theorem yield : Statement (.yield) :=
  ofRaw (fun _ => by decide)

theorem leafNext : Statement (.leafNext) :=
  ofRaw (fun _ => by
    show rawLeaf _ = _
    simp [rawLeaf, encode, encLeaf])

theorem leafRet : Statement (.leafRet) :=
  ofRaw (fun _ => by
    show rawLeaf _ = _
    simp [rawLeaf, encode, encLeaf])

theorem leafExit : Statement (.leafExit) :=
  ofRaw (fun _ => by
    show rawLeaf _ = _
    simp [rawLeaf, encode, encLeaf])

theorem ifence : Statement (.ifence) :=
  ofRaw (fun _ => by decide)

theorem clauseIssue : Statement (.clauseIssue) :=
  ofStep rfl

theorem serialIssue : Statement (.serialIssue) :=
  ofStep rfl

theorem subcoreGrant : Statement (.subcoreGrant) :=
  ofStep rfl

theorem warpSwap : Statement (.warpSwap) :=
  ofStep rfl

theorem stallLimitExpiry : Statement (.stallLimitExpiry) :=
  ofStep rfl

theorem holdLimitExpiry : Statement (.holdLimitExpiry) :=
  ofStep rfl

theorem loadCompletion : Statement (.loadCompletion) :=
  ofStep rfl

theorem storePerform : Statement (.storePerform) :=
  ofStep rfl

theorem atomicAtHome : Statement (.atomicAtHome) :=
  ofStep rfl

theorem orderedContributionArrival : Statement (.orderedContributionArrival) :=
  ofStep rfl

theorem ordfApplication : Statement (.ordfApplication) :=
  ofStep rfl

theorem commandAccept : Statement (.commandAccept) :=
  ofStep rfl

theorem commandComplete : Statement (.commandComplete) :=
  ofStep rfl

theorem waitaReread : Statement (.waitaReread) :=
  ofStep rfl

theorem waitaTimeout : Statement (.waitaTimeout) :=
  ofStep rfl

theorem growGrant : Statement (.growGrant) :=
  ofStep rfl

theorem wsRefreshSlot : Statement (.wsRefreshSlot) :=
  ofStep rfl

theorem launchRecordRead : Statement (.launchRecordRead) :=
  ofStep rfl

theorem blockAdmission : Statement (.blockAdmission) :=
  ofStep rfl

theorem cooperativeAdmission : Statement (.cooperativeAdmission) :=
  ofStep rfl

theorem gangStart : Statement (.gangStart) :=
  ofStep rfl

theorem launchCompletion : Statement (.launchCompletion) :=
  ofStep rfl

theorem seedbedDeal : Statement (.seedbedDeal) :=
  ofStep rfl

theorem softSave : Statement (.softSave) :=
  ofStep rfl

theorem gracePeriodExpiry : Statement (.gracePeriodExpiry) :=
  ofStep rfl

theorem blockImageWrite : Statement (.blockImageWrite) :=
  ofStep rfl

theorem restoreRetry : Statement (.restoreRetry) :=
  ofStep rfl

theorem handlerStart : Statement (.handlerStart) :=
  ofStep rfl

theorem correctedError : Statement (.correctedError) :=
  ofStep rfl

theorem scrubCorrection : Statement (.scrubCorrection) :=
  ofStep rfl

theorem uncorrectableError : Statement (.uncorrectableError) :=
  ofStep rfl

theorem pcieTimeout : Statement (.pcieTimeout) :=
  ofStep rfl

theorem peerUnreachable : Statement (.peerUnreachable) :=
  ofStep rfl

theorem l1LineEviction : Statement (.l1LineEviction) :=
  ofStep rfl

theorem ctxDestroy : Statement (.ctxDestroy) :=
  ofStep rfl

theorem dbgAttach : Statement (.dbgAttach) :=
  ofStep rfl

theorem dbgDetach : Statement (.dbgDetach) :=
  ofStep rfl

theorem peerApplicationRequest : Statement (.peerApplicationRequest) :=
  ofStep rfl

end Sys2Proof.Laws.RoundTrip
end

