-- ==== Sys2Proof/Safety.lean ====
section
/-! DEFINITION. What a safe step and a safe run are, and the terms in which claims speak of one syllable of a
clause: an issue that stands before it, a thread that performs it, and the state after. -/

namespace Sys2Proof.Machine

/-- The step answers a next state. -/
def Steps (s t : State) : Prop := step s = .next t

/-- `t` is reached from `s` by steps. -/
inductive Run : State → State → Prop where
  | refl (s : State) : Run s s
  | tail {s t u : State} : Run s t → Steps t u → Run s u

/-- No step of any run from `s` ends in a fault or a refusal. -/
def Safe (s : State) : Prop := ∀ t, Run s t → ∃ u, Steps t u

/-- Every byte memory is in canonical form (Ops.lean). -/
def State.memOk (s : State) : Prop :=
  Memory.wf s.mem = true ∧ Memory.wf s.scratch = true ∧ Memory.wf s.ws = true

/-! ### One syllable -/

/-- The issue in progress is at path `p` of warp `w`: the thread whose syllable the lane performs next, standing at
that syllable. -/
structure AtTurn (s : State) (iss : Issue) (w : Warp) (p : Path) : Prop where
  issue : s.issue = some iss
  warp  : s.warp? iss.warp = some w
  turn  : iss.runner = some p

/-- That thread performs instruction `i`: its guard is true, and nothing of R336, R337, R349 and R351 is wrong
with the syllable before the instruction's own effect. -/
structure Performs (i : Instr) (g : Guard) (s : State) (iss : Issue) (w : Warp) (p : Path) : Prop extends
    AtTurn s iss w p where
  guard : p.guard g = true
  right : s.judge iss w p i true false = none

/-- Every path of the issue that goes on stands at a collective, and no verdict on the issue as a whole faults one
(R56, R228, R360). -/
structure Before (s : State) (iss : Issue) (w : Warp) : Prop where
  issue : s.issue = some iss
  warp  : s.warp? iss.warp = some w
  turn  : iss.runner = none
  clear : ∀ p ∈ iss.paths, s.verdict iss w p = none

/-- The state after a syllable that took its thread's path to `q`: the path has passed the syllable, and nothing
else changes. -/
def State.after (s : State) (iss : Issue) (q : Path) : State :=
  { s with issue := some (iss.setPath { q with next := q.next + 1 }) }

/-- Instruction `i` with guard `g` and weight `wt` writes register `d` and does nothing else: its value is one
that `R` permits. -/
def WritesTo (i : Instr) (g : Guard) (wt : Nat) (d : Operand)
    (R : State → Issue → Warp → Path → Word → Prop) : Prop :=
  ∀ s iss w p, Performs i g s iss w p →
    ∃ x, R s iss w p x ∧ exec i s = .next (s.after iss ((p.setDst d x).weigh wt))

/-- Element k of a source, as an integer operation reads it through its type (R131). -/
def State.srcI (s : State) (iss : Issue) (w : Warp) (p : Path) (ty : ITy) (o : Operand) (k : Nat) : Int :=
  elemI ty (s.rdI iss w p ty o) k

/-- Element k of a source as an unsigned field. -/
def State.srcU (s : State) (iss : Issue) (w : Warp) (p : Path) (ty : ITy) (o : Operand) (k : Nat) : Nat :=
  fieldAt (s.rdI iss w p ty o) (wI ty) k

/-- Element k of a float source after its modifiers, as a code (R78, R110). -/
def State.srcF (s : State) (iss : Issue) (w : Warp) (p : Path) (ty : FTy) (x : FSrc) (k : Nat) : Nat :=
  modCode (fmtOf ty) x.neg x.abs (fieldAt (s.rdF iss w p ty x.o) (fmtOf ty).width k)

/-- What a condition says of two elements, as integers A and B and as fields U and V (R51, R144). -/
def CondSays (c : Cond) (A B : Int) (U V : Nat) : Prop :=
  match c with
  | .eq => A = B
  | .ne => A ≠ B
  | .lt => A < B
  | .le => A ≤ B
  | .gt => B < A
  | .ge => B ≤ A
  | .un => False
  | .or => True
  | .tst => U &&& V ≠ 0
  | .tcl => U &&& V = 0

/-- What a condition says of two codes of a format (R158): every ordering fails on a NaN. -/
def CondSaysF (c : Cond) (F : Fmt) (x y : Nat) : Prop :=
  match c with
  | .eq => fCmp F x y = some .eq
  | .ne => fCmp F x y ≠ some .eq
  | .lt => fCmp F x y = some .lt
  | .le => fCmp F x y = some .lt ∨ fCmp F x y = some .eq
  | .gt => fCmp F x y = some .gt
  | .ge => fCmp F x y = some .gt ∨ fCmp F x y = some .eq
  | .un => F.isNaN x = true ∨ F.isNaN y = true
  | .or => F.isNaN x = false ∧ F.isNaN y = false
  | .tst | .tcl => False

/-- The bits of a register that a type covers (R131). -/
def bitsOf : DTy → Nat
  | .i t => wI t * t.count
  | .f .f32 => 32
  | .f _ => 64

/-- The bits above a scalar element copy its sign (R131). -/
def signedD : DTy → Bool
  | .i t => t.signed
  | .f _ => false

/-- Bit n of `x` is `f n` as far as the type reaches, and the rest extends it (R131, R138). -/
structure HoldsBits (ty : DTy) (f : Nat → Bool) (x : Word) : Prop where
  bit : ∀ n, n < bitsOf ty → x.getLsbD n = f n
  ext : ∀ n, bitsOf ty ≤ n → n < 64 → x.getLsbD n = (signedD ty && x.getLsbD (bitsOf ty - 1))

/-- An exact result as an element of the type holds it: reduced modulo 2^w, read signed or unsigned (R132). -/
def wrapI (ty : ITy) (x : Int) : Int := if ty.signed then x.bmod (2 ^ wI ty) else x % 2 ^ wI ty

/-- `x` is a result written through the type (R131): element k holds `f k` reduced, and under a scalar type the
element is extended to 64 bits. -/
structure Holds (ty : ITy) (f : Nat → Int) (x : Word) : Prop where
  elem  : ∀ k, k < ty.count → elemI ty x k = wrapI ty (f k)
  whole : ty.count = 1 → x = BitVec.ofInt 64 (elemI ty x 0)

/-- Instruction `i` with guard `g` and weight `wt` takes its thread's path to `f`, and does nothing else. -/
def Moves (i : Instr) (g : Guard) (wt : Nat) (f : State → Issue → Warp → Path → Path) : Prop :=
  ∀ s iss w p, Performs i g s iss w p → exec i s = .next (s.after iss ((f s iss w p).weigh wt))

/-- Instruction `i` with guard `g` and weight `wt` writes a code for each element of float type `ty` to
register `d`, raises the flags of all of them unless `nf`, and does nothing else: code and flags of element k
are what `R` permits. -/
def WritesF (i : Instr) (g : Guard) (wt : Nat) (d : Operand) (ty : FTy) (nf : Bool)
    (R : State → Issue → Warp → Path → Nat → Nat × Flags → Prop) : Prop :=
  ∀ s iss w p, Performs i g s iss w p →
    ∃ xs : List (Nat × Flags), xs.length = ty.count ∧ (∀ k (h : k < xs.length), R s iss w p k xs[k])
      ∧ exec i s = .next (s.after iss ((p.fpDst d ty nf xs).weigh wt))

/-- Instruction `i` checks n bytes at its address and leaves a load on its path: the load is read at the end of the
issue, or held while its bank is refreshed, and writes register `d`, zero- or sign-extended, when it completes (R57,
R180, R183). -/
def LoadsInto (i : Instr) (m : Guard) (a : Access) (sx : Bool) (d : BitVec 8) (o : Order) (sc : Scope)
    (va : State → Issue → Warp → Path → Word) : Prop :=
  ∀ s iss w p pl, Performs i m s iss w p →
    s.access iss w p { a with va := va s iss w p, flag := iss.setA } = .ok pl →
    let l : Load :=
      { warp := iss.warp, block := w.block, thread := p.t, dst := .v d, flag := iss.setA, val := none, bytes := a.n,
        sx := sx, held := s.refreshing iss p pl, peek := !a.owner, how := ⟨o, sc, false⟩, place := pl,
        va := va s iss w p, clause := iss.addr }
    exec i s = .next (s.after iss ({ p with fx := p.fx ++ [Fx.load l] }.weigh 1))

/-- What a path sends to its warp's queue at `pl` when its clause commits. -/
def sentBy (iss : Issue) (p : Path) (k : StKind) (pl : Place) (va : Word) (o : Order) (sc : Scope) : StItem :=
  { kind := k, place := pl, va := va, order := o, scope := sc, warp := iss.warp, thread := p.t }

/-- Instruction `i` stores n bytes of `data` at its address: they are on its path, where its own later loads see
them, and enter its warp's queue when the clause commits (R60, R180). -/
def StoresTo (i : Instr) (m : Guard) (spc : Space) (n : Nat) (o : Order) (sc : Scope) (data : Operand)
    (va : State → Issue → Warp → Path → Word) : Prop :=
  ∀ s iss w p pl, Performs i m s iss w p →
    s.access iss w p ⟨spc, .w, true, n, va s iss w p, none, false, true⟩ = .ok pl →
    let b := leBytes n (s.rd iss w p data).toNat
    exec i s = .next (s.after iss ({ p with
      fx := p.fx ++ [Fx.item (sentBy iss p (.store b) pl (va s iss w p) o sc)] }.weigh 1))

/-- Instruction `i` with guard `g` and weight `wt` is a collective (R56, R67): of the threads that stand at it, those
whose guard is true participate; each writes `d` with a value that `R` permits, given the participants as they
stand before any result, and a stretch of the issue's cost ends. -/
def Collects (i : Instr) (g : Guard) (wt : Nat) (d : Operand)
    (R : State → Issue → Warp → List Path → Path → Word → Prop) : Prop :=
  ∀ s iss w, Before s iss w →
    (∀ p ∈ iss.paths, ∀ q, iss.stand p = some q → s.judge iss w q i (q.guard g) false = none) →
    let q (p : Path) : Path := (iss.stand p).getD p
    let on (p : Path) : Bool := (iss.stand p).isSome && (q p).guard g
    let parts := (iss.paths.filter on).map q
    ∃ X : Path → Word, (∀ p ∈ parts, R s iss w parts p (X p))
      ∧ exec i s = .next { s with issue := some { iss with
        paths := iss.paths.map (fun p =>
          { (if on p then ((q p).setDst d (X (q p))).pass else if (iss.stand p).isSome then (q p).pass else p) with
            weight := 0 })
        cost := iss.cost + stretchCost (iss.paths.map (fun p =>
          if on p then (q p).weigh wt else if (iss.stand p).isSome then (q p).weigh 1 else p)) } }

/-- Instruction `i` sends a command of the opcode to its unit when its clause commits, if its descriptors are
good and its flag has room (R211, R212, R58). -/
def Sends (i : Instr) (g : Guard) (opcode : Nat) (dst : Option (BitVec 8))
    (body : State → Issue → Warp → Path → CmdBody) : Prop :=
  ∀ s iss w p, Performs i g s iss w p → (body s iss w p).ok (s.windowSize iss.warp w) = true →
    p.overflows iss.setB = false →
    exec i s = .next (s.after iss ({ p with
      fx := p.fx ++ [Fx.cmd (iss.cmd w p opcode (body s iss w p) dst)] }.weigh 1))

/-- What follows a step of the machine at once: the ends of blocks (R253), the early ends that have been decided
(R376), and the lanes' records of time (R43). -/
def State.followed (t : State) : State := t.endBlocks.reap.endBlocks.noteAll

/-- The call `i` of the control interface, once the compute dies are released (R316), takes a state that meets `ok`
to `f` of it. -/
def Calls (i : Instr) (ok : State → Prop) (f : State → State) : Prop :=
  ∀ s, s.issue = none → s.released = true → ok s → exec i s = .next (f s).followed

/-- The machine's own step `i`, with no issue in the way, takes a state that meets `ok` to `f` of it. -/
def Acts (i : Instr) (ok : State → Prop) (f : State → State) : Prop :=
  ∀ s, s.issue = none → ok s → exec i s = .next (f s).followed

end Sys2Proof.Machine
end

