-- ==== Sys2Proof/Certificates/Slice0/Obligations.lean ====
section
/-! DEFINITION. The statements for the provers (OBLIGATIONS.json). -/

open Sys2Proof Sys2Proof.Machine

/-! ### Integer arithmetic -/

/-- R132, R134, R136: ADD, SUB, MUL, MULH, MAD, MIN, MAX, ABS and NEG compute each element exactly, clamp it under
.sat, and write it through the type; weight 1, and nothing else changes. MADW's sum is of 64 bits; that an inline integer
as its c is sign-extended to them is the model's choice (notes/assumptions/52). -/
def Obligations.IntegerArithmetic : Prop := ∀ g d a b c ty sat,
  WritesTo (.add g d a b ty sat) g 1 d (fun s iss w p =>
    Holds ty (fun k => satI ty sat (s.srcI iss w p ty a k + s.srcI iss w p ty b k)))
  ∧ WritesTo (.sub g d a b ty sat) g 1 d (fun s iss w p =>
    Holds ty (fun k => satI ty sat (s.srcI iss w p ty a k - s.srcI iss w p ty b k)))
  ∧ WritesTo (.mul g d a b ty sat) g 1 d (fun s iss w p =>
    Holds ty (fun k => satI ty sat (s.srcI iss w p ty a k * s.srcI iss w p ty b k)))
  ∧ WritesTo (.mulh g d a b ty) g 1 d (fun s iss w p =>
    Holds ty (fun k => (s.srcI iss w p ty a k * s.srcI iss w p ty b k).fdiv (2 ^ wI ty)))
  ∧ WritesTo (.mad g d a b c ty sat) g 1 d (fun s iss w p =>
    Holds ty (fun k => satI ty sat (s.srcI iss w p ty a k * s.srcI iss w p ty b k + s.srcI iss w p ty c k)))
  ∧ WritesTo (.min g d a b ty) g 1 d (fun s iss w p =>
    Holds ty (fun k => min (s.srcI iss w p ty a k) (s.srcI iss w p ty b k)))
  ∧ WritesTo (.max g d a b ty) g 1 d (fun s iss w p =>
    Holds ty (fun k => max (s.srcI iss w p ty a k) (s.srcI iss w p ty b k)))
  ∧ WritesTo (.abs g d a ty sat) g 1 d (fun s iss w p =>
    Holds ty (fun k => satI ty sat |s.srcI iss w p ty a k|))
  ∧ WritesTo (.neg g d a ty sat) g 1 d (fun s iss w p =>
    Holds ty (fun k => satI ty sat (-s.srcI iss w p ty a k)))
  ∧ WritesTo (.madw g d a b c true sat) g 1 d (fun s iss w p x =>
    x = BitVec.ofInt 64 (satI .i64 sat (sgnOf 32 (s.rdI iss w p .i64 a).toNat
      * sgnOf 32 (s.rdI iss w p .i64 b).toNat + (s.rdI iss w p .i64 c).toInt)))
  ∧ WritesTo (.madw g d a b c false sat) g 1 d (fun s iss w p x =>
    x = BitVec.ofInt 64 (satI .n64 sat (((s.rdI iss w p .i64 a).toNat % 2 ^ 32
      * ((s.rdI iss w p .i64 b).toNat % 2 ^ 32) + (s.rdI iss w p .i64 c).toNat : Nat))))

/-- R79, R80, R134, R137–R139: the immediate forms are the register forms with the sign-extended immediate read
through the type; LEA's, the logic and the shift forms work on 64 bits: a count of 64 or more leaves nothing of an
SHL or SHR and the sign of an SAR, and ROTL takes it modulo 64. -/
def Obligations.ImmediateForms : Prop := ∀ g d a ty (imm : BitVec 29),
  WritesTo (.addImm g d a ty imm) g 1 d (fun s iss w p =>
    Holds ty.ty (fun k => s.srcI iss w p ty.ty a k + elemI ty.ty (imm.signExtend 64) k))
  ∧ WritesTo (.subRevImm g d a ty imm) g 1 d (fun s iss w p =>
    Holds ty.ty (fun k => elemI ty.ty (imm.signExtend 64) k - s.srcI iss w p ty.ty a k))
  ∧ WritesTo (.mulImm g d a ty imm) g 1 d (fun s iss w p =>
    Holds ty.ty (fun k => s.srcI iss w p ty.ty a k * elemI ty.ty (imm.signExtend 64) k))
  ∧ WritesTo (.minImm g d a ty imm) g 1 d (fun s iss w p =>
    Holds ty.ty (fun k => min (s.srcI iss w p ty.ty a k) (elemI ty.ty (imm.signExtend 64) k)))
  ∧ WritesTo (.maxImm g d a ty imm) g 1 d (fun s iss w p =>
    Holds ty.ty (fun k => max (s.srcI iss w p ty.ty a k) (elemI ty.ty (imm.signExtend 64) k)))
  ∧ WritesTo (.leaImm g d a imm) g 1 d (fun s iss w p x => x = s.rdI iss w p .i64 a + imm.signExtend 64)
  ∧ WritesTo (.andImm g d a imm) g 1 d (fun s iss w p x => x = s.rdI iss w p .n64 a &&& imm.signExtend 64)
  ∧ WritesTo (.orImm g d a imm) g 1 d (fun s iss w p x => x = s.rdI iss w p .n64 a ||| imm.signExtend 64)
  ∧ WritesTo (.xorImm g d a imm) g 1 d (fun s iss w p x => x = s.rdI iss w p .n64 a ^^^ imm.signExtend 64)
  ∧ WritesTo (.andnImm g d a imm) g 1 d (fun s iss w p x => x = s.rdI iss w p .n64 a &&& ~~~(imm.signExtend 64))
  ∧ WritesTo (.shlImm g d a imm) g 1 d (fun s iss w p x =>
    x = s.rdI iss w p .n64 a <<< (imm.signExtend 64 : Word).toNat)
  ∧ WritesTo (.shrImm g d a imm) g 1 d (fun s iss w p x =>
    x = s.rdI iss w p .n64 a >>> (imm.signExtend 64 : Word).toNat)
  ∧ WritesTo (.sarImm g d a imm) g 1 d (fun s iss w p x =>
    x = (s.rdI iss w p .n64 a).sshiftRight (imm.signExtend 64 : Word).toNat)
  ∧ WritesTo (.rotlImm g d a imm) g 1 d (fun s iss w p x =>
    x = (s.rdI iss w p .n64 a).rotateLeft (imm.signExtend 64 : Word).toNat)

/-- R135–R137: DIV truncates and REM keeps the dividend's sign; a zero divisor gives REM its dividend and DIV all
ones, or the bound under .sat; the one quotient out of range wraps, or clamps under .sat; weight 4 for scalar
types of at most 32 bits, 8 for the others. MADW multiplies 32 by 32 bits into 64 and adds 64 (an inline integer as c is
in IntegerArithmetic); LEA adds a shifted index to a 64-bit base. -/
def Obligations.DivisionAndWideMultiply : Prop :=
  (∀ g d a b ty sat,
    WritesTo (.div g d a b ty sat) g (if ty.scalar && wI ty ≤ 32 then 4 else 8) d (fun s iss w p x =>
      (∀ k, k < ty.count →
        let n := s.srcI iss w p ty a k
        let m := s.srcI iss w p ty b k
        (m ≠ 0 → ¬(ty.signed = true ∧ n = loI ty ∧ m = -1) → elemI ty x k = n.tdiv m)
        ∧ (m = 0 → ty.signed = false → elemI ty x k = hiI ty)
        ∧ (m = 0 → ty.signed = true → elemI ty x k = if sat then (if 0 ≤ n then hiI ty else loI ty) else -1)
        ∧ (ty.signed = true → n = loI ty → m = -1 → elemI ty x k = if sat then hiI ty else loI ty))
      ∧ (ty.count = 1 → x = BitVec.ofInt 64 (elemI ty x 0)))
    ∧ WritesTo (.rem g d a b ty) g (if ty.scalar && wI ty ≤ 32 then 4 else 8) d (fun s iss w p x =>
      (∀ k, k < ty.count →
        let n := s.srcI iss w p ty a k
        let m := s.srcI iss w p ty b k
        (m ≠ 0 → elemI ty x k = n.tmod m) ∧ (m = 0 → elemI ty x k = n))
      ∧ (ty.count = 1 → x = BitVec.ofInt 64 (elemI ty x 0))))
  ∧ (∀ g d a b c ty sat,
    ((∀ n, c ≠ .int n) → WritesTo (.madw g d a b c true sat) g 1 d (fun s iss w p x =>
      x = BitVec.ofInt 64 (satI .i64 sat
        (sgnOf 32 (s.rdI iss w p .i64 a).toNat * sgnOf 32 (s.rdI iss w p .i64 b).toNat
          + (s.rdI iss w p .i64 c).toInt)))
      ∧ WritesTo (.madw g d a b c false sat) g 1 d (fun s iss w p x =>
      x = BitVec.ofInt 64 (satI .n64 sat
        (((s.rdI iss w p .i64 a).toNat % 2 ^ 32 * ((s.rdI iss w p .i64 b).toNat % 2 ^ 32)
          + (s.rdI iss w p .i64 c).toNat : Nat)))))
    ∧ WritesTo (.lea g d a b c ty) g 1 d (fun s iss w p x =>
      x = s.rd iss w p a
        + BitVec.ofInt 64 (s.srcI iss w p ty b 0 * 2 ^ ((s.rd iss w p c).toNat % 64))))

/-! ### Logic, shifts, bit fields, moves -/

/-- R138: AND, OR, XOR, ANDN under any type and TRUTH on 64 bits, bit by bit; entry a + 2b + 4c of TRUTH's
table. -/
def Obligations.LogicByBit : Prop := ∀ g d a b c ty tbl,
  WritesTo (.and g d a b ty) g 1 d (fun s iss w p => HoldsBits ty (fun n =>
    (s.rdD iss w p ty a).getLsbD n && (s.rdD iss w p ty b).getLsbD n))
  ∧ WritesTo (.or g d a b ty) g 1 d (fun s iss w p => HoldsBits ty (fun n =>
    (s.rdD iss w p ty a).getLsbD n || (s.rdD iss w p ty b).getLsbD n))
  ∧ WritesTo (.xor g d a b ty) g 1 d (fun s iss w p => HoldsBits ty (fun n =>
    (s.rdD iss w p ty a).getLsbD n != (s.rdD iss w p ty b).getLsbD n))
  ∧ WritesTo (.andn g d a b ty) g 1 d (fun s iss w p => HoldsBits ty (fun n =>
    (s.rdD iss w p ty a).getLsbD n && !(s.rdD iss w p ty b).getLsbD n))
  ∧ WritesTo (.truth g d a b c tbl) g 1 d (fun s iss w p x => ∀ n, n < 64 →
    x.getLsbD n = tbl.getLsbD (((s.rdI iss w p .i64 a).getLsbD n).toNat
      + 2 * ((s.rdI iss w p .i64 b).getLsbD n).toNat + 4 * ((s.rdI iss w p .i64 c).getLsbD n).toNat))

/-- R139: shifts by a count read as unsigned: a count of the width or more leaves nothing of an SHL or SHR and
the sign of an SAR; ROTL and FSHL take it modulo the width. -/
def Obligations.Shifts : Prop := ∀ g d a b c ty im,
  WritesTo (.shl g d a b ty) g 1 d (fun s iss w p =>
    Holds ty (fun k => if s.srcU iss w p ty b k < wI ty then
      (s.srcU iss w p ty a k * 2 ^ s.srcU iss w p ty b k : Nat) else 0))
  ∧ WritesTo (.shr g d a b ty) g 1 d (fun s iss w p =>
    Holds ty (fun k => (s.srcU iss w p ty a k / 2 ^ s.srcU iss w p ty b k : Nat)))
  ∧ WritesTo (.sar g d a b ty) g 1 d (fun s iss w p =>
    Holds ty (fun k => (sgnOf (wI ty) (s.srcU iss w p ty a k)).fdiv
      (2 ^ min (wI ty) (s.srcU iss w p ty b k))))
  ∧ WritesTo (.rotl g d a b ty) g 1 d (fun s iss w p =>
    Holds ty (fun k =>
      let n := s.srcU iss w p ty b k % wI ty
      (s.srcU iss w p ty a k * 2 ^ n + s.srcU iss w p ty a k / 2 ^ (wI ty - n) : Nat)))
  ∧ WritesTo (.fshl g d a b c im) g 1 d (fun s iss w p =>
    Holds im.ty (fun k =>
      ((s.srcU iss w p im.ty a k * 2 ^ wI im.ty + s.srcU iss w p im.ty b k)
        * 2 ^ (s.srcU iss w p im.ty c k % wI im.ty) / 2 ^ wI im.ty : Nat)))

/-- R140, R141: BFX takes a field out, BFI puts one in; POPC counts ones; CLZ and CTZ count the zeros above and
below the outermost one; BREV reverses. That an inline integer as BFI's b or c is read sign-extended to 64 bits is the
model's choice (notes/assumptions/52). -/
def Obligations.BitFieldsAndCounts : Prop := ∀ g d a b c ty,
  (ty.scalar = true → WritesTo (.bfx g d a b c ty) g 1 d (fun s iss w p =>
    Holds ty (fun k =>
      let pos := (s.rd iss w p b).toNat % 256
      let len := (s.rd iss w p c).toNat % 256
      let x := ((s.srcI iss w p ty a k).fdiv (2 ^ pos) % 2 ^ min len (wI ty))
      if ty.signed ∧ 0 < len ∧ len < wI ty then x.bmod (2 ^ len) else x)))
  ∧ (ty.scalar = true → WritesTo (.bfi g d a b c ty) g 1 d (fun s iss w p x =>
    (∀ n, n < wI ty →
      let pos := (s.rd iss w p c).toNat % 256
      let len := (s.rd iss w p c).toNat / 256 % 256
      x.getLsbD n = if pos ≤ n ∧ n < pos + len then (s.rd iss w p b).getLsbD (n - pos)
        else (s.rdI iss w p ty a).getLsbD n)
    ∧ x = BitVec.ofInt 64 (elemI ty x 0)))
  ∧ WritesTo (.popc g d a ty) g 1 d (fun s iss w p =>
    Holds ty (fun k => ((List.range (wI ty)).countP (fun n => (s.srcU iss w p ty a k).testBit n) : Nat)))
  ∧ WritesTo (.clz g d a ty) g 1 d (fun s iss w p x => ∃ z : Nat → Nat,
    Holds ty (fun k => (z k : Int)) x ∧ ∀ k, z k ≤ wI ty ∧ s.srcU iss w p ty a k < 2 ^ (wI ty - z k)
      ∧ (z k < wI ty → 2 ^ (wI ty - z k - 1) ≤ s.srcU iss w p ty a k))
  ∧ WritesTo (.ctz g d a ty) g 1 d (fun s iss w p x => ∃ z : Nat → Nat,
    Holds ty (fun k => (z k : Int)) x ∧ ∀ k, z k ≤ wI ty
      ∧ (∀ n, n < z k → (s.srcU iss w p ty a k).testBit n = false)
      ∧ (z k < wI ty → (s.srcU iss w p ty a k).testBit (z k) = true))
  ∧ WritesTo (.brev g d a ty) g 1 d (fun s iss w p x => ∃ r : Nat → Nat,
    Holds ty (fun k => (r k : Int)) x ∧ ∀ k n, n < wI ty →
      (r k).testBit n = (s.srcU iss w p ty a k).testBit (wI ty - 1 - n))

/-- R142, R143, R146: MOV under a type, MOVI's two forms, MOVHI over the destination's low half, SEL by a
depth, PGET of all depths. -/
def Obligations.MovesAndSelect : Prop := ∀ g d a b ty k (imm : BitVec 29) (wide : BitVec 32),
  WritesTo (.mov g d a ty) g 1 d (fun s iss w p => HoldsBits ty (fun n => (s.rdD iss w p ty a).getLsbD n))
  ∧ WritesTo (.movi g d imm) g 1 d (fun _ _ _ _ x => x = imm.signExtend 64)
  ∧ WritesTo (.moviW g d wide) g 1 d (fun _ _ _ _ x => x = wide.zeroExtend 64)
  ∧ WritesTo (.movhi g d wide) g 1 d (fun s iss w p x =>
    x.extractLsb' 32 32 = wide ∧ x.extractLsb' 0 32 = (s.rd iss w p d).extractLsb' 0 32)
  ∧ WritesTo (.sel g d a b k) g 1 d (fun s iss w p x =>
    x = if p.th.d.getLsbD k.toNat then s.rd iss w p a else s.rd iss w p b)
  ∧ WritesTo (.pget g d) g 1 d (fun _ _ _ p x => x = p.th.d.zeroExtend 64)

/-! ### Conditions, the predicate stack, special registers -/

/-- R51, R53, R144, R158: CMP, its immediate form and FCMP push their condition; FCMP raises NV for a signalling NaN,
and for any NaN under an ordering. A test sends its thread to child 2n + 1 of node n when its condition holds, else
to 2n; it writes nothing. -/
def Obligations.ComparesAndTests : Prop :=
  (∀ g c a b ty (imm : BitVec 29) dbl nf,
    (∀ s iss w p, Performs (.cmp g c a b ty) g s iss w p → ∃ x : Bool,
      (x = true ↔ CondSays c (s.srcI iss w p ty a 0) (s.srcI iss w p ty b 0) (s.srcU iss w p ty a 0)
        (s.srcU iss w p ty b 0))
      ∧ exec (.cmp g c a b ty) s = .next (s.after iss ((p.push x).weigh 1)))
    ∧ (∀ s iss w p, Performs (.cmpImm g c a ty imm) g s iss w p → ∃ x : Bool,
      (x = true ↔ CondSays c (s.srcI iss w p ty a 0) (elemI ty (imm.signExtend 64) 0) (s.srcU iss w p ty a 0)
        (fieldAt (imm.signExtend 64) (wI ty) 0))
      ∧ exec (.cmpImm g c a ty imm) s = .next (s.after iss ((p.push x).weigh 1)))
    ∧ (∀ s iss w p, Performs (.fcmp g c a b dbl nf) g s iss w p →
      let ty : FTy := if dbl then .f64 else .f32
      let u := fieldAt (s.rdF iss w p ty a) (fmtOf ty).width 0
      let v := fieldAt (s.rdF iss w p ty b) (fmtOf ty).width 0
      ∃ (x : Bool) (fl : Flags), (x = true ↔ CondSaysF c (fmtOf ty) u v)
        ∧ (fl = flNV ↔ ((fmtOf ty).isSNaN u = true ∨ (fmtOf ty).isSNaN v = true
          ∨ ((c = .lt ∨ c = .le ∨ c = .gt ∨ c = .ge) ∧ ((fmtOf ty).isNaN u = true ∨ (fmtOf ty).isNaN v = true))))
        ∧ (fl = flNV ∨ fl = 0)
        ∧ exec (.fcmp g c a b dbl nf) s = .next (s.after iss (((p.push x).raise nf fl).weigh 1))))
  ∧ (∀ c a b ti tf (imm : BitVec 24) clr k,
    (∀ s iss w p, Performs (.testCmpReg c a b (.i ti)) .always s iss w p → ∃ x : Bool,
      (x = true ↔ CondSays c (s.srcI iss w p ti a 0) (s.srcI iss w p ti b 0) (s.srcU iss w p ti a 0)
        (s.srcU iss w p ti b 0))
      ∧ exec (.testCmpReg c a b (.i ti)) s
        = .next (s.after iss ({ p with pos := 2 * p.pos + x.toNat }.weigh 1)))
    ∧ (∀ s iss w p, Performs (.testCmpReg c a b (.f tf)) .always s iss w p → ∃ x : Bool,
      (x = true ↔ CondSaysF c (fmtOf tf) (fieldAt (s.rdF iss w p tf a) (fmtOf tf).width 0)
        (fieldAt (s.rdF iss w p tf b) (fmtOf tf).width 0))
      ∧ exec (.testCmpReg c a b (.f tf)) s
        = .next (s.after iss ({ p with pos := 2 * p.pos + x.toNat }.weigh 1)))
    ∧ (∀ s iss w p, Performs (.testCmpImm c a ti imm) .always s iss w p → ∃ x : Bool,
      (x = true ↔ CondSays c (s.srcI iss w p ti a 0) (elemI ti (imm.signExtend 64) 0) (s.srcU iss w p ti a 0)
        (fieldAt (imm.signExtend 64) (wI ti) 0))
      ∧ exec (.testCmpImm c a ti imm) s
        = .next (s.after iss ({ p with pos := 2 * p.pos + x.toNat }.weigh 1)))
    ∧ (∀ s iss w p, Performs (.testPred clr k) .always s iss w p →
      exec (.testPred clr k) s = .next (s.after iss
        ({ p with pos := 2 * p.pos + (if p.th.d.getLsbD k.toNat = clr then 0 else 1) }.weigh 1))))

/-- R145, R146: a push moves every depth one down and puts the new value at depth 0; PCOMB pushes the entry of
its table that its three depths select; PDROP removes n depths and false enters below; PSET sets all of them. -/
def Obligations.PredicateStack : Prop :=
  (∀ (p : Path) (x : Bool), (p.push x).th.d.getLsbD 0 = x
    ∧ (∀ k, k < 7 → (p.push x).th.d.getLsbD (k + 1) = p.th.d.getLsbD k)
    ∧ (p.push x).th.v = p.th.v ∧ (p.push x).fx = p.fx ∧ (p.push x).pos = p.pos)
  ∧ ∀ g (tbl : BitVec 8) x y z n a,
    Moves (.pcomb g tbl x y z) g 1 (fun _ _ _ p => p.push (tbl.getLsbD
      (4 * (p.th.d.getLsbD x.toNat).toNat + 2 * (p.th.d.getLsbD y.toNat).toNat + (p.th.d.getLsbD z.toNat).toNat)))
    ∧ (∀ s iss w p, Performs (.pdrop g n) g s iss w p → ∃ d : BitVec 8,
      (∀ k, k < 8 → d.getLsbD k = p.th.d.getLsbD (k + n.toNat))
      ∧ exec (.pdrop g n) s = .next (s.after iss ({ p with th := { p.th with d := d } }.weigh 1)))
    ∧ Moves (.pset g a) g 1 (fun s iss w p => { p with th := { p.th with d := (s.rd iss w p a).setWidth 8 } })

/-- R74, R149, R151, R241, R242: SRD reads the special register whose number its source gives (h registers only in the
trap handler), SWR writes $frame, $rsp, $flags or, there, an h register. NOP does nothing; YIELD marks its thread
when the clause commits; IFENCE acts then too; BKPT traps then if its warp's breakpoints are enabled, and does
nothing in the trap handler or in a save or restore routine. -/
def Obligations.SpecialRegistersAndHints : Prop :=
  (∀ g d a,
    (∀ s iss w p r, Performs (.srd g d a) g s iss w p →
      Special.ofCode ((s.rd iss w p a).toNat % 128) = some r → (∀ k, r = .h k → p.t = 32) →
      exec (.srd g d a) s = .next (s.after iss ((p.setDst (.v d) (s.special iss w p r)).weigh 1)))
    ∧ Moves (.swr g .frame a) g 1 (fun s iss w p => { p with th := { p.th with frame := s.rd iss w p a } })
    ∧ Moves (.swr g .rsp a) g 1 (fun s iss w p => { p with th := { p.th with rsp := s.rd iss w p a } })
    ∧ (∀ s iss w p, Performs (.swr g .flags a) g s iss w p → (s.rd iss w p a).toNat < 128 →
      exec (.swr g .flags a) s
        = .next (s.after iss ({ p with th := { p.th with flags := (s.rd iss w p a).setWidth 7 } }.weigh 1)))
    ∧ ∀ k, Moves (.swr g (.h k) a) g 1 (fun s iss w p => { p with h := p.h.set 0 k.toNat (s.rd iss w p a) }))
  ∧ (∀ g n,
    Moves .nop .always 1 (fun _ _ _ p => p)
    ∧ Moves .yield .always 1 (fun _ _ _ p => { p with fx := p.fx ++ [.yield] })
    ∧ Moves .ifence .always 1 (fun _ _ _ p => { p with fx := p.fx ++ [.ifence] })
    ∧ Moves (.bkpt g n) g 1 (fun _ _ w p =>
      if w.dbg.bkpt = true ∧ w.freeze = none ∧ w.save = none then { p with fx := p.fx ++ [.bkpt (p.next + 1) n] }
      else p))

/-- R63, R64, R96, R336, R337: NEXT goes on after the clause; JMP and JMPI to their target; CALL and CALLI push the address
after the clause first, in the return stack while it holds fewer than four entries, else a store of its oldest entry,
8 bytes below $rsp, enters the store queue when the thread commits. RET pops the stack, refills from $rsp when it is
empty and entries have spilled, and faults with kind 15 when none is left. EXIT and TRAP end the path; the PC that they
leave is the model's choice (notes/assumptions/58). A target of all ones, RESOLVE's reply for an unbound import,
faults with kind 8 as R96 says (notes/assumptions/48); any other target that is no multiple of 8 faults with kind 7
(so one that is also out of the address space, R337), one only out of the address space with 8; a fault of the spill's
or refill's access is the leaf's. A leaf weighs nothing. -/
def Obligations.Leaves : Prop := ∀ (off : BitVec 32) (r : Operand) (code : BitVec 12),
  let done (i : Instr) (ok : State → Issue → Warp → Path → Prop) (f : State → Issue → Warp → Path → Path) : Prop :=
    ∀ s iss w p, Performs i .always s iss w p → ok s iss w p → exec i s = .next (s.after iss (f s iss w p))
  let faults (i : Instr) (ok : State → Issue → Warp → Path → PFault → Prop) : Prop :=
    ∀ s iss w p f, Performs i .always s iss w p → ok s iss w p f →
      exec i s = .next (s.after iss { p with fault := some f })
  let next (iss : Issue) : Addr56 := iss.addr + BitVec.ofNat 56 (8 * (1 + iss.words.length))
  let go (p : Path) (a : Addr56) : Path := { p with leaf := some (.go a) }
  let rel (iss : Issue) : Addr56 := iss.addr + BitVec.ofInt 56 (8 * off.toInt)
  let good (x : Word) : Prop := x.toNat % 8 = 0 ∧ x.toNat < 2 ^ 56
  let push (p : Path) (a : Addr56) : Path := { p with th := { p.th with ret := a :: p.th.ret } }
  let spill (s : State) (iss : Issue) (w : Warp) (p : Path) : Except PFault Place :=
    s.access iss w p ⟨.global, .w, false, 8, p.th.rsp - 8, none, false, true⟩
  let spilt (iss : Issue) (p : Path) (pl : Place) (a : Addr56) : Path := { p with
    th := { p.th with rsp := p.th.rsp - 8, spill := p.th.spill + 1, ret := a :: p.th.ret.take 3 }
    fx := p.fx ++ [Fx.item (sentBy iss p (.store (leBytes 8 (p.th.ret.getLastD 0).toNat)) pl (p.th.rsp - 8) .plain .core)] }
  let refill (s : State) (iss : Issue) (w : Warp) (p : Path) : Except PFault Place :=
    s.access iss w p ⟨.global, .r, false, 8, p.th.rsp, none, true, false⟩
  (done .leafNext (fun _ _ _ _ => True) (fun _ iss _ p => go p (next iss))
    ∧ done (.leafJmp off) (fun _ _ _ _ => True) (fun _ iss _ p => go p (rel iss))
    ∧ done (.leafJmpi r) (fun s iss w p => good (s.rd iss w p r))
      (fun s iss w p => go p ((s.rd iss w p r).setWidth 56))
    ∧ done (.leafCall off) (fun _ iss _ p => iss.addr.toNat % 8 = 0 ∧ p.th.ret.length < 4)
      (fun _ iss _ p => go (push p (next iss)) (rel iss))
    ∧ done (.leafCalli r) (fun s iss w p => good (s.rd iss w p r) ∧ p.th.ret.length < 4)
      (fun s iss w p => go (push p (next iss)) ((s.rd iss w p r).setWidth 56))
    ∧ done .leafRet (fun _ _ _ p => p.th.ret ≠ [])
      (fun _ _ _ p => go { p with th := { p.th with ret := p.th.ret.drop 1 } } (p.th.ret.headD 0))
    ∧ done .leafExit (fun _ _ _ _ => True)
      (fun _ iss _ p => { p with leaf := some .exit, th := { p.th with pc := next iss } })
    ∧ done (.leafTrap code) (fun _ _ _ _ => True)
      (fun _ iss _ p => { p with leaf := some (.trap code), th := { p.th with pc := next iss } }))
  ∧ (∀ pl,
    done (.leafCall off) (fun s iss w p => iss.addr.toNat % 8 = 0 ∧ 4 ≤ p.th.ret.length ∧ spill s iss w p = .ok pl)
      (fun _ iss _ p => go (spilt iss p pl (next iss)) (rel iss))
    ∧ done (.leafCalli r) (fun s iss w p => good (s.rd iss w p r) ∧ 4 ≤ p.th.ret.length ∧ spill s iss w p = .ok pl)
      (fun s iss w p => go (spilt iss p pl (next iss)) ((s.rd iss w p r).setWidth 56))
    ∧ ∀ s iss w p, Performs .leafRet .always s iss w p → p.th.ret = [] → p.th.spill ≠ 0 → refill s iss w p = .ok pl →
      let l : Load :=
        { warp := iss.warp, block := w.block, thread := p.t, dst := .pc, flag := none, val := none, bytes := 8,
          sx := false, held := false, how := ⟨.plain, .core, false⟩, place := pl, va := p.th.rsp, clause := iss.addr }
      exec .leafRet s = .next (s.after iss { p with
        th := { p.th with rsp := p.th.rsp + 8, spill := p.th.spill - 1 }
        fx := p.fx ++ [Fx.load l], leaf := some .refill }))
  ∧ (faults (.leafCall off) (fun s iss w p f => iss.addr.toNat % 8 = 0 ∧ 4 ≤ p.th.ret.length ∧ spill s iss w p = .error f)
    ∧ faults (.leafCalli r) (fun s iss w p f => good (s.rd iss w p r) ∧ 4 ≤ p.th.ret.length
      ∧ spill s iss w p = .error f)
    ∧ faults .leafRet (fun s iss w p f => p.th.ret = [] ∧ p.th.spill ≠ 0 ∧ refill s iss w p = .error f)
    ∧ faults .leafRet (fun _ _ _ p f => p.th.ret = [] ∧ p.th.spill = 0 ∧ f = ⟨15, p.next + 1, none, 0⟩)
    ∧ (∀ s iss w p f, p.th.rsp.toNat % 8 ≠ 0 → spill s iss w p = .error f ∨ refill s iss w p = .error f → f.kind = 7)
    ∧ faults (.leafJmpi r) (fun s iss w p f => (s.rd iss w p r).toNat % 8 ≠ 0 ∧ s.rd iss w p r ≠ BitVec.allOnes 64
      ∧ f = ⟨7, p.next + 1, none, s.rd iss w p r⟩)
    ∧ faults (.leafCalli r) (fun s iss w p f => (s.rd iss w p r).toNat % 8 ≠ 0 ∧ s.rd iss w p r ≠ BitVec.allOnes 64
      ∧ f = ⟨7, p.next + 1, none, s.rd iss w p r⟩)
    ∧ faults (.leafJmpi r) (fun s iss w p f => (s.rd iss w p r).toNat % 8 = 0 ∧ 2 ^ 56 ≤ (s.rd iss w p r).toNat
      ∧ f = ⟨8, p.next + 1, none, s.rd iss w p r⟩)
    ∧ faults (.leafCalli r) (fun s iss w p f => (s.rd iss w p r).toNat % 8 = 0 ∧ 2 ^ 56 ≤ (s.rd iss w p r).toNat
      ∧ p.th.ret.length < 4 ∧ f = ⟨8, p.next + 1, none, s.rd iss w p r⟩)
    ∧ faults (.leafJmpi r) (fun s iss w p f => s.rd iss w p r = BitVec.allOnes 64
      ∧ f = ⟨8, p.next + 1, none, BitVec.allOnes 64⟩)
    ∧ faults (.leafCalli r) (fun s iss w p f => s.rd iss w p r = BitVec.allOnes 64
      ∧ p.th.ret.length < 4 ∧ f = ⟨8, p.next + 1, none, BitVec.allOnes 64⟩))

/-! ### Floating point -/

/-- R153–R157: FADD, FMUL, FMA, FMIN, FMAX, FRND, FSCALE, FCLASS and FEXPO give each element its code and raise
its flags: one rounding for the first three, the class as a mask; FSCALE's b is a v or uniform register, read in
elements of the type's width, or an inline integer, its value for every element (R72). -/
def Obligations.FloatArithmetic : Prop := ∀ g d a b c negc ty rm num nf (o : BitVec 8) (u : BitVec 9) (n : BitVec 6),
  let F := fmtOf ty
  WritesF (.fadd g d a b ty rm nf) g 1 d ty nf (fun s iss w p k r =>
    r = fAdd F rm false (s.srcF iss w p ty a k) (s.srcF iss w p ty b k))
  ∧ WritesF (.fmul g d a b ty rm nf) g 1 d ty nf (fun s iss w p k r =>
    r = fMul F rm (s.srcF iss w p ty a k) (s.srcF iss w p ty b k))
  ∧ WritesF (.fma g d a b c negc ty rm nf) g 1 d ty nf (fun s iss w p k r =>
    r = fFma F rm (s.srcF iss w p ty a k) (s.srcF iss w p ty b k) (s.srcF iss w p ty ⟨c, negc, false⟩ k))
  ∧ WritesF (.fmin g d a b ty num nf) g 1 d ty nf (fun s iss w p k r =>
    r = fSelect F false num (s.srcF iss w p ty a k) (s.srcF iss w p ty b k))
  ∧ WritesF (.fmax g d a b ty num nf) g 1 d ty nf (fun s iss w p k r =>
    r = fSelect F true num (s.srcF iss w p ty a k) (s.srcF iss w p ty b k))
  ∧ WritesF (.frnd g d a ty rm nf) g 1 d ty nf (fun s iss w p k r => r = fRound F rm (s.srcF iss w p ty a k))
  ∧ (ty.arith = true → WritesF (.fscale g d a (.v o) ty rm nf) g 1 d ty nf (fun s iss w p k r =>
      r = fScaleE F rm (s.srcF iss w p ty a k) (sgnOf F.width (fieldAt (p.th.v.get 0 o.toNat) F.width k)))
    ∧ WritesF (.fscale g d a (.s u) ty rm nf) g 1 d ty nf (fun s iss w p k r =>
      r = fScaleE F rm (s.srcF iss w p ty a k) (sgnOf F.width (fieldAt (iss.entryS.get 0 u.toNat) F.width k)))
    ∧ WritesF (.fscale g d a (.int n) ty rm nf) g 1 d ty nf (fun s iss w p k r =>
      r = fScaleE F rm (s.srcF iss w p ty a k) (inlineInt n)))
  ∧ WritesF (.fclass g d a ty nf) g 1 d ty nf (fun s iss w p k r =>
    r = (2 ^ fClass F (s.srcF iss w p ty a k), 0))
  ∧ WritesF (.fexpo g d a ty nf) g 1 d ty nf (fun s iss w p k r => r = fExpo F (s.srcF iss w p ty a k))

/-- R124, R131: what a float result leaves: element k of the destination is the code of element k, bits beyond the
elements are zero (a scalar .f32's 63:32), and $flags takes every element's flags, or none under .nf. -/
def Obligations.FloatResults : Prop := ∀ (p : Path) (r : BitVec 8) (ty : FTy) (nf : Bool)
    (xs : List (Nat × Flags)), xs.length = ty.count →
  (∀ k (h : k < xs.length), fieldAt ((p.fpDst (.v r) ty nf xs).th.v.get 0 r.toNat) (fmtOf ty).width k
    = xs[k].1 % 2 ^ (fmtOf ty).width)
  ∧ ((p.fpDst (.v r) ty nf xs).th.v.get 0 r.toNat).toNat < 2 ^ ((fmtOf ty).width * ty.count)
  ∧ (∀ n, (p.fpDst (.v r) ty nf xs).th.flags.getLsbD n
    = (p.th.flags.getLsbD n || (!nf && xs.any (fun x => x.2.getLsbD n))))
  ∧ (∀ n, n ≠ r.toNat → (p.fpDst (.v r) ty nf xs).th.v.get 0 n = p.th.v.get 0 n)
  ∧ (p.fpDst (.v r) ty nf xs).th.d = p.th.d ∧ (p.fpDst (.v r) ty nf xs).fx = p.fx

/-- R113: rounding the magnitude m × 2^e, e < q, to a multiple of u = 2^q in each mode; inexact exactly when it
is no multiple. -/
def Obligations.RoundingModes : Prop := ∀ (neg : Bool) (m n : Nat) (e : Int),
  let x : Ex := ⟨neg, m, e, false⟩
  let u := 2 ^ (n + 1)
  let y (rm : Rm) := (roundTo rm x (e + (n + 1 : Nat))).1
  (y .rtz * u ≤ m ∧ m < y .rtz * u + u)
  ∧ (m ≤ y .rdn * u + (if neg then 0 else u - 1) ∧ y .rdn * u ≤ m + (if neg then u - 1 else 0))
  ∧ (m ≤ y .rup * u + (if neg then u - 1 else 0) ∧ y .rup * u ≤ m + (if neg then 0 else u - 1))
  ∧ (2 * m ≤ 2 * (y .rne * u) + u ∧ 2 * (y .rne * u) ≤ 2 * m + u
    ∧ ((2 * m = 2 * (y .rne * u) + u ∨ 2 * (y .rne * u) = 2 * m + u) → y .rne % 2 = 0))
  ∧ (2 * m < 2 * (y .rna * u) + u ∧ 2 * (y .rna * u) ≤ 2 * m + u)
  ∧ ∀ rm, (roundTo rm x (e + (n + 1 : Nat))).2 = true ↔ m % u ≠ 0

/-- R115, R117: in every format and mode, a sum of zeros of one sign keeps it, any other zero sum is +0 but −0
under RDN; a product of zero has the exclusive OR of the signs; the first NaN operand is returned quieted,
with NV exactly for a signalling one; ∞ − ∞, 0 × ∞ and ∞ × 0 give the canonical NaN with NV. -/
def Obligations.ZerosAndNaNs : Prop := ∀ (F : Fmt) (rm : Rm) (a b : Nat) (x y : Bool) (m n : Nat) (e f : Int),
  (dec F a = .fin x 0 e → dec F b = .fin y 0 f →
    fAdd F rm false a b = (signBit F (if x = y then x else decide (rm = .rdn)), 0))
  ∧ (dec F a = .fin x m e → dec F b = .fin (!x) m e → m ≠ 0 →
    fAdd F rm false a b = (signBit F (decide (rm = .rdn)), 0))
  ∧ (dec F a = .fin x m e → dec F b = .fin y n f → m * n = 0 → fMul F rm a b = (signBit F (x != y), 0))
  ∧ (F.isNaN a = true → (fAdd F rm false a b).1 = F.quiet a ∧ (fMul F rm a b).1 = F.quiet a)
  ∧ (F.isNaN a = false → F.isNaN b = true →
    (fAdd F rm false a b).1 = F.quiet b ∧ (fMul F rm a b).1 = F.quiet b)
  ∧ (F.isNaN a = true ∨ F.isNaN b = true →
    (fAdd F rm false a b).2 = (if F.isSNaN a || F.isSNaN b then flNV else 0))
  ∧ (dec F a = .inf x → dec F b = .inf (!x) → fAdd F rm false a b = (F.canonNaN, flNV))
  ∧ (dec F a = .inf x → dec F b = .fin y 0 f → fMul F rm a b = (F.canonNaN, flNV))
  ∧ (dec F a = .fin x 0 e → dec F b = .inf y → fMul F rm a b = (F.canonNaN, flNV))

/-- R160: FCVT, CVTI and CVTF convert the group of elements that `part` selects; a wider destination count keeps
the other elements of the merge register; the flags of the converted elements are raised, and bits beyond a float
destination's elements are zero. That an inline integer under .e4m3, .e5m2 and .e2m1 stands for its value, in an .e2m1
block under the block's scale, whether the format holds it or not, and what it is as the merge source, is the model's
choice (notes/assumptions/46 and 52). -/
def Obligations.Conversions : Prop := ∀ g d a b c (fd fs : FTy) (id is : ITy) rm sat nf,
  let group (n m w p : Nat) (merge : Word) (conv : Nat → Nat × Flags) (i : Nat) : Nat :=
    if m ≤ n then (conv (p % (n / m) * m + i)).1
    else if p % (m / n) * n ≤ i ∧ i < p % (m / n) * n + n then (conv (i - p % (m / n) * n)).1
    else fieldAt merge w i
  let raised (n m p : Nat) (conv : Nat → Nat × Flags) : Flags :=
    if m ≤ n then orFlags ((List.range m).map (fun i => conv (p % (n / m) * m + i)))
    else orFlags ((List.range n).map conv)
  let whole (ctl : Word) (fs : FTy) (k : Int) : FVal :=
    if fs ≠ .e2m1 then .fin (k < 0) k.natAbs 0
    else if ctl.toNat / 2 ^ 8 % 256 = 255 then .nan false 0
    else .fin (k < 0) k.natAbs (((ctl.toNat / 2 ^ 8 % 256 : Nat) : Int) - 127)
  let fits (x : Word) : Prop := x.toNat < 2 ^ ((fmtOf fd).width * fd.count)
  (∀ ty n, exactInt ty (.int n) = if ty = .e4m3 ∨ ty = .e5m2 ∨ ty = .e2m1 then some (inlineInt n) else none)
  ∧ (∀ n m e (ctl : Word), fd ≠ .e2m1 → cvVF fd rm sat ctl (.fin n m e) = rnd (fmtOf fd) rm sat ⟨n, m, e, false⟩)
  ∧ (∀ s iss w p, Performs (.fcvt g d a b c fd fs rm sat nf) g s iss w p →
    let ctl := s.rd iss w p c
    let part := ctl.toNat % 16
    let conv (i : Nat) := match exactInt fs a with
      | some k => cvVF fd rm sat ctl (whole ctl fs k)
      | none => cvFF fd fs rm sat ctl (fieldAt (s.rdF iss w p fs a) (fmtOf fs).width i)
    ∃ x : Word, (∀ i, i < fd.count → fieldAt x (fmtOf fd).width i
        = group fs.count fd.count (fmtOf fd).width part (s.rdF iss w p fd b) conv i % 2 ^ (fmtOf fd).width) ∧ fits x
      ∧ exec (.fcvt g d a b c fd fs rm sat nf) s = .next (s.after iss
        (((p.setDst d x).raise nf (raised fs.count fd.count part conv)).weigh 1)))
  ∧ (∀ s iss w p, Performs (.cvti g d a b c id fs rm sat nf) g s iss w p →
    let ctl := s.rd iss w p c
    let part := ctl.toNat % 16
    let conv (i : Nat) := match exactInt fs a with
      | some k => valToInt rm sat id.signed (wI id) (whole ctl fs k)
      | none => cvFI id fs rm sat ctl (fieldAt (s.rdF iss w p fs a) (fmtOf fs).width i)
    ∃ x : Word, Holds id (fun i => (group fs.count id.count (wI id) part (s.rdI iss w p id b) conv i : Nat)) x
      ∧ exec (.cvti g d a b c id fs rm sat nf) s = .next (s.after iss
        (((p.setDst d x).raise nf (raised fs.count id.count part conv)).weigh 1)))
  ∧ (∀ s iss w p, Performs (.cvtf g d a b c fd is rm sat nf) g s iss w p →
    let ctl := s.rd iss w p c
    let part := ctl.toNat % 16
    let conv (i : Nat) := cvIF fd rm sat ctl (s.srcI iss w p is a i)
    ∃ x : Word, (∀ i, i < fd.count → fieldAt x (fmtOf fd).width i
        = group is.count fd.count (fmtOf fd).width part (s.rdF iss w p fd b) conv i % 2 ^ (fmtOf fd).width) ∧ fits x
      ∧ exec (.cvtf g d a b c fd is rm sat nf) s = .next (s.after iss
        (((p.setDst d x).raise nf (raised is.count fd.count part conv)).weigh 1)))

/-- R161, R162: each special function gives each element its result in its grade, with its weight: the packed
forms twice the .f32 figure of the grade. -/
def Obligations.SpecialFunctions : Prop := ∀ g d a b ty fast rm nf,
  let one (f : Fn) (s : State) (iss : Issue) (w : Warp) (p : Path) (k : Nat) (r : Nat × Flags) : Prop :=
    let x := fieldAt (s.rdF iss w p ty a) (fmtOf ty).width k
    r = fnElem (fmtOf ty) f fast rm x x
  let wt (q acc : Nat) : Nat :=
    match ty with
    | .f64 => if fast then q else 2 * acc
    | .f32 => if fast then q else acc
    | _ => 2 * (if fast then q else acc)
  WritesF (.rcp g d a ty fast rm nf) g (wt 1 3) d ty nf (one .rcp)
  ∧ WritesF (.rsq g d a ty fast rm nf) g (wt 1 3) d ty nf (one .rsq)
  ∧ WritesF (.sqrt g d a ty fast rm nf) g (wt 1 3) d ty nf (one .sqrt)
  ∧ WritesF (.divF g d a b ty fast rm nf) g (wt 2 4) d ty nf (fun s iss w p k r =>
    r = fnElem (fmtOf ty) .div fast rm (fieldAt (s.rdF iss w p ty a) (fmtOf ty).width k)
      (fieldAt (s.rdF iss w p ty b) (fmtOf ty).width k))
  ∧ WritesF (.exp2 g d a ty fast rm nf) g (wt 1 4) d ty nf (one .exp2)
  ∧ WritesF (.log2 g d a ty fast rm nf) g (wt 1 4) d ty nf (one .log2)
  ∧ WritesF (.sin g d a ty fast rm nf) g (wt 2 6) d ty nf (one .sin)
  ∧ WritesF (.cos g d a ty fast rm nf) g (wt 2 6) d ty nf (one .cos)
  ∧ WritesF (.tanh g d a ty fast rm nf) g (wt 2 6) d ty nf (one .tanh)
  ∧ WritesF (.sigm g d a ty fast rm nf) g (wt 2 6) d ty nf (one .sigm)
  ∧ WritesF (.erf g d a ty fast rm nf) g (wt 2 8) d ty nf (one .erf)

/-- R161: special cases of the special functions in the formats of pages 3 and 4, in both grades and all modes; `one`
is the code of 1, and an operand below zero one that .fast does not flush. -/
def Obligations.FunctionSpecialCases : Prop := ∀ F ∈ [fp64, fp32, fp16, bf16], ∀ (fast : Bool) (rm : Rm) (z b : Bool)
    (x : Nat) (m : Nat) (e : Int),
  let zr := signBit F z
  let inf := F.infCode z
  let one (n : Bool) : Nat := encFin F n 1 0
  let f (k : Fn) (a : Nat) : Nat × Flags := fnElem F k fast rm a a
  let nan : Nat × Flags := (F.canonNaN, flNV)
  let finite (n : Bool) : Prop := dec F x = .fin n m e ∧ m ≠ 0 ∧ (fast = true → flushOp F x = x)
  (f .rcp zr = (inf, flDZ) ∧ f .rcp inf = (zr, 0))
  ∧ (f .rsq zr = (inf, flDZ) ∧ f .rsq (F.infCode false) = (0, 0) ∧ f .rsq (F.infCode true) = nan
    ∧ (finite true → f .rsq x = nan))
  ∧ (f .sqrt zr = (zr, 0) ∧ f .sqrt (F.infCode false) = (F.infCode false, 0) ∧ f .sqrt (F.infCode true) = nan
    ∧ (finite true → f .sqrt x = nan))
  ∧ (fnElem F .div fast rm zr (signBit F b) = nan ∧ fnElem F .div fast rm inf (F.infCode b) = nan
    ∧ fnElem F .div fast rm inf (signBit F b) = (F.infCode (z != b), 0)
    ∧ fnElem F .div fast rm zr (F.infCode b) = (signBit F (z != b), 0)
    ∧ (finite z → fnElem F .div fast rm x (signBit F b) = (F.infCode (z != b), flDZ)
      ∧ fnElem F .div fast rm x (F.infCode b) = (signBit F (z != b), 0)
      ∧ fnElem F .div fast rm (F.infCode b) x = (F.infCode (b != z), 0)
      ∧ fnElem F .div fast rm (signBit F b) x = (signBit F (b != z), 0)))
  ∧ (f .exp2 zr = (one false, 0) ∧ f .exp2 (F.infCode false) = (F.infCode false, 0) ∧ f .exp2 (F.infCode true) = (0, 0))
  ∧ (f .log2 zr = (F.infCode true, flDZ) ∧ f .log2 (F.infCode false) = (F.infCode false, 0)
    ∧ f .log2 (F.infCode true) = nan ∧ f .log2 (one false) = (0, 0) ∧ (finite true → f .log2 x = nan))
  ∧ (f .sin zr = (zr, 0) ∧ f .sin inf = nan ∧ f .cos zr = (one false, 0) ∧ f .cos inf = nan)
  ∧ (f .tanh zr = (zr, 0) ∧ f .tanh inf = (one z, 0))
  ∧ (f .erf zr = (zr, 0) ∧ f .erf inf = (one z, 0))
  ∧ (f .sigm (F.infCode false) = (one false, 0) ∧ f .sigm (F.infCode true) = (0, 0)
    ∧ f .sigm zr = (encFin F false 1 (-1), 0))

/-! ### Small matrices -/

/-- R164–R170, R176: MMOV, MTR, MSET, MMUL, MMAD and MMV write each element of the destination window: its own
value in the shape of the result, +0 outside; one product, then fused multiply-adds in ascending k. -/
def Obligations.MatrixElements : Prop := ∀ g d a b (k : BitVec 3) acc o q sh nf,
  let F : Fmt := if sh.dbl then fp64 else fp32
  let R := sh.rows.toNat + 1
  let C := sh.cols.toNat + 1
  let wt (n : Nat) : Nat := if sh.dbl then 2 * n else n
  let writes (i : Instr) (n r c : Nat) (f : State → Issue → Warp → Path → Nat → Nat → Nat × Flags) : Prop :=
    ∀ s iss w p, Performs i g s iss w p → ∃ x : Mat, x.length = 36
      ∧ (∀ i j, i < 6 → j < 6 → x.at i j = if i < r ∧ j < c then (f s iss w p i j).1 else 0)
      ∧ exec i s = .next (s.after iss (((p.setWin d sh.dbl x).raise nf (orFlags ((List.range 36).map (fun e =>
        if e / 6 < r ∧ e % 6 < c then f s iss w p (e / 6) (e % 6) else (0, 0))))).weigh (wt n)))
  let dot (x : List (Nat × Nat)) (start : Option Nat) : Nat × Flags :=
    match start with
    | some v => fmaSum F (v, 0) x
    | none => fmaSum F (fMul F .rne (x.headD (0, 0)).1 (x.headD (0, 0)).2) (x.drop 1)
  writes (.mmov g d a sh nf) 2 R C (fun _ _ _ p i j => ((p.win a sh.dbl).at i j, 0))
  ∧ writes (.mtr g d a sh nf) 2 C R (fun _ _ _ p i j => ((p.win a sh.dbl).at j i, 0))
  ∧ writes (.mset g d o q sh nf) 2 R C (fun s iss w p i j =>
    let ty : FTy := if sh.dbl then .f64 else .f32
    (fieldAt (s.rdF iss w p ty (if i = j then o else q)) F.width 0, 0))
  ∧ (k ≠ 0 → writes (.mmul g d a b k sh nf) (ceilDiv (R * C * k.toNat) 8) R C (fun _ _ _ p i j =>
    dot ((List.range k.toNat).map (fun n => ((p.win a sh.dbl).at i n, (p.win b sh.dbl).at n j))) none))
  ∧ writes (.mmad g d a b k sh nf) (ceilDiv (R * C * k.toNat) 8) R C (fun _ _ _ p i j =>
    dot ((List.range k.toNat).map (fun n => ((p.win a sh.dbl).at i n, (p.win b sh.dbl).at n j)))
      (some ((p.win d sh.dbl).at i j)))
  ∧ writes (.mmv g d a b acc sh nf) (ceilDiv (R * C) 4) 1 R (fun _ _ _ p _ j =>
    dot ((List.range C).map (fun n => ((p.win a sh.dbl).at j n, (p.win b sh.dbl).at 0 n)))
      (if acc then some ((p.win d sh.dbl).at 0 j) else none))

/-- R171–R176: MCHOL, MLUP, MLUS, MTRS and MDET read their windows, write their results and flags, and weigh
what R176 says, twice that in FP64. Of the results: MCHOL's factor keeps R171's recurrence up to its first failing pivot,
from whose column on the lower triangle is the canonical NaN, with NP; MLUP's steps are those of R172, on W 0, W 1, …, with
SG where a pivot is ±0, and MDET multiplies the last W's diagonal; MLUS and MTRS solve R173's and R174's triangles. -/
def Obligations.MatrixFactorisations : Prop :=
  (∀ g d a b (vp r : BitVec 8) o (mode : BitVec 2) sh nf,
  let F : Fmt := if sh.dbl then fp64 else fp32
  let R := sh.rows.toNat + 1
  let C := sh.cols.toNat + 1
  let wt (n : Nat) : Nat := if sh.dbl then 2 * n else n
  let solve := 4 * R + (R * R * C + 3) / 4
  Moves (.mchol g d a sh nf) g (wt (4 * R + (R * R * R + 7) / 8)) (fun _ _ _ p =>
    let x := cholM F R (p.win a sh.dbl)
    (p.setWin d sh.dbl x.1).raise nf x.2)
  ∧ Moves (.mlup g d a vp sh nf) g (wt (4 * R + (R * R * R + 3) / 4)) (fun _ _ _ p =>
    let x := luM F R (p.win a sh.dbl)
    ((p.setWin d sh.dbl (shaped R R x.w.at)).setV vp (BitVec.ofNat 64 (permWord x.perm))).raise nf x.fl)
  ∧ Moves (.mlus g d a b o sh nf) g (wt solve) (fun s iss w p =>
    let x := fromCols R C ((List.range C).map
      (lusCol F R (p.win a sh.dbl) (p.win b sh.dbl) (s.rd iss w p o)))
    (p.setWin d sh.dbl x.1).raise nf x.2)
  ∧ Moves (.mtrs g d a b mode sh nf) g (wt (if mode = 2 then 2 * solve else solve)) (fun _ _ _ p =>
    let x := fromCols R C ((List.range C).map
      (trsCol F R mode.toNat (p.win a sh.dbl) (p.win b sh.dbl)))
    (p.setWin d sh.dbl x.1).raise nf x.2)
  ∧ Moves (.mdet g r a sh nf) g (wt (4 * R + (R * R * R + 3) / 4)) (fun _ _ _ p =>
    let x := detM F R (p.win a sh.dbl)
    (p.setV r (BitVec.ofNat 64 x.1)).raise nf x.2))
  ∧ ∀ F ∈ [fp32, fp64], ∀ (n : Nat) (A B : Mat) (perm : Word) (j : Nat), n ≤ 6 → A.length = 36 →
    let neg (x : Nat) : Nat := modCode F true false x
    let size (x : Nat) : Nat := x % 2 ^ (F.width - 1)
    let sum (x : Nat) (xs : List (Nat × Nat)) : Nat := xs.foldl (fun t y => (fFma F .rne y.1 y.2 t).1) x
    let div (x y : Nat) : Nat := (fnElem F .div false .rne x y).1
    let below (i : Nat) : List Nat := List.range i
    let above (i : Nat) : List Nat := (List.range n).filter (i < ·)
    let greater (x y : Nat) : Prop :=
      F.isNaN y = false ∧ (F.isNaN x = true ∨ fCmp F (size x) (size y) = some .gt)
    let forward (L : Mat) (b x : Nat → Nat) : Prop := ∀ i, i < n →
      x i = div (sum (b i) ((below i).map (fun k => (neg (L.at i k), x k)))) (L.at i i)
    let backward (L : Mat) (b x : Nat → Nat) : Prop := ∀ i, i < n →
      x i = div (sum (b i) ((above i).map (fun k => (neg (L.at k i), x k)))) (L.at i i)
    (let x := cholM F n A
      let pivot (c : Nat) : Nat := sum (A.at c c) ((below c).map (fun k => (neg (x.1.at c k), x.1.at c k)))
      ∃ f, f ≤ n
        ∧ (∀ c, c < f → fCmp F (pivot c) 0 = some .gt ∧ x.1.at c c = (fnElem F .sqrt false .rne (pivot c) (pivot c)).1
          ∧ ∀ i, c < i → i < n → x.1.at i c
            = div (sum (A.at i c) ((below c).map (fun k => (neg (x.1.at i k), x.1.at c k)))) (x.1.at c c))
        ∧ (f < n → fCmp F (pivot f) 0 ≠ some .gt ∧ x.2 &&& flNP = flNP
          ∧ ∀ i m, f ≤ m → m ≤ i → i < n → x.1.at i m = F.canonNaN)
        ∧ ∀ i m, i < 6 → m < 6 → (i < m ∨ n ≤ i) → x.1.at i m = 0)
    ∧ (let x := luM F n A
      permWord x.perm = ((List.range 6).map (fun i => x.perm.getD i 0 * 16 ^ i)).sum
      ∧ (∃ (W : Nat → Mat) (P : Nat → List Nat) (swaps : Nat → Nat),
        W 0 = A ∧ P 0 = List.range 6 ∧ swaps 0 = 0 ∧ W n = x.w ∧ P n = x.perm ∧ swaps n = x.swaps
        ∧ ∀ k, k < n → ∃ p, k ≤ p ∧ p < n
          ∧ (∀ i, k ≤ i → i < n → ¬greater ((W k).at i k) ((W k).at p k))
          ∧ (∀ i, k ≤ i → i < p → greater ((W k).at p k) ((W k).at i k))
          ∧ swaps (k + 1) = swaps k + (if p = k then 0 else 1)
          ∧ let row (i : Nat) : Nat := if i = k then p else if i = p then k else i
            let V (i c : Nat) : Nat := (W k).at (row i) c
            (∀ i, i < 6 → (P (k + 1)).getD i 0 = (P k).getD (row i) 0)
            ∧ (size (V k k) = 0 → x.fl &&& flSG = flSG ∧ ∀ i c, i < 6 → c < 6 →
              (W (k + 1)).at i c = if c = k ∧ k ≤ i ∧ i < n then 0 else V i c)
            ∧ (size (V k k) ≠ 0 → ∀ i c, i < 6 → c < 6 → (W (k + 1)).at i c
              = if k < i ∧ i < n ∧ c = k then div (V i k) (V k k)
                else if k < i ∧ i < n ∧ k < c ∧ c < n then (fFma F .rne (neg (div (V i k) (V k k))) (V k c) (V i c)).1
                else V i c))
      ∧ (detM F n A).1 = (List.range n).foldl (fun v k => (fMul F .rne v (x.w.at k k)).1)
        (encFin F (decide (x.swaps % 2 = 1)) 1 0))
    ∧ (let x := lusCol F n A B perm j
      (∃ y : Nat → Nat, (∀ i, i < n →
          let q := perm.toNat / 16 ^ i % 16
          y i = sum (if q < 6 then B.at q j else 0) ((below i).map (fun k => (neg (A.at i k), y k))))
        ∧ ∀ i, i < n → x.1.getD i 0
          = div (sum (y i) ((above i).map (fun k => (neg (A.at i k), x.1.getD k 0)))) (A.at i i))
      ∧ ∀ i, i < n → size (A.at i i) = 0 → x.2 &&& flSG = flSG)
    ∧ (let at_ (m i : Nat) : Nat := ((trsCol F n m A B j).1).getD i 0
      forward A (fun i => B.at i j) (at_ 0) ∧ backward A (fun i => B.at i j) (at_ 1)
      ∧ ∃ y, forward A (fun i => B.at i j) y ∧ backward A y (at_ 2))

/-! ### Memory -/

/-- R177, R180–R185: every load form checks its bytes at base + offset, or base + index × 2^scale, in its space, and
leaves a load; a peek makes no owner check. -/
def Obligations.Loads : Prop := ∀ (d : BitVec 8) (m : Mem) (x : Idx),
  let at_ (spc : Space) (s : State) (iss : Issue) (w : Warp) (p : Path) : Word :=
    addrIn spc (s.rd iss w p m.base) (m.off.signExtend 64)
  let by_ (spc : Space) (s : State) (iss : Issue) (w : Warp) (p : Path) : Word :=
    addrIn spc (s.rd iss w p x.base)
      ((((s.rd iss w p x.index).setWidth 32 : BitVec 32).signExtend 64) <<< x.scale.toNat)
  let acc (spc : Space) (owner : Bool) (z : Size) : Access := ⟨spc, .r, owner, sizeBytes z, 0, none, true, false⟩
  LoadsInto (.ldN d m) m.g (acc .global true m.size) false d m.order m.scope (at_ .global)
  ∧ LoadsInto (.ldI d m) m.g (acc .global true m.size) true d m.order m.scope (at_ .global)
  ∧ LoadsInto (.ldSpN d m) m.g (acc .sp true m.size) false d m.order m.scope (at_ .sp)
  ∧ LoadsInto (.ldSpI d m) m.g (acc .sp true m.size) true d m.order m.scope (at_ .sp)
  ∧ LoadsInto (.ldWsN d m) m.g (acc .ws true m.size) false d m.order m.scope (at_ .ws)
  ∧ LoadsInto (.ldWsI d m) m.g (acc .ws true m.size) true d m.order m.scope (at_ .ws)
  ∧ LoadsInto (.ldSpPeekN d m) m.g (acc .sp false m.size) false d m.order m.scope (at_ .sp)
  ∧ LoadsInto (.ldSpPeekI d m) m.g (acc .sp false m.size) true d m.order m.scope (at_ .sp)
  ∧ LoadsInto (.ldxN d x) x.g (acc .global true x.size) false d .plain .core (by_ .global)
  ∧ LoadsInto (.ldxI d x) x.g (acc .global true x.size) true d .plain .core (by_ .global)
  ∧ LoadsInto (.ldxSpN d x) x.g (acc .sp true x.size) false d .plain .core (by_ .sp)
  ∧ LoadsInto (.ldxSpI d x) x.g (acc .sp true x.size) true d .plain .core (by_ .sp)

/-- R60, R181, R248, R264, R265, R271, R331: the read of a plain load of global memory takes each byte from its own
path's latest store before it, else from the youngest store in its warp's queue, else from the core's L1 line, else from
the youngest store on its way from the core, else from the home as its newest write leaves it or, as long as no write of
its own core, none ordered before it, none that the core has read and none performed longer ago than the bound stands
between, an earlier one; what the issue's other threads have stored is not read. A line with a word that cannot be
corrected is not kept. No byte changes. Which permitted value a read gives, and the order of the reads of an issue, are
the model's reading (notes/assumptions/12 and 25). -/
def Obligations.PlainLoadBytes : Prop := ∀ (s : State) (r : Reader) (w : Warp) (a n : Nat),
  let core := coreOf r.slot
  let mine (j : StItem) : Bool := j.sibling r.issue r.threads
  let c := (s.touchLine core (.mem a)).core core
  s.warp? r.slot = some w → region a = 0 → a % 64 + n ≤ 64 →
  (∀ v, s.hideable core v = true →
    v.spot ≠ .core core ∧ v.id ∉ (s.core core).known ∧ v.id ∉ (s.core core).seen
      ∧ s.clock ≤ v.time + Config.performBound)
  ∧ (s.lost (.mem (a / 64 * 64)) 64 = false → ∃ l, c.l1.get? (a / 64) = some l)
  ∧ ∀ t b, s.readWord r false false ⟨.plain, .core, false⟩ n (.mem a) = (t, b) →
    t = { s with cores := t.cores, warps := t.warps }
    ∧ (∀ slot, ∃ q, t.warp? slot = (s.warp? slot).map (fun x => { x with stq := q }))
    ∧ b.length = n
    ∧ ∀ i (h : i < b.length),
      (∀ x, r.own.findSome? (fun st => covered st.1 st.2 (.mem a) i) = some x → b[i] = x)
      ∧ (r.own.findSome? (fun st => covered st.1 st.2 (.mem a) i) = none →
        (∀ x, youngest mine w.stq (.mem a) i = some x → b[i] = x)
        ∧ (youngest mine w.stq (.mem a) i = none →
          (∀ l, c.l1.get? (a / 64) = some l → b[i] = l.data.extractLsb' (8 * ((a + i) % 64)) 8)
          ∧ (c.l1.get? (a / 64) = none → b[i] = (youngest mine (s.core core).flight (.mem a) i).getD
            (peel (fun v => v.sibling r.issue r.threads || s.hideable core v) (.mem a) i s.vers
              (rdByte s.mem (a + i))).1)
          ∧ ((s.core core).l1.get? (a / 64) = none → ∀ l, c.l1.get? (a / 64) = some l →
            l.data.extractLsb' (8 * ((a + i) % 64)) 8 = (youngest noSkip (s.core core).flight (.mem a) i).getD
              (peel (s.hideable core) (.mem a) i s.vers (rdByte s.mem (a + i))).1)))

/-- R177, R180, R185: every store form; no byte of memory changes before the store is performed. -/
def Obligations.Stores : Prop := ∀ (v : Operand) (m : Mem) (x : Idx),
  let at_ (spc : Space) (s : State) (iss : Issue) (w : Warp) (p : Path) : Word :=
    addrIn spc (s.rd iss w p m.base) (m.off.signExtend 64)
  let by_ (spc : Space) (s : State) (iss : Issue) (w : Warp) (p : Path) : Word :=
    addrIn spc (s.rd iss w p x.base)
      ((((s.rd iss w p x.index).setWidth 32 : BitVec 32).signExtend 64) <<< x.scale.toNat)
  StoresTo (.st v m) m.g .global (sizeBytes m.size) m.order m.scope v (at_ .global)
  ∧ StoresTo (.stSp v m) m.g .sp (sizeBytes m.size) m.order m.scope v (at_ .sp)
  ∧ StoresTo (.stx v x) x.g .global (sizeBytes x.size) .plain .core v (by_ .global)
  ∧ StoresTo (.stxSp v x) x.g .sp (sizeBytes x.size) .plain .core v (by_ .sp)

/-- R168, R169: MLD leaves one load that will fill its window from consecutive 8-byte words; MST stores its
window's registers in ascending order. -/
def Obligations.WindowTransfers : Prop := ∀ g m dbl base (off : BitVec 22) s iss w p (ps : List (Word × Place)),
  let va := s.rd iss w p base + off.signExtend 64
  let n := if dbl then 36 else 18
  (Performs (.mld g m dbl base off) g s iss w p → s.accessWords iss w p .r va n iss.setA true = .ok ps →
    ps.map (·.1) = (List.range n).map (fun k => va + BitVec.ofNat 64 (8 * k))
    ∧ let l : Load :=
        { warp := iss.warp, block := w.block, thread := p.t, dst := .m m dbl (ps.map (·.2)), flag := iss.setA,
          val := none, bytes := 8, sx := false, held := false, how := ⟨.plain, .core, false⟩,
          place := ((ps.head?).map (·.2)).getD (.mem 0), va := va, clause := iss.addr }
      exec (.mld g m dbl base off) s = .next (s.after iss ({ p with fx := p.fx ++ [Fx.load l] }.weigh 1)))
  ∧ (Performs (.mst g m dbl base off) g s iss w p → s.accessWords iss w p .w va n none false = .ok ps →
    ps.map (·.1) = (List.range n).map (fun k => va + BitVec.ofNat 64 (8 * k))
    ∧ exec (.mst g m dbl base off) s = .next (s.after iss ({ p with
      fx := p.fx ++ (ps.zip ((List.range n).map (fun k => p.th.v.get 0 (64 + 18 * m.toNat + k)))).map (fun (x : (Word × Place) × Word) =>
        Fx.item (sentBy iss p (.store (leBytes 8 x.2.toNat)) x.1.2 x.1.1 .plain .core)) }.weigh
          (if dbl then 4 else 2))))

/-- R188–R190: LDU leaves one read for all its performers; PREF brings a line into the L1 where a load would not fault,
and never faults; LRES leaves a load that is performed at the home and reserves the 32-byte granule when it is read.
Whose address an LDU reads is the model's choice (notes/assumptions/6). -/
def Obligations.UniformLoadPrefetchReserve : Prop :=
  let load (iss : Issue) (w : Warp) (p : Path) (dst : LoadDst) (m : Mem) (resv : Bool) (pl : Place) (va : Word) : Load :=
    { warp := iss.warp, block := w.block, thread := p.t, dst := dst, flag := iss.setA, val := none,
      bytes := sizeBytes m.size, sx := false, held := false, how := ⟨m.order, m.scope, resv⟩, place := pl, va := va,
      clause := iss.addr }
  (∀ (d : BitVec 9) (m : Mem) s iss w p pl, Performs (.ldu d m) m.g s iss w p →
    let va := s.rd iss w p m.base + m.off.signExtend 64
    s.access iss w p ⟨.global, .r, true, sizeBytes m.size, va, iss.setA, true, false⟩ = .ok pl →
    exec (.ldu d m) s = .next (s.after iss ({ p with
      fx := p.fx ++ [Fx.ldu p.next (load iss w p (.s d []) m false pl va)] }.weigh 1)))
  ∧ (∀ g base l2 (off : BitVec 22) s iss w p, Performs (.pref g base l2 off) g s iss w p →
    let va := s.rd iss w p base + off.signExtend 64
    exec (.pref g base l2 off) s = .next (State.after (match s.translate w.ctx va .r with
      | .ok pa => if l2 then s else s.touchLine (coreOf iss.warp) (.mem pa)
      | .error _ => s) iss (p.weigh 1)))
  ∧ (∀ (d : BitVec 8) (m : Mem) s iss w p pl, Performs (.lres d m) m.g s iss w p →
    let va := s.rd iss w p m.base + m.off.signExtend 64
    s.access iss w p ⟨.global, .r, true, sizeBytes m.size, va, iss.setA, true, false⟩ = .ok pl →
    exec (.lres d m) s = .next (s.after iss ({ p with
      fx := p.fx ++ [Fx.load (load iss w p (.v d) m true pl va)] }.weigh 1)))
  ∧ (∀ (s : State) (r : Reader) (late : Bool) (l : Load) (a : Nat) w th k, l.how.resv = true → l.place = .mem a →
    l.dst = .v k → l.peek = false → (s.awaited r l).lost l.place l.bytes = false →
    (s.awaited r l).warp? r.slot = some w → w.threads.get? l.thread = some th →
    ∃ t v w', s.readLoad r late l = (t, { l with val := some [v] }) ∧ t.mem = (s.awaited r l).mem
      ∧ t.warp? r.slot = some w'
      ∧ w'.threads.get? l.thread = some { th with resv := some ⟨a / 32, l.va.toNat⟩ }
      ∧ (∀ i b, r.own = [] → (s.awaited r l).vers = [] → (s.awaited r l).home (.mem a) l.bytes = b →
        i < l.bytes → l.bytes ≤ 8 → l.sx = false → fieldAt v 8 i = (b.getD i 0).toNat))

/-- R191, R193, R194: SCOND and every atomic send their operation when the clause commits; with a destination it
returns a value and counts on the clause's load flag. FATOM reads its operand under its float type. -/
def Obligations.AtomicsAreSent : Prop := ∀ (x : Atom) (c : Operand),
  let F (s : State) (iss : Issue) (w : Warp) (p : Path) : Word :=
    s.rdF iss w p (if x.dbl then .f64 else .f32) x.b
  let rd (o : Operand) (s : State) (iss : Issue) (w : Warp) (p : Path) : Word := s.rd iss w p o
  let none_ (_ : State) (_ : Issue) (_ : Warp) (_ : Path) : Word := 0
  let sends (i : Instr) (spc : Space) (op : AtomOp) (b c : State → Issue → Warp → Path → Word) : Prop :=
    ∀ s iss w p pl, Performs i x.g s iss w p →
      s.access iss w p ⟨spc, .rw, true, if x.dbl then 8 else 4, addrIn spc (s.rd iss w p x.a) 0,
        if x.d.isSome then iss.setA else none, true, true⟩ = .ok pl →
      let k := sentBy iss p (.atom op (b s iss w p) (c s iss w p) x.dbl none) pl (addrIn spc (s.rd iss w p x.a) 0)
        x.order x.scope
      (x.d = none → exec i s = .next (s.after iss ({ p with fx := p.fx ++ [Fx.item k] }.weigh 1)))
      ∧ ∀ d, x.d = some d → ∃ l : Load, l.dst = .v d ∧ l.val = none ∧ l.flag = iss.setA ∧ l.warp = iss.warp
        ∧ l.thread = p.t ∧ l.place = pl
        ∧ exec i s = .next (s.after iss ({ p with fx := p.fx ++ [Fx.atomLoad k l] }.weigh 1))
  (sends (.atomAdd x) .global .add (rd x.b) none_ ∧ sends (.atomMinI x) .global .minI (rd x.b) none_
    ∧ sends (.atomMinN x) .global .minN (rd x.b) none_ ∧ sends (.atomMaxI x) .global .maxI (rd x.b) none_
    ∧ sends (.atomMaxN x) .global .maxN (rd x.b) none_ ∧ sends (.atomAnd x) .global .and (rd x.b) none_
    ∧ sends (.atomOr x) .global .or (rd x.b) none_ ∧ sends (.atomXor x) .global .xor (rd x.b) none_
    ∧ sends (.atomXchg x) .global .xchg (rd x.b) none_ ∧ sends (.atomCas x c) .global .cas (rd x.b) (rd c)
    ∧ sends (.atomIncwrap x) .global .incwrap (rd x.b) none_)
  ∧ (sends (.atomSpAdd x) .sp .add (rd x.b) none_ ∧ sends (.atomSpMinI x) .sp .minI (rd x.b) none_
    ∧ sends (.atomSpMinN x) .sp .minN (rd x.b) none_ ∧ sends (.atomSpMaxI x) .sp .maxI (rd x.b) none_
    ∧ sends (.atomSpMaxN x) .sp .maxN (rd x.b) none_ ∧ sends (.atomSpAnd x) .sp .and (rd x.b) none_
    ∧ sends (.atomSpOr x) .sp .or (rd x.b) none_ ∧ sends (.atomSpXor x) .sp .xor (rd x.b) none_
    ∧ sends (.atomSpXchg x) .sp .xchg (rd x.b) none_ ∧ sends (.atomSpCas x c) .sp .cas (rd x.b) (rd c)
    ∧ sends (.atomSpIncwrap x) .sp .incwrap (rd x.b) none_)
  ∧ (sends (.fatomAdd x) .global .fadd F none_ ∧ sends (.fatomMin x) .global .fmin F none_
    ∧ sends (.fatomMax x) .global .fmax F none_ ∧ sends (.fatomSpAdd x) .sp .fadd F none_
    ∧ sends (.fatomSpMin x) .sp .fmin F none_ ∧ sends (.fatomSpMax x) .sp .fmax F none_)
  ∧ ∀ g d a b dbl o sc s iss w p pl, Performs (.scond g d a b dbl o sc) g s iss w p →
    s.access iss w p ⟨.global, .w, true, if dbl then 8 else 4, s.rd iss w p a, iss.setA, true, true⟩ = .ok pl →
    ∃ l : Load, l.dst = .v d ∧ l.val = none ∧ l.flag = iss.setA ∧ l.warp = iss.warp ∧ l.thread = p.t
      ∧ exec (.scond g d a b dbl o sc) s = .next (s.after iss ({ p with fx := p.fx ++
        [Fx.atomLoad (sentBy iss p (.scond (s.rd iss w p b) dbl 0) pl (s.rd iss w p a) o sc) l] }.weigh 1))

/-- R195, R197–R199: FATOM.add.ord sends a contribution with its thread's key, ORDF an application, a fence itself;
WAITA leaves its wait with its condition, value and timeout. A release fence that is performed stands for its thread's
later stores; an acquire fence wider than core takes the core's global lines (R270). That the fence publishes every write
of its core and all that the core follows, other threads' too, is the model's choice (notes/assumptions/12), and so is
the handler thread's key, that of the primary thread (notes/assumptions/7). -/
def Obligations.OrderedAddsFencesAndWaits : Prop :=
  (∀ g a b dbl s iss w p pl, Performs (.fatomAddOrd g a b dbl) g s iss w p →
    s.access iss w p ⟨.global, .rw, true, if dbl then 8 else 4, s.rd iss w p a, none, true, true⟩ = .ok pl →
    exec (.fatomAddOrd g a b dbl) s = .next (s.after iss ({ p with fx := p.fx ++ [Fx.item (sentBy iss p
      (.contrib dbl (s.rdF iss w p (if dbl then .f64 else .f32) b) (s.ordKey w p.t) w.launch) pl
        (s.rd iss w p a) .plain .core)] }.weigh 1)))
  ∧ (∀ (m : Mem) s iss w p pl, Performs (.ordf m) m.g s iss w p →
    let va := s.rd iss w p m.base + m.off.signExtend 64
    s.access iss w p ⟨.global, .w, true, sizeBytes m.size, va, none, true, true⟩ = .ok pl →
    exec (.ordf m) s = .next (s.after iss ({ p with fx := p.fx ++ [Fx.item
      (sentBy iss p (.ordf (m.size == Size.d)) pl va m.order m.scope)] }.weigh 1)))
  ∧ (∀ g o sc, Moves (.fence g o sc) g 1 (fun _ iss _ p =>
    { p with fx := p.fx ++ [Fx.item (sentBy iss p .fence (.mem 0) 0 o sc)] }))
  ∧ (∀ (s : State) core slot t span sc, sc ≠ .core →
    (∃ h, h ∈ ((s.fenceDone core slot t span .rel sc).core core).rel.map (fun x => x.2.2) ∧ h.scope = sc
      ∧ h.spot = .core core ∧ (∀ v ∈ s.vers, v.spot = .core core ∨ v.id ∈ (s.core core).known → v.id ∈ h.view))
    ∧ ((s.fenceDone core slot t span .acq sc).core core).l1 = []
    ∧ ((s.fenceDone core slot t span .acqrel sc).core core).l1 = []
    ∧ ∀ o, (s.fenceDone core slot t span o sc).mem = s.mem)
  ∧ (∀ g d a b c dbl cond signed sp s iss w p pl sc,
    Performs (.waita g d a b c dbl cond signed sp) g s iss w p →
    let spc : Space := if sp then .sp else .global
    let va := addrIn spc (s.rd iss w p a) 0
    let ctl := s.rd iss w p c
    Scope.ofCode (ctl.toNat / 2 ^ 32 % 8) = some sc →
    s.access iss w p ⟨spc, .r, true, if dbl then 8 else 4, va, none, true, false⟩ = .ok pl →
    exec (.waita g d a b c dbl cond signed sp) s = .next (s.after iss ({ p with fx := p.fx ++ [Fx.waita
      { va := va, place := pl, sp := sp, dbl := dbl, cond := cond, signed := signed, b := s.rd iss w p b,
        acquire := ctl.getLsbD 35, scope := sc, deadline := none, dst := d } (ctl.toNat % 2 ^ 32)] }.weigh 1)))

/-! ### Exchange between threads -/

/-- R147, R148, R202, R205: BALLOT gathers a depth of every participant, FIRST gives the lowest participant's
value, XMOV sends 16-bit positions through the network, SCAN gives the running value up to each participant and
REDW the last one. The handler thread has the primary thread's number (the model's choice, notes/assumptions/27). -/
def Obligations.Collectives : Prop := ∀ g d r (u : BitVec 9) a k inv kx seg rm sat ty op,
  let val (s : State) (iss : Issue) (w : Warp) (q : Path) : Word := writeD ty (s.rdD iss w q ty a)
  let fold := scanRun (scanOp ty op rm sat)
  Collects (.ballot g d k inv) g 1 d (fun _ _ w ps _ x =>
    ∀ n, n < 64 → x.getLsbD n = ps.any (fun q => contributor w q.t == n && q.depth k != inv))
  ∧ Collects (.first g u a) g 1 (.s u) (fun s iss w ps _ x => ∃ q rest, ps = q :: rest ∧ x = s.rd iss w q a)
  ∧ Collects (.xmov g r a kx) g 2 (.v r) (fun s iss w ps p x => ∀ e, e < 4 → fieldAt x 16 e
    = (network (iss.entryXc.get 0 kx.toNat) (positions (ps.map (fun q => (contributor w q.t, s.rd iss w q a))))).getD
      (4 * contributor w p.t + e) 0 % 2 ^ 16)
  ∧ Collects (.scan g r a seg rm sat ty op) g 2 (.v r) (fun s iss w ps p x => x = fold
    ((ps.filter (fun q => q.t ≤ p.t)).map (fun q => ((seg.map q.depth).getD false, val s iss w q))))
  ∧ Collects (.redw g d a rm sat ty op) g 2 d (fun s iss w ps _ x => x = fold
    (ps.map (fun q => (false, val s iss w q))))

/-- R128, R204: a run begins with the first value, starts again where a segment does, and otherwise combines the
run, as operand a, with the value, element by element: integers wrapped, or clamped under .sat, floats rounded
once. -/
def Obligations.ScanSteps : Prop := ∀ (f : Word → Word → Word) (l : List (Bool × Word)) (b : Bool) (x y : Word)
    (ti : ITy) (tf : FTy) (rm : Rm) (sat : Bool) (k : Nat),
  scanRun f [(b, x)] = x
  ∧ (l ≠ [] → scanRun f (l ++ [(b, x)]) = if b then x else f (scanRun f l) x)
  ∧ (k < ti.count →
    let e (op : ScanOp) : Int := elemI ti (scanOp (.i ti) op rm sat x y) k
    e .add = wrapI ti (satI ti sat (elemI ti x k + elemI ti y k))
    ∧ e .min = min (elemI ti x k) (elemI ti y k) ∧ e .max = max (elemI ti x k) (elemI ti y k)
    ∧ let u (op : ScanOp) : Nat := fieldAt (scanOp (.i ti) op rm sat x y) (wI ti) k
      u .and = fieldAt x (wI ti) k &&& fieldAt y (wI ti) k ∧ u .or = fieldAt x (wI ti) k ||| fieldAt y (wI ti) k
      ∧ u .xor = fieldAt x (wI ti) k ^^^ fieldAt y (wI ti) k)
  ∧ (k < tf.count →
    let F := fmtOf tf
    let c (op : ScanOp) : Nat := fieldAt (scanOp (.f tf) op rm sat x y) F.width k
    c .add = (fAdd F rm false (fieldAt x F.width k) (fieldAt y F.width k)).1 % 2 ^ F.width
    ∧ c .min = (fMinMax F false (fieldAt x F.width k) (fieldAt y F.width k)).1 % 2 ^ F.width
    ∧ c .max = (fMinMax F true (fieldAt x F.width k) (fieldAt y F.width k)).1 % 2 ^ F.width)

/-- R200–R203: switch w of stage s joins the positions p0 and p0 + 2^β, p0 being w with a zero bit inserted at
bit β, and exchanges their values when its control bit is 1; with every control zero the network moves nothing.
XCFG leaves its load of a configuration for the boundary; LREAD gives an element of a register of another thread
as it stood at clause entry, zero for an absent thread. -/
def Obligations.ExchangeAndLread : Prop :=
  (∀ (xc : BitVec 832) (xs : List Nat), xs.length = 128 →
    network 0 xs = xs
    ∧ ∀ k w, k < 13 → w < 64 →
      let b := 2 ^ (if k ≤ 6 then 6 - k else k - 6)
      let p0 := 2 * b * (w / b) + w % b
      let c := xc.getLsbD (64 * k + w)
      (exchange xc k xs).length = 128
      ∧ (exchange xc k xs)[p0]? = xs[if c then p0 + b else p0]?
      ∧ (exchange xc k xs)[p0 + b]? = xs[if c then p0 else p0 + b]?)
  ∧ (∀ g k src (d a : BitVec 8) b c width,
    Moves (.xcfg g k src) g 1 (fun _ _ _ p => { p with fx := p.fx ++ [Fx.xcfg k src] })
    ∧ WritesTo (.lread g d a b c width) g 1 (.v d) (fun s iss w p x =>
      let n := 2 ^ width.toNat
      let e := if width = 0 then 0 else (s.rd iss w p c).toNat % n
      let v := ((iss.entry.get? ((s.rd iss w p b).toNat % 32)).map (fun th => th.v.get 0 a.toNat)).getD 0
      x.toNat = v.toNat / 2 ^ (64 / n * e) % 2 ^ (64 / n)))

/-! ### Synchronisation -/

/-- R41, R206, R210: a barrier instruction leaves its operation for the boundary when its barrier is the block's
and, for an arrival, an entry of the record is free; it faults with kind 17 or 16 otherwise. -/
def Obligations.BarrierInstructions : Prop := ∀ g n a ded,
  let ok (i : Instr) (wt op : Nat) (exp : Option Nat) (count : State → Issue → Warp → Path → Nat) (d : Bool) : Prop :=
    ∀ s iss w p b, Performs i g s iss w p → s.blocks.get? w.block = some b →
      (n.toNat < b.nbars → (op = 0 ∨ op = 2 → recordUse b p < 4) →
        exec i s = .next (s.after iss ({ p with fx := p.fx ++ [Fx.bar op n.toNat (count s iss w p) d] }.weigh wt)))
      ∧ (b.nbars ≤ n.toNat → exec i s = .next (s.after iss
        ({ p with fault := some ⟨17, p.next + 1, exp, n.zeroExtend 64⟩ }.weigh wt)))
      ∧ (n.toNat < b.nbars → op = 0 ∨ op = 2 → 4 ≤ recordUse b p → exec i s = .next (s.after iss
        ({ p with fault := some ⟨16, p.next + 1, exp, n.zeroExtend 64⟩ }.weigh wt)))
  let zero_ (_ : State) (_ : Issue) (_ : Warp) (_ : Path) : Nat := 0
  ok (.barArrive g n) 1 0 none zero_ false ∧ ok (.barWait g n) 1 1 none zero_ false
  ∧ ok (.barSync g n) 1 2 none zero_ false ∧ ok (.barw g n) 2 2 (some 0) zero_ false
  ∧ ok (.barx g n a ded) 1 3 none (fun s iss w p => (s.rd iss w p a).toNat % 2 ^ 17) ded

/-- R41: a barrier whose A is below E waits; when A has reached E and an arrival has occurred, the phase ends: it
releases the threads of its block that wait for it, turns P, clears A and deducts X from E, never below zero; no other
barrier changes, and nothing else that a thread waits for. -/
def Obligations.BarrierPhases : Prop := ∀ (s : State) (blk n : Nat) (b : Block), s.blocks.get? blk = some b →
  let x := b.bar n
  (x.a < x.e → ∀ arrived, s.barTest blk n arrived = s)
  ∧ (x.a = 0 → x.e = 0 → s.barTest blk n false = s)
  ∧ (∀ arrived, x.e ≤ x.a → (0 < x.a ∨ arrived = true) →
    ∃ c, (s.barTest blk n arrived).blocks.get? blk = some c
      ∧ c.bar n = { x with p := !x.p, a := 0, e := x.e - x.x, x := 0, view := [], done := addAll x.done x.view }
      ∧ (∀ m, m ≠ n → c.bar m = b.bar m)
      ∧ (∀ slot w t th, slot ∈ b.warps → s.warp? slot = some w → w.block = blk → w.threads.get? t = some th →
        ∃ w' th', (s.barTest blk n arrived).warp? slot = some w' ∧ w'.threads.get? t = some th'
          ∧ Blocked.barrier n ∉ th'.blocked ∧ ∀ y, y ≠ .barrier n → (y ∈ th'.blocked ↔ y ∈ th.blocked))
      ∧ ∀ slot w, s.warp? slot = some w → w.block ≠ blk → (s.barTest blk n arrived).warp? slot = some w)

/-- R208, R209: the join instructions leave their actions for the boundary; JQRY reads the join as it stood at
clause entry, LOST in bit 63. -/
def Obligations.JoinInstructions : Prop := ∀ g j (r : BitVec 9) d sel,
  let act (f : State → Issue → Warp → Path → Fx) (s : State) (iss : Issue) (w : Warp) (p : Path) : Path :=
    { p with fx := p.fx ++ [f s iss w p] }
  Moves (.jset g j) g 1 (act (fun _ _ _ p => .jset j p.next none))
  ∧ Moves (.jsetUniform g j r) g 1 (act (fun s iss w p => .jset j p.next (some ((s.rd iss w p (.s r)).setWidth 32))))
  ∧ Moves (.join g j) g 1 (act (fun _ _ _ _ => .sign j true))
  ∧ Moves (.jarr g j) g 1 (act (fun _ _ _ _ => .sign j false))
  ∧ WritesTo (.jqry g d j sel) g 1 d (fun _ iss _ _ x =>
    let y := iss.entryJoins.get Join.clear j.toNat
    let m : Mask := if sel = 0 then y.expected else if sel = 1 then y.signed else y.waiters
    x.getLsbD 63 = y.lost ∧ (∀ n, n < 32 → x.getLsbD n = m.getLsbD n)
      ∧ ∀ n, 32 ≤ n → n < 63 → x.getLsbD n = false)

/-- R28, R38: a join whose signed mask is not empty completes when no live expected thread has yet to sign; one with
a waiter breaks when some have, and all of those are blocked. Either ends its waiters' wait and none other, clears
signed and waiters, and sends the command that the join has captured; only a break sets LOST. -/
def Obligations.JoinVerdicts : Prop := ∀ (s : State) (slot k : Nat) (w : Warp) (broke : Bool),
  let j := w.join k
  let miss := (List.range 32).filter (fun t =>
    j.expected.getLsbD t && !j.signed.getLsbD t && ((w.thread t).life == .live))
  (w.verdict j = some false ↔ j.signed ≠ 0 ∧ miss = [])
  ∧ (w.verdict j = some true ↔ j.waiters ≠ 0 ∧ miss ≠ [] ∧ ∀ t ∈ miss, (w.thread t).blocked ≠ [])
  ∧ (j.capture = none → (s.joinApply slot k w broke).cmds = s.cmds)
  ∧ (∀ c, j.capture = some c → ∃ x : Cmd, (s.joinApply slot k w broke).cmds = s.cmds.put s.nextId x
    ∧ x.body = c.body ∧ x.thread = c.thread ∧ x.opcode = c.op ∧ x.flags = c.signers ∧ x.warp = slot
    ∧ x.core = coreOf slot ∧ x.accepted = false)
  ∧ ∃ w', (s.joinApply slot k w broke).warp? slot = some w'
    ∧ w'.join k = ⟨j.expected, 0, 0, j.lost || broke, none⟩ ∧ (∀ m, m ≠ k → w'.join m = w.join m)
    ∧ ∀ t th, w.threads.get? t = some th → ∃ th', w'.threads.get? t = some th'
      ∧ ∀ y, y ∈ th'.blocked ↔ y ∈ th.blocked ∧ ¬(bitOf j.waiters t = true ∧ ∃ n, y = .join n ∧ n.toNat = k)

/-- R215–R218, R228, R238: OWN gives the owner codes of consecutive tiles, two bits each; ring, token and unit
instructions leave their actions for the boundary. The target of a give is that of its lowest-numbered performer for all of
them: where it is no MAT-role warp of the block they fault with kind 19; that it is judged at the issue's end, when every
thread has come to the give, is the model's reading (notes/assumptions/10). A GROW above the lane's count faults with
kind 23. -/
def Obligations.BlockResources : Prop := ∀ g (d : BitVec 8) q a b (n : BitVec 3),
  let act (f : State → Issue → Warp → Path → Fx) (s : State) (iss : Issue) (w : Warp) (p : Path) : Path :=
    { p with fx := p.fx ++ [f s iss w p] }
  (∀ s iss w p base size, Performs (.own g d a b) g s iss w p →
    s.window w.block (coreOf iss.warp) = some (base, size) →
    let first := (s.rd iss w p a).toNat % 512
    let cnt := (s.rd iss w p b).toNat % 64
    1 ≤ cnt → cnt ≤ 32 → first + cnt ≤ size →
    ∃ (t : State) (x : Word), exec (.own g d a b) s = .next (t.after iss ((p.setDst (.v d) x).weigh 1))
      ∧ x.toNat < 2 ^ (2 * cnt)
      ∧ (∀ i, i < cnt → fieldAt x 2 i = ((s.core (coreOf iss.warp)).owner.get 0 (base + first + i)).toNat)
      ∧ t = { s with cores := t.cores } ∧ ∀ c, (t.core c).owner = (s.core c).owner ∧ (t.core c).flight = (s.core c).flight)
  ∧ Moves (.ringget g q a b) g 1 (act (fun s iss w p =>
    .ringGet q ((s.rd iss w p a).setWidth 4) ((s.rd iss w p b).getLsbD 0)))
  ∧ Moves (.ringput g q a) g 1 (act (fun s iss w p => .ringPut q ((s.rd iss w p a).setWidth 4)))
  ∧ Moves (.mxtokGive g a) g 1 (act (fun s iss w p => .give p.next ((s.rd iss w p a).toNat % 128)))
  ∧ (∀ (s : State) iss w p syl t x, p.fx = [Fx.give syl t] → iss.giveTarget = some x → s.verdict iss w p
    = if s.matPeer iss.warp w x then none else some ⟨19, syl + 1, none, iss.words.getD syl 0⟩)
  ∧ Moves (.mxtokTake g) g 1 (act (fun _ _ _ _ => .take))
  ∧ (∀ s iss w p, Performs (.grow g n) g s iss w p →
    exec (.grow g n) s = .next (s.after iss (Path.weigh (if n.toNat ≤ min 4 (s.part.laneUnits.get 4 (laneOf iss.warp))
      then { p with fx := p.fx ++ [Fx.grow n.toNat] }
      else { p with fault := some ⟨23, p.next + 1, none, n.zeroExtend 64⟩ }) 1)))
  ∧ Moves (.shed g n) g 1 (act (fun _ _ _ _ => .shed n.toNat))

/-! ### Deprecated instructions -/

/-- R81, R82: DOT4 adds four byte products to 32 bits; LDQ is two loads of 64 bits, the second as the first
leaves its path. How DOT4 reads an inline integer is the model's choice (notes/assumptions/5). -/
def Obligations.DeprecatedInstructions : Prop := ∀ g (d : BitVec 8) a b c signed base (off : BitVec 22),
  WritesTo (.dot4 g d a b c signed) g 4 (.v d) (fun s iss w p x =>
    let v (o : Operand) (k : Nat) : Int :=
      if signed then sgnOf 8 (fieldAt (s.rd iss w p o) 8 k) else fieldAt (s.rd iss w p o) 8 k
    let t : Int := fieldAt (s.rd iss w p c) 32 0 + v a 0 * v b 0 + v a 1 * v b 1 + v a 2 * v b 2 + v a 3 * v b 3
    x = BitVec.ofInt 64 (if signed then t.bmod (2 ^ 32) else t % 2 ^ 32))
  ∧ ∀ s iss w p pl₀ pl₁, Performs (.ldq g d base off) g s iss w p →
    let va (k : Nat) : Word := s.rd iss w p base + off.signExtend 64 + BitVec.ofNat 64 k
    let acc (k : Nat) : Access := ⟨.global, .r, true, 8, va k, iss.setA, true, false⟩
    let l (d : BitVec 8) (pl : Place) (k : Nat) : Load :=
      { warp := iss.warp, block := w.block, thread := p.t, dst := .v d, flag := iss.setA, val := none, bytes := 8,
        sx := false, held := false, how := ⟨.plain, .core, false⟩, place := pl, va := va k, clause := iss.addr }
    let q := { p with fx := p.fx ++ [Fx.load (l d pl₀ 0)] }
    s.access iss w p (acc 0) = .ok pl₀ → (d + 1).toNat < 64 + 48 * w.units →
      (s.pendingV iss.warp p.t).contains (d + 1).toNat = false → s.access iss w q (acc 8) = .ok pl₁ →
      exec (.ldq g d base off) s = .next (s.after iss ({ q with fx := q.fx ++ [Fx.load (l (d + 1) pl₁ 8)] }.weigh 2))

/-! ### Commands -/

/-- R229–R235, R237, R239: copies, sweeps, waits for them, tasks, table commands and system calls send their
command with the operands they read. -/
def Obligations.CommandsAreSent : Prop := ∀ g (x : Copy) (y : Sweep) (z : Call) ws (d : BitVec 8) (mask : BitVec 4) a b n,
  let copy (k : Nat) (ws : Bool) (s : State) (iss : Issue) (w : Warp) (p : Path) : CmdBody :=
    .copy k ws x.scope (s.rd iss w p x.d) (s.rd iss w p x.a) (s.rd iss w p x.b) (s.rd iss w p x.c)
  let sweep (op : Nat) (two : Bool) (s : State) (iss : Issue) (w : Warp) (p : Path) : CmdBody :=
    .sweep op y.sat (s.rd iss w p y.d) (s.rd iss w p y.a) (if two then s.rd iss w p y.b else 0) (s.rd iss w p y.c)
  let call (n : BitVec 8) (s : State) (iss : Issue) (w : Warp) (p : Path) : CmdBody :=
    .sysc n (s.rd iss w p z.a) (s.rd iss w p z.b) (s.rd iss w p z.c)
  (Sends (.cpyIn x ws) x.g 0x280 none (copy 0 ws) ∧ Sends (.cpyOut x) x.g 0x281 none (copy 1 false)
    ∧ Sends (.cpyRows x) x.g 0x282 none (copy 2 false) ∧ Sends (.cpyFill x) x.g 0x283 none (copy 3 false)
    ∧ Sends (.cpyWs x) x.g 0x284 none (copy 4 false))
  ∧ (Sends (.vswAdd y) y.g 0x240 none (sweep 0 true) ∧ Sends (.vswMul y) y.g 0x241 none (sweep 1 true)
    ∧ Sends (.vswFma y) y.g 0x242 none (sweep 2 true) ∧ Sends (.vswMax y) y.g 0x243 none (sweep 3 true)
    ∧ Sends (.vswMin y) y.g 0x244 none (sweep 4 true) ∧ Sends (.vswExp y) y.g 0x245 none (sweep 5 false)
    ∧ Sends (.vswCvt y) y.g 0x246 none (sweep 6 false) ∧ Sends (.vswScl y) y.g 0x247 none (sweep 7 false)
    ∧ Sends (.vswRsum y) y.g 0x248 none (sweep 8 false) ∧ Sends (.vswRmax y) y.g 0x249 none (sweep 9 false))
  ∧ Sends (.vswait g) g 0x24F none (fun _ _ _ _ => .vswait)
  ∧ Sends (.mxwait g d mask) g 0x20B (some d) (fun _ _ _ _ => .mxwait mask)
  ∧ (∀ s iss w p, Performs (.tilereg g d a b) g s iss w p → locOk (s.rd iss w p b) = true →
    p.overflows iss.setB = false → exec (.tilereg g d a b) s = .next (s.after iss ({ p with fx := p.fx ++
      [Fx.cmd (iss.cmd w p 0x2C8 (.tilereg (s.rd iss w p a) (s.rd iss w p b)) (if d = 0 then none else some d))] }.weigh 1)))
  ∧ Sends (.tileq g d a) g 0x2C9 (some d) (fun s iss w p => .tileq (s.rd iss w p a))
  ∧ (∀ s iss w p, Performs (.tiledrop g a b) g s iss w p → (s.rd iss w p b).toNat ≤ 1 →
    p.overflows iss.setB = false → exec (.tiledrop g a b) s = .next (s.after iss ({ p with fx := p.fx ++
      [Fx.cmd (iss.cmd w p 0x2CA (.tiledrop (s.rd iss w p a) (s.rd iss w p b)) none)] }.weigh 1)))
  ∧ (∀ s iss w p, Performs (.tspawn g a) g s iss w p → (s.rd iss w p a).toNat % 64 = 0 →
    p.overflows iss.setB = false → exec (.tspawn g a) s = .next (s.after iss ({ p with fx := p.fx ++
      [Fx.cmd (iss.cmd w p 0x2C0 (.tspawn (s.rd iss w p a)) none)] }.weigh 1)))
  ∧ (∀ s iss w p, Performs (.tjob g a) g s iss w p → (s.rd iss w p a).toNat % 64 = 0 →
    p.overflows iss.setB = false → exec (.tjob g a) s = .next (s.after iss ({ p with fx := p.fx ++
      [Fx.cmd (iss.cmd w p 0x2C1 (.tjob (s.rd iss w p a)) none)] }.weigh 1)))
  ∧ (∀ s iss w p, Performs (.tdone g) g s iss w p → s.doneBad iss w p = false → p.overflows iss.setB = false →
    exec (.tdone g) s = .next (s.after iss ({ p with fx := p.fx ++ [Fx.tdone] }.weigh 1)))
  ∧ (Sends (.syscVersion z) z.g 0x300 (some z.d) (call 0) ∧ Sends (.syscAlloc z) z.g 0x300 (some z.d) (call 1)
    ∧ Sends (.syscFree z) z.g 0x300 (some z.d) (call 2) ∧ Sends (.syscPrint z) z.g 0x300 (some z.d) (call 3)
    ∧ Sends (.syscResolve z) z.g 0x300 (some z.d) (call 4) ∧ Sends (.syscNotify z) z.g 0x300 (some z.d) (call 5)
    ∧ Sends (.syscAbort z) z.g 0x300 (some z.d) (call 6) ∧ Sends (.syscCapread z) z.g 0x300 (some z.d) (call 7)
    ∧ Sends (.syscEscalate z) z.g 0x300 (some z.d) (call 8)
    ∧ Sends (.syscUnassigned n z) z.g 0x300 (some z.d) (call n))

/-- R224, R243, R359, R360: MXMAC, MXSMAC and MXZERO leave their signature with the command they read; a bad format faults
with kind 21, a bad descriptor with 22, a full flag with 14. At the issue's end a signature of an expected thread that
differs from the join's reference — its capture, else the first of the lowest-numbered thread that nothing faults
there — faults with kind 20. A thread that the join does not expect signs nothing. That MXSMAC of a part without the
sparse feature faults with kind 4, and a format that the part lacks with kind 21, is the model's reading
(notes/assumptions/49); so are how far the compressed rows of an MXSMAC reach (notes/assumptions/11) and that a JSET of
the same issue is seen and the signatures are compared at its end (notes/assumptions/10). -/
def Obligations.MatrixSignatures : Prop := ∀ g acc (a b : BitVec 9) fmt str j res,
  let signs (i : Instr) (k : Nat) (cap : State → Issue → Warp → Path → Capture) : Prop :=
    ∀ s iss w p, Performs i g s iss w p →
      let c := cap s iss w p
      let y := joinSeen iss w (iss.setPath p).paths j
      let flag := if bitOf y.expected p.t then iss.setB else none
      let stops (k : Nat) (d : Word) (q : Path) (wt : Nat) : Prop :=
        exec i s = .next (s.after iss ({ q with fault := some ⟨k, p.next + 1, none, d⟩ }.weigh wt))
      let signed (good : Bool) : Path := { p with fx := p.fx ++ [Fx.mx p.next j c flag good] }
      let fmtGood : Prop := mxFmtOk k c.fmt = true ∧ s.hasFormat k c.fmt = true
      let good : Prop := c.body.ok (s.windowSize iss.warp w) = true ∧ s.mxSparseOk w.block (coreOf iss.warp) (s.pathByte iss p) c.body = true
      (s.lacksSparse i = true → stops 4 (iss.word p) p 0)
      ∧ (s.lacksSparse i = false →
        (¬fmtGood → stops 21 c.fmt p 1)
        ∧ (fmtGood → ¬good → stops 22 (iss.word p) (signed false) 1)
        ∧ (fmtGood → good → p.overflows flag = true → stops 14 (BitVec.ofNat 64 (iss.setB.getD 0)) (signed false) 1)
        ∧ (fmtGood → good → p.overflows flag = false → exec i s = .next (s.after iss ((signed true).weigh 1))))
  let cap (k : Nat) (fmt : State → Issue → Warp → Path → Word) (u : Issue → BitVec 9 → Word) (res : Bool)
      (s : State) (iss : Issue) (w : Warp) (p : Path) : Capture :=
    ⟨BitVec.ofNat 10 (0x208 + k), str, res, (s.rd iss w p acc).setWidth 9, fmt s iss w p, u iss a, u iss (a + 1),
      u iss b, u iss (b + 1), iss.addr, p.t, []⟩
  let uni (iss : Issue) (r : BitVec 9) : Word := iss.entryS.get 0 r.toNat
  let f (s : State) (iss : Issue) (w : Warp) (p : Path) : Word := s.rd iss w p fmt
  signs (.mxmac g acc a b fmt str j) 0 (cap 0 f uni false)
  ∧ signs (.mxsmac g acc a b fmt str j res) 1 (cap 1 f uni res)
  ∧ signs (.mxzero g acc str j) 2 (cap 2 (fun _ _ _ _ => 0) (fun _ _ => 0) false)
  ∧ (∀ (s : State) iss w p syl c flag good, p.fx = [Fx.mx syl j c flag good] →
    let y := joinSeen iss w iss.paths j
    let cap (c r : Capture) : Bool := c.op == r.op && c.stream == r.stream && c.acc == r.acc && c.fmt == r.fmt
    (∀ r, y.capture = some r → s.verdict iss w p
      = if bitOf y.expected p.t && !cap c r then some ⟨20, syl + 1, none, c.fmt⟩ else none)
    ∧ (∀ q syl' r flag' rest, y.capture = none → iss.paths = q :: rest → bitOf y.expected q.t = true →
      q.fx = [Fx.mx syl' j r flag' true] → s.verdict iss w p
      = if bitOf y.expected p.t && !cap c r then some ⟨20, syl + 1, none, c.fmt⟩ else none))
  ∧ (∀ iss w (p : Path) syl c flag good, p.fx = [Fx.mx syl j c flag good] →
    bitOf (joinSeen iss w [p] j).expected p.t = false → (Path.expectedOnly iss w [p] p).fx = [])

/-! ### The trap handler -/

/-- R240: TRD gives the state a selector names — a thread's registers, records and waits, a join, a barrier of the block,
a uniform — in a thread of the frozen warp, as this clause's earlier TWRs leave it;
a TWR to a join, a barrier or a thread's life acts when its clause commits, in the order of the path, and one to
anything else waits for TRET; TRET waits for its clause. That those that act at once do so with their clause, and what a
TWR to a barrier does beyond R240's words, is the model's choice (notes/assumptions/17). -/
def Obligations.HandlerInstructions : Prop := ∀ g (d : BitVec 8) a b c,
  let now (s : State) (iss : Issue) (w : Warp) (p : Path) : Warp := (s.overlay iss p).warpNow iss w
  (∀ s iss w p, Performs (.trd g d a b) g s iss w p →
    let k := (s.rd iss w p b).toNat
    let w' := now s iss w p
    let th := w'.thread ((s.rd iss w p a).toNat % 32)
    selOk k = true → ∃ x : Word, exec (.trd g d a b) s = .next (s.after iss ((p.setDst (.v d) x).weigh 1))
      ∧ (k < 0x100 → x = th.v.get 0 k) ∧ (k = 0x100 → x = th.d.zeroExtend 64)
      ∧ (k = 0x101 → x = th.flags.zeroExtend 64) ∧ (k = 0x102 → x = th.pc.zeroExtend 64) ∧ (k = 0x103 → x = th.rsp)
      ∧ (k = 0x104 → x = th.spill.zeroExtend 64) ∧ (k = 0x105 → x = BitVec.ofNat 64 th.ret.length)
      ∧ (0x108 ≤ k → k ≤ 0x10B → x = (th.ret.getD (k - 0x108) 0).zeroExtend 64)
      ∧ (0x110 ≤ k → k ≤ 0x11B → x = BitVec.ofNat 64 (th.f.get 0 (k - 0x110)))
      ∧ (k = 0x120 → x = th.trapWord) ∧ (k = 0x121 → x = th.detail)
      ∧ (k = 0x130 → x.getLsbD 0 = (th.life == .live) ∧ x.getLsbD 1 = !th.blocked.isEmpty
        ∧ x.toNat / 4 = match th.blocked with
          | [] => 0
          | y :: _ => match y with
            | .join _ => 0
            | .barrier _ => 1
            | .waita _ => 2
            | .ring .. => 3
            | .grow _ => 4
            | .token => 5)
      ∧ (0x140 ≤ k → k ≤ 0x143 → ∀ blk, (s.overlay iss p).blocks.get? w'.block = some blk →
        (∀ e, th.arrivals.get? (k - 0x140) = some e → (blk.bar e.1).p = e.2 →
          x = BitVec.ofNat 64 (2 ^ 9 + 2 * e.1 + e.2.toNat))
        ∧ ((∀ e, th.arrivals.get? (k - 0x140) = some e → (blk.bar e.1).p ≠ e.2) → x = 0))
      ∧ (0x200 ≤ k → k ≤ 0x23F → let j := w'.join ((k - 0x200) / 4)
        (k % 4 = 0 → x = j.expected.zeroExtend 64) ∧ (k % 4 = 1 → x = j.signed.zeroExtend 64)
        ∧ (k % 4 = 2 → x = j.waiters.zeroExtend 64) ∧ (k % 4 = 3 → x = if j.lost then 1 else 0))
      ∧ (0x400 ≤ k → k < 0x800 → ∀ blk, (s.overlay iss p).blocks.get? w'.block = some blk →
        let y := blk.bar ((k - 0x400) / 4)
        (blk.nbars ≤ (k - 0x400) / 4 → x = 0)
        ∧ ((k - 0x400) / 4 < blk.nbars → (k % 4 = 0 → x = BitVec.ofNat 64 y.e) ∧ (k % 4 = 1 → x = BitVec.ofNat 64 y.a)
          ∧ (k % 4 = 2 → x = BitVec.ofNat 64 y.x)
          ∧ (k % 4 = 3 → x = BitVec.ofNat 64 (y.p.toNat + 2 * y.d.toNat))))
      ∧ (0x800 ≤ k → x = w'.s.get 0 (k - 0x800)))
  ∧ (∀ (s : State) iss (p : Path), (∀ x ∈ p.fx, ∀ t k v, x ≠ Fx.twr t k v) → s.overlay iss p = s)
  ∧ (∀ (s : State) iss (p : Path) t k v, s.overlay iss { p with fx := p.fx ++ [Fx.twr t k v] }
    = (s.overlay iss p).twrNow iss.warp t k v)
  ∧ (∀ s iss w p, Performs (.twr g a b c) g s iss w p →
    let t := (s.rd iss w p a).toNat % 32
    let k := (s.rd iss w p b).toNat
    let x := s.rd iss w p c
    twrBad (now s iss w p) t k x (editsSoFar (now s iss w p) p) = false →
      exec (.twr g a b c) s = .next (s.after iss ({ p with fx := p.fx ++
        [if k = 0x130 ∨ (0x200 ≤ k ∧ k ≤ 0x23F) ∨ (0x400 ≤ k ∧ k < 0x800) then Fx.twr t k x else Fx.edit t k x] }.weigh
          1)))
  ∧ Moves (.twrKill g a) g 1 (fun s iss w p =>
    { p with fx := p.fx ++ [Fx.twr ((s.rd iss w p a).toNat % 32) 0x130 0] })
  ∧ (∀ (s : State) iss ok p t k v n, State.fxCommit iss ok (s, p) (Fx.twr t k v, n) = (s.twrNow iss.warp t k v, p))
  ∧ Moves (.tret g) g 1 (fun _ _ _ p => { p with fx := p.fx ++ [Fx.tret] })

/-- R333, R334, R338, R366: taking a trap writes $trappc and $trapinfo from the primary's report, gives each thread
in the mask its trap word and detail and the others zero, freezes the warp and clears its reservations; nothing
else of a thread changes. -/
def Obligations.TakingATrap : Prop := ∀ (s : State) (slot : Nat) (w : Warp) (addr : Addr56) (rs : List TrapRep) (r : TrapRep),
  s.warp? slot = some w → (∀ q ∈ rs, q.thread < 32 ∧ q.kind < 28 ∧ q.syl < 32 ∧ q.exp.getD 0 < 4) →
  rs.Pairwise (fun x y => x.thread < y.thread) →
  r ∈ rs → (if 4 ≤ r.kind then ∀ q ∈ rs, 4 ≤ q.kind → r.thread ≤ q.thread
    else ∀ q ∈ rs, q.kind < 4 ∧ r.thread ≤ q.thread) →
  ∃ w', (s.takeTrap slot addr rs).warp? slot = some w' ∧ w'.trappc = addr.zeroExtend 64 ∧ w'.freeze = some .waiting
    ∧ w'.trapinfo.toNat = 2 ^ 56 * r.kind + 2 ^ 51 * r.thread + (if r.exp.isSome then 2 ^ 50 else 0)
      + 2 ^ 48 * r.exp.getD 0 + 2 ^ 43 * r.syl + w'.trapinfo.toNat % 2 ^ 32
    ∧ (∀ t, t < 32 → w'.trapinfo.getLsbD t = rs.any (fun q => q.thread == t))
    ∧ (∀ t th, w.threads.get? t = some th → ∃ word detail,
      w'.threads.get? t = some { th with trapWord := word, detail := detail, resv := none }
      ∧ (∀ q ∈ rs, q.thread = t → detail = q.detail ∧ word.toNat = 2 ^ 24 * q.kind + 2 ^ 16 * q.syl
        + (if q.exp.isSome then 2 ^ 15 else 0) + 2 ^ 13 * q.exp.getD 0 + q.code.toNat)
      ∧ ((∀ q ∈ rs, q.thread ≠ t) → word = 0 ∧ detail = 0))
    ∧ w'.joins = w.joins ∧ w'.s = w.s ∧ w'.table = w.table

/-- R240, R393, R399: TRET makes the writes of the TWRs that wait, in their order, removes the handler thread, sets the
resume bits of the threads in the mask, rebuilds the PC table from the threads' PCs with every age 0, and thaws the warp;
what no TWR named stays. A write changes the register, field or record entry that its selector names, in the thread that it
names, or a uniform; a PC that is written is one of 56 bits (R405), a depth of the return stack keeps the newest entries. -/
def Obligations.ReturnFromTrap : Prop := ∀ (s : State) (slot : Nat) (w : Warp) (t k : Nat) (x : Word) (th : Thread),
  (s.warp? slot = some w → let v := w.edits.foldl Warp.edit w
    ∃ w', (s.trapReturn slot).warp? slot = some w' ∧ w'.freeze = none ∧ w'.edits = [] ∧ w'.threads.get? 32 = none
      ∧ (∀ t th, t < 32 → v.threads.get? t = some th →
        w'.threads.get? t = some { th with resume := th.resume || w.trapinfo.getLsbD t })
      ∧ (∀ e ∈ w'.table, e.age = 0)
      ∧ (w'.serial = none → ∀ t, t < 32 → (v.thread t).life = .live →
        ∃ e ∈ w'.table, e.addr = (v.thread t).pc ∧ bitOf e.members t = true)
      ∧ w'.joins = w.joins ∧ w'.s = v.s ∧ w'.trappc = w.trappc ∧ w'.trapinfo = w.trapinfo)
  ∧ (0x800 ≤ k → w.edit (t, k, x) = { w with s := w.s.set 0 (k - 0x800) x })
  ∧ (k < 0x800 → w.threads.get? t = some th → ∃ ths, w.edit (t, k, x) = { w with threads := ths }
    ∧ ths.get? t = some (th.edit k x) ∧ ∀ u, u ≠ t → ths.get? u = w.threads.get? u)
  ∧ (k < 0x100 → th.edit k x = { th with v := th.v.set 0 k x })
  ∧ (th.edit 0x100 x = { th with d := x.setWidth 8 } ∧ th.edit 0x101 x = { th with flags := x.setWidth 7 }
    ∧ th.edit 0x102 x = { th with pc := x.setWidth 56, far := 0 } ∧ th.edit 0x103 x = { th with rsp := x }
    ∧ th.edit 0x104 x = { th with spill := x.setWidth 32 })
  ∧ (x.toNat ≤ 4 → ∃ r, th.edit 0x105 x = { th with ret := r } ∧ r.length = x.toNat
    ∧ ∀ i, i < x.toNat → r.getD i 0 = th.ret.getD i 0)
  ∧ (0x108 ≤ k → k ≤ 0x10B → th.edit k x = { th with ret := th.ret.set (k - 0x108) (x.setWidth 56) })
  ∧ (0x110 ≤ k → k ≤ 0x11B → th.edit k x = { th with f := th.f.set 0 (k - 0x110) (x.toNat % 16) })
  ∧ (0x140 ≤ k → k ≤ 0x143 → ∃ m, th.edit k x = { th with arrivals := m }
    ∧ m.get? (k - 0x140) = (if x.getLsbD 9 then some (x.toNat / 2 % 256, x.getLsbD 0) else none)
    ∧ ∀ j, j ≠ k - 0x140 → m.get? j = th.arrivals.get? j)

/-! ### Guards and faults -/

/-- R53, R54: a thread whose guard is false passes the syllable at weight 1, and nothing else happens: shown for
an operation of each kind (integer, float, load, store, atomic, join, barrier, command, system call). -/
def Obligations.GuardFalse : Prop := ∀ g (d : BitVec 8) a b c ty rm nf x y (m : Mem) (k : Atom) (z : Copy) (u : Call)
    (n : BitVec 8) (j : BitVec 4),
  let off (i : Instr) (g : Guard) : Prop := ∀ s iss w p, AtTurn s iss w p → p.guard g = false →
    s.judge iss w p i false false = none → exec i s = .next (s.after iss (p.weigh 1))
  off (.add g a b c ty false) g ∧ off (.fadd g a x y rm nf false) g ∧ off (.ldN d m) m.g ∧ off (.st a m) m.g
  ∧ off (.atomAdd k) k.g ∧ off (.jset g j) g ∧ off (.join g j) g ∧ off (.barSync g n) g ∧ off (.cpyIn z false) z.g
  ∧ off (.syscAlloc u) u.g ∧ off (.swr g .rsp a) g ∧ off (.mst g j false a 0) g

/-- R212, R213, R243, R336, R337: a syllable that is wrong for its thread before its own effect, in the order of R337: a
reserved use (6) first, the role (18), the token (19), a register that is not held (23) and a pending one (13); the thread
keeps its path up to the syllable, the fault is noted, and nothing else happens. That a misuse in a routine (27), to
which R337 gives no place, comes after 6 and before 18, and which of several pending registers kind 13 names, is the
model's choice (notes/assumptions/59 and 19). A copy or sweep whose descriptors are not good faults with kind 22, an
address operand of TSPAWN that is no multiple of 64 with kind 7, and a full flag with kind 14. -/
def Obligations.FaultingSyllables : Prop :=
  (∀ g (d : BitVec 8) a b c ty sat,
    let i : Instr := .add g a b c ty sat
    (∀ s iss w p f, AtTurn s iss w p → s.judge iss w p i (p.guard g) false = some f →
      exec i s = .next (s.after iss { p with fault := some f }))
    ∧ (∀ s iss w p r, AtTurn s iss w p → p.guard g = true → staticBad p.t (.ldN d r) = false →
      unheld w (.ldN d r) = none → r.g = g → ∀ x, s.pending iss.warp p.t (.ldN d r) = some x →
      exec (.ldN d r) s = .next (s.after iss { p with fault := some ⟨13, p.next + 1, none, x⟩ }))
    ∧ (∀ (s : State) iss w p i on, s.judge iss w p i on true = (if staticBad p.t i || on then
        some ⟨6, p.next + 1, expOf i, iss.word p⟩ else s.judge iss w p i on false))
    ∧ (∀ (s : State) iss w p i on, staticBad p.t i = true →
      s.judge iss w p i on false = some ⟨6, p.next + 1, expOf i, iss.word p⟩)
    ∧ (∀ (s : State) iss w p i x on, staticBad p.t i = false → unheld w i = some x → routineForbids i = false →
      unitRole i = none → s.judge iss w p i on false = some ⟨23, p.next + 1, expOf i, x⟩)
    ∧ (∀ (s : State) iss w p i k, staticBad p.t i = false → w.save = none → unitRole i = some k → k ≠ w.kind →
      s.judge iss w p i true false = some ⟨18, p.next + 1, expOf i, iss.word p⟩)
    ∧ (∀ (s : State) iss w p acc str j, staticBad p.t (.mxzero g acc str j) = false → w.save = none → w.kind = 2 →
      s.holdsToken iss.warp w = false →
      s.judge iss w p (.mxzero g acc str j) true false = some ⟨19, p.next + 1, none, iss.word p⟩)
    ∧ (∀ (s : State) iss w p i, staticBad p.t i = false → w.save = some .routine → routineForbids i = true →
      s.judge iss w p i true false = some ⟨27, p.next + 1, expOf i, iss.word p⟩))
  ∧ (∀ g (x : Copy) (y : Sweep) a,
    let fails (i : Instr) (g : Guard) (k : Nat) (detail : State → Issue → Warp → Path → Word)
        (bad : State → Issue → Warp → Path → Prop) : Prop :=
      ∀ s iss w p, Performs i g s iss w p → bad s iss w p →
        exec i s = .next (s.after iss ({ p with fault := some ⟨k, p.next + 1, none, detail s iss w p⟩ }.weigh 1))
    let copy (s : State) (iss : Issue) (w : Warp) (p : Path) : CmdBody :=
      .copy 1 false x.scope (s.rd iss w p x.d) (s.rd iss w p x.a) (s.rd iss w p x.b) (s.rd iss w p x.c)
    let sweep (s : State) (iss : Issue) (w : Warp) (p : Path) : CmdBody :=
      .sweep 0 y.sat (s.rd iss w p y.d) (s.rd iss w p y.a) (s.rd iss w p y.b) (s.rd iss w p y.c)
    fails (.cpyOut x) x.g 22 (fun _ iss _ p => iss.word p) (fun s iss w p =>
      (copy s iss w p).ok (s.windowSize iss.warp w) = false)
    ∧ fails (.vswAdd y) y.g 22 (fun _ iss _ p => iss.word p) (fun s iss w p =>
      (sweep s iss w p).ok (s.windowSize iss.warp w) = false)
    ∧ fails (.tspawn g a) g 7 (fun s iss w p => s.rd iss w p a) (fun s iss w p => (s.rd iss w p a).toNat % 64 ≠ 0)
    ∧ fails (.tspawn g a) g 14 (fun _ iss _ _ => BitVec.ofNat 64 (iss.setB.getD 0)) (fun s iss w p =>
      (s.rd iss w p a).toNat % 64 = 0 ∧ p.overflows iss.setB = true))

/-- R339: a thread that has faulted alone is rolled back: at the end of its issue its registers, predicate stack,
flags, completion flags, return stack, $rsp and PC are those of the clause's entry, the warp is frozen and
$trappc is the clause. -/
def Obligations.FaultRollsBack : Prop := ∀ (s : State) (iss : Issue) (w : Warp) (p : Path) (f : PFault) (th : Thread),
  s.warp? iss.warp = some w → iss.paths = [p] → p.fault = some f → p.t < 32 → iss.broke = 0 → w.freeze = none →
  w.save = none → w.threads.get? p.t = some th → th.life = .live →
  ∃ w' th', (s.finishIssue iss).warp? iss.warp = some w' ∧ w'.threads.get? p.t = some th'
    ∧ th'.v = th.v ∧ th'.d = th.d ∧ th'.flags = th.flags ∧ th'.f = th.f ∧ th'.ret = th.ret ∧ th'.spill = th.spill
    ∧ th'.rsp = th.rsp ∧ th'.frame = th.frame ∧ th'.pc = th.pc ∧ th'.life = .live ∧ th'.resv = none
    ∧ th'.detail = f.detail ∧ w'.freeze = some .waiting ∧ w'.trappc = iss.addr.zeroExtend 64

/-- R60, R63: when a path that sends nothing commits, its thread takes the path's registers, predicate stack, flags, return
stack, spill count, $rsp and $frame and the successor PC, its completion flags stay, no other thread of the warp
changes, and neither do memory and the loads in flight. -/
def Obligations.PathCommits : Prop := ∀ (s : State) (iss : Issue) (ok : List Path) (p : Path) (w : Warp) (th : Thread),
  s.warp? iss.warp = some w → w.threads.get? p.t = some th → p.t < 32 → p.fx = [] →
  ∃ w' th', (s.commitPath iss ok p).warp? iss.warp = some w' ∧ w'.threads.get? p.t = some th'
    ∧ th'.v = p.th.v ∧ th'.d = p.th.d ∧ th'.flags = p.th.flags ∧ th'.ret = p.th.ret ∧ th'.spill = p.th.spill
    ∧ th'.rsp = p.th.rsp ∧ th'.frame = p.th.frame ∧ th'.f = th.f
    ∧ th'.pc = (match p.leaf with
      | some (.go a) => a
      | _ => p.th.pc)
    ∧ (∀ t, t ≠ p.t → w'.threads.get? t = w.threads.get? t)
    ∧ (s.commitPath iss ok p).mem = s.mem ∧ (s.commitPath iss ok p).loads = s.loads

/-! ### At the home -/

/-- R191–R193, R196, R264, R375: what is performed at its home outside a reduction cell's window: a store writes its bytes
and is their newest write; an atomic replaces the old value by the new one and answers the old, but where the word
cannot be corrected nothing is written and no value returned; a conditional store writes and answers 1 where
its thread's reservation stands, else answers 0; no other byte changes, and a write clears the other threads'
reservations on the granules it touches. -/
def Obligations.HomeOperations : Prop := ∀ (s : State) (core : Nat) (a : Nat) (va : Word) (o : Order) (sc : Scope)
    (slot t : Nat), s.cellAt a = false →
  let item (k : StKind) : StItem :=
    { kind := k, place := .mem a, va := va, order := o, scope := sc, warp := slot, thread := t }
  let only (u : State) (n : Nat) : Prop := ∀ x, (x < a ∨ a + n ≤ x) → rdByte u.mem x = rdByte s.mem x
  let cleared (u : State) (n : Nat) : Prop := ∀ k w j th r, u.warp? k = some w → w.threads.get? j = some th →
    th.resv = some r → (k, j) ≠ (slot, t) → ¬(a < 32 * r.granule + 32 ∧ 32 * r.granule < a + n)
  (∀ b : List Byte, let u := s.perform core (item (.store b))
    rdBytes u.mem a b.length = b ∧ only u b.length ∧ cleared u b.length
    ∧ ∃ v, u.vers = v :: s.vers ∧ v.id = s.nextVer ∧ v.place = .mem a ∧ v.spot = .core core
      ∧ v.old = rdBytes s.mem a b.length)
  ∧ (∀ op b c (dbl : Bool) id l, s.loads.get? id = some l → let u := s.perform core (item (.atom op b c dbl (some id)))
    let n := if dbl then 8 else 4
    let old := rdNat s.mem a n
    let B := b.toNat % 2 ^ (8 * n)
    let C := c.toNat % 2 ^ (8 * n)
    let sg (x : Nat) : Int := sgnOf (8 * n) x
    (s.lost (.mem a) n = true → u.mem = s.mem ∧ ∃ l', u.loads.get? id = some l' ∧ l'.val = some [])
    ∧ (s.lost (.mem a) n = false → only u n ∧ cleared u n ∧ (∃ l', u.loads.get? id = some l' ∧ l'.val = some [match op with
      | .minI | .maxI => BitVec.ofInt 64 (sg old)
      | _ => BitVec.ofNat 64 old])
    ∧ rdNat u.mem a n = (match op with
      | .add => (old + B) % 2 ^ (8 * n)
      | .minI => if sg B < sg old then B else old
      | .maxI => if sg old < sg B then B else old
      | .minN => min old B
      | .maxN => max old B
      | .and => old &&& B
      | .or => old ||| B
      | .xor => old ^^^ B
      | .xchg => B
      | .cas => if old = C then B else old
      | .incwrap => if B ≤ old then 0 else old + 1
      | .fadd => (fAdd (if dbl then fp64 else fp32) .rne false old B).1 % 2 ^ (8 * n)
      | .fmin => (fMinMax (if dbl then fp64 else fp32) false old B).1 % 2 ^ (8 * n)
      | .fmax => (fMinMax (if dbl then fp64 else fp32) true old B).1 % 2 ^ (8 * n))))
  ∧ (∀ b (dbl : Bool) id l, s.loads.get? id = some l → let u := s.perform core (item (.scond b dbl id))
    let n := if dbl then 8 else 4
    let held := (s.resvOf slot t).any (fun r => r.granule == a / 32)
    (held = true → rdNat u.mem a n = b.toNat % 2 ^ (8 * n) ∧ only u n ∧ cleared u n)
    ∧ (held = false → u.mem = s.mem)
    ∧ u.resvOf slot t = none
    ∧ ∃ l', u.loads.get? id = some l' ∧ l'.val = some [if held then 1 else 0])

/-- R130, R195, R319: the contributions that an application takes to a word are folded into it in ascending order of
their keys, each addition rounded once, as one write; they leave the queue, the others stay; nothing writes a word of
which a byte lies in the capability list's frame. A contribution takes its number within its thread and word as it reaches its queue, one after
another, from zero again once an application has taken what stood there. The order of equal keys is a free value
(notes/assumptions/7). -/
def Obligations.OrderedContributions : Prop := ∀ (s : State) (a : Nat) (dbl : Bool) (take : Contrib → Bool)
    (by_ : Writer) (own : Holder),
  let n := if dbl then 8 else 4
  let F := if dbl then fp64 else fp32
  let mine (c : Contrib) : Bool := c.pa == a && c.dbl == dbl && take c
  let u := s.applyOrd a dbl take by_ own
  (∃ cs : List Contrib, cs.Perm (s.ordq.filter mine) ∧ cs.Pairwise (fun x y => y.key.lt x.key = false)
    ∧ u.ordq = s.ordq.filter (fun c => !mine c)
    ∧ ((∃ k, k < n ∧ inCapFrame (a + k) = true) → u.mem = s.mem ∧ u.vers = s.vers)
    ∧ ((∀ k, k < n → inCapFrame (a + k) = false) →
      rdNat u.mem a n = cs.foldl (fun v c => (fAdd F .rne false v (c.val.toNat % 2 ^ (8 * n))).1) (rdNat s.mem a n)
        % 2 ^ (8 * n)
      ∧ (∃ v, u.vers = v :: s.vers ∧ v.place = .mem a ∧ v.old.length = n)
      ∧ ∀ x, (x < a ∨ a + n ≤ x) → rdByte u.mem x = rdByte s.mem x))
  ∧ ∀ (c c' : Contrib) (task : Nat), let seq (s : State) (c : Contrib) : Nat := (s.numbered c task).2.key.seq
    (c'.pa = c.pa → c'.dbl = c.dbl → c'.launch = c.launch →
      (c'.key.cls, c'.key.block, c'.key.rank) = (c.key.cls, c.key.block, c.key.rank) →
      seq (s.numbered c task).1 c' = seq s c + 1)
    ∧ (c'.pa ≠ c.pa → seq (s.numbered c task).1 c' = seq s c')
    ∧ (c.pa = a → c.dbl = dbl → (∀ c, take c = true) → seq u c = 0)

/-! ### A step -/

/-- A step runs the decoded instruction: while an issue has the turn, the syllable at which its next thread stands is
decoded at its place in the clause, and the step is that instruction on the same state, its turn one shorter; a syllable
that decodes to none faults its threads; when no thread goes on the step is the issue's end; without a turn the issue
is set aside; with no issue, the step is what is overdue, else the agenda's first, or the machine's own next, before which
time passes, never past the time by which an access on its way is due (R331). That a step
is one syllable of one thread, and the turn, the agenda and the schedule, are the model's choice (notes/assumptions/1). -/
def Obligations.StepRunsTheDecodedInstruction : Prop := ∀ (s : State) (iss : Issue) (n : Nat),
  (s.issue = some iss → s.burst = n + 1 →
    (∀ p sl x i, iss.current = some p → (slots iss.header)[p.next]? = some sl → iss.words[p.next]? = some x →
      decode sl.pos x = .ok i → step s = exec i { s with burst := n })
    ∧ (∀ p sl x e, iss.current = some p → (slots iss.header)[p.next]? = some sl → iss.words[p.next]? = some x →
      decode sl.pos x = .error e → step s = .next (State.badSyllable { s with burst := n } e x))
    ∧ (iss.current = none →
      step s = exec (if iss.serial then .serialIssue else .clauseIssue) { s with burst := n }))
  ∧ (s.issue = some iss → s.burst = 0 → step s = step (s.park iss))
  ∧ (iss.current = none ↔ ∀ p ∈ iss.paths, iss.stand p = none)
  ∧ (∀ p, iss.current = some p → ∃ q ∈ iss.paths, iss.stand q = some p)
  ∧ (∀ i t, s.issue = none → s.overdue = some (i, t) → step s = exec i { s with turn := t })
  ∧ (∀ i t rest, s.issue = none → s.overdue = none → s.parked = [] → s.agenda = (i, t) :: rest →
    step s = exec i { s with agenda := rest, turn := t })
  ∧ (∀ i slot rest more, s.issue = none → s.overdue = none → s.parked = (slot, iss) :: more → s.agenda = i :: rest →
    step s = exec (if iss.serial then .serialIssue else .clauseIssue) { s with turn := { Turn.zero with ix := slot } })
  ∧ (s.issue = none → s.overdue = none → s.agenda = [] → step s = exec (Config.schedule s.tick).1
    { s with tick := s.tick + 1, clock := s.clock + s.passes, turn := (Config.schedule s.tick).2 })
  ∧ s.passes ≤ Config.elapsed s.tick
  ∧ (∀ core c i, s.cores.get? core = some c → i ∈ c.flight → s.clock < i.due → s.clock + s.passes ≤ i.due)
  ∧ (∀ slot w i, s.warps.get? slot = some w → i ∈ w.stq → s.clock < i.due → s.clock + s.passes ≤ i.due)

/-- R79, R85, R147, R151, R152, R206, R208, R221: words that the spec writes out decode to the instructions it
writes beside them. -/
def Obligations.DecodedWords : Prop :=
  decode .root 0x21C0038000000000 = .ok (.ballot .always (.v 7) 0 false)
  ∧ decode .root 0x2380000000000000 = .ok .nop ∧ decode .root 0x23C0000000000000 = .ok .yield
  ∧ decode .root 0x7280000000000003 = .ok (.barSync .always 3)
  ∧ decode .root 0x74400020E0000002 = .ok (.jsetUniform .always 2 7)
  ∧ decode .leaf 0x2024000000000000 = .ok (.leafJmpi (.v 9))
  ∧ decode .leaf 0x4410000000000000 = .ok (.leafCalli (.s 4))
  ∧ decode .leaf 0x3003FFFFFFF80000 = .ok (.leafCall 0xFFFFFFFE)
  ∧ decode .leaf 0x5000000000000000 = .ok .leafRet
  ∧ decode .leaf 0x7000000000000480 = .ok (.leafTrap 0x12)

/-- R50, R85: every well-formed instruction with an encoding decodes from it, every operand at every value the
encoding admits. -/
def Obligations.DecodeOfEncode : Prop := ∀ i, Laws.RoundTrip.Statement i

/-- R6, R245: every step keeps the three byte memories in canonical form. -/
def Obligations.StepKeepsMemory : Prop := ∀ s t : State, s.memOk → step s = .next t → t.memOk

/-- R26, R253, R257, R298, R316: at reset memories are empty, nothing is resident and the tiles belong to the
threads; a thread that a launch starts has its role's entry as PC, its own stack top, and every register, depth
and flag zero. That memory and the boot-time fields are empty is the model's choice (notes/assumptions/2, 3 and 45). -/
def Obligations.ResetAndStart : Prop := State.reset.memOk
  ∧ (State.reset.mem = [] ∧ State.reset.scratch = [] ∧ State.reset.warps = [] ∧ State.reset.blocks = [] ∧ State.reset.launches = [] ∧ State.reset.released = false
    ∧ (∀ core tile, (State.reset.core core).owner.get 0 tile = 0) ∧ ∀ a, rdByte State.reset.ws a = 0)
  ∧ ∀ (r : Rec) (role : Role) index rank, rank < r.x * r.y * r.z →
    let th := launchThread r role index rank
    th.life = .live ∧ th.pc = role.entry.setWidth 56 ∧ (∀ k, th.v.get 0 k = 0) ∧ th.d = 0 ∧ th.flags = 0
    ∧ (∀ k, th.f.get 0 k = 0) ∧ th.ret = [] ∧ th.spill = 0 ∧ th.frame = 0 ∧ th.resv = none ∧ th.blocked = []
    ∧ th.rsp = r.stack + BitVec.ofNat 64 ((index * (r.x * r.y * r.z) + rank + 1) * r.stackBytes)

/-! ### The machine's own steps -/

/-- R29, R30, R43, R151, R228, R238, R265, R299, R360: an issue starts at the chosen entry for the ready threads, or for
one thread in serial mode, with the clause's words and the threads as they stand, unless a pending warp must replace its
warp first; when its threads have come to their ends the verdicts on the issue as a whole are given, its loads are read one
by one, and it ends. A verdict at a syllable faults the thread there, and what follows on its path is not performed. A grant
goes to the first grantable lane after the last granted; a lane swaps to the pending warp when its active one gives way, has
been stalled for 64 cycles or has held the lane for 4,096, and the warp that gives way counts as ready from then; a GROW at
the head of its lane's queue is granted whole when its units are free. That these are steps of their own, and that the
verdicts are given at the issue's end in the order of their syllables, is the model's choice (notes/assumptions/1, 10
and 22). -/
def Obligations.IssueAndLaneSteps : Prop := ∀ (w : Warp) (a : Addr56) (ts : List Nat) (iss : Issue) (lane k t : Nat)
    (slot n : Nat) (rest : List Nat),
  let lane0 (s : State) : Nat := s.turn.ix
  let swap (due : State → Prop) (s : State) : Prop :=
    lane0 s = lane ∧ s.laneFree lane = true ∧ s.pendingReady lane = some k ∧ due s
  let swapped (s : State) : State := (s.updWarp (s.activeSlot lane) (fun w =>
    { w with readyAt := w.readyAt.map (fun _ => s.clock) })).updLane lane (fun l =>
    { l with active := k, since := s.clock, stalled := none, stallSum := 0, busy := max l.busy s.clock + 2, granted := false })
  let starts (serial : Bool) (s : State) : Prop :=
    s.warp? s.turn.ix = some w ∧ s.parked.get? s.turn.ix = none ∧ s.activeSlot (laneOf s.turn.ix) = s.turn.ix
      ∧ (s.lane (laneOf s.turn.ix)).granted = true ∧ s.mustSwap (laneOf s.turn.ix) = false ∧ s.stopped w = false
      ∧ (w.serial.isSome && w.freeze.isNone) = serial ∧ s.choose s.turn.ix w = some (a, ts)
      ∧ s.lostFetch (coreOf s.turn.ix) w.ctx a = none
  let ended (s : State) : Prop := s.issue = some iss ∧ iss.current = none
  let ends (i : Instr) (serial : Bool) : Prop :=
    (∀ s, ended s → iss.serial = serial → iss.judged = false → s.warp? iss.warp = some w →
      exec i s = .next { s with issue := some { iss with judged := true, paths := s.verdicts iss w } })
    ∧ (∀ s p j x l, ended s → iss.serial = serial → iss.judged = true → nextRead iss.clean = some (p, j, x, l) →
      exec i s = .next (s.readStep iss iss.clean p j x l))
    ∧ (∀ s, ended s → iss.serial = serial → iss.judged = true → nextRead iss.clean = none →
      exec i s = .next (s.finishIssue iss).followed)
  (∀ s, s.issue = none → starts false s → exec .clauseIssue s = .next (s.beginIssue s.turn.ix w a ts))
  ∧ (∀ s, s.issue = none → starts true s → exec .serialIssue s = .next (s.beginIssue s.turn.ix w a ts))
  ∧ ends .clauseIssue false ∧ ends .serialIssue true
  ∧ (∀ s : State, (∀ p ∈ iss.paths, s.verdict iss w p = none) → s.verdicts iss w = iss.paths)
  ∧ (∀ s : State, n < 32 → (∀ p ∈ iss.paths, p.fx.filterMap Fx.voted = [] ∨ p.fx.filterMap Fx.voted = [n]) →
    s.verdicts iss w = iss.paths.map (fun p => match s.verdict iss w p with
      | some f => { p with
          fault := some f
          fx := p.fx.takeWhile (fun x => x.voted != some n) ++ p.fx.filter (fun x => match x with
            | .give m _ => m = n
            | _ => false) }
      | none => p))
  ∧ (∀ s : State, s.mustSwap lane = true ↔ (s.pendingReady lane).isSome = true
    ∧ (s.swapDue lane = true ∨ (s.lane lane).since + 4096 ≤ s.clock))
  ∧ (∀ (s : State) f, (if w.restored then s.dropRestored w.ctx else s).fetchClause (coreOf slot) w.ctx a = .ok f →
    (w.dbgNext.getD w.dbg) = dbgNone → (∀ t ∈ ts, t < 32 ∧ (w.thread t).far = 0) →
    ∃ i, (s.beginIssue slot w a ts).issue = some i ∧ i.warp = slot ∧ i.addr = a ∧ i.header = f.1 ∧ i.words = f.2
      ∧ i.judged = false ∧ i.paths.map Path.t = ts
      ∧ ∀ p ∈ i.paths, p.th = w.thread p.t ∧ p.fault = none ∧ p.pos = 1 ∧ p.next = 0)
  ∧ Acts .subcoreGrant (fun s => s.turn.ix = n
      ∧ ((List.range 8).map (fun k => 8 * n + (s.rr.get 7 n + 1 + k) % 8)).find? s.grantable = some lane)
    (fun s => State.updLane { s with rr := s.rr.set 7 n (lane % 8) } lane (fun l => { l with granted := true }))
  ∧ Acts .warpSwap (swap (fun s => s.swapDue lane = true)) swapped
  ∧ Acts .stallLimitExpiry (swap (fun s => (s.lane lane).stalled = some t ∧ t + 64 ≤ s.clock + (s.lane lane).stallSum))
    swapped
  ∧ Acts .holdLimitExpiry (swap (fun s => (s.lane lane).since + 4096 ≤ s.clock
      ∧ s.warp? (s.activeSlot lane) = some w ∧ s.warpStand (s.activeSlot lane) w = .ready)) swapped
  ∧ Acts .growGrant (fun s => lane0 s = lane ∧ (s.lane lane).grows = slot :: rest ∧ s.parked.get? slot = none)
    (fun s => s.grantGrow lane)
  ∧ (∀ (s : State) m ms more, (s.lane lane).grows = slot :: rest → s.warp? slot = some w →
    w.grows = (m, ms) :: more → m - w.units ≤ s.freeUnits lane →
    ∃ (u : State) (w' : Warp), s.grantGrow lane = u.evalJoins slot
      ∧ u.warp? slot = some w' ∧ w'.units = max m w.units ∧ w'.grows = more ∧ u.mem = s.mem
      ∧ (u.lane lane).grows = rest
      ∧ (∀ t th, w.threads.get? t = some th → bitOf ms t = true → (m, ms) ∉ more →
        (∀ x ∈ more, bitOf x.2 t = false) → ∃ th', w'.threads.get? t = some th' ∧ Blocked.grow m ∉ th'.blocked))

/-- R58, R195, R199, R248, R254, R265, R375: a load that has its value writes its register and lowers its flag; one whose
read found data that cannot be corrected has none, and ends its launch; the head of a warp's queue leaves it; what is on its way is
performed when nothing earlier bars it and its package is reached; a wait reads its word again,
and at its deadline; the refresh slot follows the time and frees what the earlier bank held; a line may leave the L1.
Which of these comes next is the model's free choice (notes/assumptions/1 and 12). -/
def Obligations.MemorySteps : Prop := ∀ (id k r : Nat) (l : Load) (x : Word) (i : StItem) (w : Warp) (q : List StItem)
    (y : Wait) (dl : Nat),
  let arrives (kind : StItem → Prop) (s : State) : Prop := s.turn.flag = false
    ∧ (s.core s.turn.ix).flight[s.turn.k]? = some i ∧ kind i ∧ s.reaches i.place = true
    ∧ mayPerform (s.core s.turn.ix).flight s.turn.k = true
  let arrived (s : State) : State := State.perform (s.updCore s.turn.ix (fun c =>
    { c with flight := c.flight.eraseIdx s.turn.k })) s.turn.ix i
  let waits (s : State) : Prop := s.warp? s.turn.ix = some w ∧ (w.thread s.turn.k).waitas[s.turn.m]? = some y
  let lands (val : List Word) (s : State) : Prop := s.issue = none ∧ s.turn.ix = id ∧ s.loads.get? id = some l ∧ l.val = some val
    ∧ l.dst = .v (BitVec.ofNat 8 r) ∧ r < 256 ∧ l.flag = some k ∧ s.parked.get? l.warp = none ∧ l.held = false
    ∧ s.reaches l.place = true
  (∀ s : State, lands [x] s → exec .loadCompletion s = .next (State.updWarp { s with loads := s.loads.del id } l.warp (fun w =>
      w.updThread l.thread (fun th =>
        { th with v := th.v.set 0 r x, f := th.f.set 0 k (th.f.get 0 k - 1) }))).followed)
  ∧ (∀ s : State, lands [] s →
    ∃ m, exec .loadCompletion s = .next (s.doom (((s.warp? l.warp).map Warp.launch).getD 0) 0x00010002 m).followed
      ∧ m.kind = 25 ∧ m.thread = l.thread ∧ m.clause = l.clause.zeroExtend 64)
  ∧ Acts .storePerform (fun s => s.turn.flag = true ∧ s.warp? s.turn.ix = some w ∧ w.stq = i :: q)
    (fun s => s.depart s.turn.ix)
  ∧ Acts .storePerform (arrives (fun i => i.kind = .fence ∨ ∃ b, i.kind = .store b)) arrived
  ∧ Acts .atomicAtHome (arrives (fun i =>
    (∃ op b c d j, i.kind = .atom op b c d j) ∨ ∃ b d j, i.kind = .scond b d j)) arrived
  ∧ Acts .orderedContributionArrival (arrives (fun i => ∃ d v o j, i.kind = .contrib d v o j)) arrived
  ∧ Acts .ordfApplication (arrives (fun i => ∃ d, i.kind = .ordf d)) arrived
  ∧ Acts .waitaReread waits (fun s => s.waitaRead s.turn.ix s.turn.k s.turn.m)
  ∧ Acts .waitaTimeout (fun s => waits s ∧ y.deadline = some dl ∧ dl ≤ s.time)
    (fun s => s.waitaRead s.turn.ix s.turn.k s.turn.m)
  ∧ (∀ s : State, s.issue = none → ∃ u : State, exec .wsRefreshSlot s = .next u.followed
    ∧ u.slot = s.time / 4000 % 16 ∧ u.mem = s.mem ∧ u.warps = s.warps
    ∧ ∀ z o, s.loads.get? id = some z → z.place = .ws o → ∃ z', u.loads.get? id = some z'
      ∧ z' = if o / 4096 % 16 = s.time / 4000 % 16 then z else { z with held := false })
  ∧ Acts .l1LineEviction (fun s => s.turn.flag = false) (fun s => s.updCore s.turn.ix (fun c =>
    { c with l1 := c.l1.del s.turn.k }))
  ∧ Acts .l1LineEviction (fun s => s.turn.flag = true) (fun s => s.updCore s.turn.ix (fun c =>
    { c with l1w := c.l1w.del s.turn.k }))

/-- R125, R211–R214, R221, R225, R230–R233, R369, R375, R376, R390: the first unaccepted command of its unit and core
is accepted; an engine does not accept while some tile of the set belongs to another unit, and the tiles it takes belong
to it until their counts come back to zero; a command that completes does its work and leaves its unit; a reply is
written and the command is gone. Of its work: a unit of a copy writes its 16 bytes, a sweep the elements of its
destination walk, a matrix command its 65,536 accumulator bytes, and the completion word takes its value or the error
value; nothing else in the scratchpads changes. The order of acceptance and the moment of an engine's accesses are the
model's choice (notes/assumptions/14 and 15); so are that each unit of CPY.ROWS reads its entry of the list anew
(notes/assumptions/51), that a chunk is added to every element in one step (notes/assumptions/50), and which tiles a
sparse operand's rows are in (notes/assumptions/11). -/
def Obligations.CommandSteps : Prop := ∀ (id : Nat) (c : Cmd) (tiles : List Nat),
  let first (s : State) : Prop := s.turn.ix = id ∧ s.cmds.get? id = some c ∧ c.accepted = false ∧ c.done = 0
    ∧ s.ending c.launch = false ∧ s.behind id c = false ∧ s.waitOver id c = true ∧ s.parked.get? c.warp = none
  let last (s : State) : Prop := s.turn.ix = id ∧ s.turn.flag = false ∧ s.cmds.get? id = some c ∧ c.accepted = true
    ∧ s.ending c.launch = false ∧ s.inLine id c = false ∧ s.lostRead c = none
  let only (s u : State) (A n : Nat) : Prop := ∀ x, (x < A ∨ A + n ≤ x) → rdByte u.scratch x = rdByte s.scratch x
  Acts .commandAccept first (fun s => s.accept id c)
  ∧ Acts .commandComplete (fun s => last s ∧ ∃ k ws sc d a b e, c.body = .copy k ws sc d a b e)
    (fun s => s.cpAll id c (fun s => s.finishCmd id c))
  ∧ Acts .commandComplete (fun s => last s ∧ ∃ o sat d a b e, c.body = .sweep o sat d a b e)
    (fun s => (s.vsAll id c).finishCmd id c)
  ∧ Acts .commandComplete (fun s => last s ∧ ∃ k st re ac f a b e g, c.body = .matrix k st re ac f a b e g)
    (fun s => (s.mxAll id c).finishCmd id c)
  ∧ (∀ s : State, (∃ t ∈ s.namedTiles c, (s.core c.core).owner.get 0 t ∉ [0, c.body.unit.owner]) →
    s.acceptEngine id c = s)
  ∧ (∀ s : State, s.mayTake c (s.namedTiles c) = true → let t := (s.drainFor c).drainTiles c.core (s.namedTiles c)
    s.acceptEngine id c = if t.mayTake c (t.physTiles c) then t.seated id c (t.physTiles c) else s)
  ∧ (∀ s : State, s.mayTake c tiles = true ↔ s.checkedAccess c.core tiles = false
    ∧ ∀ t ∈ tiles, (s.core c.core).owner.get 0 t = 0 ∨ (s.core c.core).owner.get 0 t = c.body.unit.owner)
  ∧ (∀ s : State, (s.drainTiles c.core tiles).cmds.get? id = some c →
    (s.seated id c tiles).cmds.get? id = some { c with accepted := true, tiles := tiles, flags := [] })
  ∧ (∀ s : State, ∀ t ∈ tiles, ((s.takeTiles c tiles).core c.core).owner.get 0 t = c.body.unit.owner)
  ∧ (∀ s : State, tiles.Nodup → ∀ t ∈ tiles, let x := s.core c.core
    let y := (s.freeTiles c.core id tiles).core c.core
    y.count.get 0 t = x.count.get 0 t - 1
      ∧ y.owner.get 0 t = if x.count.get 0 t - 1 = 0 then 0 else x.owner.get 0 t)
  ∧ (∀ (s : State) r v w th, c.dst = some r → c.flags = [] → s.warp? c.warp = some w →
    w.threads.get? c.thread = some th → ∃ w', (s.reply id c v).warp? c.warp = some w'
      ∧ w'.threads.get? c.thread = some { th with v := th.v.set 0 r.toNat v }
      ∧ (s.reply id c v).cmds = s.cmds.del id)
  ∧ (∀ (s : State) (ws : Bool) (a b sh : Word) (base r n pa qa : Nat),
    let A := 0x180000 * c.core + base + cpUnit b r n
    let far (k : Nat) : Word := cpFar k a sh (s.cpIndex c.core base sh) r n
    (∀ k p, k = 0 ∨ k = 2 → s.farPlace c ws .r (far k) = .ok p →
      ∃ u, s.cpUnitRun id c k ws a b sh base false r n = .ok u
        ∧ rdBytes u.scratch A 16 = (s.engineSight c.core p).2 ∧ only s u A 16 ∧ u.mem = s.mem ∧ u.ws = s.ws)
    ∧ (∃ u, s.cpUnitRun id c 3 ws a b sh base false r n = .ok u
        ∧ rdBytes u.scratch A 16 = leBytes 8 a.toNat ++ leBytes 8 a.toNat ∧ only s u A 16 ∧ u.mem = s.mem ∧ u.ws = s.ws)
    ∧ (s.farPlace c false .w (far 1) = .ok (.mem pa) → s.cellOf (.mem pa) = none →
      ∃ u, s.cpUnitRun id c 1 ws a b sh base false r n = .ok u
        ∧ rdBytes u.mem pa 16 = rdBytes s.scratch A 16 ∧ u.scratch = s.scratch ∧ u.ws = s.ws
        ∧ ∀ x, (x < pa ∨ pa + 16 ≤ x) → rdByte u.mem x = rdByte s.mem x)
    ∧ (∀ p, s.farPlace c false .r (far 4) = .ok p →
      s.wsPlace c.ctx (dieOfCore c.core) (b.toNat + r * 16 * cpUnits sh + 16 * n) = .ok (.ws qa) →
      ∃ u, s.cpUnitRun id c 4 ws a b sh base false r n = .ok u
        ∧ rdBytes u.ws qa 16 = (s.engineSight c.core p).2 ∧ u.scratch = s.scratch ∧ u.mem = s.mem
        ∧ ∀ x, (x < qa ∨ qa + 16 ≤ x) → rdByte u.ws x = rdByte s.ws x)
    ∧ (∀ sc (d : Word) f, let u := s.cpDone id c sc d base f
      let W := 0x180000 * c.core + base + bits d 20 0
      (d.getLsbD 21 = false → u.scratch = s.scratch)
      ∧ (d.getLsbD 21 = true → only s u W 4 ∧ rdNat u.scratch W 4 = match f with
        | none => bits d 63 32
        | some (k, i, j, _) => errValue k i j % 2 ^ 32)))
  ∧ (∀ (s : State) k ws sc d a b sh x, c.body = .copy k ws sc d a b sh →
    let base := 4096 * ((s.window c.block c.core).map (·.1)).getD 0
    (∀ q ∈ cpList sh, let A := 0x180000 * c.core + base + cpUnit b q.1 q.2
      x < A ∨ A + 16 ≤ x) →
    (d.getLsbD 21 = true → let W := 0x180000 * c.core + base + bits d 20 0
      x < W ∨ W + 4 ≤ x) →
    rdByte (s.cpAll id c (fun s => s.finishCmd id c)).scratch x = rdByte s.scratch x)
  ∧ (∀ (s : State) base op sat (d a b ctl : Word) (F G : Fmt) r, G ∈ [fp32, fp16, bf16, e4m3, e5m2] →
    let place (x : Word) (e : Nat) : Nat := 0x180000 * c.core + base + (walkAt x r e).toNat
    let apart (x y n m : Nat) : Prop := x + n ≤ y ∨ y + m ≤ x
    let fb := F.width / 8
    let gb := G.width / 8
    let u := s.vsRow c.core id base op sat d a b ctl F G r
    u.mem = s.mem ∧ u.ws = s.ws
    ∧ (∀ x, (∀ e, e < vsDstElems op ctl → apart x (place d e) 1 gb) → rdByte u.scratch x = rdByte s.scratch x)
    ∧ (8 ≤ op → rdNat u.scratch (place d 0) gb = (cvt fp32 G .rne sat (vsFold (op = 9)
      ((List.range (vsElems ctl)).map (fun e => (cvt F fp32 .rne false (s.walkGet c.core base a F r e)).1)))).1
        % 2 ^ (8 * gb))
    ∧ ∀ e, op < 8 → e < vsElems ctl →
      (∀ j, j < vsElems ctl → j ≠ e → apart (place d j) (place d e) gb gb) →
      (∀ j, j < e → apart (place d j) (place a e) gb fb ∧ apart (place d j) (place b e) gb fb) →
      rdNat u.scratch (place d e) gb = vsElem op F G sat (bits ctl 63 32) (s.walkGet c.core base a F r e)
        (if vsTwo op then s.walkGet c.core base b F r e else 0) (s.walkGet c.core base d G r e) % 2 ^ (8 * gb))
  ∧ (∀ (s : State) base size kind (acc : BitVec 9) (fmt a0 a1 b0 b1 : Word) ch i j, i < 128 → j < 128 →
    base + acc.toNat + 16 ≤ 384 → mxClass (mxFa fmt) ≠ some 2 →
    let A := mxOpA kind fmt a0 a1
    let B := mxOpB kind fmt b0 b1
    let P := 0x180000 * c.core + 4096 * (base + acc.toNat)
    let u := s.mxChunk c.core id base size kind acc fmt a0 a1 b0 b1 ch
    let products := (List.range 16).map (fun e => mxProd (s.mxValue c.core base size A i (ch.pa + e) (ch.k + e))
      (s.mxValue c.core base size B j (ch.pb + e) (ch.k + e)))
    u.accAt c.core base acc i j = accAdd (s.accAt c.core base acc i j) (mxSum products) % 2 ^ 32
      ∧ only s u P 65536 ∧ u.mem = s.mem ∧ u.ws = s.ws)
  ∧ (∀ (s : State) base size kind (acc : BitVec 9) (fmt a0 a1 b0 b1 : Word) ch i j, i < 128 → j < 128 →
    base + acc.toNat + 16 ≤ 384 → mxClass (mxFa fmt) = some 2 →
    let A := mxOpA kind fmt a0 a1
    let B := mxOpB kind fmt b0 b1
    let u := s.mxChunk c.core id base size kind acc fmt a0 a1 b0 b1 ch
    let products := (List.range 16).map (fun e =>
      s.mxInt c.core base size A i (ch.pa + e) * s.mxInt c.core base size B j (ch.pb + e))
    (u.accAt c.core base acc i j : Int) = ((s.accAt c.core base acc i j : Int) + products.sum) % 2 ^ 32
      ∧ only s u (0x180000 * c.core + 4096 * (base + acc.toNat)) 65536)
  ∧ (∀ (s : State) st re (acc : BitVec 9) f a0 a1 b0 b1, c.body = .matrix 2 st re acc f a0 a1 b0 b1 →
    let P := 0x180000 * c.core + 4096 * (((s.window c.block c.core).map (·.1)).getD 0 + acc.toNat)
    let u := (s.mxAll id c).finishCmd id c
    only s u P 65536 ∧ u.mem = s.mem ∧ ∀ x, P ≤ x → x < P + 65536 → rdByte u.scratch x = 0)

/-- R274, R288–R300, R304, R371, R408: the scheduler reads the record at consume of a served queue once the dies are
released, and nothing when produce is consume; it admits the next block where it fits, a cooperative launch whole; a block
starts with all its warps at once; a launch that is no pool's completes when its blocks have ended, its commands are
done, its contributions have arrived and nothing dooms it. Seedbed deals nothing of a context that pre-emption bars; a
task record at the head of the highest queue that is not empty goes to a core of the placement set — that with the most
resident bytes of its ids, then the least load, then the lowest number — and starts as thread 0 of an idle warp there, or
waits on the core's list; a card gives its next chunk of records; a warp that takes from its core's list takes up to 32
records in order, each starting a thread of its own with the record's PC, $frame and join and everything else as at a
launch. Which queue is served first, what completion performs first, and which idle warp takes records and how many, is the
model's choice (notes/assumptions/20, 24, 26 and 72). -/
def Obligations.LaunchSteps : Prop := ∀ (id : Nat) (l : Launch) (k : Kpb) (q : Queue) (b : Block) (bytes : List Byte)
    (u : State),
  let admits (coop : Bool) (s : State) : Prop := s.turn.ix = id ∧ s.launches.get? id = some l ∧ l.kpb = some k
    ∧ k.coop = coop ∧ s.admitting id l = true ∧ s.earlierQueue l = false
  let size := fieldLE bytes 8 1
  let produce : BitVec 32 := BitVec.ofNat 32 (fieldLE bytes 0x10 4)
  let serves (s : State) : Prop := s.turn.ix = id ∧ s.queues.get? id = some q ∧ q.served = true ∧ s.released = true
    ∧ s.ctxRead q.ctx q.header.toNat 64 = .ok bytes ∧ headerGood bytes = true
  let arrived (s : State) : State := s.forceAll (fun i => i.launch = id && i.isContrib)
  Acts .launchRecordRead (fun s => serves s ∧ 0 < (produce - q.consume).toNat ∧ (produce - q.consume).toNat ≤ 2 ^ size)
    (fun s => s.readRecord id q (fieldLE bytes 0 8) size)
  ∧ Acts .launchRecordRead (fun s => serves s ∧ produce = q.consume) (fun s => s)
  ∧ Acts .launchRecordRead (fun s => s.released = false) (fun s => s)
  ∧ Acts .blockAdmission (fun s => admits false s ∧ l.admitted < l.info.blocks ∧ s.admitNext id = some u) (fun _ => u)
  ∧ Acts .blockAdmission (fun s => admits false s ∧ l.admitted < l.info.blocks ∧ s.admitNext id = none) (fun s => s)
  ∧ Acts .cooperativeAdmission (fun s => admits true s ∧ l.admitted = 0
      ∧ State.admitAll id l.info.blocks s = some u) (fun _ => u)
  ∧ (∀ s : State, s.admitNext id = some u → s.launches.get? id = some l →
    ∃ l', u.launches.get? id = some l' ∧ l'.admitted = l.admitted + 1)
  ∧ (∀ s : State, s.issue = none → s.turn.ix = id → s.blocks.get? id = some b → s.launches.get? b.launch = some l →
    l.kpb = some k → b.started = false → (∀ x ∈ b.warps, ((s.warp? x).bind Warp.save) = none) →
    ∃ v : State, exec .gangStart s = .next v.followed
      ∧ (∃ c, v.blocks.get? id = some c ∧ c.started = true ∧ c.bars = b.bars)
      ∧ (∀ x ∈ b.warps, ∀ w, s.warp? x = some w → ∃ w', v.warp? x = some w'
        ∧ w'.s = launchUniform k ∧ ∀ t, t < 32 → w'.thread t
          = launchThread l.info (k.roles.getD w.role ⟨0, 0, 0, 0⟩) b.index (rankOf w t)))
  ∧ Acts .launchCompletion (fun s => s.turn.ix = id ∧ s.launches.get? id = some l ∧ l.kpb = some k ∧ l.closed = false
      ∧ l.info.blocks ≤ l.admitted ∧ l.info.blocks ≤ l.finished ∧ s.isPool id = false
      ∧ (∀ c ∈ s.cmds, c.2.launch ≠ id) ∧ s.ending id = false ∧ (arrived s).ending id = false
      ∧ (arrived s).lostWord id = none ∧ (arrived s).isPool id = false) (fun s => (arrived s).endNormally id)
  ∧ Acts .seedbedDeal (fun _ => True) (fun s => s.deal s.turn.ix s.turn.k)
  ∧ (∀ (s : State) die ctx c, s.ctxs.get? ctx = some c → (c.preempt.get? die).isSome = true → s.deal die ctx = s)
  ∧ (∀ (s : State) die ctx dealt c, c ∈ s.placeSet die ctx dealt ↔ 132 * die ≤ c ∧ c < 132 * die + 132
    ∧ (∃ x ∈ s.poolWarps die ctx, coreOf x.1 = c) ∧ c ∉ s.exclOf ctx
    ∧ ((s.seed die ctx).lists.get [] c).length + (dealt.count c - 32 * s.idleCount die ctx c) < 64)
  ∧ (∀ (s : State) die ctx dealt r, (s.placeOf die ctx dealt r = none ↔ s.placeSet die ctx dealt = [])
    ∧ ∀ c, s.placeOf die ctx dealt r = some c → c ∈ s.placeSet die ctx dealt ∧ ∀ x ∈ s.placeSet die ctx dealt,
      let b (x : Nat) : Nat := s.residBytes die ctx r x
      let m (x : Nat) : Nat := s.poolLoad die ctx dealt x
      b x < b c ∨ (b x = b c ∧ (m c < m x ∨ (m c = m x ∧ c ≤ x))))
  ∧ (∀ r n q, 0 < n → r ≤ 4 * n * q → (∀ j, r ≤ 4 * n * j → q ≤ j) →
    chunkOf r n ≤ r ∧ (chunkOf r n < r → chunkOf r n % 32 = 0 ∧ max 32 q ≤ chunkOf r n ∧ chunkOf r n < max 32 q + 32))
  ∧ (∀ (s : State) die ctx slot core, s.idleOn die ctx core = some slot → ∃ w, (slot, w) ∈ s.warps ∧ dieOf slot = die
    ∧ coreOf slot = core ∧ w.ctx = ctx ∧ s.isPool w.launch = true ∧ w.ended = true ∧ w.freeze = none ∧ w.save = none)
  ∧ (∀ (s : State) die ctx p r rest c, p < 8 → (s.seed die ctx).queues.get [] p = .task r :: rest →
    (∀ j, p < j → j < 8 → (s.seed die ctx).queues.get [] j = []) → s.placeOf die ctx [] r = some c →
    let t := s.dealHead die ctx
    (t.seed die ctx).queues.get [] p = rest
    ∧ (s.idleOn die ctx c = none →
      (t.seed die ctx).lists.get [] c = (s.seed die ctx).lists.get [] c ++ [{ r with nth := s.nextId }])
    ∧ ∀ slot w i blk, s.idleOn die ctx c = some slot → s.warp? slot = some w → s.infoOf w = some i →
      s.blocks.get? w.block = some blk → ∃ w', t.warp? slot = some w'
        ∧ w'.threads.get? 0 = some (taskThread r (spillTop i blk.index (rankOf w 0)) (s.nextId + 1)))
  ∧ (∀ (s : State) die ctx p e a size count j ba st h next v rest, p < 8 →
    (s.seed die ctx).queues.get [] p = .card e a size count j ba st h next v :: rest →
    (∀ j, p < j → j < 8 → (s.seed die ctx).queues.get [] j = []) → s.placeSet die ctx [] ≠ [] →
    ∃ m, m ≤ chunkOf (count - next) (s.placeSet die ctx []).length
      ∧ ((s.dealHead die ctx).seed die ctx).queues.get [] p
        = if next + m = count then rest else .card e a size count j ba st h (next + m) v :: rest)
  ∧ (∀ e a size count j ba st h next v k, (Item.card e a size count j ba st h next v).record k
    = ⟨e, a + BitVec.ofNat 64 (k * size), j, if h then [ba + BitVec.ofNat 64 k * st] else [], 0, v, 0⟩)
  ∧ (∀ (s : State) slot w i blk (rs : List TaskRec), s.warp? slot = some w → s.infoOf w = some i →
    s.blocks.get? w.block = some blk → let t := s.startTasks slot rs
    t.mem = s.mem ∧ (∀ x, x ≠ slot → t.warp? x = s.warp? x) ∧ ∃ w', t.warp? slot = some w'
      ∧ (∀ k r, rs[k]? = some r →
        w'.threads.get? k = some (taskThread r (spillTop i blk.index (rankOf w k)) (s.nextId + k)))
      ∧ ∀ k, rs.length ≤ k → w'.threads.get? k = w.threads.get? k)
  ∧ (∀ (s : State) die ctx core slot, s.idleOn die ctx core = some slot → (s.seed die ctx).lists.get [] core ≠ [] →
    ((s.takeList die ctx core).seed die ctx).lists.get [] core = ((s.seed die ctx).lists.get [] core).drop 32)
  ∧ (∀ (r : TaskRec) rsp n, let th := taskThread r rsp n
    th.life = .live ∧ th.pc = r.code.setWidth 56 ∧ th.frame = r.frame ∧ th.rsp = rsp ∧ th.task = some r.join
    ∧ (∀ k, th.v.get 0 k = 0) ∧ th.d = 0 ∧ th.flags = 0 ∧ (∀ k, th.f.get 0 k = 0) ∧ th.ret = [] ∧ th.spill = 0
    ∧ th.resv = none ∧ th.blocked = [])

/-- R307–R313, R388, R389: PREEMPT starts the grace periods of the context's launches on the die, once, and returns when
no block of the context is left there; a warp that is ready to save captures its state and its live threads enter their save
routines, or where one has none the warp is to be saved hard; a save routine that is over leaves the warp saved with the
$rsp of each thread; the end of the grace period stops the warps of its launch, and a handler is abandoned; the image of a
block whose warps are saved is written and the block is gone; RESTORE performs what the context's threads have sent, takes
the new mask, ends the pre-emption of the die that it names and goes through the context's saved blocks. A block that does
not fit is refused, with its own mask, and waits for the die or is unplaceable; one that fits stands on its new cores with
its window's bytes; a warp saved soft has its joins, uniforms and configurations back and its live threads in their restore
routines, after which each takes what was captured of it. Points that these rules leave open are the model's choice
(notes/assumptions/29, 40 and 71). -/
def Obligations.SaveSteps : Prop := ∀ (ctx die slot id : Nat) (excl : List Nat) (w : Warp) (l : Launch) (b : Block)
    (c : Ctx) (m : SMap Nat) (d : Nat),
  let restoring (s : State) : State := let t := s.resync ctx
    { t with
      ctxs := t.ctxs.upd ctx (fun c => { c with excl := excl, preempt := c.preempt.del die })
      host := { t.host with reply := [] } }
  let asks (s : State) : State := { s with
    ctxs := s.ctxs.upd ctx (fun c => { c with asked := die :: c.asked.filter (· != die) })
    host := { s.host with reply := [] } }
  Calls (.preempt ctx die) (fun s => s.ctxs.get? ctx = some c ∧ c.preempt.get? die = none)
    (fun s => let ds : SMap Nat := (s.residents ctx die).map (fun x => (x.1, s.time + 1000 * x.2.info.grace));
      State.preemptOver { asks s with
        ctxs := (asks s).ctxs.upd ctx (fun c => { c with preempt := c.preempt.put die ds }) } ctx die)
  ∧ Calls (.preempt ctx die) (fun s => s.ctxs.get? ctx = some c ∧ (c.preempt.get? die).isSome = true)
    (fun s => (asks s).preemptOver ctx die)
  ∧ (∀ s : State, s.ctxs.get? ctx = some c →
    (die ∉ c.asked ∨ (∃ x ∈ s.blocks.vals, x.ctx = ctx ∧ dieOfCore (x.cores.headD 0) = die) → s.preemptOver ctx die = s)
    ∧ (die ∈ c.asked → (∀ x ∈ s.blocks.vals, x.ctx = ctx → dieOfCore (x.cores.headD 0) ≠ die) → s.preemptOver ctx die =
      { s with
        ctxs := s.ctxs.upd ctx (fun c => { c with asked := c.asked.filter (· != die) })
        host := { s.host with reply := [0] } }))
  ∧ Acts .softSave (fun s => s.turn.ix = slot ∧ s.warp? slot = some w ∧ s.readyToSave slot w = true)
    (fun s => s.beginSave slot w)
  ∧ (∀ s : State, (∃ t ∈ w.live, s.safeAt w (w.thread t).pc = none) →
    s.beginSave slot w = s.setWarp slot { w with save := some .stopping })
  ∧ (∀ s : State, (∀ t ∈ w.live, s.safeAt w (w.thread t).pc ≠ none) → ∃ w', (s.beginSave slot w).warp? slot = some w'
    ∧ w'.save = some .routine ∧ w'.captured = w.threads ∧ w'.capJoins = w.joins ∧ w'.capS = w.s ∧ w'.capXc = w.xc
    ∧ ∀ t th x, w.threads.get? t = some th → th.life = .live → s.safeAt w th.pc = some x → w'.threads.get? t = some
      { th with pc := x.1.setWidth 56, far := BitVec.ofNat 8 (x.1.toNat / 2 ^ 56), blocked := [], routineEnd := false })
  ∧ Acts .softSave (fun s => s.turn.ix = slot ∧ s.warp? slot = some w ∧ w.save = some .routine
      ∧ s.routineOver slot w = true) (fun s => s.setWarp slot w.saved)
  ∧ (w.saved.save = some .soft ∧ w.saved.threads = w.threads ∧ ∀ t th, w.captured.get? t = some th →
    w.saved.captured.get? t = some { th with rsp := (w.thread t).rsp })
  ∧ Acts .gracePeriodExpiry (fun s => s.turn.ix = id ∧ s.turn.k = die ∧ s.launches.get? id = some l
      ∧ s.ctxs.get? l.ctx = some c ∧ c.preempt.get? die = some m ∧ m.get? id = some d ∧ d ≤ s.time)
    (fun s => ((s.warps.filter (fun x => x.2.launch = id && dieOf x.1 = die)).map (·.1)).foldl State.expire s)
  ∧ (∀ s : State, s.warp? slot = some w → s.parked.get? slot = none →
    (w.save = none ∨ w.save = some .routine ∨ w.save = some .restoring → ∃ w', (s.expire slot).warp? slot = some w'
      ∧ w'.save = some .stopping ∧ (w.save = none → w.freeze = none → w'.threads = w.threads)
      ∧ (w.freeze.isSome = true → w.save = none → w'.threads.get? 32 = none ∧ w'.edits = [] ∧ w'.trapinfo = w.trapinfo))
    ∧ (w.save = some .soft ∨ w.save = some .hard → s.expire slot = s))
  ∧ Acts .blockImageWrite (fun s => s.turn.ix = id ∧ s.blocks.get? id = some b
      ∧ s.preempted b.ctx (dieOfCore (b.cores.headD 0)) = true ∧ s.blockSaved id b = true
      ∧ ∀ x ∈ s.cmds, x.2.block = id → x.2.stoppable = true) (fun s => s.writeImage id b)
  ∧ (∀ s : State, (s.writeImage id b).blocks.get? id = none ∧ ∃ x ∈ (s.writeImage id b).saved, x.block = b)
  ∧ Calls (.restore ctx die excl) (fun s => ∀ x ∈ (restoring s).saved, x.block.ctx ≠ ctx) restoring
  ∧ Calls (.restore ctx die excl) (fun _ => True) (fun s =>
    let xs := (restoring s).saved.filter (fun x => x.block.ctx = ctx)
    State.restoreEach die (fun _ => true) (fun s x => s.refuseBlock die x) xs.length xs (restoring s))
  ∧ (∀ s : State, (s.resync ctx).ctxs.get? ctx ≠ none →
    ∀ v ∈ (s.resync ctx).vers, v.id ∈ (s.resync ctx).ctxView ctx)
  ∧ (∀ (s : State) (x : Saved) may refuse, s.together x = [x] → may x = true → s.placeSaved die x = none →
    State.restoreEach die may refuse 1 [x] s = refuse s x)
  ∧ (∀ (s : State) (x : Saved) may refuse got, s.together x = [x] → may x = true → s.placeSaved die x = some got →
    State.restoreEach die may refuse 1 [x] s = s.reinstate x got)
  ∧ (∀ (s : State) (x : Saved), let un := s.unplaceable die { x with excl := s.ownMask die x }
    let u := s.refuseBlock die x
    u.saved = s.saved.map (fun z => if z = x then
      { x with excl := s.ownMask die x, waits := if un then none else some die } else z)
    ∧ u.host.reply = s.host.reply ++ [BitVec.ofNat 64 (x.block.index + 2 ^ 62 * (if un then 2 else 1))]
    ∧ u.blocks = s.blocks ∧ u.mem = s.mem ∧ u.scratch = s.scratch)
  ∧ (∀ (s : State) (x : Saved) got, let u := s.reinstate x got
    u.saved = s.saved.filter (· ≠ x) ∧ ∃ y, u.blocks.get? s.nextId = some y ∧ y.index = x.block.index
      ∧ y.launch = x.block.launch ∧ y.cores = got.map (·.1) ∧ y.tileBase = got.map (fun g => g.2.2.1)
      ∧ let at_ (o : Nat) : Nat :=
          0x180000 * y.cores.getD (o / 0x180000) 0 + 4096 * y.tileBase.getD (o / 0x180000) 0 + o % 0x180000
        ∀ z ∈ x.tiles, (∀ z' ∈ x.tiles, at_ z'.1 = at_ z.1 → z' = z) → rdByte u.scratch (at_ z.1) = z.2)
  ∧ (∀ (s : State) blk, w.save = some .soft → w.freeze = none → (∃ t th, t < 32 ∧ w.captured.get? t = some th ∧ th.life = .live) →
    ∃ w', (s.reload blk slot w).warp? slot = some w' ∧ w'.save = some .restoring ∧ w'.block = blk ∧ w'.joins = w.capJoins
      ∧ w'.s = w.capS ∧ w'.xc = w.capXc ∧ w'.captured = w.captured
      ∧ ∀ t th x, w.captured.get? t = some th → th.life = .live → s.safeAt w th.pc = some x → w'.threads.get? t = some
        { th with v := [], pc := x.2.setWidth 56, far := BitVec.ofNat 8 (x.2.toNat / 2 ^ 56), blocked := [],
                  routineEnd := false })
  ∧ (w.resumed.save = none ∧ w.resumed.captured = [] ∧ ∀ t th x, w.threads.get? t = some th → w.captured.get? t = some x →
    w.resumed.threads.get? t = some { th with
      pc := x.pc, far := x.far, ret := x.ret, spill := x.spill, d := x.d, flags := x.flags, frame := x.frame,
      blocked := x.blocked, f := x.f, routineEnd := false })
  ∧ Acts .restoreRetry (fun _ => True) (fun s =>
    let xs := s.saved.filter (fun x => x.block.ctx = s.turn.ix && x.waits = some s.turn.k)
    State.restoreEach s.turn.k (fun y => y.waits = some s.turn.k) (fun s _ => s) xs.length xs s)

/-- R239, R342, R384, R385, R392, R394, R396, R397, R401, R402: a handler starts for a trap of a kind it takes, as one
thread of the lane's bank, else the trap is unhandled; dbg_set gives the selected warps of the context their settings at
their next issue and adds to its template, dbg_read gives what TRD gives, dbg_write waits for TRET, dbg_resume resumes,
returns or dooms, launch_end dooms a launch that runs, marks a record that has not been read and enters in the black box
the call for a launch that has ended early, and bbox_read copies the ring's entries of 64 bytes in sequence order into its
buffer, with context and detail of secure entries zero for a non-secure caller. The machine-check records of the launches
that launch_end (kind 0, source 4) and dbg_resume 2 (the trap's kind) end are the model's reading (notes/assumptions/18).
What a call does with a warp, index or settings its rule does not name is the model's choice (notes/assumptions/27, 28, 30
and 60). -/
def Obligations.HandlerAndDebugSteps : Prop := ∀ (ctx slot die buffer : Nat) (w : Warp) (c : Ctx) (h : Addr56)
    (ks : BitVec 28) (sel : WarpSel) (cfg : DbgSet) (t : BitVec 5) (k v header : Word) (n id qid : Nat) (q : Queue)
    (l : Launch) (sec : Bool) (y : Cmd) (ev : Event),
  let ret (xs : List Word) (s : State) : State := { s with host := { s.host with reply := xs } }
  let frozen (s : State) : Prop := s.warp? slot = some w ∧ w.ctx = ctx ∧ w.freeze.isSome = true
    ∧ s.parked.get? slot = none
  let waiting (s : State) : Prop := s.turn.ix = slot ∧ s.warp? slot = some w ∧ s.ctxs.get? w.ctx = some c
    ∧ w.freeze = some .waiting ∧ s.stopped w = false
  Acts .handlerStart (fun s => waiting s ∧ c.handler ≠ 0 ∧ c.kinds.getLsbD (w.trapinfo.toNat / 2 ^ 56) = true
      ∧ s.handlerReady slot w = true)
    (fun s => (s.setWarp slot { w with
      threads := w.threads.put 32 { Thread.absent with
        life := .live, pc := c.handler, frame := (w.thread (primaryOf w)).frame }
      freeze := some .running }).updLane (laneOf slot) (fun l => { l with bank := some slot }))
  ∧ Acts .handlerStart (fun s => waiting s ∧ (c.handler = 0 ∨ c.kinds.getLsbD (w.trapinfo.toNat / 2 ^ 56) = false))
    (fun s => s.unhandled slot w)
  ∧ (∀ s : State, s.ctxs.get? w.ctx = some c →
    let entry (code : Nat) (s : State) : State :=
      s.bbox (dieOf slot) 0 code (coreOf slot % 132) (warpNo slot) (primaryOf w) w.ctx [w.trappc, w.trapinfo]
    s.unhandled slot w = if c.debugger then entry 0x07 (s.setWarp slot { w with freeze := some .escalated })
      else (entry 0x06 s).doom w.launch 0x00030002 (trapCheck slot (trapKind w) (primaryOf w) w.trappc))
  ∧ Calls (.trapSet ctx h ks) (fun _ => True)
    (fun s => { s with ctxs := s.ctxs.upd ctx (fun c => { c with handler := h, kinds := ks }) })
  ∧ Calls .dbgAttach (fun _ => True)
    (fun s => { s with ctxs := s.ctxs.upd s.turn.ix (fun c => { c with debugger := true }) })
  ∧ Calls .dbgDetach (fun _ => True)
    (fun s => { s with ctxs := s.ctxs.upd s.turn.ix (fun c => { c with debugger := false }) })
  ∧ (∀ s : State, s.issue = none → s.released = true → dbgOk cfg = true →
    ∃ u : State, exec (.dbgSet ctx sel cfg) s = .next u.followed
    ∧ (∀ x y, s.warp? x = some y → y.ctx = ctx →
      selNames sel (((s.blocks.get? y.block).map Block.index).getD 0) y.num = true →
      u.warp? x = some { y with dbgNext := some cfg })
    ∧ (∀ x y, s.warp? x = some y → y.ctx ≠ ctx → u.warp? x = some y)
    ∧ (∀ y, s.ctxs.get? ctx = some y →
      u.ctxs.get? ctx = some { y with template := y.template ++ [(sel, cfg)] }))
  ∧ Calls (.dbgSet ctx sel cfg) (fun _ => dbgOk cfg = false) (fun s => s)
  ∧ Calls (.dbgRead ctx slot t k) (fun s => frozen s ∧ selOk k.toNat = true)
    (fun s => ret [s.trdVal w t.toNat k.toNat] s)
  ∧ Calls (.dbgWrite ctx slot t k v) (fun s => frozen s ∧ twrBad w t.toNat k.toNat v w.edits = false
      ∧ atOnce k.toNat = false) (fun s => s.setWarp slot { w with edits := w.edits ++ [(t.toNat, k.toNat, v)] })
  ∧ Calls (.dbgResume ctx slot 0 v) (fun s => frozen s ∧ w.freeze = some .escalated ∧ s.escalated8 slot w = some (id, y))
    (fun s => ((s.setWarp slot { w with freeze := some .running }).reply id y v).discardL1 (coreOf slot))
  ∧ Calls (.dbgResume ctx slot 0 v) (fun s => frozen s ∧ w.freeze = some .escalated ∧ s.escalated8 slot w = none)
    (fun s => ((s.dropHandler slot).trapReturn slot).evalJoins slot)
  ∧ (∀ s : State, w.double ≠ none ∨ w.threads.get? 32 = none → s.escalated8 slot w = none)
  ∧ Calls (.dbgResume ctx slot 1 v) (fun s => frozen s ∧ w.freeze = some .escalated)
    (fun s => ((s.dropHandler slot).trapReturn slot).evalJoins slot)
  ∧ Calls (.dbgResume ctx slot 2 v) (fun s => frozen s ∧ w.freeze = some .escalated)
    (fun s => s.doom w.launch 0x00030001 (trapCheck slot (trapKind w) (primaryOf w) w.trappc))
  ∧ Calls (.launchEnd ctx header n) (fun s => s.queueOf ctx header = some (qid, q)
      ∧ 2 ^ 31 ≤ (BitVec.ofNat 32 (n % 2 ^ 32) - q.consume).toNat
      ∧ (s.launches.filter (fun x => x.2.queue = qid && x.2.index = n % 2 ^ 32)).getLast? = some (id, l)
      ∧ l.closed = false)
    (fun s => ret [0] (s.doom id 0x00030001 { mcheck 0 (s.queueDie l) 0 0 0 0xFF 0xFF 0 with source := 4 }))
  ∧ Calls (.launchEnd ctx header n) (fun s => s.queueOf ctx header = some (qid, q)
      ∧ 2 ^ 31 ≤ (BitVec.ofNat 32 (n % 2 ^ 32) - q.consume).toNat
      ∧ (s.launches.filter (fun x => x.2.queue = qid && x.2.index = n % 2 ^ 32)).getLast? = some (id, l)
      ∧ l.closed = true) (fun s => ret [1] (if l.ended then s.endEntry l id 0x00030001 else s))
  ∧ (∀ (s : State) st, ∃ m k, s.endEntry l id st = s.bbox (s.queueDie l) 4 0x0C 0 0xFF 0xFF l.ctx
    [s.queueAddr l, BitVec.ofNat 64 (l.index + 2 ^ 32 * st), BitVec.ofNat 64 m, BitVec.ofNat 64 k])
  ∧ Calls (.launchEnd ctx header n) (fun s => s.queueOf ctx header = some (qid, q)
      ∧ (BitVec.ofNat 32 (n % 2 ^ 32) - q.consume).toNat < 2 ^ 31)
    (fun s => ret [0] { s with queues := s.queues.put qid { q with marked := q.marked ++ [n % 2 ^ 32] } })
  ∧ Calls (.launchEnd ctx header n) (fun s => s.queueOf ctx header = none) (ret [1])
  ∧ Calls (.bboxRead die ⟨sec, buffer⟩) (fun _ => True) (fun s => { s with host := { s.host with
      bbox := (buffer, (s.die die).events.flatMap (fun e =>
        Event.bytes (if e.secure = true ∧ sec = false then { e with ctx := 0, detail := [] } else e))) } })
  ∧ ev.bytes.length = 64 ∧ fieldLE ev.bytes 0 8 = ev.seq % 2 ^ 64 ∧ fieldLE ev.bytes 8 8 = ev.time % 2 ^ 64
  ∧ fieldLE ev.bytes 0x10 1 = ev.source % 256 ∧ fieldLE ev.bytes 0x11 1 = ev.code % 256
  ∧ fieldLE ev.bytes 0x12 2 = ev.core % 65536 ∧ fieldLE ev.bytes 0x14 1 = ev.warp % 256
  ∧ fieldLE ev.bytes 0x15 1 = ev.thread % 256 ∧ fieldLE ev.bytes 0x16 1 = (if ev.secure then 1 else 0)
  ∧ fieldLE ev.bytes 0x17 1 = 0 ∧ fieldLE ev.bytes 0x18 8 = ev.ctx % 2 ^ 64
  ∧ ∀ j, j < 4 → fieldLE ev.bytes (0x20 + 8 * j) 8 = (ev.detail.getD j 0).toNat

/-- R246, R251, R274, R313–R328, R363, R379, R408: contexts and queues are made and removed once the dies are released; a
shoot-down performs what is on its way, copies that have begun too, and leaves the context's cores no line; cells are set
up and fed; a report signs its nonce and the digests recorded at boot under the identity key; agents outside — the host
die's cores once the dies are released, PCIe endpoints and peer packages — read, write, perform atomics, reserve, store
conditionally, contribute as peers and apply at the home, in their world, and fault where no address is; a peer's
contributions are applied at its request; a region entry is written without its reserved bits, and a locked one does not
change; a package reset boots the image that verifies, or fails. What these rules leave open is the model's choice
(notes/assumptions/30, 32, 34, 35, 36, 39, 61 and 69). -/
def Obligations.HostSteps : Prop := ∀ (sec : Bool) root (bk bs sv : Word) excl imp ctx die (header : Word) va size cell
    (cfg : CellCfg) pkg (data bytes : List Byte) (nonce : BitVec 256) pa n (e : Nat) (w0 w1 : Word) id mem up rch
    (img rec_ : Image) (fw : FwSetup) (x : ExtAccess) a (y : Cell) (op : AtomOp) (dbl : Bool) (b c : Word) (launch : Nat)
    (key : OrdKey) (t : Nat),
  let ret (xs : List Word) (s : State) : State := { s with host := { s.host with reply := xs } }
  let open_ (sec : Bool) (s : State) : Prop := s.physical pa = some a ∧ s.physical (pa + (n - 1)) = some (a + (n - 1))
    ∧ 0 < n ∧ (sec = true ∨ ∀ k, k < n → s.secureMem (a + k) = false)
  let sees (xs : List Byte) (s : State) : State := { s with host := { s.host with read := xs } }
  let plain (s : State) : Prop := ∀ k, k < n → s.cellAt (a + k) = false
  let word : Nat := if dbl then 8 else 4
  let agents (P : (ExtAccess → Instr) → Agent → (State → Prop) → Prop) : Prop :=
    P (.hostCoreAccess sec) ⟨8, 0, sec, .outside, none⟩ (fun s => s.released = true)
    ∧ P .pcieEndpointAccess ⟨8, 1, false, .outside, none⟩ (fun _ => True)
    ∧ P (.peerPackageAccess pkg) ⟨9, pkg, false, .peer pkg, some pkg⟩ (fun _ => True)
  Calls (.ctxCreate sec root bk bs sv excl imp) (fun _ => True) (fun s =>
    { s with
      nextId := s.nextId + 1
      ctxs := s.ctxs.put s.nextId { secure := sec, root := root, backing := bk, backingSize := bs.toNat, save := sv,
                                    excl := excl, handler := 0, kinds := 0, debugger := false, template := [],
                                    allocs := [], imports := imp, preempt := [], asked := [], view := [],
                                    shot := s.nextVer }
      host := { s.host with reply := [BitVec.ofNat 64 s.nextId] } })
  ∧ Calls .ctxDestroy (fun s => s.ctxBusy s.turn.ix = true) (ret [1])
  ∧ (∀ s : State, s.issue = none → s.released = true → s.turn.ix = ctx → (s.ctxs.get? ctx).isSome = true →
    s.ctxBusy ctx = false →
    ∃ u : State, exec .ctxDestroy s = .next u.followed ∧ u.ctxs.get? ctx = none ∧ u.host.reply = [0]
      ∧ (∀ q ∈ u.queues, q.2.ctx ≠ ctx) ∧ u.mem = s.mem)
  ∧ Acts .ctxDestroy (fun s => s.released = false) (fun s => s)
  ∧ Calls (.queueCreate ctx header die) (fun s => s.ctxRead ctx header.toNat 64 = .ok bytes ∧ headerGood bytes = false)
    (fun s => ret [1] { s with nextId := s.nextId + 1 })
  ∧ (∀ s : State, s.issue = none → s.released = true → s.ctxRead ctx header.toNat 64 = .ok bytes →
    headerGood bytes = true →
    ∃ u q, exec (.queueCreate ctx header die) s = .next (State.followed (State.tryWrite u (u.dieWriter die false) ctx
        (header.toNat + 0x14) (leBytes 4 (fieldLE bytes 0x10 4))))
      ∧ u.queues.get? s.nextId = some q ∧ q.ctx = ctx ∧ q.header = header ∧ q.die = die ∧ q.served = true
      ∧ q.consume = BitVec.ofNat 32 (fieldLE bytes 0x10 4) ∧ u.mem = s.mem)
  ∧ (∀ s : State, s.issue = none → s.released = true →
    let v := s.settle.settleCopies ctx
    ∃ u : State, exec (.shootdown ctx va size) s = .next u.followed ∧ u.mem = v.mem
      ∧ (∀ c, v.ctxs.get? ctx = some c → u.ctxs.get? ctx = some { c with shot := v.nextVer })
      ∧ ∀ core ∈ v.ctxCores ctx, (u.core core).l1 = [])
  ∧ Calls (.cellConfig cell cfg) (fun s => s.cells.get? cell = none ∧ s.physical cfg.window = some a
      ∧ s.part.features.getLsbD 2 = true ∧ cell < 64 ∧ cfg.window / 2 ^ 50 = 2 ∧ cfg.window % 256 = 0
      ∧ cfg.result < 2 ^ 39 ∧ cfg.round < 2 ^ 39)
    (fun s => ret [0] { s with cells := s.cells.put cell ⟨{ cfg with window := a }, [], []⟩ })
  ∧ Calls (.cellConfig cell cfg) (fun s => s.cells.get? cell = some y ∧ y.round ≠ []) (ret [1])
  ∧ Acts (.cellContribution cell pkg data) (fun s => s.cells.get? cell = some y ∧ y.cfg.members.getLsbD pkg = true
      ∧ data.length = 256) (fun s => s.cellContribute cell pkg data)
  ∧ (∀ s : State, s.issue = none → s.released = true → ∃ u r, exec (.attest nonce) s = .next (State.followed u)
      ∧ r.nonce = leBytes 32 nonce.toNat ∧ r.image = s.host.imageHash
      ∧ r.version = s.host.version ∧ r.region = s.host.regionHash ∧ r.caps = shake256 s.host.caps ∧ u.mem = s.mem
      ∧ let key := s.part.identity.take 1793
        let digest := shake256 (r.nonce ++ leBytes 4 s.host.version.toNat ++ s.host.imageHash ++ r.region ++ r.caps)
        r.sig = Config.falconSign key digest
        ∧ u.host.report = if falconVerify key digest r.sig = true then some r else none)
  ∧ Acts (.hostCoreAccess sec x) (fun s => s.released = false) (fun s => s)
  ∧ agents (fun i g on =>
    Acts (i (.read pa n)) (fun s => on s ∧ open_ g.secure s) (fun s => sees (rdBytes s.mem a n) s)
    ∧ Acts (i (.lres pa dbl t)) (fun s => on s ∧ n = word ∧ open_ g.secure s) (fun s => sees (rdBytes s.mem a n)
      { s with peerResv := (g.id, t, a / 32) :: s.peerResv.filter (fun x => !(x.1 = g.id && x.2.1 = t)) })
    ∧ Acts (i (.write pa data)) (fun s => on s ∧ n = data.length ∧ open_ g.secure s ∧ plain s)
      (fun s => s.writePa (s.agentWriter g) a data)
    ∧ (∀ s : State, s.issue = none → on s → n = word → open_ g.secure s → plain s →
      (∃ by_ : Writer, by_.spot = g.spot ∧ exec (i (.atom op pa dbl b c)) s = .next (State.followed
        (sees (rdBytes s.mem a n) (s.writePa by_ a (leBytes n (atomNew op dbl (rdNat s.mem a n) (b.toNat % 2 ^ (8 * n))
          (c.toNat % 2 ^ (8 * n))))))))
      ∧ (let spent (s : State) : State :=
          { s with peerResv := s.peerResv.filter (fun x => !(x.1 = g.id && x.2.1 = t)) }
        exec (i (.scond pa dbl b t)) s = .next (State.followed (if (g.id, t, a / 32) ∈ s.peerResv
          then sees [1] (spent (s.writePa (s.agentWriter g) a (leBytes n b.toNat))) else sees [0] (spent s))))
      ∧ exec (i (.ordf pa dbl)) s = .next (State.followed (s.applyOrd a dbl (fun _ => true) (s.agentWriter g) .none))
      ∧ exec (i (.contribute pa dbl b launch key.cls key.block key.rank key.seq)) s = .next (State.followed
        (if g.pkg = some pkg then s.contribute ⟨a, dbl, b, key, pkg, launch⟩ else s)))
    ∧ Acts (i x) (fun s => on s ∧ reach x = some (pa, n) ∧ 0 < n ∧ s.physical pa = some a
        ∧ (s.physical (pa + (n - 1))).isSome = true ∧ g.secure = false ∧ ∃ k, k < n ∧ s.secureMem (a + k) = true)
      (fun s => State.bbox (sees [] s) 0 g.source 0x03 0 0xFF 0xFF 0 [BitVec.ofNat 64 pa, BitVec.ofNat 64 g.num])
    ∧ ∀ s : State, on s → reach x = some (pa, n) → s.physical pa = none → exec (i x) s = .fault (.noSuchAddress pa))
  ∧ (∀ s : State, pkg ≠ s.trellis.id →
    s.contribute ⟨a, dbl, b, key, pkg, launch⟩ = { s with ordq := s.ordq ++ [⟨a, dbl, b, key, pkg, launch⟩] })
  ∧ (∀ old B C, old < 2 ^ (8 * word) → B < 2 ^ (8 * word) → C < 2 ^ (8 * word) →
    let sg (x : Nat) : Int := sgnOf (8 * word) x
    atomNew op dbl old B C % 2 ^ (8 * word) = (match op with
      | .add => (old + B) % 2 ^ (8 * word)
      | .minI => if sg B < sg old then B else old
      | .maxI => if sg old < sg B then B else old
      | .minN => min old B
      | .maxN => max old B
      | .and => old &&& B
      | .or => old ||| B
      | .xor => old ^^^ B
      | .xchg => B
      | .cas => if old = C then B else old
      | .incwrap => if B ≤ old then 0 else old + 1
      | .fadd => (fAdd (if dbl then fp64 else fp32) .rne false old B).1 % 2 ^ (8 * word)
      | .fmin => (fMinMax (if dbl then fp64 else fp32) false old B).1 % 2 ^ (8 * word)
      | .fmax => (fMinMax (if dbl then fp64 else fp32) true old B).1 % 2 ^ (8 * word)))
  ∧ (∀ (s : State) by_, (∀ k, k < data.length → s.cellAt (a + k) = false) →
    (∀ k, k < data.length → inCapFrame (a + k) = false) →
    let u := s.writePa by_ a data
    rdBytes u.mem a data.length = data ∧ ∀ z, (z < a ∨ a + data.length ≤ z) → rdByte u.mem z = rdByte s.mem z)
  ∧ Acts .peerApplicationRequest (fun s => ∀ c ∈ s.ordq, c.pkg ≠ s.turn.ix) (fun s => s)
  ∧ Acts .peerApplicationRequest (fun s => s.turn.ix ≠ s.trellis.id) (fun s =>
    let mine (c : Contrib) : Bool := c.launch = s.turn.k && c.pkg = s.turn.ix && s.turn.ix != s.trellis.id
    (s.wordsOf mine).foldl (fun s x => s.applyOrd x.1 x.2 mine (s.dieWriter (homeDie x.1) false) .none) s)
  ∧ Calls (.regionTableWrite e w0 w1) (fun s => e < 64 ∧ (s.regions.get (0, 0) e).1.getLsbD 3 = false)
    (fun s => { s with regions := s.regions.set (0, 0) e (w0 &&& 0x000FFFFFFFFF00FB, w1 &&& 0x000FFFFFFFFF0000) })
  ∧ Calls (.regionTableWrite e w0 w1) (fun s => (s.regions.get (0, 0) e).1.getLsbD 3 = true) (fun s => s)
  ∧ Calls (.domainBringUp id mem ⟨up, rch⟩) (fun _ => True) (fun s => { s with trellis := ⟨id, mem, up, rch⟩ })
  ∧ Acts (.packageReset img rec_ fw) (fun _ => True) (fun s =>
    if s.fresh0.verifies img then s.fresh0.boots img fw
    else if s.fresh0.verifies rec_ then s.fresh0.boots rec_ fw
    else { s.fresh0 with host := { s.fresh0.host with bootStatus := 2 } })

/-- R247, R374–R377, R380: an L2 or HBM errs in the lines of its own die only; a corrected error is reported in class 0, or
counted where the queue is full, and a line of an instruction cache that errs goes; an error in what a launch owns, or in
a command, ends the launch, and a location whose bits stay wrong is recorded; a PCIe load that errs reads all ones; a load
from a peer that no port reaches ends its launch. The fields of the record are the model's choice where R377 leaves them
open (notes/assumptions/18 and 38). -/
def Obligations.ErrorSteps : Prop := ∀ (id pkg : Nat) (l : Load) (c : Cmd) (x : Launch) (p : Place) (v : List Word),
  let full (s : State) : State := State.bbox { s with host := { s.host with dropped := s.host.dropped + 1 } } s.turn.k
    8 0x02 0 0xFF 0xFF 0 [BitVec.ofNat 64 (s.host.dropped + 1)]
  let noted (s : State) : State := s.deliver { mcheck 25 s.turn.k (storeCode s.turn.store) s.turn.ix
    (errPlace s.turn.store s.turn.ix s.turn.m) 0xFF 0xFF 0 with
      cls := 0, source := storeSource s.turn.store, time := s.time }
  let found (s : State) : MCheck := { mcheck 25 s.turn.k (storeCode s.turn.store) s.turn.m
    (errPlace s.turn.store s.turn.m s.turn.ix) 0xFF 0xFF 0 with source := storeSource s.turn.store }
  let here (s : State) (loc : Nat) : Prop :=
    s.turn.store = .l2 ∨ s.turn.store = .hbm → loc < 2 ^ 39 ∧ homeDie loc = s.turn.k
  Acts .correctedError (fun s => s.turn.flag = false ∧ s.turn.store ≠ .l1Instr ∧ here s s.turn.ix) noted
  ∧ Acts .correctedError (fun s => s.turn.flag = true ∧ s.turn.store ≠ .l1Instr ∧ here s s.turn.ix) full
  ∧ Acts .correctedError (fun s => ¬here s s.turn.ix) (fun s => s)
  ∧ Acts .uncorrectableError (fun s => ¬here s s.turn.m) (fun s => s)
  ∧ Acts .correctedError (fun s => s.turn.flag = false ∧ s.turn.store = .l1Instr) (fun s =>
    noted (s.updCore (132 * s.turn.k + s.turn.m % 132) (fun c => { c with l1i := c.l1i.del (s.turn.ix / 256) })))
  ∧ Acts .scrubCorrection (fun s => s.turn.flag = false ∧ (s.turn.store = .hbm ∨ s.turn.store = .weight)
      ∧ here s s.turn.ix) noted
  ∧ Acts .uncorrectableError (fun s => s.turn.site = .owned id ∧ s.launches.get? id = some x ∧ s.turn.flag = false
      ∧ s.turn.store ≠ .l1Instr ∧ here s s.turn.m) (fun s => s.doom id 0x00010002 (found s))
  ∧ Acts .uncorrectableError (fun s => s.turn.site = .owned id ∧ s.launches.get? id = some x ∧ s.turn.flag = true
      ∧ s.turn.store ≠ .l1Instr ∧ here s s.turn.m ∧ badPlace s.turn.store s.turn.k s.turn.m s.turn.ix = some p)
    (fun s => State.doom { s with bad := p :: s.bad.filter (· != p) } id 0x00010002 (found s))
  ∧ Acts .uncorrectableError (fun s => s.turn.store = .l1Instr) (fun s => s)
  ∧ (∀ s : State, s.issue = none → s.turn.flag = false → s.turn.store ≠ .l1Instr → here s s.turn.m → s.turn.site = .command id →
    s.cmds.get? id = some c →
    ∃ m, exec .uncorrectableError s = .next (State.followed (s.doom c.launch 0x00010002 m)) ∧ m.kind = 25
      ∧ m.store = storeCode s.turn.store ∧ m.location = s.turn.m ∧ m.thread = c.thread)
  ∧ (∀ s : State, s.issue = none → s.turn.flag = false → s.turn.ix = id → s.loads.get? id = some l → l.place.pcie = true →
    l.homed = false → l.val = some v → l.sx = false → l.bytes = 8 →
    ∃ u l', exec .pcieTimeout s = .next (State.followed u) ∧ u.loads.get? id = some l'
      ∧ l'.val = some (v.map (fun _ => BitVec.allOnes 64)) ∧ u.mem = s.mem)
  ∧ (∀ s : State, s.issue = none → s.turn.m = 0 → s.turn.ix = id → s.loads.get? id = some l →
    l.places.find? (fun p => !s.reaches p) = some p → p.peer = some pkg →
    ∃ u m, exec .peerUnreachable s = .next (State.followed (State.doom u
      (((s.warp? l.warp).map Warp.launch).getD 0) 0x00010002 m)) ∧ m.kind = 25 ∧ m.thread = l.thread
      ∧ u.mem = s.mem ∧ u.warps = s.warps)
end

