-- ==== Sys2Proof/Laws/Driver.lean ====
section
/-! SUPPORT. What the shared operations of Driver.lean do: one lemma for each way in which an instruction's
meaning performs its syllable. -/

namespace Sys2Proof.Machine

/-- The syllable of the path whose turn it is. -/
theorem syllable_turn {s : State} {iss : Issue} {w : Warp} {p : Path} (h : AtTurn s iss w p)
    (f : Issue → Warp → State → Path → State × Path) :
    s.syllable f = .next ((f iss w s p).1.after iss (f iss w s p).2) := by
  obtain ⟨hi, hw, ht⟩ := h
  simp only [State.syllable, hi, hw, ht, State.after, Path.pass]

/-- An operation whose body answers a path. -/
theorem onOp_ok {s t : State} {iss : Issue} {w : Warp} {p q : Path} {i : Instr} {g : Guard} {wt : Nat}
    {six : Reserved} {body : Body} (h : Performs i g s iss w p) (h6 : six s iss w p = false)
    (hb : body s iss w p = (t, .ok q)) :
    s.onOp i g wt six body = .next (t.after iss (q.weigh wt)) := by
  rw [State.onOp, syllable_turn h.toAtTurn]
  simp [opPath, h.guard, h6, h.right, hb]

/-- An operation whose body answers a fault. -/
theorem onOp_error {s t : State} {iss : Issue} {w : Warp} {p : Path} {i : Instr} {g : Guard} {wt : Nat}
    {six : Reserved} {body : Body} {f : PFault} (h : Performs i g s iss w p) (h6 : six s iss w p = false)
    (hb : body s iss w p = (t, .error f)) :
    s.onOp i g wt six body = .next (t.after iss ((p.fail f).weigh wt)) := by
  rw [State.onOp, syllable_turn h.toAtTurn]
  simp [opPath, h.guard, h6, h.right, hb]

/-- An operation that only changes its path. -/
theorem alu_ok {s : State} {iss : Issue} {w : Warp} {p : Path} {i : Instr} {g : Guard} {wt : Nat}
    (f : State → Issue → Warp → Path → Path) (h : Performs i g s iss w p) :
    s.alu i g wt f = .next (s.after iss ((f s iss w p).weigh wt)) :=
  onOp_ok h rfl rfl

theorem op1_ok {s : State} {iss : Issue} {w : Warp} {p : Path} {i : Instr} {g : Guard} {wt : Nat} {ty : DTy}
    {d a : Operand} (f : Word → Word) (h : Performs i g s iss w p) :
    s.op1 i g wt ty d a f = .next (s.after iss ((p.setDst d (f (s.rdD iss w p ty a))).weigh wt)) :=
  alu_ok _ h

theorem op2_ok {s : State} {iss : Issue} {w : Warp} {p : Path} {i : Instr} {g : Guard} {wt : Nat} {ty : DTy}
    {d a b : Operand} (f : Word → Word → Word) (h : Performs i g s iss w p) :
    s.op2 i g wt ty d a b f
      = .next (s.after iss ((p.setDst d (f (s.rdD iss w p ty a) (s.rdD iss w p ty b))).weigh wt)) :=
  alu_ok _ h

theorem op3_ok {s : State} {iss : Issue} {w : Warp} {p : Path} {i : Instr} {g : Guard} {wt : Nat} {ty : DTy}
    {d a b c : Operand} (f : Word → Word → Word → Word) (h : Performs i g s iss w p) :
    s.op3 i g wt ty d a b c f = .next (s.after iss ((p.setDst d
      (f (s.rdD iss w p ty a) (s.rdD iss w p ty b) (s.rdD iss w p ty c))).weigh wt)) :=
  alu_ok _ h

/-- The syllable is wrong for the thread. -/
theorem onOp_wrong {s : State} {iss : Issue} {w : Warp} {p : Path} {i : Instr} {g : Guard} {wt : Nat}
    {six : Reserved} {body : Body} {f : PFault} (h : AtTurn s iss w p)
    (hj : s.judge iss w p i (p.guard g) (p.guard g && six s iss w p) = some f) :
    s.onOp i g wt six body = .next (s.after iss (p.fail f)) := by
  rw [State.onOp, syllable_turn h]
  simp [opPath, hj]

/-- The guard is false. -/
theorem onOp_off {s : State} {iss : Issue} {w : Warp} {p : Path} {i : Instr} {g : Guard} {wt : Nat}
    {six : Reserved} {body : Body} (h : AtTurn s iss w p) (hg : p.guard g = false)
    (hj : s.judge iss w p i false false = none) :
    s.onOp i g wt six body = .next (s.after iss (p.weigh 1)) := by
  rw [State.onOp, syllable_turn h]
  simp [opPath, hg, hj]

/-- A test. -/
theorem onTest_ok {s : State} {iss : Issue} {w : Warp} {p : Path} {i : Instr}
    (f : State → Issue → Warp → Path → Bool) (h : Performs i .always s iss w p) :
    s.onTest i f = .next (s.after iss
      ({ p with pos := 2 * p.pos + (if f s iss w p then 1 else 0) }.weigh 1)) := by
  rw [State.onTest, syllable_turn h.toAtTurn]
  simp [testPath, h.right]

/-- A leaf whose body answers a path. -/
theorem onLeaf_ok {s t : State} {iss : Issue} {w : Warp} {p q : Path} {i : Instr} {f : Body}
    (h : Performs i .always s iss w p) (hb : f s iss w p = (t, .ok q)) :
    s.onLeaf i f = .next (t.after iss q) := by
  rw [State.onLeaf, syllable_turn h.toAtTurn]
  simp [leafPath, h.right, hb]

/-- A leaf whose body answers a fault. -/
theorem onLeaf_error {s t : State} {iss : Issue} {w : Warp} {p : Path} {i : Instr} {f : Body} {e : PFault}
    (h : Performs i .always s iss w p) (hb : f s iss w p = (t, .error e)) :
    s.onLeaf i f = .next (t.after iss (p.fail e)) := by
  rw [State.onLeaf, syllable_turn h.toAtTurn]
  simp [leafPath, h.right, hb]

/-! ### Every thread of an issue -/

/-- Where no verdict faults a path, the verdicts at one syllable change nothing. -/
theorem verdictsAt_none {s : State} {iss : Issue} {w : Warp} (h : ∀ p ∈ iss.paths, s.verdict iss w p = none) (n : Nat) :
    s.verdictsAt iss.paths w iss n = iss := by
  have hp : ∀ p ∈ iss.paths, (match (p.fx.filter (fun x => x.voted == some n)).findSome?
        (s.voteIn iss.paths iss w p.t) with
      | some f => p.cut n f
      | none => p) = id p := by
    intro p hm
    have hv : ∀ x ∈ p.fx, s.voteIn iss.paths iss w p.t x = none := List.findSome?_eq_none_iff.mp (h p hm)
    rw [List.findSome?_eq_none_iff.mpr (fun x hx => hv x (List.mem_filter.mp hx).1)]
    rfl
  have hm := (List.map_congr_left hp).trans (List.map_id _)
  exact congrArg (fun ps => { iss with paths := ps }) hm

/-- Where no verdict faults a path, the verdicts on all syllables change nothing. -/
theorem verdictPass_none {s : State} {iss : Issue} {w : Warp} (h : ∀ p ∈ iss.paths, s.verdict iss w p = none) :
    s.verdictPass iss w iss.paths = iss.paths := by
  have hl : ∀ l : List Nat, l.foldl (s.verdictsAt iss.paths w) iss = iss := fun l => by
    induction l with
    | nil => rfl
    | cons n l ih => rw [List.foldl_cons, verdictsAt_none h, ih]
  simp only [State.verdictPass, hl]

/-- Where no verdict faults a path, the paths go on as they are. -/
theorem verdicts_none {s : State} {iss : Issue} {w : Warp} (h : ∀ p ∈ iss.paths, s.verdict iss w p = none) :
    s.verdicts iss w = iss.paths := by
  simp only [State.verdicts, State.settleVerdicts, verdictPass_none h, beq_self_eq_true, if_true]

/-- A collective, when every path that goes on stands at it and no verdict faults one. -/
theorem onCollective_before {s : State} {iss : Issue} {w : Warp} (h : Before s iss w) (i : Instr) (g : Guard) (wt : Nat)
    (f : Collective) : s.onCollective i g wt f =
      let ps := iss.paths.map (joinIn i g s iss w)
      let parts := (ps.filter (·.2)).map (·.1)
      let qs := ps.map (fun (p, on) =>
        if on then ((f s iss w parts p).weigh wt).pass else if (iss.stand p).isSome then (p.weigh 1).pass else p)
      .next { s with issue := some { iss with
        paths := qs.map (fun p => { p with weight := 0 })
        cost := iss.cost + stretchCost qs } } := by
  obtain ⟨hi, hw, ht, hc⟩ := h
  simp only [State.onCollective, hi, hw, ht, verdicts_none hc]

end Sys2Proof.Machine
end

