-- ==== Sys2Proof/Laws/Elements.lean ====
section
/-! SUPPORT. Packed elements: reading a written element gives it back (R131), and what the elementwise
operations of Alu.lean and Logic.lean write. -/

namespace Sys2Proof.Machine

theorem pack_lt (w : Nat) (xs : List Nat) : pack w xs < 2 ^ (w * xs.length) := by
  induction xs with
  | nil => simp [pack]
  | cons x r ih =>
    simp only [pack, List.length_cons, Nat.mul_add, Nat.mul_one, Nat.pow_add]
    have h1 : x % 2 ^ w < 2 ^ w := Nat.mod_lt _ (by positivity)
    have h2 : pack w r + 1 ≤ 2 ^ (w * r.length) := ih
    have h3 : 2 ^ w * (pack w r + 1) ≤ 2 ^ w * 2 ^ (w * r.length) := Nat.mul_le_mul_left _ h2
    rw [Nat.mul_add, Nat.mul_one] at h3
    rw [Nat.mul_comm (2 ^ (w * r.length))]
    omega

theorem pack_field (w : Nat) (xs : List Nat) (k : Nat) (hk : k < xs.length) :
    pack w xs / 2 ^ (w * k) % 2 ^ w = xs.getD k 0 % 2 ^ w := by
  induction xs generalizing k with
  | nil => simp at hk
  | cons x r ih =>
    cases k with
    | zero => simp [pack]
    | succ k =>
      have hw : 0 < 2 ^ w := by positivity
      have h1 : (x % 2 ^ w + 2 ^ w * pack w r) / 2 ^ w = pack w r := by
        rw [Nat.add_mul_div_left _ _ hw, Nat.div_eq_of_lt (Nat.mod_lt _ hw), Nat.zero_add]
      simp only [pack, Nat.mul_add, Nat.mul_one, Nat.pow_add, Nat.mul_comm (2 ^ (w * k)) (2 ^ w)]
      rw [← Nat.div_div_eq_div_mul, h1]
      simpa using ih k (by simpa using hk)

theorem wI_count (ty : ITy) (h : ty.count ≠ 1) : wI ty * ty.count = 64 := by
  cases ty <;> first | rfl | exact absurd rfl h

theorem wI_pos (ty : ITy) : 0 < wI ty := by cases ty <;> decide

theorem wI_le (ty : ITy) : wI ty ≤ 64 := by cases ty <;> decide

/-- Reading a field that holds an exact result reduced modulo 2^w. -/
theorem read_wrapI (ty : ITy) (x : Int) :
    (if ty.signed then sgnOf (wI ty) (x % 2 ^ wI ty).toNat else ((x % 2 ^ wI ty).toNat : Int)) = wrapI ty x := by
  have hw : (0 : Int) < 2 ^ wI ty := by positivity
  have h0 : 0 ≤ x % 2 ^ wI ty := Int.emod_nonneg _ hw.ne'
  have h1 : x % 2 ^ wI ty < 2 ^ wI ty := Int.emod_lt_of_pos _ hw
  have hp := wI_pos ty
  unfold wrapI
  split
  · have e : (x % 2 ^ wI ty).toNat % 2 ^ wI ty = (x % 2 ^ wI ty).toNat := by
      apply Nat.mod_eq_of_lt
      have : ((x % 2 ^ wI ty).toNat : Int) < ((2 ^ wI ty : Nat) : Int) := by
        rw [Int.toNat_of_nonneg h0]; exact_mod_cast h1
      exact_mod_cast this
    have e2 : ((x % 2 ^ wI ty).toNat : Int) = x % 2 ^ wI ty := Int.toNat_of_nonneg h0
    have hhalf : (2 : Nat) ^ wI ty = 2 * 2 ^ (wI ty - 1) := by
      rw [← Nat.pow_succ']; congr 1; omega
    unfold sgnOf
    rw [e]
    have hb : x.bmod (2 ^ wI ty) = if x % ((2 ^ wI ty : Nat) : Int) < (((2 ^ wI ty : Nat) : Int) + 1) / 2 then
        x % ((2 ^ wI ty : Nat) : Int) else x % ((2 ^ wI ty : Nat) : Int) - ((2 ^ wI ty : Nat) : Int) := rfl
    rw [hb]
    push_cast
    have hhalf' : (2 : Int) ^ wI ty = 2 * 2 ^ (wI ty - 1) := by exact_mod_cast hhalf
    split <;> split <;> rename_i a b
    · exact e2
    · exfalso
      have a' : ((x % 2 ^ wI ty).toNat : Int) < 2 ^ (wI ty - 1) := by exact_mod_cast a
      omega
    · exfalso
      have a' : ¬((x % 2 ^ wI ty).toNat : Int) < 2 ^ (wI ty - 1) := by exact_mod_cast a
      omega
    · rw [e2]
  · exact Int.toNat_of_nonneg h0

theorem writeI_field (ty : ITy) (xs : List Int) (h : xs.length = ty.count) (k : Nat) (hk : k < ty.count) :
    fieldAt (writeI ty xs) (wI ty) k = (xs.getD k 0 % 2 ^ wI ty).toNat := by
  have hlt : ∀ x : Int, (x % 2 ^ wI ty).toNat < 2 ^ wI ty := by
    intro x
    have h1 : x % 2 ^ wI ty < 2 ^ wI ty := Int.emod_lt_of_pos _ (by positivity)
    have h0 : 0 ≤ x % 2 ^ wI ty := Int.emod_nonneg _ (by positivity)
    have : ((x % 2 ^ wI ty).toNat : Int) < ((2 ^ wI ty : Nat) : Int) := by
      rw [Int.toNat_of_nonneg h0]; exact_mod_cast h1
    exact_mod_cast this
  unfold writeI fieldAt
  by_cases hc : ty.count = 1
  · obtain rfl : k = 0 := by omega
    match xs, h with
    | x :: r, _ =>
      have hl := hlt x
      simp only [hc, if_true, List.headD_cons, List.getD_cons_zero, Nat.mul_zero, Nat.pow_zero, Nat.div_one]
      split
      · rw [BitVec.toNat_signExtend]
        simp only [BitVec.toNat_setWidth, BitVec.toNat_ofNat, Nat.mod_eq_of_lt hl]
        have h64 := wI_le ty
        have hm : (x % 2 ^ wI ty).toNat % 2 ^ 64 = (x % 2 ^ wI ty).toNat :=
          Nat.mod_eq_of_lt (lt_of_lt_of_le hl (Nat.pow_le_pow_right (by decide) h64))
        rw [hm]
        split
        · have e : (2 : Nat) ^ 64 - 2 ^ wI ty = 2 ^ wI ty * (2 ^ (64 - wI ty) - 1) := by
            rw [Nat.mul_sub, ← Nat.pow_add, Nat.add_sub_cancel' h64, Nat.mul_one]
          rw [e, Nat.add_mul_mod_self_left, Nat.mod_eq_of_lt hl]
        · simp [Nat.mod_eq_of_lt hl]
      · have h64 := wI_le ty
        simp only [BitVec.toNat_ofNat]
        rw [Nat.mod_eq_of_lt (lt_of_lt_of_le hl (Nat.pow_le_pow_right (by decide) h64)), Nat.mod_eq_of_lt hl]
    | [], h => simp [hc] at h
  · simp only [hc, if_false]
    have hp := pack_lt (wI ty) (xs.map (fun x => (x % 2 ^ wI ty).toNat))
    rw [List.length_map, h, wI_count ty hc] at hp
    rw [BitVec.toNat_ofNat, Nat.mod_eq_of_lt hp, pack_field _ _ _ (by rw [List.length_map, h]; exact hk)]
    rw [List.getD_eq_getElem?_getD, List.getD_eq_getElem?_getD, List.getElem?_map,
      List.getElem?_eq_getElem (by rw [h]; exact hk)]
    simp [Nat.mod_eq_of_lt (hlt _)]

/-- A list of one exact result for each element, written through the type. -/
theorem writeI_holds (ty : ITy) (xs : List Int) (h : xs.length = ty.count) :
    Holds ty (fun k => xs.getD k 0) (writeI ty xs) := by
  have he : ∀ k, k < ty.count → elemI ty (writeI ty xs) k = wrapI ty (xs.getD k 0) := by
    intro k hk
    unfold elemI
    rw [writeI_field ty xs h k hk, read_wrapI]
  refine ⟨he, fun hc => ?_⟩
  rw [he 0 (by omega)]
  match xs, h with
  | x :: r, _ =>
    unfold writeI wrapI
    simp only [hc, if_true, List.headD_cons, List.getD_cons_zero]
    have h0 : 0 ≤ x % 2 ^ wI ty := Int.emod_nonneg _ (by positivity)
    split
    · apply BitVec.eq_of_toInt_eq
      rw [BitVec.toInt_signExtend_of_le (wI_le ty), BitVec.toInt_ofNat', BitVec.toInt_ofInt]
      have hd : (2 ^ wI ty : Nat) ≤ 2 ^ 64 := Nat.pow_le_pow_right (by decide) (wI_le ty)
      have h1 : ((x % 2 ^ wI ty).toNat : Int).bmod (2 ^ wI ty) = x.bmod (2 ^ wI ty) := by
        rw [Int.toNat_of_nonneg h0]
        have := Int.emod_bmod (x := x) (n := 2 ^ wI ty)
        push_cast at this
        exact this
      have h2 : (x.bmod (2 ^ wI ty)).bmod (2 ^ 64) = x.bmod (2 ^ wI ty) := by
        have hb1 : -(((2 ^ wI ty : Nat) : Int) / 2) ≤ x.bmod (2 ^ wI ty) := Int.le_bmod (by positivity)
        have hb2 : x.bmod (2 ^ wI ty) < (((2 ^ wI ty : Nat) : Int) + 1) / 2 := Int.bmod_lt (by positivity)
        have hd' : ((2 ^ wI ty : Nat) : Int) ≤ 2 ^ 64 := by exact_mod_cast hd
        have hev : ∃ k : Int, ((2 ^ wI ty : Nat) : Int) = 2 * k := by
          refine ⟨2 ^ (wI ty - 1), ?_⟩
          have := wI_pos ty
          push_cast
          rw [← pow_succ']
          congr 1
          omega
        obtain ⟨k, hk⟩ := hev
        rw [hk] at hb1 hb2
        have h64 : ((2 ^ 64 : Nat) : Int) = 18446744073709551616 := by decide
        have h64' : ((2 : Int) ^ 64) = 18446744073709551616 := by decide
        rw [hk, h64'] at hd'
        apply Int.bmod_eq_of_le
        · rw [h64]; omega
        · rw [h64]; omega
      rw [h2]
      exact h1
    · apply BitVec.eq_of_toNat_eq
      rw [BitVec.toNat_ofNat, BitVec.toNat_ofInt]
      have : ((x % 2 ^ wI ty).toNat : Int) = x % 2 ^ wI ty := Int.toNat_of_nonneg h0
      rw [← this]
      simp
      omega
  | [], h => simp [hc] at h

theorem getD_map_range {n k : Nat} (f : Nat → Int) (hk : k < n) : ((List.range n).map f).getD k 0 = f k := by
  simp [List.getD_eq_getElem?_getD, hk]

/-- Results computed element by element. -/
theorem holds_range (ty : ITy) (f : Nat → Int) : Holds ty f (writeI ty ((List.range ty.count).map f)) := by
  have h := writeI_holds ty ((List.range ty.count).map f) (by simp)
  exact ⟨fun k hk => by rw [h.elem k hk]; simp only [getD_map_range f hk], h.whole⟩

theorem map1_holds (ty : ITy) (f : Int → Int) (a : Word) : Holds ty (fun k => f (elemI ty a k)) (map1 ty f a) :=
  holds_range ty _

theorem map2_holds (ty : ITy) (f : Int → Int → Int) (a b : Word) :
    Holds ty (fun k => f (elemI ty a k) (elemI ty b k)) (map2 ty f a b) :=
  holds_range ty _

theorem map3_holds (ty : ITy) (f : Int → Int → Int → Int) (a b c : Word) :
    Holds ty (fun k => f (elemI ty a k) (elemI ty b k) (elemI ty c k)) (map3 ty f a b c) :=
  holds_range ty _

theorem mapU1_holds (ty : ITy) (f : Nat → Int) (a : Word) :
    Holds ty (fun k => f (fieldAt a (wI ty) k)) (mapU1 ty f a) :=
  holds_range ty _

theorem mapU2_holds (ty : ITy) (f : Nat → Nat → Int) (a b : Word) :
    Holds ty (fun k => f (fieldAt a (wI ty) k) (fieldAt b (wI ty) k)) (mapU2 ty f a b) :=
  holds_range ty _

/-- An elementwise operation of one source. -/
theorem map1_writes {i : Instr} {g : Guard} {wt : Nat} {ty : ITy} {d a : Operand} (f : Int → Int)
    (hi : ∀ s, exec i s = s.op1 i g wt (.i ty) d a (map1 ty f)) :
    WritesTo i g wt d (fun s iss w p => Holds ty (fun k => f (s.srcI iss w p ty a k))) :=
  fun s _ _ _ h => ⟨_, map1_holds ty f _, by rw [hi s]; exact op1_ok _ h⟩

theorem map2_writes {i : Instr} {g : Guard} {wt : Nat} {ty : ITy} {d a b : Operand} (f : Int → Int → Int)
    (hi : ∀ s, exec i s = s.op2 i g wt (.i ty) d a b (map2 ty f)) :
    WritesTo i g wt d (fun s iss w p => Holds ty (fun k => f (s.srcI iss w p ty a k) (s.srcI iss w p ty b k))) :=
  fun s _ _ _ h => ⟨_, map2_holds ty f _ _, by rw [hi s]; exact op2_ok _ h⟩

theorem map3_writes {i : Instr} {g : Guard} {wt : Nat} {ty : ITy} {d a b c : Operand} (f : Int → Int → Int → Int)
    (hi : ∀ s, exec i s = s.op3 i g wt (.i ty) d a b c (map3 ty f)) :
    WritesTo i g wt d (fun s iss w p =>
      Holds ty (fun k => f (s.srcI iss w p ty a k) (s.srcI iss w p ty b k) (s.srcI iss w p ty c k))) :=
  fun s _ _ _ h => ⟨_, map3_holds ty f _ _ _, by rw [hi s]; exact op3_ok _ h⟩

theorem mapU1_writes {i : Instr} {g : Guard} {wt : Nat} {ty : ITy} {d a : Operand} (f : Nat → Int)
    (hi : ∀ s, exec i s = s.op1 i g wt (.i ty) d a (mapU1 ty f)) :
    WritesTo i g wt d (fun s iss w p => Holds ty (fun k => f (s.srcU iss w p ty a k))) :=
  fun s _ _ _ h => ⟨_, mapU1_holds ty f _, by rw [hi s]; exact op1_ok _ h⟩

theorem mapU2_writes {i : Instr} {g : Guard} {wt : Nat} {ty : ITy} {d a b : Operand} (f : Nat → Nat → Int)
    (hi : ∀ s, exec i s = s.op2 i g wt (.i ty) d a b (mapU2 ty f)) :
    WritesTo i g wt d (fun s iss w p => Holds ty (fun k => f (s.srcU iss w p ty a k) (s.srcU iss w p ty b k))) :=
  fun s _ _ _ h => ⟨_, mapU2_holds ty f _ _, by rw [hi s]; exact op2_ok _ h⟩

/-- A weaker relation. -/
theorem WritesTo.mono {i : Instr} {g : Guard} {wt : Nat} {d : Operand}
    {R S : State → Issue → Warp → Path → Word → Prop} (h : WritesTo i g wt d R)
    (hrs : ∀ s iss w p x, R s iss w p x → S s iss w p x) : WritesTo i g wt d S := by
  intro s iss w p hp
  obtain ⟨x, hx, he⟩ := h s iss w p hp
  exact ⟨x, hrs _ _ _ _ _ hx, he⟩

/-- Results with equal residues modulo 2^w are written alike. -/
theorem Holds.congr {ty : ITy} {f g : Nat → Int} {x : Word} (h : Holds ty f x)
    (hfg : ∀ k, k < ty.count → f k % 2 ^ wI ty = g k % 2 ^ wI ty) : Holds ty g x := by
  refine ⟨fun k hk => ?_, h.whole⟩
  rw [h.elem k hk, ← read_wrapI, ← read_wrapI, hfg k hk]

/-- An operation of one source, by its function. -/
theorem op1_writes {i : Instr} {g : Guard} {wt : Nat} {ty : DTy} {d a : Operand} (f : Word → Word)
    (hi : ∀ s, exec i s = s.op1 i g wt ty d a f) :
    WritesTo i g wt d (fun s iss w p x => x = f (s.rdD iss w p ty a)) :=
  fun s _ _ _ h => ⟨_, rfl, by rw [hi s]; exact op1_ok _ h⟩

theorem op2_writes {i : Instr} {g : Guard} {wt : Nat} {ty : DTy} {d a b : Operand} (f : Word → Word → Word)
    (hi : ∀ s, exec i s = s.op2 i g wt ty d a b f) :
    WritesTo i g wt d (fun s iss w p x => x = f (s.rdD iss w p ty a) (s.rdD iss w p ty b)) :=
  fun s _ _ _ h => ⟨_, rfl, by rw [hi s]; exact op2_ok _ h⟩

theorem op3_writes {i : Instr} {g : Guard} {wt : Nat} {ty : DTy} {d a b c : Operand} (f : Word → Word → Word → Word)
    (hi : ∀ s, exec i s = s.op3 i g wt ty d a b c f) :
    WritesTo i g wt d (fun s iss w p x => x = f (s.rdD iss w p ty a) (s.rdD iss w p ty b) (s.rdD iss w p ty c)) :=
  fun s _ _ _ h => ⟨_, rfl, by rw [hi s]; exact op3_ok _ h⟩

/-- Bit n of a field. -/
theorem fieldAt_testBit (x : Word) (w i n : Nat) (hn : n < w) : (fieldAt x w i).testBit n = x.getLsbD (w * i + n) := by
  unfold fieldAt
  rw [Nat.testBit_mod_two_pow, Nat.testBit_div_two_pow]
  simp [hn, BitVec.getLsbD, Nat.add_comm]

/-- A value written through an integer type, bit by bit. -/
theorem writeD_int (t : ITy) (x : Word) : HoldsBits (.i t) (fun n => x.getLsbD n) (map1 t id x) := by
  have H := map1_holds t id x
  have hp := wI_pos t
  have hl := wI_le t
  have hfield : ∀ k, k < t.count → fieldAt (map1 t id x) (wI t) k = fieldAt x (wI t) k := by
    intro k hk
    unfold map1
    rw [writeI_field t _ (by simp) k hk, getD_map_range _ hk]
    have hf : fieldAt x (wI t) k < 2 ^ wI t := Nat.mod_lt _ (by positivity)
    have hf' : (fieldAt x (wI t) k : Int) < 2 ^ wI t := by exact_mod_cast hf
    simp only [id, elemI]
    split
    · unfold sgnOf
      rw [Nat.mod_eq_of_lt hf]
      split
      · rw [Int.emod_eq_of_lt (by omega) hf']; simp
      · rw [Int.sub_emod_right, Int.emod_eq_of_lt (by omega) hf']; simp
    · rw [Int.emod_eq_of_lt (by omega) hf']; simp
  constructor
  · intro n hn
    have hk : n / wI t < t.count := Nat.div_lt_of_lt_mul hn
    have h1 := fieldAt_testBit (map1 t id x) (wI t) (n / wI t) (n % wI t) (Nat.mod_lt _ hp)
    have h2 := fieldAt_testBit x (wI t) (n / wI t) (n % wI t) (Nat.mod_lt _ hp)
    rw [Nat.div_add_mod] at h1 h2
    rw [← h1, ← h2, hfield _ hk]
  · intro n hn hn64
    have hc : t.count = 1 := by
      by_contra hne
      have := wI_count t hne
      simp only [bitsOf] at hn
      omega
    have hb : bitsOf (.i t) = wI t := by simp [bitsOf, hc]
    rw [hb] at hn ⊢
    rw [H.whole hc]
    simp only [elemI, signedD]
    by_cases hs : t.signed = true
    · simp only [hs, if_true, Bool.true_and]
      have hlt : fieldAt (map1 t id x) (wI t) 0 < 2 ^ wI t := Nat.mod_lt _ (by positivity)
      generalize fieldAt (map1 t id x) (wI t) 0 = y at hlt
      have : sgnOf (wI t) y = (BitVec.ofNat (wI t) y).toInt := by
        unfold sgnOf
        rw [BitVec.toInt_eq_toNat_cond, BitVec.toNat_ofNat, Nat.mod_eq_of_lt hlt]
        have hh : 2 ^ wI t = 2 * 2 ^ (wI t - 1) := by rw [← Nat.pow_succ']; congr 1; omega
        have hh' : (2 : Int) ^ wI t = 2 * 2 ^ (wI t - 1) := by exact_mod_cast hh
        push_cast
        split <;> split <;> omega
      rw [this]
      have e : BitVec.ofInt 64 (BitVec.ofNat (wI t) y).toInt = (BitVec.ofNat (wI t) y).signExtend 64 := rfl
      rw [e]
      simp only [BitVec.getLsbD_signExtend, hn64, decide_true, Bool.true_and]
      rw [if_neg (by omega), if_pos (by omega)]
      have h64 : wI t - 1 < 64 := by omega
      simp only [h64, decide_true, Bool.true_and]
      rw [BitVec.msb_eq_getLsbD_last]
    · simp only [hs, Bool.false_eq_true, if_false, Bool.false_and]
      have hlt : fieldAt (map1 t id x) (wI t) 0 < 2 ^ wI t := Nat.mod_lt _ (by positivity)
      have e : BitVec.ofInt 64 ((fieldAt (map1 t id x) (wI t) 0 : Nat) : Int) = BitVec.ofNat 64 (fieldAt (map1 t id x) (wI t) 0) := by
        exact BitVec.ofInt_natCast ..
      rw [e, BitVec.getLsbD_ofNat]
      simp only [hn64, decide_true, Bool.true_and]
      exact Nat.testBit_lt_two_pow (lt_of_lt_of_le hlt (Nat.pow_le_pow_right (by decide) hn))

/-- A value written through any type, bit by bit. -/
theorem writeD_holds (ty : DTy) (x : Word) : HoldsBits ty (fun n => x.getLsbD n) (writeD ty x) := by
  match ty with
  | .i t => exact writeD_int t x
  | .f .f32 =>
    simp only [writeD]
    constructor
    · intro n hn
      simp only [bitsOf] at hn
      rw [BitVec.getLsbD_ofNat, Nat.testBit_mod_two_pow]
      have : n < 64 := by omega
      simp [this, hn, BitVec.getLsbD]
    · intro n hn h64
      simp only [bitsOf] at hn
      rw [BitVec.getLsbD_ofNat, Nat.testBit_mod_two_pow]
      have : ¬ n < 32 := by omega
      simp [this, signedD]
  | .f .f64 | .f .f32x2 | .f .f16x4 | .f .bf16x4 | .f .e4m3 | .f .e5m2 | .f .e2m1 =>
    exact ⟨fun _ _ => rfl, fun n hn h => by simp only [bitsOf] at hn; omega⟩

theorem HoldsBits.congr {ty : DTy} {f g : Nat → Bool} {x : Word} (h : HoldsBits ty f x) (hfg : ∀ n, f n = g n) : HoldsBits ty g x :=
  ⟨fun n hn => by rw [h.bit n hn, hfg], h.ext⟩

/-- A number built bit by bit. -/
theorem bits_foldl (f : Nat → Bool) (m : Nat) :
    (List.range m).foldl (fun n k => if f k then n + 2 ^ k else n) 0 < 2 ^ m ∧
    ∀ j, j < m → ((List.range m).foldl (fun n k => if f k then n + 2 ^ k else n) 0).testBit j = f j := by
  induction m with
  | zero => simp
  | succ m ih =>
    obtain ⟨hl, hb⟩ := ih
    rw [List.range_succ, List.foldl_append, List.foldl_cons, List.foldl_nil]
    set z := (List.range m).foldl (fun n k => if f k then n + 2 ^ k else n) 0
    constructor
    · rw [Nat.pow_succ]; split <;> omega
    · intro j hj
      by_cases hjm : j = m
      · subst hjm
        split
        · rename_i hf; rw [Nat.add_comm, Nat.testBit_two_pow_add_eq, Nat.testBit_lt_two_pow hl]; simp [hf]
        · rename_i hf; rw [Nat.testBit_lt_two_pow hl]; simpa using hf
      · have hjl : j < m := by omega
        split
        · rw [Nat.add_comm, Nat.testBit_two_pow_add_gt hjl, hb j hjl]
        · exact hb j hjl

end Sys2Proof.Machine
end

