-- ==== Sys2Proof/Laws/Memory.lean ====
section
/-! SUPPORT. Sparse maps and byte memories: reads after writes, and that every operation keeps the canonical
form (keys strictly rising, no entry equal to the default). -/

namespace Sys2Proof.Machine

variable {α : Type}

/-! ### Sparse maps -/

theorem SMap.sorted_cons (c : Nat × α) (r : SMap α) :
    SMap.sorted (c :: r) = true ↔ (∀ d ∈ r, c.1 < d.1) ∧ SMap.sorted r = true := by
  induction r generalizing c with
  | nil => simp [SMap.sorted]
  | cons d r ih =>
    simp only [SMap.sorted, Bool.and_eq_true, decide_eq_true_eq, List.mem_cons, forall_eq_or_imp]
    constructor
    · rintro ⟨h, hs⟩
      exact ⟨⟨h, fun e he => Nat.lt_trans h (((ih d).mp hs).1 e he)⟩, hs⟩
    · rintro ⟨⟨h, _⟩, hs⟩
      exact ⟨h, hs⟩

/-- A key below every listed one is not listed. -/
theorem SMap.get?_of_lt {m : SMap α} {k : Nat} (h : ∀ d ∈ m, k < d.1) : m.get? k = none := by
  induction m with
  | nil => rfl
  | cons c r ih =>
    have hc := h c (by simp)
    have hne : c.1 ≠ k := by omega
    simp only [SMap.get?, hne, if_false]
    exact ih (fun d hd => h d (by simp [hd]))

@[simp] theorem SMap.get?_put_self (m : SMap α) (k : Nat) (x : α) : (m.put k x).get? k = some x := by
  induction m with
  | nil => simp [SMap.put, SMap.get?]
  | cons c r ih =>
    simp only [SMap.put]
    split
    · simp [SMap.get?]
    · split
      · simp [SMap.get?]
      · rename_i h
        have hne : c.1 ≠ k := fun e => h e.symm
        simp [SMap.get?, hne, ih]

theorem SMap.get?_put_ne (m : SMap α) {k j : Nat} (x : α) (h : j ≠ k) : (m.put k x).get? j = m.get? j := by
  induction m with
  | nil => simp [SMap.put, SMap.get?, Ne.symm h]
  | cons c r ih =>
    simp only [SMap.put]
    split
    · simp [SMap.get?, Ne.symm h]
    · split
      · rename_i h2
        simp [SMap.get?, Ne.symm h, ← h2]
      · simp [SMap.get?, ih]

theorem SMap.get?_del_self (m : SMap α) (k : Nat) : (m.del k).get? k = none := by
  induction m with
  | nil => rfl
  | cons c r ih =>
    simp only [SMap.del]
    split
    · exact ih
    · rename_i h
      have hne : c.1 ≠ k := fun e => h e.symm
      simp [SMap.get?, hne, ih]

theorem SMap.get?_del_ne (m : SMap α) {k j : Nat} (h : j ≠ k) : (m.del k).get? j = m.get? j := by
  induction m with
  | nil => rfl
  | cons c r ih =>
    simp only [SMap.del]
    split
    · rename_i h2
      simp [SMap.get?, ← h2, Ne.symm h, ih]
    · simp [SMap.get?, ih]

theorem SMap.mem_put {m : SMap α} {k : Nat} {x : α} {d : Nat × α} (h : d ∈ m.put k x) : d = (k, x) ∨ d ∈ m := by
  induction m with
  | nil => simpa [SMap.put] using h
  | cons c r ih =>
    simp only [SMap.put] at h
    split at h
    · simpa using h
    · split at h
      · rcases List.mem_cons.mp h with h | h
        · exact .inl h
        · exact .inr (by simp [h])
      · rcases List.mem_cons.mp h with h | h
        · exact .inr (by simp [h])
        · exact (ih h).imp_right (fun h => by simp [h])

theorem SMap.mem_del {m : SMap α} {k : Nat} {d : Nat × α} (h : d ∈ m.del k) : d ∈ m := by
  induction m with
  | nil => simpa [SMap.del] using h
  | cons c r ih =>
    simp only [SMap.del] at h
    split at h
    · simp [ih h]
    · rcases List.mem_cons.mp h with h | h
      · simp [h]
      · simp [ih h]

theorem SMap.sorted_put {m : SMap α} (hs : SMap.sorted m = true) (k : Nat) (x : α) :
    SMap.sorted (m.put k x) = true := by
  induction m with
  | nil => rfl
  | cons c r ih =>
    have hc := (SMap.sorted_cons c r).mp hs
    simp only [SMap.put]
    split
    · rename_i h
      refine (SMap.sorted_cons _ _).mpr ⟨fun d hd => ?_, hs⟩
      rcases List.mem_cons.mp hd with e | e
      · subst e; exact h
      · exact Nat.lt_trans h (hc.1 d e)
    · split
      · rename_i h
        exact (SMap.sorted_cons _ _).mpr ⟨fun d hd => h ▸ hc.1 d hd, hc.2⟩
      · rename_i h1 h2
        refine (SMap.sorted_cons _ _).mpr ⟨fun d hd => ?_, ih hc.2⟩
        rcases SMap.mem_put hd with e | e
        · subst e
          show c.1 < k
          have h1' : ¬ k < c.1 := h1
          have h2' : ¬ k = c.1 := h2
          omega
        · exact hc.1 d e

theorem SMap.sorted_del {m : SMap α} (hs : SMap.sorted m = true) (k : Nat) : SMap.sorted (m.del k) = true := by
  induction m with
  | nil => rfl
  | cons c r ih =>
    have hc := (SMap.sorted_cons c r).mp hs
    simp only [SMap.del]
    split
    · exact ih hc.2
    · exact (SMap.sorted_cons _ _).mpr ⟨fun d hd => hc.1 d (SMap.mem_del hd), ih hc.2⟩

theorem SMap.sorted_filter {m : SMap α} (hs : SMap.sorted m = true) (p : Nat × α → Bool) :
    SMap.sorted (m.filter p : List (Nat × α)) = true := by
  induction m with
  | nil => rfl
  | cons c r ih =>
    have hc := (SMap.sorted_cons c r).mp hs
    by_cases h : p c = true
    · rw [List.filter_cons_of_pos h]
      exact (SMap.sorted_cons _ _).mpr ⟨fun d hd => hc.1 d (List.mem_filter.mp hd).1, ih hc.2⟩
    · rw [List.filter_cons_of_neg h]
      exact ih hc.2

/-! ### Maps with a default -/

section Defaults

variable [DecidableEq α]

theorem SMap.get_set_self (m : SMap α) (d : α) (k : Nat) (x : α) : (m.set d k x).get d k = x := by
  simp only [SMap.set, SMap.get]
  split
  · rename_i h
    simp [SMap.get?_del_self m, h]
  · simp

theorem SMap.get_set_ne (m : SMap α) (d : α) {k j : Nat} (x : α) (h : j ≠ k) : (m.set d k x).get d j = m.get d j := by
  simp only [SMap.set, SMap.get]
  split
  · rw [SMap.get?_del_ne m h]
  · rw [SMap.get?_put_ne m x h]

theorem SMap.sorted_set {m : SMap α} (hs : SMap.sorted m = true) (d : α) (k : Nat) (x : α) :
    SMap.sorted (m.set d k x) = true := by
  simp only [SMap.set]
  split
  · exact SMap.sorted_del hs k
  · exact SMap.sorted_put hs k x

end Defaults

/-! ### Byte memories -/

theorem Memory.wf_iff (m : Memory) : m.wf = true ↔ SMap.sorted m = true ∧ ∀ c ∈ m, c.2 ≠ 0 := by
  simp [Memory.wf, bne_iff_ne]

theorem Memory.wf_nil : Memory.wf [] = true := rfl

/-- A write keeps the canonical form. -/
theorem wrByte_wf {m : Memory} (h : m.wf = true) (a : Nat) (b : Byte) : (wrByte m a b).wf = true := by
  obtain ⟨hs, hz⟩ := (Memory.wf_iff m).mp h
  refine (Memory.wf_iff _).mpr ⟨SMap.sorted_set hs 0 a b, fun c hc => ?_⟩
  simp only [wrByte, SMap.set] at hc
  split at hc
  · exact hz c (SMap.mem_del hc)
  · rename_i hb
    rcases SMap.mem_put hc with e | e
    · subst e; exact hb
    · exact hz c e

theorem wrBytes_wf {m : Memory} (h : m.wf = true) (a : Nat) (b : List Byte) : (wrBytes m a b).wf = true := by
  induction b generalizing m a with
  | nil => exact h
  | cons x r ih => exact ih (wrByte_wf h a x) (a + 1)

theorem filter_wf {m : Memory} (h : m.wf = true) (p : Host.Cell → Bool) : Memory.wf (m.filter p) = true := by
  obtain ⟨hs, hz⟩ := (Memory.wf_iff m).mp h
  exact (Memory.wf_iff _).mpr ⟨SMap.sorted_filter hs p, fun c hc => hz c (List.mem_filter.mp hc).1⟩

theorem rdByte_wrByte_self (m : Memory) (a : Nat) (b : Byte) : rdByte (wrByte m a b) a = b :=
  SMap.get_set_self m 0 a b

theorem rdByte_wrByte_ne (m : Memory) {a c : Nat} (b : Byte) (h : c ≠ a) : rdByte (wrByte m a b) c = rdByte m c :=
  SMap.get_set_ne m 0 b h

/-- A byte outside a run of written bytes reads as before. -/
theorem rdByte_wrBytes_out (m : Memory) (a : Nat) (b : List Byte) {c : Nat} (h : c < a ∨ a + b.length ≤ c) :
    rdByte (wrBytes m a b) c = rdByte m c := by
  induction b generalizing m a with
  | nil => rfl
  | cons x r ih =>
    simp only [List.length_cons] at h
    rw [wrBytes, ih (wrByte m a x) (a + 1) (by omega), rdByte_wrByte_ne m x (by omega)]

/-- A byte of a run of written bytes reads as written. -/
theorem rdByte_wrBytes_in (m : Memory) (a : Nat) (b : List Byte) {i : Nat} (h : i < b.length) :
    rdByte (wrBytes m a b) (a + i) = b[i] := by
  induction b generalizing m a i with
  | nil => simp at h
  | cons x r ih =>
    rw [wrBytes]
    cases i with
    | zero =>
      rw [rdByte_wrBytes_out _ _ _ (by omega)]
      exact rdByte_wrByte_self m a x
    | succ i =>
      have h2 : i < r.length := by simpa using h
      have e : a + (i + 1) = a + 1 + i := by omega
      rw [e, ih (wrByte m a x) (a + 1) h2]
      simp

theorem rdBytes_length (m : Memory) (a n : Nat) : (rdBytes m a n).length = n := by
  induction n generalizing a with
  | zero => rfl
  | succ n ih => simp [rdBytes, ih]

theorem rdBytes_get (m : Memory) (a n i : Nat) (h : i < (rdBytes m a n).length) : (rdBytes m a n)[i] = rdByte m (a + i) := by
  induction n generalizing a i with
  | zero => simp [rdBytes] at h
  | succ n ih =>
    cases i with
    | zero => rfl
    | succ i =>
      have e : a + (i + 1) = a + 1 + i := by omega
      simp only [rdBytes, List.getElem_cons_succ]
      rw [ih, e]

/-- What was written reads back. -/
theorem rdBytes_wrBytes (m : Memory) (a : Nat) (b : List Byte) :
    rdBytes (wrBytes m a b) a b.length = b := by
  apply List.ext_getElem
  · rw [rdBytes_length]
  · intro i h1 h2
    rw [rdBytes_get, rdByte_wrBytes_in m a b h2]

/-! ### Bytes of numbers -/

@[simp] theorem leBytes_length (n x : Nat) : (leBytes n x).length = n := by
  induction n generalizing x with
  | zero => rfl
  | succ n ih => simp [leBytes, ih]

theorem leNat_leBytes (n x : Nat) : leNat (leBytes n x) = x % 256 ^ n := by
  induction n generalizing x with
  | zero => simp [leBytes, leNat, Nat.mod_one]
  | succ n ih =>
    simp only [leBytes, leNat, ih]
    rw [Nat.pow_succ, Nat.mul_comm (256 ^ n) 256, Nat.mod_mul]
    simp

end Sys2Proof.Machine
end

