-- ==== Sys2Proof/Laws/Kept.lean ====
section
/-! SUPPORT. The shared operations keep the byte memories in canonical form (State.memOk of Safety.lean): memory is
written through wrByte, wrBytes and filters only. -/

namespace Sys2Proof.Machine

/-- An outcome whose next state, if it is one, has its memories in canonical form. -/
def Keeps (r : Result) : Prop := ∀ t, r = .next t → t.memOk

theorem keeps_next {t : State} (h : t.memOk) : Keeps (.next t) := by
  intro u e
  cases e
  exact h

theorem keeps_fault (f : Fault) : Keeps (.fault f) := by
  intro u e
  cases e

theorem memOk_mk x0 x1 x2 x3 x4 x5 x6 x7 x8 x9 x10 x11 x12 x13 x14 x15 x16 x17 x18 x19 x20 x21 x22 x23 x24 x25 x26
    x27 x28 x29 x30 x31 x32 x33 x34 x35 x36 x37 x38 x39 : 
    (State.mk x0 x1 x2 x3 x4 x5 x6 x7 x8 x9 x10 x11 x12 x13 x14 x15 x16 x17 x18 x19 x20 x21 x22 x23 x24 x25 x26 x27 x28 x29 x30 x31 x32 x33 x34 x35 x36 x37 x38 x39).memOk ↔
    Memory.wf x0 = true ∧ Memory.wf x1 = true ∧ Memory.wf x2 = true := Iff.rfl

theorem memOk_back {s : State} (h : s.memOk) :
    Memory.wf s.mem = true ∧ Memory.wf s.scratch = true ∧ Memory.wf s.ws = true := h

theorem memOk_fst {α : Type} {p : State × α} {t : State} {x : α} (e : p = (t, x)) (h : p.1.memOk) : t.memOk := by
  rw [e] at h
  exact h

theorem memOk_snd {α : Type} {p : α × State} {t : State} {x : α} (e : p = (x, t)) (h : p.2.memOk) : t.memOk := by
  rw [e] at h
  exact h

theorem foldl_memOk {β : Type} {f : State → β → State} {l : List β} {s : State} (h : s.memOk)
    (hf : ∀ s x, s.memOk → (f s x).memOk) : (l.foldl f s).memOk := by
  induction l generalizing s with
  | nil => exact h
  | cons x r ih => exact ih (hf s x h)

theorem foldr_memOk {β : Type} {f : β → State → State} {l : List β} {s : State} (h : s.memOk)
    (hf : ∀ s x, s.memOk → (f x s).memOk) : (l.foldr f s).memOk := by
  induction l with
  | nil => exact h
  | cons x r ih => exact hf _ x ih

theorem foldl_wrByte_wf {β : Type} {place : β → Nat} {byte : β → Byte} {l : List β} {m : Memory} (h : m.wf = true) :
    Memory.wf (l.foldl (fun m c => wrByte m (place c) (byte c)) m) = true := by
  induction l generalizing m with
  | nil => exact h
  | cons x r ih => exact ih (wrByte_wf h _ _)

theorem foldl_fst_memOk {α β : Type} {f : State × α → β → State × α} {l : List β} {p : State × α} (h : p.1.memOk)
    (hf : ∀ p x, p.1.memOk → (f p x).1.memOk) : (l.foldl f p).1.memOk := by
  induction l generalizing p with
  | nil => exact h
  | cons x r ih => exact ih (hf p x h)

theorem State.setWarp_memOk {s : State} (w : Nat) (x : Warp) (h : s.memOk) : (State.setWarp s w x).memOk := by
  unfold State.setWarp
  try dsimp only
  repeat' (first | with_reducible assumption | intro _ | with_reducible apply State.put_memOk | dsimp only | split
                 | simp only [memOk_mk] | with_reducible apply memOk_back)

theorem State.updWarp_memOk {s : State} (w : Nat) (f : Warp → Warp) (h : s.memOk) : (State.updWarp s w f).memOk := h

theorem State.setCore_memOk {s : State} (c : Nat) (x : Core) (h : s.memOk) : (State.setCore s c x).memOk := h

theorem State.updCore_memOk {s : State} (c : Nat) (f : Core → Core) (h : s.memOk) : (State.updCore s c f).memOk := by
  unfold State.updCore
  try dsimp only
  repeat' (first | with_reducible assumption | intro _ | with_reducible apply State.setCore_memOk)

theorem State.updDie_memOk {s : State} (d : Nat) (f : Die → Die) (h : s.memOk) : (State.updDie s d f).memOk := h

theorem State.updLane_memOk {s : State} (l : Nat) (f : Lane → Lane) (h : s.memOk) : (State.updLane s l f).memOk := h

theorem State.updBlock_memOk {s : State} (b : Nat) (f : Block → Block) (h : s.memOk) :
    (State.updBlock s b f).memOk := h

theorem State.updLaunch_memOk {s : State} (l : Nat) (f : Launch → Launch) (h : s.memOk) :
    (State.updLaunch s l f).memOk := h

theorem State.updCtx_memOk {s : State} (c : Nat) (f : Ctx → Ctx) (h : s.memOk) : (State.updCtx s c f).memOk := h

theorem State.draw_memOk {s : State} (h : s.memOk) : (State.draw s).memOk := h

theorem State.fresh_memOk {s : State} (h : s.memOk) : (State.fresh s).2.memOk := h

theorem State.bboxAt_memOk {s : State} (time die source code core warp thread ctx : Nat) (detail : List Word)
    (h : s.memOk) : (State.bboxAt s time die source code core warp thread ctx detail).memOk := by
  unfold State.bboxAt
  try dsimp only
  repeat' (first | with_reducible assumption | intro _ | with_reducible apply State.updDie_memOk)

theorem State.bbox_memOk {s : State} (die source code core warp thread ctx : Nat) (detail : List Word) (h : s.memOk) :
    (State.bbox s die source code core warp thread ctx detail).memOk := by
  unfold State.bbox
  try dsimp only
  repeat' (first | with_reducible assumption | intro _ | with_reducible apply State.bboxAt_memOk)

theorem State.interrupt_memOk {s : State} (h : s.memOk) : (State.interrupt s).memOk := h

theorem State.writeHome_memOk {s : State} (p : Place) (b : List Byte) (h : s.memOk) :
    (State.writeHome s p b).memOk := by
  cases p with
  | mem a => exact ⟨wrBytes_wf h.1 a b, h.2⟩
  | sp a => exact ⟨h.1, wrBytes_wf h.2.1 a b, h.2.2⟩
  | ws a => exact ⟨h.1, h.2.1, wrBytes_wf h.2.2 a b⟩

theorem State.write_memOk {s : State} (w : Writer) (p : Place) (b : List Byte) (h : s.memOk) :
    (State.write s w p b).memOk := by
  unfold State.write
  try dsimp only
  repeat' (first | with_reducible assumption | intro _ | with_reducible apply State.writeHome_memOk | dsimp only
                 | split | simp only [memOk_mk] | with_reducible apply memOk_back)

theorem State.settled_memOk {s : State} (p : Place) (n : Nat) (h : s.memOk) : (State.settled s p n).memOk := h

theorem State.sees_memOk {s : State} (core : Nat) (ids : List Nat) (h : s.memOk) : (State.sees s core ids).memOk := by
  unfold State.sees
  try dsimp only
  repeat' (first | with_reducible assumption | intro _ | with_reducible apply State.updCore_memOk | dsimp only
                 | split)

theorem State.learn_memOk {s : State} (core : Nat) (view : List Nat) (h : s.memOk) :
    (State.learn s core view).memOk := by
  unfold State.learn
  try dsimp only
  repeat' (first | with_reducible assumption | intro _ | with_reducible apply State.updCore_memOk | dsimp only
                 | split)

theorem State.touchLine_memOk {s : State} (core : Nat) (p : Place) (h : s.memOk) :
    (State.touchLine s core p).memOk := by
  unfold State.touchLine
  try dsimp only
  repeat' (first | with_reducible assumption | intro _ | with_reducible apply State.updCore_memOk
                 | with_reducible apply State.put_memOk | dsimp only | split)

theorem State.dropLine_memOk {s : State} (core : Nat) (p : Place) (h : s.memOk) :
    (State.dropLine s core p).memOk := by
  unfold State.dropLine
  try dsimp only
  repeat' (first | with_reducible assumption | intro _ | with_reducible apply State.updCore_memOk | dsimp only
                 | split)

theorem State.discardL1_memOk {s : State} (core : Nat) (h : s.memOk) : (State.discardL1 s core).memOk := by
  unfold State.discardL1
  try dsimp only
  repeat' (first | with_reducible assumption | intro _ | with_reducible apply State.updCore_memOk)

theorem State.clearResv_memOk {s : State} (clear : Nat → Nat → Resv → Bool) (h : s.memOk) :
    (State.clearResv s clear).memOk := by
  unfold State.clearResv
  try dsimp only
  repeat' (first | with_reducible assumption | intro _ | dsimp only | split | simp only [memOk_mk]
                 | with_reducible apply memOk_back)

theorem State.wrote_memOk {s : State} (p : Place) (n : Nat) (own : Holder) (h : s.memOk) :
    (State.wrote s p n own).memOk := by
  unfold State.wrote
  try dsimp only
  repeat' (first | with_reducible assumption | intro _ | with_reducible apply State.clearResv_memOk | dsimp only
                 | split | simp only [memOk_mk] | with_reducible apply memOk_back)

theorem State.put_memOk {s : State} (w : Writer) (own : Holder) (p : Place) (b : List Byte) (h : s.memOk) :
    (State.put s w own p b).memOk := by
  unfold State.put
  try dsimp only
  repeat' (first | with_reducible assumption | intro _ | with_reducible apply State.write_memOk
                 | with_reducible apply State.wrote_memOk)

theorem State.takeTrap_memOk {s : State} (slot : Nat) (addr : Addr56) (rs : List TrapRep) (h : s.memOk) :
    (State.takeTrap s slot addr rs).memOk := by
  unfold State.takeTrap
  try dsimp only
  repeat' (first | with_reducible assumption | intro _ | with_reducible apply State.updWarp_memOk)

theorem State.freeBank_memOk {s : State} (slot : Nat) (h : s.memOk) : (State.freeBank s slot).memOk := by
  unfold State.freeBank
  try dsimp only
  repeat' (first | with_reducible assumption | intro _ | with_reducible apply State.updLane_memOk)

theorem State.trapReturn_memOk {s : State} (slot : Nat) (h : s.memOk) : (State.trapReturn s slot).memOk := by
  unfold State.trapReturn
  try dsimp only
  repeat' (first | with_reducible assumption | intro _ | with_reducible apply State.updWarp_memOk
                 | with_reducible apply State.freeBank_memOk)

theorem State.acquire_memOk {s : State} (core : Nat) (sc : Scope) (span ids : List Nat) (h : s.memOk) :
    (State.acquire s core sc span ids).memOk := by
  unfold State.acquire
  try dsimp only
  repeat' (first | with_reducible assumption | intro _ | with_reducible apply State.learn_memOk
                 | with_reducible apply State.discardL1_memOk | dsimp only | split)

theorem State.applyOrd_memOk {s : State} (pa : Nat) (dbl : Bool) (take : Contrib → Bool) (by_ : Writer)
    (own : Holder) (h : s.memOk) : (State.applyOrd s pa dbl take by_ own).memOk := by
  unfold State.applyOrd
  try dsimp only
  repeat' (first | with_reducible assumption | intro _ | with_reducible apply State.draw_memOk
                 | with_reducible apply State.put_memOk | with_reducible apply foldl_memOk
                 | with_reducible apply foldl_fst_memOk | dsimp only | split | simp only [memOk_mk]
                 | with_reducible apply memOk_back)

theorem State.checkEntry_memOk {s : State} (m : MCheck) (h : s.memOk) : (State.checkEntry s m).memOk := by
  unfold State.checkEntry
  try dsimp only
  repeat' (first | with_reducible assumption | intro _ | with_reducible apply State.bbox_memOk)

theorem State.doom_memOk {s : State} (launch status : Nat) (m : MCheck) (h : s.memOk) :
    (State.doom s launch status m).memOk := by
  unfold State.doom
  try dsimp only
  repeat' (first | with_reducible assumption | intro _ | with_reducible apply State.checkEntry_memOk | dsimp only
                 | split | simp only [memOk_mk] | with_reducible apply memOk_back)

theorem State.loseAt_memOk {s : State} (launch slot thread : Nat) (clause : Word) (p : Place) (h : s.memOk) :
    (State.loseAt s launch slot thread clause p).memOk := by
  unfold State.loseAt
  try dsimp only
  repeat' (first | with_reducible assumption | intro _ | with_reducible apply State.doom_memOk)

theorem State.peerLost_memOk {s : State} (launch core warp thread pkg : Nat) (clause : Word) (p : Place)
    (h : s.memOk) : (State.peerLost s launch core warp thread pkg clause p).memOk := by
  unfold State.peerLost
  try dsimp only
  repeat' (first | with_reducible assumption | intro _ | with_reducible apply State.bbox_memOk
                 | with_reducible apply State.doom_memOk)

theorem State.numbered_memOk {s : State} (c : Contrib) (task : Nat) (h : s.memOk) :
    (State.numbered s c task).1.memOk := by
  unfold State.numbered
  try dsimp only
  repeat' (first | with_reducible assumption | intro _ | dsimp only | split | simp only [memOk_mk]
                 | with_reducible apply memOk_back)

theorem State.worldEntry_memOk {s : State} (die source ctx va : Nat) (h : s.memOk) :
    (State.worldEntry s die source ctx va).memOk := by
  unfold State.worldEntry
  try dsimp only
  repeat' (first | with_reducible assumption | intro _
                 | with_reducible apply State.bbox_memOk
                 | refine memOk_fst (by with_reducible assumption) ?_ | dsimp only | split | simp only [memOk_mk]
                 | with_reducible apply memOk_back)

theorem State.spillBarred_memOk {s : State} (pa launch : Nat) (h : s.memOk) :
    (State.spillBarred s pa launch).memOk := by
  unfold State.spillBarred
  try dsimp only
  repeat' (first | with_reducible assumption | intro _
                 | with_reducible apply State.worldEntry_memOk
                 | refine memOk_fst (by with_reducible assumption) ?_ | dsimp only | split | simp only [memOk_mk]
                 | with_reducible apply memOk_back)

theorem State.contribute_memOk {s : State} (c : Contrib) (h : s.memOk) : (State.contribute s c).memOk := by
  unfold State.contribute
  try dsimp only
  repeat' (first | with_reducible assumption | intro _ | with_reducible apply State.doom_memOk
                 | with_reducible apply State.spillBarred_memOk | dsimp only | split
                 | simp only [memOk_mk] | with_reducible apply memOk_back)

theorem State.answers_memOk {s : State} (id : Nat) (v : List Word) (h : s.memOk) : (State.answers s id v).memOk := h

theorem State.answer_memOk {s : State} (id : Nat) (v : Word) (h : s.memOk) : (State.answer s id v).memOk := by
  unfold State.answer
  try dsimp only
  repeat' (first | with_reducible assumption | intro _ | with_reducible apply State.answers_memOk)

theorem State.dropResv_memOk {s : State} (w t : Nat) (h : s.memOk) : (State.dropResv s w t).memOk := by
  unfold State.dropResv
  try dsimp only
  repeat' (first | with_reducible assumption | intro _ | with_reducible apply State.updWarp_memOk)

theorem State.fenceOrder_memOk {s : State} (core : Nat) (sc : Scope) (span : List Nat) (hd : Head) (h : s.memOk) :
    (State.fenceOrder s core sc span hd).memOk := State.learn_memOk core _ h

theorem State.fenceDone_memOk {s : State} (core warp thread : Nat) (span : List Nat) (o : Order) (sc : Scope)
    (h : s.memOk) : (State.fenceDone s core warp thread span o sc).memOk := by
  unfold State.fenceDone
  dsimp only
  repeat' (first | with_reducible assumption | with_reducible apply State.acquire_memOk
                 | with_reducible apply State.fenceOrder_memOk | with_reducible apply State.updCore_memOk | split)

theorem State.atomRead_memOk {s : State} (core : Nat) (i : StItem) (h : s.memOk) :
    (State.atomRead s core i).memOk := by
  unfold State.atomRead
  try dsimp only
  repeat' (first | with_reducible assumption | intro _ | with_reducible apply State.sees_memOk
                 | with_reducible apply State.acquire_memOk | dsimp only | split)

theorem State.performLost_memOk {s : State} (core : Nat) (i : StItem) (h : s.memOk) :
    (State.performLost s core i).memOk := by
  unfold State.performLost
  try dsimp only
  repeat' (first | with_reducible assumption | intro _ | with_reducible apply State.loseAt_memOk
                 | with_reducible apply State.answers_memOk | dsimp only | split)

theorem State.perform_memOk {s : State} (core : Nat) (i : StItem) (h : s.memOk) : (State.perform s core i).memOk := by
  unfold State.perform
  try dsimp only
  repeat' (first | with_reducible assumption | intro _ | with_reducible apply State.bbox_memOk
                 | with_reducible apply State.dropLine_memOk | with_reducible apply State.put_memOk
                 | with_reducible apply State.applyOrd_memOk | with_reducible apply State.numbered_memOk
                 | with_reducible apply State.contribute_memOk | with_reducible apply State.answer_memOk
                 | with_reducible apply State.dropResv_memOk | with_reducible apply State.fenceDone_memOk
                 | with_reducible apply State.atomRead_memOk | with_reducible apply State.performLost_memOk
                 | refine memOk_fst (by with_reducible assumption) ?_ | dsimp only | split)

theorem State.arrive_memOk {s : State} (core k : Nat) (h : s.memOk) : (State.arrive s core k).memOk := by
  unfold State.arrive
  try dsimp only
  repeat' (first | with_reducible assumption | intro _ | with_reducible apply State.updCore_memOk
                 | with_reducible apply State.peerLost_memOk | with_reducible apply State.perform_memOk | dsimp only
                 | split)

theorem State.drainFlight_memOk {s : State} (core n : Nat) (h : s.memOk) : (State.drainFlight core n s).memOk := by
  induction n generalizing s with
  | zero => exact h
  | succ n ih => exact ih (State.arrive_memOk core 0 h)

theorem State.forceFlight_memOk {s : State} (core : Nat) (want : StItem → Bool) (n : Nat) (h : s.memOk) :
    (State.forceFlight core want n s).memOk := by
  induction n generalizing s with
  | zero => exact h
  | succ n ih =>
    unfold State.forceFlight
    dsimp only
    split
    · exact h
    · exact ih (State.arrive_memOk _ _ h)

theorem State.forceCore_memOk {s : State} (core : Nat) (want : StItem → Bool) (h : s.memOk) :
    (State.forceCore s core want).memOk := by
  unfold State.forceCore
  try dsimp only
  repeat' (first | with_reducible assumption | intro _ | with_reducible apply State.forceFlight_memOk)

theorem State.launchItem_memOk {s : State} (core : Nat) (i : StItem) (h : s.memOk) :
    (State.launchItem s core i).memOk := by
  unfold State.launchItem
  try dsimp only
  repeat' (first | with_reducible assumption | intro _ | with_reducible apply State.updCore_memOk | dsimp only
                 | split)

theorem State.depart_memOk {s : State} (w : Nat) (h : s.memOk) : (State.depart s w).memOk := by
  unfold State.depart
  try dsimp only
  repeat' (first | with_reducible assumption | intro _ | with_reducible apply State.updWarp_memOk
                 | with_reducible apply State.forceCore_memOk | with_reducible apply State.launchItem_memOk
                 | dsimp only | split)

theorem State.departAll_memOk {s : State} (w n : Nat) (h : s.memOk) : (State.departAll w n s).memOk := by
  induction n generalizing s with
  | zero => exact h
  | succ n ih => exact ih (State.depart_memOk w h)

theorem State.departWarp_memOk {s : State} (w : Nat) (h : s.memOk) : (State.departWarp s w).memOk := by
  unfold State.departWarp
  try dsimp only
  repeat' (first | with_reducible assumption | intro _ | with_reducible apply State.departAll_memOk)

theorem State.drainWarp_memOk {s : State} (w : Nat) (h : s.memOk) : (State.drainWarp s w).memOk := by
  unfold State.drainWarp
  try dsimp only
  repeat' (first | with_reducible assumption | intro _ | with_reducible apply State.drainFlight_memOk
                 | with_reducible apply State.departWarp_memOk)

theorem State.pushOut_memOk {s : State} (w : Nat) (want : StItem → Bool) (h : s.memOk) :
    (State.pushOut s w want).memOk := by
  unfold State.pushOut
  try dsimp only
  repeat' (first | with_reducible assumption | intro _ | with_reducible apply State.departAll_memOk)

theorem State.force_memOk {s : State} (w : Nat) (want : StItem → Bool) (h : s.memOk) :
    (State.force s w want).memOk := by
  unfold State.force
  try dsimp only
  repeat' (first | with_reducible assumption | intro _ | with_reducible apply State.forceCore_memOk
                 | with_reducible apply State.pushOut_memOk)

theorem State.share_memOk {s : State} (w : Nat) (want : StItem → Bool) (h : s.memOk) :
    (State.share s w want).memOk := by
  unfold State.share
  try dsimp only
  repeat' (first | with_reducible assumption | intro _ | with_reducible apply State.updWarp_memOk
                 | with_reducible apply State.updCore_memOk)

theorem State.settle_memOk {s : State} (h : s.memOk) : (State.settle s).memOk := by
  unfold State.settle
  try dsimp only
  repeat' (first | with_reducible assumption | intro _ | with_reducible apply State.drainFlight_memOk
                 | with_reducible apply State.drainWarp_memOk | with_reducible apply foldl_memOk)

theorem State.syllable_memOk {s : State} (f : Issue → Warp → State → Path → State × Path) (h : s.memOk)
    (hf : ∀ iss w s p, s.memOk → (f iss w s p).1.memOk) : Keeps (State.syllable s f) := by
  unfold State.syllable
  split
  · exact keeps_next h
  · split
    · exact keeps_next (hf _ _ _ _ h)
    · exact keeps_next h

theorem opPath_memOk {s : State} (i : Instr) (g : Guard) (wt : Nat) (six : Reserved) (body : Body) (iss : Issue)
    (w : Warp) (p : Path) (h : s.memOk) (hb : ∀ s iss w p, s.memOk → (body s iss w p).1.memOk) :
    (opPath i g wt six body iss w s p).1.memOk := by
  have := hb s iss w p h
  unfold opPath
  dsimp only
  split
  · exact h
  · split
    · split
      · rename_i e
        simpa only [e] using this
      · rename_i e
        simpa only [e] using this
    · exact h

theorem State.onOp_memOk {s : State} (i : Instr) (g : Guard) (wt : Nat) (six : Reserved) (body : Body) (h : s.memOk)
    (hb : ∀ s iss w p, s.memOk → (body s iss w p).1.memOk) : Keeps (State.onOp s i g wt six body) :=
  State.syllable_memOk _ h (fun iss w _ p hs => opPath_memOk i g wt six body iss w p hs hb)

theorem State.alu_memOk {s : State} (i : Instr) (g : Guard) (wt : Nat) (f : State → Issue → Warp → Path → Path)
    (h : s.memOk) : Keeps (State.alu s i g wt f) :=
  State.onOp_memOk i g wt _ _ h (fun _ _ _ _ hs => hs)

theorem testPath_memOk {s : State} (i : Instr) (f : State → Issue → Warp → Path → Bool) (iss : Issue) (w : Warp)
    (p : Path) (h : s.memOk) : (testPath i f iss w s p).1.memOk := by
  unfold testPath
  split
  · exact h
  · exact h

theorem State.onTest_memOk {s : State} (i : Instr) (f : State → Issue → Warp → Path → Bool) (h : s.memOk) :
    Keeps (State.onTest s i f) :=
  State.syllable_memOk _ h (fun iss w _ p hs => testPath_memOk i f iss w p hs)

theorem leafPath_memOk {s : State} (i : Instr) (f : Body) (iss : Issue) (w : Warp) (p : Path) (h : s.memOk)
    (hb : ∀ s iss w p, s.memOk → (f s iss w p).1.memOk) : (leafPath i f iss w s p).1.memOk := by
  have := hb s iss w p h
  unfold leafPath
  split
  · exact h
  · split
    · rename_i e
      simpa only [e] using this
    · rename_i e
      simpa only [e] using this

theorem State.onLeaf_memOk {s : State} (i : Instr) (f : Body) (h : s.memOk)
    (hb : ∀ s iss w p, s.memOk → (f s iss w p).1.memOk) : Keeps (State.onLeaf s i f) :=
  State.syllable_memOk _ h (fun iss w _ p hs => leafPath_memOk i f iss w p hs hb)

theorem State.onCollective_memOk {s : State} (i : Instr) (g : Guard) (wt : Nat) (f : Collective) (h : s.memOk) :
    Keeps (State.onCollective s i g wt f) := by
  unfold State.onCollective
  try dsimp only
  repeat' (first | with_reducible assumption | with_reducible apply keeps_next | exact keeps_fault _ | dsimp only
                 | split | simp only [memOk_mk] | with_reducible apply memOk_back)

theorem State.badSyllable_memOk {s : State} (b : Bad) (word : Word) (h : s.memOk) :
    (State.badSyllable s b word).memOk := by
  unfold State.badSyllable
  try dsimp only
  repeat' (first | with_reducible assumption | intro _ | dsimp only | split | simp only [memOk_mk]
                 | with_reducible apply memOk_back)

theorem State.send_memOk {s : State} (c : Cmd) (h : s.memOk) : (State.send s c).memOk := by
  unfold State.send
  try dsimp only
  repeat' (first | with_reducible assumption | intro _ | with_reducible apply State.fresh_memOk
                 | with_reducible apply State.put_memOk | refine memOk_snd (by with_reducible assumption) ?_
                 | dsimp only | split | simp only [memOk_mk] | with_reducible apply memOk_back)

theorem State.sendCapture_memOk {s : State} (slot : Nat) (w : Warp) (c : Capture) (h : s.memOk) :
    (State.sendCapture s slot w c).memOk := by
  unfold State.sendCapture
  try dsimp only
  repeat' (first | with_reducible assumption | intro _ | with_reducible apply State.send_memOk)

theorem State.joinApply_memOk {s : State} (slot k : Nat) (w : Warp) (broke : Bool) (h : s.memOk) :
    (State.joinApply s slot k w broke).memOk := by
  unfold State.joinApply
  try dsimp only
  repeat' (first | with_reducible assumption | intro _ | with_reducible apply State.setWarp_memOk
                 | with_reducible apply State.sendCapture_memOk | dsimp only | split)

theorem evalJoins_memOk {s : State} (slot n : Nat) (h : s.memOk) : (evalJoins slot n s).memOk := by
  induction n generalizing s with
  | zero => exact h
  | succ n ih =>
    unfold evalJoins
    split
    · exact h
    · split
      · exact h
      · exact ih (State.joinApply_memOk _ _ _ _ h)

theorem State.evalJoins_memOk {s : State} (slot : Nat) (h : s.memOk) : (State.evalJoins s slot).memOk :=
  Machine.evalJoins_memOk slot 16 h

theorem State.decFlag_memOk {s : State} (slot : Nat) (tf : Nat × Nat) (h : s.memOk) :
    (State.decFlag s slot tf).memOk := by
  unfold State.decFlag
  try dsimp only
  repeat' (first | with_reducible assumption | intro _ | with_reducible apply State.updWarp_memOk)

theorem State.jset_memOk {s : State} (slot : Nat) (j : Nat) (mask : Mask) (h : s.memOk) :
    (State.jset s slot j mask).memOk := by
  unfold State.jset
  try dsimp only
  repeat' (first | with_reducible assumption | intro _ | with_reducible apply State.setWarp_memOk
                 | with_reducible apply State.decFlag_memOk | with_reducible apply foldl_memOk
                 | with_reducible apply foldl_fst_memOk | dsimp only | split)

theorem State.signed_memOk {s : State} (slot t : Nat) (h : s.memOk) : (State.signed s slot t).memOk := by
  unfold State.signed
  try dsimp only
  repeat' (first | with_reducible assumption | intro _ | with_reducible apply State.force_memOk
                 | with_reducible apply State.share_memOk)

theorem State.sign_memOk {s : State} (slot t : Nat) (j : Nat) (wait : Bool) (h : s.memOk) :
    (State.sign s slot t j wait).memOk := by
  unfold State.sign
  try dsimp only
  repeat' (first | with_reducible assumption | intro _ | with_reducible apply State.updWarp_memOk
                 | with_reducible apply State.signed_memOk)

theorem State.signMx_memOk {s : State} (slot t : Nat) (j : Nat) (cap : Capture) (flag : Option Nat) (h : s.memOk) :
    (State.signMx s slot t j cap flag).memOk := by
  unfold State.signMx
  try dsimp only
  repeat' (first | with_reducible assumption | intro _ | with_reducible apply State.updWarp_memOk
                 | with_reducible apply State.signed_memOk)

theorem State.acquireBar_memOk {s : State} (b : Block) (slot : Nat) (view : List Nat) (h : s.memOk) :
    (State.acquireBar s b slot view).memOk := by
  unfold State.acquireBar
  try dsimp only
  repeat' (first | with_reducible assumption | intro _ | with_reducible apply State.learn_memOk
                 | with_reducible apply State.discardL1_memOk | dsimp only | split)

theorem State.releaseBar_memOk {s : State} (blk : Nat) (b : Block) (n : Nat) (view : List Nat) (h : s.memOk) :
    (State.releaseBar s blk b n view).memOk := by
  unfold State.releaseBar
  try dsimp only
  repeat' (first | with_reducible assumption | intro _ | with_reducible apply State.setWarp_memOk
                 | with_reducible apply State.acquireBar_memOk | with_reducible apply foldl_memOk
                 | with_reducible apply foldl_fst_memOk | dsimp only | split)

theorem State.barTest_memOk {s : State} (blk n : Nat) (arrived : Bool) (h : s.memOk) :
    (State.barTest s blk n arrived).memOk := by
  unfold State.barTest
  try dsimp only
  repeat' (first | with_reducible assumption | intro _ | with_reducible apply State.updBlock_memOk
                 | with_reducible apply State.releaseBar_memOk | dsimp only | split)

theorem State.release_memOk {s : State} (slot : Nat) (wide : Bool) (h : s.memOk) :
    (State.release s slot wide).memOk := by
  unfold State.release
  try dsimp only
  repeat' (first | with_reducible assumption | intro _ | with_reducible apply State.departWarp_memOk
                 | with_reducible apply State.drainWarp_memOk | with_reducible apply State.force_memOk
                 | with_reducible apply State.share_memOk | dsimp only | split)

theorem State.barArrive_memOk {s : State} (slot t n : Nat) (h : s.memOk) : (State.barArrive s slot t n).memOk := by
  unfold State.barArrive
  try dsimp only
  repeat' (first | with_reducible assumption | intro _ | with_reducible apply State.updWarp_memOk
                 | with_reducible apply State.updBlock_memOk | with_reducible apply State.put_memOk
                 | with_reducible apply State.barTest_memOk | with_reducible apply State.release_memOk | dsimp only
                 | split)

theorem State.barWait_memOk {s : State} (slot t n : Nat) (exiting : Bool) (h : s.memOk) :
    (State.barWait s slot t n exiting).memOk := by
  unfold State.barWait
  try dsimp only
  repeat' (first | with_reducible assumption | intro _ | with_reducible apply State.updWarp_memOk
                 | with_reducible apply State.acquireBar_memOk | with_reducible apply State.hold_memOk | dsimp only
                 | split)

theorem State.barSet_memOk {s : State} (blk n count : Nat) (d : Bool) (h : s.memOk) :
    (State.barSet s blk n count d).memOk := by
  unfold State.barSet
  try dsimp only
  repeat' (first | with_reducible assumption | intro _ | with_reducible apply State.updBlock_memOk
                 | with_reducible apply State.barTest_memOk)

theorem State.barExit_memOk {s : State} (blk : Nat) (th : Thread) (h : s.memOk) : (State.barExit s blk th).memOk := by
  unfold State.barExit
  try dsimp only
  repeat' (first | with_reducible assumption | intro _ | with_reducible apply State.updBlock_memOk
                 | with_reducible apply State.barTest_memOk | with_reducible apply foldl_memOk
                 | with_reducible apply foldl_fst_memOk | dsimp only | split)

theorem State.ringPut_memOk {s : State} (slot : Nat) (q k : BitVec 4) (h : s.memOk) :
    (State.ringPut s slot q k).memOk := by
  unfold State.ringPut
  try dsimp only
  repeat' (first | with_reducible assumption | intro _ | with_reducible apply State.setWarp_memOk
                 | with_reducible apply State.updBlock_memOk | with_reducible apply State.rings_memOk
                 | with_reducible apply foldl_memOk | with_reducible apply foldl_fst_memOk | dsimp only | split)

theorem State.ringGet_memOk {s : State} (slot t : Nat) (q k : BitVec 4) (ph : Bool) (h : s.memOk) :
    (State.ringGet s slot t q k ph).memOk := by
  unfold State.ringGet
  try dsimp only
  repeat' (first | with_reducible assumption | intro _ | with_reducible apply State.updWarp_memOk
                 | with_reducible apply State.hold_memOk | dsimp only | split)

theorem State.handToken_memOk {s : State} (blk pos : Nat) (heir : Option Nat) (h : s.memOk) :
    (State.handToken s blk pos heir).memOk := by
  unfold State.handToken
  try dsimp only
  repeat' (first | with_reducible assumption | intro _ | with_reducible apply State.updWarp_memOk
                 | with_reducible apply State.updBlock_memOk | with_reducible apply State.put_memOk | dsimp only
                 | split)

theorem State.passToken_memOk {s : State} (slot : Nat) (w : Warp) (h : s.memOk) :
    (State.passToken s slot w).memOk := by
  unfold State.passToken
  try dsimp only
  repeat' (first | with_reducible assumption | intro _ | with_reducible apply State.handToken_memOk | dsimp only
                 | split)

theorem State.takeToken_memOk {s : State} (slot : Nat) (takers : List Nat) (h : s.memOk) :
    (State.takeToken s slot takers).memOk := by
  unfold State.takeToken
  try dsimp only
  repeat' (first | with_reducible assumption | intro _ | with_reducible apply State.updWarp_memOk
                 | with_reducible apply State.handToken_memOk | with_reducible apply State.hold_memOk
                 | with_reducible apply foldl_memOk | with_reducible apply foldl_fst_memOk | dsimp only | split)

theorem State.growAsk_memOk {s : State} (slot : Nat) (ts : List Nat) (n : Nat) (h : s.memOk) :
    (State.growAsk s slot ts n).memOk := by
  unfold State.growAsk
  try dsimp only
  repeat' (first | with_reducible assumption | intro _ | with_reducible apply State.setWarp_memOk
                 | with_reducible apply State.updLane_memOk | with_reducible apply State.grows_memOk
                 | with_reducible apply State.hold_memOk | with_reducible apply foldl_memOk
                 | with_reducible apply foldl_fst_memOk | dsimp only | split)

theorem State.shedTo_memOk {s : State} (slot n : Nat) (h : s.memOk) : (State.shedTo s slot n).memOk := by
  unfold State.shedTo
  try dsimp only
  repeat' (first | with_reducible assumption | intro _ | with_reducible apply State.updWarp_memOk)

theorem State.grantGrow_memOk {s : State} (lane : Nat) (h : s.memOk) : (State.grantGrow s lane).memOk := by
  unfold State.grantGrow
  try dsimp only
  repeat' (first | with_reducible assumption | intro _ | with_reducible apply State.setWarp_memOk
                 | with_reducible apply State.updLane_memOk | with_reducible apply State.evalJoins_memOk
                 | with_reducible apply State.grows_memOk | dsimp only | split)

theorem State.forget_memOk {s : State} (slot t : Nat) (h : s.memOk) : (State.forget s slot t).memOk := by
  unfold State.forget
  try dsimp only
  repeat' (first | with_reducible assumption | intro _ | dsimp only | split | simp only [memOk_mk]
                 | with_reducible apply memOk_back)

theorem State.kill_memOk {s : State} (slot t : Nat) (h : s.memOk) : (State.kill s slot t).memOk := by
  unfold State.kill
  try dsimp only
  repeat' (first | with_reducible assumption | intro _ | with_reducible apply State.setWarp_memOk
                 | with_reducible apply State.updLaunch_memOk | with_reducible apply State.evalJoins_memOk
                 | with_reducible apply State.barExit_memOk | with_reducible apply State.passToken_memOk
                 | with_reducible apply State.forget_memOk | dsimp only | split)

theorem State.leave_memOk {s : State} (slot : Nat) (h : s.memOk) : (State.leave s slot).memOk := by
  unfold State.leave
  try dsimp only
  repeat' (first | with_reducible assumption | intro _ | with_reducible apply State.updCore_memOk
                 | with_reducible apply State.updLane_memOk | with_reducible apply State.freeBank_memOk
                 | with_reducible apply State.release_memOk | with_reducible apply State.grows_memOk | dsimp only
                 | split | simp only [memOk_mk] | with_reducible apply memOk_back)

theorem State.warpEnd_memOk {s : State} (slot : Nat) (h : s.memOk) : (State.warpEnd s slot).memOk := by
  unfold State.warpEnd
  try dsimp only
  repeat' (first | with_reducible assumption | intro _ | with_reducible apply State.leave_memOk | dsimp only | split)

theorem State.twrNow_memOk {s : State} (slot : Nat) (t k : Nat) (x : Word) (h : s.memOk) :
    (State.twrNow s slot t k x).memOk := by
  unfold State.twrNow
  try dsimp only
  repeat' (first | with_reducible assumption | intro _ | with_reducible apply State.setWarp_memOk
                 | with_reducible apply State.updBlock_memOk | with_reducible apply State.evalJoins_memOk
                 | with_reducible apply State.releaseBar_memOk | with_reducible apply State.barTest_memOk
                 | with_reducible apply State.kill_memOk | dsimp only | split)

theorem State.awaited_memOk {s : State} (r : Reader) (l : Load) (h : s.memOk) : (State.awaited s r l).memOk := by
  unfold State.awaited
  try dsimp only
  repeat' (first | with_reducible assumption | intro _ | with_reducible apply State.pushOut_memOk
                 | with_reducible apply State.force_memOk | dsimp only | split)

theorem State.readHome_memOk {s : State} (r : Reader) (how : How) (n : Nat) (pl : Place) (h : s.memOk) :
    (State.readHome s r how n pl).1.memOk := by
  unfold State.readHome
  try dsimp only
  repeat' (first | with_reducible assumption | intro _ | with_reducible apply State.sees_memOk
                 | with_reducible apply State.dropLine_memOk | with_reducible apply State.acquire_memOk | dsimp only
                 | split)

theorem State.readCore_memOk {s : State} (r : Reader) (late : Bool) (how : How) (n : Nat) (pl : Place) (h : s.memOk) :
    (State.readCore s r late how n pl).1.memOk := by
  unfold State.readCore
  try dsimp only
  repeat' (first | with_reducible assumption | intro _ | with_reducible apply State.sees_memOk
                 | with_reducible apply State.touchLine_memOk | with_reducible apply State.dropLine_memOk
                 | with_reducible apply State.acquire_memOk | with_reducible apply State.share_memOk | dsimp only
                 | split)

theorem State.readWord_memOk {s : State} (r : Reader) (late peek : Bool) (how : How) (n : Nat) (pl : Place)
    (h : s.memOk) : (State.readWord s r late peek how n pl).1.memOk := by
  unfold State.readWord
  try dsimp only
  repeat' (first | with_reducible assumption | intro _ | with_reducible apply State.readHome_memOk
                 | with_reducible apply State.readCore_memOk | refine memOk_fst (by with_reducible assumption) ?_
                 | dsimp only | split)

theorem State.readWords_memOk {s : State} (r : Reader) (late : Bool) (l : Load) (ps : List Place) (h : s.memOk) :
    (State.readWords r late l ps s).1.memOk := by
  induction ps generalizing s with
  | nil => exact h
  | cons p ps ih => exact ih (State.readWord_memOk _ _ _ _ _ _ (State.draw_memOk h))

theorem State.readLoad_memOk {s : State} (r : Reader) (late : Bool) (l : Load) (h : s.memOk) :
    (State.readLoad s r late l).1.memOk := by
  have := State.readWords_memOk r late l l.places (State.awaited_memOk r l h)
  unfold State.readLoad
  dsimp only
  split
  · exact State.updWarp_memOk _ _ this
  · exact this

theorem State.fillCode_memOk {s : State} (core ctx : Nat) (a : Addr56) (n : Nat) (h : s.memOk) :
    (State.fillCode s core ctx a n).memOk := by
  unfold State.fillCode
  try dsimp only
  repeat' (first | with_reducible assumption | intro _ | with_reducible apply State.updCore_memOk
                 | with_reducible apply State.put_memOk | with_reducible apply foldl_memOk
                 | with_reducible apply foldl_fst_memOk | dsimp only | split)

theorem State.noteWarp_memOk {s : State} (slot : Nat) (h : s.memOk) : (State.noteWarp s slot).memOk := by
  unfold State.noteWarp
  try dsimp only
  repeat' (first | with_reducible assumption | intro _ | with_reducible apply State.setWarp_memOk
                 | with_reducible apply State.updLane_memOk | dsimp only | split)

theorem State.noteAll_memOk {s : State} (h : s.memOk) : (State.noteAll s).memOk := by
  unfold State.noteAll
  try dsimp only
  repeat' (first | with_reducible assumption | intro _ | with_reducible apply State.noteWarp_memOk
                 | with_reducible apply foldl_memOk)

theorem State.swapIn_memOk {s : State} (lane k : Nat) (h : s.memOk) : (State.swapIn s lane k).memOk := by
  unfold State.swapIn
  try dsimp only
  repeat' (first | with_reducible assumption | intro _ | with_reducible apply State.updWarp_memOk
                 | with_reducible apply State.updLane_memOk)

theorem State.dieViolation_memOk {s : State} (die source ctx kind va : Nat) (h : s.memOk) :
    (State.dieViolation s die source ctx kind va).memOk := by
  unfold State.dieViolation
  try dsimp only
  repeat' (first | with_reducible assumption | intro _ | with_reducible apply State.worldEntry_memOk
                 | with_reducible apply State.bbox_memOk | dsimp only | split)

theorem State.dieRead_memOk {s : State} (die ctx va n : Nat) (h : s.memOk) :
    (State.dieRead s die ctx va n).1.memOk := by
  unfold State.dieRead
  try dsimp only
  repeat' (first | with_reducible assumption | intro _ | with_reducible apply State.dieViolation_memOk
                 | refine memOk_fst (by with_reducible assumption) ?_ | dsimp only | split)

theorem State.writePa_memOk {s : State} (w : Writer) (pa : Nat) (b : List Byte) (h : s.memOk) :
    (State.writePa s w pa b).memOk := by
  unfold State.writePa
  try dsimp only
  repeat' (first | with_reducible assumption | intro _ | with_reducible apply State.bbox_memOk
                 | with_reducible apply State.put_memOk | with_reducible apply foldl_memOk | dsimp only | split)

theorem State.ctxWrite_memOk {s : State} (w : Writer) (ctx va : Nat) (b : List Byte) {t : State} (h : s.memOk)
    (e : State.ctxWrite s w ctx va b = .ok t) : t.memOk := by
  unfold State.ctxWrite at e
  split at e
  · cases e
  · cases e
    exact foldl_memOk h (fun _ _ hs => State.writePa_memOk _ _ _ hs)

theorem State.tryWrite_memOk {s : State} (w : Writer) (ctx va : Nat) (b : List Byte) (h : s.memOk) :
    (State.tryWrite s w ctx va b).memOk := by
  unfold State.tryWrite
  split
  · exact State.ctxWrite_memOk _ _ _ _ h ‹_›
  · exact State.dieViolation_memOk _ _ _ _ _ h

theorem State.endInterlude_memOk {s : State} (launch : Nat) (h : s.memOk) : (State.endInterlude s launch).memOk := by
  unfold State.endInterlude
  try dsimp only
  repeat' (first | with_reducible assumption | intro _ | with_reducible apply State.updCore_memOk
                 | with_reducible apply State.updDie_memOk | with_reducible apply foldl_memOk
                 | with_reducible apply foldl_fst_memOk | dsimp only | split)

theorem State.complete_memOk {s : State} (id : Nat) (l : Launch) (status start fin : Nat) (irq : Bool) (h : s.memOk) :
    (State.complete s id l status start fin irq).memOk := by
  unfold State.complete
  try dsimp only
  repeat' (first | with_reducible assumption | intro _ | with_reducible apply State.updLaunch_memOk
                 | with_reducible apply State.interrupt_memOk | with_reducible apply State.tryWrite_memOk
                 | with_reducible apply State.endInterlude_memOk | dsimp only | split)

theorem State.gangFault_memOk {s : State} (c : Cmd) (unit err : Nat) (addr : Word) (h : s.memOk) :
    (State.gangFault s c unit err addr).memOk := by
  unfold State.gangFault
  try dsimp only
  repeat' (first | with_reducible assumption | intro _ | with_reducible apply State.updLaunch_memOk
                 | with_reducible apply State.tryWrite_memOk | dsimp only | split)

theorem State.failCopy_memOk {s : State} (c : Cmd) (err : Nat) (addr : Word) (h : s.memOk) :
    (State.failCopy s c err addr).memOk := by
  unfold State.failCopy
  try dsimp only
  repeat' (first | with_reducible assumption | intro _ | with_reducible apply State.bbox_memOk
                 | with_reducible apply State.gangFault_memOk)

theorem State.failSeed_memOk {s : State} (c : Cmd) (kind : Nat) (addr : Word) (counter : Bool) (h : s.memOk) :
    (State.failSeed s c kind addr counter).memOk := by
  unfold State.failSeed
  try dsimp only
  repeat' (first | with_reducible assumption | intro _ | with_reducible apply State.bbox_memOk
                 | with_reducible apply State.dieViolation_memOk | with_reducible apply State.gangFault_memOk)

theorem State.dropResid_memOk {s : State} (id : Nat) (h : s.memOk) : (State.dropResid s id).memOk := by
  unfold State.dropResid
  try dsimp only
  repeat' (first | with_reducible assumption | intro _ | with_reducible apply State.updDie_memOk
                 | with_reducible apply foldl_memOk)

theorem State.ret_memOk {s : State} (xs : List Word) (h : s.memOk) : (State.ret s xs).memOk := h

theorem State.preemptOver_memOk {s : State} (ctx die : Nat) (h : s.memOk) : (State.preemptOver s ctx die).memOk := by
  unfold State.preemptOver
  try dsimp only
  repeat' (first | with_reducible assumption | intro _ | with_reducible apply State.updCtx_memOk
                 | with_reducible apply State.ret_memOk | dsimp only | split)

theorem State.forceAll_memOk {s : State} (want : StItem → Bool) (h : s.memOk) : (State.forceAll s want).memOk := by
  unfold State.forceAll
  try dsimp only
  repeat' (first | with_reducible assumption | intro _ | with_reducible apply State.forceFlight_memOk
                 | with_reducible apply State.force_memOk | with_reducible apply foldl_memOk)

theorem State.drainTiles_memOk {s : State} (core : Nat) (tiles : List Nat) (h : s.memOk) :
    (State.drainTiles s core tiles).memOk := by
  unfold State.drainTiles
  try dsimp only
  repeat' (first | with_reducible assumption | intro _ | with_reducible apply State.forceAll_memOk)

theorem State.drainWindows_memOk {s : State} (b : Block) (h : s.memOk) : (State.drainWindows s b).memOk :=
  foldl_memOk h (fun _ _ hs => State.drainTiles_memOk _ _ hs)

theorem State.dropRels_memOk {s : State} (slots : List Nat) (h : s.memOk) : (State.dropRels s slots).memOk :=
  foldl_memOk h (fun _ _ hs => State.updCore_memOk _ _ hs)

theorem State.dropBlock_memOk {s : State} (id : Nat) (h : s.memOk) : (State.dropBlock s id).memOk := by
  unfold State.dropBlock
  try dsimp only
  repeat' (first | with_reducible assumption | intro _
                 | with_reducible apply State.preemptOver_memOk | dsimp only
                 | split | simp only [memOk_mk] | with_reducible apply memOk_back)

theorem State.freeBlock_memOk {s : State} (id : Nat) (h : s.memOk) : (State.freeBlock s id).memOk := by
  unfold State.freeBlock
  apply State.dropBlock_memOk
  split
  · exact State.drainWindows_memOk _ h
  · exact h

theorem State.cutBlock_memOk {s : State} (id : Nat) (h : s.memOk) : (State.cutBlock s id).memOk := by
  unfold State.cutBlock
  try dsimp only
  repeat' (first | with_reducible assumption | intro _ | with_reducible apply State.dropResid_memOk
                 | with_reducible apply State.freeBlock_memOk)

theorem State.endBlock_memOk {s : State} (id : Nat) (h : s.memOk) : (State.endBlock s id).memOk := by
  unfold State.endBlock
  try dsimp only
  repeat' (first | with_reducible assumption | intro _ | with_reducible apply State.updBlock_memOk
                 | with_reducible apply State.updLaunch_memOk | with_reducible apply State.dropResid_memOk
                 | with_reducible apply State.freeBlock_memOk | dsimp only | split)

theorem State.endBlocks_memOk {s : State} (h : s.memOk) : (State.endBlocks s).memOk := by
  unfold State.endBlocks
  try dsimp only
  repeat' (first | with_reducible assumption | intro _ | with_reducible apply State.endBlock_memOk
                 | with_reducible apply foldl_memOk)

theorem State.record_memOk {s : State} (m : MCheck) (h : s.memOk) : (State.record s m).memOk := h

theorem State.deliver_memOk {s : State} (m : MCheck) (h : s.memOk) : (State.deliver s m).memOk := by
  unfold State.deliver
  try dsimp only
  repeat' (first | with_reducible assumption | intro _ | with_reducible apply State.checkEntry_memOk
                 | with_reducible apply State.record_memOk)

theorem State.endEntry_memOk {s : State} (l : Launch) (id status : Nat) (h : s.memOk) :
    (State.endEntry s l id status).memOk := by
  unfold State.endEntry
  try dsimp only
  repeat' (first | with_reducible assumption | intro _ | with_reducible apply State.bbox_memOk)

theorem State.discard_memOk {s : State} (launch : Nat) (h : s.memOk) : (State.discard s launch).memOk := by
  unfold State.discard
  try dsimp only
  repeat' (first | with_reducible assumption | intro _ | dsimp only | split | simp only [memOk_mk]
                 | with_reducible apply memOk_back)

theorem State.endLaunch_memOk {s : State} (d : Doom) (l : Launch) (h : s.memOk) : (State.endLaunch s d l).memOk := by
  unfold State.endLaunch
  try dsimp only
  repeat' (first | with_reducible assumption | intro _ | with_reducible apply State.dropRels_memOk
                 | with_reducible apply State.updLaunch_memOk
                 | with_reducible apply State.freeBank_memOk | with_reducible apply State.drainWarp_memOk
                 | with_reducible apply State.complete_memOk | with_reducible apply State.cutBlock_memOk
                 | with_reducible apply State.record_memOk | with_reducible apply State.endEntry_memOk
                 | with_reducible apply State.discard_memOk | with_reducible apply State.grows_memOk
                 | with_reducible apply foldl_memOk | with_reducible apply foldl_fst_memOk | dsimp only | split
                 | simp only [memOk_mk] | with_reducible apply memOk_back)

theorem State.endDoomed_memOk {s : State} (d : Doom) (h : s.memOk) : (State.endDoomed s d).memOk := by
  unfold State.endDoomed
  try dsimp only
  repeat' (first | with_reducible assumption | intro _ | with_reducible apply State.record_memOk
                 | with_reducible apply State.endEntry_memOk
                 | with_reducible apply State.endLaunch_memOk | dsimp only | split)

theorem State.reap_memOk {s : State} (h : s.memOk) : (State.reap s).memOk := by
  unfold State.reap
  try dsimp only
  repeat' (first | with_reducible assumption | intro _ | with_reducible apply State.endDoomed_memOk
                 | with_reducible apply foldl_memOk | with_reducible apply foldl_fst_memOk | dsimp only | split
                 | simp only [memOk_mk] | with_reducible apply memOk_back)

theorem State.event_memOk {s : State} (f : State → State) (h : s.memOk) (hf : ∀ s, s.memOk → (f s).memOk) :
    Keeps (State.event s f) := by
  unfold State.event
  split
  · exact keeps_next h
  · exact keeps_next (State.noteAll_memOk (State.endBlocks_memOk (State.reap_memOk (State.endBlocks_memOk (hf s h)))))

theorem State.call_memOk {s : State} (f : State → State) (h : s.memOk) (hf : ∀ s, s.memOk → (f s).memOk) :
    Keeps (State.call s f) :=
  State.event_memOk _ h (fun s hs => by
    split
    · exact hf s hs
    · exact hs)

theorem State.updSeed_memOk {s : State} (die ctx : Nat) (f : Seed → Seed) (h : s.memOk) :
    (State.updSeed s die ctx f).memOk := by
  unfold State.updSeed
  try dsimp only
  repeat' (first | with_reducible assumption | intro _ | with_reducible apply State.updDie_memOk)

theorem State.seedPush_memOk {s : State} (die ctx prio : Nat) (x : Item) (h : s.memOk) :
    (State.seedPush s die ctx prio x).memOk := by
  unfold State.seedPush
  try dsimp only
  repeat' (first | with_reducible assumption | intro _ | with_reducible apply State.updSeed_memOk)

theorem State.seedBarred_memOk {s : State} (die ctx : Nat) (h : s.memOk) :
    (State.seedBarred s die ctx).memOk := by
  unfold State.seedBarred
  try dsimp only
  repeat' (first | with_reducible assumption | intro _
                 | with_reducible apply State.worldEntry_memOk
                 | refine memOk_fst (by with_reducible assumption) ?_ | dsimp only | split | simp only [memOk_mk]
                 | with_reducible apply memOk_back)

theorem State.failFull_memOk {s : State} (c : Cmd) (addr : Word) (h : s.memOk) :
    (State.failFull s c addr).memOk := by
  unfold State.failFull
  try dsimp only
  repeat' (first | with_reducible assumption | intro _
                 | with_reducible apply State.failSeed_memOk
                 | with_reducible apply State.seedBarred_memOk
                 | refine memOk_fst (by with_reducible assumption) ?_ | dsimp only | split | simp only [memOk_mk]
                 | with_reducible apply memOk_back)

theorem State.unseeded_memOk {s : State} (c : Cmd) (kind : Nat) (addr : Word) (va n : Nat) (h : s.memOk) :
    (State.unseeded s c kind addr va n).memOk := by
  unfold State.unseeded
  try dsimp only
  repeat' (first | with_reducible assumption | intro _
                 | with_reducible apply State.doom_memOk
                 | with_reducible apply State.failSeed_memOk
                 | refine memOk_fst (by with_reducible assumption) ?_ | dsimp only | split | simp only [memOk_mk]
                 | with_reducible apply memOk_back)

theorem State.taskDone_memOk {s : State} (slot t : Nat) (clause : Addr56) (h : s.memOk) :
    (State.taskDone s slot t clause).memOk := by
  unfold State.taskDone
  try dsimp only
  repeat' (first | with_reducible assumption | intro _ | with_reducible apply State.failFull_memOk
                 | with_reducible apply State.unseeded_memOk | with_reducible apply State.drainWarp_memOk
                 | with_reducible apply State.writePa_memOk | with_reducible apply State.failSeed_memOk
                 | with_reducible apply State.seedPush_memOk | dsimp only | split)

theorem State.startTasks_memOk {s : State} (slot : Nat) (rs : List TaskRec) (h : s.memOk) :
    (State.startTasks s slot rs).memOk := by
  unfold State.startTasks
  try dsimp only
  repeat' (first | with_reducible assumption | intro _ | with_reducible apply State.setWarp_memOk
                 | with_reducible apply State.learn_memOk | with_reducible apply State.discardL1_memOk
                 | with_reducible apply State.put_memOk | with_reducible apply foldl_memOk
                 | with_reducible apply foldl_fst_memOk | dsimp only | split | simp only [memOk_mk]
                 | with_reducible apply memOk_back)

theorem State.giveCore_memOk {s : State} (die ctx core n : Nat) (rs : List TaskRec) (h : s.memOk) :
    (State.giveCore s die ctx core n rs).memOk := by
  induction n generalizing s rs with
  | zero => exact State.updSeed_memOk _ _ _ h
  | succ n ih =>
    unfold State.giveCore
    split
    · exact h
    · split
      · exact State.updSeed_memOk _ _ _ h
      · exact ih _ (State.startTasks_memOk _ _ h)

theorem State.takeList_memOk {s : State} (die ctx core : Nat) (h : s.memOk) :
    (State.takeList s die ctx core).memOk := by
  unfold State.takeList
  try dsimp only
  repeat' (first | with_reducible assumption | intro _ | with_reducible apply State.updSeed_memOk
                 | with_reducible apply State.startTasks_memOk | dsimp only | split)

theorem State.dealHead_memOk {s : State} (die ctx : Nat) (h : s.memOk) : (State.dealHead s die ctx).memOk := by
  unfold State.dealHead
  try dsimp only
  repeat' (first | with_reducible assumption | intro _ | with_reducible apply State.updSeed_memOk
                 | with_reducible apply State.giveCore_memOk | with_reducible apply foldl_memOk
                 | with_reducible apply foldl_fst_memOk | dsimp only | split | simp only [memOk_mk]
                 | with_reducible apply memOk_back)

theorem State.deal_memOk {s : State} (die ctx : Nat) (h : s.memOk) : (State.deal s die ctx).memOk := by
  unfold State.deal
  try dsimp only
  repeat' (first | with_reducible assumption | intro _ | with_reducible apply State.takeList_memOk
                 | with_reducible apply State.dealHead_memOk | dsimp only | split)

theorem State.enqueue_memOk {s : State} (slot : Nat) (i : StItem) (h : s.memOk) : (State.enqueue s slot i).memOk := by
  unfold State.enqueue
  try dsimp only
  repeat' (first | with_reducible assumption | intro _ | with_reducible apply State.updWarp_memOk)

theorem State.queueItem_memOk {s : State} (iss : Issue) (i : StItem) (h : s.memOk) :
    (State.queueItem s iss i).memOk := by
  unfold State.queueItem
  try dsimp only
  repeat' (first | with_reducible assumption | intro _ | with_reducible apply State.share_memOk
                 | with_reducible apply State.fenceDone_memOk
                 | with_reducible apply State.enqueue_memOk | dsimp only | split)

theorem State.readStep_memOk {s : State} (iss : Issue) (ok : List Path) (p : Path) (k : Nat) (x : Fx) (l : Load)
    (h : s.memOk) : (State.readStep s iss ok p k x l).memOk := by
  unfold State.readStep
  try dsimp only
  repeat' (first | with_reducible assumption | intro _ | with_reducible apply State.readLoad_memOk
                 | refine memOk_fst (by with_reducible assumption) ?_ | dsimp only | split | simp only [memOk_mk]
                 | with_reducible apply memOk_back)

theorem State.enterLdu_memOk {s : State} (xs : List (Nat × List Fx × Load)) (l : Load) (h : s.memOk) :
    (State.enterLdu s xs l).memOk := by
  unfold State.enterLdu
  try dsimp only
  repeat' (first | with_reducible assumption | intro _
                 | with_reducible apply State.fresh_memOk
                 | refine memOk_fst (by with_reducible assumption) ?_ | dsimp only | split | simp only [memOk_mk]
                 | with_reducible apply memOk_back)

theorem State.commitLdu_memOk {s : State} (ok : List Path) (t syl : Nat) (l : Load) (h : s.memOk) :
    (State.commitLdu s ok t syl l).memOk := by
  unfold State.commitLdu
  dsimp only
  split
  · exact h
  · exact State.enterLdu_memOk _ _ h

theorem State.pcieNote_memOk {s : State} (core slot thread : Nat) (p : Place) (h : s.memOk) :
    (State.pcieNote s core slot thread p).memOk := by
  unfold State.pcieNote
  try dsimp only
  repeat' (first | with_reducible assumption | intro _ | with_reducible apply State.bbox_memOk | dsimp only | split)

theorem State.refillEnd_memOk {s : State} (iss : Issue) (t : Nat) (l : Load) (h : s.memOk) :
    (State.refillEnd s iss t l).1.memOk := by
  unfold State.refillEnd
  dsimp only
  repeat' (first | with_reducible assumption | with_reducible apply State.peerLost_memOk
                 | with_reducible apply State.loseAt_memOk | with_reducible apply State.pcieNote_memOk
                 | with_reducible apply State.draw_memOk | split)

theorem State.fxCommit_memOk (iss : Issue) (ok : List Path) (a : State × Path) (x : Fx × Nat) (h : a.1.memOk) :
    (State.fxCommit iss ok a x).1.memOk := by
  obtain ⟨s, p⟩ := a
  unfold State.fxCommit
  dsimp only
  split
  · exact State.queueItem_memOk _ _ h
  · exact State.queueItem_memOk _ _ (State.fresh_memOk h)
  · rename_i l _
    have hl : (if l.val.isSome = true then (s, l)
        else s.readLoad (s.readerOf iss p.t (p.fx.take x.2)) true l).1.memOk := by
      split
      · exact h
      · exact State.readLoad_memOk _ _ _ h
    generalize (if l.val.isSome = true then (s, l) else s.readLoad (s.readerOf iss p.t (p.fx.take x.2)) true l) = r at hl ⊢
    split
    · exact State.refillEnd_memOk _ _ _ hl
    · exact State.fresh_memOk hl
  · exact State.commitLdu_memOk _ _ _ _ h
  · exact State.send_memOk _ h
  · exact State.updCore_memOk _ _ (State.force_memOk _ _ h)
  · exact State.updWarp_memOk _ _ h
  · exact State.twrNow_memOk _ _ _ _ h
  · exact h

theorem State.commitPath_memOk (iss : Issue) (ok : List Path) {s : State} (p : Path) (h : s.memOk) :
    (State.commitPath iss ok s p).memOk :=
  State.updWarp_memOk _ _ (foldl_fst_memOk (p := (s, p)) h (fun a x ha => State.fxCommit_memOk iss ok a x ha))

theorem State.sendFx_memOk (iss : Issue) (a : State × List Path) (t k : Nat) (h : a.1.memOk) :
    (State.sendFx iss a t k).1.memOk := by
  unfold State.sendFx
  split
  · exact h
  · split
    · exact h
    · split
      · exact h
      · exact State.fxCommit_memOk _ _ (a.1, _) _ h

theorem State.readLdu_memOk (iss : Issue) (a : State × List Path) (n : Nat) (l : Load) (h : a.1.memOk) :
    (State.readLdu iss a n l).1.memOk :=
  State.enterLdu_memOk _ _ (State.readLoad_memOk _ _ _ h)

theorem State.sendLdu_memOk (iss : Issue) (f : Nat) (a : State × List Path) (n : Nat) (l : Load) (h : a.1.memOk) :
    (State.sendLdu iss f a n l).1.memOk := by
  induction f generalizing a n l with
  | zero => exact h
  | succ f ih =>
    refine State.readLdu_memOk _ _ _ _ (foldl_fst_memOk h (fun a x ha => foldl_fst_memOk ha (fun a k hk => ?_)))
    split
    · exact ih _ _ _ hk
    · exact State.sendFx_memOk _ _ _ _ hk

theorem State.presend_memOk {s : State} (iss : Issue) (ok : List Path) (h : s.memOk) :
    (State.presend s iss ok).1.memOk := by
  unfold State.presend
  split
  · refine foldl_fst_memOk (p := (s, ok)) h (fun a x ha => foldl_fst_memOk ha (fun a k hk => ?_))
    split
    · exact State.sendLdu_memOk _ _ _ _ _ hk
    · exact State.sendFx_memOk _ _ _ _ hk
  · exact h

theorem State.jsets_memOk {s : State} (slot : Nat) (acts : List (Nat × Fx)) (h : s.memOk) :
    (State.jsets s slot acts).memOk := by
  unfold State.jsets
  try dsimp only
  repeat' (first | with_reducible assumption | intro _ | with_reducible apply State.jset_memOk
                 | with_reducible apply foldl_memOk | with_reducible apply foldl_fst_memOk | dsimp only | split)

theorem State.signs_memOk (slot : Nat) (dying : List Nat) {s : State} (a : Nat × Fx) (h : s.memOk) :
    (State.signs slot dying s a).memOk := by
  unfold State.signs
  try dsimp only
  repeat' (first | with_reducible assumption | intro _ | with_reducible apply State.sign_memOk
                 | with_reducible apply State.signMx_memOk | with_reducible apply State.barArrive_memOk
                 | with_reducible apply State.barWait_memOk | with_reducible apply State.barSet_memOk | dsimp only
                 | split)

theorem State.rings_memOk {s : State} (slot : Nat) (acts : List (Nat × Fx)) (dying : List Nat) (h : s.memOk) :
    (State.rings s slot acts dying).memOk := by
  unfold State.rings
  try dsimp only
  repeat' (first | with_reducible assumption | intro _ | with_reducible apply State.release_memOk
                 | with_reducible apply State.ringPut_memOk | with_reducible apply State.ringGet_memOk
                 | with_reducible apply foldl_memOk | with_reducible apply foldl_fst_memOk | dsimp only | split)

theorem State.grows_memOk {s : State} (slot : Nat) (acts : List (Nat × Fx)) (dying : List Nat) (h : s.memOk) :
    (State.grows s slot acts dying).memOk := by
  unfold State.grows
  try dsimp only
  repeat' (first | with_reducible assumption | intro _ | with_reducible apply State.growAsk_memOk
                 | with_reducible apply foldl_memOk | with_reducible apply foldl_fst_memOk | dsimp only | split)

theorem State.tokens_memOk {s : State} (iss : Issue) (acts : List (Nat × Fx)) (dying : List Nat) (h : s.memOk) :
    (State.tokens s iss acts dying).memOk := by
  unfold State.tokens
  try dsimp only
  repeat' (first | with_reducible assumption | intro _ | with_reducible apply State.release_memOk
                 | with_reducible apply State.handToken_memOk | with_reducible apply State.takeToken_memOk
                 | dsimp only | split)

theorem State.sheds_memOk {s : State} (slot : Nat) (acts : List (Nat × Fx)) (h : s.memOk) :
    (State.sheds s slot acts).memOk := by
  unfold State.sheds
  try dsimp only
  repeat' (first | with_reducible assumption | intro _ | with_reducible apply State.shedTo_memOk
                 | with_reducible apply foldl_memOk | with_reducible apply foldl_fst_memOk | dsimp only | split)

theorem State.waitaBytes_memOk {s : State} (slot t : Nat) (p : Place) (n : Nat) (h : s.memOk) :
    (State.waitaBytes s slot t p n).1.memOk := by
  unfold State.waitaBytes
  try dsimp only
  repeat' (first | with_reducible assumption | intro _ | with_reducible apply State.draw_memOk
                 | with_reducible apply State.sees_memOk | with_reducible apply State.dropLine_memOk
                 | with_reducible apply State.pcieNote_memOk | dsimp only | split)

theorem State.waitaRead_memOk {s : State} (slot t k : Nat) (h : s.memOk) : (State.waitaRead s slot t k).memOk := by
  unfold State.waitaRead
  try dsimp only
  repeat' (first | with_reducible assumption | intro _ | with_reducible apply State.updWarp_memOk
                 | with_reducible apply State.acquire_memOk | with_reducible apply State.loseAt_memOk
                 | with_reducible apply State.peerLost_memOk | with_reducible apply State.force_memOk
                 | with_reducible apply State.signed_memOk | with_reducible apply State.waitaBytes_memOk
                 | refine memOk_fst (by with_reducible assumption) ?_ | dsimp only | split)

theorem State.waits_memOk {s : State} (slot at_ : Nat) (acts : List (Nat × Fx)) (dying : List Nat) (h : s.memOk) :
    (State.waits s slot at_ acts dying).memOk := by
  unfold State.waits
  dsimp only
  refine foldl_memOk ?_ (fun s t hs => foldr_memOk hs (fun s k hs => State.waitaRead_memOk _ _ _ hs))
  have hb := foldl_memOk (f := fun (s : State) (x : Nat × Wait × Nat) => s.updWarp slot (fun w => w.hold x.1 (.waita
      { x.2.1 with deadline := if x.2.2 = 0xFFFFFFFF then none else some (at_ + x.2.2) })))
    (l := acts.filterMap (fun a => match a.2 with
      | .waita x timeout => if dying.contains a.1 then none else some (a.1, x, timeout)
      | _ => none)) h (fun _ _ hs => State.updWarp_memOk _ _ hs)
  split
  · exact hb
  · exact State.evalJoins_memOk slot hb

theorem State.escalate_memOk {s : State} (slot : Nat) (w : Warp) (detail : List Word) (h : s.memOk) :
    (State.escalate s slot w detail).memOk := by
  unfold State.escalate
  try dsimp only
  repeat' (first | with_reducible assumption | intro _ | with_reducible apply State.setWarp_memOk
                 | with_reducible apply State.bbox_memOk)

theorem State.doubleFault_memOk {s : State} (slot : Nat) (addr : Addr56) (r : TrapRep) (h : s.memOk) :
    (State.doubleFault s slot addr r).memOk := by
  unfold State.doubleFault
  try dsimp only
  repeat' (first | with_reducible assumption | intro _ | with_reducible apply State.setWarp_memOk
                 | with_reducible apply State.bbox_memOk | with_reducible apply State.freeBank_memOk
                 | with_reducible apply State.doom_memOk | with_reducible apply State.escalate_memOk | dsimp only
                 | split)

theorem State.abandonSave_memOk {s : State} (slot : Nat) (addr : Addr56) (kind : Nat) (h : s.memOk) :
    (State.abandonSave s slot addr kind).memOk := by
  unfold State.abandonSave
  try dsimp only
  repeat' (first | with_reducible assumption | intro _ | with_reducible apply State.setWarp_memOk
                 | with_reducible apply State.bbox_memOk | dsimp only | split)

theorem State.noteWorld_memOk {s : State} (slot : Nat) (rs : List TrapRep) (h : s.memOk) :
    (State.noteWorld s slot rs).memOk := by
  unfold State.noteWorld
  try dsimp only
  repeat' (first | with_reducible assumption | intro _ | with_reducible apply State.bbox_memOk
                 | with_reducible apply foldl_memOk | with_reducible apply foldl_fst_memOk | dsimp only | split)

theorem State.traps_memOk {s : State} (slot : Nat) (addr : Addr56) (rs : List TrapRep) (h : s.memOk) :
    (State.traps s slot addr rs).memOk := by
  unfold State.traps
  try dsimp only
  repeat' (first | with_reducible assumption | intro _ | with_reducible apply State.takeTrap_memOk
                 | with_reducible apply State.doubleFault_memOk | with_reducible apply State.abandonSave_memOk
                 | with_reducible apply State.noteWorld_memOk | dsimp only | split)

theorem State.exits_memOk {s : State} (slot : Nat) (ts : List Nat) (h : s.memOk) : (State.exits s slot ts).memOk := by
  unfold State.exits
  try dsimp only
  repeat' (first | with_reducible assumption | intro _ | with_reducible apply State.setWarp_memOk
                 | with_reducible apply State.force_memOk | with_reducible apply State.kill_memOk
                 | with_reducible apply foldl_memOk | with_reducible apply foldl_fst_memOk | dsimp only | split)

theorem State.boundary_memOk {s : State} (iss : Issue) (ok : List Path) (dying : List Nat) (h : s.memOk) :
    (State.boundary s iss ok dying).memOk := by
  unfold State.boundary
  try dsimp only
  repeat' (first | with_reducible assumption | intro _ | with_reducible apply State.evalJoins_memOk
                 | with_reducible apply State.taskDone_memOk | with_reducible apply State.jsets_memOk
                 | with_reducible apply State.signs_memOk | with_reducible apply State.rings_memOk
                 | with_reducible apply State.grows_memOk | with_reducible apply State.tokens_memOk
                 | with_reducible apply State.sheds_memOk | with_reducible apply State.waits_memOk
                 | with_reducible apply foldl_memOk | with_reducible apply foldl_fst_memOk | dsimp only | split)

theorem State.finishPairs_memOk {s : State} (iss : Issue) (ok : List Path) (h : s.memOk) :
    (State.finishPairs s iss ok).memOk := by
  unfold State.finishPairs
  try dsimp only
  repeat' (first | with_reducible assumption | intro _
                 | with_reducible apply State.force_memOk
                 | refine memOk_fst (by with_reducible assumption) ?_ | dsimp only | split | simp only [memOk_mk]
                 | with_reducible apply memOk_back)

theorem State.finishIssue_memOk {s : State} (iss : Issue) (h : s.memOk) : (State.finishIssue s iss).memOk := by
  unfold State.finishIssue
  try dsimp only
  repeat' (first | with_reducible assumption | intro _ | with_reducible apply State.finishPairs_memOk
                 | with_reducible apply State.presend_memOk | with_reducible apply State.updWarp_memOk
                 | with_reducible apply State.updLane_memOk | with_reducible apply State.trapReturn_memOk
                 | with_reducible apply State.evalJoins_memOk | with_reducible apply State.warpEnd_memOk
                 | with_reducible apply State.commitPath_memOk | with_reducible apply State.traps_memOk
                 | with_reducible apply State.exits_memOk | with_reducible apply State.boundary_memOk
                 | with_reducible apply foldl_memOk | with_reducible apply foldl_fst_memOk | dsimp only | split
                 | simp only [memOk_mk] | with_reducible apply memOk_back)

theorem State.dropRestored_memOk {s : State} (ctx : Nat) (h : s.memOk) : (State.dropRestored s ctx).memOk := by
  unfold State.dropRestored
  try dsimp only
  repeat' (first | with_reducible assumption | intro _ | with_reducible apply State.discardL1_memOk
                 | with_reducible apply foldl_memOk)

theorem State.beginIssue_memOk {s : State} (slot : Nat) (w : Warp) (a : Addr56) (ts : List Nat) (h : s.memOk) :
    (State.beginIssue s slot w a ts).memOk := by
  unfold State.beginIssue
  try dsimp only
  repeat' (first | with_reducible assumption | intro _ | with_reducible apply State.setWarp_memOk
                 | with_reducible apply State.draw_memOk | with_reducible apply State.fresh_memOk
                 | with_reducible apply State.fillCode_memOk | with_reducible apply State.dropRestored_memOk
                 | refine memOk_snd (by with_reducible assumption) ?_ | dsimp only | split | simp only [memOk_mk]
                 | with_reducible apply memOk_back)

theorem State.startIssue_memOk {s : State} (slot : Nat) (serial : Bool) (h : s.memOk) :
    (State.startIssue s slot serial).memOk := by
  unfold State.startIssue
  try dsimp only
  repeat' (first | with_reducible assumption | intro _ | with_reducible apply State.doom_memOk
                 | with_reducible apply State.beginIssue_memOk | dsimp only | split)

theorem State.resumeIssue_memOk {s : State} (slot : Nat) (iss : Issue) (h : s.memOk) :
    (State.resumeIssue s slot iss).memOk := by
  unfold State.resumeIssue
  try dsimp only
  repeat' (first | with_reducible assumption | intro _ | with_reducible apply State.draw_memOk | dsimp only | split
                 | simp only [memOk_mk] | with_reducible apply memOk_back)

theorem State.park_memOk {s : State} (iss : Issue) (h : s.memOk) : (State.park s iss).memOk := by
  unfold State.park
  try dsimp only
  repeat' (first | with_reducible assumption | intro _ | with_reducible apply State.put_memOk | dsimp only | split
                 | simp only [memOk_mk] | with_reducible apply memOk_back)

theorem State.endStep_memOk {s : State} (iss : Issue) (h : s.memOk) : (State.endStep s iss).memOk := by
  unfold State.endStep
  try dsimp only
  repeat' (first | with_reducible assumption | intro _ | with_reducible apply State.noteAll_memOk
                 | with_reducible apply State.endBlocks_memOk | with_reducible apply State.reap_memOk
                 | with_reducible apply State.readStep_memOk | with_reducible apply State.finishIssue_memOk
                 | dsimp only | split | simp only [memOk_mk] | with_reducible apply memOk_back)

theorem State.issueStep_memOk {s : State} (serial : Bool) (h : s.memOk) : Keeps (State.issueStep s serial) := by
  unfold State.issueStep
  try dsimp only
  repeat' (first | with_reducible assumption | with_reducible apply State.startIssue_memOk
                 | with_reducible apply State.resumeIssue_memOk | with_reducible apply State.endStep_memOk
                 | with_reducible apply keeps_next | exact keeps_fault _ | dsimp only | split)

theorem State.nextEvent_memOk {s : State} (h : s.memOk) : (State.nextEvent s).2.memOk := by
  unfold State.nextEvent
  try dsimp only
  repeat' (first | with_reducible assumption | intro _ | with_reducible apply State.draw_memOk | dsimp only | split
                 | simp only [memOk_mk] | with_reducible apply memOk_back)

theorem State.op1_memOk {s : State} (i : Instr) (g : Guard) (wt : Nat) (ty : DTy) (d a : Operand) (f : Word → Word)
    (h : s.memOk) : Keeps (State.op1 s i g wt ty d a f) := by
  unfold State.op1
  try dsimp only
  repeat' (first | with_reducible assumption | with_reducible apply State.alu_memOk)

theorem State.op2_memOk {s : State} (i : Instr) (g : Guard) (wt : Nat) (ty : DTy) (d a b : Operand)
    (f : Word → Word → Word) (h : s.memOk) : Keeps (State.op2 s i g wt ty d a b f) := by
  unfold State.op2
  try dsimp only
  repeat' (first | with_reducible assumption | with_reducible apply State.alu_memOk)

theorem State.op3_memOk {s : State} (i : Instr) (g : Guard) (wt : Nat) (ty : DTy) (d a b c : Operand)
    (f : Word → Word → Word → Word) (h : s.memOk) : Keeps (State.op3 s i g wt ty d a b c f) := by
  unfold State.op3
  try dsimp only
  repeat' (first | with_reducible assumption | with_reducible apply State.alu_memOk)

theorem State.fp2_memOk {s : State} (i : Instr) (g : Guard) (d : Operand) (a b : FSrc) (ty : FTy) (nf : Bool)
    (f : Fmt → Nat → Nat → Nat × Flags) (h : s.memOk) : Keeps (State.fp2 s i g d a b ty nf f) := by
  unfold State.fp2
  try dsimp only
  repeat' (first | with_reducible assumption | with_reducible apply State.alu_memOk)

theorem State.fp1_memOk {s : State} (i : Instr) (g : Guard) (d : Operand) (a : FSrc) (ty : FTy) (nf : Bool)
    (f : Fmt → Nat → Nat × Flags) (h : s.memOk) : Keeps (State.fp1 s i g d a ty nf f) := by
  unfold State.fp1
  try dsimp only
  repeat' (first | with_reducible assumption | with_reducible apply State.alu_memOk)

theorem loadBody_memOk {s : State} (spc : Space) (owner sx : Bool) (d : BitVec 8) (n : Nat) (order : Order)
    (scope : Scope) (va : State → Issue → Warp → Path → Word) (iss : Issue) (w : Warp) (p : Path) (h : s.memOk) :
    (loadBody spc owner sx d n order scope va s iss w p).1.memOk := by
  unfold loadBody
  try dsimp only
  repeat' (first | with_reducible assumption | intro _ | refine memOk_fst (by with_reducible assumption) ?_
                 | dsimp only | split)

theorem State.onLoad_memOk {s : State} (i : Instr) (spc : Space) (owner sx : Bool) (d : BitVec 8) (m : Mem)
    (h : s.memOk) : Keeps (State.onLoad s i spc owner sx d m) := by
  unfold State.onLoad
  try dsimp only
  repeat' (first | with_reducible assumption | with_reducible apply State.onOp_memOk
                 | with_reducible apply loadBody_memOk | with_reducible apply keeps_next | exact keeps_fault _
                 | dsimp only | split | simp only [memOk_mk] | with_reducible apply memOk_back | intro _)

theorem State.onGather_memOk {s : State} (i : Instr) (spc : Space) (sx : Bool) (d : BitVec 8) (x : Idx)
    (h : s.memOk) : Keeps (State.onGather s i spc sx d x) := by
  unfold State.onGather
  try dsimp only
  repeat' (first | with_reducible assumption | with_reducible apply State.onOp_memOk
                 | with_reducible apply loadBody_memOk | with_reducible apply keeps_next | exact keeps_fault _
                 | dsimp only | split | simp only [memOk_mk] | with_reducible apply memOk_back | intro _)

theorem storeBody_memOk {s : State} (spc : Space) (data : Operand) (n : Nat) (order : Order) (scope : Scope)
    (va : State → Issue → Warp → Path → Word) (iss : Issue) (w : Warp) (p : Path) (h : s.memOk) :
    (storeBody spc data n order scope va s iss w p).1.memOk := by
  unfold storeBody
  try dsimp only
  repeat' (first | with_reducible assumption | intro _ | refine memOk_fst (by with_reducible assumption) ?_
                 | dsimp only | split)

theorem State.onStore_memOk {s : State} (i : Instr) (spc : Space) (data : Operand) (m : Mem) (h : s.memOk) :
    Keeps (State.onStore s i spc data m) := by
  unfold State.onStore
  try dsimp only
  repeat' (first | with_reducible assumption | with_reducible apply State.onOp_memOk
                 | with_reducible apply storeBody_memOk | with_reducible apply keeps_next | exact keeps_fault _
                 | dsimp only | split | simp only [memOk_mk] | with_reducible apply memOk_back | intro _)

theorem State.onScatter_memOk {s : State} (i : Instr) (spc : Space) (data : Operand) (x : Idx) (h : s.memOk) :
    Keeps (State.onScatter s i spc data x) := by
  unfold State.onScatter
  try dsimp only
  repeat' (first | with_reducible assumption | with_reducible apply State.onOp_memOk
                 | with_reducible apply storeBody_memOk | with_reducible apply keeps_next | exact keeps_fault _
                 | dsimp only | split | simp only [memOk_mk] | with_reducible apply memOk_back | intro _)

theorem atomBody_memOk {s : State} (spc : Space) (op : AtomOp) (x : Atom) (b c : State → Issue → Warp → Path → Word)
    (iss : Issue) (w : Warp) (p : Path) (h : s.memOk) : (atomBody spc op x b c s iss w p).1.memOk := by
  unfold atomBody
  try dsimp only
  repeat' (first | with_reducible assumption | intro _ | refine memOk_fst (by with_reducible assumption) ?_
                 | dsimp only | split)

theorem State.onAtom_memOk {s : State} (i : Instr) (spc : Space) (op : AtomOp) (x : Atom) (h : s.memOk) :
    Keeps (State.onAtom s i spc op x) := by
  unfold State.onAtom
  try dsimp only
  repeat' (first | with_reducible assumption | with_reducible apply State.onOp_memOk
                 | with_reducible apply atomBody_memOk | with_reducible apply keeps_next | exact keeps_fault _
                 | dsimp only | split | simp only [memOk_mk] | with_reducible apply memOk_back | intro _)

theorem State.onCas_memOk {s : State} (i : Instr) (spc : Space) (x : Atom) (c : Operand) (h : s.memOk) :
    Keeps (State.onCas s i spc x c) := by
  unfold State.onCas
  try dsimp only
  repeat' (first | with_reducible assumption | with_reducible apply State.onOp_memOk
                 | with_reducible apply atomBody_memOk | with_reducible apply keeps_next | exact keeps_fault _
                 | dsimp only | split | simp only [memOk_mk] | with_reducible apply memOk_back | intro _)

theorem State.onFatom_memOk {s : State} (i : Instr) (spc : Space) (op : AtomOp) (x : Atom) (h : s.memOk) :
    Keeps (State.onFatom s i spc op x) := by
  unfold State.onFatom
  try dsimp only
  repeat' (first | with_reducible assumption | with_reducible apply State.onOp_memOk
                 | with_reducible apply atomBody_memOk | with_reducible apply keeps_next | exact keeps_fault _
                 | dsimp only | split | simp only [memOk_mk] | with_reducible apply memOk_back | intro _)

theorem sendBody_memOk {s : State} (opcode : Nat) (dst : Option (BitVec 8))
    (mk : State → Issue → Warp → Path → CmdBody) (iss : Issue) (w : Warp) (p : Path) (h : s.memOk) :
    (sendBody opcode dst mk s iss w p).1.memOk := by
  unfold sendBody
  try dsimp only
  repeat' (first | with_reducible assumption | intro _ | refine memOk_fst (by with_reducible assumption) ?_
                 | dsimp only | split)

theorem State.ownAcquire_memOk {s : State} (core : Nat) (tiles : List Nat) (h : s.memOk) :
    (State.ownAcquire s core tiles).memOk := by
  unfold State.ownAcquire
  try dsimp only
  repeat' (first | with_reducible assumption | intro _ | with_reducible apply State.learn_memOk)

theorem givePath_memOk (g : Guard) (a : Operand) (iss : Issue) (w : Warp) {s : State} (p : Path) (h : s.memOk) :
    (givePath g a iss w s p).1.memOk := by
  unfold givePath
  try dsimp only
  repeat' (first | with_reducible assumption | intro _ | refine memOk_fst (by with_reducible assumption) ?_
                 | dsimp only | split)

theorem mxPath_memOk (i : Instr) (g : Guard) (j : BitVec 4) (cap : State → Issue → Warp → Path → Capture)
    (iss : Issue) (w : Warp) {s : State} (p : Path) (h : s.memOk) : (mxPath i g j cap iss w s p).1.memOk := by
  unfold mxPath
  try dsimp only
  repeat' (first | with_reducible assumption | intro _ | refine memOk_fst (by with_reducible assumption) ?_
                 | dsimp only | split)

theorem State.onMx_memOk {s : State} (i : Instr) (g : Guard) (j : BitVec 4)
    (cap : State → Issue → Warp → Path → Capture) (h : s.memOk) : Keeps (State.onMx s i g j cap) := by
  unfold State.onMx
  try dsimp only
  repeat' (first | with_reducible assumption | with_reducible apply State.syllable_memOk
                 | with_reducible apply mxPath_memOk)

theorem State.putAcc_memOk {s : State} (core id base : Nat) (acc : BitVec 9) (xs : List Nat) (h : s.memOk) :
    (State.putAcc s core id base acc xs).memOk := by
  unfold State.putAcc
  try dsimp only
  repeat' (first | with_reducible assumption | intro _ | with_reducible apply State.put_memOk)

theorem State.mxChunk_memOk {s : State} (core id base size kind : Nat) (acc : BitVec 9) (fmt a0 a1 b0 b1 : Word)
    (c : Chunk) (h : s.memOk) : (State.mxChunk s core id base size kind acc fmt a0 a1 b0 b1 c).memOk := by
  unfold State.mxChunk
  try dsimp only
  repeat' (first | with_reducible assumption | intro _ | with_reducible apply State.putAcc_memOk | dsimp only | split)

theorem State.mxStart_memOk {s : State} (c : Cmd) (h : s.memOk) : (State.mxStart s c).memOk := by
  unfold State.mxStart
  try dsimp only
  repeat' (first | with_reducible assumption | intro _ | with_reducible apply State.updCore_memOk | dsimp only
                 | split)

theorem State.mxRun_memOk {s : State} (id : Nat) (c : Cmd) (base size : Nat) (cs : List Chunk) (h : s.memOk) :
    (State.mxRun s id c base size cs).memOk := by
  unfold State.mxRun
  try dsimp only
  repeat' (first | with_reducible assumption | intro _ | with_reducible apply State.updCore_memOk
                 | with_reducible apply State.mxChunk_memOk | with_reducible apply foldl_memOk
                 | with_reducible apply foldl_fst_memOk | dsimp only | split | simp only [memOk_mk]
                 | with_reducible apply memOk_back)

theorem State.mxSome_memOk {s : State} (id n : Nat) (c : Cmd) (h : s.memOk) : (State.mxSome s id n c).memOk := by
  unfold State.mxSome
  try dsimp only
  repeat' (first | with_reducible assumption | intro _ | with_reducible apply State.draw_memOk
                 | with_reducible apply State.mxStart_memOk | with_reducible apply State.mxRun_memOk)

theorem State.mxAll_memOk {s : State} (id : Nat) (c : Cmd) (h : s.memOk) : (State.mxAll s id c).memOk := by
  unfold State.mxAll
  try dsimp only
  repeat' (first | with_reducible assumption | intro _ | with_reducible apply State.updCore_memOk
                 | with_reducible apply State.draw_memOk | with_reducible apply State.putAcc_memOk
                 | with_reducible apply State.mxStart_memOk | with_reducible apply State.mxRun_memOk | dsimp only
                 | split)

theorem State.onSweep_memOk {s : State} (i : Instr) (op : Nat) (x : Sweep) (h : s.memOk) :
    Keeps (State.onSweep s i op x) := by
  unfold State.onSweep
  try dsimp only
  repeat' (first | with_reducible assumption | with_reducible apply State.onOp_memOk
                 | with_reducible apply sendBody_memOk | with_reducible apply keeps_next | exact keeps_fault _
                 | dsimp only | split | simp only [memOk_mk] | with_reducible apply memOk_back | intro _)

theorem State.walkPut_memOk {s : State} (core id base : Nat) (x : Word) (F : Fmt) (r e v : Nat) (h : s.memOk) :
    (State.walkPut s core id base x F r e v).memOk := by
  unfold State.walkPut
  try dsimp only
  repeat' (first | with_reducible assumption | intro _ | with_reducible apply State.put_memOk)

theorem State.vsRow_memOk {s : State} (core id base op : Nat) (sat : Bool) (d a b c : Word) (F G : Fmt) (r : Nat)
    (h : s.memOk) : (State.vsRow s core id base op sat d a b c F G r).memOk := by
  unfold State.vsRow
  try dsimp only
  repeat' (first | with_reducible assumption | intro _ | with_reducible apply State.walkPut_memOk
                 | with_reducible apply foldl_memOk | with_reducible apply foldl_fst_memOk | dsimp only | split)

theorem State.vsSome_memOk {s : State} (id n : Nat) (c : Cmd) (h : s.memOk) : (State.vsSome s id n c).memOk := by
  unfold State.vsSome
  try dsimp only
  repeat' (first | with_reducible assumption | intro _ | with_reducible apply State.vsRow_memOk
                 | with_reducible apply foldl_memOk | with_reducible apply foldl_fst_memOk | dsimp only | split
                 | simp only [memOk_mk] | with_reducible apply memOk_back)

theorem State.vsAll_memOk {s : State} (id : Nat) (c : Cmd) (h : s.memOk) : (State.vsAll s id c).memOk := by
  unfold State.vsAll
  try dsimp only
  repeat' (first | with_reducible assumption | intro _ | with_reducible apply State.vsSome_memOk)

theorem State.onCopy_memOk {s : State} (i : Instr) (kind : Nat) (ws : Bool) (x : Copy) (h : s.memOk) :
    Keeps (State.onCopy s i kind ws x) := by
  unfold State.onCopy
  try dsimp only
  repeat' (first | with_reducible assumption | with_reducible apply State.onOp_memOk
                 | with_reducible apply sendBody_memOk | with_reducible apply keeps_next | exact keeps_fault _
                 | dsimp only | split | simp only [memOk_mk] | with_reducible apply memOk_back | intro _)

theorem State.closeRounds_memOk {s : State} (cell n : Nat) (h : s.memOk) : (State.closeRounds cell n s).memOk := by
  induction n generalizing s with
  | zero => exact h
  | succ n ih =>
    unfold State.closeRounds
    split
    · exact h
    · split
      · exact ih (memOk_back (foldl_memOk (foldl_memOk h (fun _ _ hs => State.writePa_memOk _ _ _ hs))
          (fun _ _ hs => State.writePa_memOk _ _ _ hs)))
      · exact h

theorem State.cellContribute_memOk {s : State} (cell pkg : Nat) (b : List Byte) (h : s.memOk) :
    (State.cellContribute s cell pkg b).memOk := by
  unfold State.cellContribute
  try dsimp only
  repeat' (first | with_reducible assumption | intro _ | with_reducible apply State.put_memOk
                 | with_reducible apply State.closeRounds_memOk | dsimp only | split | simp only [memOk_mk]
                 | with_reducible apply memOk_back)

theorem State.pcieEntry_memOk {s : State} (c : Cmd) (p : Place) (h : s.memOk) : (State.pcieEntry s c p).memOk := by
  unfold State.pcieEntry
  try dsimp only
  repeat' (first | with_reducible assumption | intro _ | with_reducible apply State.bbox_memOk | dsimp only | split)

theorem State.engineSight_memOk {s : State} (core : Nat) (p : Place) (h : s.memOk) :
    (State.engineSight s core p).1.memOk := by
  unfold State.engineSight
  try dsimp only
  repeat' (first | with_reducible assumption | intro _ | with_reducible apply State.draw_memOk
                 | with_reducible apply State.sees_memOk)

theorem State.farRead_memOk {s : State} (c : Cmd) (err : Bool) (p : Place) (h : s.memOk) :
    (State.farRead s c err p).1.memOk := by
  unfold State.farRead
  try dsimp only
  repeat' (first | with_reducible assumption | intro _ | with_reducible apply State.pcieEntry_memOk
                 | with_reducible apply State.engineSight_memOk | refine memOk_fst (by with_reducible assumption) ?_
                 | dsimp only | split)

theorem State.cpUnitRun_memOk {s : State} (id : Nat) (c : Cmd) (kind : Nat) (ws : Bool) (a b sh : Word) (base : Nat)
    (err : Bool) (r u : Nat) {t : State} (h : s.memOk)
    (e : State.cpUnitRun s id c kind ws a b sh base err r u = .ok t) : t.memOk := by
  unfold State.cpUnitRun at e
  dsimp only at e
  split at e
  · cases e
    exact State.put_memOk _ _ _ _ h
  · split at e
    · cases e
    · split at e
      · cases e
      · split at e
        · cases e
          exact State.pcieEntry_memOk _ _ h
        · cases e
          exact State.dropLine_memOk _ _ (State.put_memOk _ _ _ _ h)
  · split at e
    · cases e
      exact State.put_memOk _ _ _ _ (State.farRead_memOk _ _ _ h)
    · cases e
    · cases e
  · split at e
    · cases e
    · cases e
      exact State.put_memOk _ _ _ _ (State.farRead_memOk _ _ _ h)

theorem State.cpRun_memOk {s : State} (id : Nat) (c : Cmd) (kind : Nat) (ws : Bool) (a b sh : Word) (base : Nat)
    (us held : List CopyUnit) (h : s.memOk) : (State.cpRun id c kind ws a b sh base us held s).1.memOk := by
  induction us generalizing s held with
  | nil => exact h
  | cons x r ih =>
    unfold State.cpRun
    dsimp only
    split
    · exact ih _ h
    · split
      · exact h
      · split
        · exact ih _ (State.draw_memOk (State.cpUnitRun_memOk _ _ _ _ _ _ _ _ _ _ _ h ‹_›))
        · exact h

theorem State.cpTail_memOk {s : State} (id : Nat) (c : Cmd) (kind : Nat) (ws : Bool) (a b sh : Word) (base : Nat)
    (xs : List CopyUnit) (h : s.memOk) : (State.cpTail id c kind ws a b sh base xs s).memOk :=
  foldl_memOk (State.draw_memOk h) (fun s x hs => by
    dsimp only
    split
    · cases e : s.cpUnitRun id c kind ws a b sh base (Config.pcieFails s.tick x.1) x.2.1 x.2.2 with
      | ok t => exact State.cpUnitRun_memOk _ _ _ _ _ _ _ _ _ _ _ hs e
      | error k => exact hs
    · exact hs)

theorem State.cpBody_memOk {s : State} (id n : Nat) (c : Cmd) (kind : Nat) (ws : Bool) (a b sh : Word) (base : Nat)
    (h : s.memOk) : (State.cpBody s id n c kind ws a b sh base).1.memOk := by
  unfold State.cpBody
  try dsimp only
  repeat' (first | with_reducible assumption | intro _ | with_reducible apply State.draw_memOk
                 | with_reducible apply State.cellContribute_memOk | with_reducible apply State.cpRun_memOk
                 | refine memOk_fst (by with_reducible assumption) ?_ | dsimp only | split)

theorem State.dropWs_memOk {s : State} (die : Nat) (h : s.memOk) : (State.dropWs s die).memOk := by
  unfold State.dropWs
  try dsimp only
  repeat' (first | with_reducible assumption | intro _ | with_reducible apply State.updCore_memOk
                 | with_reducible apply foldl_memOk)

theorem State.copyViolation_memOk {s : State} (c : Cmd) (f : CopyFail) (h : s.memOk) :
    (State.copyViolation s c f).memOk := by
  unfold State.copyViolation
  try dsimp only
  repeat' (first | with_reducible assumption | intro _ | with_reducible apply State.bbox_memOk | dsimp only | split)

theorem State.cpDone_memOk {s : State} (id : Nat) (c : Cmd) (sc : Scope) (d : Word) (base : Nat)
    (f : Option CopyFail) (h : s.memOk) : (State.cpDone s id c sc d base f).memOk := by
  unfold State.cpDone
  try dsimp only
  repeat' (first | with_reducible assumption | intro _ | with_reducible apply State.put_memOk
                 | with_reducible apply State.failCopy_memOk | with_reducible apply State.copyViolation_memOk
                 | dsimp only | split)

theorem State.cpSome_memOk {s : State} (id n : Nat) (part : Bool) (c : Cmd) (free : State → State) (h : s.memOk)
    (hf : ∀ s, s.memOk → (free s).memOk) : (State.cpSome s id n part c free).memOk := by
  unfold State.cpSome
  dsimp only
  split
  · rename_i kind ws sc d a b sh _
    split
    · exact h
    · generalize (if part = true then min n ((c.cpTodo sh).length - 1) else (c.cpTodo sh).length) = k
      have hb := State.cpBody_memOk id k c kind ws a b sh (4096 * ((s.window c.block c.core).map (·.1)).getD 0) h
      generalize s.cpBody id k c kind ws a b sh (4096 * ((s.window c.block c.core).map (·.1)).getD 0) = r at hb ⊢
      obtain ⟨u, held, rest, f⟩ := r
      dsimp only at hb ⊢
      split
      · exact memOk_back hb
      · refine State.cpDone_memOk _ _ _ _ _ _ (hf _ ?_)
        have ht : (if (f.isSome && !(s.cpCell c kind a sh).isSome) = true then State.cpTail id c kind ws a b sh
            (4096 * ((s.window c.block c.core).map (·.1)).getD 0) (rest.drop 1) u else u).memOk := by
          split
          · exact State.cpTail_memOk _ _ _ _ _ _ _ _ _ hb
          · exact hb
        split
        · exact State.dropWs_memOk _ ht
        · exact ht
  · exact hf _ h

theorem State.cpAll_memOk {s : State} (id : Nat) (c : Cmd) (free : State → State) (h : s.memOk)
    (hf : ∀ s, s.memOk → (free s).memOk) : (State.cpAll s id c free).memOk := State.cpSome_memOk id 0 false c free h hf

theorem taskBody_memOk {s : State} (opcode : Nat) (a : Operand) (mk : Word → CmdBody) (iss : Issue) (w : Warp)
    (p : Path) (h : s.memOk) : (taskBody opcode a mk s iss w p).1.memOk := by
  unfold taskBody
  try dsimp only
  repeat' (first | with_reducible assumption | intro _ | refine memOk_fst (by with_reducible assumption) ?_
                 | dsimp only | split)

theorem tdonePath_memOk (g : Guard) (iss : Issue) (w : Warp) {s : State} (p : Path) (h : s.memOk) :
    (tdonePath g iss w s p).1.memOk := by
  unfold tdonePath
  try dsimp only
  repeat' (first | with_reducible assumption | intro _ | with_reducible apply opPath_memOk
                 | refine memOk_fst (by with_reducible assumption) ?_ | dsimp only | split)

theorem tableBody_memOk {s : State} (opcode : Nat) (dst : Option (BitVec 8)) (ok : Bool) (x : CmdBody) (iss : Issue)
    (w : Warp) (p : Path) (h : s.memOk) : (tableBody opcode dst ok x s iss w p).1.memOk := by
  unfold tableBody
  try dsimp only
  repeat' (first | with_reducible assumption | intro _ | refine memOk_fst (by with_reducible assumption) ?_
                 | dsimp only | split)

theorem State.acceptSpawn_memOk {s : State} (c : Cmd) (a : Word) (h : s.memOk) : (State.acceptSpawn s c a).memOk := by
  unfold State.acceptSpawn
  try dsimp only
  repeat' (first | with_reducible assumption | intro _ | with_reducible apply State.failFull_memOk
                 | with_reducible apply State.unseeded_memOk | with_reducible apply State.failSeed_memOk
                 | with_reducible apply State.seedPush_memOk | dsimp only | split)

theorem State.acceptJob_memOk {s : State} (c : Cmd) (a : Word) (h : s.memOk) : (State.acceptJob s c a).memOk := by
  unfold State.acceptJob
  try dsimp only
  repeat' (first | with_reducible assumption | intro _ | with_reducible apply State.failFull_memOk
                 | with_reducible apply State.unseeded_memOk | with_reducible apply State.failSeed_memOk
                 | with_reducible apply State.seedPush_memOk | dsimp only | split)

theorem State.acceptReg_memOk {s : State} (c : Cmd) (id loc : Word) (h : s.memOk) :
    (State.acceptReg s c id loc).1.memOk := by
  unfold State.acceptReg
  try dsimp only
  repeat' (first | with_reducible assumption | intro _ | with_reducible apply State.updDie_memOk
                 | refine memOk_fst (by with_reducible assumption) ?_ | dsimp only | split)

theorem State.acceptDrop_memOk {s : State} (c : Cmd) (id sel : Word) (h : s.memOk) :
    (State.acceptDrop s c id sel).memOk := by
  unfold State.acceptDrop
  try dsimp only
  repeat' (first | with_reducible assumption | intro _ | with_reducible apply State.updDie_memOk)

theorem State.dropMet_memOk {s : State} (core : Nat) (tiles : List Nat) (h : s.memOk) :
    (State.dropMet s core tiles).memOk := by
  unfold State.dropMet
  try dsimp only
  repeat' (first | with_reducible assumption | intro _ | with_reducible apply State.updDie_memOk)

theorem State.onSysc_memOk {s : State} (i : Instr) (n : BitVec 8) (x : Call) (h : s.memOk) :
    Keeps (State.onSysc s i n x) := by
  unfold State.onSysc
  try dsimp only
  repeat' (first | with_reducible assumption | with_reducible apply State.onOp_memOk
                 | with_reducible apply sendBody_memOk | with_reducible apply keeps_next | exact keeps_fault _
                 | dsimp only | split | simp only [memOk_mk] | with_reducible apply memOk_back | intro _)

theorem State.sysAlloc_memOk {s : State} (ctx die : Nat) (a : Word) (h : s.memOk) :
    (State.sysAlloc s ctx die a).1.memOk := by
  unfold State.sysAlloc
  try dsimp only
  repeat' (first | with_reducible assumption | intro _ | with_reducible apply State.updCtx_memOk
                 | with_reducible apply State.draw_memOk | refine memOk_fst (by with_reducible assumption) ?_
                 | dsimp only | split)

theorem State.sysFree_memOk {s : State} (ctx : Nat) (x : Alloc) (h : s.memOk) : (State.sysFree s ctx x).memOk := by
  unfold State.sysFree
  have hs := State.clearResv_memOk (fun _ _ r => x.frames.contains (32 * r.granule / 65536)) (State.settle_memOk h)
  exact State.updCtx_memOk _ _ ⟨filter_wf hs.1 _, hs.2⟩

theorem State.printBarred_memOk {s : State} (c : Cmd) (va n : Nat) (h : s.memOk) :
    (State.printBarred s c va n).memOk := by
  unfold State.printBarred
  try dsimp only
  repeat' (first | with_reducible assumption | intro _
                 | with_reducible apply State.bbox_memOk
                 | refine memOk_fst (by with_reducible assumption) ?_ | dsimp only | split | simp only [memOk_mk]
                 | with_reducible apply memOk_back)

theorem State.serve_memOk {s : State} (c : Cmd) (n : BitVec 8) (a b d : Word) (h : s.memOk) :
    (State.serve s c n a b d).1.memOk := by
  unfold State.serve
  try dsimp only
  repeat' (first | with_reducible assumption | intro _ | with_reducible apply State.printBarred_memOk
                 | with_reducible apply State.doom_memOk
                 | with_reducible apply State.escalate_memOk | with_reducible apply State.sysAlloc_memOk
                 | with_reducible apply State.sysFree_memOk | refine memOk_fst (by with_reducible assumption) ?_
                 | dsimp only | split | simp only [memOk_mk] | with_reducible apply memOk_back)

theorem State.overlay_memOk {s : State} (iss : Issue) (p : Path) (h : s.memOk) : (State.overlay s iss p).memOk := by
  unfold State.overlay
  try dsimp only
  repeat' (first | with_reducible assumption | intro _ | with_reducible apply State.twrNow_memOk
                 | with_reducible apply foldl_memOk | with_reducible apply foldl_fst_memOk | dsimp only | split)

theorem State.swapWhen_memOk {s : State} (lane : Nat) (due : Bool) (h : s.memOk) :
    (State.swapWhen s lane due).memOk := by
  unfold State.swapWhen
  try dsimp only
  repeat' (first | with_reducible assumption | intro _ | with_reducible apply State.swapIn_memOk | dsimp only | split)

theorem State.landLoad_memOk {s : State} (id : Nat) (l : Load) (vals : List Word) (h : s.memOk) :
    (State.landLoad s id l vals).memOk := by
  unfold State.landLoad
  try dsimp only
  repeat' (first | with_reducible assumption | intro _ | with_reducible apply State.updWarp_memOk
                 | with_reducible apply State.decFlag_memOk | with_reducible apply foldl_memOk
                 | with_reducible apply foldl_fst_memOk | dsimp only | split | simp only [memOk_mk]
                 | with_reducible apply memOk_back)

theorem State.machineCheck_memOk {s : State} (launch : Nat) (m : MCheck) (h : s.memOk) :
    (State.machineCheck s launch m).memOk := by
  unfold State.machineCheck
  try dsimp only
  repeat' (first | with_reducible assumption | intro _ | with_reducible apply State.doom_memOk)

theorem State.loseLoad_memOk {s : State} (l : Load) (store loc : Nat) (h : s.memOk) :
    (State.loseLoad s l store loc).memOk := by
  unfold State.loseLoad
  try dsimp only
  repeat' (first | with_reducible assumption | intro _ | with_reducible apply State.machineCheck_memOk)

theorem State.loseCmd_memOk {s : State} (c : Cmd) (store loc : Nat) (h : s.memOk) :
    (State.loseCmd s c store loc).memOk := by
  unfold State.loseCmd
  try dsimp only
  repeat' (first | with_reducible assumption | intro _ | with_reducible apply State.machineCheck_memOk)

theorem State.arriveIf_memOk {s : State} (kind : StKind → Bool) (h : s.memOk) : (State.arriveIf s kind).memOk := by
  unfold State.arriveIf
  try dsimp only
  repeat' (first | with_reducible assumption | intro _ | with_reducible apply State.arrive_memOk | dsimp only | split)

theorem State.drainFor_memOk {s : State} (c : Cmd) (h : s.memOk) : (State.drainFor s c).memOk := by
  unfold State.drainFor
  try dsimp only
  repeat' (first | with_reducible assumption | intro _ | with_reducible apply State.forceCore_memOk
                 | with_reducible apply State.force_memOk | dsimp only | split)

theorem State.takeTiles_memOk {s : State} (c : Cmd) (tiles : List Nat) (h : s.memOk) :
    (State.takeTiles s c tiles).memOk := by
  unfold State.takeTiles
  try dsimp only
  repeat' (first | with_reducible assumption | intro _ | with_reducible apply State.updCore_memOk)

theorem State.dropFlags_memOk {s : State} (c : Cmd) (h : s.memOk) : (State.dropFlags s c).memOk := by
  unfold State.dropFlags
  try dsimp only
  repeat' (first | with_reducible assumption | intro _ | with_reducible apply State.decFlag_memOk
                 | with_reducible apply foldl_memOk)

theorem State.reply_memOk {s : State} (id : Nat) (c : Cmd) (v : Word) (h : s.memOk) :
    (State.reply s id c v).memOk := by
  unfold State.reply
  try dsimp only
  repeat' (first | with_reducible assumption | intro _ | with_reducible apply State.updWarp_memOk
                 | with_reducible apply State.dropFlags_memOk | dsimp only | split | simp only [memOk_mk]
                 | with_reducible apply memOk_back)

theorem State.seated_memOk {s : State} (id : Nat) (c : Cmd) (tiles : List Nat) (h : s.memOk) :
    (State.seated s id c tiles).memOk := by
  unfold State.seated
  try dsimp only
  repeat' (first | with_reducible assumption | intro _ | with_reducible apply State.dropMet_memOk
                 | with_reducible apply State.drainTiles_memOk | with_reducible apply State.takeTiles_memOk
                 | with_reducible apply State.dropFlags_memOk | dsimp only | split | simp only [memOk_mk]
                 | with_reducible apply memOk_back)

theorem State.acceptEngine_memOk {s : State} (id : Nat) (c : Cmd) (h : s.memOk) :
    (State.acceptEngine s id c).memOk := by
  unfold State.acceptEngine
  try dsimp only
  repeat' (first | with_reducible assumption | intro _ | with_reducible apply State.drainTiles_memOk
                 | with_reducible apply State.drainFor_memOk | with_reducible apply State.seated_memOk | dsimp only
                 | split)

theorem State.accept_memOk {s : State} (id : Nat) (c : Cmd) (h : s.memOk) : (State.accept s id c).memOk := by
  unfold State.accept
  try dsimp only
  repeat' (first | with_reducible assumption | intro _ | with_reducible apply State.discardL1_memOk
                 | with_reducible apply State.acceptSpawn_memOk | with_reducible apply State.acceptJob_memOk
                 | with_reducible apply State.acceptReg_memOk | with_reducible apply State.acceptDrop_memOk
                 | with_reducible apply State.serve_memOk | with_reducible apply State.drainFor_memOk
                 | with_reducible apply State.reply_memOk | with_reducible apply State.acceptEngine_memOk
                 | refine memOk_fst (by with_reducible assumption) ?_ | dsimp only | split | simp only [memOk_mk])

theorem State.freeTiles_memOk {s : State} (core id : Nat) (tiles : List Nat) (h : s.memOk) :
    (State.freeTiles s core id tiles).memOk := by
  unfold State.freeTiles
  try dsimp only
  repeat' (first | with_reducible assumption | intro _ | with_reducible apply State.updCore_memOk)

theorem State.finishCmd_memOk {s : State} (id : Nat) (c : Cmd) (h : s.memOk) : (State.finishCmd s id c).memOk := by
  unfold State.finishCmd
  try dsimp only
  repeat' (first | with_reducible assumption | intro _ | with_reducible apply State.freeTiles_memOk | dsimp only
                 | split | simp only [memOk_mk] | with_reducible apply memOk_back)

theorem State.work_memOk {s : State} (id n : Nat) (part : Bool) (c : Cmd) (h : s.memOk) :
    (State.work s id n part c).memOk := by
  unfold State.work
  try dsimp only
  repeat' (first | with_reducible assumption | intro _ | with_reducible apply State.mxSome_memOk
                 | with_reducible apply State.mxAll_memOk | with_reducible apply State.vsSome_memOk
                 | with_reducible apply State.vsAll_memOk | with_reducible apply State.cpSome_memOk
                 | with_reducible apply State.finishCmd_memOk | dsimp only | split)

theorem State.corrected_memOk {s : State} (h : s.memOk) : (State.corrected s).memOk := by
  unfold State.corrected
  try dsimp only
  repeat' (first | with_reducible assumption | intro _ | with_reducible apply State.updCore_memOk
                 | with_reducible apply State.bbox_memOk | with_reducible apply State.deliver_memOk | dsimp only
                 | split | simp only [memOk_mk] | with_reducible apply memOk_back)

theorem State.loseDirty_memOk {s : State} (loc : Nat) (h : s.memOk) : (State.loseDirty s loc).memOk := by
  unfold State.loseDirty
  try dsimp only
  repeat' (first | with_reducible assumption | intro _ | with_reducible apply State.draw_memOk
                 | with_reducible apply State.writeHome_memOk | with_reducible apply State.settled_memOk)

theorem State.cutCopy_memOk {s : State} (c : Cmd) (h : s.memOk) : (State.cutCopy s c).memOk := by
  unfold State.cutCopy
  try dsimp only
  repeat' (first | with_reducible assumption | intro _ | with_reducible apply State.peerLost_memOk | dsimp only
                 | split)

theorem State.report_memOk {s : State} (die code ctx : Nat) (detail : List Word) (h : s.memOk) :
    (State.report s die code ctx detail).memOk := by
  unfold State.report
  try dsimp only
  repeat' (first | with_reducible assumption | intro _ | with_reducible apply State.bbox_memOk
                 | with_reducible apply State.interrupt_memOk)

theorem State.reject_memOk {s : State} (id status : Nat) (h : s.memOk) : (State.reject s id status).memOk := by
  unfold State.reject
  try dsimp only
  repeat' (first | with_reducible assumption | intro _ | with_reducible apply State.complete_memOk
                 | with_reducible apply State.report_memOk | dsimp only | split)

theorem State.enterLaunch_memOk {s : State} (qid : Nat) (q : Queue) (index : Nat) (b : List Byte) (h : s.memOk) :
    (State.enterLaunch s qid q index b).memOk := by
  unfold State.enterLaunch
  try dsimp only
  repeat' (first | with_reducible assumption | intro _ | with_reducible apply State.fresh_memOk
                 | with_reducible apply State.put_memOk | with_reducible apply State.complete_memOk
                 | with_reducible apply State.reject_memOk | refine memOk_snd (by with_reducible assumption) ?_
                 | dsimp only | split | simp only [memOk_mk] | with_reducible apply memOk_back)

theorem State.stopQueue_memOk {s : State} (qid : Nat) (q : Queue) (code : Nat) (detail : List Word) (h : s.memOk) :
    (State.stopQueue s qid q code detail).memOk := by
  unfold State.stopQueue
  try dsimp only
  repeat' (first | with_reducible assumption | intro _ | with_reducible apply State.put_memOk
                 | with_reducible apply State.report_memOk | dsimp only | split | simp only [memOk_mk]
                 | with_reducible apply memOk_back)

theorem State.takeRecord_memOk {s : State} (qid : Nat) (q : Queue) (got : Except Nat (List Byte)) (h : s.memOk) :
    (State.takeRecord s qid q got).memOk := by
  unfold State.takeRecord
  dsimp only
  have hw : ∀ {w : Writer} {ctx va : Nat} {b : List Byte} {qs : SMap Queue} {q' : Queue},
      (match State.ctxWrite { s with queues := qs } w ctx va b with
        | .ok s => s
        | .error k => (State.dieViolation { s with queues := qs } q.die 4 q.ctx k q.header.toNat).stopQueue qid q' 0x12
            [q.header, BitVec.ofNat 64 k]).memOk := by
    intro w ctx va b qs q'
    split
    · exact State.ctxWrite_memOk (s := { s with queues := qs }) _ _ _ _ (memOk_back h) ‹_›
    · exact State.stopQueue_memOk _ _ _ _ (State.dieViolation_memOk _ _ _ _ _ (memOk_back h))
  split
  · exact State.enterLaunch_memOk _ _ _ _ hw
  · exact State.report_memOk _ _ _ _ hw

theorem State.queueCheck_memOk {s : State} (q : Queue) (va n : Nat) (h : s.memOk) :
    (State.queueCheck s q va n).memOk := State.deliver_memOk _ h

theorem State.headerFailed_memOk {s : State} (q : Queue) (kind : Nat) (h : s.memOk) :
    (State.headerFailed s q kind).memOk := by
  unfold State.headerFailed
  dsimp only
  split
  · exact State.queueCheck_memOk _ _ _ (State.dieViolation_memOk _ _ _ _ _ h)
  · exact State.dieViolation_memOk _ _ _ _ _ h

theorem State.readRecord_memOk {s : State} (qid : Nat) (q : Queue) (ring size : Nat) (h : s.memOk) :
    (State.readRecord s qid q ring size).memOk := by
  unfold State.readRecord
  try dsimp only
  repeat' (first | with_reducible assumption | intro _ | with_reducible apply State.queueCheck_memOk
                 | with_reducible apply State.dieRead_memOk
                 | with_reducible apply State.takeRecord_memOk | refine memOk_fst (by with_reducible assumption) ?_
                 | dsimp only | split)

theorem State.launchRead_memOk {s : State} (id : Nat) (l : Launch) (va n : Nat) (h : s.memOk) :
    (State.launchRead s id l va n).1.memOk := by
  have hd := State.dieRead_memOk (s.queueDie l) l.ctx va n h
  unfold State.launchRead
  split
  · rename_i e
    rw [e] at hd
    dsimp only
    split
    · exact State.machineCheck_memOk _ _ hd
    · exact hd
  · rename_i e
    rw [e] at hd
    exact hd

theorem State.readKpb_memOk {s : State} (id : Nat) (l : Launch) (b : List Byte) (h : s.memOk) :
    (State.readKpb s id l b).1.memOk := by
  unfold State.readKpb
  dsimp only
  split
  · rename_i e
    exact memOk_fst e (State.launchRead_memOk _ _ _ _ h)
  · rename_i e
    have h1 := memOk_fst e (State.launchRead_memOk _ _ _ _ h)
    split
    · rename_i e
      exact memOk_fst e (State.launchRead_memOk _ _ _ _ h1)
    · rename_i e
      exact memOk_fst e (State.launchRead_memOk _ _ _ _ h1)

theorem State.unopened_memOk {s : State} (id : Nat) (h : s.memOk) : (State.unopened s id).memOk := by
  unfold State.unopened
  split
  · exact h
  · exact State.reject_memOk _ _ h

theorem State.takeLane_memOk {s : State} (slot : Nat) (h : s.memOk) : (State.takeLane s slot).memOk := by
  unfold State.takeLane
  try dsimp only
  repeat' (first | with_reducible assumption | intro _ | with_reducible apply State.updLane_memOk | dsimp only
                 | split)

theorem State.commitBlock_memOk {s : State} (id : Nat) (l : Launch) (k : Kpb)
    (got : List (Nat × (List Nat × Nat × Nat))) (h : s.memOk) : (State.commitBlock s id l k got).memOk := by
  unfold State.commitBlock
  try dsimp only
  repeat' (first | with_reducible assumption | intro _ | with_reducible apply State.setWarp_memOk
                 | with_reducible apply State.fresh_memOk | with_reducible apply State.put_memOk
                 | with_reducible apply State.takeLane_memOk | refine memOk_snd (by with_reducible assumption) ?_
                 | with_reducible apply foldl_memOk | with_reducible apply foldl_fst_memOk | dsimp only | split
                 | simp only [memOk_mk] | with_reducible apply memOk_back)

theorem State.prefetch_memOk {s : State} (ctx : Nat) (lines : List Word) (cores : List Nat) (h : s.memOk) :
    (State.prefetch s ctx lines cores).memOk := by
  unfold State.prefetch
  try dsimp only
  repeat' (first | with_reducible assumption | intro _ | with_reducible apply State.updCore_memOk
                 | with_reducible apply State.put_memOk | with_reducible apply State.dieViolation_memOk
                 | with_reducible apply foldl_memOk | with_reducible apply foldl_fst_memOk | dsimp only | split)

theorem State.hold_memOk {s : State} (x : Saved) (got : List (Nat × (List Nat × Nat × Nat))) (h : s.memOk) :
    (State.hold s x got).memOk := by
  unfold State.hold
  try dsimp only
  repeat' (first | with_reducible assumption | intro _ | with_reducible apply State.setWarp_memOk
                 | with_reducible apply State.fresh_memOk | with_reducible apply State.put_memOk
                 | refine memOk_snd (by with_reducible assumption) ?_ | with_reducible apply foldl_memOk
                 | with_reducible apply foldl_fst_memOk | dsimp only | split | simp only [memOk_mk]
                 | with_reducible apply memOk_back)

theorem State.admitNext_memOk {s : State} (id : Nat) {t : State} (h : s.memOk)
    (e : State.admitNext s id = some t) : t.memOk := by
  unfold State.admitNext at e
  split at e
  · cases e
  · split at e
    · cases e
    · split at e
      · cases e
      · cases e
        have := fun l k got q a b => State.prefetch_memOk q a b (State.commitBlock_memOk id l k got h)
        split
        · exact State.updDie_memOk _ _ (this ..)
        · exact this ..

theorem State.admitAll_memOk {s : State} (id n : Nat) {t : State} (h : s.memOk)
    (e : State.admitAll id n s = some t) : t.memOk := by
  induction n generalizing s with
  | zero =>
    cases e
    exact h
  | succ n ih =>
    unfold State.admitAll at e
    split at e
    · exact ih (State.admitNext_memOk id h ‹_›) e
    · cases e

theorem State.emptied_memOk {s : State} (id : Nat) (h : s.memOk) : (State.emptied s id).memOk := h

theorem State.openLaunch_memOk {s : State} (id : Nat) (l : Launch) (h : s.memOk) :
    (State.openLaunch s id l).memOk := by
  unfold State.openLaunch
  try dsimp only
  repeat' (first | with_reducible assumption | intro _ | with_reducible apply State.updLaunch_memOk
                 | with_reducible apply State.launchRead_memOk | with_reducible apply State.unopened_memOk
                 | with_reducible apply State.tryWrite_memOk
                 | with_reducible apply State.reject_memOk | with_reducible apply State.readKpb_memOk
                 | refine State.admitAll_memOk (h := ?_) (e := by with_reducible assumption)
                 | with_reducible apply State.emptied_memOk | refine memOk_fst (by with_reducible assumption) ?_
                 | dsimp only | split)

theorem State.startWarp_memOk {s : State} (b : Block) (r : Rec) (k : Kpb) (slot : Nat) (h : s.memOk) :
    (State.startWarp s b r k slot).memOk := by
  unfold State.startWarp
  try dsimp only
  repeat' (first | with_reducible assumption | intro _ | with_reducible apply State.updWarp_memOk)

theorem State.clearWindows_memOk {s : State} (b : Block) (h : s.memOk) : (State.clearWindows s b).memOk := by
  unfold State.clearWindows
  refine foldl_memOk h (fun s x hs => ?_)
  refine State.updCore_memOk _ _ ?_
  exact ⟨hs.1, filter_wf hs.2.1 _, hs.2.2⟩

theorem State.endPool_memOk {s : State} (id : Nat) (h : s.memOk) : (State.endPool s id).memOk := by
  unfold State.endPool
  try dsimp only
  repeat' (first | with_reducible assumption | intro _ | with_reducible apply State.updLaunch_memOk
                 | with_reducible apply State.leave_memOk | with_reducible apply State.cutBlock_memOk
                 | with_reducible apply foldl_memOk)

theorem State.endNormally_memOk {s : State} (id : Nat) (h : s.memOk) : (State.endNormally s id).memOk := by
  unfold State.endNormally
  try dsimp only
  repeat' (first | with_reducible assumption | intro _ | with_reducible apply State.applyOrd_memOk
                 | with_reducible apply State.complete_memOk | with_reducible apply State.forceAll_memOk
                 | with_reducible apply foldl_memOk | with_reducible apply foldl_fst_memOk | dsimp only | split
                 | simp only [memOk_mk] | with_reducible apply memOk_back)

theorem State.dropGrow_memOk {s : State} (slot : Nat) (h : s.memOk) : (State.dropGrow s slot).memOk := by
  unfold State.dropGrow
  try dsimp only
  repeat' (first | with_reducible assumption | intro _ | with_reducible apply State.updLane_memOk)

theorem State.beginSave_memOk {s : State} (slot : Nat) (w : Warp) (h : s.memOk) :
    (State.beginSave s slot w).memOk := by
  unfold State.beginSave
  try dsimp only
  repeat' (first | with_reducible assumption | intro _ | with_reducible apply State.setWarp_memOk
                 | with_reducible apply State.dropGrow_memOk | dsimp only | split)

theorem State.settleWarp_memOk {s : State} (slot : Nat) (h : s.memOk) : (State.settleWarp s slot).memOk := by
  unfold State.settleWarp
  try dsimp only
  repeat' (first | with_reducible assumption | intro _ | with_reducible apply State.setWarp_memOk
                 | with_reducible apply State.evalJoins_memOk | with_reducible apply State.takeToken_memOk
                 | dsimp only | split)

theorem State.hardDone_memOk {s : State} (slot : Nat) (w : Warp) (h : s.memOk) : (State.hardDone s slot w).memOk := by
  unfold State.hardDone
  try dsimp only
  repeat' (first | with_reducible assumption | intro _ | with_reducible apply State.setWarp_memOk
                 | with_reducible apply State.dropGrow_memOk | dsimp only | split)

theorem State.abandonHandler_memOk {s : State} (slot : Nat) (w : Warp) (h : s.memOk) :
    (State.abandonHandler s slot w).1.memOk := by
  unfold State.abandonHandler
  try dsimp only
  repeat' (first | with_reducible assumption | intro _ | with_reducible apply State.freeBank_memOk
                 | refine memOk_fst (by with_reducible assumption) ?_ | dsimp only | split | simp only [memOk_mk]
                 | with_reducible apply memOk_back)

theorem State.stopWarp_memOk {s : State} (slot : Nat) (w : Warp) (h : s.memOk) : (State.stopWarp s slot w).memOk := by
  unfold State.stopWarp
  try dsimp only
  repeat' (first | with_reducible assumption | intro _ | with_reducible apply State.setWarp_memOk
                 | with_reducible apply State.bbox_memOk | with_reducible apply State.abandonHandler_memOk)

theorem State.expire_memOk {s : State} (slot : Nat) (h : s.memOk) : (State.expire s slot).memOk := by
  unfold State.expire
  try dsimp only
  repeat' (first | with_reducible assumption | intro _ | with_reducible apply State.hardDone_memOk
                 | with_reducible apply State.stopWarp_memOk | dsimp only | split)

theorem State.stopCmds_memOk {s : State} (id : Nat) (h : s.memOk) : (State.stopCmds s id).1.memOk := by
  unfold State.stopCmds
  try dsimp only
  repeat' (first | with_reducible assumption | intro _ | with_reducible apply State.updCore_memOk
                 | with_reducible apply State.finishCmd_memOk | with_reducible apply foldl_memOk
                 | with_reducible apply foldl_fst_memOk | dsimp only | split)

theorem State.returnLists_memOk {s : State} (ctx die : Nat) (cores : List Nat) (h : s.memOk) :
    (State.returnLists s ctx die cores).memOk := by
  unfold State.returnLists
  try dsimp only
  repeat' (first | with_reducible assumption | intro _ | with_reducible apply State.updSeed_memOk)

theorem State.putImage_memOk {s : State} (b : Block) (h : s.memOk) : (State.putImage s b).memOk := by
  unfold State.putImage
  try dsimp only
  repeat' (first | with_reducible assumption | intro _ | with_reducible apply State.draw_memOk
                 | with_reducible apply State.tryWrite_memOk)

theorem State.drainBlock_memOk {s : State} (b : Block) (slots : List Nat) (h : s.memOk) :
    (State.drainBlock s b slots).memOk := by
  unfold State.drainBlock
  try dsimp only
  repeat' (first | with_reducible assumption | intro _ | with_reducible apply State.forceCore_memOk
                 | with_reducible apply State.departWarp_memOk | with_reducible apply foldl_memOk)

theorem State.writeImage_memOk {s : State} (id : Nat) (b : Block) (h : s.memOk) :
    (State.writeImage s id b).memOk := by
  unfold State.writeImage
  try dsimp only
  repeat' (first | with_reducible assumption | intro _ | with_reducible apply State.dropRels_memOk
                 | with_reducible apply State.clearResv_memOk
                 | with_reducible apply State.freeBank_memOk | with_reducible apply State.dropResid_memOk
                 | with_reducible apply State.dropBlock_memOk | with_reducible apply State.stopCmds_memOk
                 | with_reducible apply State.returnLists_memOk | with_reducible apply State.putImage_memOk
                 | with_reducible apply State.drainBlock_memOk | refine memOk_fst (by with_reducible assumption) ?_
                 | with_reducible apply foldl_memOk | with_reducible apply foldl_fst_memOk | dsimp only | split
                 | simp only [memOk_mk] | with_reducible apply memOk_back)

theorem State.reload_memOk {s : State} (blk slot : Nat) (w : Warp) (h : s.memOk) :
    (State.reload s blk slot w).memOk := by
  unfold State.reload
  try dsimp only
  repeat' (first | with_reducible assumption | intro _ | with_reducible apply State.setWarp_memOk
                 | with_reducible apply State.updLane_memOk | with_reducible apply State.grows_memOk
                 | with_reducible apply State.escalate_memOk | with_reducible apply State.takeLane_memOk | dsimp only
                 | split)

theorem State.reinstate_memOk {s : State} (x : Saved) (got : List (Nat × (List Nat × Nat × Nat))) (h : s.memOk) :
    (State.reinstate s x got).memOk := by
  unfold State.reinstate
  dsimp only
  have fin : ∀ {t : State} (slots : List Nat) (launch die : Nat), t.memOk →
      (match (slots.foldl State.settleWarp t).launches.get? launch with
        | some l => if l.info.interlude = true
          then (slots.foldl State.settleWarp t).updDie die (fun d => { d with interlude := some launch })
          else slots.foldl State.settleWarp t
        | none => slots.foldl State.settleWarp t).memOk := by
    intro t slots launch die ht
    have := foldl_memOk ht (fun s w hs => State.settleWarp_memOk w hs) (l := slots)
    split
    · split
      · exact State.updDie_memOk _ _ this
      · exact this
    · exact this
  refine fin _ _ _ (foldl_memOk (foldl_memOk (foldl_memOk (foldl_memOk ?_ ?_) ?_) ?_) ?_)
  · generalize hb : x.moved got (slotsFor got x.block x.warps) = b
    have h0 : State.memOk { s.fresh.2 with
        saved := s.fresh.2.saved.filter (· != x)
        blocks := s.fresh.2.blocks.put s.fresh.1 b } := memOk_back (State.fresh_memOk h)
    have hc := foldl_memOk (f := fun (s : State) c => s.learn c (s.vers.map Ver.id)) (l := b.cores)
      (State.clearWindows_memOk b h0) (fun _ c hs => State.learn_memOk c _ hs)
    exact ⟨hc.1, foldl_wrByte_wf hc.2.1, hc.2.2⟩
  · exact fun _ _ hs => State.reload_memOk _ _ _ hs
  · intro t y ht
    have := State.send_memOk { y.1 with
      warp := (slotsFor got x.block x.warps).getD (x.block.warps.findIdx (· = y.1.warp)) y.1.warp
      core := (x.moved got (slotsFor got x.block x.warps)).cores.getD (x.block.cores.findIdx (· = y.1.core)) 0
      block := s.fresh.1 } ht
    split
    · split
      · exact this
      · exact State.updCore_memOk _ _ this
    · exact this
  · exact fun _ _ hs => State.updCore_memOk _ _ hs
  · exact fun _ _ hs => State.barTest_memOk _ _ _ hs

theorem State.refuseBlock_memOk {s : State} (die : Nat) (x : Saved) (h : s.memOk) :
    (State.refuseBlock s die x).memOk := by
  unfold State.refuseBlock
  try dsimp only
  repeat' (first | with_reducible assumption | intro _ | with_reducible apply State.bbox_memOk
                 | with_reducible apply State.reply_memOk | dsimp only | split | simp only [memOk_mk]
                 | with_reducible apply memOk_back)

theorem State.restoreAll_memOk {s : State} (die : Nat) (xs : List Saved) {t : State} (h : s.memOk)
    (e : State.restoreAll die xs s = some t) : t.memOk := by
  induction xs generalizing s with
  | nil =>
    cases e
    exact h
  | cons x r ih =>
    unfold State.restoreAll at e
    split at e
    · exact ih (State.reinstate_memOk _ _ h) e
    · cases e

theorem State.restoreEach_memOk {s : State} (die : Nat) (may : Saved → Bool) (refuse : State → Saved → State)
    (n : Nat)
    (xs : List Saved) (h : s.memOk) (hr : ∀ s x, s.memOk → (refuse s x).memOk) :
    (State.restoreEach die may refuse n xs s).memOk := by
  induction n generalizing s xs with
  | zero => exact h
  | succ n ih =>
    cases xs with
    | nil => exact h
    | cons x r =>
      unfold State.restoreEach
      refine ih _ ?_
      cases e : if (s.together x).all may = true then State.restoreAll die (s.together x) s else none with
      | none => exact foldl_memOk h hr
      | some t =>
        split at e
        · exact State.restoreAll_memOk _ _ h e
        · cases e

theorem State.resync_memOk {s : State} (ctx : Nat) (h : s.memOk) : (State.resync s ctx).memOk := by
  unfold State.resync
  try dsimp only
  repeat' (first | with_reducible assumption | intro _ | with_reducible apply State.updCtx_memOk
                 | with_reducible apply State.forceAll_memOk | with_reducible apply State.learn_memOk
                 | with_reducible apply foldl_memOk)

theorem State.unhandled_memOk {s : State} (slot : Nat) (w : Warp) (h : s.memOk) :
    (State.unhandled s slot w).memOk := by
  unfold State.unhandled
  try dsimp only
  repeat' (first | with_reducible assumption | intro _ | with_reducible apply State.bbox_memOk
                 | with_reducible apply State.doom_memOk | with_reducible apply State.escalate_memOk | dsimp only
                 | split)

theorem State.enterHandler_memOk {s : State} (slot : Nat) (w : Warp) (c : Ctx) (h : s.memOk) :
    (State.enterHandler s slot w c).memOk := by
  unfold State.enterHandler
  try dsimp only
  repeat' (first | with_reducible assumption | intro _ | with_reducible apply State.setWarp_memOk
                 | with_reducible apply State.updLane_memOk)

theorem State.dropHandler_memOk {s : State} (slot : Nat) (h : s.memOk) : (State.dropHandler s slot).memOk := h

theorem State.eachCopy_memOk {f : State → Nat → Cmd → State} {s : State} (ctx : Nat) (h : s.memOk)
    (hf : ∀ s id c, s.memOk → (f s id c).memOk) : (State.eachCopy f s ctx).memOk :=
  foldl_memOk h (fun s _ hs => by
    dsimp only
    repeat' split
    all_goals first
      | exact hf _ _ _ hs
      | exact hs)

theorem State.settleCopies_memOk {s : State} (ctx : Nat) (h : s.memOk) : (State.settleCopies s ctx).memOk := by
  have hr : ∀ (s : State) (id : Nat) (c : Cmd), s.memOk → (s.cpAll id c (fun s => s.finishCmd id c)).memOk :=
    fun _ id c hs => State.cpAll_memOk id c _ hs (fun _ ht => State.finishCmd_memOk id c ht)
  unfold State.settleCopies
  dsimp only
  refine State.eachCopy_memOk ctx ?_ (fun s _ c hs => ?_)
  · split
    · exact State.eachCopy_memOk ctx (memOk_back (State.eachCopy_memOk ctx h hr)) hr
    · exact State.eachCopy_memOk ctx h hr
  · split
    · exact State.loseCmd_memOk _ _ _ hs
    · exact State.cutCopy_memOk _ hs

theorem State.agentFence_memOk {s : State} (g : Agent) (h : s.memOk) : (State.agentFence s g).memOk := h

theorem State.saw_memOk {s : State} (b : List Byte) (h : s.memOk) : (State.saw s b).memOk := h

theorem State.reserve_memOk {s : State} (g : Agent) (t : Nat) (granule : Option Nat) (h : s.memOk) :
    (State.reserve s g t granule).memOk := h

theorem State.outsideAt_memOk {s : State} (g : Agent) (x : ExtAccess) (pa : Nat) (h : s.memOk) :
    (State.outsideAt s g x pa).memOk := by
  unfold State.outsideAt
  try dsimp only
  repeat' (first | with_reducible assumption | intro _ | with_reducible apply State.write_memOk
                 | with_reducible apply State.applyOrd_memOk | with_reducible apply State.contribute_memOk
                 | with_reducible apply State.writePa_memOk | with_reducible apply State.saw_memOk
                 | with_reducible apply State.reserve_memOk | dsimp only | split)

theorem State.outside_memOk {s : State} (g : Agent) (x : ExtAccess) (h : s.memOk) : Keeps (State.outside s g x) := by
  unfold State.outside
  split
  · exact State.event_memOk _ h (fun _ hs => State.agentFence_memOk g hs)
  · split
    · refine State.event_memOk _ h (fun s hs => ?_)
      dsimp only
      split
      · exact State.bbox_memOk _ _ _ _ _ _ _ _ (State.saw_memOk _ hs)
      · split
        · exact State.bbox_memOk _ _ _ _ _ _ _ _ hs
        · exact State.outsideAt_memOk _ _ _ hs
    · exact keeps_fault _

theorem State.fresh0_memOk (s : State) : (State.fresh0 s).memOk := ⟨rfl, rfl, rfl⟩

theorem State.boots_memOk {s : State} (i : Image) (fw : FwSetup) (h : s.memOk) : (State.boots s i fw).memOk := by
  unfold State.boots
  simp only [memOk_mk]
  exact ⟨wrBytes_wf h.1 _ _, h.2⟩

theorem State.fn1_memOk {s : State} (i : Instr) (g : Guard) (d a : Operand) (f : Fn) (ty : FTy) (fast : Bool)
    (rm : Rm) (nf : Bool) (h : s.memOk) : Keeps (State.fn1 s i g d a f ty fast rm nf) := by
  unfold State.fn1
  try dsimp only
  repeat' (first | with_reducible assumption | with_reducible apply State.alu_memOk)

theorem callBody_memOk {s : State} (target : State → Issue → Warp → Path → Word) (iss : Issue) (w : Warp) (p : Path)
    (h : s.memOk) : (callBody target s iss w p).1.memOk := by
  unfold callBody
  try dsimp only
  repeat' (first | with_reducible assumption | intro _ | refine memOk_fst (by with_reducible assumption) ?_
                 | dsimp only | split)

theorem retBody_memOk {s : State}  (iss : Issue) (w : Warp) (p : Path) (h : s.memOk) :
    (retBody  s iss w p).1.memOk := by
  unfold retBody
  try dsimp only
  repeat' (first | with_reducible assumption | intro _ | with_reducible apply State.ret_memOk
                 | refine memOk_fst (by with_reducible assumption) ?_ | dsimp only | split)

theorem State.onWin_memOk {s : State} (i : Instr) (g : Guard) (wt : Nat) (d : BitVec 4) (sh : Shape) (nf : Bool)
    (f : Path → Mat × Flags) (h : s.memOk) : Keeps (State.onWin s i g wt d sh nf f) := by
  unfold State.onWin
  try dsimp only
  repeat' (first | with_reducible assumption | with_reducible apply State.alu_memOk)

theorem barBody_memOk {s : State} (op : Nat) (n : BitVec 8) (exp : Option Nat)
    (count : State → Issue → Warp → Path → Nat) (d : Bool) (iss : Issue) (w : Warp) (p : Path) (h : s.memOk) :
    (barBody op n exp count d s iss w p).1.memOk := by
  unfold barBody
  try dsimp only
  repeat' (first | with_reducible assumption | intro _ | refine memOk_fst (by with_reducible assumption) ?_
                 | dsimp only | split)

theorem ldqStep_memOk (k : Nat) (d : BitVec 8) (base : Operand) (off : BitVec 22) {s : State} (iss : Issue)
    (w : Warp) (p : Path) (h : s.memOk) : (ldqStep k d base off s iss w p).1.memOk := by
  unfold ldqStep
  try dsimp only
  repeat' (first | with_reducible assumption | intro _ | with_reducible apply loadBody_memOk
                 | refine memOk_fst (by with_reducible assumption) ?_ | dsimp only | split)

theorem ldqSteps_memOk (d : BitVec 8) (base : Operand) (off : BitVec 22) {s : State} (iss : Issue) (w : Warp)
    (p : Path) (h : s.memOk) : (ldqSteps d base off s iss w p).1.memOk := by
  unfold ldqSteps
  try dsimp only
  repeat' (first | with_reducible assumption | intro _ | with_reducible apply ldqStep_memOk
                 | refine memOk_fst (by with_reducible assumption) ?_ | dsimp only | split)

theorem ldqPath_memOk (g : Guard) (d : BitVec 8) (base : Operand) (off : BitVec 22) (iss : Issue) (w : Warp)
    {s : State} (p : Path) (h : s.memOk) : (ldqPath g d base off iss w s p).1.memOk := by
  unfold ldqPath
  try dsimp only
  repeat' (first | with_reducible assumption | intro _ | with_reducible apply ldqSteps_memOk
                 | refine memOk_fst (by with_reducible assumption) ?_ | dsimp only | split)

end Sys2Proof.Machine
end

