-- ==== Sys2Proof/Laws/State.lean ====
section
/-! SUPPORT. What each update of the state leaves alone: one lemma for each other field, true by definition. -/

namespace Sys2Proof.Machine

/-! ### setWarp -/

@[simp] theorem State.setWarp_mem (s : State) (k : Nat) (x : Warp) : (s.setWarp k x).mem = s.mem := rfl

@[simp] theorem State.setWarp_scratch (s : State) (k : Nat) (x : Warp) : (s.setWarp k x).scratch = s.scratch := rfl

@[simp] theorem State.setWarp_ws (s : State) (k : Nat) (x : Warp) : (s.setWarp k x).ws = s.ws := rfl

@[simp] theorem State.setWarp_slot (s : State) (k : Nat) (x : Warp) : (s.setWarp k x).slot = s.slot := rfl

@[simp] theorem State.setWarp_clock (s : State) (k : Nat) (x : Warp) : (s.setWarp k x).clock = s.clock := rfl

@[simp] theorem State.setWarp_timeBase (s : State) (k : Nat) (x : Warp) : (s.setWarp k x).timeBase = s.timeBase := rfl

@[simp] theorem State.setWarp_regions (s : State) (k : Nat) (x : Warp) : (s.setWarp k x).regions = s.regions := rfl

@[simp] theorem State.setWarp_secure (s : State) (k : Nat) (x : Warp) : (s.setWarp k x).secure = s.secure := rfl

@[simp] theorem State.setWarp_part (s : State) (k : Nat) (x : Warp) : (s.setWarp k x).part = s.part := rfl

@[simp] theorem State.setWarp_released (s : State) (k : Nat) (x : Warp) : (s.setWarp k x).released = s.released := rfl

@[simp] theorem State.setWarp_ctxs (s : State) (k : Nat) (x : Warp) : (s.setWarp k x).ctxs = s.ctxs := rfl

@[simp] theorem State.setWarp_queues (s : State) (k : Nat) (x : Warp) : (s.setWarp k x).queues = s.queues := rfl

@[simp] theorem State.setWarp_launches (s : State) (k : Nat) (x : Warp) : (s.setWarp k x).launches = s.launches := rfl

@[simp] theorem State.setWarp_blocks (s : State) (k : Nat) (x : Warp) : (s.setWarp k x).blocks = s.blocks := rfl

@[simp] theorem State.setWarp_cores (s : State) (k : Nat) (x : Warp) : (s.setWarp k x).cores = s.cores := rfl

@[simp] theorem State.setWarp_lanes (s : State) (k : Nat) (x : Warp) : (s.setWarp k x).lanes = s.lanes := rfl

@[simp] theorem State.setWarp_rr (s : State) (k : Nat) (x : Warp) : (s.setWarp k x).rr = s.rr := rfl

@[simp] theorem State.setWarp_dies (s : State) (k : Nat) (x : Warp) : (s.setWarp k x).dies = s.dies := rfl

@[simp] theorem State.setWarp_loads (s : State) (k : Nat) (x : Warp) : (s.setWarp k x).loads = s.loads := rfl

@[simp] theorem State.setWarp_cmds (s : State) (k : Nat) (x : Warp) : (s.setWarp k x).cmds = s.cmds := rfl

@[simp] theorem State.setWarp_ordq (s : State) (k : Nat) (x : Warp) : (s.setWarp k x).ordq = s.ordq := rfl

@[simp] theorem State.setWarp_ordSeq (s : State) (k : Nat) (x : Warp) : (s.setWarp k x).ordSeq = s.ordSeq := rfl

@[simp] theorem State.setWarp_doomed (s : State) (k : Nat) (x : Warp) : (s.setWarp k x).doomed = s.doomed := rfl

@[simp] theorem State.setWarp_cells (s : State) (k : Nat) (x : Warp) : (s.setWarp k x).cells = s.cells := rfl

@[simp] theorem State.setWarp_vers (s : State) (k : Nat) (x : Warp) : (s.setWarp k x).vers = s.vers := rfl

@[simp] theorem State.setWarp_nextVer (s : State) (k : Nat) (x : Warp) : (s.setWarp k x).nextVer = s.nextVer := rfl

@[simp] theorem State.setWarp_fences (s : State) (k : Nat) (x : Warp) : (s.setWarp k x).fences = s.fences := rfl

@[simp] theorem State.setWarp_peerResv (s : State) (k : Nat) (x : Warp) : (s.setWarp k x).peerResv = s.peerResv := rfl

@[simp] theorem State.setWarp_bad (s : State) (k : Nat) (x : Warp) : (s.setWarp k x).bad = s.bad := rfl

@[simp] theorem State.setWarp_trellis (s : State) (k : Nat) (x : Warp) : (s.setWarp k x).trellis = s.trellis := rfl

@[simp] theorem State.setWarp_saved (s : State) (k : Nat) (x : Warp) : (s.setWarp k x).saved = s.saved := rfl

@[simp] theorem State.setWarp_host (s : State) (k : Nat) (x : Warp) : (s.setWarp k x).host = s.host := rfl

@[simp] theorem State.setWarp_agenda (s : State) (k : Nat) (x : Warp) : (s.setWarp k x).agenda = s.agenda := rfl

@[simp] theorem State.setWarp_tick (s : State) (k : Nat) (x : Warp) : (s.setWarp k x).tick = s.tick := rfl

@[simp] theorem State.setWarp_turn (s : State) (k : Nat) (x : Warp) : (s.setWarp k x).turn = s.turn := rfl

@[simp] theorem State.setWarp_nextId (s : State) (k : Nat) (x : Warp) : (s.setWarp k x).nextId = s.nextId := rfl

@[simp] theorem State.setWarp_issue (s : State) (k : Nat) (x : Warp) : (s.setWarp k x).issue = s.issue := rfl

@[simp] theorem State.setWarp_parked (s : State) (k : Nat) (x : Warp) : (s.setWarp k x).parked = s.parked := rfl

@[simp] theorem State.setWarp_burst (s : State) (k : Nat) (x : Warp) : (s.setWarp k x).burst = s.burst := rfl

/-! ### updWarp -/

@[simp] theorem State.updWarp_mem (s : State) (k : Nat) (f : Warp → Warp) : (s.updWarp k f).mem = s.mem := rfl

@[simp] theorem State.updWarp_scratch (s : State) (k : Nat) (f : Warp → Warp) : (s.updWarp k f).scratch = s.scratch := rfl

@[simp] theorem State.updWarp_ws (s : State) (k : Nat) (f : Warp → Warp) : (s.updWarp k f).ws = s.ws := rfl

@[simp] theorem State.updWarp_slot (s : State) (k : Nat) (f : Warp → Warp) : (s.updWarp k f).slot = s.slot := rfl

@[simp] theorem State.updWarp_clock (s : State) (k : Nat) (f : Warp → Warp) : (s.updWarp k f).clock = s.clock := rfl

@[simp] theorem State.updWarp_timeBase (s : State) (k : Nat) (f : Warp → Warp) : (s.updWarp k f).timeBase = s.timeBase := rfl

@[simp] theorem State.updWarp_regions (s : State) (k : Nat) (f : Warp → Warp) : (s.updWarp k f).regions = s.regions := rfl

@[simp] theorem State.updWarp_secure (s : State) (k : Nat) (f : Warp → Warp) : (s.updWarp k f).secure = s.secure := rfl

@[simp] theorem State.updWarp_part (s : State) (k : Nat) (f : Warp → Warp) : (s.updWarp k f).part = s.part := rfl

@[simp] theorem State.updWarp_released (s : State) (k : Nat) (f : Warp → Warp) : (s.updWarp k f).released = s.released := rfl

@[simp] theorem State.updWarp_ctxs (s : State) (k : Nat) (f : Warp → Warp) : (s.updWarp k f).ctxs = s.ctxs := rfl

@[simp] theorem State.updWarp_queues (s : State) (k : Nat) (f : Warp → Warp) : (s.updWarp k f).queues = s.queues := rfl

@[simp] theorem State.updWarp_launches (s : State) (k : Nat) (f : Warp → Warp) : (s.updWarp k f).launches = s.launches := rfl

@[simp] theorem State.updWarp_blocks (s : State) (k : Nat) (f : Warp → Warp) : (s.updWarp k f).blocks = s.blocks := rfl

@[simp] theorem State.updWarp_cores (s : State) (k : Nat) (f : Warp → Warp) : (s.updWarp k f).cores = s.cores := rfl

@[simp] theorem State.updWarp_lanes (s : State) (k : Nat) (f : Warp → Warp) : (s.updWarp k f).lanes = s.lanes := rfl

@[simp] theorem State.updWarp_rr (s : State) (k : Nat) (f : Warp → Warp) : (s.updWarp k f).rr = s.rr := rfl

@[simp] theorem State.updWarp_dies (s : State) (k : Nat) (f : Warp → Warp) : (s.updWarp k f).dies = s.dies := rfl

@[simp] theorem State.updWarp_loads (s : State) (k : Nat) (f : Warp → Warp) : (s.updWarp k f).loads = s.loads := rfl

@[simp] theorem State.updWarp_cmds (s : State) (k : Nat) (f : Warp → Warp) : (s.updWarp k f).cmds = s.cmds := rfl

@[simp] theorem State.updWarp_ordq (s : State) (k : Nat) (f : Warp → Warp) : (s.updWarp k f).ordq = s.ordq := rfl

@[simp] theorem State.updWarp_ordSeq (s : State) (k : Nat) (f : Warp → Warp) : (s.updWarp k f).ordSeq = s.ordSeq := rfl

@[simp] theorem State.updWarp_doomed (s : State) (k : Nat) (f : Warp → Warp) : (s.updWarp k f).doomed = s.doomed := rfl

@[simp] theorem State.updWarp_cells (s : State) (k : Nat) (f : Warp → Warp) : (s.updWarp k f).cells = s.cells := rfl

@[simp] theorem State.updWarp_vers (s : State) (k : Nat) (f : Warp → Warp) : (s.updWarp k f).vers = s.vers := rfl

@[simp] theorem State.updWarp_nextVer (s : State) (k : Nat) (f : Warp → Warp) : (s.updWarp k f).nextVer = s.nextVer := rfl

@[simp] theorem State.updWarp_fences (s : State) (k : Nat) (f : Warp → Warp) : (s.updWarp k f).fences = s.fences := rfl

@[simp] theorem State.updWarp_peerResv (s : State) (k : Nat) (f : Warp → Warp) : (s.updWarp k f).peerResv = s.peerResv := rfl

@[simp] theorem State.updWarp_bad (s : State) (k : Nat) (f : Warp → Warp) : (s.updWarp k f).bad = s.bad := rfl

@[simp] theorem State.updWarp_trellis (s : State) (k : Nat) (f : Warp → Warp) : (s.updWarp k f).trellis = s.trellis := rfl

@[simp] theorem State.updWarp_saved (s : State) (k : Nat) (f : Warp → Warp) : (s.updWarp k f).saved = s.saved := rfl

@[simp] theorem State.updWarp_host (s : State) (k : Nat) (f : Warp → Warp) : (s.updWarp k f).host = s.host := rfl

@[simp] theorem State.updWarp_agenda (s : State) (k : Nat) (f : Warp → Warp) : (s.updWarp k f).agenda = s.agenda := rfl

@[simp] theorem State.updWarp_tick (s : State) (k : Nat) (f : Warp → Warp) : (s.updWarp k f).tick = s.tick := rfl

@[simp] theorem State.updWarp_turn (s : State) (k : Nat) (f : Warp → Warp) : (s.updWarp k f).turn = s.turn := rfl

@[simp] theorem State.updWarp_nextId (s : State) (k : Nat) (f : Warp → Warp) : (s.updWarp k f).nextId = s.nextId := rfl

@[simp] theorem State.updWarp_issue (s : State) (k : Nat) (f : Warp → Warp) : (s.updWarp k f).issue = s.issue := rfl

@[simp] theorem State.updWarp_parked (s : State) (k : Nat) (f : Warp → Warp) : (s.updWarp k f).parked = s.parked := rfl

@[simp] theorem State.updWarp_burst (s : State) (k : Nat) (f : Warp → Warp) : (s.updWarp k f).burst = s.burst := rfl

/-! ### setCore -/

@[simp] theorem State.setCore_mem (s : State) (k : Nat) (x : Core) : (s.setCore k x).mem = s.mem := rfl

@[simp] theorem State.setCore_scratch (s : State) (k : Nat) (x : Core) : (s.setCore k x).scratch = s.scratch := rfl

@[simp] theorem State.setCore_ws (s : State) (k : Nat) (x : Core) : (s.setCore k x).ws = s.ws := rfl

@[simp] theorem State.setCore_slot (s : State) (k : Nat) (x : Core) : (s.setCore k x).slot = s.slot := rfl

@[simp] theorem State.setCore_clock (s : State) (k : Nat) (x : Core) : (s.setCore k x).clock = s.clock := rfl

@[simp] theorem State.setCore_timeBase (s : State) (k : Nat) (x : Core) : (s.setCore k x).timeBase = s.timeBase := rfl

@[simp] theorem State.setCore_regions (s : State) (k : Nat) (x : Core) : (s.setCore k x).regions = s.regions := rfl

@[simp] theorem State.setCore_secure (s : State) (k : Nat) (x : Core) : (s.setCore k x).secure = s.secure := rfl

@[simp] theorem State.setCore_part (s : State) (k : Nat) (x : Core) : (s.setCore k x).part = s.part := rfl

@[simp] theorem State.setCore_released (s : State) (k : Nat) (x : Core) : (s.setCore k x).released = s.released := rfl

@[simp] theorem State.setCore_ctxs (s : State) (k : Nat) (x : Core) : (s.setCore k x).ctxs = s.ctxs := rfl

@[simp] theorem State.setCore_queues (s : State) (k : Nat) (x : Core) : (s.setCore k x).queues = s.queues := rfl

@[simp] theorem State.setCore_launches (s : State) (k : Nat) (x : Core) : (s.setCore k x).launches = s.launches := rfl

@[simp] theorem State.setCore_blocks (s : State) (k : Nat) (x : Core) : (s.setCore k x).blocks = s.blocks := rfl

@[simp] theorem State.setCore_warps (s : State) (k : Nat) (x : Core) : (s.setCore k x).warps = s.warps := rfl

@[simp] theorem State.setCore_lanes (s : State) (k : Nat) (x : Core) : (s.setCore k x).lanes = s.lanes := rfl

@[simp] theorem State.setCore_rr (s : State) (k : Nat) (x : Core) : (s.setCore k x).rr = s.rr := rfl

@[simp] theorem State.setCore_dies (s : State) (k : Nat) (x : Core) : (s.setCore k x).dies = s.dies := rfl

@[simp] theorem State.setCore_loads (s : State) (k : Nat) (x : Core) : (s.setCore k x).loads = s.loads := rfl

@[simp] theorem State.setCore_cmds (s : State) (k : Nat) (x : Core) : (s.setCore k x).cmds = s.cmds := rfl

@[simp] theorem State.setCore_ordq (s : State) (k : Nat) (x : Core) : (s.setCore k x).ordq = s.ordq := rfl

@[simp] theorem State.setCore_ordSeq (s : State) (k : Nat) (x : Core) : (s.setCore k x).ordSeq = s.ordSeq := rfl

@[simp] theorem State.setCore_doomed (s : State) (k : Nat) (x : Core) : (s.setCore k x).doomed = s.doomed := rfl

@[simp] theorem State.setCore_cells (s : State) (k : Nat) (x : Core) : (s.setCore k x).cells = s.cells := rfl

@[simp] theorem State.setCore_vers (s : State) (k : Nat) (x : Core) : (s.setCore k x).vers = s.vers := rfl

@[simp] theorem State.setCore_nextVer (s : State) (k : Nat) (x : Core) : (s.setCore k x).nextVer = s.nextVer := rfl

@[simp] theorem State.setCore_fences (s : State) (k : Nat) (x : Core) : (s.setCore k x).fences = s.fences := rfl

@[simp] theorem State.setCore_peerResv (s : State) (k : Nat) (x : Core) : (s.setCore k x).peerResv = s.peerResv := rfl

@[simp] theorem State.setCore_bad (s : State) (k : Nat) (x : Core) : (s.setCore k x).bad = s.bad := rfl

@[simp] theorem State.setCore_trellis (s : State) (k : Nat) (x : Core) : (s.setCore k x).trellis = s.trellis := rfl

@[simp] theorem State.setCore_saved (s : State) (k : Nat) (x : Core) : (s.setCore k x).saved = s.saved := rfl

@[simp] theorem State.setCore_host (s : State) (k : Nat) (x : Core) : (s.setCore k x).host = s.host := rfl

@[simp] theorem State.setCore_agenda (s : State) (k : Nat) (x : Core) : (s.setCore k x).agenda = s.agenda := rfl

@[simp] theorem State.setCore_tick (s : State) (k : Nat) (x : Core) : (s.setCore k x).tick = s.tick := rfl

@[simp] theorem State.setCore_turn (s : State) (k : Nat) (x : Core) : (s.setCore k x).turn = s.turn := rfl

@[simp] theorem State.setCore_nextId (s : State) (k : Nat) (x : Core) : (s.setCore k x).nextId = s.nextId := rfl

@[simp] theorem State.setCore_issue (s : State) (k : Nat) (x : Core) : (s.setCore k x).issue = s.issue := rfl

@[simp] theorem State.setCore_parked (s : State) (k : Nat) (x : Core) : (s.setCore k x).parked = s.parked := rfl

@[simp] theorem State.setCore_burst (s : State) (k : Nat) (x : Core) : (s.setCore k x).burst = s.burst := rfl

/-! ### updCore -/

@[simp] theorem State.updCore_mem (s : State) (k : Nat) (f : Core → Core) : (s.updCore k f).mem = s.mem := rfl

@[simp] theorem State.updCore_scratch (s : State) (k : Nat) (f : Core → Core) : (s.updCore k f).scratch = s.scratch := rfl

@[simp] theorem State.updCore_ws (s : State) (k : Nat) (f : Core → Core) : (s.updCore k f).ws = s.ws := rfl

@[simp] theorem State.updCore_slot (s : State) (k : Nat) (f : Core → Core) : (s.updCore k f).slot = s.slot := rfl

@[simp] theorem State.updCore_clock (s : State) (k : Nat) (f : Core → Core) : (s.updCore k f).clock = s.clock := rfl

@[simp] theorem State.updCore_timeBase (s : State) (k : Nat) (f : Core → Core) : (s.updCore k f).timeBase = s.timeBase := rfl

@[simp] theorem State.updCore_regions (s : State) (k : Nat) (f : Core → Core) : (s.updCore k f).regions = s.regions := rfl

@[simp] theorem State.updCore_secure (s : State) (k : Nat) (f : Core → Core) : (s.updCore k f).secure = s.secure := rfl

@[simp] theorem State.updCore_part (s : State) (k : Nat) (f : Core → Core) : (s.updCore k f).part = s.part := rfl

@[simp] theorem State.updCore_released (s : State) (k : Nat) (f : Core → Core) : (s.updCore k f).released = s.released := rfl

@[simp] theorem State.updCore_ctxs (s : State) (k : Nat) (f : Core → Core) : (s.updCore k f).ctxs = s.ctxs := rfl

@[simp] theorem State.updCore_queues (s : State) (k : Nat) (f : Core → Core) : (s.updCore k f).queues = s.queues := rfl

@[simp] theorem State.updCore_launches (s : State) (k : Nat) (f : Core → Core) : (s.updCore k f).launches = s.launches := rfl

@[simp] theorem State.updCore_blocks (s : State) (k : Nat) (f : Core → Core) : (s.updCore k f).blocks = s.blocks := rfl

@[simp] theorem State.updCore_warps (s : State) (k : Nat) (f : Core → Core) : (s.updCore k f).warps = s.warps := rfl

@[simp] theorem State.updCore_lanes (s : State) (k : Nat) (f : Core → Core) : (s.updCore k f).lanes = s.lanes := rfl

@[simp] theorem State.updCore_rr (s : State) (k : Nat) (f : Core → Core) : (s.updCore k f).rr = s.rr := rfl

@[simp] theorem State.updCore_dies (s : State) (k : Nat) (f : Core → Core) : (s.updCore k f).dies = s.dies := rfl

@[simp] theorem State.updCore_loads (s : State) (k : Nat) (f : Core → Core) : (s.updCore k f).loads = s.loads := rfl

@[simp] theorem State.updCore_cmds (s : State) (k : Nat) (f : Core → Core) : (s.updCore k f).cmds = s.cmds := rfl

@[simp] theorem State.updCore_ordq (s : State) (k : Nat) (f : Core → Core) : (s.updCore k f).ordq = s.ordq := rfl

@[simp] theorem State.updCore_ordSeq (s : State) (k : Nat) (f : Core → Core) : (s.updCore k f).ordSeq = s.ordSeq := rfl

@[simp] theorem State.updCore_doomed (s : State) (k : Nat) (f : Core → Core) : (s.updCore k f).doomed = s.doomed := rfl

@[simp] theorem State.updCore_cells (s : State) (k : Nat) (f : Core → Core) : (s.updCore k f).cells = s.cells := rfl

@[simp] theorem State.updCore_vers (s : State) (k : Nat) (f : Core → Core) : (s.updCore k f).vers = s.vers := rfl

@[simp] theorem State.updCore_nextVer (s : State) (k : Nat) (f : Core → Core) : (s.updCore k f).nextVer = s.nextVer := rfl

@[simp] theorem State.updCore_fences (s : State) (k : Nat) (f : Core → Core) : (s.updCore k f).fences = s.fences := rfl

@[simp] theorem State.updCore_peerResv (s : State) (k : Nat) (f : Core → Core) : (s.updCore k f).peerResv = s.peerResv := rfl

@[simp] theorem State.updCore_bad (s : State) (k : Nat) (f : Core → Core) : (s.updCore k f).bad = s.bad := rfl

@[simp] theorem State.updCore_trellis (s : State) (k : Nat) (f : Core → Core) : (s.updCore k f).trellis = s.trellis := rfl

@[simp] theorem State.updCore_saved (s : State) (k : Nat) (f : Core → Core) : (s.updCore k f).saved = s.saved := rfl

@[simp] theorem State.updCore_host (s : State) (k : Nat) (f : Core → Core) : (s.updCore k f).host = s.host := rfl

@[simp] theorem State.updCore_agenda (s : State) (k : Nat) (f : Core → Core) : (s.updCore k f).agenda = s.agenda := rfl

@[simp] theorem State.updCore_tick (s : State) (k : Nat) (f : Core → Core) : (s.updCore k f).tick = s.tick := rfl

@[simp] theorem State.updCore_turn (s : State) (k : Nat) (f : Core → Core) : (s.updCore k f).turn = s.turn := rfl

@[simp] theorem State.updCore_nextId (s : State) (k : Nat) (f : Core → Core) : (s.updCore k f).nextId = s.nextId := rfl

@[simp] theorem State.updCore_issue (s : State) (k : Nat) (f : Core → Core) : (s.updCore k f).issue = s.issue := rfl

@[simp] theorem State.updCore_parked (s : State) (k : Nat) (f : Core → Core) : (s.updCore k f).parked = s.parked := rfl

@[simp] theorem State.updCore_burst (s : State) (k : Nat) (f : Core → Core) : (s.updCore k f).burst = s.burst := rfl

/-! ### updDie -/

@[simp] theorem State.updDie_mem (s : State) (k : Nat) (f : Die → Die) : (s.updDie k f).mem = s.mem := rfl

@[simp] theorem State.updDie_scratch (s : State) (k : Nat) (f : Die → Die) : (s.updDie k f).scratch = s.scratch := rfl

@[simp] theorem State.updDie_ws (s : State) (k : Nat) (f : Die → Die) : (s.updDie k f).ws = s.ws := rfl

@[simp] theorem State.updDie_slot (s : State) (k : Nat) (f : Die → Die) : (s.updDie k f).slot = s.slot := rfl

@[simp] theorem State.updDie_clock (s : State) (k : Nat) (f : Die → Die) : (s.updDie k f).clock = s.clock := rfl

@[simp] theorem State.updDie_timeBase (s : State) (k : Nat) (f : Die → Die) : (s.updDie k f).timeBase = s.timeBase := rfl

@[simp] theorem State.updDie_regions (s : State) (k : Nat) (f : Die → Die) : (s.updDie k f).regions = s.regions := rfl

@[simp] theorem State.updDie_secure (s : State) (k : Nat) (f : Die → Die) : (s.updDie k f).secure = s.secure := rfl

@[simp] theorem State.updDie_part (s : State) (k : Nat) (f : Die → Die) : (s.updDie k f).part = s.part := rfl

@[simp] theorem State.updDie_released (s : State) (k : Nat) (f : Die → Die) : (s.updDie k f).released = s.released := rfl

@[simp] theorem State.updDie_ctxs (s : State) (k : Nat) (f : Die → Die) : (s.updDie k f).ctxs = s.ctxs := rfl

@[simp] theorem State.updDie_queues (s : State) (k : Nat) (f : Die → Die) : (s.updDie k f).queues = s.queues := rfl

@[simp] theorem State.updDie_launches (s : State) (k : Nat) (f : Die → Die) : (s.updDie k f).launches = s.launches := rfl

@[simp] theorem State.updDie_blocks (s : State) (k : Nat) (f : Die → Die) : (s.updDie k f).blocks = s.blocks := rfl

@[simp] theorem State.updDie_warps (s : State) (k : Nat) (f : Die → Die) : (s.updDie k f).warps = s.warps := rfl

@[simp] theorem State.updDie_cores (s : State) (k : Nat) (f : Die → Die) : (s.updDie k f).cores = s.cores := rfl

@[simp] theorem State.updDie_lanes (s : State) (k : Nat) (f : Die → Die) : (s.updDie k f).lanes = s.lanes := rfl

@[simp] theorem State.updDie_rr (s : State) (k : Nat) (f : Die → Die) : (s.updDie k f).rr = s.rr := rfl

@[simp] theorem State.updDie_loads (s : State) (k : Nat) (f : Die → Die) : (s.updDie k f).loads = s.loads := rfl

@[simp] theorem State.updDie_cmds (s : State) (k : Nat) (f : Die → Die) : (s.updDie k f).cmds = s.cmds := rfl

@[simp] theorem State.updDie_ordq (s : State) (k : Nat) (f : Die → Die) : (s.updDie k f).ordq = s.ordq := rfl

@[simp] theorem State.updDie_ordSeq (s : State) (k : Nat) (f : Die → Die) : (s.updDie k f).ordSeq = s.ordSeq := rfl

@[simp] theorem State.updDie_doomed (s : State) (k : Nat) (f : Die → Die) : (s.updDie k f).doomed = s.doomed := rfl

@[simp] theorem State.updDie_cells (s : State) (k : Nat) (f : Die → Die) : (s.updDie k f).cells = s.cells := rfl

@[simp] theorem State.updDie_vers (s : State) (k : Nat) (f : Die → Die) : (s.updDie k f).vers = s.vers := rfl

@[simp] theorem State.updDie_nextVer (s : State) (k : Nat) (f : Die → Die) : (s.updDie k f).nextVer = s.nextVer := rfl

@[simp] theorem State.updDie_fences (s : State) (k : Nat) (f : Die → Die) : (s.updDie k f).fences = s.fences := rfl

@[simp] theorem State.updDie_peerResv (s : State) (k : Nat) (f : Die → Die) : (s.updDie k f).peerResv = s.peerResv := rfl

@[simp] theorem State.updDie_bad (s : State) (k : Nat) (f : Die → Die) : (s.updDie k f).bad = s.bad := rfl

@[simp] theorem State.updDie_trellis (s : State) (k : Nat) (f : Die → Die) : (s.updDie k f).trellis = s.trellis := rfl

@[simp] theorem State.updDie_saved (s : State) (k : Nat) (f : Die → Die) : (s.updDie k f).saved = s.saved := rfl

@[simp] theorem State.updDie_host (s : State) (k : Nat) (f : Die → Die) : (s.updDie k f).host = s.host := rfl

@[simp] theorem State.updDie_agenda (s : State) (k : Nat) (f : Die → Die) : (s.updDie k f).agenda = s.agenda := rfl

@[simp] theorem State.updDie_tick (s : State) (k : Nat) (f : Die → Die) : (s.updDie k f).tick = s.tick := rfl

@[simp] theorem State.updDie_turn (s : State) (k : Nat) (f : Die → Die) : (s.updDie k f).turn = s.turn := rfl

@[simp] theorem State.updDie_nextId (s : State) (k : Nat) (f : Die → Die) : (s.updDie k f).nextId = s.nextId := rfl

@[simp] theorem State.updDie_issue (s : State) (k : Nat) (f : Die → Die) : (s.updDie k f).issue = s.issue := rfl

@[simp] theorem State.updDie_parked (s : State) (k : Nat) (f : Die → Die) : (s.updDie k f).parked = s.parked := rfl

@[simp] theorem State.updDie_burst (s : State) (k : Nat) (f : Die → Die) : (s.updDie k f).burst = s.burst := rfl

/-! ### updLane -/

@[simp] theorem State.updLane_mem (s : State) (k : Nat) (f : Lane → Lane) : (s.updLane k f).mem = s.mem := rfl

@[simp] theorem State.updLane_scratch (s : State) (k : Nat) (f : Lane → Lane) : (s.updLane k f).scratch = s.scratch := rfl

@[simp] theorem State.updLane_ws (s : State) (k : Nat) (f : Lane → Lane) : (s.updLane k f).ws = s.ws := rfl

@[simp] theorem State.updLane_slot (s : State) (k : Nat) (f : Lane → Lane) : (s.updLane k f).slot = s.slot := rfl

@[simp] theorem State.updLane_clock (s : State) (k : Nat) (f : Lane → Lane) : (s.updLane k f).clock = s.clock := rfl

@[simp] theorem State.updLane_timeBase (s : State) (k : Nat) (f : Lane → Lane) : (s.updLane k f).timeBase = s.timeBase := rfl

@[simp] theorem State.updLane_regions (s : State) (k : Nat) (f : Lane → Lane) : (s.updLane k f).regions = s.regions := rfl

@[simp] theorem State.updLane_secure (s : State) (k : Nat) (f : Lane → Lane) : (s.updLane k f).secure = s.secure := rfl

@[simp] theorem State.updLane_part (s : State) (k : Nat) (f : Lane → Lane) : (s.updLane k f).part = s.part := rfl

@[simp] theorem State.updLane_released (s : State) (k : Nat) (f : Lane → Lane) : (s.updLane k f).released = s.released := rfl

@[simp] theorem State.updLane_ctxs (s : State) (k : Nat) (f : Lane → Lane) : (s.updLane k f).ctxs = s.ctxs := rfl

@[simp] theorem State.updLane_queues (s : State) (k : Nat) (f : Lane → Lane) : (s.updLane k f).queues = s.queues := rfl

@[simp] theorem State.updLane_launches (s : State) (k : Nat) (f : Lane → Lane) : (s.updLane k f).launches = s.launches := rfl

@[simp] theorem State.updLane_blocks (s : State) (k : Nat) (f : Lane → Lane) : (s.updLane k f).blocks = s.blocks := rfl

@[simp] theorem State.updLane_warps (s : State) (k : Nat) (f : Lane → Lane) : (s.updLane k f).warps = s.warps := rfl

@[simp] theorem State.updLane_cores (s : State) (k : Nat) (f : Lane → Lane) : (s.updLane k f).cores = s.cores := rfl

@[simp] theorem State.updLane_rr (s : State) (k : Nat) (f : Lane → Lane) : (s.updLane k f).rr = s.rr := rfl

@[simp] theorem State.updLane_dies (s : State) (k : Nat) (f : Lane → Lane) : (s.updLane k f).dies = s.dies := rfl

@[simp] theorem State.updLane_loads (s : State) (k : Nat) (f : Lane → Lane) : (s.updLane k f).loads = s.loads := rfl

@[simp] theorem State.updLane_cmds (s : State) (k : Nat) (f : Lane → Lane) : (s.updLane k f).cmds = s.cmds := rfl

@[simp] theorem State.updLane_ordq (s : State) (k : Nat) (f : Lane → Lane) : (s.updLane k f).ordq = s.ordq := rfl

@[simp] theorem State.updLane_ordSeq (s : State) (k : Nat) (f : Lane → Lane) : (s.updLane k f).ordSeq = s.ordSeq := rfl

@[simp] theorem State.updLane_doomed (s : State) (k : Nat) (f : Lane → Lane) : (s.updLane k f).doomed = s.doomed := rfl

@[simp] theorem State.updLane_cells (s : State) (k : Nat) (f : Lane → Lane) : (s.updLane k f).cells = s.cells := rfl

@[simp] theorem State.updLane_vers (s : State) (k : Nat) (f : Lane → Lane) : (s.updLane k f).vers = s.vers := rfl

@[simp] theorem State.updLane_nextVer (s : State) (k : Nat) (f : Lane → Lane) : (s.updLane k f).nextVer = s.nextVer := rfl

@[simp] theorem State.updLane_fences (s : State) (k : Nat) (f : Lane → Lane) : (s.updLane k f).fences = s.fences := rfl

@[simp] theorem State.updLane_peerResv (s : State) (k : Nat) (f : Lane → Lane) : (s.updLane k f).peerResv = s.peerResv := rfl

@[simp] theorem State.updLane_bad (s : State) (k : Nat) (f : Lane → Lane) : (s.updLane k f).bad = s.bad := rfl

@[simp] theorem State.updLane_trellis (s : State) (k : Nat) (f : Lane → Lane) : (s.updLane k f).trellis = s.trellis := rfl

@[simp] theorem State.updLane_saved (s : State) (k : Nat) (f : Lane → Lane) : (s.updLane k f).saved = s.saved := rfl

@[simp] theorem State.updLane_host (s : State) (k : Nat) (f : Lane → Lane) : (s.updLane k f).host = s.host := rfl

@[simp] theorem State.updLane_agenda (s : State) (k : Nat) (f : Lane → Lane) : (s.updLane k f).agenda = s.agenda := rfl

@[simp] theorem State.updLane_tick (s : State) (k : Nat) (f : Lane → Lane) : (s.updLane k f).tick = s.tick := rfl

@[simp] theorem State.updLane_turn (s : State) (k : Nat) (f : Lane → Lane) : (s.updLane k f).turn = s.turn := rfl

@[simp] theorem State.updLane_nextId (s : State) (k : Nat) (f : Lane → Lane) : (s.updLane k f).nextId = s.nextId := rfl

@[simp] theorem State.updLane_issue (s : State) (k : Nat) (f : Lane → Lane) : (s.updLane k f).issue = s.issue := rfl

@[simp] theorem State.updLane_parked (s : State) (k : Nat) (f : Lane → Lane) : (s.updLane k f).parked = s.parked := rfl

@[simp] theorem State.updLane_burst (s : State) (k : Nat) (f : Lane → Lane) : (s.updLane k f).burst = s.burst := rfl

/-! ### updBlock -/

@[simp] theorem State.updBlock_mem (s : State) (k : Nat) (f : Block → Block) : (s.updBlock k f).mem = s.mem := rfl

@[simp] theorem State.updBlock_scratch (s : State) (k : Nat) (f : Block → Block) : (s.updBlock k f).scratch = s.scratch := rfl

@[simp] theorem State.updBlock_ws (s : State) (k : Nat) (f : Block → Block) : (s.updBlock k f).ws = s.ws := rfl

@[simp] theorem State.updBlock_slot (s : State) (k : Nat) (f : Block → Block) : (s.updBlock k f).slot = s.slot := rfl

@[simp] theorem State.updBlock_clock (s : State) (k : Nat) (f : Block → Block) : (s.updBlock k f).clock = s.clock := rfl

@[simp] theorem State.updBlock_timeBase (s : State) (k : Nat) (f : Block → Block) : (s.updBlock k f).timeBase = s.timeBase := rfl

@[simp] theorem State.updBlock_regions (s : State) (k : Nat) (f : Block → Block) : (s.updBlock k f).regions = s.regions := rfl

@[simp] theorem State.updBlock_secure (s : State) (k : Nat) (f : Block → Block) : (s.updBlock k f).secure = s.secure := rfl

@[simp] theorem State.updBlock_part (s : State) (k : Nat) (f : Block → Block) : (s.updBlock k f).part = s.part := rfl

@[simp] theorem State.updBlock_released (s : State) (k : Nat) (f : Block → Block) : (s.updBlock k f).released = s.released := rfl

@[simp] theorem State.updBlock_ctxs (s : State) (k : Nat) (f : Block → Block) : (s.updBlock k f).ctxs = s.ctxs := rfl

@[simp] theorem State.updBlock_queues (s : State) (k : Nat) (f : Block → Block) : (s.updBlock k f).queues = s.queues := rfl

@[simp] theorem State.updBlock_launches (s : State) (k : Nat) (f : Block → Block) : (s.updBlock k f).launches = s.launches := rfl

@[simp] theorem State.updBlock_warps (s : State) (k : Nat) (f : Block → Block) : (s.updBlock k f).warps = s.warps := rfl

@[simp] theorem State.updBlock_cores (s : State) (k : Nat) (f : Block → Block) : (s.updBlock k f).cores = s.cores := rfl

@[simp] theorem State.updBlock_lanes (s : State) (k : Nat) (f : Block → Block) : (s.updBlock k f).lanes = s.lanes := rfl

@[simp] theorem State.updBlock_rr (s : State) (k : Nat) (f : Block → Block) : (s.updBlock k f).rr = s.rr := rfl

@[simp] theorem State.updBlock_dies (s : State) (k : Nat) (f : Block → Block) : (s.updBlock k f).dies = s.dies := rfl

@[simp] theorem State.updBlock_loads (s : State) (k : Nat) (f : Block → Block) : (s.updBlock k f).loads = s.loads := rfl

@[simp] theorem State.updBlock_cmds (s : State) (k : Nat) (f : Block → Block) : (s.updBlock k f).cmds = s.cmds := rfl

@[simp] theorem State.updBlock_ordq (s : State) (k : Nat) (f : Block → Block) : (s.updBlock k f).ordq = s.ordq := rfl

@[simp] theorem State.updBlock_ordSeq (s : State) (k : Nat) (f : Block → Block) : (s.updBlock k f).ordSeq = s.ordSeq := rfl

@[simp] theorem State.updBlock_doomed (s : State) (k : Nat) (f : Block → Block) : (s.updBlock k f).doomed = s.doomed := rfl

@[simp] theorem State.updBlock_cells (s : State) (k : Nat) (f : Block → Block) : (s.updBlock k f).cells = s.cells := rfl

@[simp] theorem State.updBlock_vers (s : State) (k : Nat) (f : Block → Block) : (s.updBlock k f).vers = s.vers := rfl

@[simp] theorem State.updBlock_nextVer (s : State) (k : Nat) (f : Block → Block) : (s.updBlock k f).nextVer = s.nextVer := rfl

@[simp] theorem State.updBlock_fences (s : State) (k : Nat) (f : Block → Block) : (s.updBlock k f).fences = s.fences := rfl

@[simp] theorem State.updBlock_peerResv (s : State) (k : Nat) (f : Block → Block) : (s.updBlock k f).peerResv = s.peerResv := rfl

@[simp] theorem State.updBlock_bad (s : State) (k : Nat) (f : Block → Block) : (s.updBlock k f).bad = s.bad := rfl

@[simp] theorem State.updBlock_trellis (s : State) (k : Nat) (f : Block → Block) : (s.updBlock k f).trellis = s.trellis := rfl

@[simp] theorem State.updBlock_saved (s : State) (k : Nat) (f : Block → Block) : (s.updBlock k f).saved = s.saved := rfl

@[simp] theorem State.updBlock_host (s : State) (k : Nat) (f : Block → Block) : (s.updBlock k f).host = s.host := rfl

@[simp] theorem State.updBlock_agenda (s : State) (k : Nat) (f : Block → Block) : (s.updBlock k f).agenda = s.agenda := rfl

@[simp] theorem State.updBlock_tick (s : State) (k : Nat) (f : Block → Block) : (s.updBlock k f).tick = s.tick := rfl

@[simp] theorem State.updBlock_turn (s : State) (k : Nat) (f : Block → Block) : (s.updBlock k f).turn = s.turn := rfl

@[simp] theorem State.updBlock_nextId (s : State) (k : Nat) (f : Block → Block) : (s.updBlock k f).nextId = s.nextId := rfl

@[simp] theorem State.updBlock_issue (s : State) (k : Nat) (f : Block → Block) : (s.updBlock k f).issue = s.issue := rfl

@[simp] theorem State.updBlock_parked (s : State) (k : Nat) (f : Block → Block) : (s.updBlock k f).parked = s.parked := rfl

@[simp] theorem State.updBlock_burst (s : State) (k : Nat) (f : Block → Block) : (s.updBlock k f).burst = s.burst := rfl

/-! ### updLaunch -/

@[simp] theorem State.updLaunch_mem (s : State) (k : Nat) (f : Launch → Launch) : (s.updLaunch k f).mem = s.mem := rfl

@[simp] theorem State.updLaunch_scratch (s : State) (k : Nat) (f : Launch → Launch) : (s.updLaunch k f).scratch = s.scratch := rfl

@[simp] theorem State.updLaunch_ws (s : State) (k : Nat) (f : Launch → Launch) : (s.updLaunch k f).ws = s.ws := rfl

@[simp] theorem State.updLaunch_slot (s : State) (k : Nat) (f : Launch → Launch) : (s.updLaunch k f).slot = s.slot := rfl

@[simp] theorem State.updLaunch_clock (s : State) (k : Nat) (f : Launch → Launch) : (s.updLaunch k f).clock = s.clock := rfl

@[simp] theorem State.updLaunch_timeBase (s : State) (k : Nat) (f : Launch → Launch) : (s.updLaunch k f).timeBase = s.timeBase := rfl

@[simp] theorem State.updLaunch_regions (s : State) (k : Nat) (f : Launch → Launch) : (s.updLaunch k f).regions = s.regions := rfl

@[simp] theorem State.updLaunch_secure (s : State) (k : Nat) (f : Launch → Launch) : (s.updLaunch k f).secure = s.secure := rfl

@[simp] theorem State.updLaunch_part (s : State) (k : Nat) (f : Launch → Launch) : (s.updLaunch k f).part = s.part := rfl

@[simp] theorem State.updLaunch_released (s : State) (k : Nat) (f : Launch → Launch) : (s.updLaunch k f).released = s.released := rfl

@[simp] theorem State.updLaunch_ctxs (s : State) (k : Nat) (f : Launch → Launch) : (s.updLaunch k f).ctxs = s.ctxs := rfl

@[simp] theorem State.updLaunch_queues (s : State) (k : Nat) (f : Launch → Launch) : (s.updLaunch k f).queues = s.queues := rfl

@[simp] theorem State.updLaunch_blocks (s : State) (k : Nat) (f : Launch → Launch) : (s.updLaunch k f).blocks = s.blocks := rfl

@[simp] theorem State.updLaunch_warps (s : State) (k : Nat) (f : Launch → Launch) : (s.updLaunch k f).warps = s.warps := rfl

@[simp] theorem State.updLaunch_cores (s : State) (k : Nat) (f : Launch → Launch) : (s.updLaunch k f).cores = s.cores := rfl

@[simp] theorem State.updLaunch_lanes (s : State) (k : Nat) (f : Launch → Launch) : (s.updLaunch k f).lanes = s.lanes := rfl

@[simp] theorem State.updLaunch_rr (s : State) (k : Nat) (f : Launch → Launch) : (s.updLaunch k f).rr = s.rr := rfl

@[simp] theorem State.updLaunch_dies (s : State) (k : Nat) (f : Launch → Launch) : (s.updLaunch k f).dies = s.dies := rfl

@[simp] theorem State.updLaunch_loads (s : State) (k : Nat) (f : Launch → Launch) : (s.updLaunch k f).loads = s.loads := rfl

@[simp] theorem State.updLaunch_cmds (s : State) (k : Nat) (f : Launch → Launch) : (s.updLaunch k f).cmds = s.cmds := rfl

@[simp] theorem State.updLaunch_ordq (s : State) (k : Nat) (f : Launch → Launch) : (s.updLaunch k f).ordq = s.ordq := rfl

@[simp] theorem State.updLaunch_ordSeq (s : State) (k : Nat) (f : Launch → Launch) : (s.updLaunch k f).ordSeq = s.ordSeq := rfl

@[simp] theorem State.updLaunch_doomed (s : State) (k : Nat) (f : Launch → Launch) : (s.updLaunch k f).doomed = s.doomed := rfl

@[simp] theorem State.updLaunch_cells (s : State) (k : Nat) (f : Launch → Launch) : (s.updLaunch k f).cells = s.cells := rfl

@[simp] theorem State.updLaunch_vers (s : State) (k : Nat) (f : Launch → Launch) : (s.updLaunch k f).vers = s.vers := rfl

@[simp] theorem State.updLaunch_nextVer (s : State) (k : Nat) (f : Launch → Launch) : (s.updLaunch k f).nextVer = s.nextVer := rfl

@[simp] theorem State.updLaunch_fences (s : State) (k : Nat) (f : Launch → Launch) : (s.updLaunch k f).fences = s.fences := rfl

@[simp] theorem State.updLaunch_peerResv (s : State) (k : Nat) (f : Launch → Launch) : (s.updLaunch k f).peerResv = s.peerResv := rfl

@[simp] theorem State.updLaunch_bad (s : State) (k : Nat) (f : Launch → Launch) : (s.updLaunch k f).bad = s.bad := rfl

@[simp] theorem State.updLaunch_trellis (s : State) (k : Nat) (f : Launch → Launch) : (s.updLaunch k f).trellis = s.trellis := rfl

@[simp] theorem State.updLaunch_saved (s : State) (k : Nat) (f : Launch → Launch) : (s.updLaunch k f).saved = s.saved := rfl

@[simp] theorem State.updLaunch_host (s : State) (k : Nat) (f : Launch → Launch) : (s.updLaunch k f).host = s.host := rfl

@[simp] theorem State.updLaunch_agenda (s : State) (k : Nat) (f : Launch → Launch) : (s.updLaunch k f).agenda = s.agenda := rfl

@[simp] theorem State.updLaunch_tick (s : State) (k : Nat) (f : Launch → Launch) : (s.updLaunch k f).tick = s.tick := rfl

@[simp] theorem State.updLaunch_turn (s : State) (k : Nat) (f : Launch → Launch) : (s.updLaunch k f).turn = s.turn := rfl

@[simp] theorem State.updLaunch_nextId (s : State) (k : Nat) (f : Launch → Launch) : (s.updLaunch k f).nextId = s.nextId := rfl

@[simp] theorem State.updLaunch_issue (s : State) (k : Nat) (f : Launch → Launch) : (s.updLaunch k f).issue = s.issue := rfl

@[simp] theorem State.updLaunch_parked (s : State) (k : Nat) (f : Launch → Launch) : (s.updLaunch k f).parked = s.parked := rfl

@[simp] theorem State.updLaunch_burst (s : State) (k : Nat) (f : Launch → Launch) : (s.updLaunch k f).burst = s.burst := rfl

/-! ### updCtx -/

@[simp] theorem State.updCtx_mem (s : State) (k : Nat) (f : Ctx → Ctx) : (s.updCtx k f).mem = s.mem := rfl

@[simp] theorem State.updCtx_scratch (s : State) (k : Nat) (f : Ctx → Ctx) : (s.updCtx k f).scratch = s.scratch := rfl

@[simp] theorem State.updCtx_ws (s : State) (k : Nat) (f : Ctx → Ctx) : (s.updCtx k f).ws = s.ws := rfl

@[simp] theorem State.updCtx_slot (s : State) (k : Nat) (f : Ctx → Ctx) : (s.updCtx k f).slot = s.slot := rfl

@[simp] theorem State.updCtx_clock (s : State) (k : Nat) (f : Ctx → Ctx) : (s.updCtx k f).clock = s.clock := rfl

@[simp] theorem State.updCtx_timeBase (s : State) (k : Nat) (f : Ctx → Ctx) : (s.updCtx k f).timeBase = s.timeBase := rfl

@[simp] theorem State.updCtx_regions (s : State) (k : Nat) (f : Ctx → Ctx) : (s.updCtx k f).regions = s.regions := rfl

@[simp] theorem State.updCtx_secure (s : State) (k : Nat) (f : Ctx → Ctx) : (s.updCtx k f).secure = s.secure := rfl

@[simp] theorem State.updCtx_part (s : State) (k : Nat) (f : Ctx → Ctx) : (s.updCtx k f).part = s.part := rfl

@[simp] theorem State.updCtx_released (s : State) (k : Nat) (f : Ctx → Ctx) : (s.updCtx k f).released = s.released := rfl

@[simp] theorem State.updCtx_queues (s : State) (k : Nat) (f : Ctx → Ctx) : (s.updCtx k f).queues = s.queues := rfl

@[simp] theorem State.updCtx_launches (s : State) (k : Nat) (f : Ctx → Ctx) : (s.updCtx k f).launches = s.launches := rfl

@[simp] theorem State.updCtx_blocks (s : State) (k : Nat) (f : Ctx → Ctx) : (s.updCtx k f).blocks = s.blocks := rfl

@[simp] theorem State.updCtx_warps (s : State) (k : Nat) (f : Ctx → Ctx) : (s.updCtx k f).warps = s.warps := rfl

@[simp] theorem State.updCtx_cores (s : State) (k : Nat) (f : Ctx → Ctx) : (s.updCtx k f).cores = s.cores := rfl

@[simp] theorem State.updCtx_lanes (s : State) (k : Nat) (f : Ctx → Ctx) : (s.updCtx k f).lanes = s.lanes := rfl

@[simp] theorem State.updCtx_rr (s : State) (k : Nat) (f : Ctx → Ctx) : (s.updCtx k f).rr = s.rr := rfl

@[simp] theorem State.updCtx_dies (s : State) (k : Nat) (f : Ctx → Ctx) : (s.updCtx k f).dies = s.dies := rfl

@[simp] theorem State.updCtx_loads (s : State) (k : Nat) (f : Ctx → Ctx) : (s.updCtx k f).loads = s.loads := rfl

@[simp] theorem State.updCtx_cmds (s : State) (k : Nat) (f : Ctx → Ctx) : (s.updCtx k f).cmds = s.cmds := rfl

@[simp] theorem State.updCtx_ordq (s : State) (k : Nat) (f : Ctx → Ctx) : (s.updCtx k f).ordq = s.ordq := rfl

@[simp] theorem State.updCtx_ordSeq (s : State) (k : Nat) (f : Ctx → Ctx) : (s.updCtx k f).ordSeq = s.ordSeq := rfl

@[simp] theorem State.updCtx_doomed (s : State) (k : Nat) (f : Ctx → Ctx) : (s.updCtx k f).doomed = s.doomed := rfl

@[simp] theorem State.updCtx_cells (s : State) (k : Nat) (f : Ctx → Ctx) : (s.updCtx k f).cells = s.cells := rfl

@[simp] theorem State.updCtx_vers (s : State) (k : Nat) (f : Ctx → Ctx) : (s.updCtx k f).vers = s.vers := rfl

@[simp] theorem State.updCtx_nextVer (s : State) (k : Nat) (f : Ctx → Ctx) : (s.updCtx k f).nextVer = s.nextVer := rfl

@[simp] theorem State.updCtx_fences (s : State) (k : Nat) (f : Ctx → Ctx) : (s.updCtx k f).fences = s.fences := rfl

@[simp] theorem State.updCtx_peerResv (s : State) (k : Nat) (f : Ctx → Ctx) : (s.updCtx k f).peerResv = s.peerResv := rfl

@[simp] theorem State.updCtx_bad (s : State) (k : Nat) (f : Ctx → Ctx) : (s.updCtx k f).bad = s.bad := rfl

@[simp] theorem State.updCtx_trellis (s : State) (k : Nat) (f : Ctx → Ctx) : (s.updCtx k f).trellis = s.trellis := rfl

@[simp] theorem State.updCtx_saved (s : State) (k : Nat) (f : Ctx → Ctx) : (s.updCtx k f).saved = s.saved := rfl

@[simp] theorem State.updCtx_host (s : State) (k : Nat) (f : Ctx → Ctx) : (s.updCtx k f).host = s.host := rfl

@[simp] theorem State.updCtx_agenda (s : State) (k : Nat) (f : Ctx → Ctx) : (s.updCtx k f).agenda = s.agenda := rfl

@[simp] theorem State.updCtx_tick (s : State) (k : Nat) (f : Ctx → Ctx) : (s.updCtx k f).tick = s.tick := rfl

@[simp] theorem State.updCtx_turn (s : State) (k : Nat) (f : Ctx → Ctx) : (s.updCtx k f).turn = s.turn := rfl

@[simp] theorem State.updCtx_nextId (s : State) (k : Nat) (f : Ctx → Ctx) : (s.updCtx k f).nextId = s.nextId := rfl

@[simp] theorem State.updCtx_issue (s : State) (k : Nat) (f : Ctx → Ctx) : (s.updCtx k f).issue = s.issue := rfl

@[simp] theorem State.updCtx_parked (s : State) (k : Nat) (f : Ctx → Ctx) : (s.updCtx k f).parked = s.parked := rfl

@[simp] theorem State.updCtx_burst (s : State) (k : Nat) (f : Ctx → Ctx) : (s.updCtx k f).burst = s.burst := rfl

/-! ### draw -/

@[simp] theorem State.draw_mem (s : State) : (s.draw).mem = s.mem := rfl

@[simp] theorem State.draw_scratch (s : State) : (s.draw).scratch = s.scratch := rfl

@[simp] theorem State.draw_ws (s : State) : (s.draw).ws = s.ws := rfl

@[simp] theorem State.draw_slot (s : State) : (s.draw).slot = s.slot := rfl

@[simp] theorem State.draw_clock (s : State) : (s.draw).clock = s.clock := rfl

@[simp] theorem State.draw_timeBase (s : State) : (s.draw).timeBase = s.timeBase := rfl

@[simp] theorem State.draw_regions (s : State) : (s.draw).regions = s.regions := rfl

@[simp] theorem State.draw_secure (s : State) : (s.draw).secure = s.secure := rfl

@[simp] theorem State.draw_part (s : State) : (s.draw).part = s.part := rfl

@[simp] theorem State.draw_released (s : State) : (s.draw).released = s.released := rfl

@[simp] theorem State.draw_ctxs (s : State) : (s.draw).ctxs = s.ctxs := rfl

@[simp] theorem State.draw_queues (s : State) : (s.draw).queues = s.queues := rfl

@[simp] theorem State.draw_launches (s : State) : (s.draw).launches = s.launches := rfl

@[simp] theorem State.draw_blocks (s : State) : (s.draw).blocks = s.blocks := rfl

@[simp] theorem State.draw_warps (s : State) : (s.draw).warps = s.warps := rfl

@[simp] theorem State.draw_cores (s : State) : (s.draw).cores = s.cores := rfl

@[simp] theorem State.draw_lanes (s : State) : (s.draw).lanes = s.lanes := rfl

@[simp] theorem State.draw_rr (s : State) : (s.draw).rr = s.rr := rfl

@[simp] theorem State.draw_dies (s : State) : (s.draw).dies = s.dies := rfl

@[simp] theorem State.draw_loads (s : State) : (s.draw).loads = s.loads := rfl

@[simp] theorem State.draw_cmds (s : State) : (s.draw).cmds = s.cmds := rfl

@[simp] theorem State.draw_ordq (s : State) : (s.draw).ordq = s.ordq := rfl

@[simp] theorem State.draw_ordSeq (s : State) : (s.draw).ordSeq = s.ordSeq := rfl

@[simp] theorem State.draw_doomed (s : State) : (s.draw).doomed = s.doomed := rfl

@[simp] theorem State.draw_cells (s : State) : (s.draw).cells = s.cells := rfl

@[simp] theorem State.draw_vers (s : State) : (s.draw).vers = s.vers := rfl

@[simp] theorem State.draw_nextVer (s : State) : (s.draw).nextVer = s.nextVer := rfl

@[simp] theorem State.draw_fences (s : State) : (s.draw).fences = s.fences := rfl

@[simp] theorem State.draw_peerResv (s : State) : (s.draw).peerResv = s.peerResv := rfl

@[simp] theorem State.draw_bad (s : State) : (s.draw).bad = s.bad := rfl

@[simp] theorem State.draw_trellis (s : State) : (s.draw).trellis = s.trellis := rfl

@[simp] theorem State.draw_saved (s : State) : (s.draw).saved = s.saved := rfl

@[simp] theorem State.draw_host (s : State) : (s.draw).host = s.host := rfl

@[simp] theorem State.draw_agenda (s : State) : (s.draw).agenda = s.agenda := rfl

@[simp] theorem State.draw_turn (s : State) : (s.draw).turn = s.turn := rfl

@[simp] theorem State.draw_nextId (s : State) : (s.draw).nextId = s.nextId := rfl

@[simp] theorem State.draw_issue (s : State) : (s.draw).issue = s.issue := rfl

@[simp] theorem State.draw_parked (s : State) : (s.draw).parked = s.parked := rfl

@[simp] theorem State.draw_burst (s : State) : (s.draw).burst = s.burst := rfl

/-! ### bbox -/

@[simp] theorem State.bbox_mem (s : State) (die source code core warp thread ctx : Nat) (d : List Word) : (s.bbox die source code core warp thread ctx d).mem = s.mem := rfl

@[simp] theorem State.bbox_scratch (s : State) (die source code core warp thread ctx : Nat) (d : List Word) : (s.bbox die source code core warp thread ctx d).scratch = s.scratch := rfl

@[simp] theorem State.bbox_ws (s : State) (die source code core warp thread ctx : Nat) (d : List Word) : (s.bbox die source code core warp thread ctx d).ws = s.ws := rfl

@[simp] theorem State.bbox_slot (s : State) (die source code core warp thread ctx : Nat) (d : List Word) : (s.bbox die source code core warp thread ctx d).slot = s.slot := rfl

@[simp] theorem State.bbox_clock (s : State) (die source code core warp thread ctx : Nat) (d : List Word) : (s.bbox die source code core warp thread ctx d).clock = s.clock := rfl

@[simp] theorem State.bbox_timeBase (s : State) (die source code core warp thread ctx : Nat) (d : List Word) : (s.bbox die source code core warp thread ctx d).timeBase = s.timeBase := rfl

@[simp] theorem State.bbox_regions (s : State) (die source code core warp thread ctx : Nat) (d : List Word) : (s.bbox die source code core warp thread ctx d).regions = s.regions := rfl

@[simp] theorem State.bbox_secure (s : State) (die source code core warp thread ctx : Nat) (d : List Word) : (s.bbox die source code core warp thread ctx d).secure = s.secure := rfl

@[simp] theorem State.bbox_part (s : State) (die source code core warp thread ctx : Nat) (d : List Word) : (s.bbox die source code core warp thread ctx d).part = s.part := rfl

@[simp] theorem State.bbox_released (s : State) (die source code core warp thread ctx : Nat) (d : List Word) : (s.bbox die source code core warp thread ctx d).released = s.released := rfl

@[simp] theorem State.bbox_ctxs (s : State) (die source code core warp thread ctx : Nat) (d : List Word) : (s.bbox die source code core warp thread ctx d).ctxs = s.ctxs := rfl

@[simp] theorem State.bbox_queues (s : State) (die source code core warp thread ctx : Nat) (d : List Word) : (s.bbox die source code core warp thread ctx d).queues = s.queues := rfl

@[simp] theorem State.bbox_launches (s : State) (die source code core warp thread ctx : Nat) (d : List Word) : (s.bbox die source code core warp thread ctx d).launches = s.launches := rfl

@[simp] theorem State.bbox_blocks (s : State) (die source code core warp thread ctx : Nat) (d : List Word) : (s.bbox die source code core warp thread ctx d).blocks = s.blocks := rfl

@[simp] theorem State.bbox_warps (s : State) (die source code core warp thread ctx : Nat) (d : List Word) : (s.bbox die source code core warp thread ctx d).warps = s.warps := rfl

@[simp] theorem State.bbox_cores (s : State) (die source code core warp thread ctx : Nat) (d : List Word) : (s.bbox die source code core warp thread ctx d).cores = s.cores := rfl

@[simp] theorem State.bbox_lanes (s : State) (die source code core warp thread ctx : Nat) (d : List Word) : (s.bbox die source code core warp thread ctx d).lanes = s.lanes := rfl

@[simp] theorem State.bbox_rr (s : State) (die source code core warp thread ctx : Nat) (d : List Word) : (s.bbox die source code core warp thread ctx d).rr = s.rr := rfl

@[simp] theorem State.bbox_loads (s : State) (die source code core warp thread ctx : Nat) (d : List Word) : (s.bbox die source code core warp thread ctx d).loads = s.loads := rfl

@[simp] theorem State.bbox_cmds (s : State) (die source code core warp thread ctx : Nat) (d : List Word) : (s.bbox die source code core warp thread ctx d).cmds = s.cmds := rfl

@[simp] theorem State.bbox_ordq (s : State) (die source code core warp thread ctx : Nat) (d : List Word) : (s.bbox die source code core warp thread ctx d).ordq = s.ordq := rfl

@[simp] theorem State.bbox_ordSeq (s : State) (die source code core warp thread ctx : Nat) (d : List Word) : (s.bbox die source code core warp thread ctx d).ordSeq = s.ordSeq := rfl

@[simp] theorem State.bbox_doomed (s : State) (die source code core warp thread ctx : Nat) (d : List Word) : (s.bbox die source code core warp thread ctx d).doomed = s.doomed := rfl

@[simp] theorem State.bbox_cells (s : State) (die source code core warp thread ctx : Nat) (d : List Word) : (s.bbox die source code core warp thread ctx d).cells = s.cells := rfl

@[simp] theorem State.bbox_vers (s : State) (die source code core warp thread ctx : Nat) (d : List Word) : (s.bbox die source code core warp thread ctx d).vers = s.vers := rfl

@[simp] theorem State.bbox_nextVer (s : State) (die source code core warp thread ctx : Nat) (d : List Word) : (s.bbox die source code core warp thread ctx d).nextVer = s.nextVer := rfl

@[simp] theorem State.bbox_fences (s : State) (die source code core warp thread ctx : Nat) (d : List Word) : (s.bbox die source code core warp thread ctx d).fences = s.fences := rfl

@[simp] theorem State.bbox_peerResv (s : State) (die source code core warp thread ctx : Nat) (d : List Word) : (s.bbox die source code core warp thread ctx d).peerResv = s.peerResv := rfl

@[simp] theorem State.bbox_bad (s : State) (die source code core warp thread ctx : Nat) (d : List Word) : (s.bbox die source code core warp thread ctx d).bad = s.bad := rfl

@[simp] theorem State.bbox_trellis (s : State) (die source code core warp thread ctx : Nat) (d : List Word) : (s.bbox die source code core warp thread ctx d).trellis = s.trellis := rfl

@[simp] theorem State.bbox_saved (s : State) (die source code core warp thread ctx : Nat) (d : List Word) : (s.bbox die source code core warp thread ctx d).saved = s.saved := rfl

@[simp] theorem State.bbox_host (s : State) (die source code core warp thread ctx : Nat) (d : List Word) : (s.bbox die source code core warp thread ctx d).host = s.host := rfl

@[simp] theorem State.bbox_agenda (s : State) (die source code core warp thread ctx : Nat) (d : List Word) : (s.bbox die source code core warp thread ctx d).agenda = s.agenda := rfl

@[simp] theorem State.bbox_tick (s : State) (die source code core warp thread ctx : Nat) (d : List Word) : (s.bbox die source code core warp thread ctx d).tick = s.tick := rfl

@[simp] theorem State.bbox_turn (s : State) (die source code core warp thread ctx : Nat) (d : List Word) : (s.bbox die source code core warp thread ctx d).turn = s.turn := rfl

@[simp] theorem State.bbox_nextId (s : State) (die source code core warp thread ctx : Nat) (d : List Word) : (s.bbox die source code core warp thread ctx d).nextId = s.nextId := rfl

@[simp] theorem State.bbox_issue (s : State) (die source code core warp thread ctx : Nat) (d : List Word) : (s.bbox die source code core warp thread ctx d).issue = s.issue := rfl

@[simp] theorem State.bbox_parked (s : State) (die source code core warp thread ctx : Nat) (d : List Word) : (s.bbox die source code core warp thread ctx d).parked = s.parked := rfl

@[simp] theorem State.bbox_burst (s : State) (die source code core warp thread ctx : Nat) (d : List Word) : (s.bbox die source code core warp thread ctx d).burst = s.burst := rfl

/-! ### interrupt -/

@[simp] theorem State.interrupt_mem (s : State) : (s.interrupt).mem = s.mem := rfl

@[simp] theorem State.interrupt_scratch (s : State) : (s.interrupt).scratch = s.scratch := rfl

@[simp] theorem State.interrupt_ws (s : State) : (s.interrupt).ws = s.ws := rfl

@[simp] theorem State.interrupt_slot (s : State) : (s.interrupt).slot = s.slot := rfl

@[simp] theorem State.interrupt_clock (s : State) : (s.interrupt).clock = s.clock := rfl

@[simp] theorem State.interrupt_timeBase (s : State) : (s.interrupt).timeBase = s.timeBase := rfl

@[simp] theorem State.interrupt_regions (s : State) : (s.interrupt).regions = s.regions := rfl

@[simp] theorem State.interrupt_secure (s : State) : (s.interrupt).secure = s.secure := rfl

@[simp] theorem State.interrupt_part (s : State) : (s.interrupt).part = s.part := rfl

@[simp] theorem State.interrupt_released (s : State) : (s.interrupt).released = s.released := rfl

@[simp] theorem State.interrupt_ctxs (s : State) : (s.interrupt).ctxs = s.ctxs := rfl

@[simp] theorem State.interrupt_queues (s : State) : (s.interrupt).queues = s.queues := rfl

@[simp] theorem State.interrupt_launches (s : State) : (s.interrupt).launches = s.launches := rfl

@[simp] theorem State.interrupt_blocks (s : State) : (s.interrupt).blocks = s.blocks := rfl

@[simp] theorem State.interrupt_warps (s : State) : (s.interrupt).warps = s.warps := rfl

@[simp] theorem State.interrupt_cores (s : State) : (s.interrupt).cores = s.cores := rfl

@[simp] theorem State.interrupt_lanes (s : State) : (s.interrupt).lanes = s.lanes := rfl

@[simp] theorem State.interrupt_rr (s : State) : (s.interrupt).rr = s.rr := rfl

@[simp] theorem State.interrupt_dies (s : State) : (s.interrupt).dies = s.dies := rfl

@[simp] theorem State.interrupt_loads (s : State) : (s.interrupt).loads = s.loads := rfl

@[simp] theorem State.interrupt_cmds (s : State) : (s.interrupt).cmds = s.cmds := rfl

@[simp] theorem State.interrupt_ordq (s : State) : (s.interrupt).ordq = s.ordq := rfl

@[simp] theorem State.interrupt_ordSeq (s : State) : (s.interrupt).ordSeq = s.ordSeq := rfl

@[simp] theorem State.interrupt_doomed (s : State) : (s.interrupt).doomed = s.doomed := rfl

@[simp] theorem State.interrupt_cells (s : State) : (s.interrupt).cells = s.cells := rfl

@[simp] theorem State.interrupt_vers (s : State) : (s.interrupt).vers = s.vers := rfl

@[simp] theorem State.interrupt_nextVer (s : State) : (s.interrupt).nextVer = s.nextVer := rfl

@[simp] theorem State.interrupt_fences (s : State) : (s.interrupt).fences = s.fences := rfl

@[simp] theorem State.interrupt_peerResv (s : State) : (s.interrupt).peerResv = s.peerResv := rfl

@[simp] theorem State.interrupt_bad (s : State) : (s.interrupt).bad = s.bad := rfl

@[simp] theorem State.interrupt_trellis (s : State) : (s.interrupt).trellis = s.trellis := rfl

@[simp] theorem State.interrupt_saved (s : State) : (s.interrupt).saved = s.saved := rfl

@[simp] theorem State.interrupt_agenda (s : State) : (s.interrupt).agenda = s.agenda := rfl

@[simp] theorem State.interrupt_tick (s : State) : (s.interrupt).tick = s.tick := rfl

@[simp] theorem State.interrupt_turn (s : State) : (s.interrupt).turn = s.turn := rfl

@[simp] theorem State.interrupt_nextId (s : State) : (s.interrupt).nextId = s.nextId := rfl

@[simp] theorem State.interrupt_issue (s : State) : (s.interrupt).issue = s.issue := rfl

@[simp] theorem State.interrupt_parked (s : State) : (s.interrupt).parked = s.parked := rfl

@[simp] theorem State.interrupt_burst (s : State) : (s.interrupt).burst = s.burst := rfl

/-! ### discardL1 -/

@[simp] theorem State.discardL1_mem (s : State) (k : Nat) : (s.discardL1 k).mem = s.mem := rfl

@[simp] theorem State.discardL1_scratch (s : State) (k : Nat) : (s.discardL1 k).scratch = s.scratch := rfl

@[simp] theorem State.discardL1_ws (s : State) (k : Nat) : (s.discardL1 k).ws = s.ws := rfl

@[simp] theorem State.discardL1_slot (s : State) (k : Nat) : (s.discardL1 k).slot = s.slot := rfl

@[simp] theorem State.discardL1_clock (s : State) (k : Nat) : (s.discardL1 k).clock = s.clock := rfl

@[simp] theorem State.discardL1_timeBase (s : State) (k : Nat) : (s.discardL1 k).timeBase = s.timeBase := rfl

@[simp] theorem State.discardL1_regions (s : State) (k : Nat) : (s.discardL1 k).regions = s.regions := rfl

@[simp] theorem State.discardL1_secure (s : State) (k : Nat) : (s.discardL1 k).secure = s.secure := rfl

@[simp] theorem State.discardL1_part (s : State) (k : Nat) : (s.discardL1 k).part = s.part := rfl

@[simp] theorem State.discardL1_released (s : State) (k : Nat) : (s.discardL1 k).released = s.released := rfl

@[simp] theorem State.discardL1_ctxs (s : State) (k : Nat) : (s.discardL1 k).ctxs = s.ctxs := rfl

@[simp] theorem State.discardL1_queues (s : State) (k : Nat) : (s.discardL1 k).queues = s.queues := rfl

@[simp] theorem State.discardL1_launches (s : State) (k : Nat) : (s.discardL1 k).launches = s.launches := rfl

@[simp] theorem State.discardL1_blocks (s : State) (k : Nat) : (s.discardL1 k).blocks = s.blocks := rfl

@[simp] theorem State.discardL1_warps (s : State) (k : Nat) : (s.discardL1 k).warps = s.warps := rfl

@[simp] theorem State.discardL1_lanes (s : State) (k : Nat) : (s.discardL1 k).lanes = s.lanes := rfl

@[simp] theorem State.discardL1_rr (s : State) (k : Nat) : (s.discardL1 k).rr = s.rr := rfl

@[simp] theorem State.discardL1_dies (s : State) (k : Nat) : (s.discardL1 k).dies = s.dies := rfl

@[simp] theorem State.discardL1_loads (s : State) (k : Nat) : (s.discardL1 k).loads = s.loads := rfl

@[simp] theorem State.discardL1_cmds (s : State) (k : Nat) : (s.discardL1 k).cmds = s.cmds := rfl

@[simp] theorem State.discardL1_ordq (s : State) (k : Nat) : (s.discardL1 k).ordq = s.ordq := rfl

@[simp] theorem State.discardL1_ordSeq (s : State) (k : Nat) : (s.discardL1 k).ordSeq = s.ordSeq := rfl

@[simp] theorem State.discardL1_doomed (s : State) (k : Nat) : (s.discardL1 k).doomed = s.doomed := rfl

@[simp] theorem State.discardL1_cells (s : State) (k : Nat) : (s.discardL1 k).cells = s.cells := rfl

@[simp] theorem State.discardL1_vers (s : State) (k : Nat) : (s.discardL1 k).vers = s.vers := rfl

@[simp] theorem State.discardL1_nextVer (s : State) (k : Nat) : (s.discardL1 k).nextVer = s.nextVer := rfl

@[simp] theorem State.discardL1_fences (s : State) (k : Nat) : (s.discardL1 k).fences = s.fences := rfl

@[simp] theorem State.discardL1_peerResv (s : State) (k : Nat) : (s.discardL1 k).peerResv = s.peerResv := rfl

@[simp] theorem State.discardL1_bad (s : State) (k : Nat) : (s.discardL1 k).bad = s.bad := rfl

@[simp] theorem State.discardL1_trellis (s : State) (k : Nat) : (s.discardL1 k).trellis = s.trellis := rfl

@[simp] theorem State.discardL1_saved (s : State) (k : Nat) : (s.discardL1 k).saved = s.saved := rfl

@[simp] theorem State.discardL1_host (s : State) (k : Nat) : (s.discardL1 k).host = s.host := rfl

@[simp] theorem State.discardL1_agenda (s : State) (k : Nat) : (s.discardL1 k).agenda = s.agenda := rfl

@[simp] theorem State.discardL1_tick (s : State) (k : Nat) : (s.discardL1 k).tick = s.tick := rfl

@[simp] theorem State.discardL1_turn (s : State) (k : Nat) : (s.discardL1 k).turn = s.turn := rfl

@[simp] theorem State.discardL1_nextId (s : State) (k : Nat) : (s.discardL1 k).nextId = s.nextId := rfl

@[simp] theorem State.discardL1_issue (s : State) (k : Nat) : (s.discardL1 k).issue = s.issue := rfl

@[simp] theorem State.discardL1_parked (s : State) (k : Nat) : (s.discardL1 k).parked = s.parked := rfl

@[simp] theorem State.discardL1_burst (s : State) (k : Nat) : (s.discardL1 k).burst = s.burst := rfl

@[simp] theorem State.setWarp_warps (s : State) (k : Nat) (x : Warp) : (s.setWarp k x).warps = s.warps.put k x := rfl

@[simp] theorem State.updWarp_warps (s : State) (k : Nat) (f : Warp → Warp) :
    (s.updWarp k f).warps = s.warps.upd k f := rfl

@[simp] theorem State.draw_tick (s : State) : s.draw.tick = s.tick + 1 := rfl

end Sys2Proof.Machine
end

