-- ==== Sys2Proof/Tests/Slice0.lean ====
section
/-! SUPPORT. The model's own tests: words written out from the tables of 04_encoding.md and the instruction
references, ill-formed terms, single steps with results worked out by hand from the rules named beside them, and
a witness for the hypotheses of each statement of Obligations.lean. -/

namespace Sys2Proof.Tests

open Sys2Proof Sys2Proof.Machine

set_option Elab.async false

/-! ### Words (R46–R52, R68–R79, and the layouts of the instruction references) -/

def allWords (pos : Pos) (l : List (Word × Instr)) : Bool := l.all (fun x => decode pos x.1 == .ok x.2)

def words_page0a : List (Word × Instr) := [
  (0x0024018020100028, .add (.on 2) (.v 3) (.v 1) (.v 2) .i32 true),
  (0x007E82A0DCE00030, .sub (.off 7) (.s 5) (.s 6) (.int 28) .i64 false),
  (0x0080018020100098, .mul .always (.v 3) (.v 1) (.v 2) .i16x4 true),
  (0x00C0018020100070, .mulh .always (.v 3) (.v 1) (.v 2) .n64),
  (0x01007F8020100648, .mad .always (.v 255) (.v 1) (.v 2) (.v 3) .n8 true),
  (0x0140020020100620, .madw .always (.v 4) (.v 1) (.v 2) (.v 3) true false),
  (0x0180020020100060, .div .always (.v 4) (.v 1) (.v 2) .n32 false),
  (0x01C0020020100000, .rem .always (.v 4) (.v 1) (.v 2) .i8),
  (0x0200020020100050, .min .always (.v 4) (.v 1) (.v 2) .n16)]

theorem test_words_page0a : allWords .root words_page0a = true := by decide

def words_page0b : List (Word × Instr) := [
  (0x0240020020100080, .max .always (.v 4) (.v 1) (.v 2) .i32x2),
  (0x02800200200000A8, .abs .always (.v 4) (.v 1) .i8x8 true),
  (0x02C0020020000030, .neg .always (.v 4) (.v 1) .i64 false),
  (0x0300020020174660, .lea .always (.v 4) (.v 1) (.v 2) (.int 35) .n32),
  (0x084002003FFFFF9C, .addImm .always (.v 4) (.v 1) .n32 (-100)),
  (0x0980008040000064, .subRevImm .always (.v 1) (.v 2) .i64 100),
  (0x0A000200200003E8, .mulImm .always (.v 4) (.v 1) .i32 1000),
  (0x0BC00200200003E8, .minImm .always (.v 4) (.v 1) .n64 1000),
  (0x0C800200200003E8, .maxImm .always (.v 4) (.v 1) .i64 1000),
  (0x0D00020030000000, .leaImm .always (.v 4) (.v 1) 0x10000000)]

theorem test_words_page0b : allWords .root words_page0b = true := by decide

def words_page1a : List (Word × Instr) := [
  (0x1000020020100070, .and .always (.v 4) (.v 1) (.v 2) (.i .n64)),
  (0x1040020020100110, .or .always (.v 4) (.v 1) (.v 2) (.f .f32)),
  (0x10800200201000A0, .xor .always (.v 4) (.v 1) (.v 2) (.i .i8x8)),
  (0x10C002003E080100, .andn .always (.v 4) (.v 1) (.fp 1) (.f .f64)),
  (0x1100020020100794, .truth .always (.v 4) (.v 1) (.v 2) (.v 3) 0xCA),
  (0x1140020020100040, .shl .always (.v 4) (.v 1) (.v 2) .n8),
  (0x1180020020100050, .shr .always (.v 4) (.v 1) (.v 2) .n16),
  (0x11C002003DF80020, .sar .always (.v 4) (.v 1) (.int 63) .i32),
  (0x1200020020100070, .rotl .always (.v 4) (.v 1) (.v 2) .n64),
  (0x1240020020100660, .fshl .always (.v 4) (.v 1) (.v 2) (.v 3) .n32),
  (0x1280020020100620, .bfx .always (.v 4) (.v 1) (.v 2) (.v 3) .i32),
  (0x12C0020020100650, .bfi .always (.v 4) (.v 1) (.v 2) (.v 3) .n16),
  (0x1300020020000030, .popc .always (.v 4) (.v 1) .i64),
  (0x13400200200000A0, .clz .always (.v 4) (.v 1) .i8x8)]

theorem test_words_page1a : allWords .root words_page1a = true := by decide

def words_page1b : List (Word × Instr) := [
  (0x1380020020000040, .ctz .always (.v 4) (.v 1) .n8),
  (0x13C0020020000060, .brev .always (.v 4) (.v 1) .n32),
  (0x140003001FFFFFFF, .movi .always (.v 6) 0x1FFFFFFF),
  (0x14400300DEADBEEF, .movhi .always (.v 6) 0xDEADBEEF),
  (0x14817F8080000000, .moviW .always (.s 511) 0x80000000),
  (0x14C0020020000140, .mov .always (.v 4) (.v 1) (.f .bf16x4)),
  (0x15000200201000C0, .sel .always (.v 4) (.v 1) (.v 2) 3),
  (0x1600020020000005, .andImm .always (.v 4) (.v 1) 5),
  (0x1640020020000005, .orImm .always (.v 4) (.v 1) 5),
  (0x1680020020000005, .xorImm .always (.v 4) (.v 1) 5),
  (0x16C0020020000005, .andnImm .always (.v 4) (.v 1) 5),
  (0x1700020020000005, .shlImm .always (.v 4) (.v 1) 5),
  (0x1740020020000005, .shrImm .always (.v 4) (.v 1) 5),
  (0x1780020020000005, .sarImm .always (.v 4) (.v 1) 5),
  (0x17C0020020000005, .rotlImm .always (.v 4) (.v 1) 5)]

theorem test_words_page1b : allWords .root words_page1b = true := by decide

def words_page2 : List (Word × Instr) := [
  (0x2000248020100000, .cmp .always .tcl (.v 1) (.v 2) .n8),
  (0x2000890020100000, .fcmp .always .lt (.v 1) (.v 2) false false),
  (0x2000830020100001, .fcmp .always .un (.v 1) (.v 2) true true),
  (0x204032803FFFFFFF, .cmpImm .always .ge (.v 1) .n32 0x1FFFFFFF),
  (0x20C000000001D196, .pcomb .always 0x96 1 2 7),
  (0x2100000000000008, .pdrop .always 8),
  (0x2140020000000000, .pget .always (.v 4)),
  (0x2180000080000000, .pset .always (.v 4)),
  (0x21C0038000000000, .ballot .always (.v 7) 0 false),
  (0x21E2838000000160, .ballot (.on 1) (.s 7) 5 true),
  (0x2201160120000000, .first .always 300 (.v 9)),
  (0x224004F540000000, .srd .always 9 (.int 42)),
  (0x2281878120000000, .swr .always .rsp (.v 9)),
  (0x2281B78120000000, .swr .always (.h 15) (.v 9)),
  (0x2380000000000000, .nop),
  (0x23C0000000000000, .yield)]

theorem test_words_page2 : allWords .root words_page2 = true := by decide

def words_page3 : List (Word × Instr) := [
  (0x3000008040180008, .fadd .always (.v 1) ⟨.v 2, false, false⟩ ⟨.v 3, true, false⟩ .f64 .rne false),
  (0x324000805E900135, .fmul .always (.v 1) ⟨.v 2, true, true⟩ ⟨.fp 18, false, true⟩ .f32 .rna true),
  (0x34800080401808DA, .fma .always (.v 1) ⟨.v 2, false, true⟩ ⟨.v 3, true, false⟩ (.v 4) true .f32x2 .rup false),
  (0x36C0008040180060, .fmin .always (.v 1) ⟨.v 2, true, false⟩ ⟨.v 3, false, false⟩ .f16x4 true false),
  (0x3700008040180104, .fmax .always (.v 1) ⟨.v 2, false, false⟩ ⟨.v 3, false, true⟩ .bf16x4 false false),
  (0x3800008040000040, .frnd .always (.v 1) ⟨.v 2, false, false⟩ .f64 .rtz false),
  (0x3A4000805CE80080, .fscale .always (.v 1) ⟨.v 2, false, false⟩ (.int 29) .f32 .rdn false),
  (0x3C80008040000010, .fclass .always (.v 1) ⟨.v 2, false, true⟩ .f32x2 false),
  (0x3EC0008040000021, .fexpo .always (.v 1) ⟨.v 2, true, false⟩ .f16x4 true)]

theorem test_words_page3 : allWords .root words_page3 = true := by decide

def words_page4 : List (Word × Instr) := [
  (0x41400280402F4240, .fcvt .always (.v 5) (.v 2) (.v 5) (.int 33) .e4m3 .f32x2 .rne false false),
  (0x41C0030060301240, .fcvt .always (.v 6) (.v 3) (.v 6) (.v 9) .e2m1 .f32x2 .rne false false),
  (0x4280038100074006, .cvti .always (.v 7) (.v 8) (.v 0) (.int 32) .i32 .f64 .rtz true false),
  (0x46C0038100074151, .cvtf .always (.v 7) (.v 8) (.v 0) (.int 32) .f16x4 .i8x8 .rna false true),
  (0x480000804000000D, .rcp .always (.v 1) (.v 2) .f64 false .rup true),
  (0x4840008040000060, .rsq .always (.v 1) (.v 2) .f32 true .rne false),
  (0x488000804000008C, .sqrt .always (.v 1) (.v 2) .f32x2 false .rup false),
  (0x490000804000010C, .exp2 .always (.v 1) (.v 2) .bf16x4 false .rup false),
  (0x4940008040000020, .log2 .always (.v 1) (.v 2) .f64 true .rne false),
  (0x498000804000004D, .sin .always (.v 1) (.v 2) .f32 false .rup true),
  (0x49C00080400000A0, .cos .always (.v 1) (.v 2) .f32x2 true .rne false),
  (0x4A000080400000CC, .tanh .always (.v 1) (.v 2) .f16x4 false .rup false),
  (0x4A40008040000121, .sigm .always (.v 1) (.v 2) .bf16x4 true .rne true),
  (0x4A8000804000000C, .erf .always (.v 1) (.v 2) .f64 false .rup false),
  (0x48C0008040180048, .divF .always (.v 1) (.v 2) (.v 3) .f32 false .rdn false)]

theorem test_words_page4 : allWords .root words_page4 = true := by decide

def words_page5 : List (Word × Instr) := [
  (0x50007120703FFFF8, .mld .always 9 false (.s 3) 0x3FFFF8),
  (0x5040680098000010, .mst .always 8 true (.v 4) 16),
  (0x508029787E000048, .mset .always 1 (.fp 3) (.fp 0) ⟨false, 2, 2⟩ false),
  (0x50C0290C800001A0, .mmov .always 1 2 ⟨true, 5, 0⟩ false),
  (0x5100290C80000030, .mtr .always 1 2 ⟨false, 1, 4⟩ false),
  (0x5140290C83B74C31, .mmul .always 1 2 3 6 ⟨false, 1, 4⟩ true),
  (0x5180290C83B74230, .mmad .always 1 2 3 1 ⟨false, 1, 4⟩ false),
  (0x51C0290C83B00032, .mmv .always 1 2 3 true ⟨false, 1, 4⟩ false),
  (0x5200290C80000048, .mchol .always 1 2 ⟨false, 2, 2⟩ false),
  (0x5240290C80480048, .mlup .always 1 2 9 ⟨false, 2, 2⟩ false),
  (0x5280290C83B01240, .mlus .always 1 2 3 (.v 9) ⟨false, 2, 0⟩ false),
  (0x52C0290C83B74440, .mtrs .always 1 2 3 2 ⟨false, 2, 0⟩ false),
  (0x5300048C80000048, .mdet .always 9 2 ⟨false, 2, 2⟩ false)]

theorem test_words_page5 : allWords .root words_page5 = true := by decide

def words_page6a : List (Word × Instr) := [
  (0x600002809ABFFFF0, .ldN 5 ⟨.always, .v 4, .d, .acq, .die, 0x3FFFF0⟩),
  (0x604002A080000001, .ldI 5 ⟨.always, .s 4, .b, .plain, .core, 1⟩),
  (0x60A0828095400004, .st (.s 5) ⟨.on 0, .v 4, .w, .rel, .sys, 4⟩),
  (0x60C0028088000000, .ldSpN 5 ⟨.always, .v 4, .h, .plain, .core, 0⟩),
  (0x6100028088000000, .ldSpI 5 ⟨.always, .v 4, .h, .plain, .core, 0⟩),
  (0x6141CF8098000000, .stSp (.int 31) ⟨.always, .v 4, .d, .plain, .core, 0⟩),
  (0x6180028090000000, .ldWsN 5 ⟨.always, .v 4, .w, .plain, .core, 0⟩),
  (0x61C0028090000000, .ldWsI 5 ⟨.always, .v 4, .w, .plain, .core, 0⟩),
  (0x6200028090000000, .ldSpPeekN 5 ⟨.always, .v 4, .w, .plain, .core, 0⟩),
  (0x6240028098000000, .ldSpPeekI 5 ⟨.always, .v 4, .d, .plain, .core, 0⟩)]

theorem test_words_page6a : allWords .root words_page6a = true := by decide

def words_page6b : List (Word × Instr) := [
  (0x6280028098009C00, .ldxN 5 ⟨.always, .v 4, .v 9, 3, .d⟩),
  (0x62C002A088009400, .ldxI 5 ⟨.always, .s 4, .v 9, 1, .h⟩),
  (0x6300028090109800, .stx (.v 5) ⟨.always, .v 4, .s 9, 2, .w⟩),
  (0x6340028080009000, .ldxSpN 5 ⟨.always, .v 4, .v 9, 0, .b⟩),
  (0x6380028080009000, .ldxSpI 5 ⟨.always, .v 4, .v 9, 0, .b⟩),
  (0x63C1DF8098009C00, .stxSp (.int 63) ⟨.always, .v 4, .v 9, 3, .d⟩),
  (0x64017A209B400008, .ldu 500 ⟨.always, .s 4, .d, .acq, .sys, 8⟩),
  (0x6440000088000040, .pref .always (.v 4) true 64),
  (0x648002809A400008, .lres 5 ⟨.always, .v 4, .d, .acq, .span, 8⟩),
  (0x64C003A05D08014C, .scond .always 7 (.s 2) (.int 33) false .rel .pkg)]

theorem test_words_page6b : allWords .root words_page6b = true := by decide

def words_atomicsa : List (Word × Instr) := [
  (0x6600002040180182, .atomAdd ⟨.always, none, .s 2, .v 3, true, .plain, .core⟩),
  (0x664003A040180124, .atomMinI ⟨.always, (some 7), .s 2, .v 3, false, .acq, .span⟩),
  (0x668003A0401801C8, .atomMinN ⟨.always, (some 7), .s 2, .v 3, true, .rel, .die⟩),
  (0x66C000204018016E, .atomMaxI ⟨.always, none, .s 2, .v 3, false, .acqrel, .pkg⟩),
  (0x670003A040180180, .atomMaxN ⟨.always, (some 7), .s 2, .v 3, true, .plain, .core⟩),
  (0x674003A040180134, .atomAnd ⟨.always, (some 7), .s 2, .v 3, false, .acq, .sys⟩),
  (0x67800020401801C2, .atomOr ⟨.always, none, .s 2, .v 3, true, .rel, .core⟩),
  (0x67C003A040180164, .atomXor ⟨.always, (some 7), .s 2, .v 3, false, .acqrel, .span⟩),
  (0x680003A040180180, .atomXchg ⟨.always, (some 7), .s 2, .v 3, true, .plain, .core⟩),
  (0x6840002040180B2E, .atomCas ⟨.always, none, .s 2, .v 3, false, .acq, .pkg⟩ (.v 5)),
  (0x688003A0401801D0, .atomIncwrap ⟨.always, (some 7), .s 2, .v 3, true, .rel, .dom⟩),
  (0x6A0003A040180124, .atomSpAdd ⟨.always, (some 7), .s 2, .v 3, false, .acq, .span⟩),
  (0x6A4003A0401801C8, .atomSpMinI ⟨.always, (some 7), .s 2, .v 3, true, .rel, .die⟩),
  (0x6A8000204018016E, .atomSpMinN ⟨.always, none, .s 2, .v 3, false, .acqrel, .pkg⟩),
  (0x6AC003A040180180, .atomSpMaxI ⟨.always, (some 7), .s 2, .v 3, true, .plain, .core⟩),
  (0x6B0003A040180134, .atomSpMaxN ⟨.always, (some 7), .s 2, .v 3, false, .acq, .sys⟩)]

theorem test_words_atomicsa : allWords .root words_atomicsa = true := by decide

def words_atomicsb : List (Word × Instr) := [
  (0x6B400020401801C2, .atomSpAnd ⟨.always, none, .s 2, .v 3, true, .rel, .core⟩),
  (0x6B8003A040180164, .atomSpOr ⟨.always, (some 7), .s 2, .v 3, false, .acqrel, .span⟩),
  (0x6BC003A040180180, .atomSpXor ⟨.always, (some 7), .s 2, .v 3, true, .plain, .core⟩),
  (0x6C0000204018012E, .atomSpXchg ⟨.always, none, .s 2, .v 3, false, .acq, .pkg⟩),
  (0x6C4003A040180BD0, .atomSpCas ⟨.always, (some 7), .s 2, .v 3, true, .rel, .dom⟩ (.v 5)),
  (0x6C8003A040180174, .atomSpIncwrap ⟨.always, (some 7), .s 2, .v 3, false, .acqrel, .sys⟩),
  (0x6D00002040180182, .fatomAdd ⟨.always, none, .s 2, .v 3, true, .plain, .core⟩),
  (0x6D4003A040180124, .fatomMin ⟨.always, (some 7), .s 2, .v 3, false, .acq, .span⟩),
  (0x6D8003A0401801C8, .fatomMax ⟨.always, (some 7), .s 2, .v 3, true, .rel, .die⟩),
  (0x6DC0000080280182, .fatomAddOrd .always (.v 4) (.v 5) true),
  (0x6E0003A0401801C8, .fatomSpAdd ⟨.always, (some 7), .s 2, .v 3, true, .rel, .die⟩),
  (0x6E4000204018016E, .fatomSpMin ⟨.always, none, .s 2, .v 3, false, .acqrel, .pkg⟩),
  (0x6E8003A040180180, .fatomSpMax ⟨.always, (some 7), .s 2, .v 3, true, .plain, .core⟩),
  (0x6F00000094800004, .ordf ⟨.always, .v 4, .w, .rel, .die, 4⟩),
  (0x6F40000007000000, .fence .always .acqrel .dom),
  (0x6F80038080280DDC, .waita .always 7 (.v 4) (.v 5) (.v 6) true .ge true true)]

theorem test_words_atomicsb : allWords .root words_atomicsb = true := by decide

def words_page7 : List (Word × Instr) := [
  (0x700001DE60000000, .xcfg .always 3 499),
  (0x7040038100000100, .xmov .always 7 (.v 8) 2),
  (0x7080038100481580, .lread .always 7 8 (.v 9) (.v 10) 3),
  (0x70C003811A008020, .scan .always 7 (.v 8) (some 5) .rne true (.i .i32) .add),
  (0x70C0038100030114, .scan .always 7 (.v 8) none .rup false (.f .f32) .max),
  (0x710083810000007A, .redw .always (.s 7) (.v 8) .rne false (.i .n64) .xor),
  (0x72000000000000FF, .barArrive .always 255),
  (0x7240000000000001, .barWait .always 1),
  (0x7280000000000003, .barSync .always 3),
  (0x72C0000120000104, .barx .always 4 (.v 9) true),
  (0x740000000000000F, .jset .always 15),
  (0x74400020E0000002, .jsetUniform .always 2 7),
  (0x7480000000000002, .join .always 2),
  (0x74F6000000000002, .jarr (.off 3) 2),
  (0x7500848000000021, .jqry .always (.s 9) 1 2)]

theorem test_words_page7 : allWords .root words_page7 = true := by decide

def words_page8 : List (Word × Instr) := [
  (0x800003811DF80000, .own .always 7 (.v 8) (.int 63)),
  (0x804000741D080000, .ringget .always 0 (.int 32) (.int 33)),
  (0x80800074000001E0, .ringput .always 15 (.int 32)),
  (0x8200022148600A90, .mxmac .always (.v 4) 10 12 (.v 5) 1 2),
  (0x8241D1DFC8020BFC, .mxsmac .always (.int 35) 510 0 (.s 5) 3 15 true),
  (0x8280020000000138, .mxzero .always (.v 4) 2 7),
  (0x82C0020000000120, .mxwait .always 4 9),
  (0x8300000080000000, .mxtokGive .always (.v 4)),
  (0x8340000000000000, .mxtokTake .always)]

theorem test_words_page8 : allWords .root words_page8 = true := by decide

def words_page9 : List (Word × Instr) := [
  (0x90000080401A0800, .vswAdd ⟨.always, .v 1, .v 2, .v 3, .s 4, false⟩),
  (0x90400080401A0900, .vswMul ⟨.always, .v 1, .v 2, .v 3, .s 4, true⟩),
  (0x90800080401A0800, .vswFma ⟨.always, .v 1, .v 2, .v 3, .s 4, false⟩),
  (0x90C00080401A0900, .vswMax ⟨.always, .v 1, .v 2, .v 3, .s 4, true⟩),
  (0x91000080401A0800, .vswMin ⟨.always, .v 1, .v 2, .v 3, .s 4, false⟩),
  (0x9140008040020900, .vswExp ⟨.always, .v 1, .v 2, .v 0, .s 4, true⟩),
  (0x9180008040020800, .vswCvt ⟨.always, .v 1, .v 2, .v 0, .s 4, false⟩),
  (0x91C0008040020900, .vswScl ⟨.always, .v 1, .v 2, .v 0, .s 4, true⟩),
  (0x9200008040020800, .vswRsum ⟨.always, .v 1, .v 2, .v 0, .s 4, false⟩),
  (0x9240008040020900, .vswRmax ⟨.always, .v 1, .v 2, .v 0, .s 4, true⟩),
  (0x93C0000000000000, .vswait .always)]

theorem test_words_page9 : allWords .root words_page9 = true := by decide

def words_page10 : List (Word × Instr) := [
  (0xA0000080401F4BA0, .cpyIn ⟨.always, .v 1, .v 2, .v 3, .int 37, .sys⟩ true),
  (0xA0400080401A0A00, .cpyOut ⟨.always, .v 1, .v 2, .v 3, .s 5, .core⟩),
  (0xA0800080401A0A20, .cpyRows ⟨.always, .v 1, .v 2, .v 3, .s 5, .span⟩),
  (0xA0C00080401A0A40, .cpyFill ⟨.always, .v 1, .v 2, .v 3, .s 5, .die⟩),
  (0xA1000080401A0A60, .cpyWs ⟨.always, .v 1, .v 2, .v 3, .s 5, .pkg⟩)]

theorem test_words_page10 : allWords .root words_page10 = true := by decide

def words_page11 : List (Word × Instr) := [
  (0xB000000120000000, .tspawn .always (.v 9)),
  (0xB040002120000000, .tjob .always (.s 9)),
  (0xB080000000000000, .tdone .always),
  (0xB200020120500000, .tilereg .always 4 (.v 9) (.v 10)),
  (0xB240020120000000, .tileq .always 4 (.v 9)),
  (0xB28000013D080000, .tiledrop .always (.v 9) (.int 33)),
  (0xB400000000000002, .grow .always 2),
  (0xB440000000000004, .shed .always 4)]

theorem test_words_page11 : allWords .root words_page11 = true := by decide

def words_page12a : List (Word × Instr) := [
  (0xC0000080401F4800, .syscVersion ⟨.always, 1, .v 2, .v 3, .int 36⟩),
  (0xC0000080401F4802, .syscAlloc ⟨.always, 1, .v 2, .v 3, .int 36⟩),
  (0xC0000080401F4804, .syscFree ⟨.always, 1, .v 2, .v 3, .int 36⟩),
  (0xC0000080401F4806, .syscPrint ⟨.always, 1, .v 2, .v 3, .int 36⟩),
  (0xC0000080401F4808, .syscResolve ⟨.always, 1, .v 2, .v 3, .int 36⟩),
  (0xC0000080401F480A, .syscNotify ⟨.always, 1, .v 2, .v 3, .int 36⟩),
  (0xC0000080401F480C, .syscAbort ⟨.always, 1, .v 2, .v 3, .int 36⟩),
  (0xC0000080401F480E, .syscCapread ⟨.always, 1, .v 2, .v 3, .int 36⟩),
  (0xC0000080401F4810, .syscEscalate ⟨.always, 1, .v 2, .v 3, .int 36⟩)]

theorem test_words_page12a : allWords .root words_page12a = true := by decide

def words_page12b : List (Word × Instr) := [
  (0xC0000080401F49FE, .syscUnassigned 255 ⟨.always, 1, .v 2, .v 3, .int 36⟩),
  (0xC040038100480000, .trd .always 7 (.v 8) (.v 9)),
  (0xC080000100481400, .twr .always (.v 8) (.v 9) (.v 10)),
  (0xC0C0000000000000, .tret .always),
  (0xC10000000000009A, .bkpt .always 77),
  (0xC140000000000000, .ifence),
  (0xF0007F00983FFFF8, .ldq .always 254 (.v 4) 0x3FFFF8),
  (0xF040038100481440, .dot4 .always 7 (.v 8) (.v 9) (.v 10) false),
  (0xF0800000000000C8, .barw .always 200)]

theorem test_words_page12b : allWords .root words_page12b = true := by decide

def words_tests : List (Word × Instr) := [
  (0x200805E802000000, .testCmpReg .lt (.v 5) (.int 32) (.i .i32)),
  (0x201C050190000000, .testCmpReg .or (.v 5) (.v 6) (.f .f64)),
  (0x2048050002FFFF9C, .testCmpImm .lt (.v 5) .i32 0xFFFF9C),
  (0x2084000000000006, .testPred true 6)]

theorem test_words_tests : allWords .node words_tests = true := by decide

def words_leaves : List (Word × Instr) := [
  (0x0000000000000000, .leafNext),
  (0x1000000000600000, .leafJmp 24),
  (0x2024000000000000, .leafJmpi (.v 9)),
  (0x3003FFFFFFF80000, .leafCall 0xFFFFFFFE),
  (0x4410000000000000, .leafCalli (.s 4)),
  (0x5000000000000000, .leafRet),
  (0x6000000000000000, .leafExit),
  (0x700000000003FFC0, .leafTrap 4095)]

theorem test_words_leaves : allWords .leaf words_leaves = true := by decide


/-! ### What is no instruction (R85, R349–R361) -/

def rejects : List (Pos × Word × Bad) := [
  -- 0x00D is unallocated
  (.root, 0x0340000000000000, .illegal),
  -- MOVI at a node
  (.node, 0x1400030000000001, .illegal),
  -- a predicate test in an arc
  (.root, 0x2080000000000001, .illegal),
  -- float index 5 of FADD
  (.root, 0x3140008040180000, .illegal),
  -- a retired opcode
  (.root, 0xF0C0000000000000, .illegal),
  -- leaf kind 8
  (.leaf, 0x8000000000000000, .reserved),
  -- a guard with enable 0 and a depth
  (.root, 0x000A018020100020, .reserved),
  -- an inline integer as destination
  (.root, 0x0001C00020100020, .reserved),
  -- specifier 0x3E0
  (.root, 0x000001FC00100020, .reserved),
  -- special register 0x313
  (.root, 0x000001E260100020, .reserved),
  -- type code 0x0B
  (.root, 0x00000180201000B0, .reserved),
  -- a source c of ADD
  (.root, 0x0000018020100820, .reserved),
  -- .nf of ADD
  (.root, 0x0000018020100021, .reserved),
  -- rounding mode 5
  (.root, 0x3000008040180140, .reserved),
  -- a scope without an order
  (.root, 0x6000028098400000, .reserved),
  -- scope 6
  (.root, 0x600002809B800000, .reserved),
  -- a load with a release
  (.root, 0x600002809C000000, .reserved),
  -- bits below the scale of LDX
  (.root, 0x6280028098009C01, .reserved),
  -- condition 10
  (.node, 0x2028050182000000, .reserved),
  -- no first register of a window
  (.root, 0x508020F87E000048, .reserved),
  -- K = 7
  (.root, 0x5140290C83B74E30, .reserved),
  -- bit 8 of BAR.sync
  (.root, 0x7280000000000103, .reserved),
  -- VSWAIT with a guard
  (.root, 0x93E0000000000000, .reserved),
  -- a collective off the root arc
  (.arc, 0x21C0038000000000, .reserved)]

/-- Unallocated opcodes, wrong positions, and fields that hold what they may not. -/
theorem test_rejected : rejects.all (fun x => decode x.1 x.2.1 == .error x.2.2) = true := by decide

/-! ### Ill-formed terms, one for each check of WellFormed.lean -/

/-- Pages 0 and 1: FP constants, destinations, types. -/
theorem test_wf_pages_0_1 : ([
    .add .always (.v 1) (.fp 3) (.v 2) .i32 false, .add .always (.s 1) (.v 2) (.s 3) .i32 false,
    .add .always (.int 4) (.v 2) (.v 3) .i32 false, .mad .always (.v 1) (.v 2) (.v 3) (.fp 0) .i32 false,
    .abs .always (.v 1) (.v 2) .n32 false, .neg .always (.v 1) (.v 2) .n8 false,
    .lea .always (.v 1) (.v 2) (.v 3) (.int 33) .i32x2, .addImm .always (.v 1) (.fp 2) .i32 1,
    .and .always (.v 1) (.fp 3) (.v 2) (.i .i32), .xor .always (.v 1) (.v 2) (.v 3) (.f .e4m3),
    .truth .always (.v 1) (.v 2) (.v 3) (.fp 1) 0, .shl .always (.v 1) (.fp 1) (.v 2) .i32,
    .bfx .always (.v 1) (.v 2) (.v 3) (.v 4) .i16x4, .popc .always (.s 1) (.v 2) .i32,
    .andImm .always (.v 1) (.fp 2) 1, .movi .always (.sp .rsp) 1, .mov .always (.v 1) (.fp 3) (.i .n64),
    .sel .always (.v 1) (.fp 3) (.v 2) 0] : List Instr).all (fun i => !i.wf) = true := by decide

/-- Page 2 and the leaves. -/
theorem test_wf_page_2_and_leaves : ([
    .cmp .always .eq (.v 1) (.v 2) .i16x4, .cmpImm .always .eq (.fp 1) .i32 0,
    .fcmp .always .tst (.v 1) (.v 2) false false, .testCmpReg .eq (.v 1) (.v 2) (.i .i8x8),
    .testCmpReg .tcl (.v 1) (.v 2) (.f .f32), .testCmpReg .eq (.v 1) (.v 2) (.f .f32x2),
    .testCmpImm .eq (.v 1) .i32x2 0, .pdrop .always 0, .pdrop .always 9, .pget .always (.s 1),
    .pset .always (.fp 0), .ballot .always (.int 3) 0 false, .swr .always .tid (.v 1),
    .swr .always .rsp (.fp 0), .leafJmpi (.int 3), .leafCalli (.sp .rsp)] : List Instr).all (fun i => !i.wf)
      = true := by decide

/-- Pages 3 to 5. -/
theorem test_wf_pages_3_to_5 : ([
    .fadd .always (.s 1) ⟨.v 1, false, false⟩ ⟨.v 2, false, false⟩ .f32 .rne false,
    .fclass .always (.v 1) ⟨.v 2, false, false⟩ .e5m2 false,
    .fcvt .always (.v 1) (.fp 3) (.v 0) (.int 32) .f32 .e4m3 .rne false false,
    .fcvt .always (.v 1) (.v 2) (.v 3) (.int 32) .f32 .f32x2 .rne false false,
    .fcvt .always (.v 1) (.v 2) (.v 0) (.fp 0) .f32 .f32 .rne false false,
    .cvti .always (.v 1) (.v 2) (.fp 0) (.int 32) .i8x8 .f32 .rne false false,
    .cvtf .always (.v 1) (.fp 0) (.v 0) (.int 32) .f32 .i32 .rne false false,
    .rcp .always (.v 1) (.v 2) .f32 true .rtz false, .divF .always (.v 1) (.v 2) (.v 3) .e4m3 false .rne false,
    .mld .always 10 false (.v 1) 0, .mst .always 9 true (.v 1) 0, .mld .always 0 false (.int 3) 0,
    .mset .always 0 (.v 1) (.v 2) ⟨false, 6, 0⟩ false, .mmov .always 0 1 ⟨false, 0, 7⟩ false,
    .mmul .always 0 1 2 0 ⟨false, 1, 1⟩ false, .mmad .always 0 1 2 7 ⟨false, 1, 1⟩ false,
    .mchol .always 0 1 ⟨false, 1, 2⟩ false, .mlus .always 0 1 2 (.int 3) ⟨false, 1, 1⟩ false,
    .mtrs .always 0 1 2 3 ⟨false, 1, 1⟩ false, .mdet .always 1 0 ⟨false, 2, 1⟩ false] : List Instr).all
      (fun i => !i.wf) = true := by decide

/-- Pages 6 and 7. -/
theorem test_wf_pages_6_7 : ([
    .ldN 1 ⟨.always, .int 3, .w, .plain, .core, 0⟩, .ldN 1 ⟨.always, .v 2, .w, .rel, .core, 0⟩,
    .ldN 1 ⟨.always, .v 2, .w, .plain, .die, 0⟩, .st (.fp 1) ⟨.always, .v 2, .w, .plain, .core, 0⟩,
    .st (.v 1) ⟨.always, .v 2, .w, .acq, .core, 0⟩, .ldWsN 1 ⟨.always, .v 2, .w, .acq, .core, 0⟩,
    .ldSpPeekN 1 ⟨.always, .v 2, .h, .plain, .core, 0⟩, .ldxN 1 ⟨.always, .v 2, .int 3, 0, .w⟩,
    .ldu 1 ⟨.always, .v 2, .w, .plain, .core, 0⟩, .pref .always (.int 3) false 0,
    .lres 1 ⟨.always, .v 2, .b, .plain, .core, 0⟩, .scond .always 1 (.v 2) (.v 3) false .acq .core,
    .atomAdd ⟨.always, none, .int 3, .v 2, false, .plain, .core⟩,
    .atomAdd ⟨.always, none, .v 3, .fp 2, false, .plain, .core⟩,
    .atomAdd ⟨.always, none, .v 3, .v 2, false, .plain, .die⟩,
    .atomCas ⟨.always, none, .v 3, .v 2, false, .plain, .core⟩ (.fp 0), .fatomAddOrd .always (.int 3) (.v 1) true,
    .ordf ⟨.always, .v 2, .w, .acq, .core, 0⟩, .fence .always .plain .core,
    .waita .always 1 (.v 2) (.fp 0) (.v 3) true .eq false false, .xcfg .always 0 500, .xmov .always 1 (.fp 0) 0,
    .lread .always 1 2 (.v 3) (.int 33) 0, .scan .always 1 (.v 2) none .rup false (.i .i32) .add,
    .scan .always 1 (.v 2) none .rne true (.i .i32) .min, .scan .always 1 (.v 2) none .rne false (.f .f32) .xor,
    .redw .always (.int 3) (.v 2) .rne false (.i .i32) .add, .barx .always 0 (.fp 0) false,
    .jqry .always (.v 1) 0 3] : List Instr).all (fun i => !i.wf) = true := by decide

/-- Pages 8 to 12 and the deprecated instructions. -/
theorem test_wf_pages_8_to_15 : ([
    .own .always 1 (.fp 0) (.v 2), .ringput .always 0 (.fp 0), .mxmac .always (.fp 0) 0 2 (.v 1) 0 0,
    .mxmac .always (.v 0) 511 2 (.v 1) 0 0, .mxmac .always (.v 0) 0 2 (.int 3) 0 0, .mxzero .always (.fp 0) 0 0,
    .mxwait .always 1 0, .vswait (.on 0), .vswAdd ⟨.always, .fp 0, .v 1, .v 2, .v 3, false⟩,
    .vswExp ⟨.always, .v 0, .v 1, .v 2, .v 3, false⟩, .cpyIn ⟨.always, .v 0, .fp 1, .v 2, .v 3, .core⟩ false,
    .tspawn .always (.fp 0), .tilereg .always 1 (.v 2) (.fp 0), .tileq .always 1 (.fp 0), .grow .always 0,
    .grow .always 5, .shed .always 5, .syscAlloc ⟨.always, 1, .fp 0, .v 2, .v 3⟩,
    .syscUnassigned 8 ⟨.always, 1, .v 1, .v 2, .v 3⟩, .trd .always 1 (.fp 0) (.v 2),
    .twr .always (.v 1) (.v 2) (.fp 0), .ldq .always 255 (.v 1) 0, .ldq .always 1 (.int 3) 0,
    .dot4 .always 1 (.fp 0) (.v 2) (.v 3) true] : List Instr).all (fun i => !i.wf) = true := by decide

/-! ### A small machine: block 3 on core 0, one warp of two threads, an issue before its first syllable -/

/-- Thread 0 or 1: v1 = 7, v2 = 16, v3 = 0x4000, v4 = 0x10000, v5 = 3; d0, d1 and d2 are true. -/
def thr : Thread :=
  { Thread.absent with
    life := .live, pc := 0x400, v := [(1, 7), (2, 16), (3, 0x4000), (4, 0x10000), (5, 3)], d := 7, rsp := 0x8000 }

/-- A warp of role kind `kind`. -/
def wrp (kind : Nat) : Warp :=
  ⟨1, 2, 3, 0, 0, kind, 0, [(0, thr), (1, thr)], [⟨0x400, 3, 0⟩], none, [], [], [], 4, [], [], 0, 0, none, none, [],
    [], dbgNone, none, false, none, none, [], [], [], []⟩

def blk : Block := ⟨2, 1, 0, [0], [0], 32, [0], 4, [], [], [0], true, [(0, 0)], false, false⟩

def rcd : Rec := ⟨0, 0, 1, 1, 1, 2, 1, 1, 1, 1, true, false, false, 0, 0x10000, 64, 5⟩

def kpb0 : Kpb := ⟨[⟨0x400, 0, 4, 1⟩], false, 4, 32, 4, [], [], []⟩

def lnc : Launch := ⟨1, 9, 0, rcd, some kpb0, 1, 0, some 0, 0, 0, false, false, []⟩

/-- A context whose root maps the first GiB of addresses to itself (R249). -/
def ctx0 : Ctx := ⟨false, 0x1000, 0, 0, 0, [], 0, 0, false, [], [], [], [], [], [], 0⟩

def tables : List Host.Cell := [(0x1000, 1), (0x1001, 0x20), (0x2000, 1), (0x2001, 0x30), (0x3000, 0x1F)]

/-- SETA f0, SETB f1, two syllables on the root arc and a leaf. -/
def hdr : Word := 0x0000100400000000

/-- A path of thread t at the root. -/
def pth (t : Nat) : Path := ⟨t, thr, 1, 0, [], [], 0, none, none⟩

def iss (ps : List Path) : Issue :=
  ⟨1, 0, 0x400, hdr, [0x2380000000000000, 0x2380000000000000, 0], ps, [(0, thr), (1, thr)], [], [], [], 0, 0, 0, false,
    false⟩

/-- The machine without an issue. -/
def quiet (kind : Nat) : State :=
  { State.reset with
    released := true, mem := tables, ctxs := [(1, ctx0)], launches := [(2, lnc)], blocks := [(3, blk)], warps := [(0, wrp kind)],
    nextId := 10 }

/-- The machine with an issue of these paths. -/
def mc (kind : Nat) (ps : List Path) : State := { quiet kind with issue := some (iss ps) }

theorem test_tables_wf : Memory.wf tables = true := by decide

/-- The hypotheses of `Performs`, as a check. -/
def ready (i : Instr) (g : Guard) (s : State) : Bool :=
  match s.issue with
  | none => false
  | some x => match s.warp? x.warp, x.runner with
    | some w, some p => p.guard g && (s.judge x w p i true false).isNone
    | _, _ => false

theorem ready_performs {i : Instr} {g : Guard} {s : State} (h : ready i g s = true) :
    ∃ x w p, Performs i g s x w p := by
  unfold ready at h
  split at h
  · cases h
  · rename_i x hx
    split at h
    · rename_i w p hw hp
      simp only [Bool.and_eq_true, Option.isNone_iff_eq_none] at h
      exact ⟨x, w, p, ⟨⟨hx, hw, hp⟩, h.1, h.2⟩⟩
    · cases h

/-- A machine for the instruction: its role's warp, or the trap handler's thread. -/
def mcFor (i : Instr) : State :=
  mc ((unitRole i).getD 0) [pth (match i with
    | .trd .. | .twr .. | .tret .. | .swr _ (.h _) _ => 32
    | _ => 0)]

def guardIn (pos : Pos) (w : Word) : Guard :=
  if pos = .root then (Guard.dec (fld w 49 5)).getD .always else .always

def allReady (pos : Pos) (l : List (Word × Instr)) : Bool := l.all (fun x => ready x.2 (guardIn pos x.1) (mcFor x.2))

/-! Every instruction written above meets the conditions of `Performs` somewhere: IntegerArithmetic, ImmediateForms,
DivisionAndWideMultiply, LogicByBit, Shifts, BitFieldsAndCounts, MovesAndSelect, ComparesAndTests, PredicateStack,
FloatArithmetic, Conversions, SpecialFunctions, MatrixElements, MatrixFactorisations, ExchangeAndLread,
JoinInstructions and the rest of the statements whose one premise it is. -/

theorem witness_performs_page0a : allReady .root words_page0a = true := by decide

theorem witness_performs_page0b : allReady .root words_page0b = true := by decide

theorem witness_performs_page1a : allReady .root words_page1a = true := by decide

theorem witness_performs_page1b : allReady .root words_page1b = true := by decide

theorem witness_performs_page2 : allReady .root words_page2 = true := by decide

theorem witness_performs_page3 : allReady .root words_page3 = true := by decide

theorem witness_performs_page4 : allReady .root words_page4 = true := by decide

theorem witness_performs_page5 : allReady .root words_page5 = true := by decide

theorem witness_performs_page6a : allReady .root words_page6a = true := by decide

theorem witness_performs_page6b : allReady .root words_page6b = true := by decide

theorem witness_performs_atomicsa : allReady .root words_atomicsa = true := by decide

theorem witness_performs_atomicsb : allReady .root words_atomicsb = true := by decide

theorem witness_performs_page7 : allReady .root words_page7 = true := by decide

theorem witness_performs_page8 : allReady .root words_page8 = true := by decide

theorem witness_performs_page9 : allReady .root words_page9 = true := by decide

theorem witness_performs_page10 : allReady .root words_page10 = true := by decide

theorem witness_performs_page11 : allReady .root words_page11 = true := by decide

theorem witness_performs_page12a : allReady .root words_page12a = true := by decide

theorem witness_performs_page12b : allReady .root words_page12b = true := by decide

theorem witness_performs_tests : allReady .node words_tests = true := by decide

theorem witness_performs_leaves : allReady .leaf words_leaves = true := by decide


/-! ### Witnesses for further premises, clause by clause -/

def load0 : Load :=
  { warp := 0, block := 3, thread := 0, dst := .v 7, flag := some 0, val := some [9], bytes := 8, sx := false,
    held := false, how := ⟨.plain, .core, false⟩, place := .mem 0x4000, va := 0x4000, clause := 0x400 }

def item0 (k : StKind) : StItem :=
  { kind := k, place := .mem 0x4000, va := 0x4000, order := .plain, scope := .core, warp := 0, thread := 0 }

/-- SpecialRegistersAndHints: the first and last named registers, those of the handler in its thread, and a value
that $flags can hold. -/
theorem witness_special_registers :
    Special.ofCode 0 = some .tid ∧ Special.ofCode 0x12 = some .flags ∧ Special.ofCode 0x60 = some (.h 0)
    ∧ Special.ofCode 0x6F = some (.h 15) ∧ (pth 32).t = 32
    ∧ ready (.srd .always 9 (.int 32)) .always (mc 0 [pth 0]) = true
    ∧ ready (.srd .always 9 (.v 1)) .always (mc 0 [pth 32]) = true
    ∧ ready (.swr .always .flags (.v 1)) .always (mc 0 [pth 0]) = true
    ∧ ((mc 0 [pth 0]).rd (iss [pth 0]) (wrp 0) (pth 0) (.v 1)).toNat < 128 := by decide +kernel

def withV (p : Path) (k : Nat) (x : Word) : Path := { p with th := { p.th with v := p.th.v.set 0 k x } }
def withRet (p : Path) (l : List Addr56) : Path := { p with th := { p.th with ret := l } }

def withRsp (p : Path) (x : Word) : Path := { p with th := { p.th with rsp := x } }
def withSpill (p : Path) (n : BitVec 32) : Path := { p with th := { p.th with spill := n } }

/-- The checks of a spill's and of a refill's access. -/
def spill0 (p : Path) : Except PFault Place :=
  (mc 0 [p]).access (iss [p]) (wrp 0) p ⟨.global, .w, false, 8, p.th.rsp - 8, none, false, true⟩
def refill0 (p : Path) : Except PFault Place :=
  (mc 0 [p]).access (iss [p]) (wrp 0) p ⟨.global, .r, false, 8, p.th.rsp, none, true, false⟩

/-- Leaves: targets at both ends of the address space, a misaligned one, one outside it, all ones and another that is
wrong in both ways; return stacks of three
and of four entries, with a place to spill and a misaligned one; an empty one, with an entry spilled and with none. -/
theorem witness_leaves :
    (let p := withV (pth 0) 9 0
     let q := withV (pth 0) 9 0x00FFFFFFFFFFFFF8
     let m := withV (pth 0) 9 4
     let o := withV (pth 0) 9 0x0100000000000000
     let a := withV (pth 0) 9 0xFFFFFFFFFFFFFFFF
     let b := withV (pth 0) 9 0xFFFFFFFFFFFFFFFE
     let x (p : Path) : Word := (mc 0 [p]).rd (iss [p]) (wrp 0) p (.v 9)
     ready (.leafJmpi (.v 9)) .always (mc 0 [p]) = true ∧ ready (.leafJmpi (.v 9)) .always (mc 0 [q]) = true
     ∧ ready (.leafJmpi (.v 9)) .always (mc 0 [m]) = true ∧ ready (.leafJmpi (.v 9)) .always (mc 0 [o]) = true
     ∧ (x p).toNat % 8 = 0 ∧ (x p).toNat < 2 ^ 56 ∧ (x q).toNat % 8 = 0 ∧ (x q).toNat < 2 ^ 56
     ∧ (x m).toNat % 8 ≠ 0 ∧ x m ≠ BitVec.allOnes 64 ∧ (x o).toNat % 8 = 0 ∧ 2 ^ 56 ≤ (x o).toNat
     ∧ x a = BitVec.allOnes 64 ∧ (x b).toNat % 8 ≠ 0 ∧ 2 ^ 56 ≤ (x b).toNat ∧ x b ≠ BitVec.allOnes 64
     ∧ a.th.ret.length < 4 ∧ b.th.ret.length < 4
     ∧ [a, b].all (fun p => ready (.leafJmpi (.v 9)) .always (mc 0 [p]) && ready (.leafCalli (.v 9)) .always (mc 0 [p]))
     ∧ ready (.leafCalli (.v 9)) .always (mc 0 [p]) = true ∧ ready (.leafCalli (.v 9)) .always (mc 0 [m]) = true
     ∧ ready (.leafCalli (.v 9)) .always (mc 0 [o]) = true)
    ∧ (iss []).addr.toNat % 8 = 0 ∧ (withRet (pth 0) [8, 16, 24]).th.ret.length < 4
    ∧ ready .leafNext .always (mc 0 [pth 0]) = true ∧ ready (.leafJmp 24) .always (mc 0 [pth 0]) = true
    ∧ ready (.leafCall 24) .always (mc 0 [withRet (pth 0) [8, 16, 24]]) = true
    ∧ ready .leafExit .always (mc 0 [pth 0]) = true ∧ ready (.leafTrap 5) .always (mc 0 [pth 0]) = true
    ∧ ready .leafRet .always (mc 0 [withRet (pth 0) [8]]) = true
    ∧ ready .leafRet .always (mc 0 [pth 0]) = true ∧ (pth 0).th.ret = [] ∧ (pth 0).th.spill = 0
    ∧ (let p := withRet (withV (pth 0) 9 0x800) [8, 16, 24, 32]
       4 ≤ p.th.ret.length ∧ ready (.leafCalli (.v 9)) .always (mc 0 [p]) = true
       ∧ ready (.leafCall 24) .always (mc 0 [p]) = true ∧ spill0 p = .ok (.mem 0x7FF8)
       ∧ spill0 (withRsp p 0x8004) = .error ⟨7, 1, none, 0x7FFC⟩
       ∧ ready (.leafCall 24) .always (mc 0 [withRsp p 0x8004]) = true
       ∧ ready (.leafCalli (.v 9)) .always (mc 0 [withRsp p 0x8004]) = true)
    ∧ (let p := withSpill (pth 0) 1
       p.th.ret = [] ∧ p.th.spill ≠ 0 ∧ ready .leafRet .always (mc 0 [p]) = true ∧ refill0 p = .ok (.mem 0x8000)
       ∧ refill0 (withRsp p 0x8004) = .error ⟨7, 1, none, 0x8004⟩ ∧ (withRsp p 0x8004).th.rsp.toNat % 8 ≠ 0
       ∧ ready .leafRet .always (mc 0 [withRsp p 0x8004]) = true) := by decide +kernel

/-- FloatResults, FloatArithmetic (FSCALE) and MatrixElements (MMUL): a list of each length, an arithmetic type, a
K. -/
theorem witness_counts : ([(0, 0)] : List (Nat × Flags)).length = FTy.f32.count
    ∧ (List.replicate 16 (0, (0 : Flags))).length = FTy.e2m1.count ∧ FTy.f64.arith = true ∧ (1 : BitVec 3) ≠ 0 := by
  decide +kernel

/-- ZerosAndNaNs: +0, −0, 1 and −1, a quiet and a signalling NaN, −∞ and +∞, in FP32. -/
theorem witness_zeros_and_nans :
    dec fp32 0 = .fin false 0 (-149) ∧ dec fp32 0x80000000 = .fin true 0 (-149)
    ∧ dec fp32 0x3F800000 = .fin false 0x800000 (-23) ∧ dec fp32 0xBF800000 = .fin true 0x800000 (-23)
    ∧ fp32.isNaN 0x7FC00000 = true ∧ fp32.isNaN 0x7F800001 = true ∧ fp32.isNaN 0x3F800000 = false
    ∧ dec fp32 0xFF800000 = .inf true ∧ dec fp32 0x7F800000 = .inf false := by decide +kernel

/-- BitFieldsAndCounts, ScanSteps and ExchangeAndLread: a scalar type, elements within the counts, a network of 128
positions. -/
theorem witness_elements : ITy.i8.scalar = true ∧ 7 < ITy.i8x8.count ∧ 3 < FTy.bf16x4.count
    ∧ (List.replicate 128 0).length = 128 := by decide +kernel

def acc0 (spc : Space) (k : Acc) (owner : Bool) (n : Nat) (va : Word) (flag : Option Nat) (r w : Bool) :
    Except PFault Place :=
  (mc 0 [pth 0]).access (iss [pth 0]) (wrp 0) (pth 0) ⟨spc, k, owner, n, va, flag, r, w⟩

/-- Loads, Stores, UniformLoadPrefetchReserve, AtomicsAreSent, OrderedAddsFencesAndWaits, DeprecatedInstructions: an
access of every space and kind goes through, at both ends of its space: the first and the last bytes of the mapped
GiB, of the block's 32 tiles and of the weight store. -/
theorem witness_accesses :
    acc0 .global .r true 8 0x4000 (some 0) true false = .ok (.mem 0x4000)
    ∧ acc0 .global .r true 1 0 (some 0) true false = .ok (.mem 0)
    ∧ acc0 .global .r true 8 0x3FFFFFF8 (some 0) true false = .ok (.mem 0x3FFFFFF8)
    ∧ acc0 .global .w true 4 0x4000 (some 0) true true = .ok (.mem 0x4000)
    ∧ acc0 .global .rw true 8 0x4000 none true true = .ok (.mem 0x4000)
    ∧ acc0 .sp .r true 2 0 (some 0) true false = .ok (.sp 0)
    ∧ acc0 .sp .r false 8 0x1FFF8 (some 0) true false = .ok (.sp 0x1FFF8)
    ∧ acc0 .sp .w true 1 0x1FFFF none false true = .ok (.sp 0x1FFFF)
    ∧ acc0 .sp .rw true 8 0 (some 0) true true = .ok (.sp 0)
    ∧ acc0 .ws .r true 8 0 (some 0) true false = .ok (.ws 0)
    ∧ acc0 .ws .r true 8 0xFFFFFFF8 (some 0) true false = .ok (.ws 0xFFFFFFF8)
    ∧ (mc 0 [pth 0]).refreshing (iss [pth 0]) (pth 0) (.mem 0x4000) = false
    ∧ (mc 0 [pth 0]).refreshing (iss [pth 0]) (pth 0) (.sp 0) = false := by decide +kernel

/-- DeprecatedInstructions: LDQ's second register is held and not pending, and its second access goes through behind the
first load. -/
theorem witness_ldq :
    ((10 : BitVec 8) + 1).toNat < 64 + 48 * (wrp 0).units ∧ ((mc 0 [pth 0]).pendingV 0 0).contains 11 = false
    ∧ (mc 0 [pth 0]).access (iss [pth 0]) (wrp 0) { pth 0 with fx := [Fx.load load0] }
      ⟨.global, .r, true, 8, 0x4008, some 0, true, false⟩ = .ok (.mem 0x4008) := by decide +kernel

/-- Loads: some bank of the weight store is not refreshing, whatever the free time is. -/
theorem witness_bank : ∃ a, (mc 0 [pth 0]).refreshing (iss [pth 0]) (pth 0) (.ws a) = false := by
  by_cases h : bankOf 0 = ((mc 0 [pth 0]).timeBase + clockAt (iss [pth 0]) (pth 0) * 5 / 6) / 4000 % 16
  · refine ⟨4096, ?_⟩
    simp only [State.refreshing, ← h]
    decide
  · exact ⟨0, by simp only [State.refreshing, h, decide_false]⟩

/-- The addresses of the statements' forms, as these instructions compute them. -/
theorem witness_addresses :
    (mc 0 [pth 0]).vaOf .global (.v 3) 8 (iss [pth 0]) (wrp 0) (pth 0) = 0x4008
    ∧ (mc 0 [pth 0]).vaOf .sp (.v 2) 0 (iss [pth 0]) (wrp 0) (pth 0) = 16
    ∧ (mc 0 [pth 0]).vaIdx .global ⟨.always, .v 3, .v 5, 3, .d⟩ (iss [pth 0]) (wrp 0) (pth 0) = 0x4018 := by
  decide +kernel

def rdr0 : Reader := ⟨0, 1, [0], [0], [(.mem 0x4000, [1, 2])]⟩

/-- PlainLoadBytes: a reader of a resident warp, bytes within one line, and a read; a byte of its own store, of the warp's
queue, of a line, of a store on its way, and of the home; a line that is not kept. -/
theorem witness_plain_load :
    (quiet 0).warp? rdr0.slot = some (wrp 0) ∧ region 0x4000 = 0 ∧ 0x4000 % 64 + 4 ≤ 64
    ∧ ((quiet 0).readWord rdr0 false false ⟨.plain, .core, false⟩ 4 (.mem 0x4000)).2 = [1, 2, 0, 0]
    ∧ rdr0.own.findSome? (fun st => covered st.1 st.2 (.mem 0x4000) 0) = some 1
    ∧ rdr0.own.findSome? (fun st => covered st.1 st.2 (.mem 0x4000) 2) = none
    ∧ youngest (fun j => j.sibling 1 [0]) [{ item0 (.store [5]) with place := .mem 0x4001 }] (.mem 0x4000) 1 = some 5
    ∧ youngest (fun j => j.sibling 1 [0]) [{ item0 (.store [5]) with issue := 1, thread := 1 }] (.mem 0x4000) 0 = none
    ∧ ((quiet 0).core 0).l1.get? (0x4000 / 64) = none ∧ (quiet 0).lost (.mem (0x4000 / 64 * 64)) 64 = false
    ∧ ((State.touchLine { quiet 0 with bad := [.mem 0x4000] } 0 (.mem 0x4000)).core 0).l1.get? (0x4000 / 64) = none
    ∧ ((((quiet 0).touchLine 0 (.mem 0x4000)).core 0).l1.get? (0x4000 / 64)).isSome = true := by decide +kernel

/-- WindowTransfers: the words of an FP32 and of an FP64 window. -/
theorem witness_windows :
    ((mc 0 [pth 0]).accessWords (iss [pth 0]) (wrp 0) (pth 0) .r 0x4000 18 (some 0) true).isOk = true
    ∧ ((mc 0 [pth 0]).accessWords (iss [pth 0]) (wrp 0) (pth 0) .w 0x3FFFFEE0 36 none false).isOk = true := by decide +kernel

/-- UniformLoadPrefetchReserve: an LRES to be read, of a live thread, with what its home holds. -/
theorem witness_reserve :
    (let l : Load := { load0 with how := ⟨.plain, .core, true⟩, val := none, bytes := 4 }
     let r : Reader := { rdr0 with own := [] }
     l.how.resv = true ∧ l.place = .mem 0x4000 ∧ l.dst = .v 7 ∧ l.peek = false
     ∧ ((quiet 0).awaited r l).lost l.place l.bytes = false
     ∧ ((quiet 0).awaited r l).warp? r.slot = some (wrp 0) ∧ (wrp 0).threads.get? l.thread = some thr
     ∧ ((quiet 0).awaited r l).vers = [] ∧ ((quiet 0).awaited r l).home (.mem 0x4000) l.bytes = [0, 0, 0, 0]
     ∧ l.bytes ≤ 8 ∧ l.sx = false) := by decide +kernel

/-- OrderedAddsFencesAndWaits: controls of WAITA with the lowest and the highest scope, and a fence of each. -/
theorem witness_fence_and_wait : Scope.ofCode ((0 : Word).toNat / 2 ^ 32 % 8) = some .core
    ∧ Scope.ofCode ((0x5FFFFFFFF : Word).toNat / 2 ^ 32 % 8) = some .sys
    ∧ ([Scope.span, .die, .pkg, .dom, .sys].all (· != .core)) = true := by decide +kernel

/-- Collectives: two threads before a collective that nothing is wrong with, of which one takes part. -/
theorem witness_collectives :
    (let ps := [pth 0, { pth 1 with th := { thr with d := 0 } }]
     let i : Issue := { iss ps with words := [0x21C0038000000000, 0x2380000000000000, 0] }
     let s : State := { quiet 0 with issue := some i }
     s.issue = some i ∧ s.warp? i.warp = some (wrp 0) ∧ i.runner = none
     ∧ (∀ p ∈ ps, s.verdict i (wrp 0) p = none ∧ i.stand p = some p)
     ∧ (∀ j ∈ [Instr.ballot (.on 0) (.v 7) 0 false, .first (.on 0) 3 (.v 1), .xmov (.on 0) 7 (.v 1) 0,
         .scan (.on 0) 7 (.v 1) none .rne false (.i .i32) .add, .redw (.on 0) (.v 7) (.v 1) .rne false (.i .i32) .add],
       ∀ p ∈ ps, s.judge i (wrp 0) p j (p.guard (.on 0)) false = none)
     ∧ (ps.filter (fun p => (i.stand p).isSome && p.guard (.on 0))).map Path.t = [0]) := by decide +kernel

/-- BarrierInstructions: the last barrier of the block with a free entry, the first that it lacks, and a full record. -/
theorem witness_barriers :
    (mc 0 [pth 0]).blocks.get? (wrp 0).block = some blk ∧ 3 < blk.nbars ∧ blk.nbars ≤ 4
    ∧ recordUse blk (pth 0) < 4
    ∧ recordUse blk { pth 0 with fx := List.replicate 4 (.bar 0 0 0 false) } = 4 := by decide +kernel

/-- BarrierPhases: a barrier below its count, one that stands at zero, and one that has reached it. -/
theorem witness_barrier_phases :
    (let b (e a : Nat) : Block := { blk with bars := [(0, ⟨e, a, 0, false, true, [], []⟩)] }
     (b 2 1).bar 0 = ⟨2, 1, 0, false, true, [], []⟩ ∧ ((b 2 1).bar 0).a < ((b 2 1).bar 0).e
     ∧ ((b 0 0).bar 0).a = 0 ∧ ((b 0 0).bar 0).e = 0 ∧ ((b 2 2).bar 0).e ≤ ((b 2 2).bar 0).a ∧ 0 < ((b 2 2).bar 0).a)
    ∧ (quiet 0).blocks.get? 3 = some blk ∧ 0 ∈ blk.warps ∧ (wrp 0).block = 3
    ∧ (let s : State := { quiet 0 with warps := [(0, wrp 0), (1, { wrp 0 with block := 4 })] }
       (s.warp? 1).map Warp.block = some 4) := by
  decide +kernel

/-- JoinVerdicts: a thread that waits in a join, and a captured command. -/
theorem witness_joins :
    (let th := { thr with blocked := [.join 2] }
     let w : Warp := { wrp 2 with threads := [(0, th), (1, thr)], joins := [(2, ⟨3, 1, 1, false, none⟩)] }
     w.threads.get? 0 = some th ∧ bitOf (w.join 2).waiters 0 = true ∧ (w.join 2).signed ≠ 0
     ∧ w.verdict (w.join 2) = none ∧ (w.join 2).capture = none
     ∧ w.verdict ⟨1, 1, 1, false, none⟩ = some false
     ∧ Warp.verdict { w with threads := [(0, th), (1, th)] } ⟨3, 1, 1, false, none⟩ = some true) := by decide +kernel

/-- BlockResources: counts of OWN at both ends, a window's last tile, and a MAT-role peer. -/
theorem witness_block_resources :
    (mc 0 [pth 0]).window (wrp 0).block 0 = some (0, 32) ∧ 31 + 1 ≤ 32 ∧ (1 : Nat) ≤ 32
    ∧ (mc 2 [pth 0]).matPeer 0 (wrp 2) 0 = true ∧ (mc 2 [pth 0]).matPeer 0 (wrp 2) 1 = false
    ∧ (let p : Path := { pth 0 with fx := [Fx.give 0 1], next := 1 }
       p.fx = [Fx.give 0 1] ∧ (iss [p, { pth 1 with fx := [Fx.give 0 0] }]).giveTarget = some 1) := by decide +kernel

/-- CommandsAreSent: good descriptors of a copy, a sweep and the others, and room in the flag; locations and selectors
at their bounds; a TDONE on a path that ends in EXIT. -/
theorem witness_commands :
    (CmdBody.copy 0 false .core 0 0 0 0).ok 32 = true ∧ (CmdBody.copy 3 false .core 0 7 0x1FFF0 0).ok 32 = true
    ∧ (CmdBody.sweep 0 false 0 0 0 0).ok 32 = true ∧ (CmdBody.vswait).ok 32 = true ∧ (CmdBody.mxwait 1).ok 32 = true ∧ (CmdBody.tileq 5).ok 32 = true
    ∧ (CmdBody.sysc 1 0 0 0).ok 32 = true
    ∧ (pth 0).overflows (iss [pth 0]).setB = false
    ∧ locOk 0x0000000000040200 = true ∧ locOk 0x800000000004002F = true
    ∧ (let i : Issue := { iss [pth 0] with words := [0x2380000000000000, 0x2380000000000000, 0x6000000000000000] }
       (mc 0 [pth 0]).doneBad i (wrp 0) { pth 0 with next := 1 } = false) := by decide +kernel

/-- FaultingSyllables: what is wrong with a syllable, kind by kind. -/
theorem witness_faults :
    staticBad 0 (.tret .always) = true ∧ staticBad 0 (.add .always (.v 1) (.v 2) (.v 3) .i32 false) = false
    ∧ unheld { wrp 0 with units := 0 } (.add .always (.v 64) (.v 2) (.v 3) .i32 false) = some 64
    ∧ unheld { wrp 0 with units := 0 } (.add .always (.v 63) (.v 2) (.v 3) .i32 false) = none
    ∧ ({ wrp 0 with save := some .routine } : Warp).save = some .routine ∧ staticBad 0 (.jarr .always 0) = false
    ∧ staticBad 0 (.vswait .always) = false ∧ (wrp 0).save = none ∧ (wrp 2).kind = 2
    ∧ staticBad 0 (.mxzero .always (.int 0) 0 0) = false
    ∧ routineForbids (.jarr .always 0) = true ∧ unitRole (.vswait .always) = some 3 ∧ (wrp 0).kind ≠ 3
    ∧ (mc 2 [pth 0]).holdsToken 96 (wrp 2) = false
    ∧ (mc 0 [pth 0]).judge (iss [pth 0]) (wrp 0) (pth 0) (.tret .always) true false = some ⟨6, 1, none, 0x2380000000000000⟩
    ∧ (let s : State := { mc 0 [pth 0] with loads := [(5, { load0 with dst := .v 1, flag := none })] }
       s.pending 0 0 (.ldN 4 ⟨.always, .v 1, .d, .plain, .core, 0⟩) = some 1)
    ∧ (CmdBody.copy 1 false .core 0 0 1 0).ok 32 = false ∧ (CmdBody.sweep 0 false 0 0 0 0x05000000).ok 32 = false
    ∧ (16 : Nat) % 64 ≠ 0 ∧ { pth 0 with th := { thr with f := [(1, 15)] } }.overflows (some 1) = true := by decide +kernel

/-- GuardFalse: a depth that is false, on syllables that nothing is wrong with. -/
theorem witness_guard_false :
    (pth 0).guard (.on 7) = false
    ∧ ([.add (.on 7) (.v 1) (.v 2) (.v 3) .i32 false, .ldN 1 ⟨.on 7, .v 3, .d, .plain, .core, 0⟩, .jset (.on 7) 1,
        .cpyIn ⟨.on 7, .v 1, .v 2, .v 3, .v 4, .core⟩ false] : List Instr).all (fun i =>
      ((mc 0 [pth 0]).judge (iss [pth 0]) (wrp 0) (pth 0) i false false).isNone) = true := by decide +kernel

/-! ### Witnesses for the machine's own steps -/

def lane0 (l : Lane) (s : State) : State := { s with lanes := [(0, l)] }

/-- IssueAndLaneSteps: a granted lane whose warp may issue, in parallel and in serial mode; a clause that can be fetched;
an issue at its end. -/
theorem witness_issues :
    (let s := lane0 { Lane.idle with granted := true } (quiet 0)
     let w := wrp 0
     s.issue = none ∧ s.warp? s.turn.ix = some w ∧ s.parked.get? s.turn.ix = none
     ∧ s.activeSlot (laneOf s.turn.ix) = s.turn.ix ∧ (s.lane (laneOf s.turn.ix)).granted = true ∧ s.stopped w = false
     ∧ s.mustSwap (laneOf s.turn.ix) = false
     ∧ (w.serial.isSome && w.freeze.isNone) = false ∧ s.choose s.turn.ix w = some (0x400, [0, 1])
     ∧ s.lostFetch (coreOf 0) w.ctx 0x400 = none ∧ w.restored = false
     ∧ (s.fetchClause (coreOf 0) w.ctx 0x400).isOk = true ∧ w.dbgNext.getD w.dbg = dbgNone
     ∧ ∀ t ∈ [0, 1], t < 32 ∧ (w.thread t).far = 0)
    ∧ (let w : Warp := { wrp 0 with serial := some 0 }
       let s : State := { lane0 { Lane.idle with granted := true } (quiet 0) with warps := [(0, w)] }
       s.warp? s.turn.ix = some w ∧ (w.serial.isSome && w.freeze.isNone) = true ∧ s.mustSwap 0 = false ∧ (s.choose s.turn.ix w).isSome = true
       ∧ ∀ x, s.choose s.turn.ix w = some x → s.lostFetch (coreOf 0) w.ctx x.1 = none)
    ∧ (let l : Load := { load0 with val := none }
       let p : Path := { pth 0 with next := 3, pos := 8, leaf := some .exit, fx := [Fx.load l] }
       let q : Path := { p with fx := [] }
       (iss [p]).current = none ∧ (iss [p]).serial = false ∧ (iss [p]).judged = false
       ∧ (quiet 0).warp? (iss [p]).warp = some (wrp 0) ∧ nextRead (iss [p]).clean = some (p, 0, Fx.load l, l)
       ∧ (iss [q]).current = none ∧ nextRead (iss [q]).clean = none
       ∧ (∀ p ∈ (iss [q]).paths, (quiet 0).verdict (iss [q]) (wrp 0) p = none)
       ∧ [Fx.give 31 0].filterMap Fx.voted = [31] ∧ [Fx.take].filterMap Fx.voted = []) := by decide +kernel

/-- IssueAndLaneSteps: a grantable lane; a lane without an active warp, one stalled for exactly 64 cycles and one held
for exactly 4,096, each with a pending warp; a GROW whose units are free. -/
theorem witness_lanes :
    ((List.range 8).map (fun k => 8 * 0 + ((quiet 0).rr.get 7 0 + 1 + k) % 8)).find? (quiet 0).grantable = some 0
    ∧ (let p : Warp := { wrp 0 with readyAt := some 0 }
       let s : State := { quiet 0 with warps := [(1, p)] }
       s.laneFree 0 = true ∧ s.pendingReady 0 = some 1 ∧ s.swapDue 0 = true)
    ∧ (let p : Warp := { wrp 0 with readyAt := some 0 }
       let s : State := { lane0 { Lane.idle with stalled := some 0 } (quiet 0) with warps := [(0, p), (1, p)], clock := 64 }
       s.laneFree 0 = true ∧ s.pendingReady 0 = some 1 ∧ (s.lane 0).stalled = some 0 ∧ 0 + 64 ≤ s.clock)
    ∧ (let p : Warp := { wrp 0 with readyAt := some 0 }
       let s : State := { quiet 0 with warps := [(0, p), (1, p)], clock := 4096 }
       s.laneFree 0 = true ∧ s.pendingReady 0 = some 1 ∧ (s.lane 0).since + 4096 ≤ s.clock
       ∧ s.warpStand (s.activeSlot 0) p = .ready)
    ∧ (let w : Warp := { wrp 0 with units := 1, grows := [(4, 1)] }
       let s : State := { lane0 { Lane.idle with grows := [0] } (quiet 0) with warps := [(0, w)] }
       (s.lane 0).grows = 0 :: [] ∧ s.parked.get? 0 = none ∧ s.warp? 0 = some w ∧ w.grows = (4, 1) :: []
       ∧ 4 - w.units ≤ s.freeUnits 0 ∧ bitOf (1 : Mask) 0 = true ∧ (4, (1 : Mask)) ∉ ([] : List (Nat × Mask))
       ∧ w.threads.get? 0 = some thr) := by
  decide +kernel

def wait0 : Wait := ⟨0x4000, .mem 0x4000, false, false, .eq, false, 1, false, .core, some 0, 7⟩
def onWay (k : StKind) : State := { quiet 0 with cores := [(0, { Core.empty with flight := [item0 k] })] }

/-- MemorySteps: a load with its value and one whose data is lost, the head of a queue, an
item of each kind that nothing bars, a wait at its deadline, and a load that its bank holds. -/
theorem witness_memory_steps :
    (let s : State := { quiet 0 with loads := [(0, load0)] }
     s.issue = none ∧ s.loads.get? s.turn.ix = some load0 ∧ load0.val = some [9] ∧ load0.dst = .v (BitVec.ofNat 8 7)
     ∧ s.parked.get? load0.warp = none ∧ load0.held = false ∧ load0.flag = some 0 ∧ s.reaches load0.place = true
     ∧ ({ s with loads := [(0, { load0 with val := some [] })] } : State).loads.get? 0 = some { load0 with val := some [] })
    ∧ (let w : Warp := { wrp 0 with stq := [item0 (.store [1])] }
       let s : State := { quiet 0 with warps := [(0, w)], turn := ⟨0, 0, 0, true, .laneFile, .instr⟩ }
       s.warp? s.turn.ix = some w ∧ s.turn.flag = true)
    ∧ (∀ k ∈ [StKind.store [1], .fence, .atom .add 1 0 false none, .scond 1 false 0, .contrib true 0 ⟨0, 0, 0, 0⟩ 2, .ordf true],
       ((onWay k).core (onWay k).turn.ix).flight[(onWay k).turn.k]? = some (item0 k) ∧ (onWay k).turn.flag = false
       ∧ (onWay k).reaches (item0 k).place = true
       ∧ mayPerform ((onWay k).core (onWay k).turn.ix).flight (onWay k).turn.k = true)
    ∧ (let th := { thr with blocked := [.waita wait0] }
       let w : Warp := { wrp 0 with threads := [(0, th)] }
       let s : State := { quiet 0 with warps := [(0, w)] }
       s.warp? s.turn.ix = some w ∧ (w.thread s.turn.k).waitas[s.turn.m]? = some wait0 ∧ wait0.deadline = some 0 ∧ 0 ≤ s.time)
    ∧ (let l : Load := { load0 with place := .ws 0x1000, held := true }
       let s : State := { quiet 0 with loads := [(0, l)] }
       s.loads.get? 0 = some l ∧ l.place = .ws 0x1000 ∧ 0x1000 / 4096 % 16 ≠ s.time / 4000 % 16) := by decide +kernel

def cmd0 (b : CmdBody) (acc : Bool) : Cmd := ⟨0, 3, 2, 1, 0, 0, 0x280, 0x400, b, some 7, [], 0, acc, [], 0, []⟩
def withCmd (b : CmdBody) (acc : Bool) : State := { quiet 0 with cmds := [(0, cmd0 b acc)] }

/-- CommandSteps: a first unaccepted command; an accepted one of each engine; a tile that belongs to another unit; a
reply. -/
theorem witness_command_steps :
    (let s := withCmd (.copy 3 false .core 0 7 0 0) false
     let c := cmd0 (.copy 3 false .core 0 7 0 0) false
     s.cmds.get? s.turn.ix = some c ∧ c.accepted = false ∧ c.done = 0 ∧ s.ending c.launch = false ∧ s.behind 0 c = false
     ∧ s.waitOver 0 c = true
     ∧ s.parked.get? c.warp = none ∧ s.namedTiles c = [0] ∧ c.dst = some 7 ∧ c.flags = []
     ∧ s.mayTake c (s.namedTiles c) = true ∧ (s.drainTiles c.core [0]).cmds.get? 0 = some c ∧ s.physTiles c = [0]
     ∧ (wrp 0).threads.get? c.thread = some thr)
    ∧ (∀ b ∈ [CmdBody.copy 3 false .core 0 7 0 0, .sweep 0 false 0 0 0 0, .matrix 2 0 false 0 0 0 0 0 0],
       (withCmd b true).cmds.get? 0 = some (cmd0 b true) ∧ (withCmd b true).inLine 0 (cmd0 b true) = false
       ∧ (withCmd b true).turn.flag = false ∧ (withCmd b true).ending 2 = false
       ∧ (withCmd b true).lostRead (cmd0 b true) = none)
    ∧ (let c := cmd0 (.copy 3 false .core 0 7 0 0) false
       let s : State := { withCmd c.body false with cores := [(0, { Core.empty with owner := [(0, 2)] })] }
       ∃ t ∈ s.namedTiles c, (s.core c.core).owner.get 0 t ∉ [0, c.body.unit.owner]) := by
  refine ⟨by decide +kernel, by decide +kernel, 0, by decide +kernel, by decide +kernel⟩

/-- CommandSteps: the far side of a copy's unit, for reading, writing and in the weight store; a byte that no unit of a
copy covers; element places that lie apart. -/
theorem witness_command_work :
    (let c := cmd0 (.copy 0 false .core 0x200000 0x4000 0 0) true
     let s := withCmd c.body true
     (∀ k ∈ [0, 2], s.farPlace c false .r (cpFar k 0x4000 0 (s.cpIndex 0 0 0) 0 0) = .ok (.mem 0x4000) ∨ k = 2)
     ∧ s.farPlace c false .w (cpFar 1 0x4000 0 (s.cpIndex 0 0 0) 0 0) = .ok (.mem 0x4000)
     ∧ s.cellOf (.mem 0x4000) = none
     ∧ s.farPlace c false .r (cpFar 4 0x4000 0 (s.cpIndex 0 0 0) 0 0) = .ok (.mem 0x4000)
     ∧ s.wsPlace c.ctx (dieOfCore c.core) ((0 : Word).toNat + 0 * 16 * cpUnits 0 + 16 * 0) = .ok (.ws 0)
     ∧ (0x200000 : Word).getLsbD 21 = true ∧ (0 : Word).getLsbD 21 = false)
    ∧ (∀ q ∈ cpList 0, cpUnit 0 q.1 q.2 + 16 ≤ 0x8000) ∧ fp32 ∈ [fp32, fp16, bf16, e4m3, e5m2]
    ∧ mxClass (mxFa 0) ≠ some 2 ∧ mxClass (mxFa 4) = some 2 ∧ 0 + (4 : BitVec 9).toNat + 16 ≤ 384 := by decide +kernel

def kpb1 (coop : Bool) : Kpb := { kpb0 with coop := coop, roles := [⟨0x400, 0, 1, 1⟩, ⟨0x400, 1, 1, 1⟩] }
def lnc1 (coop : Bool) : Launch :=
  { lnc with kpb := some (kpb1 coop), admitted := 0, info := { rcd with interlude := false, dies := 1 } }
def ready0 (coop : Bool) : State :=
  { State.reset with
    mem := tables, ctxs := [(1, ctx0)], launches := [(2, lnc1 coop)], released := true, nextId := 10,
    turn := ⟨2, 0, 0, false, .laneFile, .instr⟩ }
def que : Queue := ⟨1, 0x4000, 0, true, 0, []⟩

/-- LaunchSteps: a queue with a record and one without, a launch whose next block fits, a cooperative one, a block whose
gang has not started, and a launch that is over. -/
theorem witness_launch_steps :
    (let s : State := { ready0 false with queues := [(9, que)], turn := ⟨9, 0, 0, false, .laneFile, .instr⟩ }
     s.queues.get? s.turn.ix = some que ∧ que.served = true ∧ s.released = true ∧ State.reset.released = false
     ∧ (s.ctxRead 1 0x4000 64).isOk = true
     ∧ (s.ctxRead 1 0x4000 64).toOption.map headerGood = some true
     ∧ ((s.ctxRead 1 0x4000 64).toOption.map (fun b => fieldLE b 0x10 4)) = some 0)
    ∧ (let s : State := { ready0 false with mem := tables ++ [(0x4010, 1)] }
       (s.ctxRead 1 0x4000 64).toOption.map headerGood = some true
       ∧ ((s.ctxRead 1 0x4000 64).toOption.map (fun b => (fieldLE b 0x10 4, fieldLE b 8 1))) = some (1, 0))
    ∧ (ready0 false).launches.get? 2 = some (lnc1 false) ∧ (ready0 false).admitting 2 (lnc1 false) = true
    ∧ (ready0 false).earlierQueue (lnc1 false) = false ∧ (lnc1 false).admitted < (lnc1 false).info.blocks
    ∧ ((ready0 false).admitNext 2).isSome = true
    ∧ (ready0 true).admitting 2 (lnc1 true) = true ∧ (ready0 true).earlierQueue (lnc1 true) = false
    ∧ (State.admitAll 2 (lnc1 true).info.blocks (ready0 true)).isSome = true
    ∧ (let l : Launch := { lnc1 false with kpb := some { kpb1 false with tiles := 385 } }
       let s : State := { ready0 false with launches := [(2, l)] }
       s.admitting 2 l = true ∧ s.earlierQueue l = false ∧ (s.admitNext 2).isNone = true)
    ∧ (let b : Block := { blk with started := false }
       let s : State := { quiet 0 with blocks := [(3, b)] }
       s.blocks.get? 3 = some b ∧ s.launches.get? b.launch = some lnc ∧ lnc.kpb = some kpb0 ∧ b.started = false
       ∧ ∀ x ∈ b.warps, ((s.warp? x).bind Warp.save) = none)
    ∧ (let l : Launch := { lnc1 false with admitted := 1, finished := 1 }
       let s : State := { ready0 false with launches := [(2, l)] }
       s.launches.get? s.turn.ix = some l ∧ l.kpb = some (kpb1 false) ∧ l.closed = false ∧ l.info.blocks ≤ l.admitted
       ∧ l.info.blocks ≤ l.finished ∧ s.isPool 2 = false ∧ (∀ c ∈ s.cmds, c.2.launch ≠ 2)
       ∧ (let t := s.forceAll (fun i => i.launch = 2 && i.isContrib)
          s.ending 2 = false ∧ t.ending 2 = false ∧ t.lostWord 2 = none ∧ t.isPool 2 = false)) := by decide +kernel

/-- A pool's block whose warp is idle, with an item at the head of a queue and one record on the core's list. -/
def pool0 (x : Item) : State :=
  { quiet 0 with
    launches := [(2, { lnc with info := { rcd with interlude := false } })]
    warps := [(0, { wrp 0 with threads := [], table := [] })]
    dies := [(0, { Die.empty with seeds := [(1, ⟨[(5, [x])], [(0, [⟨0x800, 0, 0, [], 0, [], 1⟩])]⟩)] })] }

/-- LaunchSteps: a core in the placement set, that a record goes to, with an idle warp and without; the head of a queue,
a record and a card; a list with a record; a context that pre-emption bars; the least q with 33 records on one core. -/
theorem witness_seedbed :
    (let r : TaskRec := ⟨0x400, 5, 0x4000, [7], 5, [], 0⟩
     let s := pool0 (.task r)
     let t : State := { s with warps := [(0, wrp 0)] }
     (s.seed 0 1).queues.get [] 5 = .task r :: [] ∧ (∀ j ∈ [6, 7], (s.seed 0 1).queues.get [] j = [])
     ∧ s.placeSet 0 1 [] = [0] ∧ s.placeOf 0 1 [] r = some 0 ∧ s.idleOn 0 1 0 = some 0
     ∧ s.warp? 0 = some { wrp 0 with threads := [], table := [] } ∧ (s.infoOf (wrp 0)).isSome = true
     ∧ s.blocks.get? 3 = some blk ∧ (s.seed 0 1).lists.get [] 0 ≠ []
     ∧ t.placeOf 0 1 [] r = some 0 ∧ t.idleOn 0 1 0 = none
     ∧ (s.deal 0 1).nextId = 11 ∧ (State.deal { s with ctxs := [(1, { ctx0 with preempt := [(0, [])] })] } 0 1).nextId = 10)
    ∧ (let s := pool0 (.card 0x400 0x4000 16 3 0 0 0 false 0 [])
       (s.seed 0 1).queues.get [] 5 = .card 0x400 0x4000 16 3 0 0 0 false 0 [] :: [] ∧ s.placeSet 0 1 [] ≠ [])
    ∧ (33 : Nat) ≤ 4 * 1 * 9 ∧ ∀ j < 9, ¬33 ≤ 4 * 1 * j := by decide +kernel

/-- A saved block of one warp, saved soft before a clause with routines. -/
def kept0 : Saved :=
  { block := blk
    warps := [{ wrp 0 with save := some .soft, threads := [], captured := [(0, thr)] }]
    tiles := [(5, 9)]
    cmds := []
    excl := []
    waits := none }

/-- SaveSteps: a live thread whose clause has routines and one whose clause has none, a warp in no save and one saved; a
request that waits, with a block on the die and with none; a saved block that goes alone, and fits or does not. -/
theorem witness_saves :
    (let k : Kpb := { kpb0 with safes := [(0x400, 0x800, 0xC00)] }
     let s : State := { quiet 0 with launches := [(2, { lnc with kpb := some k })] }
     (∀ t ∈ (wrp 0).live, s.safeAt (wrp 0) ((wrp 0).thread t).pc ≠ none)
     ∧ s.safeAt (wrp 0) 0x400 = some (0x800, 0xC00) ∧ (wrp 0).threads.get? 0 = some thr ∧ thr.life = .live)
    ∧ 0 ∈ (wrp 0).live ∧ (quiet 0).safeAt (wrp 0) ((wrp 0).thread 0).pc = none
    ∧ (quiet 0).warp? 0 = some (wrp 0) ∧ (quiet 0).parked.get? 0 = none ∧ (wrp 0).save = none ∧ (wrp 0).freeze = none
    ∧ ({ wrp 0 with save := some .soft } : Warp).save = some .soft
    ∧ (let c : Ctx := { ctx0 with asked := [0] }
       let s : State := { quiet 0 with ctxs := [(1, c)] }
       s.ctxs.get? 1 = some c ∧ 0 ∈ c.asked ∧ (∃ x ∈ s.blocks.vals, x.ctx = 1 ∧ dieOfCore (x.cores.headD 0) = 0)
       ∧ ∀ x ∈ ({ s with blocks := [] } : State).blocks.vals, x.ctx = 1 → dieOfCore (x.cores.headD 0) ≠ 0)
    ∧ (let s : State := { quiet 0 with
         blocks := [], warps := [], launches := [(2, { lnc with info := { rcd with interlude := false } })], saved := [kept0] }
       s.together kept0 = [kept0] ∧ (s.placeSaved 0 kept0).isSome = true
       ∧ (State.placeSaved { s with ctxs := [(1, { ctx0 with preempt := [(0, [])] })] } 0 kept0).isNone = true
       ∧ (∀ z ∈ kept0.tiles, ∀ z' ∈ kept0.tiles, z' = z)
       ∧ (∀ w ∈ kept0.warps, w.save = some .soft ∧ w.freeze = none ∧ w.captured.get? 0 = some thr)
       ∧ ((s.resync 1).ctxs.get? 1).isSome = true) := by decide +kernel

/-- SaveSteps: a context that is not and one that is being pre-empted, a warp that is ready to save, one whose routine is
over, a grace period at its end, a block whose warps are saved, and no saved block. -/
theorem witness_save_steps :
    (quiet 0).ctxs.get? 1 = some ctx0 ∧ ctx0.preempt.get? 0 = none
    ∧ (let c : Ctx := { ctx0 with preempt := [(0, [(2, 5000)])] }
       let s : State := { quiet 0 with ctxs := [(1, c)], clock := 6000, mem := tables ++ [(0x4000, 0x10)] }
       s.ctxs.get? 1 = some c ∧ (c.preempt.get? 0).isSome = true
       ∧ c.preempt.get? 0 = some [(2, 5000)] ∧ SMap.get? [(2, 5000)] 2 = some 5000 ∧ 5000 ≤ s.time
       ∧ (let th := { thr with pc := 0x4000 }
          let w : Warp := { wrp 0 with threads := [(0, th), (1, th)] }
          let s : State := { s with warps := [(0, w)] }
          s.warp? s.turn.ix = some w ∧ s.readyToSave 0 w = true)
       ∧ (let w : Warp := { wrp 0 with save := some .soft }
          let s : State := { s with warps := [(0, w)] }
          s.blocks.get? 3 = some blk ∧ s.preempted blk.ctx (dieOfCore (blk.cores.headD 0)) = true ∧ s.blockSaved 3 blk = true
          ∧ ∀ x ∈ s.cmds, x.2.block = 3 → x.2.stoppable = true))
    ∧ (let th := { thr with routineEnd := true }
       let w : Warp := { wrp 0 with threads := [(0, th)], save := some .routine, captured := [(0, thr)] }
       let s : State := { quiet 0 with warps := [(0, w)] }
       s.warp? s.turn.ix = some w ∧ s.routineOver 0 w = true ∧ w.captured.get? 0 = some thr)
    ∧ (∀ x ∈ (quiet 0).saved, x.block.ctx ≠ 1) := by decide +kernel

/-- HandlerAndDebugSteps: a frozen warp whose context takes its trap's kind, and one of a context without a handler; a
frozen warp at rest, an escalated one; selectors; a queue and a launch that launch_end names. -/
theorem witness_handler_and_debug :
    (let w : Warp := { wrp 0 with freeze := some .waiting, trapinfo := 0x1B00000000000000 }
     let c : Ctx := { ctx0 with handler := 0x8000, kinds := 0x8000000 }
     let s : State := { quiet 0 with warps := [(0, w)], ctxs := [(1, c)] }
     s.warp? s.turn.ix = some w ∧ s.ctxs.get? w.ctx = some c ∧ s.stopped w = false ∧ c.handler ≠ 0
     ∧ c.kinds.getLsbD (w.trapinfo.toNat / 2 ^ 56) = true ∧ s.handlerReady 0 w = true
     ∧ ctx0.handler = 0 ∧ w.ctx = 1 ∧ w.freeze.isSome = true ∧ s.parked.get? 0 = none)
    ∧ selOk 0 = true ∧ selOk 0x9FF = true ∧ selOk 0xA00 = false
    ∧ twrBad (wrp 0) 0 0 5 [] = false ∧ atOnce 0 = false
    ∧ selNames .all 0 0 = true ∧ selNames (.one 0 1) 0 0 = false
    ∧ dbgOk dbgNone = true ∧ dbgOk { dbgNone with wps := Vector.replicate 4 ⟨0, false, 13, 0, 0⟩ } = false
    ∧ (let w : Warp := { wrp 0 with freeze := some .escalated, threads := [(0, thr), (32, thr)] }
       let y : Cmd := { cmd0 (.sysc 8 0 0 0) false with thread := 32, done := 1 }
       let s : State := { quiet 0 with warps := [(0, w)], cmds := [(5, y)] }
       s.warp? 0 = some w ∧ w.ctx = 1 ∧ w.freeze = some .escalated ∧ s.parked.get? 0 = none
       ∧ s.escalated8 0 w = some (5, y) ∧ s.escalated8 0 { w with double := some (0x8000, 0) } = none)
    ∧ ({ ctx0 with handler := 0x8000, kinds := 1 } : Ctx).kinds.getLsbD (0x1B00000000000000 / 2 ^ 56) = false
    ∧ (let s : State := { quiet 0 with queues := [(9, { que with consume := 1 })] }
       s.queueOf 1 0x4000 = some (9, { que with consume := 1 })
       ∧ 2 ^ 31 ≤ (BitVec.ofNat 32 (0 % 2 ^ 32) - ({ que with consume := 1 } : Queue).consume).toNat
       ∧ (s.launches.filter (fun x => x.2.queue = 9 && x.2.index = 0 % 2 ^ 32)).getLast? = some (2, lnc)
       ∧ lnc.closed = false ∧ s.queueOf 1 0x8000 = none ∧ ({ lnc with closed := true } : Launch).closed = true
       ∧ (BitVec.ofNat 32 (1 % 2 ^ 32) - ({ que with consume := 1 } : Queue).consume).toNat < 2 ^ 31) := by decide +kernel

def cfg0 : CellCfg := ⟨3, .add, .f32, 0x8000000010000, 0x20000, 0⟩

/-- HostSteps: a context in use and one that is not, headers that are good and not, cells, places in and out of the
address space, an open and a locked entry. -/
theorem witness_host_steps :
    (quiet 0).ctxBusy 1 = true
    ∧ (let s : State := { State.reset with ctxs := [(1, ctx0)], mem := tables ++ [(0x4008, 17)] }
       (s.ctxs.get? 1).isSome = true ∧ s.ctxBusy 1 = false
       ∧ ((s.ctxRead 1 0x4000 64).toOption.map headerGood) = some false
       ∧ ((s.ctxRead 1 0x8000 64).toOption.map headerGood) = some true)
    ∧ State.reset.cells.get? 5 = none ∧ State.reset.physical cfg0.window = some 0x10000
    ∧ State.reset.part.features.getLsbD 2 = true ∧ cfg0.window / 2 ^ 50 = 2 ∧ cfg0.window % 256 = 0
    ∧ cfg0.result < 2 ^ 39 ∧ cfg0.round < 2 ^ 39 ∧ (∀ k < 8, inCapFrame (0 + k) = false) ∧ State.reset.released = false
    ∧ (let y : Cell := ⟨cfg0, [(0, [])], []⟩
       ({ State.reset with cells := [(5, y)] } : State).cells.get? 5 = some y ∧ y.round ≠ [])
    ∧ (let s : State := { State.reset with cells := [(5, ⟨cfg0, [], []⟩)] }
       s.cells.get? 5 = some ⟨cfg0, [], []⟩ ∧ cfg0.members.getLsbD 1 = true ∧ (List.replicate 256 (0 : Byte)).length = 256)
    ∧ State.reset.physical 0 = some 0 ∧ State.reset.physical (0 + (8 - 1)) = some (0 + (8 - 1))
    ∧ (∀ k < 8, State.reset.secureMem (0 + k) = false ∧ State.reset.cellAt (0 + k) = false)
    ∧ State.reset.physical 0xC000000000000 = none ∧ reach (.read 0xC000000000000 4) = some (0xC000000000000, 4)
    ∧ (State.reset.regions.get (0, 0) 63).1.getLsbD 3 = false
    ∧ (let s : State := { State.reset with regions := [(63, (8, 0))] }
       (s.regions.get (0, 0) 63).1.getLsbD 3 = true)
    ∧ (∀ c ∈ State.reset.ordq, c.pkg ≠ 1) ∧ State.reset.trellis.id ≠ 1
    ∧ (let s : State := { State.reset with regions := [(0, (3, 0))], peerResv := [(1, 4, 0)] }
       s.secureMem 0 = true ∧ (1, 4, 0) ∈ s.peerResv ∧ (1, 5, 0) ∉ s.peerResv ∧ s.cellAt 0 = false) := by decide +kernel

/-- ErrorSteps: an error in what a launch owns and in a command, a PCIe load with its value, and a load from a peer that
no port reaches. -/
theorem witness_error_steps :
    (let s : State := { quiet 0 with turn := ⟨0, 0, 0, false, .scratchpad, .owned 2⟩ }
     s.turn.site = .owned 2 ∧ s.launches.get? 2 = some lnc ∧ s.turn.flag = false ∧ s.turn.store ≠ .l1Instr
     ∧ badPlace s.turn.store s.turn.k s.turn.m s.turn.ix = some (.sp 0))
    ∧ errHere .l2 (homeDie 0) 0 = true ∧ errHere .hbm (homeDie 0 + 1) 0 = false ∧ errHere .l2 0 (2 ^ 39) = false
    ∧ (let s : State := { withCmd .vswait true with turn := ⟨0, 0, 0, false, .hbm, .command 0⟩ }
       s.turn.site = .command 0 ∧ s.cmds.get? 0 = some (cmd0 .vswait true) ∧ s.turn.flag = false ∧ s.turn.store = .hbm)
    ∧ (let l : Load := { load0 with place := .mem 0x4000000000000 }
       let s : State := { quiet 0 with loads := [(0, l)] }
       s.loads.get? s.turn.ix = some l ∧ l.place.pcie = true ∧ l.homed = false ∧ l.val = some [9] ∧ l.sx = false
       ∧ l.bytes = 8 ∧ s.turn.flag = false)
    ∧ (let p : Place := .mem 0x8300000000000
       let s : State := { quiet 0 with loads := [(0, { load0 with place := p })] }
       let l : Load := { load0 with place := p }
       p.peer = some 3 ∧ s.loads.get? s.turn.ix = some l ∧ l.places.find? (fun p => !s.reaches p) = some p ∧ s.turn.m = 0
       ∧ s.turn.ix = 0) := by decide +kernel

/-! ### Witnesses for what happens at the end of an issue, at the home, and in traps -/

def rep (t k : Nat) : TrapRep := { thread := t, kind := k, syl := 1, exp := none, code := 0, detail := 5 }

/-- MatrixSignatures: a thread that its join expects and one that it does not, a good format and descriptors, a
signature that agrees with the one captured and one that does not. -/
theorem witness_signatures :
    (let y : Join := ⟨1, 0, 0, false, none⟩
     let i : Issue := { iss [pth 0] with entryJoins := [(2, y)] }
     let c : Capture := ⟨0x20A, 0, false, 4, 0, 0, 0, 0, 0, 0x400, 0, []⟩
     joinSeen i (wrp 2) i.paths 2 = y ∧ bitOf y.expected 0 = true ∧ bitOf y.expected 1 = false
     ∧ mxFmtOk 2 c.fmt = true ∧ (quiet 2).hasFormat 2 c.fmt = true ∧ c.body.ok 32 = true
     ∧ (quiet 2).mxSparseOk 3 0 ((quiet 2).pathByte i (pth 0)) c.body = true ∧ c.body.ok 8 = false ∧ mxFmtOk 0 0xF = false
     ∧ (quiet 2).lacksSparse (.mxzero .always (.int 4) 0 2) = false
     ∧ ({ quiet 2 with part := { Part.base with features := 0 } } : State).lacksSparse
       (.mxsmac .always (.int 4) 8 12 (.int 0) 0 2 false) = true
     ∧ (pth 0).overflows i.setB = false ∧ y.capture = none ∧ c.agrees c = true ∧ c.agrees { c with acc := 5 } = false
     ∧ (let p : Path := { pth 0 with fx := [Fx.mx 0 2 c (some 4) true] }
        let q : Path := { pth 1 with fx := [Fx.mx 0 2 { c with acc := 5 } (some 4) true] }
        let i : Issue := { iss [p, q] with entryJoins := [(2, { y with expected := 3 })] }
        (joinSeen i (wrp 2) i.paths 2).capture = none ∧ i.paths = p :: [q]
        ∧ bitOf (joinSeen i (wrp 2) i.paths 2).expected 0 = true ∧ (quiet 2).verdict i (wrp 2) p = none
        ∧ ((quiet 2).verdict i (wrp 2) q).map PFault.kind = some 20
        ∧ (joinSeen { i with entryJoins := [(2, { y with capture := some c })] } (wrp 2) i.paths 2).capture = some c)) := by
  decide +kernel

/-- HandlerInstructions: selectors at the bounds of every range, and writes that a TWR may make. -/
theorem witness_selectors :
    ([0, 0xFF, 0x100, 0x101, 0x102, 0x103, 0x104, 0x105, 0x108, 0x10B, 0x110, 0x11B, 0x120, 0x121, 0x130, 0x140, 0x143,
      0x200, 0x23F, 0x400, 0x7FF, 0x800, 0x9FF].all selOk && [0x106, 0x107, 0x10C, 0x11C, 0x122, 0x131, 0x144, 0x240,
      0x3FF, 0xA00].all (fun k => !selOk k)) = true
    ∧ (mc 0 [pth 0]).blocks.get? (wrp 0).block = some blk ∧ (blk.bar 3).p = false ∧ 3 < blk.nbars ∧ blk.nbars ≤ 4
    ∧ ({ thr with arrivals := [(0, (3, false)), (1, (3, true))] } : Thread).arrivals.get? 0 = some (3, false)
    ∧ ({ thr with blocked := [.token] } : Thread).blocked = .token :: []
    ∧ twrBad (wrp 0) 0 0x130 1 (editsSoFar (wrp 0) (pth 32)) = false
    ∧ twrBad (wrp 0) 0 0x105 4 (editsSoFar (wrp 0) (pth 32)) = false
    ∧ twrBad (wrp 0) 0 0x400 9 (editsSoFar (wrp 0) (pth 32)) = false
    ∧ twrBad (wrp 0) 0 0x105 5 (editsSoFar (wrp 0) (pth 32)) = true := by decide

/-- TakingATrap: two reports of threads in order, the primary's first among the faults; and two traps of other kinds. -/
theorem witness_trap :
    (let rs := [rep 0 2, rep 1 7]
     let r := rep 1 7
     (quiet 0).warp? 0 = some (wrp 0) ∧ (∀ q ∈ rs, q.thread < 32 ∧ q.kind < 28 ∧ q.syl < 32 ∧ q.exp.getD 0 < 4)
     ∧ rs.Pairwise (fun x y => x.thread < y.thread) ∧ r ∈ rs
     ∧ (if 4 ≤ r.kind then ∀ q ∈ rs, 4 ≤ q.kind → r.thread ≤ q.thread
        else ∀ q ∈ rs, q.kind < 4 ∧ r.thread ≤ q.thread))
    ∧ (let rs := [rep 0 3, rep 1 0]
       let r := rep 0 3
       (if 4 ≤ r.kind then ∀ q ∈ rs, 4 ≤ q.kind → r.thread ≤ q.thread
        else ∀ q ∈ rs, q.kind < 4 ∧ r.thread ≤ q.thread)) := by decide

/-- ReturnFromTrap, FaultRollsBack and PathCommits: a warp with and without edits, an issue of one path that has faulted, a
path that sends nothing. -/
theorem witness_boundary :
    (quiet 0).warp? 0 = some (wrp 0) ∧ (wrp 0).edits = []
    ∧ ({ wrp 0 with edits := [(0, 0x105, 4)] } : Warp).edits ≠ [] ∧ (4 : Word).toNat ≤ 4 ∧ (wrp 0).threads.get? 0 = some thr ∧ thr.life = .live
    ∧ (let p := { pth 0 with fault := some ⟨7, 1, none, 4⟩ }
       (iss [p]).paths = [p] ∧ p.fault = some ⟨7, 1, none, 4⟩ ∧ p.t < 32 ∧ (iss [p]).broke = 0 ∧ (wrp 0).freeze = none
       ∧ (wrp 0).save = none)
    ∧ (pth 0).fx = [] := by decide

/-- HomeOperations: an address in no cell's window, a load to answer, a word that can and one that cannot be corrected,
a reservation that stands and none. -/
theorem witness_home :
    (quiet 0).cellAt 0x4000 = false
    ∧ (let s : State := { quiet 0 with loads := [(0, load0)] }
       s.loads.get? 0 = some load0 ∧ s.lost (.mem 0x4000) 8 = false
       ∧ ({ s with bad := [.mem 0x4000] } : State).lost (.mem 0x4000) 8 = true ∧ (s.resvOf 0 0).any (fun r => r.granule == 0x4000 / 32) = false)
    ∧ (let w : Warp := { wrp 0 with threads := [(0, { thr with resv := some ⟨0x200, 0x4000⟩ })] }
       let s : State := { quiet 0 with warps := [(0, w)] }
       (s.resvOf 0 0).any (fun r => r.granule == 0x4000 / 32) = true) := by decide

/-- OrderedContributions: a word outside the capability list's frame, one in it and one that runs into it, whatever the
frame is; contributions of one thread to one word and to two. -/
theorem witness_contributions :
    (∀ k < 8, inCapFrame (0x4000 + k) = false)
    ∧ (∃ a, (∃ k < 4, inCapFrame (a + k) = true) ∧ (∃ k < 4, inCapFrame (a - 2 + k) = true) ∧ inCapFrame (a - 2) = false)
    ∧ (let c : Contrib := ⟨0x4000, false, 1, ⟨0, 0, 5, 0⟩, 0, 2⟩
       ((State.reset.numbered c 0).1.numbered c 0).2.key.seq = 1
       ∧ ((State.reset.numbered c 0).1.numbered { c with pa := 0x4008 } 0).2.key.seq = 0) := by
  refine ⟨by decide, ⟨2 ^ 20 * (2 ^ 18 + Config.capFrame % 2 ^ 18), ⟨0, by decide, ?_⟩, ⟨2, by decide, ?_⟩, ?_⟩, by decide⟩
  · simp only [inCapFrame, Bool.and_eq_true, decide_eq_true_eq]
    omega
  · simp only [inCapFrame, Bool.and_eq_true, decide_eq_true_eq]
    omega
  · simp only [inCapFrame, Bool.and_eq_false_iff, decide_eq_false_iff_not]
    omega

/-- StepRunsTheDecodedInstruction: a syllable that decodes, one that does not, an issue at its end; a store that is
overdue whatever the bound is; an order of the outside, with an issue set aside and without; and nothing in the way. -/
theorem witness_step :
    (let s : State := { mc 0 [pth 0] with burst := 1 }
     let i := iss [pth 0]
     s.issue = some i ∧ s.burst = 0 + 1 ∧ i.current = some (pth 0) ∧ (slots i.header)[(pth 0).next]? = some .root
     ∧ i.words[(pth 0).next]? = some 0x2380000000000000 ∧ decode Slot.root.pos 0x2380000000000000 = .ok .nop)
    ∧ decode Slot.root.pos 0x0340000000000000 = .error .illegal
    ∧ (iss [{ pth 0 with leaf := some .exit }]).current = none
    ∧ (let s : State := { quiet 0 with agenda := [(.dbgAttach, Turn.zero)] }
       s.issue = none ∧ s.overdue = none ∧ s.parked = [] ∧ s.agenda = (.dbgAttach, Turn.zero) :: [])
    ∧ (let s : State := { quiet 0 with agenda := [(.dbgAttach, Turn.zero)], parked := [(0, iss [pth 0])] }
       s.issue = none ∧ s.overdue = none ∧ s.parked = (0, iss [pth 0]) :: [])
    ∧ (quiet 0).issue = none ∧ (quiet 0).overdue = none ∧ (quiet 0).agenda = [] := by decide

theorem witness_overdue :
    ({ onWay (.store [1]) with clock := Config.performBound } : State).overdue = some (.storePerform, Turn.zero) := by
  simp [State.overdue, State.overdueAt, mayPerform, StItem.due, State.late, State.reaches, Place.peer, show ¬ region 16384 = 2 by decide, onWay, item0,
    StItem.instr, quiet, Turn.zero]

/-- ResetAndStart: the first and the last rank of a block of two threads. -/
theorem witness_ranks : 0 < rcd.x * rcd.y * rcd.z ∧ 1 < rcd.x * rcd.y * rcd.z ∧ ¬2 < rcd.x * rcd.y * rcd.z := by decide

/-- StepKeepsMemory: a state whose memories are in canonical form, and whose step answers a next state. -/
theorem witness_memory_kept :
    (quiet 0).memOk ∧ Memory.wf State.reset.mem = true
    ∧ (match step { mc 0 [pth 0] with burst := 1 } with
      | .next t => t.issue.map (fun i => i.paths.map Path.next)
      | _ => none) = some [1] := by
  refine ⟨⟨by decide, by decide, by decide⟩, by decide, by decide +kernel⟩

/-- DecodeOfEncode: an instruction with an encoding. -/
theorem witness_encoding : Instr.isStep .nop = false ∧ Instr.wf .nop = true ∧ encode .nop = 0x2380000000000000 := by decide

/-! ### Single steps -/

/-- The path of thread 0 after instruction `i`, its registers v10, v11, v12 and v13 holding `a`, `b`, `c` and `e`
before. -/
def after (i : Instr) (a b c : Word := 0) (e : Word := 0) : Option Path :=
  let p := withV (withV (withV (withV (pth 0) 10 a) 11 b) 12 c) 13 e
  match exec i (mc ((unitRole i).getD 0) [p]) with
  | .next t => t.issue.bind (fun x => x.paths.head?)
  | _ => none

/-- The paths after an instruction in a machine. -/
def pathsAfter (i : Instr) (s : State) : List Path :=
  match exec i s with
  | .next t => (t.issue.map Issue.paths).getD []
  | _ => []

/-- What it leaves in v13. -/
def gives (i : Instr) (a b c : Word := 0) (e : Word := 0) : Option Word :=
  (after i a b c e).map (fun p => p.th.v.get 0 13)

/-- And in $flags. -/
def raises (i : Instr) (a b c : Word := 0) (e : Word := 0) : Option Flags := (after i a b c e).map (fun p => p.th.flags)

abbrev G : Guard := .always
abbrev D : Operand := .v 13
abbrev A : Operand := .v 10
abbrev B : Operand := .v 11
abbrev C : Operand := .v 12
abbrev FA : FSrc := ⟨.v 10, false, false⟩
abbrev FB : FSrc := ⟨.v 11, false, false⟩

/-- R131, R132: 0x7FFF_FFFF + 1 wraps and is sign-extended, or is clamped. -/
theorem test_add : gives (.add G D A B .i32 false) 0x7FFFFFFF 1 = some 0xFFFFFFFF80000000
    ∧ gives (.add G D A B .i32 true) 0x7FFFFFFF 1 = some 0x7FFFFFFF := by decide

/-- R131: 3 − 7 in .n8 is 252; in .i8x8 each byte borrows alone. -/
theorem test_sub : gives (.sub G D A B .n8 false) 3 7 = some 252
    ∧ gives (.sub G D A B .i8x8 false) 0x0100 0x0001 = some 0x01FF := by decide

/-- R134: −2 × 3 = −6: its low half, and its high half −1. -/
theorem test_mul : gives (.mul G D A B .i32 false) 0xFFFFFFFE 3 = some 0xFFFFFFFFFFFFFFFA
    ∧ gives (.mulh G D A B .i32) 0xFFFFFFFE 3 = some 0xFFFFFFFFFFFFFFFF := by decide

/-- R135: −7 / 2 = −3 with remainder −1; a zero divisor. -/
theorem test_div : gives (.div G D A B .i32 false) 0xFFFFFFF9 2 = some 0xFFFFFFFFFFFFFFFD
    ∧ gives (.rem G D A B .i32) 0xFFFFFFF9 2 = some 0xFFFFFFFFFFFFFFFF
    ∧ gives (.div G D A B .n32 false) 5 0 = some 0xFFFFFFFF ∧ gives (.rem G D A B .n32) 5 0 = some 5 := by decide

/-- R135: the quotient that does not fit wraps, or is clamped. -/
theorem test_div_overflow : gives (.div G D A B .i32 false) 0x80000000 0xFFFFFFFF = some 0xFFFFFFFF80000000
    ∧ gives (.div G D A B .i32 true) 0x80000000 0xFFFFFFFF = some 0x7FFFFFFF := by decide

/-- R136, R137: 0xFFFF_FFFF × 2 + 1 without sign; 0x1000 + (3 << 4). -/
theorem test_madw_lea : gives (.madw G D A B C false false) 0xFFFFFFFF 2 1 = some 0x1FFFFFFFF
    ∧ gives (.lea G D A B C .n32) 0x1000 3 4 = some 0x1030 := by decide

/-- R80: 100 − 7, and the least immediate. -/
theorem test_immediates : gives (.subRevImm G D A .i32 100) 7 = some 93
    ∧ gives (.addImm G D A .n32 0x10000000) 0 = some 0xF0000000 := by decide

/-- R138: entry a + 2b + 4c of 0xCA is b where c is set, else a. -/
theorem test_truth : gives (.truth G D A B C 0xCA) 0b0011 0b0101 0b1100 = some 0b0111 := by decide

/-- R139: counts at and above the width; a rotation by one; a funnel. -/
theorem test_shifts : gives (.shl G D A B .n8) 0xFF 8 = some 0 ∧ gives (.sar G D A B .i32) 0x80000000 99 = some 0xFFFFFFFFFFFFFFFF
    ∧ gives (.rotl G D A B .n8) 0x81 1 = some 3 ∧ gives (.fshl G D A B C .n32) 1 0x80000000 1 = some 3 := by decide

/-- R140: bits 7:4 of 0xF0, signed and not; 0xA put at 8. -/
theorem test_bit_fields : gives (.bfx G D A B C .i32) 0xF0 4 4 = some 0xFFFFFFFFFFFFFFFF
    ∧ gives (.bfx G D A B C .n32) 0xF0 4 4 = some 15 ∧ gives (.bfi G D A B C .n16) 0xFFFF 0xA 0x0408 = some 0xFAFF := by
  decide

/-- R141. -/
theorem test_counts : gives (.popc G D A .i16x4) 0x000F00FF = some 0x00040008 ∧ gives (.clz G D A .n8) 1 = some 7
    ∧ gives (.ctz G D A .i32) 0 = some 32 ∧ gives (.brev G D A .n8) 1 = some 0x80 := by decide

/-- R142, R143: the immediate's sign, the high half, the example's depth. -/
theorem test_moves : gives (.movi G D 0x1FFFFF9C) = some 0xFFFFFFFFFFFFFF9C
    ∧ gives (.movhi G D 0xDEADBEEF) 0 0 0 0x11111111 = some 0xDEADBEEF11111111
    ∧ gives (.sel G D A B 2) 5 6 = some 5 ∧ gives (.sel G D A B 3) 5 6 = some 6 := by decide

/-- R144: `cmp.lt.n32 v, -1` compares with 0xFFFF_FFFF, and the stack moves down. -/
theorem test_compare : (after (.cmpImm G .lt A .n32 0x1FFFFFFF) 7).map (fun p => p.th.d) = some 0b1111
    ∧ (after (.cmp G .tcl A B .i32) 5 1).map (fun p => p.th.d) = some 0b1110 := by decide

/-- R145, R146, with d0, d1 and d2 true: exclusive or of d0 and d3; two depths gone. -/
theorem test_predicates : (after (.pcomb G 0b01100110 0 3 4) 0).map (fun p => p.th.d.getLsbD 0) = some false
    ∧ (after (.pdrop G 2)).map (fun p => p.th.d) = some 1 ∧ gives (.pget G D) = some 7 := by decide

/-- R51: the test of R52's example: −5 < 0 goes to child 3, 7 to child 2. -/
theorem test_node : (after (.testCmpReg .lt A (.int 32) (.i .i32)) 0xFFFFFFFFFFFFFFFB).map Path.pos = some 3
    ∧ (after (.testCmpReg .lt A (.int 32) (.i .i32)) 7).map Path.pos = some 2 := by decide

/-- R63: JMP to 24 words beyond the clause at 0x400 (R52's example); CALL pushes the address after its three syllables. -/
theorem test_leaves : (after (.leafJmp 24)).map Path.leaf = some (some (.go 0x4C0))
    ∧ (after (.leafCall 24)).map (fun p => p.th.ret) = some [0x420]
    ∧ (after .leafRet).map (fun p => p.fault.map PFault.kind) = some (some 15) := by decide

/-- R114, R154: 1 + 2 = 3; the greatest finite FP32 value doubled overflows with NX. -/
theorem test_fadd : gives (.fadd G D FA FB .f32 .rne false) 0x3F800000 0x40000000 = some 0x40400000
    ∧ gives (.fadd G D FA FA .f32 .rne false) 0x7F7FFFFF = some 0x7F800000
    ∧ raises (.fadd G D FA FA .f32 .rne false) 0x7F7FFFFF = some (flOF ||| flNX) := by decide

/-- R154: (1 + 2^-23)^2 − (1 + 2^-22) = 2^-46, which two roundings would lose. -/
theorem test_fma : gives (.fma G D FA FA B true .f32 .rne false) 0x3F800001 0x3F800002 = some 0x28800000 := by decide

/-- R157: −0.3 becomes −0, 2.5 becomes 2, 3.5 becomes 4. -/
theorem test_frnd : gives (.frnd G D FA .f32 .rne false) 0xBE99999A = some 0x80000000
    ∧ gives (.frnd G D FA .f32x2 .rne false) 0x4060000040200000 = some 0x4080000040000000 := by decide

/-- R156, R157: minimum of −0 and +0; class of −0; exponent of 12. -/
theorem test_fmin_class_expo : gives (.fmin G D FA FB .f32 false false) 0 0x80000000 = some 0x80000000
    ∧ gives (.fclass G D FA .f64 false) 0x8000000000000000 = some 32
    ∧ gives (.fexpo G D FA .f32 false) 0x41400000 = some 0x40400000 := by decide

/-- R160's examples: {0.8125, −0.25} in the block 0x003D_7E00, and 3e10 to .i32 under .sat. -/
theorem test_conversions :
    (gives (.fcvt G D A D C .e2m1 .f32x2 .rne false false) 0xBE8000003F500000 0 0x003D7E00).map (·.extractLsb' 0 8)
      = some 0x98
    ∧ gives (.cvti G D A (.v 0) (.int 32) .i32 .f64 .rtz true false) 0x421BF08EB0000000 = some 0x7FFFFFFF
    ∧ raises (.cvti G D A (.v 0) (.int 32) .i32 .f64 .rtz true false) 0x421BF08EB0000000 = some flNX := by decide

/-- R161: EXP2 of 3 and SQRT of 4 raise no NX; RCP of −0. -/
theorem test_functions : gives (.exp2 G D A .f32 false .rne false) 0x40400000 = some 0x41000000
    ∧ raises (.exp2 G D A .f32 false .rne false) 0x40400000 = some 0
    ∧ gives (.sqrt G D A .f32 false .rne false) 0x40800000 = some 0x40000000
    ∧ gives (.rcp G D A .f32 true .rne false) 0x80000000 = some 0xFF800000 := by decide +kernel

/-- R170: 3 × 5, in the first elements of m1 and m2. -/
theorem test_matrix : (pathsAfter (.mmul G 0 1 2 1 ⟨false, 0, 0⟩ false)
      (mc 0 [withV (withV (pth 0) 82 0x40400000) 100 0x40A00000])).map (fun p => p.th.v.get 0 64) = [0x41700000] := by
  decide +kernel

/-- R180, R181: an instruction leaves its load; read, the bytes of the tables are little-endian, and a byte of a store
of the same path is loaded with its sign. -/
theorem test_load :
    (pathsAfter (.ldN 13 ⟨.always, .v 10, .w, .plain, .core, 0⟩) (mc 0 [withV (pth 0) 10 0x1000])).flatMap
      (fun p => p.fx.filterMap (fun x => x.read?.map (fun l => (l.place, l.bytes, l.val)))) = [(Place.mem 0x1000, 4, none)]
    ∧ ((quiet 0).readLoad { rdr0 with own := [] } false { load0 with place := .mem 0x1000, bytes := 4 }).2.val = some [0x2001]
    ∧ ((quiet 0).readLoad { rdr0 with own := [(.mem 0x4000, [0x80])] } false { load0 with bytes := 1, sx := true }).2.val
      = some [0xFFFFFFFFFFFFFF80] := by decide +kernel

/-- R178: a misaligned load faults with kind 7 and its address. -/
theorem test_misaligned : (after (.ldN 13 ⟨.always, .v 10, .w, .plain, .core, 0⟩) 0x4002).bind Path.fault
    = some ⟨7, 1, none, 0x4002⟩ := by decide

/-- R196: an atomic add at the home, and what it answers. -/
theorem test_atomic :
    (let s : State := { quiet 0 with loads := [(0, { load0 with val := none })], mem := tables ++ [(0x4000, 5)] }
     let t := s.perform 0 (item0 (.atom .add 0xFE 0 false (some 0)))
     rdNat t.mem 0x4000 4 = 0x103 ∧ (t.loads.get? 0).bind Load.val = some [5]) := by decide +kernel

/-- R190–R192: a conditional store under its reservation writes 1 word and answers 1; the reservation is gone. -/
theorem test_scond :
    (let w : Warp := { wrp 0 with threads := [(0, { thr with resv := some ⟨0x200, 0x4000⟩ })] }
     let s : State := { quiet 0 with warps := [(0, w)], loads := [(0, { load0 with val := none })] }
     let t := s.perform 0 (item0 (.scond 9 false 0))
     rdNat t.mem 0x4000 4 = 9 ∧ (t.loads.get? 0).bind Load.val = some [1] ∧ t.resvOf 0 0 = none) := by decide +kernel

/-- Threads 0 and 1 before a collective. -/
def atCollective : State :=
  { quiet 0 with issue := some { iss [pth 0, pth 1] with words := [0x21C0038000000000, 0x2380000000000000, 0] } }

/-- R205: 7 and 7 in threads 0 and 1: their sum, and their running sum. -/
theorem test_collectives :
    (pathsAfter (.redw G (.v 13) (.v 1) .rne false (.i .i32) .add) atCollective).map (fun p => p.th.v.get 0 13)
      = [14, 14]
    ∧ (pathsAfter (.scan G 13 (.v 1) none .rne false (.i .i32) .add) atCollective).map
      (fun p => p.th.v.get 0 13) = [7, 14] := by decide +kernel

/-- R82: 1·5 + 2·6 + 3·7 + 4·8 + 100. -/
theorem test_dot4 : gives (.dot4 G 13 A B C true) 0x04030201 0x08070605 100 = some 170 := by decide

/-- R41: two arrivals of two end the phase. -/
theorem test_barrier :
    (let b : Block := { blk with bars := [(0, ⟨2, 2, 1, false, true, [5], []⟩)] }
     let s : State := { quiet 0 with blocks := [(3, b)] }
     ((s.barTest 3 0 true).blocks.get? 3).map (fun b => b.bar 0) = some ⟨1, 0, 0, true, true, [], [5]⟩) := by decide +kernel

/-- R63, R66: the end of an issue whose path ends in EXIT: the thread is dead and its PC is the next clause. -/
theorem test_exit :
    (let p := { pth 0 with leaf := some .exit, th := { thr with pc := 0x420 } }
     let t := (mc 0 [p]).finishIssue (iss [p])
     (t.warp? 0).map (fun w => (w.thread 0).life) = some .dead
     ∧ (t.warp? 0).map (fun w => (w.thread 1).life) = some .live) := by decide +kernel

/-- R245: an access from outside where no memory is. -/
theorem test_no_such_address : (match exec (.pcieEndpointAccess (.read 0x8000000000 1)) State.reset with
    | .fault (.noSuchAddress p) => p
    | _ => 0) = 0x8000000000 := by decide

/-- A fetched word runs: from reset the word of NOP is placed and its syllable is the next step. -/
theorem test_fetch_word : (match step (State.reset.withFetchWord 64 0x2380000000000000) with
    | .next t => t.issue.map (fun x => x.paths.map Path.weight)
    | _ => none) = some [1] := by decide +kernel

end Sys2Proof.Tests
end

section
/-! Joins (R37, R38): the masks that a verdict reads, what ending a wait does to each thread, and the command that a
capture sends. With them, O34. -/

namespace Sys2Proof.Machine

/-! ### Masks of threads -/

@[simp] theorem bitOf_and (a b : Mask) (t : Nat) : bitOf (a &&& b) t = (bitOf a t && bitOf b t) :=
  BitVec.getLsbD_and

@[simp] theorem bitOf_or (a b : Mask) (t : Nat) : bitOf (a ||| b) t = (bitOf a t || bitOf b t) :=
  BitVec.getLsbD_or

theorem bitOf_one_shiftLeft (u : Nat) {t : Nat} (h : t < 32) : bitOf ((1 <<< u : Nat) : Mask) t = decide (u = t) := by
  rw [bitOf, BitVec.natCast_eq_ofNat, BitVec.getLsbD_ofNat, Nat.one_shiftLeft, Nat.testBit_two_pow]
  simp [h]

theorem bitOf_foldl_or (ts : List Nat) (m : Mask) {t : Nat} (h : t < 32) :
    bitOf (ts.foldl (fun m u => m ||| (1 <<< u)) m) t = (bitOf m t || decide (t ∈ ts)) := by
  induction ts generalizing m with
  | nil => simp
  | cons u us ih =>
    rw [List.foldl_cons, ih, bitOf_or, bitOf_one_shiftLeft u h]
    simp [Bool.or_assoc, eq_comm]

theorem bitOf_maskOf (ts : List Nat) {t : Nat} (h : t < 32) : bitOf (maskOf ts) t = decide (t ∈ ts) := by
  rw [maskOf, bitOf_foldl_or ts 0 h]
  simp [bitOf]

theorem Warp.bitOf_liveMask (w : Warp) {t : Nat} (h : t < 32) : bitOf w.liveMask t = ((w.thread t).life == .live) := by
  rw [Warp.liveMask, bitOf_maskOf _ h, Bool.eq_iff_iff]
  simp [h]

theorem threadsOf_eq_nil_iff (m : Mask) : threadsOf m = [] ↔ m = 0 := by
  constructor
  · intro h
    refine BitVec.eq_of_getLsbD_eq fun t ht => ?_
    have hnot : ¬ bitOf m t = true := List.filter_eq_nil_iff.mp h t (List.mem_range.mpr ht)
    simpa [bitOf] using hnot
  · rintro rfl
    simp [threadsOf, bitOf]

/-! ### Verdicts (R38) -/

/-- The live threads that a join expects and that have not signed it. -/
def Warp.missing (w : Warp) (j : Join) : Mask := j.expected &&& ~~~j.signed &&& w.liveMask

theorem Warp.threadsOf_missing (w : Warp) (j : Join) :
    threadsOf (w.missing j) = (List.range 32).filter (fun t =>
      j.expected.getLsbD t && !j.signed.getLsbD t && ((w.thread t).life == .live)) := by
  refine List.filter_congr fun t ht => ?_
  have h : t < 32 := List.mem_range.mp ht
  rw [Warp.missing, bitOf_and, bitOf_and, w.bitOf_liveMask h]
  simp [bitOf, h]

theorem Thread.isBlocked_iff (th : Thread) : th.isBlocked = true ↔ th.blocked ≠ [] := by
  simp [Thread.isBlocked]

theorem Warp.verdict_eq_complete (w : Warp) (j : Join) :
    w.verdict j = some false ↔ j.signed ≠ 0 ∧ w.missing j = 0 := by
  by_cases hm : w.missing j = 0#32 <;> simp [Warp.verdict, ← Warp.missing.eq_1, hm]

theorem Warp.verdict_eq_break (w : Warp) (j : Join) :
    w.verdict j = some true ↔ j.waiters ≠ 0 ∧ w.missing j ≠ 0
      ∧ ∀ t ∈ threadsOf (w.missing j), (w.thread t).blocked ≠ [] := by
  by_cases hm : w.missing j = 0#32 <;> simp [Warp.verdict, ← Warp.missing.eq_1, Thread.isBlocked_iff, hm]

/-! ### The end of a wait -/

theorem SMap.get?_map {α β : Type} (m : SMap α) (f : Nat → α → β) (t : Nat) :
    SMap.get? (m.map (fun c => (c.1, f c.1 c.2))) t = (m.get? t).map (f t) := by
  induction m with
  | nil => rfl
  | cons c r ih =>
    obtain ⟨k, x⟩ := c
    by_cases h : k = t
    · simp [SMap.get?, h]
    · simpa [SMap.get?, h] using ih

theorem Warp.unblockIf_get? (w : Warp) (p : Nat → Blocked → Bool) (t : Nat) :
    (w.unblockIf p).threads.get? t
      = (w.threads.get? t).map (fun th => { th with blocked := th.blocked.filter (fun b => !p t b) }) :=
  SMap.get?_map (β := Thread) w.threads (fun t th => { th with blocked := th.blocked.filter (fun b => !p t b) }) t

@[simp] theorem Warp.freeWaiters_join (w : Warp) (k : Nat) (m : Mask) (i : Nat) :
    (w.freeWaiters k m).join i = w.join i := rfl

@[simp] theorem Warp.setJoin_threads (w : Warp) (k : Nat) (x : Join) : (w.setJoin k x).threads = w.threads := rfl

@[simp] theorem Warp.setJoin_join_self (w : Warp) (k : Nat) (x : Join) : (w.setJoin k x).join k = x :=
  SMap.get_set_self w.joins Join.clear k x

theorem Warp.setJoin_join_ne (w : Warp) {k i : Nat} (x : Join) (h : i ≠ k) : (w.setJoin k x).join i = w.join i :=
  SMap.get_set_ne w.joins Join.clear x h

/-- The threads of the mask lose their wait at join k, and no thread loses another. -/
theorem Warp.freeWaiters_blocked {w : Warp} {t : Nat} {th : Thread} (k : Nat) (m : Mask)
    (h : w.threads.get? t = some th) :
    ∃ th', (w.freeWaiters k m).threads.get? t = some th'
      ∧ ∀ y, y ∈ th'.blocked ↔ y ∈ th.blocked ∧ ¬(bitOf m t = true ∧ ∃ n, y = .join n ∧ n.toNat = k) := by
  rw [Warp.freeWaiters, Warp.unblockIf_get?, h]
  refine ⟨_, rfl, fun y => ?_⟩
  rw [List.mem_filter]
  refine and_congr_right fun _ => ?_
  cases y with
  | join n => simp [imp_iff_not_or, and_comm]
  | barrier | waita | ring | grow | token => simp

/-! ### What a verdict does -/

/-- The warp after join k of it has completed or broken. -/
def Warp.joinEnd (w : Warp) (k : Nat) (broke : Bool) : Warp :=
  let j := w.join k
  (w.setJoin k ⟨j.expected, 0, 0, j.lost || broke, none⟩).freeWaiters k j.waiters

theorem Warp.joinEnd_join_self (w : Warp) (k : Nat) (broke : Bool) :
    (w.joinEnd k broke).join k = ⟨(w.join k).expected, 0, 0, (w.join k).lost || broke, none⟩ := by
  simp [Warp.joinEnd]

theorem Warp.joinEnd_join_ne (w : Warp) {k i : Nat} (broke : Bool) (h : i ≠ k) :
    (w.joinEnd k broke).join i = w.join i := by
  simp [Warp.joinEnd, Warp.setJoin_join_ne w _ h]

theorem State.joinApply_of_none {s : State} {slot k : Nat} {w : Warp} {broke : Bool} (h : (w.join k).capture = none) :
    s.joinApply slot k w broke = s.setWarp slot (w.joinEnd k broke) := by
  simp only [State.joinApply, h]
  rfl

theorem State.joinApply_of_some {s : State} {slot k : Nat} {w : Warp} {broke : Bool} {c : Capture}
    (h : (w.join k).capture = some c) :
    s.joinApply slot k w broke
      = (s.setWarp slot (w.joinEnd k broke)).sendCapture slot (w.joinEnd k broke) c := by
  simp only [State.joinApply, h]
  rfl

@[simp] theorem State.sendCapture_warps (s : State) (slot : Nat) (w : Warp) (c : Capture) :
    (s.sendCapture slot w c).warps = s.warps := rfl

theorem State.sendCapture_cmds (s : State) (slot : Nat) (w : Warp) (c : Capture) :
    ∃ x : Cmd, (s.sendCapture slot w c).cmds = s.cmds.put s.nextId x
      ∧ x.body = c.body ∧ x.thread = c.thread ∧ x.opcode = c.op ∧ x.flags = c.signers ∧ x.warp = slot
      ∧ x.core = coreOf slot ∧ x.accepted = false :=
  ⟨_, rfl, rfl, rfl, rfl, rfl, rfl, rfl, rfl⟩

theorem State.joinApply_warp? (s : State) (slot k : Nat) (w : Warp) (broke : Bool) :
    (s.joinApply slot k w broke).warp? slot = some (w.joinEnd k broke) := by
  cases h : (w.join k).capture with
  | none => simp [State.joinApply_of_none h, State.warp?]
  | some c => simp [State.joinApply_of_some h, State.warp?]

/-- Settles O34: a verdict is read off the mask of the missing threads, and `Warp.joinEnd` is the warp that
`State.joinApply` leaves, captured command or not. -/
theorem joinVerdicts : Obligations.JoinVerdicts := by
  intro s slot k w broke j miss
  have hmiss : threadsOf (w.missing j) = miss := w.threadsOf_missing j
  have hempty : miss = [] ↔ w.missing j = 0 := hmiss ▸ threadsOf_eq_nil_iff (w.missing j)
  have hsome : miss ≠ [] ↔ w.missing j ≠ 0 := not_congr hempty
  refine ⟨?complete, ?breaks, ?silent, ?sends, w.joinEnd k broke, State.joinApply_warp? s slot k w broke,
    w.joinEnd_join_self k broke, fun m hm => w.joinEnd_join_ne broke hm, fun t th ht => ?waits⟩
  case complete => rw [Warp.verdict_eq_complete, hempty]
  case breaks => rw [Warp.verdict_eq_break, hmiss, hsome]
  case silent =>
    intro h
    rw [State.joinApply_of_none h, State.setWarp_cmds]
  case sends =>
    intro c h
    rw [State.joinApply_of_some h]
    exact State.sendCapture_cmds (s.setWarp slot (w.joinEnd k broke)) slot (w.joinEnd k broke) c
  case waits => exact Warp.freeWaiters_blocked k j.waiters ht

end Sys2Proof.Machine
end

section
/-! Integer elements and their range (R131, R132), the quotient and the remainder (R135), and the 64-bit forms MADW
and LEA (R136, R137). With them, O3. -/

namespace Sys2Proof.Machine

/-! ### The range of an element -/

/-- What an element of the type can hold (R132). -/
abbrev rangeI (ty : ITy) : Set Int := Set.Icc (loI ty) (hiI ty)

theorem two_pow_wI (ty : ITy) : (2 : Int) ^ wI ty = 2 * 2 ^ (wI ty - 1) := by
  rw [← pow_succ', Nat.sub_add_cancel (wI_pos ty)]

theorem loI_of_signed {ty : ITy} (h : ty.signed = true) : loI ty = -(hiI ty + 1) := by
  simp [loI, hiI, h]

theorem loI_of_unsigned {ty : ITy} (h : ty.signed = false) : loI ty = 0 := by
  simp [loI, h]

theorem hiI_nonneg (ty : ITy) : 0 ≤ hiI ty := by
  have hhalf : (0 : Int) < 2 ^ (wI ty - 1) := by positivity
  have htwo := two_pow_wI ty
  unfold hiI
  split <;> omega

theorem loI_nonpos (ty : ITy) : loI ty ≤ 0 := by
  have hhi := hiI_nonneg ty
  cases hs : ty.signed with
  | true => rw [loI_of_signed hs]; omega
  | false => exact (loI_of_unsigned hs).le

/-- A number between 0 and a number in range is in range. -/
theorem mem_rangeI_of_mem_uIcc {ty : ITy} {x y : Int} (hx : x ∈ rangeI ty) (hy : y ∈ Set.uIcc 0 x) :
    y ∈ rangeI ty :=
  Set.uIcc_subset_Icc ⟨loI_nonpos ty, hiI_nonneg ty⟩ hx hy

theorem elemI_mem_rangeI (ty : ITy) (x : Word) (k : Nat) : elemI ty x k ∈ rangeI ty := by
  have hlt : fieldAt x (wI ty) k < 2 ^ wI ty := Nat.mod_lt _ (by positivity)
  have hltI : (fieldAt x (wI ty) k : Int) < 2 ^ wI ty := by exact_mod_cast hlt
  have htwo := two_pow_wI ty
  cases hs : ty.signed with
  | false =>
    simp only [elemI, loI, hiI, hs, Bool.false_eq_true, if_false, Set.mem_Icc]
    omega
  | true =>
    have hhalf : ((2 ^ (wI ty - 1) : Nat) : Int) = 2 ^ (wI ty - 1) := by push_cast; rfl
    simp only [elemI, loI, hiI, hs, if_true, Set.mem_Icc, sgnOf, Nat.mod_eq_of_lt hlt]
    split <;> omega

/-- A result in range is written as it is. -/
theorem wrapI_of_mem_rangeI {ty : ITy} {x : Int} (h : x ∈ rangeI ty) : wrapI ty x = x := by
  obtain ⟨hlo, hhi⟩ := h
  have htwo := two_pow_wI ty
  cases hs : ty.signed with
  | false =>
    simp only [loI, hiI, hs, Bool.false_eq_true, if_false] at hlo hhi
    simp only [wrapI, hs, Bool.false_eq_true, if_false]
    exact Int.emod_eq_of_lt hlo (by omega)
  | true =>
    simp only [loI, hiI, hs, if_true] at hlo hhi
    simp only [wrapI, hs, if_true]
    apply Int.bmod_eq_of_le <;> push_cast <;> omega

theorem Holds.elem_of_mem_rangeI {ty : ITy} {f : Nat → Int} {x : Word} {k : Nat} (h : Holds ty f x)
    (hk : k < ty.count) (hf : f k ∈ rangeI ty) : elemI ty x k = f k := by
  rw [h.elem k hk, wrapI_of_mem_rangeI hf]

/-! ### Quotient and remainder (R135) -/

theorem divI_zero_unsigned {ty : ITy} (sat : Bool) (n : Int) (h : ty.signed = false) : divI ty sat n 0 = hiI ty := by
  simp [divI, h]

theorem divI_zero_signed {ty : ITy} (sat : Bool) (n : Int) (h : ty.signed = true) :
    divI ty sat n 0 = if sat then (if 0 ≤ n then hiI ty else loI ty) else -1 := by
  simp [divI, h]

theorem divI_overflow {ty : ITy} (sat : Bool) (h : ty.signed = true) :
    divI ty sat (loI ty) (-1) = if sat then hiI ty else loI ty := by
  simp [divI, h]

theorem divI_eq_tdiv {ty : ITy} {n m : Int} (sat : Bool) (hm : m ≠ 0)
    (hno : ¬(ty.signed = true ∧ n = loI ty ∧ m = -1)) : divI ty sat n m = n.tdiv m := by
  simp [divI, hm, hno, and_assoc]

theorem remI_zero (ty : ITy) (n : Int) : remI ty n 0 = n := by
  simp [remI]

/-- The quotient out of range leaves no remainder either. -/
theorem remI_eq_tmod (ty : ITy) {n m : Int} (hm : m ≠ 0) : remI ty n m = n.tmod m := by
  by_cases hm1 : m = -1
  · simp [remI, hm1]
  · simp [remI, hm, hm1]

/-- A truncated quotient is in range, but for the lowest element by −1. -/
theorem tdiv_mem_rangeI {ty : ITy} {n m : Int} (hn : n ∈ rangeI ty) (hm : m ∈ rangeI ty)
    (hm0 : m ≠ 0) (hno : ¬(ty.signed = true ∧ n = loI ty ∧ m = -1)) : n.tdiv m ∈ rangeI ty := by
  obtain ⟨hnlo, hnhi⟩ := hn
  obtain ⟨hmlo, -⟩ := hm
  cases hs : ty.signed with
  | false =>
    rw [loI_of_unsigned hs] at hnlo hmlo
    refine mem_rangeI_of_mem_uIcc ⟨(loI_nonpos ty).trans hnlo, hnhi⟩ ?_
    exact Set.mem_uIcc_of_le (Int.tdiv_nonneg hnlo hmlo) (Int.tdiv_le_self m hnlo)
  | true =>
    have hlo := loI_of_signed hs
    have habs : (n.tdiv m).natAbs = n.natAbs / m.natAbs := Int.natAbs_tdiv n m
    by_cases hone : m.natAbs = 1
    · obtain rfl | rfl : m = 1 ∨ m = -1 := Int.natAbs_eq_natAbs_iff.mp hone
      · rw [Int.tdiv_one]
        exact ⟨hnlo, hnhi⟩
      · have hne : n ≠ loI ty := fun h => hno ⟨hs, h, rfl⟩
        rw [Int.tdiv_neg, Int.tdiv_one]
        constructor <;> omega
    · have hhalf : n.natAbs / m.natAbs ≤ n.natAbs / 2 := Nat.div_le_div_left (by omega) (by decide)
      constructor <;> omega

theorem divI_mem_rangeI {ty : ITy} {n m : Int} (sat : Bool) (hn : n ∈ rangeI ty)
    (hm : m ∈ rangeI ty) : divI ty sat n m ∈ rangeI ty := by
  by_cases hm0 : m = 0
  · subst hm0
    have hlo := loI_nonpos ty
    have hhi := hiI_nonneg ty
    cases hs : ty.signed with
    | false =>
      rw [divI_zero_unsigned sat n hs]
      exact ⟨by omega, le_rfl⟩
    | true =>
      rw [divI_zero_signed sat n hs]
      have hbound := loI_of_signed hs
      split_ifs <;> constructor <;> omega
  · by_cases hov : ty.signed = true ∧ n = loI ty ∧ m = -1
    · obtain ⟨hs, rfl, rfl⟩ := hov
      rw [divI_overflow sat hs]
      have hle := hn.1.trans hn.2
      cases sat with
      | false => exact ⟨le_rfl, hle⟩
      | true => exact ⟨hle, le_rfl⟩
    · rw [divI_eq_tdiv sat hm0 hov]
      exact tdiv_mem_rangeI hn hm hm0 hov

theorem tmod_mem_uIcc (n m : Int) : n.tmod m ∈ Set.uIcc 0 n := by
  have habs : (n.tmod m).natAbs ≤ n.natAbs := by
    rw [Int.natAbs_tmod]
    exact Nat.mod_le _ _
  rw [Set.mem_uIcc]
  rcases le_total 0 n with hn | hn
  · have hsign := Int.tmod_nonneg m hn
    omega
  · have hsign : 0 ≤ (-n).tmod m := Int.tmod_nonneg m (by omega)
    rw [Int.neg_tmod] at hsign
    omega

theorem remI_mem_rangeI {ty : ITy} {n : Int} (m : Int) (hn : n ∈ rangeI ty) :
    remI ty n m ∈ rangeI ty := by
  by_cases hm : m = 0
  · rwa [hm, remI_zero]
  · rw [remI_eq_tmod ty hm]
    exact mem_rangeI_of_mem_uIcc hn (tmod_mem_uIcc n m)

/-! ### 64-bit forms (R136, R137) -/

theorem sgnOf_toNat (x : Word) : sgnOf 64 x.toNat = x.toInt := by
  have hx := x.isLt
  rw [sgnOf, Nat.mod_eq_of_lt hx, BitVec.toInt_eq_toNat_cond]
  split <;> split <;> omega

theorem madwI_signed (sat : Bool) (a b c : Word) :
    madwI true sat a b c = BitVec.ofInt 64 (satI .i64 sat (sgnOf 32 a.toNat * sgnOf 32 b.toNat + c.toInt)) := by
  simp only [madwI, if_true, sgnOf_toNat]

theorem madwI_unsigned (sat : Bool) (a b c : Word) :
    madwI false sat a b c
      = BitVec.ofInt 64 (satI .n64 sat ((a.toNat % 2 ^ 32 * (b.toNat % 2 ^ 32) + c.toNat : Nat) : Int)) := by
  simp only [madwI, Bool.false_eq_true, if_false, Nat.mod_eq_of_lt c.isLt, Nat.cast_add, Nat.cast_mul]

theorem leaI_eq (ty : ITy) (a b c : Word) :
    leaI ty a b c = a + BitVec.ofInt 64 (elemI ty b 0 * 2 ^ (c.toNat % 64)) := by
  rw [leaI, BitVec.ofInt_add, BitVec.ofInt_natCast, BitVec.ofNat_toNat, BitVec.setWidth_eq]

/-! ### The instructions -/

theorem div_writes (g : Guard) (d a b : Operand) (ty : ITy) (sat : Bool) :
    WritesTo (.div g d a b ty sat) g (divWeight ty) d (fun s iss w p x =>
      (∀ k, k < ty.count → elemI ty x k = divI ty sat (s.srcI iss w p ty a k) (s.srcI iss w p ty b k))
      ∧ (ty.count = 1 → x = BitVec.ofInt 64 (elemI ty x 0))) :=
  (map2_writes (divI ty sat) fun _ => rfl).mono fun _ _ _ _ _ hx =>
    ⟨fun k hk => hx.elem_of_mem_rangeI hk
      (divI_mem_rangeI sat (elemI_mem_rangeI ty _ k) (elemI_mem_rangeI ty _ k)), hx.whole⟩

theorem rem_writes (g : Guard) (d a b : Operand) (ty : ITy) :
    WritesTo (.rem g d a b ty) g (divWeight ty) d (fun s iss w p x =>
      (∀ k, k < ty.count → elemI ty x k = remI ty (s.srcI iss w p ty a k) (s.srcI iss w p ty b k))
      ∧ (ty.count = 1 → x = BitVec.ofInt 64 (elemI ty x 0))) :=
  (map2_writes (remI ty) fun _ => rfl).mono fun _ _ _ _ _ hx =>
    ⟨fun k hk => hx.elem_of_mem_rangeI hk (remI_mem_rangeI _ (elemI_mem_rangeI ty _ k)), hx.whole⟩

theorem madw_writes (g : Guard) (d a b c : Operand) (signed sat : Bool) :
    WritesTo (.madw g d a b c signed sat) g 1 d (fun s iss w p x =>
      x = madwI signed sat (s.rdI iss w p .i64 a) (s.rdI iss w p .i64 b) (s.rdI iss w p .i64 c)) :=
  op3_writes (ty := .i .i64) (madwI signed sat) fun _ => rfl

theorem lea_writes (g : Guard) (d a b c : Operand) (ty : ITy) :
    WritesTo (.lea g d a b c ty) g 1 d (fun s iss w p x =>
      x = leaI ty (s.rd iss w p a) (s.rdI iss w p ty b) (s.rd iss w p c)) :=
  fun _ _ _ _ h => ⟨_, rfl, alu_ok _ h⟩

/-- Settles O3: each element that DIV or REM computes is in range, so it is written as it is; the corners are the
branches of `divI` and `remI`. MADW and LEA are equations on 64 bits. -/
theorem divisionAndWideMultiply : Obligations.DivisionAndWideMultiply := by
  refine ⟨fun g d a b ty sat => ⟨?div, ?rem⟩, fun g d a b c ty sat => ⟨fun _ => ⟨?madwSigned, ?madwUnsigned⟩, ?lea⟩⟩
  case div =>
    refine (div_writes g d a b ty sat).mono ?_
    rintro s iss w p x ⟨helem, hwhole⟩
    refine ⟨fun k hk => ?_, hwhole⟩
    intro n m
    have hx : elemI ty x k = divI ty sat n m := helem k hk
    rw [hx]
    refine ⟨divI_eq_tdiv sat, fun hm hs => ?_, fun hm hs => ?_, fun hs hn hm => ?_⟩
    · rw [hm, divI_zero_unsigned sat n hs]
    · rw [hm, divI_zero_signed sat n hs]
    · rw [hn, hm, divI_overflow sat hs]
  case rem =>
    refine (rem_writes g d a b ty).mono ?_
    rintro s iss w p x ⟨helem, hwhole⟩
    refine ⟨fun k hk => ?_, hwhole⟩
    intro n m
    have hx : elemI ty x k = remI ty n m := helem k hk
    rw [hx]
    refine ⟨remI_eq_tmod ty, fun hm => ?_⟩
    rw [hm, remI_zero]
  case madwSigned =>
    exact (madw_writes g d a b c true sat).mono fun _ _ _ _ _ hx => hx.trans (madwI_signed sat _ _ _)
  case madwUnsigned =>
    exact (madw_writes g d a b c false sat).mono fun _ _ _ _ _ hx => hx.trans (madwI_unsigned sat _ _ _)
  case lea =>
    exact (lea_writes g d a b c ty).mono fun _ _ _ _ _ hx => hx.trans (leaI_eq ty _ _ _)

end Sys2Proof.Machine
end

section
/-! Float instructions whose whole effect is a list of element results (R124, R131), and the special functions in
their grades with their weights (R161, R162). With them, O17. -/

namespace Sys2Proof.Machine

/-! ### One result for each element (R131) -/

@[simp] theorem elemsF_length (ty : FTy) (x : Word) : (elemsF ty x).length = ty.count := by
  simp [elemsF]

@[simp] theorem elemsF_getElem (ty : FTy) (x : Word) {k : Nat} (h : k < (elemsF ty x).length) :
    (elemsF ty x)[k] = fieldAt x (fmtOf ty).width k := by
  simp [elemsF]

/-- A float operation that only writes its elements' results and raises their flags. -/
theorem fpDst_writes {i : Instr} {g : Guard} {wt : Nat} {d : Operand} {ty : FTy} {nf : Bool}
    {R : State → Issue → Warp → Path → Nat → Nat × Flags → Prop}
    (xs : State → Issue → Warp → Path → List (Nat × Flags))
    (hi : ∀ s, exec i s = s.alu i g wt (fun s iss w p => p.fpDst d ty nf (xs s iss w p)))
    (hlen : ∀ s iss w p, (xs s iss w p).length = ty.count)
    (hR : ∀ s iss w p k (h : k < (xs s iss w p).length), R s iss w p k (xs s iss w p)[k]) :
    WritesF i g wt d ty nf R :=
  fun s iss w p h => ⟨xs s iss w p, hlen s iss w p, hR s iss w p, by rw [hi s]; exact alu_ok _ h⟩

/-- A special function of one source. -/
theorem fn1_writes {i : Instr} {g : Guard} {d a : Operand} {ty : FTy} {fast : Bool} {rm : Rm} {nf : Bool} (f : Fn)
    (hi : ∀ s, exec i s = s.fn1 i g d a f ty fast rm nf) :
    WritesF i g (fnWeight f ty fast) d ty nf (fun s iss w p k r =>
      let x := fieldAt (s.rdF iss w p ty a) (fmtOf ty).width k
      r = fnElem (fmtOf ty) f fast rm x x) :=
  fpDst_writes _ hi (by simp) (by simp)

theorem divF_writes (g : Guard) (d a b : Operand) (ty : FTy) (fast : Bool) (rm : Rm) (nf : Bool) :
    WritesF (.divF g d a b ty fast rm nf) g (fnWeight .div ty fast) d ty nf (fun s iss w p k r =>
      r = fnElem (fmtOf ty) .div fast rm (fieldAt (s.rdF iss w p ty a) (fmtOf ty).width k)
        (fieldAt (s.rdF iss w p ty b) (fmtOf ty).width k)) :=
  fpDst_writes _ (fun _ => rfl) (by simp) (by simp)

/-! ### Weights (R162) -/

/-- R162's rule: the weight in a type and a grade, from the function's figures `q` in `.fast` and `acc` in `.acc`,
both under `.f32`. -/
def gradeWeight (ty : FTy) (fast : Bool) (q acc : Nat) : Nat :=
  match ty with
  | .f64 => if fast then q else 2 * acc
  | .f32 => if fast then q else acc
  | _ => 2 * (if fast then q else acc)

/-- Every function follows the rule from its own figures under `.f32`. -/
theorem fnWeight_eq_gradeWeight (f : Fn) (ty : FTy) (fast : Bool) :
    fnWeight f ty fast = gradeWeight ty fast (fnWeight f .f32 true) (fnWeight f .f32 false) := by
  cases ty <;> cases fast <;> rfl

/-- A function whose figures under `.f32` are `q` and `acc` has the weights that R162 says. -/
theorem WritesF.of_figures {i : Instr} {g : Guard} {d : Operand} {ty : FTy} {nf : Bool}
    {R : State → Issue → Warp → Path → Nat → Nat × Flags → Prop} {f : Fn} {fast : Bool} {q acc : Nat}
    (h : WritesF i g (fnWeight f ty fast) d ty nf R)
    (hq : fnWeight f .f32 true = q) (hacc : fnWeight f .f32 false = acc) :
    WritesF i g (gradeWeight ty fast q acc) d ty nf R := by
  rwa [fnWeight_eq_gradeWeight, hq, hacc] at h

/-- Settles O17: each instruction writes `fnElem` of its source's elements, and its weight follows from its two
figures under `.f32`. -/
theorem specialFunctions : Obligations.SpecialFunctions := by
  intro g d a b ty fast rm nf one wt
  have hwt (q acc : Nat) : wt q acc = gradeWeight ty fast q acc := rfl
  simp only [hwt]
  refine ⟨?rcp, ?rsq, ?sqrt, ?div, ?exp2, ?log2, ?sin, ?cos, ?tanh, ?sigm, ?erf⟩
  case rcp => exact (fn1_writes .rcp fun _ => rfl).of_figures rfl rfl
  case rsq => exact (fn1_writes .rsq fun _ => rfl).of_figures rfl rfl
  case sqrt => exact (fn1_writes .sqrt fun _ => rfl).of_figures rfl rfl
  case div => exact (divF_writes g d a b ty fast rm nf).of_figures rfl rfl
  case exp2 => exact (fn1_writes .exp2 fun _ => rfl).of_figures rfl rfl
  case log2 => exact (fn1_writes .log2 fun _ => rfl).of_figures rfl rfl
  case sin => exact (fn1_writes .sin fun _ => rfl).of_figures rfl rfl
  case cos => exact (fn1_writes .cos fun _ => rfl).of_figures rfl rfl
  case tanh => exact (fn1_writes .tanh fun _ => rfl).of_figures rfl rfl
  case sigm => exact (fn1_writes .sigm fun _ => rfl).of_figures rfl rfl
  case erf => exact (fn1_writes .erf fun _ => rfl).of_figures rfl rfl

end Sys2Proof.Machine
end

section
/-! The codec (R50, R85): the round trips of the single instructions, put together. With them, O50. -/

namespace Sys2Proof.Laws

open Sys2Proof

/-- Settles O50: each instruction has its round trip in `Laws.RoundTrip`; a step of the machine has no word. -/
theorem decodeOfEncode : Obligations.DecodeOfEncode := fun i => match i with
  | .cellContribution cell pkg data => RoundTrip.cellContribution cell pkg data
  | .packageReset primary recovery fw => RoundTrip.packageReset primary recovery fw
  | .ctxCreate secure root backing backingSize save excl imports => RoundTrip.ctxCreate secure root backing backingSize save excl imports
  | .queueCreate ctx header die => RoundTrip.queueCreate ctx header die
  | .shootdown ctx va size => RoundTrip.shootdown ctx va size
  | .preempt ctx die => RoundTrip.preempt ctx die
  | .restore ctx die excl => RoundTrip.restore ctx die excl
  | .cellConfig cell cfg => RoundTrip.cellConfig cell cfg
  | .attest nonce => RoundTrip.attest nonce
  | .launchEnd ctx header index => RoundTrip.launchEnd ctx header index
  | .trapSet ctx handler kinds => RoundTrip.trapSet ctx handler kinds
  | .dbgSet ctx sel cfg => RoundTrip.dbgSet ctx sel cfg
  | .dbgRead ctx w t sel => RoundTrip.dbgRead ctx w t sel
  | .dbgWrite ctx w t sel val => RoundTrip.dbgWrite ctx w t sel val
  | .dbgResume ctx w action val => RoundTrip.dbgResume ctx w action val
  | .bboxRead die call => RoundTrip.bboxRead die call
  | .add g d a b ty sat => RoundTrip.add g d a b ty sat
  | .sub g d a b ty sat => RoundTrip.sub g d a b ty sat
  | .mul g d a b ty sat => RoundTrip.mul g d a b ty sat
  | .mulh g d a b ty => RoundTrip.mulh g d a b ty
  | .mad g d a b c ty sat => RoundTrip.mad g d a b c ty sat
  | .madw g d a b c signed sat => RoundTrip.madw g d a b c signed sat
  | .div g d a b ty sat => RoundTrip.div g d a b ty sat
  | .rem g d a b ty => RoundTrip.rem g d a b ty
  | .min g d a b ty => RoundTrip.min g d a b ty
  | .max g d a b ty => RoundTrip.max g d a b ty
  | .abs g d a ty sat => RoundTrip.abs g d a ty sat
  | .neg g d a ty sat => RoundTrip.neg g d a ty sat
  | .lea g d a b c ty => RoundTrip.lea g d a b c ty
  | .addImm g d a ty imm => RoundTrip.addImm g d a ty imm
  | .subRevImm g d a ty imm => RoundTrip.subRevImm g d a ty imm
  | .mulImm g d a ty imm => RoundTrip.mulImm g d a ty imm
  | .minImm g d a ty imm => RoundTrip.minImm g d a ty imm
  | .maxImm g d a ty imm => RoundTrip.maxImm g d a ty imm
  | .leaImm g d a imm => RoundTrip.leaImm g d a imm
  | .and g d a b ty => RoundTrip.and g d a b ty
  | .or g d a b ty => RoundTrip.or g d a b ty
  | .xor g d a b ty => RoundTrip.xor g d a b ty
  | .andn g d a b ty => RoundTrip.andn g d a b ty
  | .truth g d a b c table => RoundTrip.truth g d a b c table
  | .shl g d a b ty => RoundTrip.shl g d a b ty
  | .shr g d a b ty => RoundTrip.shr g d a b ty
  | .sar g d a b ty => RoundTrip.sar g d a b ty
  | .rotl g d a b ty => RoundTrip.rotl g d a b ty
  | .fshl g d a b c ty => RoundTrip.fshl g d a b c ty
  | .bfx g d a b c ty => RoundTrip.bfx g d a b c ty
  | .bfi g d a b c ty => RoundTrip.bfi g d a b c ty
  | .popc g d a ty => RoundTrip.popc g d a ty
  | .clz g d a ty => RoundTrip.clz g d a ty
  | .ctz g d a ty => RoundTrip.ctz g d a ty
  | .brev g d a ty => RoundTrip.brev g d a ty
  | .andImm g d a imm => RoundTrip.andImm g d a imm
  | .orImm g d a imm => RoundTrip.orImm g d a imm
  | .xorImm g d a imm => RoundTrip.xorImm g d a imm
  | .andnImm g d a imm => RoundTrip.andnImm g d a imm
  | .shlImm g d a imm => RoundTrip.shlImm g d a imm
  | .shrImm g d a imm => RoundTrip.shrImm g d a imm
  | .sarImm g d a imm => RoundTrip.sarImm g d a imm
  | .rotlImm g d a imm => RoundTrip.rotlImm g d a imm
  | .movi g d imm => RoundTrip.movi g d imm
  | .moviW g d imm => RoundTrip.moviW g d imm
  | .movhi g d imm => RoundTrip.movhi g d imm
  | .mov g d a ty => RoundTrip.mov g d a ty
  | .sel g d a b k => RoundTrip.sel g d a b k
  | .cmp g c a b ty => RoundTrip.cmp g c a b ty
  | .cmpImm g c a ty imm => RoundTrip.cmpImm g c a ty imm
  | .fcmp g c a b dbl nf => RoundTrip.fcmp g c a b dbl nf
  | .testCmpReg c a b ty => RoundTrip.testCmpReg c a b ty
  | .testCmpImm c a ty imm => RoundTrip.testCmpImm c a ty imm
  | .testPred clr d => RoundTrip.testPred clr d
  | .pcomb g table x y z => RoundTrip.pcomb g table x y z
  | .pdrop g n => RoundTrip.pdrop g n
  | .pget g d => RoundTrip.pget g d
  | .pset g a => RoundTrip.pset g a
  | .ballot g d k inv => RoundTrip.ballot g d k inv
  | .first g d a => RoundTrip.first g d a
  | .srd g d a => RoundTrip.srd g d a
  | .swr g x a => RoundTrip.swr g x a
  | .leafJmp off => RoundTrip.leafJmp off
  | .leafJmpi r => RoundTrip.leafJmpi r
  | .leafCall off => RoundTrip.leafCall off
  | .leafCalli r => RoundTrip.leafCalli r
  | .leafTrap code => RoundTrip.leafTrap code
  | .fadd g d a b ty rm nf => RoundTrip.fadd g d a b ty rm nf
  | .fmul g d a b ty rm nf => RoundTrip.fmul g d a b ty rm nf
  | .fma g d a b c negc ty rm nf => RoundTrip.fma g d a b c negc ty rm nf
  | .fmin g d a b ty num nf => RoundTrip.fmin g d a b ty num nf
  | .fmax g d a b ty num nf => RoundTrip.fmax g d a b ty num nf
  | .frnd g d a ty rm nf => RoundTrip.frnd g d a ty rm nf
  | .fscale g d a b ty rm nf => RoundTrip.fscale g d a b ty rm nf
  | .fclass g d a ty nf => RoundTrip.fclass g d a ty nf
  | .fexpo g d a ty nf => RoundTrip.fexpo g d a ty nf
  | .fcvt g d a b c dst src rm sat nf => RoundTrip.fcvt g d a b c dst src rm sat nf
  | .cvti g d a b c dst src rm sat nf => RoundTrip.cvti g d a b c dst src rm sat nf
  | .cvtf g d a b c dst src rm sat nf => RoundTrip.cvtf g d a b c dst src rm sat nf
  | .rcp g d a ty fast rm nf => RoundTrip.rcp g d a ty fast rm nf
  | .rsq g d a ty fast rm nf => RoundTrip.rsq g d a ty fast rm nf
  | .sqrt g d a ty fast rm nf => RoundTrip.sqrt g d a ty fast rm nf
  | .divF g d a b ty fast rm nf => RoundTrip.divF g d a b ty fast rm nf
  | .exp2 g d a ty fast rm nf => RoundTrip.exp2 g d a ty fast rm nf
  | .log2 g d a ty fast rm nf => RoundTrip.log2 g d a ty fast rm nf
  | .sin g d a ty fast rm nf => RoundTrip.sin g d a ty fast rm nf
  | .cos g d a ty fast rm nf => RoundTrip.cos g d a ty fast rm nf
  | .tanh g d a ty fast rm nf => RoundTrip.tanh g d a ty fast rm nf
  | .sigm g d a ty fast rm nf => RoundTrip.sigm g d a ty fast rm nf
  | .erf g d a ty fast rm nf => RoundTrip.erf g d a ty fast rm nf
  | .mld g m dbl base off => RoundTrip.mld g m dbl base off
  | .mst g m dbl base off => RoundTrip.mst g m dbl base off
  | .mset g d a b sh nf => RoundTrip.mset g d a b sh nf
  | .mmov g d a sh nf => RoundTrip.mmov g d a sh nf
  | .mtr g d a sh nf => RoundTrip.mtr g d a sh nf
  | .mmul g d a b k sh nf => RoundTrip.mmul g d a b k sh nf
  | .mmad g d a b k sh nf => RoundTrip.mmad g d a b k sh nf
  | .mmv g d a b acc sh nf => RoundTrip.mmv g d a b acc sh nf
  | .mchol g d a sh nf => RoundTrip.mchol g d a sh nf
  | .mlup g d a vp sh nf => RoundTrip.mlup g d a vp sh nf
  | .mlus g d a b vp sh nf => RoundTrip.mlus g d a b vp sh nf
  | .mtrs g d a b mode sh nf => RoundTrip.mtrs g d a b mode sh nf
  | .mdet g d a sh nf => RoundTrip.mdet g d a sh nf
  | .ldN d m => RoundTrip.ldN d m
  | .ldI d m => RoundTrip.ldI d m
  | .st data m => RoundTrip.st data m
  | .ldSpN d m => RoundTrip.ldSpN d m
  | .ldSpI d m => RoundTrip.ldSpI d m
  | .stSp data m => RoundTrip.stSp data m
  | .ldWsN d m => RoundTrip.ldWsN d m
  | .ldWsI d m => RoundTrip.ldWsI d m
  | .ldSpPeekN d m => RoundTrip.ldSpPeekN d m
  | .ldSpPeekI d m => RoundTrip.ldSpPeekI d m
  | .ldxN d x => RoundTrip.ldxN d x
  | .ldxI d x => RoundTrip.ldxI d x
  | .stx data x => RoundTrip.stx data x
  | .ldxSpN d x => RoundTrip.ldxSpN d x
  | .ldxSpI d x => RoundTrip.ldxSpI d x
  | .stxSp data x => RoundTrip.stxSp data x
  | .ldu d m => RoundTrip.ldu d m
  | .pref g base l2 off => RoundTrip.pref g base l2 off
  | .lres d m => RoundTrip.lres d m
  | .scond g d a b dbl order scope => RoundTrip.scond g d a b dbl order scope
  | .atomAdd x => RoundTrip.atomAdd x
  | .atomMinI x => RoundTrip.atomMinI x
  | .atomMinN x => RoundTrip.atomMinN x
  | .atomMaxI x => RoundTrip.atomMaxI x
  | .atomMaxN x => RoundTrip.atomMaxN x
  | .atomAnd x => RoundTrip.atomAnd x
  | .atomOr x => RoundTrip.atomOr x
  | .atomXor x => RoundTrip.atomXor x
  | .atomXchg x => RoundTrip.atomXchg x
  | .atomCas x c => RoundTrip.atomCas x c
  | .atomIncwrap x => RoundTrip.atomIncwrap x
  | .atomSpAdd x => RoundTrip.atomSpAdd x
  | .atomSpMinI x => RoundTrip.atomSpMinI x
  | .atomSpMinN x => RoundTrip.atomSpMinN x
  | .atomSpMaxI x => RoundTrip.atomSpMaxI x
  | .atomSpMaxN x => RoundTrip.atomSpMaxN x
  | .atomSpAnd x => RoundTrip.atomSpAnd x
  | .atomSpOr x => RoundTrip.atomSpOr x
  | .atomSpXor x => RoundTrip.atomSpXor x
  | .atomSpXchg x => RoundTrip.atomSpXchg x
  | .atomSpCas x c => RoundTrip.atomSpCas x c
  | .atomSpIncwrap x => RoundTrip.atomSpIncwrap x
  | .fatomAdd x => RoundTrip.fatomAdd x
  | .fatomMin x => RoundTrip.fatomMin x
  | .fatomMax x => RoundTrip.fatomMax x
  | .fatomAddOrd g a b dbl => RoundTrip.fatomAddOrd g a b dbl
  | .fatomSpAdd x => RoundTrip.fatomSpAdd x
  | .fatomSpMin x => RoundTrip.fatomSpMin x
  | .fatomSpMax x => RoundTrip.fatomSpMax x
  | .ordf m => RoundTrip.ordf m
  | .fence g order scope => RoundTrip.fence g order scope
  | .waita g d a b c dbl cond signed sp => RoundTrip.waita g d a b c dbl cond signed sp
  | .xcfg g k r => RoundTrip.xcfg g k r
  | .xmov g d a k => RoundTrip.xmov g d a k
  | .lread g d a b c width => RoundTrip.lread g d a b c width
  | .scan g d a seg rm sat ty op => RoundTrip.scan g d a seg rm sat ty op
  | .redw g d a rm sat ty op => RoundTrip.redw g d a rm sat ty op
  | .barArrive g n => RoundTrip.barArrive g n
  | .barWait g n => RoundTrip.barWait g n
  | .barSync g n => RoundTrip.barSync g n
  | .barx g n a ded => RoundTrip.barx g n a ded
  | .jset g j => RoundTrip.jset g j
  | .jsetUniform g j r => RoundTrip.jsetUniform g j r
  | .join g j => RoundTrip.join g j
  | .jarr g j => RoundTrip.jarr g j
  | .jqry g d j sel => RoundTrip.jqry g d j sel
  | .own g d a b => RoundTrip.own g d a b
  | .ringget g q a b => RoundTrip.ringget g q a b
  | .ringput g q a => RoundTrip.ringput g q a
  | .mxmac g acc a b fmt str j => RoundTrip.mxmac g acc a b fmt str j
  | .mxsmac g acc a b fmt str j resume => RoundTrip.mxsmac g acc a b fmt str j resume
  | .mxzero g acc str j => RoundTrip.mxzero g acc str j
  | .mxwait g d mask => RoundTrip.mxwait g d mask
  | .mxtokGive g a => RoundTrip.mxtokGive g a
  | .mxtokTake g => RoundTrip.mxtokTake g
  | .vswAdd x => RoundTrip.vswAdd x
  | .vswMul x => RoundTrip.vswMul x
  | .vswFma x => RoundTrip.vswFma x
  | .vswMax x => RoundTrip.vswMax x
  | .vswMin x => RoundTrip.vswMin x
  | .vswExp x => RoundTrip.vswExp x
  | .vswCvt x => RoundTrip.vswCvt x
  | .vswScl x => RoundTrip.vswScl x
  | .vswRsum x => RoundTrip.vswRsum x
  | .vswRmax x => RoundTrip.vswRmax x
  | .vswait g => RoundTrip.vswait g
  | .cpyIn x ws => RoundTrip.cpyIn x ws
  | .cpyOut x => RoundTrip.cpyOut x
  | .cpyRows x => RoundTrip.cpyRows x
  | .cpyFill x => RoundTrip.cpyFill x
  | .cpyWs x => RoundTrip.cpyWs x
  | .tspawn g a => RoundTrip.tspawn g a
  | .tjob g a => RoundTrip.tjob g a
  | .tdone g => RoundTrip.tdone g
  | .tilereg g d a b => RoundTrip.tilereg g d a b
  | .tileq g d a => RoundTrip.tileq g d a
  | .tiledrop g a b => RoundTrip.tiledrop g a b
  | .grow g n => RoundTrip.grow g n
  | .shed g n => RoundTrip.shed g n
  | .syscVersion x => RoundTrip.syscVersion x
  | .syscAlloc x => RoundTrip.syscAlloc x
  | .syscFree x => RoundTrip.syscFree x
  | .syscPrint x => RoundTrip.syscPrint x
  | .syscResolve x => RoundTrip.syscResolve x
  | .syscNotify x => RoundTrip.syscNotify x
  | .syscAbort x => RoundTrip.syscAbort x
  | .syscCapread x => RoundTrip.syscCapread x
  | .syscEscalate x => RoundTrip.syscEscalate x
  | .syscUnassigned n x => RoundTrip.syscUnassigned n x
  | .trd g d a b => RoundTrip.trd g d a b
  | .twr g a b c => RoundTrip.twr g a b c
  | .twrKill g a => RoundTrip.twrKill g a
  | .tret g => RoundTrip.tret g
  | .bkpt g n => RoundTrip.bkpt g n
  | .ldq g d base off => RoundTrip.ldq g d base off
  | .dot4 g d a b c signed => RoundTrip.dot4 g d a b c signed
  | .barw g n => RoundTrip.barw g n
  | .hostCoreAccess secure x => RoundTrip.hostCoreAccess secure x
  | .pcieEndpointAccess x => RoundTrip.pcieEndpointAccess x
  | .peerPackageAccess pkg x => RoundTrip.peerPackageAccess pkg x
  | .regionTableWrite entry w0 w1 => RoundTrip.regionTableWrite entry w0 w1
  | .domainBringUp id members ports => RoundTrip.domainBringUp id members ports
  | .nop => RoundTrip.nop
  | .yield => RoundTrip.yield
  | .leafNext => RoundTrip.leafNext
  | .leafRet => RoundTrip.leafRet
  | .leafExit => RoundTrip.leafExit
  | .ifence => RoundTrip.ifence
  | .clauseIssue => RoundTrip.clauseIssue
  | .serialIssue => RoundTrip.serialIssue
  | .subcoreGrant => RoundTrip.subcoreGrant
  | .warpSwap => RoundTrip.warpSwap
  | .stallLimitExpiry => RoundTrip.stallLimitExpiry
  | .holdLimitExpiry => RoundTrip.holdLimitExpiry
  | .loadCompletion => RoundTrip.loadCompletion
  | .storePerform => RoundTrip.storePerform
  | .atomicAtHome => RoundTrip.atomicAtHome
  | .orderedContributionArrival => RoundTrip.orderedContributionArrival
  | .ordfApplication => RoundTrip.ordfApplication
  | .commandAccept => RoundTrip.commandAccept
  | .commandComplete => RoundTrip.commandComplete
  | .waitaReread => RoundTrip.waitaReread
  | .waitaTimeout => RoundTrip.waitaTimeout
  | .growGrant => RoundTrip.growGrant
  | .wsRefreshSlot => RoundTrip.wsRefreshSlot
  | .launchRecordRead => RoundTrip.launchRecordRead
  | .blockAdmission => RoundTrip.blockAdmission
  | .cooperativeAdmission => RoundTrip.cooperativeAdmission
  | .gangStart => RoundTrip.gangStart
  | .launchCompletion => RoundTrip.launchCompletion
  | .seedbedDeal => RoundTrip.seedbedDeal
  | .softSave => RoundTrip.softSave
  | .gracePeriodExpiry => RoundTrip.gracePeriodExpiry
  | .blockImageWrite => RoundTrip.blockImageWrite
  | .restoreRetry => RoundTrip.restoreRetry
  | .handlerStart => RoundTrip.handlerStart
  | .correctedError => RoundTrip.correctedError
  | .scrubCorrection => RoundTrip.scrubCorrection
  | .uncorrectableError => RoundTrip.uncorrectableError
  | .pcieTimeout => RoundTrip.pcieTimeout
  | .peerUnreachable => RoundTrip.peerUnreachable
  | .l1LineEviction => RoundTrip.l1LineEviction
  | .ctxDestroy => RoundTrip.ctxDestroy
  | .dbgAttach => RoundTrip.dbgAttach
  | .dbgDetach => RoundTrip.dbgDetach
  | .peerApplicationRequest => RoundTrip.peerApplicationRequest

end Sys2Proof.Laws
end

section
/-! Every step keeps the byte memories in canonical form (R6, R245): what is said of the shared operations in
Laws/Kept.lean, carried to the instructions and to the machine's own steps. With it, O51. -/

namespace Sys2Proof.Machine

/-- A choice between two states. -/
theorem ite_memOk {c : Prop} [Decidable c] {s t : State} (hs : s.memOk) (ht : t.memOk) :
    (if c then s else t).memOk := by
  split
  · exact hs
  · exact ht

/-! ### Syllables whose body acts on the state -/

theorem execOwn_memOk {s : State} (g : Guard) (d : BitVec 8) (a b : Operand) (h : s.memOk) :
    Keeps (execOwn g d a b s) :=
  State.onOp_memOk _ _ _ _ _ h fun _ _ _ _ hs => by
    dsimp only
    split
    · exact hs
    · exact State.ownAcquire_memOk _ _ hs

theorem execPref_memOk {s : State} (g : Guard) (base : Operand) (l2 : Bool) (off : BitVec 22) (h : s.memOk) :
    Keeps (execPref g base l2 off s) :=
  State.onOp_memOk _ _ _ _ _ h fun _ _ _ _ hs => by
    split
    · dsimp only
      split
      · exact hs
      · exact State.touchLine_memOk _ _ hs
    · exact hs

/-! ### Issues and lanes -/

theorem execSubcoreGrant_memOk {s : State} (h : s.memOk) : Keeps (execSubcoreGrant s) :=
  State.event_memOk _ h fun _ hs => by
    split
    · exact State.updLane_memOk _ _ hs
    · exact hs

theorem execGrowGrant_memOk {s : State} (h : s.memOk) : Keeps (execGrowGrant s) :=
  State.event_memOk _ h fun _ hs => by
    split
    · split
      · exact hs
      · exact State.grantGrow_memOk _ hs
    · exact hs

/-! ### The memory system -/

theorem execLoadCompletion_memOk {s : State} (h : s.memOk) : Keeps (execLoadCompletion s) :=
  State.event_memOk _ h fun _ hs => by
    split
    · split
      · split
        · exact hs
        · split
          · exact State.loseLoad_memOk _ _ _ hs
          · exact State.landLoad_memOk _ _ _ hs
      · exact hs
    · exact hs

theorem execStorePerform_memOk {s : State} (h : s.memOk) : Keeps (execStorePerform s) :=
  State.event_memOk _ h fun _ hs => by
    split
    · exact State.depart_memOk _ hs
    · exact State.arriveIf_memOk _ hs

theorem execCommandAccept_memOk {s : State} (h : s.memOk) : Keeps (execCommandAccept s) :=
  State.event_memOk _ h fun _ hs => by
    split
    · split
      · exact hs
      · exact State.accept_memOk _ _ hs
    · exact hs

theorem execCommandComplete_memOk {s : State} (h : s.memOk) : Keeps (execCommandComplete s) :=
  State.event_memOk _ h fun s hs => by
    cases s.cmds.get? s.turn.ix with
    | none => exact hs
    | some c =>
      dsimp only
      split
      · exact hs
      · cases (if s.turn.flag then s.lostNext c (some (s.turn.k + 1)) else s.lostRead c) with
        | some p => exact State.loseCmd_memOk _ _ _ hs
        | none => exact State.work_memOk _ _ _ _ hs

theorem execWaitaTimeout_memOk {s : State} (h : s.memOk) : Keeps (execWaitaTimeout s) :=
  State.event_memOk _ h fun _ hs => by
    split
    · split
      · split
        · exact State.waitaRead_memOk _ _ _ hs
        · exact hs
      · exact hs
    · exact hs

theorem execL1LineEviction_memOk {s : State} (h : s.memOk) : Keeps (execL1LineEviction s) :=
  State.event_memOk _ h fun _ hs => State.updCore_memOk _ _ hs

/-! ### Errors -/

theorem execScrubCorrection_memOk {s : State} (h : s.memOk) : Keeps (execScrubCorrection s) :=
  State.event_memOk _ h fun _ hs => by
    split
    · exact State.corrected_memOk hs
    · exact hs

theorem execUncorrectableError_memOk {s : State} (h : s.memOk) : Keeps (execUncorrectableError s) :=
  State.event_memOk _ h fun s hs => by
    extract_lets store _ _ marked lost _
    have hmarked : marked.memOk := by
      unfold marked
      split
      · exact hs
      · exact hs
    have hlost : lost.memOk := by
      unfold lost
      split
      · exact State.loseDirty_memOk _ hmarked
      · exact hmarked
    split
    · exact hs
    · split
      · split
        · exact State.loseLoad_memOk _ _ _ hmarked
        · exact hmarked
      · split
        · exact State.machineCheck_memOk _ _ hmarked
        · exact hmarked
      · split
        · exact State.loseCmd_memOk _ _ _ hmarked
        · exact hmarked
      · split
        · exact State.deliver_memOk _ hlost
        · exact foldl_memOk hlost fun _ _ ht => State.machineCheck_memOk _ _ ht
      · split
        · exact State.machineCheck_memOk _ _ hmarked
        · exact hmarked

theorem execPcieTimeout_memOk {s : State} (h : s.memOk) : Keeps (execPcieTimeout s) :=
  State.event_memOk _ h fun _ hs => by
    split
    · split
      · split
        · dsimp only
          split
          · exact State.pcieNote_memOk _ _ _ _ (State.updCore_memOk _ _ hs)
          · exact State.pcieNote_memOk _ _ _ _ (State.updCore_memOk _ _ hs)
          · exact State.pcieNote_memOk _ _ _ _ (State.updCore_memOk _ _ hs)
        · exact hs
      · exact hs
    · split
      · split
        · exact State.pcieNote_memOk _ _ _ _ hs
        · exact hs
      · exact hs

theorem execPeerUnreachable_memOk {s : State} (h : s.memOk) : Keeps (execPeerUnreachable s) :=
  State.event_memOk _ h fun _ hs => by
    split
    · split
      · split
        · exact State.peerLost_memOk _ _ _ _ _ _ _ hs
        · exact hs
      · exact hs
    · split
      · split
        · exact State.peerLost_memOk _ _ _ _ _ _ _ (State.updCore_memOk _ _ hs)
        · exact hs
      · exact hs
    · split
      · exact State.cutCopy_memOk _ hs
      · exact hs

/-! ### Launches -/

theorem execLaunchRecordRead_memOk {s : State} (h : s.memOk) : Keeps (execLaunchRecordRead s) :=
  State.event_memOk _ h fun s hs => by
    split
    · exact hs
    · split
      · exact hs
      · split
        · exact State.stopQueue_memOk _ _ _ _ (State.headerFailed_memOk _ _ hs)
        · rename_i e
          have ht := memOk_fst e (State.dieRead_memOk _ _ _ _ hs)
          dsimp only
          split
          · exact State.stopQueue_memOk _ _ _ _ ht
          · split
            · exact ht
            · split
              · exact State.stopQueue_memOk _ _ _ _ ht
              · exact State.readRecord_memOk _ _ _ _ ht

/-- An admission that fails leaves the state. -/
theorem getD_memOk {s : State} {o : Option State} (h : s.memOk) (ho : ∀ t, o = some t → t.memOk) :
    (o.getD s).memOk := by
  cases o with
  | none => exact h
  | some t => exact ho t rfl

theorem execBlockAdmission_memOk {s : State} (h : s.memOk) : Keeps (execBlockAdmission s) :=
  State.event_memOk _ h fun _ hs => by
    split
    · exact hs
    · split
      · exact hs
      · split
        · exact State.openLaunch_memOk _ _ hs
        · split
          · exact hs
          · exact getD_memOk hs fun _ => State.admitNext_memOk _ hs

theorem execCooperativeAdmission_memOk {s : State} (h : s.memOk) : Keeps (execCooperativeAdmission s) :=
  State.event_memOk _ h fun _ hs => by
    split
    · exact hs
    · split
      · exact hs
      · split
        · exact hs
        · exact getD_memOk hs fun _ => State.admitAll_memOk _ _ hs

theorem execGangStart_memOk {s : State} (h : s.memOk) : Keeps (execGangStart s) :=
  State.event_memOk _ h fun _ hs => by
    split
    · exact hs
    · split
      · exact hs
      · split
        · split
          · exact hs
          · refine State.updLaunch_memOk _ _ (State.updBlock_memOk _ _ (foldl_memOk (foldl_memOk ?_ ?_) ?_))
            · exact State.clearWindows_memOk _ hs
            · exact fun _ _ ht => State.discardL1_memOk _ (State.learn_memOk _ _ ht)
            · exact fun _ _ ht => State.startWarp_memOk _ _ _ _ ht
        · exact hs

theorem execLaunchCompletion_memOk {s : State} (h : s.memOk) : Keeps (execLaunchCompletion s) :=
  State.event_memOk _ h fun s hs => by
    dsimp only
    split
    · exact hs
    · have hforced := State.forceAll_memOk (s := s) (fun i => i.launch = s.turn.ix && i.isContrib) hs
      refine ite_memOk hs (ite_memOk hs (ite_memOk hforced ?_))
      split
      · exact State.machineCheck_memOk _ _ hforced
      · exact State.endNormally_memOk _ (ite_memOk (State.endPool_memOk _ hforced) hforced)

/-! ### Saves and restores -/

theorem execPreempt_memOk {s : State} (ctx die : Nat) (h : s.memOk) : Keeps (execPreempt ctx die s) :=
  State.call_memOk _ h fun _ hs => by
    have ht := State.updCtx_memOk ctx (fun c => { c with asked := die :: c.asked.filter (· != die) })
      (State.ret_memOk [] hs)
    dsimp only
    split
    · exact State.preemptOver_memOk _ _ ht
    · exact State.preemptOver_memOk _ _ (State.updCtx_memOk _ _ ht)

theorem execSoftSave_memOk {s : State} (h : s.memOk) : Keeps (execSoftSave s) :=
  State.event_memOk _ h fun _ hs => by
    dsimp only
    split
    · exact hs
    · split
      · split
        · exact State.beginSave_memOk _ _ hs
        · exact hs
      · split
        · exact State.setWarp_memOk _ _ hs
        · exact hs
      · split
        · exact State.settleWarp_memOk _ (State.setWarp_memOk _ _ hs)
        · exact hs
      · exact State.hardDone_memOk _ _ hs
      · exact hs

theorem execGracePeriodExpiry_memOk {s : State} (h : s.memOk) : Keeps (execGracePeriodExpiry s) :=
  State.event_memOk _ h fun _ hs => by
    split
    · exact hs
    · split
      · exact hs
      · split
        · exact hs
        · exact foldl_memOk hs fun _ _ ht => State.expire_memOk _ ht

theorem execBlockImageWrite_memOk {s : State} (h : s.memOk) : Keeps (execBlockImageWrite s) :=
  State.event_memOk _ h fun _ hs => by
    split
    · exact hs
    · split
      · exact State.writeImage_memOk _ _ hs
      · exact hs

theorem execRestore_memOk {s : State} (ctx die : Nat) (excl : List Nat) (h : s.memOk) :
    Keeps (execRestore ctx die excl s) :=
  State.call_memOk _ h fun _ hs =>
    State.restoreEach_memOk _ _ _ _ _ (State.ret_memOk _ (State.updCtx_memOk _ _ (State.resync_memOk _ hs)))
      fun _ _ ht => State.refuseBlock_memOk _ _ ht

theorem execRestoreRetry_memOk {s : State} (h : s.memOk) : Keeps (execRestoreRetry s) :=
  State.event_memOk _ h fun _ hs => State.restoreEach_memOk _ _ _ _ _ hs fun _ _ ht => ht

/-! ### Handlers and the debugger -/

theorem execHandlerStart_memOk {s : State} (h : s.memOk) : Keeps (execHandlerStart s) :=
  State.event_memOk _ h fun _ hs => by
    dsimp only
    split
    · exact hs
    · split
      · exact hs
      · split
        · exact hs
        · split
          · exact State.unhandled_memOk _ _ hs
          · split
            · exact State.enterHandler_memOk _ _ _ hs
            · exact hs

theorem execDbgSet_memOk {s : State} (ctx : Nat) (sel : WarpSel) (cfg : DbgSet) (h : s.memOk) :
    Keeps (execDbgSet ctx sel cfg s) :=
  State.call_memOk _ h fun _ hs => by
    dsimp only
    split
    · exact hs
    · exact State.updCtx_memOk _ _ hs

theorem execDbgRead_memOk {s : State} (ctx w : Nat) (t : BitVec 5) (sel : Word) (h : s.memOk) :
    Keeps (execDbgRead ctx w t sel s) :=
  State.call_memOk _ h fun _ hs => by
    split
    · exact State.ret_memOk _ hs
    · exact State.ret_memOk _ hs

theorem execDbgWrite_memOk {s : State} (ctx w : Nat) (t : BitVec 5) (sel val : Word) (h : s.memOk) :
    Keeps (execDbgWrite ctx w t sel val s) :=
  State.call_memOk _ h fun _ hs => by
    split
    · exact hs
    · dsimp only
      split
      · exact hs
      · split
        · exact State.twrNow_memOk _ _ _ _ hs
        · exact State.setWarp_memOk _ _ hs

theorem execDbgResume_memOk {s : State} (ctx w action : Nat) (val : Word) (h : s.memOk) :
    Keeps (execDbgResume ctx w action val s) :=
  State.call_memOk _ h fun _ hs => by
    have hback := State.evalJoins_memOk w (State.trapReturn_memOk w (State.dropHandler_memOk w hs))
    split
    · exact hs
    · split
      · exact hs
      · dsimp only
        split
        · split
          · exact State.discardL1_memOk _ (State.reply_memOk _ _ _ (State.setWarp_memOk _ _ hs))
          · exact hback
        · exact hback
        · exact State.doom_memOk _ _ _ hs
        · exact hs

theorem execLaunchEnd_memOk {s : State} (ctx : Nat) (header : Word) (index : Nat) (h : s.memOk) :
    Keeps (execLaunchEnd ctx header index s) :=
  State.call_memOk _ h fun _ hs => by
    split
    · exact State.ret_memOk _ hs
    · dsimp only
      split
      · exact State.ret_memOk _ hs
      · split
        · exact State.ret_memOk _ hs
        · split
          · refine State.ret_memOk _ ?_
            split
            · exact State.endEntry_memOk _ _ _ hs
            · exact hs
          · exact State.ret_memOk _ (State.doom_memOk _ _ _ hs)

/-! ### The control interface and the outside -/

theorem execCtxDestroy_memOk {s : State} (h : s.memOk) : Keeps (execCtxDestroy s) :=
  State.call_memOk _ h fun _ hs => by
    dsimp only
    split
    · exact State.ret_memOk _ hs
    · exact State.ret_memOk _ hs

theorem execQueueCreate_memOk {s : State} (ctx : Nat) (header : Word) (die : Nat) (h : s.memOk) :
    Keeps (execQueueCreate ctx header die s) :=
  State.call_memOk _ h fun _ hs => by
    have ht := State.fresh_memOk hs
    dsimp only
    split
    · exact State.ret_memOk _ (State.stopQueue_memOk _ _ _ _ (State.headerFailed_memOk _ _ ht))
    · split
      · exact State.ret_memOk _ ht
      · exact State.tryWrite_memOk _ _ _ _ (State.ret_memOk _ ht)

theorem execShootdown_memOk {s : State} (ctx va size : Nat) (h : s.memOk) : Keeps (execShootdown ctx va size s) :=
  State.call_memOk _ h fun _ hs =>
    foldl_memOk (State.updCtx_memOk _ _ (State.clearResv_memOk _ (State.settleCopies_memOk ctx (State.settle_memOk hs))))
      fun _ _ ht => State.discardL1_memOk _ ht

theorem execCellConfig_memOk {s : State} (cell : Nat) (cfg : CellCfg) (h : s.memOk) :
    Keeps (execCellConfig cell cfg s) :=
  State.call_memOk _ h fun _ hs => by
    dsimp only
    split
    · exact State.ret_memOk _ hs
    · exact State.ret_memOk _ hs

theorem execCellContribution_memOk {s : State} (cell pkg : Nat) (data : List Byte) (h : s.memOk) :
    Keeps (execCellContribution cell pkg data s) :=
  State.event_memOk _ h fun _ hs => by
    split
    · split
      · exact State.cellContribute_memOk _ _ _ hs
      · exact hs
    · exact hs

theorem execHostCoreAccess_memOk {s : State} (secure : Bool) (x : ExtAccess) (h : s.memOk) :
    Keeps (execHostCoreAccess secure x s) := by
  unfold execHostCoreAccess
  split
  · exact State.outside_memOk _ _ h
  · exact State.event_memOk _ h fun _ hs => hs

theorem execPeerApplicationRequest_memOk {s : State} (h : s.memOk) : Keeps (execPeerApplicationRequest s) :=
  State.event_memOk _ h fun _ hs => foldl_memOk hs fun _ _ ht => State.applyOrd_memOk _ _ _ _ _ ht

theorem execRegionTableWrite_memOk {s : State} (entry : Nat) (w0 w1 : Word) (h : s.memOk) :
    Keeps (execRegionTableWrite entry w0 w1 s) :=
  State.call_memOk _ h fun _ hs => by
    split
    · exact hs
    · exact hs

theorem execPackageReset_memOk {s : State} (primary recovery : Image) (fw : FwSetup) (h : s.memOk) :
    Keeps (execPackageReset primary recovery fw s) :=
  State.event_memOk _ h fun s _ => by
    have ht := State.fresh0_memOk s
    dsimp only
    split
    · exact State.boots_memOk _ _ ht
    · split
      · exact State.boots_memOk _ _ ht
      · exact ht

/-! ### Every instruction -/

/-- What an instruction makes of the state keeps the memories in canonical form. -/
theorem exec_memOk (i : Instr) {s : State} (h : s.memOk) : Keeps (exec i s) := by
  unfold exec
  cases i
  case abs | neg | addImm | subRevImm | mulImm | minImm | maxImm | leaImm | popc | clz | ctz | brev | andImm |
    orImm | xorImm | andnImm | shlImm | shrImm | sarImm | rotlImm | mov =>
    exact State.op1_memOk _ _ _ _ _ _ _ h
  case add | sub | mul | mulh | div | rem | min | max | and | or | xor | andn | shl | shr | sar | rotl =>
    exact State.op2_memOk _ _ _ _ _ _ _ _ h
  case mad | madw | truth | fshl =>
    exact State.op3_memOk _ _ _ _ _ _ _ _ _ h
  case lea | bfx | bfi | movi | moviW | movhi | sel | cmp | cmpImm | fcmp | pcomb | pdrop | pget | pset | nop |
    yield | fma | fscale | ringget | ringput | mxtokTake | shed | tret | bkpt | ifence | fcvt | cvti | cvtf | divF |
    jset | jsetUniform | join | jarr | jqry | dot4 | xcfg | lread | mset | mlup | mlus | mdet =>
    exact State.alu_memOk _ _ _ _ h
  case frnd | fclass | fexpo =>
    exact State.fp1_memOk _ _ _ _ _ _ _ h
  case fadd | fmul | fmin | fmax =>
    exact State.fp2_memOk _ _ _ _ _ _ _ _ h
  case rcp | rsq | sqrt | exp2 | log2 | sin | cos | tanh | sigm | erf =>
    exact State.fn1_memOk _ _ _ _ _ _ _ _ _ h
  case mmov | mtr | mmul | mmad | mmv | mchol | mtrs =>
    exact State.onWin_memOk _ _ _ _ _ _ _ h
  case testCmpReg | testCmpImm | testPred =>
    exact State.onTest_memOk _ _ h
  case ballot | first | xmov | scan | redw =>
    exact State.onCollective_memOk _ _ _ _ h
  case mxmac | mxsmac | mxzero =>
    exact State.onMx_memOk _ _ _ _ h
  case ldN | ldI | ldSpN | ldSpI | ldWsN | ldWsI | ldSpPeekN | ldSpPeekI =>
    exact State.onLoad_memOk _ _ _ _ _ _ h
  case st | stSp =>
    exact State.onStore_memOk _ _ _ _ h
  case ldxN | ldxI | ldxSpN | ldxSpI =>
    exact State.onGather_memOk _ _ _ _ _ h
  case stx | stxSp =>
    exact State.onScatter_memOk _ _ _ _ h
  case atomAdd | atomMinI | atomMinN | atomMaxI | atomMaxN | atomAnd | atomOr | atomXor | atomXchg | atomIncwrap |
    atomSpAdd | atomSpMinI | atomSpMinN | atomSpMaxI | atomSpMaxN | atomSpAnd | atomSpOr | atomSpXor | atomSpXchg |
    atomSpIncwrap =>
    exact State.onAtom_memOk _ _ _ _ h
  case atomCas | atomSpCas =>
    exact State.onCas_memOk _ _ _ _ h
  case fatomAdd | fatomMin | fatomMax | fatomSpAdd | fatomSpMin | fatomSpMax =>
    exact State.onFatom_memOk _ _ _ _ h
  case vswAdd | vswMul | vswFma | vswMax | vswMin | vswExp | vswCvt | vswScl | vswRsum | vswRmax =>
    exact State.onSweep_memOk _ _ _ h
  case cpyIn | cpyOut | cpyRows | cpyFill | cpyWs =>
    exact State.onCopy_memOk _ _ _ _ h
  case syscVersion | syscAlloc | syscFree | syscPrint | syscResolve | syscNotify | syscAbort | syscCapread |
    syscEscalate | syscUnassigned =>
    exact State.onSysc_memOk _ _ _ h
  case pref =>
    exact execPref_memOk _ _ _ _ h
  case own =>
    exact execOwn_memOk _ _ _ _ h
  case mxwait | vswait =>
    exact State.onOp_memOk _ _ _ _ _ h fun _ iss w p hs => sendBody_memOk _ _ _ iss w p hs
  case tspawn | tjob =>
    exact State.onOp_memOk _ _ _ _ _ h fun _ iss w p hs => taskBody_memOk _ _ _ iss w p hs
  case tilereg | tileq | tiledrop =>
    exact State.onOp_memOk _ _ _ _ _ h fun _ iss w p hs => tableBody_memOk _ _ _ _ iss w p hs
  case barArrive | barWait | barSync | barx | barw =>
    exact State.onOp_memOk _ _ _ _ _ h fun _ iss w p hs => barBody_memOk _ _ _ _ _ iss w p hs
  case swr | fence | trd | twr | twrKill =>
    exact State.onOp_memOk _ _ _ _ _ h fun _ _ _ _ hs => hs
  case srd | grow =>
    exact State.onOp_memOk _ _ _ _ _ h fun _ _ _ _ hs => by
      split
      · exact hs
      · exact hs
  case ldu | lres | scond | fatomAddOrd | ordf | waita | mld | mst =>
    exact State.onOp_memOk _ _ _ _ _ h fun _ _ _ _ hs => by
      dsimp only
      split
      · exact hs
      · exact hs
  case mxtokGive =>
    exact State.syllable_memOk _ h fun iss w _ p hs => givePath_memOk _ _ iss w p hs
  case tdone =>
    exact State.syllable_memOk _ h fun iss w _ p hs => tdonePath_memOk _ iss w p hs
  case ldq =>
    exact State.syllable_memOk _ h fun iss w _ p hs => ldqPath_memOk _ _ _ _ iss w p hs
  case leafNext | leafJmp | leafExit | leafTrap =>
    exact State.onLeaf_memOk _ _ h fun _ _ _ _ hs => hs
  case leafJmpi =>
    exact State.onLeaf_memOk _ _ h fun _ _ _ _ hs => by
      dsimp only
      split
      · exact hs
      · exact hs
  case leafCall | leafCalli =>
    exact State.onLeaf_memOk _ _ h fun _ iss w p hs => callBody_memOk _ iss w p hs
  case leafRet =>
    exact State.onLeaf_memOk _ _ h fun _ iss w p hs => retBody_memOk iss w p hs
  case clauseIssue | serialIssue =>
    exact State.issueStep_memOk _ h
  case pcieEndpointAccess | peerPackageAccess =>
    exact State.outside_memOk _ _ h
  case subcoreGrant =>
    exact execSubcoreGrant_memOk h
  case growGrant =>
    exact execGrowGrant_memOk h
  case loadCompletion =>
    exact execLoadCompletion_memOk h
  case storePerform =>
    exact execStorePerform_memOk h
  case commandAccept =>
    exact execCommandAccept_memOk h
  case commandComplete =>
    exact execCommandComplete_memOk h
  case waitaTimeout =>
    exact execWaitaTimeout_memOk h
  case l1LineEviction =>
    exact execL1LineEviction_memOk h
  case scrubCorrection =>
    exact execScrubCorrection_memOk h
  case uncorrectableError =>
    exact execUncorrectableError_memOk h
  case pcieTimeout =>
    exact execPcieTimeout_memOk h
  case peerUnreachable =>
    exact execPeerUnreachable_memOk h
  case launchRecordRead =>
    exact execLaunchRecordRead_memOk h
  case blockAdmission =>
    exact execBlockAdmission_memOk h
  case cooperativeAdmission =>
    exact execCooperativeAdmission_memOk h
  case gangStart =>
    exact execGangStart_memOk h
  case launchCompletion =>
    exact execLaunchCompletion_memOk h
  case preempt =>
    exact execPreempt_memOk _ _ h
  case softSave =>
    exact execSoftSave_memOk h
  case gracePeriodExpiry =>
    exact execGracePeriodExpiry_memOk h
  case blockImageWrite =>
    exact execBlockImageWrite_memOk h
  case restore =>
    exact execRestore_memOk _ _ _ h
  case restoreRetry =>
    exact execRestoreRetry_memOk h
  case handlerStart =>
    exact execHandlerStart_memOk h
  case dbgSet =>
    exact execDbgSet_memOk _ _ _ h
  case dbgRead =>
    exact execDbgRead_memOk _ _ _ _ h
  case dbgWrite =>
    exact execDbgWrite_memOk _ _ _ _ _ h
  case dbgResume =>
    exact execDbgResume_memOk _ _ _ _ h
  case launchEnd =>
    exact execLaunchEnd_memOk _ _ _ h
  case ctxDestroy =>
    exact execCtxDestroy_memOk h
  case queueCreate =>
    exact execQueueCreate_memOk _ _ _ h
  case shootdown =>
    exact execShootdown_memOk _ _ _ h
  case cellConfig =>
    exact execCellConfig_memOk _ _ h
  case cellContribution =>
    exact execCellContribution_memOk _ _ _ h
  case hostCoreAccess =>
    exact execHostCoreAccess_memOk _ _ h
  case peerApplicationRequest =>
    exact execPeerApplicationRequest_memOk h
  case regionTableWrite =>
    exact execRegionTableWrite_memOk _ _ _ h
  case packageReset =>
    exact execPackageReset_memOk _ _ _ h
  case warpSwap | stallLimitExpiry | holdLimitExpiry =>
    exact State.event_memOk _ h fun _ hs => State.swapWhen_memOk _ _ hs
  case atomicAtHome | orderedContributionArrival | ordfApplication =>
    exact State.event_memOk _ h fun _ hs => State.arriveIf_memOk _ hs
  case waitaReread =>
    exact State.event_memOk _ h fun _ hs => State.waitaRead_memOk _ _ _ hs
  case correctedError =>
    exact State.event_memOk _ h fun _ hs => State.corrected_memOk hs
  case seedbedDeal =>
    exact State.event_memOk _ h fun _ hs => State.deal_memOk _ _ hs
  case wsRefreshSlot =>
    exact State.event_memOk _ h fun _ hs => hs
  case trapSet | dbgAttach | dbgDetach =>
    exact State.call_memOk _ h fun _ hs => State.updCtx_memOk _ _ hs
  case ctxCreate =>
    exact State.call_memOk _ h fun _ hs => State.ret_memOk _ (State.fresh_memOk hs)
  case bboxRead | attest | domainBringUp =>
    exact State.call_memOk _ h fun _ hs => hs

theorem fetchNext_run_memOk {s t : State} {i : Instr} (h : s.memOk) (e : s.fetchNext = .run i t) : t.memOk := by
  unfold State.fetchNext at e
  split at e
  · cases e
    exact State.nextEvent_memOk h
  · cases e
    exact State.nextEvent_memOk (State.park_memOk _ h)
  · dsimp only at e
    split at e
    · split at e
      · cases e
        exact h
      · cases e
    · cases e
      exact h

theorem fetchNext_bad_memOk {s t : State} {b : Bad} {x : Word} (h : s.memOk) (e : s.fetchNext = .bad b x t) :
    t.memOk := by
  unfold State.fetchNext at e
  split at e
  · cases e
  · cases e
  · dsimp only at e
    split at e
    · split at e
      · cases e
      · cases e
        exact h
    · cases e

/-- Settles O51: what is fetched leaves the memories as they are, and so does a syllable that decodes to none; every
instruction keeps their form. -/
theorem stepKeepsMemory : Obligations.StepKeepsMemory := by
  intro s t h hstep
  unfold step at hstep
  split at hstep
  case h_1 i u e => exact exec_memOk i (fetchNext_run_memOk h e) t hstep
  case h_2 b x u e =>
    cases hstep
    exact State.badSyllable_memOk b x (fetchNext_bad_memOk h e)

end Sys2Proof.Machine
end

section
/-! Integer arithmetic and the immediate forms (R79, R80, R132, R134, R136–R139): elementwise operations, one of whose
sources may be a fixed word, and the shifts of 64 bits by any count. With them, O1 and O2. -/

namespace Sys2Proof.Machine

/-- An elementwise operation whose second source is a fixed word. -/
theorem map2Imm_writes {i : Instr} {g : Guard} {wt : Nat} {ty : ITy} {d a : Operand} {m : Word} (f : Int → Int → Int)
    (hi : ∀ s, exec i s = s.op1 i g wt (.i ty) d a (fun x => map2 ty f x m)) :
    WritesTo i g wt d (fun s iss w p => Holds ty (fun k => f (s.srcI iss w p ty a k) (elemI ty m k))) :=
  fun s _ _ _ h => ⟨_, map2_holds ty f _ m, by rw [hi s]; exact op1_ok _ h⟩

/-- An elementwise operation whose first source is a fixed word. -/
theorem map2RevImm_writes {i : Instr} {g : Guard} {wt : Nat} {ty : ITy} {d a : Operand} {m : Word}
    (f : Int → Int → Int) (hi : ∀ s, exec i s = s.op1 i g wt (.i ty) d a (fun x => map2 ty f m x)) :
    WritesTo i g wt d (fun s iss w p => Holds ty (fun k => f (elemI ty m k) (s.srcI iss w p ty a k))) :=
  fun s _ _ _ h => ⟨_, map2_holds ty f m _, by rw [hi s]; exact op1_ok _ h⟩

theorem ite_neg_eq_abs (x : Int) : (if x < 0 then -x else x) = |x| := by
  split
  case isTrue h => exact (abs_of_neg h).symm
  case isFalse h => exact (abs_of_nonneg (not_lt.mp h)).symm

/-- Settles O1: every instruction is one elementwise operation, and MADW is an equation on 64 bits. -/
theorem integerArithmetic : Obligations.IntegerArithmetic := by
  intro g d a b c ty sat
  refine ⟨?add, ?sub, ?mul, ?mulh, ?mad, ?min, ?max, ?abs, ?neg, ?madwSigned, ?madwUnsigned⟩
  case add => exact map2_writes (fun x y => satI ty sat (x + y)) fun _ => rfl
  case sub => exact map2_writes (fun x y => satI ty sat (x - y)) fun _ => rfl
  case mul => exact map2_writes (fun x y => satI ty sat (x * y)) fun _ => rfl
  case mulh => exact map2_writes (fun x y => (x * y).fdiv (2 ^ wI ty)) fun _ => rfl
  case mad => exact map3_writes (fun x y z => satI ty sat (x * y + z)) fun _ => rfl
  case min => exact map2_writes min fun _ => rfl
  case max => exact map2_writes max fun _ => rfl
  case abs =>
    simp only [← ite_neg_eq_abs]
    exact map1_writes (fun x => satI ty sat (if x < 0 then -x else x)) fun _ => rfl
  case neg => exact map1_writes (fun x => satI ty sat (-x)) fun _ => rfl
  case madwSigned =>
    exact (madw_writes g d a b c true sat).mono fun _ _ _ _ _ hx => hx.trans (madwI_signed sat _ _ _)
  case madwUnsigned =>
    exact (madw_writes g d a b c false sat).mono fun _ _ _ _ _ hx => hx.trans (madwI_unsigned sat _ _ _)

/-! ### Shifts of 64 bits (R139) -/

theorem ofNat_shlE (x : Word) (n : Nat) : BitVec.ofNat 64 (shlE 64 x.toNat n) = x <<< n := by
  unfold shlE
  split
  case isTrue h => simp [BitVec.shiftLeft_eq_zero h]
  case isFalse h => exact BitVec.eq_of_toNat_eq (by simp [Nat.shiftLeft_eq])

theorem ofNat_shrE (x : Word) (n : Nat) : BitVec.ofNat 64 (shrE 64 x.toNat n) = x >>> n := by
  unfold shrE
  split
  case isTrue h => simp [BitVec.ushiftRight_eq_zero h]
  case isFalse h =>
    apply BitVec.eq_of_toNat_eq
    rw [BitVec.toNat_ofNat, Nat.mod_eq_of_lt x.isLt, BitVec.toNat_ushiftRight, Nat.shiftRight_eq_div_pow,
      Nat.mod_eq_of_lt (lt_of_le_of_lt (Nat.div_le_self _ _) x.isLt)]

theorem sgnOf_bounds (w x : Nat) : -(2 : Int) ^ w ≤ sgnOf w x ∧ sgnOf w x < 2 ^ w := by
  have hlt : ((x % 2 ^ w : Nat) : Int) < 2 ^ w := by exact_mod_cast Nat.mod_lt x (Nat.two_pow_pos w)
  unfold sgnOf
  split <;> omega

/-- A shift past a number's bits leaves its sign. -/
theorem fdiv_two_pow_of_bounds {x : Int} {w n : Nat} (hlo : -(2 : Int) ^ w ≤ x) (hhi : x < 2 ^ w) (hn : w ≤ n) :
    x.fdiv (2 ^ n) = if x < 0 then -1 else 0 := by
  have hpow : (2 : Int) ^ w ≤ 2 ^ n := pow_le_pow_right₀ (by decide) hn
  have hpos : (0 : Int) < 2 ^ n := by positivity
  rw [Int.fdiv_eq_ediv_of_nonneg _ hpos.le]
  split
  case isTrue h => exact Int.ediv_eq_neg_one_of_neg_of_le h (by omega)
  case isFalse h => exact Int.ediv_eq_zero_of_lt (by omega) (by omega)

theorem sarE_eq_fdiv (w a n : Nat) : sarE w a n = (sgnOf w a).fdiv (2 ^ n) := by
  obtain ⟨hlo, hhi⟩ := sgnOf_bounds w a
  unfold sarE
  split
  case isTrue h => exact (fdiv_two_pow_of_bounds hlo hhi h).symm
  case isFalse h => rfl

theorem ofInt_sarE (x : Word) (n : Nat) : BitVec.ofInt 64 (sarE 64 x.toNat n) = x.sshiftRight n := by
  rw [sarE_eq_fdiv, sgnOf_toNat, Int.fdiv_eq_ediv_of_nonneg _ (by positivity), BitVec.sshiftRight,
    Int.shiftRight_eq_div_pow]
  push_cast
  rfl

theorem ofNat_rotlE (x : Word) (n : Nat) : BitVec.ofNat 64 (rotlE 64 x.toNat n) = x.rotateLeft n := by
  have hk : n % 64 < 64 := Nat.mod_lt _ (by decide)
  have hlow : x.toNat / 2 ^ (64 - n % 64) < 2 ^ (n % 64) := by
    rw [Nat.div_lt_iff_lt_mul (by positivity), ← Nat.pow_add, Nat.add_sub_cancel' hk.le]
    exact x.isLt
  have hhigh : x.toNat * 2 ^ (n % 64) % 2 ^ 64 = 2 ^ (n % 64) * (x.toNat % 2 ^ (64 - n % 64)) := by
    rw [Nat.mul_comm, ← Nat.mul_mod_mul_left, ← Nat.pow_add, Nat.add_sub_cancel' hk.le]
  have hor := Nat.two_pow_add_eq_or_of_lt hlow (x.toNat % 2 ^ (64 - n % 64))
  rw [← hhigh] at hor
  apply BitVec.eq_of_toNat_eq
  rw [rotlE, Nat.mod_eq_of_lt x.isLt, BitVec.rotateLeft_def, BitVec.toNat_ofNat, hor, BitVec.toNat_or,
    BitVec.toNat_shiftLeft, BitVec.toNat_ushiftRight, Nat.shiftLeft_eq, Nat.shiftRight_eq_div_pow]
  exact Nat.mod_eq_of_lt (Nat.or_lt_two_pow (Nat.mod_lt _ (by decide)) (lt_of_le_of_lt (Nat.div_le_self _ _) x.isLt))

/-- Settles O2: the elementwise forms take the immediate as a fixed source; the others are equations on 64 bits. -/
theorem immediateForms : Obligations.ImmediateForms := by
  intro g d a ty imm
  refine ⟨?add, ?subRev, ?mul, ?min, ?max, ?lea, ?and, ?or, ?xor, ?andn, ?shl, ?shr, ?sar, ?rotl⟩
  case add => exact map2Imm_writes (· + ·) fun _ => rfl
  case subRev => exact map2RevImm_writes (· - ·) fun _ => rfl
  case mul => exact map2Imm_writes (· * ·) fun _ => rfl
  case min => exact map2Imm_writes min fun _ => rfl
  case max => exact map2Imm_writes max fun _ => rfl
  case lea => exact op1_writes (ty := .i .i64) (· + immWord imm) fun _ => rfl
  case and => exact op1_writes (ty := .i .n64) (· &&& immWord imm) fun _ => rfl
  case or => exact op1_writes (ty := .i .n64) (· ||| immWord imm) fun _ => rfl
  case xor => exact op1_writes (ty := .i .n64) (· ^^^ immWord imm) fun _ => rfl
  case andn => exact op1_writes (ty := .i .n64) (· &&& ~~~immWord imm) fun _ => rfl
  case shl =>
    simp only [← ofNat_shlE]
    exact op1_writes (ty := .i .n64) (fun x => BitVec.ofNat 64 (shlE 64 x.toNat (immWord imm).toNat)) fun _ => rfl
  case shr =>
    simp only [← ofNat_shrE]
    exact op1_writes (ty := .i .n64) (fun x => BitVec.ofNat 64 (shrE 64 x.toNat (immWord imm).toNat)) fun _ => rfl
  case sar =>
    simp only [← ofInt_sarE]
    exact op1_writes (ty := .i .n64) (fun x => BitVec.ofInt 64 (sarE 64 x.toNat (immWord imm).toNat)) fun _ => rfl
  case rotl =>
    simp only [← ofNat_rotlE]
    exact op1_writes (ty := .i .n64) (fun x => BitVec.ofNat 64 (rotlE 64 x.toNat (immWord imm).toNat)) fun _ => rfl

end Sys2Proof.Machine
end

section
/-! Logic, shifts, bit fields, bit counts and moves (R138–R143, R146): results that agree modulo 2^w are written alike,
and results are said bit by bit. With them, O4, O5, O6 and O7. -/

namespace Sys2Proof.Machine

/-! ### Logic (R138) -/

theorem bitsOf_le (ty : DTy) : bitsOf ty ≤ 64 := by
  rcases ty with t | t <;> cases t <;> decide

/-- A logic operation of two sources, bit by bit. -/
theorem op2_writesBits {i : Instr} {g : Guard} {wt : Nat} {ty : DTy} {d a b : Operand} (f : Word → Word → Word)
    (bit : Bool → Bool → Bool) (hi : ∀ s, exec i s = s.op2 i g wt ty d a b (fun x y => writeD ty (f x y)))
    (hf : ∀ x y n, n < 64 → (f x y).getLsbD n = bit (x.getLsbD n) (y.getLsbD n)) :
    WritesTo i g wt d (fun s iss w p => HoldsBits ty (fun n =>
      bit ((s.rdD iss w p ty a).getLsbD n) ((s.rdD iss w p ty b).getLsbD n))) := by
  refine (op2_writes (fun x y => writeD ty (f x y)) hi).mono fun s iss w p x hx => ?_
  subst hx
  have h := writeD_holds ty (f (s.rdD iss w p ty a) (s.rdD iss w p ty b))
  exact ⟨fun n hn => (h.bit n hn).trans (hf _ _ n (lt_of_lt_of_le hn (bitsOf_le ty))), h.ext⟩

theorem truthW_bit (tbl : BitVec 8) (a b c : Word) {n : Nat} (hn : n < 64) :
    (truthW tbl a b c).getLsbD n
      = tbl.getLsbD ((a.getLsbD n).toNat + 2 * (b.getLsbD n).toNat + 4 * (c.getLsbD n).toNat) := by
  have hi : (if a.getLsbD n then 1 else 0) + (if b.getLsbD n then 2 else 0) + (if c.getLsbD n then 4 else 0)
      = (a.getLsbD n).toNat + 2 * (b.getLsbD n).toNat + 4 * (c.getLsbD n).toNat := by
    cases a.getLsbD n <;> cases b.getLsbD n <;> cases c.getLsbD n <;> rfl
  rw [truthW, BitVec.getLsbD_ofNat, (bits_foldl _ 64).2 n hn, hi]
  simp [hn]

/-- Settles O4: the two-source operations act on each bit, and TRUTH builds its word from its table's entries. -/
theorem logicByBit : Obligations.LogicByBit := by
  intro g d a b c ty tbl
  refine ⟨?and, ?or, ?xor, ?andn, ?truth⟩
  case and => exact op2_writesBits (· &&& ·) (· && ·) (fun _ => rfl) fun _ _ _ _ => BitVec.getLsbD_and
  case or => exact op2_writesBits (· ||| ·) (· || ·) (fun _ => rfl) fun _ _ _ _ => BitVec.getLsbD_or
  case xor => exact op2_writesBits (· ^^^ ·) (· != ·) (fun _ => rfl) fun _ _ _ _ => BitVec.getLsbD_xor
  case andn =>
    exact op2_writesBits (fun x y => x &&& ~~~y) (fun x y => x && !y) (fun _ => rfl) fun _ _ _ hn => by simp [hn]
  case truth =>
    refine (op3_writes (ty := .i .i64) (truthW tbl) fun _ => rfl).mono fun s iss w p x hx n hn => ?_
    subst hx
    exact truthW_bit tbl _ _ _ hn

/-! ### Shifts (R139) -/

theorem fieldAt_lt (x : Word) (w k : Nat) : fieldAt x w k < 2 ^ w :=
  Nat.mod_lt _ (Nat.two_pow_pos w)

theorem State.srcU_lt (s : State) (iss : Issue) (w : Warp) (p : Path) (ty : ITy) (o : Operand) (k : Nat) :
    s.srcU iss w p ty o k < 2 ^ wI ty :=
  fieldAt_lt _ _ k

/-- Natural numbers with equal residues modulo 2^w are written alike. -/
theorem Holds.congr_nat {ty : ITy} {f g : Nat → Nat} {x : Word} (h : Holds ty (fun k => (f k : Int)) x)
    (hfg : ∀ k, k < ty.count → f k % 2 ^ wI ty = g k % 2 ^ wI ty) : Holds ty (fun k => (g k : Int)) x :=
  h.congr fun k hk => by exact_mod_cast hfg k hk

theorem shrE_eq_div {w a : Nat} (n : Nat) (ha : a < 2 ^ w) : shrE w a n = a / 2 ^ n := by
  unfold shrE
  split
  case isTrue h => exact (Nat.div_eq_of_lt (lt_of_lt_of_le ha (Nat.pow_le_pow_right (by decide) h))).symm
  case isFalse h => rw [Nat.mod_eq_of_lt ha]

theorem sarE_eq_fdiv_min (w a n : Nat) : sarE w a n = (sgnOf w a).fdiv (2 ^ min w n) := by
  obtain ⟨hlo, hhi⟩ := sgnOf_bounds w a
  rw [sarE_eq_fdiv]
  rcases le_total w n with h | h
  · rw [min_eq_left h, fdiv_two_pow_of_bounds hlo hhi h, fdiv_two_pow_of_bounds hlo hhi le_rfl]
  · rw [min_eq_right h]

theorem rotlE_mod {w a : Nat} (n : Nat) (ha : a < 2 ^ w) :
    rotlE w a n % 2 ^ w = (a * 2 ^ (n % w) + a / 2 ^ (w - n % w)) % 2 ^ w := by
  rw [rotlE, Nat.mod_eq_of_lt ha, Nat.mod_add_mod]

/-- A single element, written through a scalar type. -/
theorem writeI_single (ty : ITy) (x : Int) (h : ty.count = 1) : Holds ty (fun _ => x) (writeI ty [x]) := by
  have hx := writeI_holds ty [x] h.symm
  exact ⟨fun k hk => by rw [hx.elem k hk, show k = 0 by omega]; rfl, hx.whole⟩

theorem imTy_count (im : ImTy) : im.ty.count = 1 := by
  cases im <;> rfl

/-- Settles O5: each shift writes the residue of its exact result. -/
theorem shifts : Obligations.Shifts := by
  intro g d a b c ty im
  refine ⟨?shl, ?shr, ?sar, ?rotl, ?fshl⟩
  case shl =>
    refine (mapU2_writes (fun x n => (shlE (wI ty) x n : Int)) fun _ => rfl).mono fun s iss w p x hx => ?_
    refine hx.congr fun k _ => ?_
    unfold shlE
    by_cases h : s.srcU iss w p ty b k < wI ty
    · rw [if_pos h, if_neg (not_le.mpr h)]
      push_cast
      exact Int.emod_emod_of_dvd _ dvd_rfl
    · rw [if_neg h, if_pos (not_lt.mp h)]
      rfl
  case shr =>
    refine (mapU2_writes (fun x n => (shrE (wI ty) x n : Int)) fun _ => rfl).mono fun s iss w p x hx => ?_
    exact hx.congr_nat fun k _ => by rw [shrE_eq_div _ (s.srcU_lt iss w p ty a k)]
  case sar =>
    refine (mapU2_writes (sarE (wI ty)) fun _ => rfl).mono fun s iss w p x hx => ?_
    exact hx.congr fun k _ => by rw [sarE_eq_fdiv_min]
  case rotl =>
    refine (mapU2_writes (fun x n => (rotlE (wI ty) x n : Int)) fun _ => rfl).mono fun s iss w p x hx => ?_
    exact hx.congr_nat fun k _ => rotlE_mod _ (s.srcU_lt iss w p ty a k)
  case fshl =>
    refine (op3_writes (ty := .i im.ty) (fshlW im.ty) fun _ => rfl).mono fun s iss w p x hx => ?_
    subst hx
    refine (writeI_single im.ty _ (imTy_count im)).congr_nat fun k hk => ?_
    rw [imTy_count im, Nat.lt_one_iff] at hk
    subst hk
    exact Nat.mod_mod _ _

/-! ### Bit fields (R140) -/

theorem count_of_scalar {ty : ITy} (h : ty.scalar = true) : ty.count = 1 := by
  revert h
  cases ty <;> decide

theorem sgnOf_eq_bmod {w x : Nat} (hw : 0 < w) (hx : x < 2 ^ w) : sgnOf w x = (x : Int).bmod (2 ^ w) := by
  have hhalf : 2 ^ w = 2 * 2 ^ (w - 1) := by rw [← Nat.pow_succ', Nat.succ_eq_add_one, Nat.sub_add_cancel hw]
  have hcast : (2 : Int) ^ w = ((2 ^ w : Nat) : Int) := by push_cast; rfl
  rw [sgnOf, Nat.mod_eq_of_lt hx, Int.bmod, Int.emod_eq_of_lt (by omega) (by exact_mod_cast hx), hcast, hhalf]
  generalize 2 ^ (w - 1) = half
  split <;> split <;> omega

theorem bfxW_holds {ty : ITy} (h : ty.scalar = true) (a b c : Word) :
    Holds ty (fun k =>
      let pos := b.toNat % 256
      let len := c.toNat % 256
      let x := ((elemI ty a k).fdiv (2 ^ pos) % 2 ^ min len (wI ty))
      if ty.signed ∧ 0 < len ∧ len < wI ty then x.bmod (2 ^ len) else x) (bfxW ty a b c) := by
  have hc := count_of_scalar h
  refine (writeI_single ty _ hc).congr fun k hk => ?_
  obtain rfl : k = 0 := by omega
  dsimp only
  generalize b.toNat % 256 = pos
  generalize c.toNat % 256 = len
  have hpos : (0 : Int) < 2 ^ min len (wI ty) := by positivity
  have hnonneg : 0 ≤ (elemI ty a 0).fdiv (2 ^ pos) % 2 ^ min len (wI ty) := Int.emod_nonneg _ hpos.ne'
  have hlt : (elemI ty a 0).fdiv (2 ^ pos) % 2 ^ min len (wI ty) < 2 ^ min len (wI ty) := Int.emod_lt_of_pos _ hpos
  generalize (elemI ty a 0).fdiv (2 ^ pos) % 2 ^ min len (wI ty) = x at hnonneg hlt
  obtain ⟨n, rfl⟩ := Int.eq_ofNat_of_zero_le hnonneg
  by_cases hs : ty.signed = true ∧ 0 < len ∧ len < wI ty
  · obtain ⟨hsigned, hlen, hle⟩ := hs
    rw [min_eq_left hle.le] at hlt
    simp only [hsigned, hlen, hle, Int.toNat_natCast, decide_true, Bool.and_self, and_self, if_true]
    rw [sgnOf_eq_bmod hlen (by exact_mod_cast hlt)]
  · rw [if_neg hs, if_neg (by simpa [and_assoc] using hs), Int.toNat_natCast]

/-- The bits of a number whose field of n bits at `pos` is replaced. -/
theorem testBit_replace {x y pos n : Nat} (hy : y < 2 ^ n) (i : Nat) :
    (x - x / 2 ^ pos % 2 ^ n * 2 ^ pos + y * 2 ^ pos).testBit i
      = if pos ≤ i ∧ i < pos + n then y.testBit (i - pos) else x.testBit i := by
  have hlow : x % 2 ^ pos < 2 ^ pos := Nat.mod_lt _ (Nat.two_pow_pos pos)
  have hmid : x / 2 ^ pos % 2 ^ n < 2 ^ n := Nat.mod_lt _ (Nat.two_pow_pos n)
  have hold : x = 2 ^ pos * (2 ^ n * (x / 2 ^ pos / 2 ^ n) + x / 2 ^ pos % 2 ^ n) + x % 2 ^ pos := by
    rw [Nat.div_add_mod, Nat.div_add_mod]
  generalize x / 2 ^ pos / 2 ^ n = high at hold
  generalize x / 2 ^ pos % 2 ^ n = mid at hold hmid ⊢
  generalize x % 2 ^ pos = low at hold hlow
  have hnew : x - mid * 2 ^ pos + y * 2 ^ pos = 2 ^ pos * (2 ^ n * high + y) + low := by
    rw [hold, Nat.mul_add, Nat.mul_add, Nat.mul_comm mid, Nat.mul_comm y]
    omega
  rw [hnew, hold]
  simp only [Nat.testBit_two_pow_mul_add _ hlow, Nat.testBit_two_pow_mul_add _ hy,
    Nat.testBit_two_pow_mul_add _ hmid]
  by_cases hbelow : i < pos
  · simp [hbelow, not_le.mpr hbelow]
  · by_cases hin : i - pos < n
    · have hfield : pos ≤ i ∧ i < pos + n := by omega
      simp [hbelow, hin, hfield]
    · have hfield : ¬(pos ≤ i ∧ i < pos + n) := by omega
      simp [hbelow, hin, hfield]

/-- The bits of a scalar result below its width. -/
theorem writeI_single_bit {ty : ITy} (hc : ty.count = 1) (v : Nat) {n : Nat} (hn : n < wI ty) :
    (writeI ty [(v : Int)]).getLsbD n = v.testBit n := by
  have hfield := writeI_field ty [(v : Int)] hc.symm 0 (by omega)
  have hbit := fieldAt_testBit (writeI ty [(v : Int)]) (wI ty) 0 n hn
  rw [Nat.mul_zero, Nat.zero_add] at hbit
  have hv : ((v : Int) % 2 ^ wI ty).toNat = v % 2 ^ wI ty := by exact_mod_cast Int.toNat_natCast (v % 2 ^ wI ty)
  rw [← hbit, hfield, List.getD_cons_zero, hv, Nat.testBit_mod_two_pow]
  simp [hn]

theorem bfiW_bit {ty : ITy} (h : ty.scalar = true) (a b c : Word) {n : Nat} (hn : n < wI ty) :
    let pos := c.toNat % 256
    let len := c.toNat / 256 % 256
    (bfiW ty a b c).getLsbD n = if pos ≤ n ∧ n < pos + len then b.getLsbD (n - pos) else a.getLsbD n := by
  intro pos len
  have hx := fieldAt_testBit a (wI ty) 0 n hn
  rw [Nat.mul_zero, Nat.zero_add] at hx
  have hcut : pos ≤ n ∧ n < pos + min len (wI ty - pos) ↔ pos ≤ n ∧ n < pos + len := by omega
  have hy : b.toNat % 2 ^ min len (wI ty - pos) < 2 ^ min len (wI ty - pos) := Nat.mod_lt _ (Nat.two_pow_pos _)
  have hnew := testBit_replace (x := fieldAt a (wI ty) 0) (pos := pos) hy n
  refine (writeI_single_bit (count_of_scalar h) _ hn).trans (hnew.trans ?_)
  simp only [hcut, hx]
  split
  case isTrue hin =>
    rw [Nat.testBit_mod_two_pow]
    have hlt : n - pos < min len (wI ty - pos) := by omega
    simp [hlt, BitVec.getLsbD]
  case isFalse => rfl

/-! ### Bit counts (R141) -/

theorem popcN_eq_countP (w x : Nat) : popcN w x = (List.range w).countP (fun n => x.testBit n) :=
  List.countP_eq_length_filter.symm

theorem clzN_spec {w x : Nat} (hx : x < 2 ^ w) :
    clzN w x ≤ w ∧ x < 2 ^ (w - clzN w x) ∧ (clzN w x < w → 2 ^ (w - clzN w x - 1) ≤ x) := by
  unfold clzN
  split
  case isTrue h => simp [h]
  case isFalse h =>
    have hlog : x.log2 < w := (Nat.log2_lt h).mpr hx
    have hw : w - (w - 1 - x.log2) = x.log2 + 1 := by omega
    rw [hw]
    exact ⟨by omega, (Nat.log2_lt h).mp (Nat.lt_succ_self _), fun _ => Nat.log2_self_le h⟩

theorem ctzN_spec (w x : Nat) :
    ctzN w x ≤ w ∧ (∀ n, n < ctzN w x → x.testBit n = false) ∧ (ctzN w x < w → x.testBit (ctzN w x) = true) := by
  unfold ctzN
  cases h : (List.range w).find? (fun k => x.testBit k) with
  | none =>
    rw [List.find?_range_eq_none] at h
    exact ⟨le_rfl, fun n hn => by simpa using h n hn, fun hn => absurd hn (lt_irrefl w)⟩
  | some z =>
    rw [List.find?_range_eq_some] at h
    obtain ⟨hbit, hmem, hbelow⟩ := h
    exact ⟨(List.mem_range.mp hmem).le, fun n hn => by simpa using hbelow n hn, fun _ => hbit⟩

theorem brevN_bit (w x : Nat) {n : Nat} (hn : n < w) : (brevN w x).testBit n = x.testBit (w - 1 - n) :=
  (bits_foldl (fun k => x.testBit (w - 1 - k)) w).2 n hn

/-- Settles O6: a field taken out is the quotient's residue, a field put in replaces its bits, and each count is that of
the outermost one. -/
theorem bitFieldsAndCounts : Obligations.BitFieldsAndCounts := by
  intro g d a b c ty
  refine ⟨fun hsc => ?bfx, fun hsc => ?bfi, ?popc, ?clz, ?ctz, ?brev⟩
  case bfx => exact fun s iss w p h => ⟨_, bfxW_holds hsc _ _ _, alu_ok _ h⟩
  case bfi =>
    exact fun s iss w p h => ⟨_, ⟨fun n hn => bfiW_bit hsc _ _ _ hn,
      (writeI_single ty _ (count_of_scalar hsc)).whole (count_of_scalar hsc)⟩, alu_ok _ h⟩
  case popc =>
    simp only [← popcN_eq_countP]
    exact mapU1_writes (fun x => (popcN (wI ty) x : Int)) fun _ => rfl
  case clz =>
    refine (mapU1_writes (fun x => (clzN (wI ty) x : Int)) fun _ => rfl).mono fun s iss w p x hx => ?_
    exact ⟨fun k => clzN (wI ty) (s.srcU iss w p ty a k), hx, fun k => clzN_spec (s.srcU_lt iss w p ty a k)⟩
  case ctz =>
    refine (mapU1_writes (fun x => (ctzN (wI ty) x : Int)) fun _ => rfl).mono fun s iss w p x hx => ?_
    exact ⟨fun k => ctzN (wI ty) (s.srcU iss w p ty a k), hx, fun k => ctzN_spec _ _⟩
  case brev =>
    refine (mapU1_writes (fun x => (brevN (wI ty) x : Int)) fun _ => rfl).mono fun s iss w p x hx => ?_
    exact ⟨fun k => brevN (wI ty) (s.srcU iss w p ty a k), hx, fun k n hn => brevN_bit _ _ hn⟩

/-! ### Moves (R142, R143, R146) -/

/-- An operation that only writes its destination. -/
theorem alu_writes {i : Instr} {g : Guard} {wt : Nat} {d : Operand} (f : State → Issue → Warp → Path → Word)
    (hi : ∀ s, exec i s = s.alu i g wt (fun s iss w p => p.setDst d (f s iss w p))) :
    WritesTo i g wt d (fun s iss w p x => x = f s iss w p) :=
  fun s _ _ _ h => ⟨_, rfl, by rw [hi s]; exact alu_ok _ h⟩

/-- Settles O7: each move writes its word; MOVHI's joins the immediate to the destination's low half. -/
theorem movesAndSelect : Obligations.MovesAndSelect := by
  intro g d a b ty k imm wide
  refine ⟨?mov, ?movi, ?moviW, ?movhi, ?sel, ?pget⟩
  case mov => exact (op1_writes (writeD ty) fun _ => rfl).mono fun _ _ _ _ _ hx => hx ▸ writeD_holds ty _
  case movi => exact alu_writes (fun _ _ _ _ => immWord imm) fun _ => rfl
  case moviW => exact alu_writes (fun _ _ _ _ => wide.zeroExtend 64) fun _ => rfl
  case movhi =>
    refine (alu_writes (fun s iss w p => wide ++ (s.rd iss w p d).extractLsb' 0 32) fun _ => rfl).mono ?_
    intro s iss w p x hx
    subst hx
    refine ⟨?_, (BitVec.extractLsb'_append_eq_of_add_le (by decide)).trans BitVec.extractLsb'_eq_self⟩
    exact (BitVec.extractLsb'_append_eq_of_le (by decide)).trans BitVec.extractLsb'_eq_self
  case sel => exact alu_writes (fun s iss w p => if p.depth k then s.rd iss w p a else s.rd iss w p b) fun _ => rfl
  case pget => exact alu_writes (fun _ _ _ p => p.th.d.zeroExtend 64) fun _ => rfl

end Sys2Proof.Machine
end

section
/-! Conditions, tests, the predicate stack, special registers and hints (R51, R53, R74, R144–R146, R149, R151, R158,
R241, R242). With them, O8, O9 and O10. -/

namespace Sys2Proof.Machine

/-! ### Conditions (R51, R144, R158) -/

theorem condI_iff (c : Cond) (ty : ITy) (a b : Word) :
    condI c ty a b = true
      ↔ CondSays c (elemI ty a 0) (elemI ty b 0) (fieldAt a (wI ty) 0) (fieldAt b (wI ty) 0) := by
  cases c <;> simp [condI, CondSays]

theorem ite_ne_none {α : Type} {c : Prop} [Decidable c] {x y : Option α} (hx : x ≠ none) (hy : y ≠ none) :
    (if c then x else y) ≠ none := by
  split
  · exact hx
  · exact hy

/-- Two codes are unordered exactly when one is a NaN. -/
theorem fCmp_eq_none_iff (F : Fmt) (a b : Nat) : fCmp F a b = none ↔ F.isNaN a = true ∨ F.isNaN b = true := by
  unfold fCmp Fmt.isNaN
  cases dec F a with
  | nan => simp
  | inf | fin =>
    cases dec F b with
    | nan => simp
    | inf | fin =>
      refine iff_of_false ?_ (by simp)
      repeat' apply ite_ne_none
      all_goals exact Option.some_ne_none _

theorem condF_iff (c : Cond) (F : Fmt) (a b : Nat) : condF c F a b = true ↔ CondSaysF c F a b := by
  have hnone := fCmp_eq_none_iff F a b
  have hsome : fCmp F a b ≠ none ↔ F.isNaN a = false ∧ F.isNaN b = false := by
    rw [Ne, hnone, not_or, Bool.not_eq_true, Bool.not_eq_true]
  unfold condF CondSaysF
  cases c <;> simp only [← hnone, ← hsome] <;> rcases fCmp F a b with _ | _ | _ | _ <;> simp

theorem condNV_eq_flNV_iff (c : Cond) (F : Fmt) (a b : Nat) :
    condNV c F a b = flNV ↔ F.isSNaN a = true ∨ F.isSNaN b = true
      ∨ ((c = .lt ∨ c = .le ∨ c = .gt ∨ c = .ge) ∧ (F.isNaN a = true ∨ F.isNaN b = true)) := by
  unfold condNV
  rw [Ne.ite_eq_left_iff (by decide)]
  cases c <;> simp [or_assoc]

theorem condNV_eq_or (c : Cond) (F : Fmt) (a b : Nat) : condNV c F a b = flNV ∨ condNV c F a b = 0 := by
  unfold condNV
  exact ite_eq_or_eq _ _ _

/-! ### Compares and tests (R53, R144, R158) -/

/-- A test of a condition sends its thread to the child that the condition selects. -/
theorem test_moves {i : Instr} {s : State} {iss : Issue} {w : Warp} {p : Path}
    (f : State → Issue → Warp → Path → Bool) (hi : exec i s = s.onTest i f) (h : Performs i .always s iss w p) :
    exec i s = .next (s.after iss ({ p with pos := 2 * p.pos + (f s iss w p).toNat }.weigh 1)) := by
  rw [hi, onTest_ok f h, Bool.toNat, cond_eq_ite]

/-- Settles O8: each instruction pushes its condition or sends its thread on by it. -/
theorem comparesAndTests : Obligations.ComparesAndTests := by
  refine ⟨fun g c a b ty imm dbl nf => ⟨?cmp, ?cmpImm, ?fcmp⟩,
    fun c a b ti tf imm clr k => ⟨?testInt, ?testFloat, ?testImm, ?testPred⟩⟩
  case cmp => exact fun s iss w p h => ⟨_, condI_iff c ty _ _, alu_ok _ h⟩
  case cmpImm => exact fun s iss w p h => ⟨_, condI_iff c ty _ _, alu_ok _ h⟩
  case fcmp =>
    intro s iss w p h ty u v
    exact ⟨condF c (fmtOf ty) u v, condNV c (fmtOf ty) u v, condF_iff c _ u v, condNV_eq_flNV_iff c _ u v,
      condNV_eq_or c _ u v, alu_ok _ h⟩
  case testInt => exact fun s iss w p h => ⟨_, condI_iff c ti _ _, test_moves _ rfl h⟩
  case testFloat => exact fun s iss w p h => ⟨_, condF_iff c (fmtOf tf) _ _, test_moves _ rfl h⟩
  case testImm => exact fun s iss w p h => ⟨_, condI_iff c ti _ _, test_moves _ rfl h⟩
  case testPred =>
    intro s iss w p h
    refine (test_moves (fun _ _ _ p => p.depth k != clr) rfl h).trans ?_
    rw [Path.depth]
    cases p.th.d.getLsbD k.toNat <;> cases clr <;> rfl

/-! ### The predicate stack (R145, R146) -/

theorem Path.push_d_zero (p : Path) (x : Bool) : (p.push x).th.d.getLsbD 0 = x := by
  cases x <;> simp [Path.push]

theorem Path.push_d_succ (p : Path) (x : Bool) {k : Nat} (hk : k < 7) :
    (p.push x).th.d.getLsbD (k + 1) = p.th.d.getLsbD k := by
  have h : k + 1 < 8 := by omega
  cases x <;> simp [Path.push, h, BitVec.getLsbD_eq_getElem (show k < 8 by omega)]

/-- An operation that only changes its path. -/
theorem alu_moves {i : Instr} {g : Guard} {wt : Nat} (f : State → Issue → Warp → Path → Path)
    (hi : ∀ s, exec i s = s.alu i g wt f) : Moves i g wt f :=
  fun s _ _ _ h => (hi s).trans (alu_ok f h)

/-- Settles O9: the stack is a word whose lowest bit is depth 0, so a push is a shift to the left. -/
theorem predicateStack : Obligations.PredicateStack := by
  refine ⟨fun p x => ⟨p.push_d_zero x, fun k hk => p.push_d_succ x hk, rfl, rfl, rfl⟩,
    fun g tbl x y z n a => ⟨?pcomb, ?pdrop, ?pset⟩⟩
  case pcomb =>
    have hbit (b : Bool) : b.toNat = if b then 1 else 0 := by cases b <;> rfl
    simp only [hbit]
    exact alu_moves _ fun _ => rfl
  case pdrop => exact fun s iss w p h => ⟨p.th.d >>> n.toNat, fun k hk => by simp [Nat.add_comm], alu_ok _ h⟩
  case pset => exact alu_moves _ fun _ => rfl

/-! ### Special registers and hints (R74, R149, R151, R241, R242) -/

/-- An operation whose use is not reserved and whose body only changes its path. -/
theorem onOp_keeps {s : State} {iss : Issue} {w : Warp} {p q : Path} {i : Instr} {g : Guard} {wt : Nat}
    {six : Reserved} {body : Body} (hi : exec i s = s.onOp i g wt six body) (h : Performs i g s iss w p)
    (h6 : six s iss w p = false) (hb : body s iss w p = (s, .ok q)) :
    exec i s = .next (s.after iss (q.weigh wt)) :=
  hi.trans (onOp_ok h h6 hb)

theorem swr_moves (g : Guard) (x : Special) (a : Operand) (hx : x ≠ .flags) :
    Moves (.swr g x a) g 1 (fun s iss w p => p.setSpecial x (s.rd iss w p a)) :=
  fun _ _ _ _ h => onOp_keeps rfl h (by simp [swrBad, hx]) rfl

/-- Settles O10: what SRD and SWR name is not reserved under the premises, so their bodies answer the path. -/
theorem specialRegistersAndHints : Obligations.SpecialRegistersAndHints := by
  refine ⟨fun g d a => ⟨?srd, swr_moves g .frame a (by decide), swr_moves g .rsp a (by decide), ?flags,
    fun k => swr_moves g (.h k) a (by simp)⟩, fun g n => ⟨?nop, ?yield, ?ifence, ?bkpt⟩⟩
  case srd =>
    intro s iss w p r h hr hh
    refine onOp_keeps rfl h ?_ (by simp only [hr]; rfl)
    simp only [srdBad, hr]
    cases r <;> simp_all
  case flags =>
    intro s iss w p h hlt
    exact onOp_keeps rfl h (by simp [swrBad, hlt]) rfl
  case nop => exact alu_moves _ fun _ => rfl
  case yield => exact alu_moves _ fun _ => rfl
  case ifence => exact alu_moves _ fun _ => rfl
  case bkpt =>
    intro s iss w p h
    refine (alu_ok _ h).trans ?_
    simp [Path.addFx, and_assoc]

end Sys2Proof.Machine
end

section
/-! Leaves (R63, R64, R96, R336, R337): what is wrong with a target, the call with its spill and the return with its
refill. With them, O11. -/

namespace Sys2Proof.Machine

/-! ### Targets -/

theorem targetFault_eq_none {x : Word} (h8 : x.toNat % 8 = 0) (h56 : x.toNat < 2 ^ 56) : targetFault x = none := by
  have hone : x ≠ BitVec.allOnes 64 := by
    rintro rfl
    simp at h56
  rw [targetFault, if_neg hone, if_neg (by simp [h8]), if_neg (by rw [Nat.div_eq_of_lt h56]; decide)]

theorem targetFault_allOnes : targetFault (BitVec.allOnes 64) = some 8 := if_pos rfl

theorem targetFault_misaligned {x : Word} (h8 : x.toNat % 8 ≠ 0) (hone : x ≠ BitVec.allOnes 64) :
    targetFault x = some 7 := by
  rw [targetFault, if_neg hone, if_pos (bne_iff_ne.mpr h8)]

theorem targetFault_far {x : Word} (h8 : x.toNat % 8 = 0) (h56 : 2 ^ 56 ≤ x.toNat) : targetFault x = some 8 := by
  have hone : x ≠ BitVec.allOnes 64 := by
    rintro rfl
    simp at h8
  have hdiv : x.toNat / 2 ^ 56 ≠ 0 := (Nat.div_pos h56 (by positivity)).ne'
  rw [targetFault, if_neg hone, if_neg (by simp [h8]), if_pos (bne_iff_ne.mpr hdiv)]

/-- The target at an offset of 8-byte units. -/
theorem Issue.target_eq (iss : Issue) (off : BitVec 32) : iss.target off = iss.addr + BitVec.ofInt 56 (8 * off.toInt) := by
  have h : off.signExtend 56 <<< 3 = BitVec.ofInt 56 (8 * off.toInt) := by
    rw [← BitVec.mul_twoPow_eq_shiftLeft, BitVec.mul_comm, BitVec.ofInt_mul]
    rfl
  rw [Issue.target, h]

/-- A clause address is a multiple of 8, and so is a target at an offset from it. -/
theorem Issue.target_mod (iss : Issue) (off : BitVec 32) (h : iss.addr.toNat % 8 = 0) :
    (iss.target off).toNat % 8 = 0 := by
  rw [Issue.target, BitVec.toNat_add, BitVec.toNat_shiftLeft, Nat.shiftLeft_eq]
  omega

theorem targetFault_target {iss : Issue} {off : BitVec 32} (h : iss.addr.toNat % 8 = 0) :
    targetFault ((iss.target off).zeroExtend 64) = none := by
  have hlt := (iss.target off).isLt
  have hnat : ((iss.target off).zeroExtend 64).toNat = (iss.target off).toNat := by simp; omega
  exact targetFault_eq_none (by rw [hnat, iss.target_mod off h]) (by rw [hnat]; exact hlt)

theorem Issue.target_setWidth (iss : Issue) (off : BitVec 32) :
    ((iss.target off).zeroExtend 64).setWidth 56 = iss.target off := by
  simp

/-! ### Calls (R64) -/

section
variable {target : State → Issue → Warp → Path → Word} {s : State} {iss : Issue} {w : Warp} {p : Path}

/-- A call while the return stack has room. -/
theorem callBody_push (ht : targetFault (target s iss w p) = none) (hlen : p.th.ret.length < 4) :
    callBody target s iss w p = (s, .ok ({ p with th := { p.th with ret := iss.after :: p.th.ret } }.goTo
      ((target s iss w p).setWidth 56))) := by
  have hspills : p.spills = false := by simpa [Path.spills] using hlen
  simp [callBody, ht, hspills, Path.pushRet]

/-- A call that spills the oldest entry. -/
theorem callBody_spill {pl : Place} (ht : targetFault (target s iss w p) = none) (hlen : 4 ≤ p.th.ret.length)
    (ha : s.access iss w p (spillAccess (p.th.rsp - 8) true) = .ok pl) :
    callBody target s iss w p = (s, .ok ((p.pushRet iss pl iss.after).goTo ((target s iss w p).setWidth 56))) := by
  have hspills : p.spills = true := by simpa [Path.spills] using hlen
  simp only [callBody, ht, hspills, if_true, ha]

/-- A call whose spill faults. -/
theorem callBody_spillFault {f : PFault} (ht : targetFault (target s iss w p) = none) (hlen : 4 ≤ p.th.ret.length)
    (ha : s.access iss w p (spillAccess (p.th.rsp - 8) true) = .error f) :
    callBody target s iss w p = (s, .error f) := by
  have hspills : p.spills = true := by simpa [Path.spills] using hlen
  simp only [callBody, ht, hspills, if_true, ha]

/-- A misaligned target comes first. -/
theorem callBody_misaligned (ht : targetFault (target s iss w p) = some 7) :
    callBody target s iss w p = (s, .error (p.flt 7 (target s iss w p))) := by
  simp [callBody, ht]

/-- A target out of the address space, where nothing is spilled. -/
theorem callBody_far (ht : targetFault (target s iss w p) = some 8) (hlen : p.th.ret.length < 4) :
    callBody target s iss w p = (s, .error (p.flt 8 (target s iss w p))) := by
  have hspills : p.spills = false := by simpa [Path.spills] using hlen
  simp [callBody, ht, hspills]

end

theorem Path.pushRet_of_spills {p : Path} (iss : Issue) (pl : Place) (a : Addr56) (hlen : 4 ≤ p.th.ret.length) :
    p.pushRet iss pl a = { p with
      th := { p.th with rsp := p.th.rsp - 8, spill := p.th.spill + 1, ret := a :: p.th.ret.take 3 }
      fx := p.fx ++ [Fx.item (sentBy iss p (.store (leBytes 8 (p.th.ret.getLastD 0).toNat)) pl (p.th.rsp - 8)
        .plain .core)] } := by
  have hspills : p.spills = true := by simpa [Path.spills] using hlen
  have hold : ((p.th.ret.getLastD 0).zeroExtend 64).toNat = (p.th.ret.getLastD 0).toNat := by
    have hlt := (p.th.ret.getLastD 0).isLt
    simp only [BitVec.truncate_eq_setWidth, BitVec.toNat_setWidth]
    omega
  simp only [Path.pushRet, hspills, if_true, hold]
  rfl

/-! ### Returns (R64) -/

theorem retBody_pop {s : State} {iss : Issue} {w : Warp} {p : Path} (h : p.th.ret ≠ []) :
    retBody s iss w p
      = (s, .ok ({ p with th := { p.th with ret := p.th.ret.drop 1 } }.goTo (p.th.ret.headD 0))) := by
  obtain ⟨a, r, hr⟩ := List.exists_cons_of_ne_nil h
  simp [retBody, hr]

theorem retBody_none {s : State} {iss : Issue} {w : Warp} {p : Path} (h : p.th.ret = []) (hs : p.th.spill = 0) :
    retBody s iss w p = (s, .error (p.flt 15 0)) := by
  simp [retBody, h, hs]

theorem retBody_refill {s : State} {iss : Issue} {w : Warp} {p : Path} {pl : Place} (h : p.th.ret = [])
    (hs : p.th.spill ≠ 0) (ha : s.access iss w p (spillAccess p.th.rsp false) = .ok pl) :
    retBody s iss w p = (s, .ok { p with
      th := { p.th with rsp := p.th.rsp + 8, spill := p.th.spill - 1 }
      fx := p.fx ++ [Fx.load { iss.load w p .pc pl p.th.rsp 8 false plainly with flag := none }]
      leaf := some .refill }) := by
  simp only [retBody, h, hs, if_false, ha]
  rfl

theorem retBody_refillFault {s : State} {iss : Issue} {w : Warp} {p : Path} {f : PFault} (h : p.th.ret = [])
    (hs : p.th.spill ≠ 0) (ha : s.access iss w p (spillAccess p.th.rsp false) = .error f) :
    retBody s iss w p = (s, .error f) := by
  simp only [retBody, h, hs, if_false, ha]

/-- An access at an address that is no multiple of its size faults with kind 7 (R337). -/
theorem State.access_misaligned {s : State} {iss : Issue} {w : Warp} {p : Path} {x : Access} {f : PFault}
    (hx : x.va.toNat % x.n ≠ 0) (ha : s.access iss w p x = .error f) : f.kind = 7 := by
  simp only [State.access, State.locate, bne_iff_ne.mpr hx, if_true, Except.error.injEq] at ha
  exact ha ▸ rfl

theorem leaf_moves {i : Instr} {f : Body} {s : State} {iss : Issue} {w : Warp} {p q : Path}
    (hi : exec i s = s.onLeaf i f) (h : Performs i .always s iss w p) (hb : f s iss w p = (s, .ok q)) :
    exec i s = .next (s.after iss q) :=
  hi.trans (onLeaf_ok h hb)

theorem leaf_faults {i : Instr} {f : Body} {s : State} {iss : Issue} {w : Warp} {p : Path} {e : PFault}
    (hi : exec i s = s.onLeaf i f) (h : Performs i .always s iss w p) (hb : f s iss w p = (s, .error e)) :
    exec i s = .next (s.after iss { p with fault := some e }) :=
  hi.trans (onLeaf_error h hb)

/-- Settles O11: each leaf is its body, and the bodies of a call and a return answer as the target, the stack's depth and
the access of the spill or refill say. -/
theorem leaves : Obligations.Leaves := by
  intro off r code done faults next go rel good push spill spilt refill
  have hrel (iss : Issue) : rel iss = ((iss.target off).zeroExtend 64).setWidth 56 := by
    rw [iss.target_setWidth, iss.target_eq]
  have hgood {x : Word} (h : good x) : targetFault x = none := targetFault_eq_none h.1 h.2
  refine ⟨⟨?next, ?jmp, ?jmpi, ?call, ?calli, ?ret, ?exit, ?trap⟩, fun pl => ⟨?callSpill, ?calliSpill, ?refill⟩,
    ?callSpillFault, ?calliSpillFault, ?refillFault, ?retNone, ?misalignedStack, ?jmpi7, ?calli7, ?jmpi8, ?calli8,
    ?jmpiOnes, ?calliOnes⟩
  case next => exact fun s iss w p h _ => leaf_moves rfl h rfl
  case jmp =>
    intro s iss w p h _
    rw [leaf_moves rfl h rfl, iss.target_eq]
    rfl
  case jmpi => exact fun s iss w p h hx => leaf_moves rfl h (by simp only [hgood hx]; rfl)
  case call =>
    rintro s iss w p h ⟨h8, hlen⟩
    show exec _ s = .next (s.after iss (go (push p (next iss)) (rel iss)))
    rw [hrel]
    exact leaf_moves rfl h (callBody_push (targetFault_target h8) hlen)
  case calli => exact fun s iss w p h ⟨hx, hlen⟩ => leaf_moves rfl h (callBody_push (hgood hx) hlen)
  case ret => exact fun s iss w p h hr => leaf_moves rfl h (retBody_pop hr)
  case exit => exact fun s iss w p h _ => leaf_moves rfl h rfl
  case trap => exact fun s iss w p h _ => leaf_moves rfl h rfl
  case callSpill =>
    rintro s iss w p h ⟨h8, hlen, ha⟩
    have hpush : spilt iss p pl (next iss) = p.pushRet iss pl iss.after := (Path.pushRet_of_spills iss pl _ hlen).symm
    show exec _ s = .next (s.after iss (go (spilt iss p pl (next iss)) (rel iss)))
    rw [hrel, hpush]
    exact leaf_moves rfl h (callBody_spill (targetFault_target h8) hlen ha)
  case calliSpill =>
    rintro s iss w p h ⟨hx, hlen, ha⟩
    have hpush : spilt iss p pl (next iss) = p.pushRet iss pl iss.after := (Path.pushRet_of_spills iss pl _ hlen).symm
    show exec _ s = .next (s.after iss (go (spilt iss p pl (next iss)) ((s.rd iss w p r).setWidth 56)))
    rw [hpush]
    exact leaf_moves rfl h (callBody_spill (hgood hx) hlen ha)
  case refill => exact fun s iss w p h hr hs ha => leaf_moves rfl h (retBody_refill hr hs ha)
  case callSpillFault =>
    exact fun s iss w p f h ⟨h8, hlen, ha⟩ => leaf_faults rfl h (callBody_spillFault (targetFault_target h8) hlen ha)
  case calliSpillFault =>
    exact fun s iss w p f h ⟨hx, hlen, ha⟩ => leaf_faults rfl h (callBody_spillFault (hgood hx) hlen ha)
  case refillFault => exact fun s iss w p f h ⟨hr, hs, ha⟩ => leaf_faults rfl h (retBody_refillFault hr hs ha)
  case retNone => exact fun s iss w p f h ⟨hr, hs, hf⟩ => hf ▸ leaf_faults rfl h (retBody_none hr hs)
  case misalignedStack =>
    rintro s iss w p f h8 (ha | ha)
    · refine State.access_misaligned (x := spillAccess (p.th.rsp - 8) true) ?_ ha
      show (p.th.rsp - 8).toNat % 8 ≠ 0
      bv_omega
    · exact State.access_misaligned (x := spillAccess p.th.rsp false) h8 ha
  case jmpi7 =>
    rintro s iss w p f h ⟨h8, hone, rfl⟩
    exact leaf_faults rfl h (by simp only [targetFault_misaligned h8 hone]; rfl)
  case calli7 =>
    rintro s iss w p f h ⟨h8, hone, rfl⟩
    exact leaf_faults rfl h (callBody_misaligned (targetFault_misaligned h8 hone))
  case jmpi8 =>
    rintro s iss w p f h ⟨h8, h56, rfl⟩
    exact leaf_faults rfl h (by simp only [targetFault_far h8 h56]; rfl)
  case calli8 =>
    rintro s iss w p f h ⟨h8, h56, hlen, rfl⟩
    exact leaf_faults rfl h (callBody_far (targetFault_far h8 h56) hlen)
  case jmpiOnes =>
    rintro s iss w p f h ⟨hone, rfl⟩
    exact leaf_faults rfl h (by simp only [hone, targetFault_allOnes]; rfl)
  case calliOnes =>
    rintro s iss w p f h ⟨hone, hlen, rfl⟩
    refine leaf_faults rfl h ((callBody_far ?_ hlen).trans (by rw [hone]; rfl))
    rw [hone, targetFault_allOnes]

end Sys2Proof.Machine
end

section
/-! Float instructions, element by element (R153–R157), what a float result leaves (R124, R131), rounding (R113), and
the signs of zeros and the selection of NaNs (R115, R117). With them, O12, O13, O14 and O15. -/

namespace Sys2Proof.Machine

/-! ### One result for each element (R153–R157) -/

@[simp] theorem State.rdFS_length (s : State) (iss : Issue) (w : Warp) (p : Path) (ty : FTy) (x : FSrc) :
    (s.rdFS iss w p ty x).length = ty.count := by
  simp [State.rdFS]

@[simp] theorem State.rdFS_getElem (s : State) (iss : Issue) (w : Warp) (p : Path) (ty : FTy) (x : FSrc) {k : Nat}
    (h : k < (s.rdFS iss w p ty x).length) : (s.rdFS iss w p ty x)[k] = s.srcF iss w p ty x k := by
  simp [State.rdFS, State.srcF]

theorem fp1_writes {i : Instr} {g : Guard} {d : Operand} {a : FSrc} {ty : FTy} {nf : Bool}
    (f : Fmt → Nat → Nat × Flags) (hi : ∀ s, exec i s = s.fp1 i g d a ty nf f) :
    WritesF i g 1 d ty nf (fun s iss w p k r => r = f (fmtOf ty) (s.srcF iss w p ty a k)) :=
  fpDst_writes _ hi (by simp) (by simp)

theorem fp2_writes {i : Instr} {g : Guard} {d : Operand} {a b : FSrc} {ty : FTy} {nf : Bool}
    (f : Fmt → Nat → Nat → Nat × Flags) (hi : ∀ s, exec i s = s.fp2 i g d a b ty nf f) :
    WritesF i g 1 d ty nf (fun s iss w p k r =>
      r = f (fmtOf ty) (s.srcF iss w p ty a k) (s.srcF iss w p ty b k)) :=
  fpDst_writes _ hi (by simp) (by simp)

theorem fma_writes (g : Guard) (d : Operand) (a b : FSrc) (c : Operand) (negc : Bool) (ty : FTy) (rm : Rm) (nf : Bool) :
    WritesF (.fma g d a b c negc ty rm nf) g 1 d ty nf (fun s iss w p k r =>
      r = fFma (fmtOf ty) rm (s.srcF iss w p ty a k) (s.srcF iss w p ty b k) (s.srcF iss w p ty ⟨c, negc, false⟩ k)) :=
  fpDst_writes _ (fun _ => rfl) (by simp) (by simp)

/-! ### FSCALE's b (R72, R157) -/

@[simp] theorem State.scaleOf_length (s : State) (iss : Issue) (w : Warp) (p : Path) (ty : FTy) (b : Operand) :
    (s.scaleOf iss w p ty b).length = ty.count := by
  simp [State.scaleOf]

theorem fscale_writes (g : Guard) (d : Operand) (a : FSrc) (b : Operand) (ty : FTy) (rm : Rm) (nf : Bool)
    (n : State → Issue → Warp → Path → Nat → Int)
    (hn : ∀ s iss w p k (h : k < (s.scaleOf iss w p ty b).length), (s.scaleOf iss w p ty b)[k] = n s iss w p k) :
    WritesF (.fscale g d a b ty rm nf) g 1 d ty nf (fun s iss w p k r =>
      r = fScaleE (fmtOf ty) rm (s.srcF iss w p ty a k) (n s iss w p k)) :=
  fpDst_writes _ (fun _ => rfl) (by simp) (by simp [hn])

/-- FSCALE reads b in signed elements as wide as the type's. -/
theorem elemI_scaleTy {ty : FTy} (h : ty.arith = true) (x : Word) (k : Nat) :
    elemI (scaleTy ty) x k = sgnOf (fmtOf ty).width (fieldAt x (fmtOf ty).width k) := by
  cases ty with
  | e4m3 | e5m2 | e2m1 => exact absurd h (by decide)
  | f64 | f32 | f32x2 | f16x4 | bf16x4 => rfl

/-- A field of a packed register. -/
theorem fieldAt_pack {w : Nat} {xs : List Nat} (h64 : w * xs.length ≤ 64) {k : Nat} (hk : k < xs.length) :
    fieldAt (BitVec.ofNat 64 (pack w xs)) w k = xs[k] % 2 ^ w := by
  have hlt : pack w xs < 2 ^ 64 := (pack_lt w xs).trans_le (Nat.pow_le_pow_right (by decide) h64)
  rw [fieldAt, BitVec.toNat_ofNat, Nat.mod_eq_of_lt hlt, pack_field w xs k hk]
  simp [hk]

theorem inlineInt_mem_rangeI (n : BitVec 6) {ty : ITy} (hs : ty.signed = true) : inlineInt n ∈ rangeI ty := by
  have hn := n.isLt
  have hw : 7 ≤ wI ty - 1 := by cases ty <;> decide
  have hhalf : (2 : Int) ^ 7 ≤ 2 ^ (wI ty - 1) := pow_le_pow_right₀ (by decide) hw
  have hhi : hiI ty = 2 ^ (wI ty - 1) - 1 := by simp [hiI, hs]
  rw [rangeI, loI_of_signed hs, hhi, Set.mem_Icc, inlineInt]
  omega

/-- An inline integer read through a signed type is its value in every element (R72). -/
theorem State.srcI_int (s : State) (iss : Issue) (w : Warp) (p : Path) {ty : ITy} (hs : ty.signed = true)
    (h64 : wI ty * ty.count ≤ 64) (n : BitVec 6) {k : Nat} (hk : k < ty.count) :
    s.srcI iss w p ty (.int n) k = inlineInt n := by
  have hfield : fieldAt (s.rdI iss w p ty (.int n)) (wI ty) k = (inlineInt n % 2 ^ wI ty).toNat := by
    rw [State.rdI, fieldAt_pack (by simpa using h64) (by simpa using hk), List.getElem_replicate]
    apply Nat.mod_eq_of_lt
    have hpos : (0 : Int) < 2 ^ wI ty := by positivity
    have hlt := Int.emod_lt_of_pos (inlineInt n) hpos
    zify
    rwa [Int.toNat_of_nonneg (Int.emod_nonneg _ hpos.ne')]
  rw [State.srcI, elemI, hfield, read_wrapI, wrapI_of_mem_rangeI (inlineInt_mem_rangeI n hs)]

theorem State.scaleOf_int (s : State) (iss : Issue) (w : Warp) (p : Path) {ty : FTy} (h : ty.arith = true)
    (n : BitVec 6) {k : Nat} (hk : k < (s.scaleOf iss w p ty (.int n)).length) :
    (s.scaleOf iss w p ty (.int n))[k] = inlineInt n := by
  have hk' : k < ty.count := by simpa using hk
  have hsigned : (scaleTy ty).signed = true := by cases ty <;> rfl
  have h64 : wI (scaleTy ty) * (scaleTy ty).count ≤ 64 := by cases ty <;> decide
  have hcount : ty.count ≤ (scaleTy ty).count := by
    cases ty with
    | e4m3 | e5m2 | e2m1 => exact absurd h (by decide)
    | f64 | f32 | f32x2 | f16x4 | bf16x4 => exact le_rfl
  simpa [State.scaleOf, State.srcI] using s.srcI_int iss w p hsigned h64 n (hk'.trans_le hcount)

/-- Settles O12: each instruction's elements are one function of its sources' elements; FSCALE's b is read through the
signed type of the same width. -/
theorem floatArithmetic : Obligations.FloatArithmetic := by
  intro g d a b c negc ty rm num nf o u n F
  refine ⟨?add, ?mul, ?fma, ?min, ?max, ?rnd, fun hty => ⟨?scaleV, ?scaleS, ?scaleInt⟩, ?cls, ?expo⟩
  case add => exact fp2_writes (fun F => fAdd F rm false) fun _ => rfl
  case mul => exact fp2_writes (fun F => fMul F rm) fun _ => rfl
  case fma => exact fma_writes g d a b c negc ty rm nf
  case min => exact fp2_writes (fun F => fSelect F false num) fun _ => rfl
  case max => exact fp2_writes (fun F => fSelect F true num) fun _ => rfl
  case rnd => exact fp1_writes (fun F => fRound F rm) fun _ => rfl
  case scaleV =>
    exact fscale_writes g d a (.v o) ty rm nf _ fun s iss w p k hk => by
      simp [State.scaleOf, elemI_scaleTy hty, State.rdI, State.rd, F]
  case scaleS =>
    exact fscale_writes g d a (.s u) ty rm nf _ fun s iss w p k hk => by
      simp [State.scaleOf, elemI_scaleTy hty, State.rdI, State.rd, F]
  case scaleInt =>
    exact fscale_writes g d a (.int n) ty rm nf _ fun s iss w p k hk => s.scaleOf_int iss w p hty n hk
  case cls => exact fp1_writes (fun F x => (2 ^ fClass F x, 0)) fun _ => rfl
  case expo => exact fp1_writes fExpo fun _ => rfl

/-! ### What a float result leaves (R124, R131) -/

theorem getLsbD_foldl_or (xs : List (Nat × Flags)) (f : Flags) (n : Nat) :
    (xs.foldl (fun f x => f ||| x.2) f).getLsbD n = (f.getLsbD n || xs.any (fun x => x.2.getLsbD n)) := by
  induction xs generalizing f with
  | nil => simp
  | cons x xs ih => simp [ih, Bool.or_assoc]

theorem orFlags_bit (xs : List (Nat × Flags)) (n : Nat) :
    (orFlags xs).getLsbD n = xs.any (fun x => x.2.getLsbD n) := by
  simp [orFlags, getLsbD_foldl_or]

@[simp] theorem Path.raise_v (p : Path) (nf : Bool) (f : Flags) : (p.raise nf f).th.v = p.th.v := by
  cases nf <;> rfl

@[simp] theorem Path.raise_d (p : Path) (nf : Bool) (f : Flags) : (p.raise nf f).th.d = p.th.d := by
  cases nf <;> rfl

@[simp] theorem Path.raise_fx (p : Path) (nf : Bool) (f : Flags) : (p.raise nf f).fx = p.fx := by
  cases nf <;> rfl

theorem Path.raise_flags_bit (p : Path) (nf : Bool) (f : Flags) (n : Nat) :
    (p.raise nf f).th.flags.getLsbD n = (p.th.flags.getLsbD n || (!nf && f.getLsbD n)) := by
  cases nf <;> simp [Path.raise]

theorem fmtOf_width_count (ty : FTy) : (fmtOf ty).width * ty.count ≤ 64 := by
  cases ty <;> decide

/-- Settles O13: the register is the packed list of codes, and the flags are the fold of the elements' flags. -/
theorem floatResults : Obligations.FloatResults := by
  intro p r ty nf xs hlen
  have hwidth := fmtOf_width_count ty
  have hcodes : (xs.map (·.1)).length = ty.count := by simpa using hlen
  have hv : (p.fpDst (.v r) ty nf xs).th.v = p.th.v.set 0 r.toNat (writeF ty (xs.map (·.1))) := Path.raise_v ..
  rw [hv, SMap.get_set_self]
  refine ⟨fun k h => ?field, ?upper, fun n => ?flags, fun n hn => ?other, Path.raise_d .., Path.raise_fx ..⟩
  case field =>
    rw [writeF, fieldAt_pack (by rw [hcodes]; exact hwidth) (by simpa using h), List.getElem_map]
  case upper =>
    rw [writeF, BitVec.toNat_ofNat, ← hcodes]
    exact (Nat.mod_le _ _).trans_lt (pack_lt _ _)
  case flags =>
    rw [Path.fpDst, Path.raise_flags_bit, orFlags_bit]
    rfl
  case other => exact SMap.get_set_ne _ _ _ hn

/-! ### Rounding (R113) -/

/-- Below the quantum, the rounded multiple is ⌊m / 2^(n+1)⌋, or one more where the mode says so of the remainder. -/
theorem roundTo_below (rm : Rm) (neg : Bool) (m n : Nat) (e : Int) :
    let lo := m / 2 ^ (n + 1)
    let rem := m % 2 ^ (n + 1)
    roundTo rm ⟨neg, m, e, false⟩ (e + (n + 1 : Nat)) =
      (lo + (match rm with
        | .rne => if 2 ^ n < rem ∨ rem = 2 ^ n ∧ lo % 2 = 1 then 1 else 0
        | .rna => if 2 ^ n ≤ rem then 1 else 0
        | .rtz => 0
        | .rdn => if neg = true ∧ rem ≠ 0 then 1 else 0
        | .rup => if neg = false ∧ rem ≠ 0 then 1 else 0), decide (rem ≠ 0)) := by
  intro lo rem
  have hq : ¬ e + (n + 1 : Nat) ≤ e := by omega
  have hsh : (e + (n + 1 : Nat) - e).toNat = n + 1 := by omega
  simp only [roundTo, if_neg hq, hsh, Nat.add_sub_cancel, Bool.not_false, Bool.and_true, Bool.and_false,
    Bool.or_false]
  cases rm <;> ext <;> simp only [lo, rem] <;> grind

/-- Settles O14: the multiple is ⌊m / u⌋ or one more, as the remainder and the mode decide. -/
theorem roundingModes : Obligations.RoundingModes := by
  intro neg m n e x u y
  have hround : ∀ rm, roundTo rm x (e + (n + 1 : Nat)) = _ := fun rm => roundTo_below rm neg m n e
  have hsplit : m / u * u + m % u = m := Nat.div_add_mod' m u
  have hrem : m % u < u := Nat.mod_lt _ (by positivity)
  have hu : u = 2 * 2 ^ n := by rw [← Nat.pow_succ']
  simp only [y, hround, Nat.add_mul, ite_mul, Nat.one_mul, Nat.zero_mul]
  simp only [← show u = 2 ^ (n + 1) from rfl]
  clear hround y x
  generalize m % u = rem, m / u = lo, 2 ^ n = half at *
  generalize lo * u = below at *
  refine ⟨?rtz, ?rdn, ?rup, ?rne, ?rna, fun _ => decide_eq_true_iff⟩
  case rtz => omega
  case rdn => cases neg <;> by_cases h0 : rem = 0 <;> simp [h0] <;> omega
  case rup => cases neg <;> by_cases h0 : rem = 0 <;> simp [h0] <;> omega
  case rne => by_cases hup : half < rem ∨ rem = half ∧ lo % 2 = 1 <;> simp only [hup, if_true, if_false] <;> omega
  case rna => by_cases hup : half ≤ rem <;> simp only [hup, if_true, if_false] <;> omega

/-! ### Zeros and NaNs (R115, R117) -/

theorem rnd_zero (F : Fmt) (rm : Rm) (sat neg : Bool) (e : Int) :
    rnd F rm sat ⟨neg, 0, e, false⟩ = (signBit F neg, 0) := rfl

theorem Fmt.isNaN_of_fin {F : Fmt} {c : Nat} {neg : Bool} {m : Nat} {e : Int} (h : dec F c = .fin neg m e) :
    F.isNaN c = false := by
  rw [Fmt.isNaN, h]

theorem Fmt.isNaN_of_inf {F : Fmt} {c : Nat} {neg : Bool} (h : dec F c = .inf neg) : F.isNaN c = false := by
  rw [Fmt.isNaN, h]

theorem nanPick_first {F : Fmt} {a : Nat} (b : Nat) (ha : F.isNaN a = true) :
    nanPick F [a, b] = some (F.quiet a, if F.isSNaN a || F.isSNaN b then flNV else 0) := by
  simp [nanPick, ha]

theorem nanPick_second {F : Fmt} {a b : Nat} (ha : F.isNaN a = false) (hb : F.isNaN b = true) :
    nanPick F [a, b] = some (F.quiet b, if F.isSNaN a || F.isSNaN b then flNV else 0) := by
  simp [nanPick, ha, hb]

theorem nanPick_none {F : Fmt} {a b : Nat} (ha : F.isNaN a = false) (hb : F.isNaN b = false) :
    nanPick F [a, b] = none := by
  simp [nanPick, ha, hb]

theorem fAdd_of_nanPick {F : Fmt} {a b : Nat} {r : Nat × Flags} (rm : Rm) (h : nanPick F [a, b] = some r) :
    fAdd F rm false a b = r := by
  rw [fAdd, h]

theorem fMul_of_nanPick {F : Fmt} {a b : Nat} {r : Nat × Flags} (rm : Rm) (h : nanPick F [a, b] = some r) :
    fMul F rm a b = r := by
  rw [fMul, h]

section
variable {F : Fmt} {a b : Nat} {x y : Bool} {m n : Nat} {e f : Int} (rm : Rm)

theorem fAdd_fin (ha : dec F a = .fin x m e) (hb : dec F b = .fin y n f) :
    fAdd F rm false a b = rnd F rm false (exAdd rm (.of x m e) (.of y n f)) := by
  rw [fAdd, nanPick_none (Fmt.isNaN_of_fin ha) (Fmt.isNaN_of_fin hb), ha, hb]

theorem fMul_fin (ha : dec F a = .fin x m e) (hb : dec F b = .fin y n f) :
    fMul F rm a b = rnd F rm false (exMul (.of x m e) (.of y n f)) := by
  rw [fMul, nanPick_none (Fmt.isNaN_of_fin ha) (Fmt.isNaN_of_fin hb), ha, hb]

theorem exAdd_zeros : exAdd rm (.of x 0 e) (.of y 0 f) = ⟨if x = y then x else decide (rm = .rdn), 0, 0, false⟩ := rfl

/-- A number and its opposite cancel. -/
theorem exAdd_opposite (hm : m ≠ 0) : exAdd rm (.of x m e) (.of (!x) m e) = ⟨decide (rm = .rdn), 0, e, false⟩ := by
  cases x <;> simp [exAdd, Ex.of, hm, zeroNeg]

end

/-- Settles O15: NaN operands decide through `nanPick`; without one, the operands' values select the branch. -/
theorem zerosAndNaNs : Obligations.ZerosAndNaNs := by
  intro F rm a b x y m n e f
  have hnan : F.isNaN a = true ∨ F.isNaN b = true → ∃ c, nanPick F [a, b]
      = some (c, if F.isSNaN a || F.isSNaN b then flNV else 0) := by
    rcases ha : F.isNaN a with _ | _
    · exact fun h => ⟨_, nanPick_second ha (h.resolve_left (by decide))⟩
    · exact fun _ => ⟨_, nanPick_first b ha⟩
  refine ⟨fun ha hb => ?zeros, fun ha hb hm => ?opposite, fun ha hb hz => ?product, fun ha => ?first, fun ha hb => ?second,
    fun h => ?flags, fun ha hb => ?infSum, fun ha hb => ?infZero, fun ha hb => ?zeroInf⟩
  case zeros => rw [fAdd_fin rm ha hb, exAdd_zeros, rnd_zero]
  case opposite => rw [fAdd_fin rm ha hb, exAdd_opposite rm hm, rnd_zero]
  case product => rw [fMul_fin rm ha hb, exMul, Ex.of, Ex.of, hz, rnd_zero]
  case first =>
    rw [fAdd_of_nanPick rm (nanPick_first b ha), fMul_of_nanPick rm (nanPick_first b ha)]
    exact ⟨rfl, rfl⟩
  case second =>
    rw [fAdd_of_nanPick rm (nanPick_second ha hb), fMul_of_nanPick rm (nanPick_second ha hb)]
    exact ⟨rfl, rfl⟩
  case flags =>
    obtain ⟨c, hc⟩ := hnan h
    rw [fAdd_of_nanPick rm hc]
  case infSum =>
    rw [fAdd, nanPick_none (Fmt.isNaN_of_inf ha) (Fmt.isNaN_of_inf hb), ha, hb]
    simp [newNaN]
  case infZero =>
    rw [fMul, nanPick_none (Fmt.isNaN_of_inf ha) (Fmt.isNaN_of_fin hb), ha, hb]
    rfl
  case zeroInf =>
    rw [fMul, nanPick_none (Fmt.isNaN_of_fin ha) (Fmt.isNaN_of_inf hb), ha, hb]
    rfl

end Sys2Proof.Machine
end

section
/-! The special cases of the special functions (R161), each from what its operands' codes are read as. With them, O18. -/

namespace Sys2Proof.Machine

/-- The formats of pages 3 and 4. -/
abbrev arithFmts : List Fmt := [fp64, fp32, fp16, bf16]

/-- In its grade, a special function reads code `c` as the value `v`, no NaN. -/
structure ReadAs (F : Fmt) (fast : Bool) (c : Nat) (v : FVal) : Prop where
  value : dec F c = v
  noNaN : F.isNaN c = false
  flush : fast = true → flushOp F c = c

/-- A special function's exact value, rounded in its grade. -/
def gradeRnd (F : Fmt) (fast : Bool) (rm : Rm) (x : Ex) : Nat × Flags :=
  if fast then rndFast F x else rnd F rm false x

section
variable {F : Fmt} {f : Fn} {fast : Bool} {rm : Rm} {a b c : Nat} {u v : FVal} {fl : Flags} {x : Ex}

theorem ReadAs.graded (h : ReadAs F fast a v) : (if fast then flushOp F a else a) = a := by
  cases hf : fast with
  | false => rfl
  | true => exact h.flush hf

theorem ReadAs.nanPick_none (ha : ReadAs F fast a u) (hb : ReadAs F fast b v) :
    nanPick F (if f = .div then [a, b] else [a]) = none := by
  split
  · exact Machine.nanPick_none ha.noNaN hb.noNaN
  · simp [nanPick, ha.noNaN]

theorem fnElem_code (ha : ReadAs F fast a u) (hb : ReadAs F fast b v) (h : fnVal F f u v = .code c fl) :
    fnElem F f fast rm a b = (c, fl) := by
  rw [fnElem, ha.nanPick_none hb]
  simp only [ha.graded, hb.graded, ha.value, hb.value, h]

theorem fnElem_val (ha : ReadAs F fast a u) (hb : ReadAs F fast b v) (h : fnVal F f u v = .val x) :
    fnElem F f fast rm a b = gradeRnd F fast rm x := by
  rw [fnElem, ha.nanPick_none hb]
  simp only [ha.graded, hb.graded, ha.value, hb.value, h, gradeRnd]

end

/-! ### Codes that the special cases name -/

theorem codes_read : ∀ F ∈ arithFmts, ∀ fast z : Bool,
    (dec F (signBit F z) = .fin z 0 (F.emin - F.fb) ∧ (fast = true → flushOp F (signBit F z) = signBit F z))
    ∧ (dec F (F.infCode z) = .inf z ∧ (fast = true → flushOp F (F.infCode z) = F.infCode z))
    ∧ (dec F (encFin F z 1 0) = .fin z (2 ^ F.fb) (-F.fb)
      ∧ (fast = true → flushOp F (encFin F z 1 0) = encFin F z 1 0)) := by
  decide +kernel

theorem rnd_one_and_half : ∀ F ∈ arithFmts, ∀ fast : Bool, ∀ rm ∈ [Rm.rne, .rna, .rtz, .rdn, .rup],
    (∀ n : Bool, gradeRnd F fast rm ⟨n, 1, 0, false⟩ = (encFin F n 1 0, 0))
    ∧ gradeRnd F fast rm ⟨false, 1, -1, false⟩ = (encFin F false 1 (-1), 0) := by
  decide +kernel

theorem mem_allModes (rm : Rm) : rm ∈ [Rm.rne, .rna, .rtz, .rdn, .rup] := by
  cases rm <;> decide

section
variable {F : Fmt} (hF : F ∈ arithFmts) (fast : Bool) (rm : Rm) (z : Bool)
include hF

theorem readAs_zero : ReadAs F fast (signBit F z) (.fin z 0 (F.emin - F.fb)) :=
  have h := (codes_read F hF fast z).1
  ⟨h.1, Fmt.isNaN_of_fin h.1, h.2⟩

theorem readAs_inf : ReadAs F fast (F.infCode z) (.inf z) :=
  have h := (codes_read F hF fast z).2.1
  ⟨h.1, Fmt.isNaN_of_inf h.1, h.2⟩

theorem readAs_one : ReadAs F fast (encFin F z 1 0) (.fin z (2 ^ F.fb) (-F.fb)) :=
  have h := (codes_read F hF fast z).2.2
  ⟨h.1, Fmt.isNaN_of_fin h.1, h.2⟩

theorem gradeRnd_one (n : Bool) : gradeRnd F fast rm ⟨n, 1, 0, false⟩ = (encFin F n 1 0, 0) :=
  (rnd_one_and_half F hF fast rm (mem_allModes rm)).1 n

theorem gradeRnd_half : gradeRnd F fast rm ⟨false, 1, -1, false⟩ = (encFin F false 1 (-1), 0) :=
  (rnd_one_and_half F hF fast rm (mem_allModes rm)).2

end

theorem gradeRnd_zero (F : Fmt) (fast : Bool) (rm : Rm) (n : Bool) (e : Int) :
    gradeRnd F fast rm ⟨n, 0, e, false⟩ = (signBit F n, 0) := by
  cases fast <;> rfl

/-- log2 of 1 is an exact 0. -/
theorem fnVal_log2_one (F : Fmt) (v : FVal) : fnVal F .log2 (.fin false (2 ^ F.fb) (-F.fb)) v = .val ⟨false, 0, 0, false⟩ := by
  obtain ⟨m, hm⟩ : ∃ m, 2 ^ F.fb = m + 1 := ⟨2 ^ F.fb - 1, by have := Nat.two_pow_pos F.fb; omega⟩
  have hlog : (m + 1).log2 = F.fb := by rw [← hm, Nat.log2_two_pow]
  rw [hm]
  simp [fnVal, fnFin, hlog, hm]

/-- Settles O18: the operands' codes are read as zero, infinity, one or a finite number, and `fnVal` names the result's
code, or an exact 0, 1 or 1/2 that every grade and mode keeps. -/
theorem functionSpecialCases : Obligations.FunctionSpecialCases := by
  intro F hF fast rm z b x m e zr inf one f nan finite
  have zero (n : Bool) : ReadAs F fast (signBit F n) (.fin n 0 (F.emin - F.fb)) := readAs_zero hF fast n
  have infy (n : Bool) : ReadAs F fast (F.infCode n) (.inf n) := readAs_inf hF fast n
  have hone (n : Bool) : gradeRnd F fast rm ⟨n, 1, 0, false⟩ = (one n, 0) := gradeRnd_one hF fast rm n
  have fin' (n : Bool) (h : finite n) : ∃ k, ReadAs F fast x (.fin n (k + 1) e) := by
    obtain ⟨hx, hm, hfl⟩ := h
    obtain ⟨k, rfl⟩ := Nat.exists_eq_succ_of_ne_zero hm
    exact ⟨k, hx, Fmt.isNaN_of_fin hx, hfl⟩
  have below (k : Fn) (h : ∀ j, fnVal F k (.fin true (j + 1) e) (.fin true (j + 1) e) = .code F.canonNaN flNV)
      (hx : finite true) : f k x = nan := by
    obtain ⟨j, hj⟩ := fin' true hx
    exact fnElem_code hj hj (h j)
  have overZero (k : Fn) {c : Nat} {fl : Flags} (n : Bool)
      (h : fnVal F k (.fin n 0 (F.emin - F.fb)) (.fin n 0 (F.emin - F.fb)) = .code c fl) :
      f k (signBit F n) = (c, fl) := fnElem_code (zero n) (zero n) h
  have overInf (k : Fn) {c : Nat} {fl : Flags} (n : Bool) (h : fnVal F k (.inf n) (.inf n) = .code c fl) :
      f k (F.infCode n) = (c, fl) := fnElem_code (infy n) (infy n) h
  have oneAtZero (k : Fn) (n n' : Bool)
      (h : fnVal F k (.fin n 0 (F.emin - F.fb)) (.fin n 0 (F.emin - F.fb)) = .val ⟨n', 1, 0, false⟩) :
      f k (signBit F n) = (one n', 0) := (fnElem_val (zero n) (zero n) h).trans (hone n')
  have oneAtInf (k : Fn) (n n' : Bool) (h : fnVal F k (.inf n) (.inf n) = .val ⟨n', 1, 0, false⟩) :
      f k (F.infCode n) = (one n', 0) := (fnElem_val (infy n) (infy n) h).trans (hone n')
  refine ⟨?rcp, ?rsq, ?sqrt, ?div, ?exp2, ?log2, ?sinCos, ?tanh, ?erf, ?sigm⟩
  case rcp => exact ⟨overZero .rcp z rfl, overInf .rcp z rfl⟩
  case rsq =>
    exact ⟨overZero .rsq z rfl, overInf .rsq false rfl, overInf .rsq true rfl, below .rsq fun _ => rfl⟩
  case sqrt =>
    exact ⟨overZero .sqrt z rfl, overInf .sqrt false rfl, overInf .sqrt true rfl, below .sqrt fun _ => rfl⟩
  case div =>
    refine ⟨fnElem_code (zero z) (zero b) rfl, fnElem_code (infy z) (infy b) rfl, fnElem_code (infy z) (zero b) rfl,
      fnElem_code (zero z) (infy b) rfl, fun hx => ?_⟩
    obtain ⟨k, hk⟩ := fin' z hx
    exact ⟨fnElem_code hk (zero b) rfl, fnElem_code hk (infy b) rfl, fnElem_code (infy b) hk rfl,
      fnElem_code (zero b) hk rfl⟩
  case exp2 => exact ⟨oneAtZero .exp2 z false rfl, overInf .exp2 false rfl, overInf .exp2 true rfl⟩
  case log2 =>
    have hread := readAs_one hF fast false
    have hlog : f .log2 (one false) = (0, 0) :=
      (fnElem_val hread hread (fnVal_log2_one F _)).trans (gradeRnd_zero F fast rm false 0)
    exact ⟨overZero .log2 z rfl, overInf .log2 false rfl, overInf .log2 true rfl, hlog, below .log2 fun _ => rfl⟩
  case sinCos =>
    exact ⟨overZero .sin z rfl, overInf .sin z rfl, oneAtZero .cos z false rfl, overInf .cos z rfl⟩
  case tanh => exact ⟨overZero .tanh z rfl, oneAtInf .tanh z z rfl⟩
  case erf => exact ⟨overZero .erf z rfl, oneAtInf .erf z z rfl⟩
  case sigm =>
    exact ⟨oneAtInf .sigm false false rfl, overInf .sigm true rfl,
      (fnElem_val (zero z) (zero z) rfl).trans (gradeRnd_half hF fast rm)⟩

end Sys2Proof.Machine
end

section
/-! Conversions (R159, R160): the group that `part` selects, element by element. With them, O16. -/

namespace Sys2Proof.Machine

/-- Element i of a conversion's result, from n source elements to m, where `conv` converts source element k. -/
def groupAt (n m w part : Nat) (merge : Word) (conv : Nat → Nat × Flags) (i : Nat) : Nat :=
  if m ≤ n then (conv (part % (n / m) * m + i)).1
  else if part % (m / n) * n ≤ i ∧ i < part % (m / n) * n + n then (conv (i - part % (m / n) * n)).1
  else fieldAt merge w i

/-- The flags of the elements converted. -/
def groupFlags (n m part : Nat) (conv : Nat → Nat × Flags) : Flags :=
  if m ≤ n then orFlags ((List.range m).map (fun i => conv (part % (n / m) * m + i)))
  else orFlags ((List.range n).map conv)

/-- The source elements of a group are as many as the destination has. -/
theorem take_drop_range {α : Type} {n m : Nat} (part : Nat) (g : Nat → α) (hm : 0 < m) (hmn : m ≤ n) :
    (((List.range n).map g).drop (part % (n / m) * m)).take m
      = (List.range m).map (fun i => g (part % (n / m) * m + i)) := by
  have hgroup : part % (n / m) < n / m := Nat.mod_lt _ (Nat.div_pos hmn hm)
  have hfits : part % (n / m) * m + m ≤ n := by
    calc part % (n / m) * m + m = (part % (n / m) + 1) * m := (Nat.succ_mul _ _).symm
      _ ≤ n / m * m := Nat.mul_le_mul_right m hgroup
      _ ≤ n := Nat.div_mul_le_self n m
  refine List.ext_getElem ?_ fun i h1 h2 => ?_
  · simp; omega
  · simp

theorem convGroup_eq {n m : Nat} (w part : Nat) (merge : Word) (g : Nat → Nat) (conv : Nat → Nat × Flags) (hm : 0 < m) :
    convGroup ((List.range n).map g) m w part merge conv
      = ((List.range m).map (groupAt n m w part merge (fun i => conv (g i))),
        groupFlags n m part (fun i => conv (g i))) := by
  by_cases hmn : m ≤ n
  · have hlist := take_drop_range part g hm hmn
    have hcodes : groupAt n m w part merge (fun i => conv (g i))
        = fun i => (conv (g (part % (n / m) * m + i))).1 := funext fun _ => if_pos hmn
    simp [convGroup, groupFlags, hmn, hlist, hcodes, Function.comp_def]
  · have hcodes : ∀ i ∈ List.range m, groupAt n m w part merge (fun i => conv (g i)) i
        = if part % (m / n) * n ≤ i ∧ i < part % (m / n) * n + n
          then (((List.range n).map (fun i => (conv (g i)).1)).getD (i - part % (m / n) * n) 0)
          else fieldAt merge w i := by
      intro i _
      rw [groupAt, if_neg hmn]
      split
      next hin =>
        have hlt : i - part % (m / n) * n < n := by omega
        simp [List.getD_eq_getElem?_getD, hlt]
      next => rfl
    rw [List.map_congr_left hcodes]
    simp [convGroup, groupFlags, hmn, Function.comp_def]

theorem fTy_count_pos (ty : FTy) : 0 < ty.count := by cases ty <;> decide

theorem iTy_count_pos (ty : ITy) : 0 < ty.count := by cases ty <;> decide

/-! ### A float destination (R160) -/

/-- The register that holds one code for each element. -/
theorem writeF_range (ty : FTy) (f : Nat → Nat) :
    (∀ i, i < ty.count → fieldAt (writeF ty ((List.range ty.count).map f)) (fmtOf ty).width i
      = f i % 2 ^ (fmtOf ty).width)
    ∧ (writeF ty ((List.range ty.count).map f)).toNat < 2 ^ ((fmtOf ty).width * ty.count) := by
  have hlen : ((List.range ty.count).map f).length = ty.count := by simp
  have hwidth := fmtOf_width_count ty
  constructor
  · intro i hi
    rw [writeF, fieldAt_pack (by rwa [hlen]) (by rwa [hlen])]
    simp
  · rw [writeF, BitVec.toNat_ofNat]
    exact (Nat.mod_le _ _).trans_lt ((pack_lt _ _).trans_eq (by rw [hlen]))

/-- Settles O16: the group is `convGroup` of the source's elements, an inline integer in each of them by its value. -/
theorem conversions : Obligations.Conversions := by
  intro g d a b c fd fs id is rm sat nf group raised whole fits
  have hwhole (ctl : Word) (k : Int) : whole ctl fs k = inlineVal fs ctl k := by
    by_cases hfs : fs = .e2m1 <;> simp [whole, inlineVal, cvSc, FVal.scale, hfs]
  refine ⟨fun ty n => ?exact, fun n m e ctl hfd => if_neg hfd, fun s iss w p h => ?fcvt, fun s iss w p h => ?cvti,
    fun s iss w p h => ?cvtf⟩
  case exact => simp [exactInt, or_assoc]
  case fcvt =>
    intro ctl part conv
    have hexec : exec (.fcvt g d a b c fd fs rm sat nf) s = _ := alu_ok _ h
    dsimp only at hexec
    rw [elemsF, convGroup_eq _ _ _ _ _ (fTy_count_pos fd)] at hexec
    refine ⟨_, (writeF_range fd _).1, (writeF_range fd _).2, ?_⟩
    cases hk : exactInt fs a with
    | none =>
      simp only [hk] at hexec
      simp only [conv, hk]
      exact hexec
    | some k =>
      simp only [hk] at hexec
      simp only [conv, hk, hwhole]
      exact hexec
  case cvti =>
    intro ctl part conv
    have hexec : exec (.cvti g d a b c id fs rm sat nf) s = _ := alu_ok _ h
    dsimp only at hexec
    rw [elemsF, convGroup_eq _ _ _ _ _ (iTy_count_pos id), List.map_map] at hexec
    refine ⟨_, holds_range id _, ?_⟩
    cases hk : exactInt fs a with
    | none =>
      simp only [hk] at hexec
      simp only [conv, hk]
      exact hexec
    | some k =>
      simp only [hk] at hexec
      simp only [conv, hk, hwhole]
      exact hexec
  case cvtf =>
    intro ctl part conv
    have hexec : exec (.cvtf g d a b c fd is rm sat nf) s = _ := alu_ok _ h
    dsimp only at hexec
    rw [convGroup_eq _ _ _ _ _ (fTy_count_pos fd)] at hexec
    exact ⟨_, (writeF_range fd _).1, (writeF_range fd _).2, hexec⟩

end Sys2Proof.Machine
end

section
/-! Small-matrix instructions whose result is given element by element (R164–R170, R176). With them, O19. -/

namespace Sys2Proof.Machine

/-! ### Results of a shape (R167) -/

theorem shapedF_length (r c : Nat) (f : Nat → Nat → Nat × Flags) : (shapedF r c f).1.length = 36 := by
  simp [shapedF]

theorem shaped_at (r c : Nat) (f : Nat → Nat → Nat) {i j : Nat} (hi : i < 6) (hj : j < 6) :
    (shaped r c f).at i j = if i < r ∧ j < c then f i j else 0 := by
  have he : 6 * i + j < 36 := by omega
  have hrow : (6 * i + j) / 6 = i := by omega
  have hcol : (6 * i + j) % 6 = j := by omega
  simp [Mat.at, shaped, List.getD_eq_getElem?_getD, he, hrow, hcol]

theorem shapedF_fst (r c : Nat) (f : Nat → Nat → Nat × Flags) : (shapedF r c f).1 = shaped r c (fun i j => (f i j).1) := by
  simp only [shapedF, shaped, List.map_map]
  refine List.map_congr_left fun e _ => ?_
  rw [Function.comp_apply, apply_ite Prod.fst]

theorem shapedF_snd (r c : Nat) (f : Nat → Nat → Nat × Flags) :
    (shapedF r c f).2 = orFlags ((List.range 36).map (fun e =>
      if e / 6 < r ∧ e % 6 < c then f (e / 6) (e % 6) else (0, 0))) := by
  simp [shapedF]

theorem orFlags_of_zero {xs : List (Nat × Flags)} (h : ∀ x ∈ xs, x.2 = 0) : orFlags xs = 0 := by
  refine BitVec.eq_of_getLsbD_eq fun n _ => ?_
  have hnone : xs.any (fun x => x.2.getLsbD n) = false := by
    rw [List.any_eq_false]
    intro x hx
    simp [h x hx]
  rw [orFlags_bit, hnone]
  exact BitVec.getLsbD_zero.symm

/-- Elements that raise no flag. -/
theorem shapedF_silent (r c : Nat) (f : Nat → Nat → Nat) : shapedF r c (fun i j => (f i j, 0)) = (shaped r c f, 0) := by
  refine Prod.ext (shapedF_fst r c _) ((shapedF_snd r c _).trans (orFlags_of_zero fun x hx => ?_))
  obtain ⟨e, -, rfl⟩ := List.mem_map.mp hx
  split <;> rfl

theorem Path.raise_zero (p : Path) (nf : Bool) : p.raise nf 0 = p := by
  cases nf <;> simp [Path.raise]

/-! ### Instructions that fill a window -/

/-- Instruction `i` fills window `d` with a result of shape r × c whose element (i, j) and flags are `f`'s, at weight n,
twice that in FP64. -/
def FillsWin (i : Instr) (g : Guard) (d : BitVec 4) (sh : Shape) (nf : Bool) (n r c : Nat)
    (f : State → Issue → Warp → Path → Nat → Nat → Nat × Flags) : Prop :=
  ∀ s iss w p, Performs i g s iss w p → ∃ x : Mat, x.length = 36
    ∧ (∀ i j, i < 6 → j < 6 → x.at i j = if i < r ∧ j < c then (f s iss w p i j).1 else 0)
    ∧ exec i s = .next (s.after iss (((p.setWin d sh.dbl x).raise nf (orFlags ((List.range 36).map (fun e =>
      if e / 6 < r ∧ e % 6 < c then f s iss w p (e / 6) (e % 6) else (0, 0))))).weigh (if sh.dbl then 2 * n else n)))

theorem fillsWin_of_alu {i : Instr} {g : Guard} {d : BitVec 4} {sh : Shape} {nf : Bool} {n r c : Nat}
    (q : State → Issue → Warp → Path → Path) (f : State → Issue → Warp → Path → Nat → Nat → Nat × Flags)
    (hi : ∀ s, exec i s = s.alu i g (smallWeight sh n) q)
    (hq : ∀ s iss w p, q s iss w p
      = (p.setWin d sh.dbl (shapedF r c (f s iss w p)).1).raise nf (shapedF r c (f s iss w p)).2) :
    FillsWin i g d sh nf n r c f := by
  intro s iss w p h
  refine ⟨(shapedF r c (f s iss w p)).1, shapedF_length r c _, fun i j hi hj => ?_, ?_⟩
  · rw [shapedF_fst, shaped_at r c _ hi hj]
  · rw [← shapedF_snd, ← hq]
    exact (hi s).trans (alu_ok q h)

theorem onWin_fills {i : Instr} {g : Guard} {d : BitVec 4} {sh : Shape} {nf : Bool} {n r c : Nat} (m : Path → Mat × Flags)
    (f : State → Issue → Warp → Path → Nat → Nat → Nat × Flags) (hi : ∀ s, exec i s = s.onWin i g n d sh nf m)
    (hm : ∀ s iss w p, m p = shapedF r c (f s iss w p)) : FillsWin i g d sh nf n r c f :=
  fillsWin_of_alu _ f hi fun s iss w p => by rw [hm s iss w p]

/-! ### Products (R170) -/

/-- The products of the pairs in order, from `start`, or from the first product. -/
def dotF (F : Fmt) (x : List (Nat × Nat)) (start : Option Nat) : Nat × Flags :=
  match start with
  | some v => fmaSum F (v, 0) x
  | none => fmaSum F (fMul F .rne (x.headD (0, 0)).1 (x.headD (0, 0)).2) (x.drop 1)

theorem headD_map_range {α : Type} {n : Nat} (f : Nat → α) (x : α) (h : 0 < n) : ((List.range n).map f).headD x = f 0 := by
  obtain ⟨k, rfl⟩ := Nat.exists_eq_succ_of_ne_zero h.ne'
  simp [List.range_succ_eq_map]

theorem mmulM_eq (F : Fmt) (r c k : Nat) (acc : Option Mat) (a b : Mat) (hk : acc = none → 0 < k) :
    mmulM F r c k acc a b = shapedF r c (fun i j =>
      dotF F ((List.range k).map (fun n => (a.at i n, b.at n j))) (acc.map (fun d => d.at i j))) := by
  cases acc with
  | some d => rfl
  | none =>
    simp only [mmulM, dotF, Option.map_none, headD_map_range _ _ (hk rfl)]

theorem mmvM_eq (F : Fmt) (r c : Nat) (acc : Option Mat) (a b : Mat) (hc : 0 < c) :
    mmvM F r c acc a b = shapedF 1 r (fun _ i =>
      dotF F ((List.range c).map (fun n => (a.at i n, b.at 0 n))) (acc.map (fun d => d.at 0 i))) := by
  cases acc with
  | some d => rfl
  | none =>
    simp only [mmvM, dotF, Option.map_none, headD_map_range _ _ hc]

/-- A source of MSET, as the element code that it stands for. -/
def State.msetElem (s : State) (iss : Issue) (w : Warp) (p : Path) (dbl : Bool) (o : Operand) : Nat :=
  fieldAt (s.rdF iss w p (if dbl then .f64 else .f32) o) (prec dbl).width 0

/-- Settles O19: each result is `shapedF` of its elements, which are read from the windows, or are the running products of
`dotF`. -/
theorem matrixElements : Obligations.MatrixElements := by
  intro g d a b k acc o q sh nf F R C wt writes dot
  have hfill : ∀ i n r c f, FillsWin i g d sh nf n r c f → writes i n r c f := fun _ _ _ _ _ h => h
  have hdot : ∀ x start, dot x start = dotF F x start := fun x start => by cases start <;> rfl
  refine ⟨hfill _ _ _ _ _ ?mmov, hfill _ _ _ _ _ ?mtr, hfill _ _ _ _ _ ?mset, fun hk => hfill _ _ _ _ _ ?mmul,
    hfill _ _ _ _ _ ?mmad, hfill _ _ _ _ _ ?mmv⟩
  case mmov =>
    exact onWin_fills (fun p => (shaped R C (p.win a sh.dbl).at, 0)) _ (fun _ => rfl) fun _ _ _ _ =>
      (shapedF_silent R C _).symm
  case mtr =>
    exact onWin_fills (fun p => (shaped C R (fun i j => (p.win a sh.dbl).at j i), 0)) _ (fun _ => rfl) fun _ _ _ _ =>
      (shapedF_silent C R _).symm
  case mset =>
    refine fillsWin_of_alu (fun s iss w p => p.setWin d sh.dbl (shaped R C (fun i j =>
      if i = j then s.msetElem iss w p sh.dbl o else s.msetElem iss w p sh.dbl q))) _ (fun _ => rfl) fun s iss w p => ?_
    rw [shapedF_silent, Path.raise_zero]
    have helem : (fun i j => if i = j then s.msetElem iss w p sh.dbl o else s.msetElem iss w p sh.dbl q)
        = fun i j : Nat => s.msetElem iss w p sh.dbl (if i = j then o else q) :=
      funext fun i => funext fun j => (apply_ite (s.msetElem iss w p sh.dbl) (i = j) o q).symm
    rw [helem]
    rfl
  case mmul =>
    have hpos : 0 < k.toNat := Nat.pos_of_ne_zero fun h => hk (BitVec.eq_of_toNat_eq h)
    refine onWin_fills (fun p => mmulM F R C k.toNat none (p.win a sh.dbl) (p.win b sh.dbl)) _ (fun _ => rfl)
      fun _ _ _ _ => ?_
    simp only [hdot]
    exact mmulM_eq F R C k.toNat none _ _ fun _ => hpos
  case mmad =>
    refine onWin_fills (fun p => mmulM F R C k.toNat (some (p.win d sh.dbl)) (p.win a sh.dbl) (p.win b sh.dbl)) _
      (fun _ => rfl) fun _ _ _ p => ?_
    simp only [hdot]
    exact mmulM_eq F R C k.toNat (some (p.win d sh.dbl)) _ _ nofun
  case mmv =>
    refine onWin_fills (fun p => mmvM F R C (if acc then some (p.win d sh.dbl) else none) (p.win a sh.dbl)
      (p.win b sh.dbl)) _ (fun _ => rfl) fun _ _ _ p => ?_
    simp only [hdot]
    rw [mmvM_eq F R C _ _ _ (Nat.succ_pos _)]
    cases acc <;> rfl

end Sys2Proof.Machine
end

section
/-! Loads, stores, window transfers, the uniform load, prefetch and reservations (R168, R169, R180–R185, R188–R190):
each one's body once its access has been checked. With them, O21, O23, O24 and O25. -/

namespace Sys2Proof.Machine

/-! ### Loads and stores (R180–R185) -/

/-- A load whose access is right. -/
theorem loadBody_ok {s : State} {iss : Issue} {w : Warp} {p : Path} {spc : Space} {owner sx : Bool} {d : BitVec 8} {n : Nat}
    {o : Order} {sc : Scope} {va : State → Issue → Warp → Path → Word} {pl : Place}
    (h : s.access iss w p ⟨spc, .r, owner, n, va s iss w p, iss.setA, true, false⟩ = .ok pl) :
    loadBody spc owner sx d n o sc va s iss w p
      = (s, .ok (p.addFx (.load { iss.load w p (.v d) pl (va s iss w p) n sx ⟨o, sc, false⟩ with
          held := s.refreshing iss p pl, peek := !owner }))) := by
  rw [loadBody, h]

theorem load_into {i : Instr} {g : Guard} {spc : Space} {owner sx : Bool} {d : BitVec 8} {n : Nat} {o : Order} {sc : Scope}
    (va : State → Issue → Warp → Path → Word)
    (hi : ∀ s, exec i s = s.onOp i g 1 noReserved (loadBody spc owner sx d n o sc va)) :
    LoadsInto i g ⟨spc, .r, owner, n, 0, none, true, false⟩ sx d o sc va :=
  fun s _ _ _ _ h hacc => (hi s).trans (onOp_ok h rfl (loadBody_ok hacc))

theorem onLoad_into {i : Instr} {spc : Space} {owner sx : Bool} {d : BitVec 8} {m : Mem}
    (hi : ∀ s, exec i s = s.onLoad i spc owner sx d m) :
    LoadsInto i m.g ⟨spc, .r, owner, sizeBytes m.size, 0, none, true, false⟩ sx d m.order m.scope
      (State.vaOf spc m.base m.off) :=
  load_into (State.vaOf spc m.base m.off) hi

theorem onGather_into {i : Instr} {spc : Space} {sx : Bool} {d : BitVec 8} {x : Idx}
    (hi : ∀ s, exec i s = s.onGather i spc sx d x) :
    LoadsInto i x.g ⟨spc, .r, true, sizeBytes x.size, 0, none, true, false⟩ sx d .plain .core (State.vaIdx spc x) :=
  load_into (State.vaIdx spc x) hi

/-- Settles O21: every form is one body, with its space, its owner check and its extension. -/
theorem loads : Obligations.Loads := by
  intro d m x at_ by_ acc
  refine ⟨?ldN, ?ldI, ?ldSpN, ?ldSpI, ?ldWsN, ?ldWsI, ?peekN, ?peekI, ?ldxN, ?ldxI, ?ldxSpN, ?ldxSpI⟩
  case ldN => exact onLoad_into fun _ => rfl
  case ldI => exact onLoad_into fun _ => rfl
  case ldSpN => exact onLoad_into fun _ => rfl
  case ldSpI => exact onLoad_into fun _ => rfl
  case ldWsN => exact onLoad_into fun _ => rfl
  case ldWsI => exact onLoad_into fun _ => rfl
  case peekN => exact onLoad_into fun _ => rfl
  case peekI => exact onLoad_into fun _ => rfl
  case ldxN => exact onGather_into fun _ => rfl
  case ldxI => exact onGather_into fun _ => rfl
  case ldxSpN => exact onGather_into fun _ => rfl
  case ldxSpI => exact onGather_into fun _ => rfl

/-- A store whose access is right. -/
theorem storeBody_ok {s : State} {iss : Issue} {w : Warp} {p : Path} {spc : Space} {data : Operand} {n : Nat} {o : Order}
    {sc : Scope} {va : State → Issue → Warp → Path → Word} {pl : Place}
    (h : s.access iss w p ⟨spc, .w, true, n, va s iss w p, none, false, true⟩ = .ok pl) :
    storeBody spc data n o sc va s iss w p
      = (s, .ok (p.store iss pl (va s iss w p) (leBytes n (s.rd iss w p data).toNat) o sc)) := by
  rw [storeBody, h]

theorem store_to {i : Instr} {g : Guard} {spc : Space} {data : Operand} {n : Nat} {o : Order} {sc : Scope}
    (va : State → Issue → Warp → Path → Word)
    (hi : ∀ s, exec i s = s.onOp i g 1 noReserved (storeBody spc data n o sc va)) :
    StoresTo i g spc n o sc data va :=
  fun s _ _ _ _ h hacc => (hi s).trans (onOp_ok h rfl (storeBody_ok hacc))

/-- Settles O23: every form is one body, with its space and its address. -/
theorem stores : Obligations.Stores := by
  intro v m x at_ by_
  refine ⟨?st, ?stSp, ?stx, ?stxSp⟩
  case st => exact store_to (State.vaOf .global m.base m.off) fun _ => rfl
  case stSp => exact store_to (State.vaOf .sp m.base m.off) fun _ => rfl
  case stx => exact store_to (State.vaIdx .global x) fun _ => rfl
  case stxSp => exact store_to (State.vaIdx .sp x) fun _ => rfl

/-! ### Window transfers (R168, R169) -/

/-- A fold that keeps what is wrong finds nothing only where nothing is. -/
theorem foldl_eq_none {α β : Type} {f : Option β → α → Option β} {P : α → Prop}
    (hf : ∀ r x, f r x = none → r = none ∧ P x) {xs : List α} {r : Option β} (h : xs.foldl f r = none) :
    r = none ∧ ∀ x ∈ xs, P x := by
  induction xs generalizing r with
  | nil => exact ⟨h, nofun⟩
  | cons x xs ih =>
    obtain ⟨hstep, hrest⟩ := ih h
    obtain ⟨hr, hx⟩ := hf r x hstep
    exact ⟨hr, List.forall_mem_cons.mpr ⟨hx, hrest⟩⟩

/-- The words of a transfer whose accesses are right are the consecutive ones. -/
theorem accessWords_addresses {s : State} {iss : Issue} {w : Warp} {p : Path} {k : Acc} {va : Word} {n : Nat}
    {flag : Option Nat} {reads : Bool} {ps : List (Word × Place)}
    (h : s.accessWords iss w p k va n flag reads = .ok ps) :
    ps.map (·.1) = (List.range n).map (fun i => va + BitVec.ofNat 64 (8 * i)) := by
  unfold State.accessWords at h
  extract_lets vas xs bad at h
  have hbad : bad = none → ∀ x ∈ xs, ∃ pl, x.2 = .ok pl := fun hb =>
    (foldl_eq_none (fun r x hx => by
      obtain ⟨a, e | pl⟩ := x
      · cases r <;> simp at hx
        split at hx <;> simp at hx
      · exact ⟨hx, pl, rfl⟩) hb).2
  have hall : ∀ (ψ : Word × Except Nat Place → Option (Word × Place)), (∀ a pl, ψ (a, .ok pl) = some (a, pl)) →
      bad = none → (xs.filterMap ψ).map (·.1) = vas := by
    intro ψ hψ hb
    rw [List.map_filterMap, List.filterMap_map]
    refine (List.filterMap_congr fun a ha => ?_).trans List.filterMap_some
    obtain ⟨pl, hpl⟩ := hbad hb _ (List.mem_map_of_mem ha)
    have hloc : s.locate iss.warp w .global k false 8 a.toNat = .ok pl := hpl
    simp [hloc, hψ]
  clear_value bad
  split at h
  next => simp at h
  next =>
    split at h
    next => simp at h
    next =>
      split at h
      next => simp at h
      next =>
        obtain rfl := Except.ok.inj h
        exact hall _ (fun _ _ => rfl) rfl

theorem foldl_store (iss : Issue) (o : Order) (sc : Scope) (xs : List ((Word × Place) × Word)) (p : Path) :
    xs.foldl (fun p x => p.store iss x.1.2 x.1.1 (leBytes 8 x.2.toNat) o sc) p = { p with
      fx := p.fx ++ xs.map (fun x => Fx.item (sentBy iss p (.store (leBytes 8 x.2.toNat)) x.1.2 x.1.1 o sc)) } := by
  induction xs generalizing p with
  | nil => simp
  | cons x xs ih =>
    rw [List.foldl_cons, ih]
    simp [Path.store, Path.addFx, sentBy]

/-- Settles O24: MLD's load and MST's stores stand at the addresses whose accesses were right. -/
theorem windowTransfers : Obligations.WindowTransfers := by
  intro g m dbl base off s iss w p ps va n
  refine ⟨fun h hacc => ⟨accessWords_addresses hacc, ?mld⟩, fun h hacc => ⟨accessWords_addresses hacc, ?mst⟩⟩
  case mld =>
    refine onOp_ok h rfl ?_
    have hwords : s.accessWords iss w p .r (State.vaOf .global base off s iss w p) (winLen dbl) iss.setA true = .ok ps := hacc
    simp only [hwords]
    rfl
  case mst =>
    have hwords : s.accessWords iss w p .w (State.vaOf .global base off s iss w p) (winLen dbl) none false = .ok ps := hacc
    refine onOp_ok h rfl ?_
    simp only [hwords, foldl_store]
    rfl

/-! ### What a read changes (R190, R248) -/

/-- Nothing but the cores' own records changes. -/
def CoresOnly (s t : State) : Prop := ∃ cs, t = { s with cores := cs }

theorem CoresOnly.refl (s : State) : CoresOnly s s := ⟨s.cores, rfl⟩

theorem CoresOnly.trans {s t u : State} (h : CoresOnly s t) (h' : CoresOnly t u) : CoresOnly s u := by
  obtain ⟨cs, rfl⟩ := h
  obtain ⟨ds, rfl⟩ := h'
  exact ⟨ds, rfl⟩

theorem State.updCore_coresOnly (s : State) (c : Nat) (f : Core → Core) : CoresOnly s (s.updCore c f) := ⟨_, rfl⟩

theorem coresOnly_ite {s t u : State} {c : Prop} [Decidable c] (ht : CoresOnly s t) (hu : CoresOnly s u) :
    CoresOnly s (if c then t else u) := by
  split
  · exact ht
  · exact hu

theorem State.sees_coresOnly (s : State) (core : Nat) (ids : List Nat) : CoresOnly s (s.sees core ids) :=
  coresOnly_ite (.refl s) (s.updCore_coresOnly ..)

theorem State.learn_coresOnly (s : State) (core : Nat) (view : List Nat) : CoresOnly s (s.learn core view) :=
  coresOnly_ite (.refl s) (s.updCore_coresOnly ..)

theorem State.dropLine_coresOnly (s : State) (core : Nat) (p : Place) : CoresOnly s (s.dropLine core p) := by
  cases p with
  | mem a => exact ⟨_, rfl⟩
  | sp a | ws a => exact .refl s

theorem State.acquire_coresOnly (s : State) (core : Nat) (sc : Scope) (span ids : List Nat) :
    CoresOnly s (s.acquire core sc span ids) :=
  have h := s.learn_coresOnly core _
  coresOnly_ite h (h.trans (State.updCore_coresOnly ..))

theorem State.touchLine_coresOnly (s : State) (core : Nat) (p : Place) : CoresOnly s (s.touchLine core p) := by
  cases p with
  | sp a => exact .refl s
  | mem a | ws a =>
    unfold State.touchLine
    refine coresOnly_ite (.refl s) ?_
    split
    · exact .refl s
    · exact s.updCore_coresOnly ..

theorem State.readHome_coresOnly (s : State) (r : Reader) (h : How) (n : Nat) (pl : Place) :
    CoresOnly s (s.readHome r h n pl).1 :=
  have hseen := (s.sees_coresOnly ..).trans (State.dropLine_coresOnly ..)
  coresOnly_ite hseen (hseen.trans (State.acquire_coresOnly ..))

/-! ### The read of a reservation (R190) -/

theorem SMap.get?_upd_self {α : Type} (m : SMap α) (k : Nat) (f : α → α) : (m.upd k f).get? k = (m.get? k).map f := by
  unfold SMap.upd
  cases h : m.get? k with
  | none => simp [h]
  | some x => simp

theorem State.lost_plus {s : State} {p : Place} {n i : Nat} (h : s.lost p n = false) (hi : i < n) :
    s.lost (p.plus i) 1 = false := by
  simp only [State.lost, List.any_eq_false] at h ⊢
  intro q hq hover
  refine h q hq ?_
  cases p <;> cases q <;> simp [overlap, Place.plus] at hover ⊢ <;> omega

theorem State.lostBytes_of_lost {s : State} {pl : Place} {n : Nat} (r : Reader) (late : Bool) (h : How)
    (hlost : s.lost pl n = false) : s.lostBytes r late h n pl = false := by
  rw [State.lostBytes, List.any_eq_false]
  intro i hi
  simp [State.lost_plus hlost (List.mem_range.mp hi)]

/-- The read of one word. -/
theorem State.readWords_one (r : Reader) (late : Bool) (l : Load) (pl : Place) (s : State)
    (hlost : s.lost pl l.bytes = false) : State.readWords r late l [pl] s
      = ((s.draw.readWord r late l.peek l.how l.bytes pl).1,
        some [extend l.bytes l.sx (s.draw.readWord r late l.peek l.how l.bytes pl).2]) := by
  simp [State.readWords, State.lostBytes_of_lost r late l.how hlost]

theorem Load.places_v {l : Load} {k : BitVec 8} (h : l.dst = .v k) : l.places = [l.place] := by
  rw [Load.places, h]

/-- The read of an LRES reads its word at the home and reserves the granule. -/
theorem State.readLoad_lres {s : State} {r : Reader} (late : Bool) {l : Load} {a : Nat} {k : BitVec 8}
    (hresv : l.how.resv = true) (hpl : l.place = .mem a) (hdst : l.dst = .v k) (hpeek : l.peek = false)
    (hlost : (s.awaited r l).lost l.place l.bytes = false) :
    s.readLoad r late l =
      (((s.awaited r l).draw.readHome r l.how l.bytes (.mem a)).1.updWarp r.slot (fun w => w.updThread l.thread (fun th =>
        { th with resv := some ⟨granuleOf a, l.va.toNat⟩ })),
        { l with val := some [extend l.bytes l.sx ((s.awaited r l).draw.readHome r l.how l.bytes (.mem a)).2] }) := by
  have hhome : l.how.home = true := by simp [How.home, hresv]
  rw [State.readLoad, Load.places_v hdst, State.readWords_one r late l l.place _ hlost, hpl, hpeek, hresv]
  simp [State.readWord, hhome]

/-- Without older writes and earlier stores, a read at the home gives the home's bytes. -/
theorem State.readHome_bytes {s : State} {r : Reader} (h : How) (n : Nat) (pl : Place) (hown : r.own = [])
    (hvers : s.vers = []) : (s.readHome r h n pl).2 = s.home pl n := by
  simp [State.readHome, State.sight, hown, hvers, peel, Function.comp_def]

theorem leNat_eq_pack (b : List Byte) : leNat b = pack 8 (b.map BitVec.toNat) := by
  induction b with
  | nil => rfl
  | cons x b ih => simp [leNat, pack, ih, Nat.mod_eq_of_lt x.isLt]

theorem fieldAt_leNat {b : List Byte} (h8 : b.length ≤ 8) {i : Nat} (hi : i < b.length) :
    fieldAt (BitVec.ofNat 64 (leNat b)) 8 i = (b.getD i 0).toNat := by
  have hlen : 8 * (b.map BitVec.toNat).length ≤ 64 := by simp; omega
  rw [leNat_eq_pack, fieldAt_pack hlen (by simpa using hi)]
  simp [hi, Nat.mod_eq_of_lt b[i].isLt]

/-- Settles O25: LDU, PREF and LRES are their bodies once their accesses are right; the read of a reservation goes to the
home, and what it changes beside the granule is its core's record. -/
theorem uniformLoadPrefetchReserve : Obligations.UniformLoadPrefetchReserve := by
  unfold Obligations.UniformLoadPrefetchReserve
  intro load
  refine ⟨fun d m s iss w p pl h => ?ldu, fun g base l2 off s iss w p h => ?pref, fun d m s iss w p pl h => ?lres, fun s r late l a w th k hresv hpl hdst hpeek hlost hw hth => ?read⟩
  case ldu =>
    intro va hacc
    have hacc' : s.access iss w p ⟨.global, .r, true, sizeBytes m.size, State.vaOf .global m.base m.off s iss w p, iss.setA,
      true, false⟩ = .ok pl := hacc
    refine onOp_ok h rfl ?_
    simp only [hacc']
    rfl
  case pref =>
    intro va
    refine onOp_ok h rfl ?_
    cases htr : s.translate w.ctx (State.vaOf .global base off s iss w p) .r with
    | error e =>
      have htr' : s.translate w.ctx va .r = .error e := htr
      simp only [htr']
    | ok pa =>
      have htr' : s.translate w.ctx va .r = .ok pa := htr
      simp only [htr']
  case lres =>
    intro va hacc
    have hacc' : s.access iss w p ⟨.global, .r, true, sizeBytes m.size, State.vaOf .global m.base m.off s iss w p, iss.setA,
      true, false⟩ = .ok pl := hacc
    refine onOp_ok h rfl ?_
    simp only [hacc']
    rfl
  case read =>
    have hread := State.readLoad_lres late hresv hpl hdst hpeek hlost
    generalize s.awaited r l = u at hread hw ⊢
    obtain ⟨cs, hcs⟩ := u.draw.readHome_coresOnly r l.how l.bytes (.mem a)
    rw [hcs] at hread
    refine ⟨_, _, w.updThread l.thread (fun th => { th with resv := some ⟨granuleOf a, l.va.toNat⟩ }), hread, rfl, ?_, ?_,
      fun i b hown hvers hb hi h8 hsx => ?_⟩
    · exact (SMap.get?_upd_self ..).trans (congrArg (Option.map _) hw)
    · exact (SMap.get?_upd_self ..).trans (congrArg (Option.map _) hth)
    · have hbytes := State.readHome_bytes (s := u.draw) l.how l.bytes (.mem a) hown hvers
      have hlen : b.length = l.bytes := by rw [← hb]; exact rdBytes_length ..
      rw [hbytes, show u.draw.home (.mem a) l.bytes = b from hb, extend, hsx]
      exact fieldAt_leNat (by omega) (by omega)

end Sys2Proof.Machine
end

section
/-! Atomics, conditional stores, ordered adds, fences and WAITA (R191–R199): what each leaves on its path once its access
is right, and what a fence that is performed does. With them, O26 and O27. -/

namespace Sys2Proof.Machine

/-! ### Atomics (R193, R194) -/

/-- What an atomic without a destination leaves on its path. -/
theorem atomBody_none {s : State} {iss : Issue} {w : Warp} {p : Path} {spc : Space} {op : AtomOp} {x : Atom}
    {b c : State → Issue → Warp → Path → Word} {pl : Place}
    (h : s.access iss w p ⟨spc, .rw, true, dblBytes x.dbl, addrIn spc (s.rd iss w p x.a) 0,
      if x.d.isSome then iss.setA else none, true, true⟩ = .ok pl) (hd : x.d = none) :
    atomBody spc op x b c s iss w p = (s, .ok (p.addFx (.item (sentBy iss p
      (.atom op (b s iss w p) (c s iss w p) x.dbl none) pl (addrIn spc (s.rd iss w p x.a) 0) x.order x.scope)))) := by
  simp only [atomBody, h]
  rw [hd]
  rfl

/-- What an atomic with a destination leaves on its path. -/
theorem atomBody_some {s : State} {iss : Issue} {w : Warp} {p : Path} {spc : Space} {op : AtomOp} {x : Atom}
    {b c : State → Issue → Warp → Path → Word} {pl : Place} {d : BitVec 8}
    (h : s.access iss w p ⟨spc, .rw, true, dblBytes x.dbl, addrIn spc (s.rd iss w p x.a) 0,
      if x.d.isSome then iss.setA else none, true, true⟩ = .ok pl) (hd : x.d = some d) :
    atomBody spc op x b c s iss w p = (s, .ok (p.addFx (.atomLoad (sentBy iss p
        (.atom op (b s iss w p) (c s iss w p) x.dbl none) pl (addrIn spc (s.rd iss w p x.a) 0) x.order x.scope)
      (iss.load w p (.v d) pl (addrIn spc (s.rd iss w p x.a) 0) (dblBytes x.dbl) (op == .minI || op == .maxI)
        plainly)))) := by
  simp only [atomBody, h]
  rw [hd]
  rfl

/-- Instruction `i` sends the atomic operation `op` of `x` with operands `b` and `c`, and with a destination waits for
its answer. -/
def SendsAtom (i : Instr) (spc : Space) (op : AtomOp) (x : Atom) (b c : State → Issue → Warp → Path → Word) : Prop :=
  ∀ s iss w p pl, Performs i x.g s iss w p →
    s.access iss w p ⟨spc, .rw, true, if x.dbl then 8 else 4, addrIn spc (s.rd iss w p x.a) 0,
      if x.d.isSome then iss.setA else none, true, true⟩ = .ok pl →
    let k := sentBy iss p (.atom op (b s iss w p) (c s iss w p) x.dbl none) pl (addrIn spc (s.rd iss w p x.a) 0)
      x.order x.scope
    (x.d = none → exec i s = .next (s.after iss ({ p with fx := p.fx ++ [Fx.item k] }.weigh 1)))
    ∧ ∀ d, x.d = some d → ∃ l : Load, l.dst = .v d ∧ l.val = none ∧ l.flag = iss.setA ∧ l.warp = iss.warp
      ∧ l.thread = p.t ∧ l.place = pl
      ∧ exec i s = .next (s.after iss ({ p with fx := p.fx ++ [Fx.atomLoad k l] }.weigh 1))

theorem sendsAtom {i : Instr} {spc : Space} {x : Atom} (op : AtomOp) (b c : State → Issue → Warp → Path → Word)
    (hi : ∀ s, exec i s = s.onOp i x.g 1 noReserved (atomBody spc op x b c)) : SendsAtom i spc op x b c := by
  intro s iss w p pl h hacc
  refine ⟨fun hd => (hi s).trans (onOp_ok h rfl (atomBody_none hacc hd)), fun d hd => ?_⟩
  exact ⟨_, rfl, rfl, rfl, rfl, rfl, rfl, (hi s).trans (onOp_ok h rfl (atomBody_some hacc hd))⟩

section
variable {i : Instr} {spc : Space} {x : Atom}

theorem onAtom_sends (op : AtomOp) (hi : ∀ s, exec i s = s.onAtom i spc op x) :
    SendsAtom i spc op x (fun s iss w p => s.rd iss w p x.b) (fun _ _ _ _ => 0) :=
  sendsAtom op _ _ hi

theorem onCas_sends {c : Operand} (hi : ∀ s, exec i s = s.onCas i spc x c) :
    SendsAtom i spc .cas x (fun s iss w p => s.rd iss w p x.b) (fun s iss w p => s.rd iss w p c) :=
  sendsAtom .cas _ _ hi

theorem onFatom_sends (op : AtomOp) (hi : ∀ s, exec i s = s.onFatom i spc op x) :
    SendsAtom i spc op x (fatomOperand x.dbl x.b) (fun _ _ _ _ => 0) :=
  sendsAtom op _ _ hi

end

/-- Settles O26: every atomic is one body with its operation and operands. -/
theorem atomicsAreSent : Obligations.AtomicsAreSent := by
  intro x c F rd none_ sends
  refine ⟨⟨?_, ?_, ?_, ?_, ?_, ?_, ?_, ?_, ?_, ?_, ?_⟩, ⟨?_, ?_, ?_, ?_, ?_, ?_, ?_, ?_, ?_, ?_, ?_⟩,
    ⟨?_, ?_, ?_, ?_, ?_, ?_⟩, fun g d a b dbl o sc s iss w p pl h hacc => ?scond⟩
  · exact onAtom_sends .add fun _ => rfl
  · exact onAtom_sends .minI fun _ => rfl
  · exact onAtom_sends .minN fun _ => rfl
  · exact onAtom_sends .maxI fun _ => rfl
  · exact onAtom_sends .maxN fun _ => rfl
  · exact onAtom_sends .and fun _ => rfl
  · exact onAtom_sends .or fun _ => rfl
  · exact onAtom_sends .xor fun _ => rfl
  · exact onAtom_sends .xchg fun _ => rfl
  · exact onCas_sends fun _ => rfl
  · exact onAtom_sends .incwrap fun _ => rfl
  · exact onAtom_sends .add fun _ => rfl
  · exact onAtom_sends .minI fun _ => rfl
  · exact onAtom_sends .minN fun _ => rfl
  · exact onAtom_sends .maxI fun _ => rfl
  · exact onAtom_sends .maxN fun _ => rfl
  · exact onAtom_sends .and fun _ => rfl
  · exact onAtom_sends .or fun _ => rfl
  · exact onAtom_sends .xor fun _ => rfl
  · exact onAtom_sends .xchg fun _ => rfl
  · exact onCas_sends fun _ => rfl
  · exact onAtom_sends .incwrap fun _ => rfl
  · exact onFatom_sends .fadd fun _ => rfl
  · exact onFatom_sends .fmin fun _ => rfl
  · exact onFatom_sends .fmax fun _ => rfl
  · exact onFatom_sends .fadd fun _ => rfl
  · exact onFatom_sends .fmin fun _ => rfl
  · exact onFatom_sends .fmax fun _ => rfl
  case scond =>
    have hacc' : s.access iss w p ⟨.global, .w, true, dblBytes dbl, s.rd iss w p a, iss.setA, true, true⟩ = .ok pl := hacc
    refine ⟨iss.load w p (.v d) pl (s.rd iss w p a) 8 false plainly, rfl, rfl, rfl, rfl, rfl, onOp_ok h rfl ?_⟩
    simp only [hacc']
    rfl

/-! ### Ordered adds, fences and waits (R195, R197–R199) -/

theorem CoresOnly.mem {s t : State} (h : CoresOnly s t) : t.mem = s.mem := by
  obtain ⟨cs, rfl⟩ := h
  rfl

@[simp] theorem State.updCore_core_self (s : State) (c : Nat) (f : Core → Core) : (s.updCore c f).core c = f (s.core c) :=
  SMap.get_set_self s.cores Core.empty c _

theorem State.fenceOrder_mem (s : State) (core : Nat) (sc : Scope) (span : List Nat) (h : Head) :
    (s.fenceOrder core sc span h).mem = s.mem :=
  (s.learn_coresOnly core _).mem

/-- An acquire wider than core leaves the core no global line. -/
theorem State.acquire_l1 (s : State) (core : Nat) {sc : Scope} (span ids : List Nat) (hsc : sc ≠ .core) :
    ((s.acquire core sc span ids).core core).l1 = [] := by
  simp [State.acquire, hsc, State.discardL1]

theorem State.fenceDone_mem (s : State) (core slot t : Nat) (span : List Nat) (o : Order) (sc : Scope) :
    (s.fenceDone core slot t span o sc).mem = s.mem := by
  unfold State.fenceDone
  extract_lets h s1 s2
  have h1 : s1.mem = s.mem := (coresOnly_ite (s.updCore_coresOnly ..) (.refl s)).mem
  have h2 : s2.mem = s1.mem := by
    simp only [s2]
    split
    · exact s1.fenceOrder_mem core sc span h
    · rfl
  exact ((coresOnly_ite (s2.acquire_coresOnly ..) (.refl s2)).mem.trans h2).trans h1

/-- A release fence stands with the writes that it publishes. -/
theorem State.fenceDone_rel (s : State) (core slot t : Nat) (span : List Nat) {sc : Scope} (hsc : sc ≠ .core) :
    (slot, t, s.headNow core sc span) ∈ ((s.fenceDone core slot t span .rel sc).core core).rel := by
  simp [State.fenceDone, hsc, rels, acqs]

theorem State.headNow_view {s : State} {core : Nat} {v : Ver} (sc : Scope) (span : List Nat) (hv : v ∈ s.vers)
    (h : v.spot = .core core ∨ v.id ∈ (s.core core).known) : v.id ∈ (s.headNow core sc span).view := by
  refine List.mem_map_of_mem (List.mem_filter.mpr ⟨hv, ?_⟩)
  rcases h with h | h <;> simp [h]

/-- Settles O27: each instruction's body once its access is right; a fence's release is its `headNow`, its acquire wider
than core takes the lines. -/
theorem orderedAddsFencesAndWaits : Obligations.OrderedAddsFencesAndWaits := by
  refine ⟨fun g a b dbl s iss w p pl h hacc => ?add, fun m s iss w p pl h => ?ordf, fun g o sc s iss w p h => ?fence,
    fun s core slot t span sc hsc => ⟨?release, ?acquire, ?both, fun o => s.fenceDone_mem core slot t span o sc⟩,
    fun g d a b c dbl cond signed sp s iss w p pl sc h => ?waita⟩
  case add =>
    have hacc' : s.access iss w p ⟨.global, .rw, true, dblBytes dbl, s.rd iss w p a, none, true, true⟩ = .ok pl := hacc
    refine onOp_ok h rfl ?_
    simp only [hacc']
    rfl
  case ordf =>
    intro va hacc
    have hacc' : s.access iss w p ⟨.global, .w, true, sizeBytes m.size, State.vaOf .global m.base m.off s iss w p, none,
      true, true⟩ = .ok pl := hacc
    refine onOp_ok h rfl ?_
    simp only [hacc']
    rfl
  case fence => exact onOp_ok h rfl rfl
  case release =>
    exact ⟨_, List.mem_map_of_mem (s.fenceDone_rel core slot t span hsc), rfl, rfl, fun v hv hmine =>
      State.headNow_view sc span hv hmine⟩
  case acquire => exact State.acquire_l1 _ core span _ hsc
  case both => exact State.acquire_l1 _ core span _ hsc
  case waita =>
    intro spc va ctl hsc hacc
    have hacc' : s.access iss w p ⟨if sp then .sp else .global, .r, true, dblBytes dbl,
      addrIn (if sp then .sp else .global) (s.rd iss w p a) 0, none, true, false⟩ = .ok pl := hacc
    have hsc' : Scope.ofCode ((s.rd iss w p c).toNat / 2 ^ 32 % 8) = some sc := hsc
    refine onOp_ok h (by rw [waitaBad, hsc']; rfl) ?_
    simp only [hacc', hsc', Option.getD_some]
    rfl

end Sys2Proof.Machine
end

section
/-! Where the bytes of a plain load come from (R181, R248, R264, R265): the line that it brings into the L1, and the search
from its own path outwards. With them, O22. -/

namespace Sys2Proof.Machine

/-! ### Byte `i` of a place is a byte of memory -/

theorem covered_mem_congr (q : Place) (b : List Byte) {x y i j : Nat} (h : x + i = y + j) :
    covered q b (.mem x) i = covered q b (.mem y) j := by
  cases q <;> simp [covered, h]

theorem youngest_mem_congr (skip : StItem → Bool) (items : List StItem) {x y i j : Nat} (h : x + i = y + j) :
    youngest skip items (.mem x) i = youngest skip items (.mem y) j := by
  simp only [youngest, covered_mem_congr _ _ h]

theorem peel_mem_congr (hid : Ver → Bool) (vs : List Ver) (b : Byte) {x y i j : Nat} (h : x + i = y + j) :
    peel hid (.mem x) i vs b = peel hid (.mem y) j vs b := by
  induction vs generalizing b with
  | nil => rfl
  | cons v vs ih => simp only [peel, covered_mem_congr _ _ h, ih]

/-! ### The line (R248) -/

/-- A byte of a line that is given as bytes. -/
theorem extractLsb_leNat {b : List Byte} (h64 : b.length ≤ 64) {k : Nat} (hk : k < b.length) :
    (BitVec.ofNat 512 (leNat b)).extractLsb' (8 * k) 8 = b[k] := by
  have hlen : 8 * (b.map BitVec.toNat).length ≤ 512 := by simp; omega
  have hlt : pack 8 (b.map BitVec.toNat) < 2 ^ 512 := (pack_lt _ _).trans_le (Nat.pow_le_pow_right (by decide) hlen)
  apply BitVec.eq_of_toNat_eq
  rw [leNat_eq_pack, BitVec.extractLsb'_toNat, BitVec.toNat_ofNat, Nat.mod_eq_of_lt hlt, Nat.shiftRight_eq_div_pow,
    pack_field 8 _ k (by simpa using hk)]
  simp [hk, Nat.mod_eq_of_lt b[k].isLt]

/-- A byte of the line that the core fills. -/
theorem State.fillLine_byte (s : State) (core line : Nat) {k : Nat} (hk : k < 64) :
    (s.fillLine core line).data.extractLsb' (8 * k) 8
      = (youngest noSkip (s.core core).flight (.mem (64 * line)) k).getD
          (peel (s.hideable core) (.mem (64 * line)) k s.vers (rdByte s.mem (64 * line + k))).1 := by
  have hlen : (rdBytes s.mem (64 * line) 64).length = 64 := rdBytes_length ..
  rw [State.fillLine]
  rw [extractLsb_leNat (by simp [State.sight, State.home, hlen]) (by simpa [State.sight, State.home, hlen] using hk)]
  simp [State.sight, State.home, rdBytes_get]

theorem Core.room_frame (c : Core) (n : Nat) :
    (c.room n).known = c.known ∧ (c.room n).seen = c.seen ∧ (c.room n).flight = c.flight := by
  unfold Core.room
  extract_lets c' full k
  split_ifs <;> exact ⟨rfl, rfl, rfl⟩

/-- What a plain load does to its line: it stays, or the core fills it. -/
theorem State.touchLine_cases (s : State) (core : Nat) {a : Nat} (hr : region a = 0) :
    ((s.lost (.mem (a / 64 * 64)) 64 = true ∨ ∃ l, (s.core core).l1.get? (a / 64) = some l)
      ∧ s.touchLine core (.mem a) = s)
    ∨ (s.lost (.mem (a / 64 * 64)) 64 = false ∧ (s.core core).l1.get? (a / 64) = none
      ∧ s.touchLine core (.mem a) = s.updCore core (fun c =>
        { c.room s.tick with l1 := SMap.put (c.room s.tick).l1 (a / 64) (s.fillLine core (a / 64)) })) := by
  cases hlost : s.lost (.mem (a / 64 * 64)) 64 with
  | true => exact .inl ⟨.inl rfl, by simp [State.touchLine, hlost]⟩
  | false =>
    cases hline : (s.core core).l1.get? (a / 64) with
    | some l => exact .inl ⟨.inr ⟨l, rfl⟩, by simp [State.touchLine, hlost, hr, hline]⟩
    | none => exact .inr ⟨rfl, rfl, by simp [State.touchLine, hlost, hr, hline]⟩

/-- The rest of the core's record stays. -/
theorem State.touchLine_frame (s : State) (core : Nat) {a : Nat} (hr : region a = 0) :
    ((s.touchLine core (.mem a)).core core).known = (s.core core).known
    ∧ ((s.touchLine core (.mem a)).core core).seen = (s.core core).seen
    ∧ ((s.touchLine core (.mem a)).core core).flight = (s.core core).flight := by
  rcases s.touchLine_cases core hr with ⟨-, h⟩ | ⟨-, -, h⟩
  · rw [h]
    exact ⟨rfl, rfl, rfl⟩
  · rw [h, State.updCore_core_self]
    exact Core.room_frame ..

theorem State.touchLine_holds (s : State) (core : Nat) {a : Nat} (hr : region a = 0)
    (hgood : s.lost (.mem (a / 64 * 64)) 64 = false) :
    ∃ l, ((s.touchLine core (.mem a)).core core).l1.get? (a / 64) = some l := by
  rcases s.touchLine_cases core hr with ⟨hor, h⟩ | ⟨-, -, h⟩
  · rw [h]
    exact hor.resolve_left (by simp [hgood])
  · rw [h, State.updCore_core_self]
    exact ⟨_, SMap.get?_put_self ..⟩

/-- A line that was not there is the one that the core fills. -/
theorem State.touchLine_filled (s : State) (core : Nat) {a : Nat} (hr : region a = 0)
    (hnone : (s.core core).l1.get? (a / 64) = none) {l : Line}
    (hl : ((s.touchLine core (.mem a)).core core).l1.get? (a / 64) = some l) : l = s.fillLine core (a / 64) := by
  rcases s.touchLine_cases core hr with ⟨-, h⟩ | ⟨-, -, h⟩
  · rw [h, hnone] at hl
    cases hl
  · rw [h, State.updCore_core_self, SMap.get?_put_self] at hl
    exact (Option.some.inj hl).symm

theorem State.touchLine_hideable (s : State) (core : Nat) {a : Nat} (hr : region a = 0) (v : Ver) :
    (s.touchLine core (.mem a)).hideable core v = s.hideable core v := by
  obtain ⟨hknown, hseen, -⟩ := s.touchLine_frame core hr
  obtain ⟨cs, hcs⟩ := s.touchLine_coresOnly core (.mem a)
  rw [State.hideable, hknown, hseen, State.hideable]
  rw [hcs]

/-! ### The search (R60, R181, R265) -/

section
variable (s : State) (core : Nat) (skip : StItem → Bool) (hid : Ver → Bool) (stq : List StItem)
  (own : List (Place × List Byte)) (p : Place) (n : Nat)

@[simp] theorem State.loadBytes_length (line : Bool) : (s.loadBytes core line skip hid stq own p n).1.length = n := by
  simp [State.loadBytes]

variable {i : Nat} (h : i < (s.loadBytes core true skip hid stq own p n).1.length)

theorem State.loadBytes_own {x : Byte} (hown : own.findSome? (fun st => covered st.1 st.2 p i) = some x) :
    (s.loadBytes core true skip hid stq own p n).1[i] = x := by
  simp [State.loadBytes, hown]

theorem State.loadBytes_queue {x : Byte} (hown : own.findSome? (fun st => covered st.1 st.2 p i) = none)
    (hq : youngest skip stq p i = some x) : (s.loadBytes core true skip hid stq own p n).1[i] = x := by
  simp [State.loadBytes, hown, hq]

theorem State.loadBytes_core (hown : own.findSome? (fun st => covered st.1 st.2 p i) = none)
    (hq : youngest skip stq p i = none) :
    (s.loadBytes core true skip hid stq own p n).1[i] = (s.coreByte core true skip hid p i).1 := by
  simp [State.loadBytes, hown, hq]

end

theorem State.coreByte_line {s : State} {core : Nat} (skip : StItem → Bool) (hid : Ver → Bool) {a i : Nat} {l : Line}
    (h : (s.core core).l1.get? ((a + i) / 64) = some l) :
    (s.coreByte core true skip hid (.mem a) i).1 = l.data.extractLsb' (8 * ((a + i) % 64)) 8 := by
  simp [State.coreByte, h]

theorem State.coreByte_beyond {s : State} {core : Nat} (skip : StItem → Bool) (hid : Ver → Bool) {a i : Nat}
    (h : (s.core core).l1.get? ((a + i) / 64) = none) :
    (s.coreByte core true skip hid (.mem a) i).1 = (youngest skip (s.core core).flight (.mem a) i).getD
      (peel hid (.mem a) i s.vers (rdByte s.mem (a + i))).1 := by
  simp only [State.coreByte, h]
  cases youngest skip (s.core core).flight (.mem a) i <;> rfl

theorem SMap.get?_upd_ne {α : Type} (m : SMap α) {k j : Nat} (f : α → α) (h : j ≠ k) :
    (m.upd k f).get? j = m.get? j := by
  unfold SMap.upd
  split
  · exact SMap.get?_put_ne m _ h
  · rfl

/-- Marking what other threads may act after changes queues alone. -/
theorem State.share_warp? (s : State) (slot : Nat) (want : StItem → Bool) (k : Nat) :
    ∃ q, (s.share slot want).warp? k = (s.warp? k).map (fun x => { x with stq := q }) := by
  have hwarps : (s.share slot want).warp? k = (s.warps.upd slot (fun x => { x with
      stq := x.stq.map (fun i => if want i then { i with pub := true } else i) })).get? k := rfl
  rw [hwarps, State.warp?]
  by_cases hk : k = slot
  · rw [hk, SMap.get?_upd_self]
    cases s.warps.get? slot with
    | none => exact ⟨[], rfl⟩
    | some x => exact ⟨_, rfl⟩
  · rw [SMap.get?_upd_ne _ _ hk]
    cases s.warps.get? k with
    | none => exact ⟨[], rfl⟩
    | some x => exact ⟨x.stq, rfl⟩

theorem CoresOnly.warp? {s t : State} (h : CoresOnly s t) (k : Nat) : t.warp? k = s.warp? k := by
  obtain ⟨cs, rfl⟩ := h
  rfl

theorem CoresOnly.share_frame {s t : State} (h : CoresOnly s t) (slot : Nat) (want : StItem → Bool) :
    t.share slot want = { s with cores := (t.share slot want).cores, warps := (t.share slot want).warps } := by
  obtain ⟨cs, rfl⟩ := h
  rfl

/-- What the search beyond the warp's queue gives: the line's byte, else the youngest store on its way, else the home's. -/
theorem State.coreByte_plain {s t : State} {core : Nat} (h : CoresOnly s t) (hflight : (t.core core).flight = (s.core core).flight)
    (skip : StItem → Bool) (hid : Ver → Bool) {a i : Nat} (hline : (a + i) / 64 = a / 64) :
    (∀ l, (t.core core).l1.get? (a / 64) = some l →
      (t.coreByte core true skip hid (.mem a) i).1 = l.data.extractLsb' (8 * ((a + i) % 64)) 8)
    ∧ ((t.core core).l1.get? (a / 64) = none → (t.coreByte core true skip hid (.mem a) i).1
      = (youngest skip (s.core core).flight (.mem a) i).getD (peel hid (.mem a) i s.vers (rdByte s.mem (a + i))).1) := by
  constructor
  · intro l hl
    exact State.coreByte_line skip hid (by rw [hline]; exact hl)
  · intro hl
    rw [State.coreByte_beyond skip hid (by rw [hline]; exact hl), hflight]
    obtain ⟨cs, rfl⟩ := h
    rfl

/-- The read of a word by a plain load: its line, its bytes, and the records of what was read. -/
theorem State.readWord_plain {s : State} {r : Reader} {w : Warp} (n : Nat) {a : Nat} (hw : s.warp? r.slot = some w)
    (hr : region a = 0) :
    let s1 := s.touchLine (coreOf r.slot) (.mem a)
    let x := s1.loadBytes (coreOf r.slot) true (fun j => j.sibling r.issue r.threads)
      (fun v => v.sibling r.issue r.threads || s.hideable (coreOf r.slot) v) w.stq r.own (.mem a) n
    s.readWord r false false ⟨.plain, .core, false⟩ n (.mem a)
      = ((s1.sees (coreOf r.slot) x.2).share r.slot (fun j => !j.of r && overlap j.place j.len (.mem a) n), x.1) := by
  have hstq : (s.touchLine (coreOf r.slot) (.mem a)).stqOf r.slot = w.stq := by
    rw [State.stqOf, (s.touchLine_coresOnly ..).warp? r.slot, hw]
    rfl
  simp only [← hstq, ← State.touchLine_hideable s (coreOf r.slot) hr]
  rfl

/-- Settles O22: the load touches its line and searches outwards; what it leaves of the state is its core's record and the
marks in the queues. -/
theorem plainLoadBytes : Obligations.PlainLoadBytes := by
  intro s r w a n core mine c hw hr hword
  obtain ⟨hknown, hseen, hflight⟩ := s.touchLine_frame core hr
  refine ⟨fun v hv => ?hideable, fun hgood => s.touchLine_holds core hr hgood, fun t b hread => ?read⟩
  case hideable =>
    simp only [State.hideable, Bool.and_eq_true, bne_iff_ne, Bool.not_eq_true', List.contains_eq_mem,
      decide_eq_false_iff_not, decide_eq_true_eq] at hv
    obtain ⟨⟨⟨⟨⟨-, hspot⟩, hk⟩, hs⟩, htime⟩, -⟩ := hv
    exact ⟨hspot, hk, hs, htime⟩
  case read =>
    obtain ⟨rfl, rfl⟩ := Prod.mk.inj ((State.readWord_plain n hw hr).symm.trans hread)
    have htouch := s.touchLine_coresOnly core (.mem a)
    refine ⟨(htouch.trans (State.sees_coresOnly ..)).share_frame .., fun slot => ?queues, State.loadBytes_length ..,
      fun i h => ⟨fun x hx => State.loadBytes_own (hown := hx) .., fun hown =>
        ⟨fun x hx => State.loadBytes_queue (hown := hown) (hq := hx) .., fun hq => ?beyond⟩⟩⟩
    case queues =>
      rw [← (htouch.trans (State.sees_coresOnly ..)).warp? slot]
      exact State.share_warp? ..
    case beyond =>
      have hi : i < n := by rwa [State.loadBytes_length] at h
      have hline : (a + i) / 64 = a / 64 := by omega
      have hbyte := State.coreByte_plain htouch hflight mine
        (fun v => v.sibling r.issue r.threads || s.hideable core v) hline
      refine ⟨fun l hl => (State.loadBytes_core (hown := hown) (hq := hq) ..).trans (hbyte.1 l hl),
        fun hl => (State.loadBytes_core (hown := hown) (hq := hq) ..).trans (hbyte.2 hl), fun hnone l hl => ?_⟩
      have hsame : 64 * (a / 64) + (a + i) % 64 = a + i := by omega
      rw [s.touchLine_filled core hr hnone hl, s.fillLine_byte core _ (Nat.mod_lt _ (by decide)),
        youngest_mem_congr _ _ hsame, peel_mem_congr _ _ _ hsame, hsame]

end Sys2Proof.Machine
end

section
/-! Collectives (R56, R147, R148, R202–R205): what the shared operation does to every path, and each collective's value.
With them, O28. -/

namespace Sys2Proof.Machine

/-! ### Every path of the issue (R56, R67) -/

@[simp] theorem Path.setDst_t (p : Path) (d : Operand) (x : Word) : (p.setDst d x).t = p.t := by
  cases d <;> rfl

@[simp] theorem Path.setDst_weight (p : Path) (d : Operand) (x : Word) : (p.setDst d x).weight = p.weight := by
  cases d <;> rfl

/-- A path that stands at its syllable stands there. -/
theorem Issue.stand_isSome {iss : Issue} {p q : Path} (h : iss.stand p = some q) : (iss.stand q).isSome = true := by
  unfold Issue.stand at h
  split at h
  next => cases h
  next hgo =>
    obtain ⟨x, hx, rfl⟩ := Option.map_eq_some_iff.mp h
    have hmem := List.mem_of_find?_eq_some hx
    have hon := List.find?_some hx
    simp only [Bool.and_eq_true, decide_eq_true_eq] at hon
    rw [Issue.stand, if_neg hgo, Option.isSome_map, List.find?_isSome]
    exact ⟨x, hmem, by simp [hon.2]⟩

/-- The cost of a stretch is a matter of threads and weights. -/
theorem stretchCost_congr {ps qs : List Path} (h : ps.map (fun p => (p.t, p.weight)) = qs.map (fun p => (p.t, p.weight))) :
    stretchCost ps = stretchCost qs := by
  have hslot (ps : List Path) (k : Nat) : (ps.filter (fun p => p.t % 4 = k)).map Path.weight
      = ((ps.map (fun p => (p.t, p.weight))).filter (fun x => x.1 % 4 = k)).map (·.2) := by
    rw [List.filter_map, List.map_map]
    rfl
  simp only [stretchCost, hslot, h]

section
variable {i : Instr} {g : Guard} {wt : Nat} {d : Operand} {f : Collective}
  {R : State → Issue → Warp → List Path → Path → Word → Prop}

/-- A path that nothing is wrong with, as it joins. -/
theorem joinIn_of_right {s : State} {iss : Issue} {w : Warp} {p : Path}
    (h : ∀ q, iss.stand p = some q → s.judge iss w q i (q.guard g) false = none) :
    joinIn i g s iss w p = ((iss.stand p).getD p, (iss.stand p).isSome && ((iss.stand p).getD p).guard g) := by
  unfold joinIn
  cases hp : iss.stand p with
  | none => rfl
  | some q =>
    simp only [h q hp]
    rfl

/-- A collective that gives each participant the value `X`. -/
theorem collects (X : State → Issue → Warp → List Path → Path → Word) (hi : ∀ s, exec i s = s.onCollective i g wt f)
    (hf : ∀ s iss w ps p, p ∈ ps → f s iss w ps p = p.setDst d (X s iss w ps p))
    (hR : ∀ s iss w ps p, p ∈ ps → R s iss w ps p (X s iss w ps p)) : Collects i g wt d R := by
  intro s iss w hb hright q on parts
  have hjoin : iss.paths.map (joinIn i g s iss w) = iss.paths.map (fun p => (q p, on p)) :=
    List.map_congr_left fun p hp => joinIn_of_right (hright p hp)
  have hparts : ((iss.paths.map (fun p => (q p, on p))).filter (·.2)).map (·.1) = parts := by
    rw [List.filter_map, List.map_map]
    rfl
  have hmem : ∀ p ∈ iss.paths, on p = true → q p ∈ parts := fun p hp hon =>
    List.mem_map_of_mem (List.mem_filter.mpr ⟨hp, hon⟩)
  refine ⟨X s iss w parts, fun p hp => hR s iss w parts p hp, ?_⟩
  have hstand : ∀ p, (iss.stand (q p)).isSome = (iss.stand p).isSome := by
    intro p
    cases hp : iss.stand p with
    | none => simp [q, hp]
    | some x => simpa [q, hp] using Issue.stand_isSome hp
  have hpaths : ∀ p ∈ iss.paths,
      { (if on p then ((f s iss w parts (q p)).weigh wt).pass
          else if (iss.stand (q p)).isSome then ((q p).weigh 1).pass else q p) with weight := 0 }
      = { (if on p then ((q p).setDst d (X s iss w parts (q p))).pass
          else if (iss.stand p).isSome then (q p).pass else p) with weight := 0 } := by
    intro p hp
    rw [hstand]
    split
    next hon => rw [hf s iss w parts (q p) (hmem p hp hon)]; rfl
    next =>
      split
      next => rfl
      next hno => simp [q, Option.not_isSome_iff_eq_none.mp hno]
  have hcost : stretchCost (iss.paths.map (fun p => if on p then ((f s iss w parts (q p)).weigh wt).pass
        else if (iss.stand (q p)).isSome then ((q p).weigh 1).pass else q p))
      = stretchCost (iss.paths.map (fun p => if on p then (q p).weigh wt
        else if (iss.stand p).isSome then (q p).weigh 1 else p)) := by
    refine stretchCost_congr ?_
    rw [List.map_map, List.map_map]
    refine List.map_congr_left fun p hp => ?_
    simp only [Function.comp_apply, hstand]
    split
    next hon => rw [hf s iss w parts (q p) (hmem p hp hon)]; simp [Path.weigh, Path.pass]
    next =>
      split
      next => rfl
      next hno => simp [q, Option.not_isSome_iff_eq_none.mp hno]
  rw [hi s, onCollective_before hb i g wt f]
  simp only [hjoin, hparts, List.map_map, Function.comp_def]
  rw [List.map_congr_left hpaths, hcost]

/-- The same of a collective that is given as its value. -/
theorem collects_setDst (X : State → Issue → Warp → List Path → Path → Word)
    (hi : ∀ s, exec i s = s.onCollective i g wt (fun s iss w ps p => p.setDst d (X s iss w ps p)))
    (hR : ∀ s iss w ps p, p ∈ ps → R s iss w ps p (X s iss w ps p)) : Collects i g wt d R :=
  collects X hi (fun _ _ _ _ _ _ => rfl) hR

end

/-! ### Values (R147, R148, R202, R205) -/

theorem getLsbD_ballot (ts : List Nat) (m : Word) {n : Nat} (h : n < 64) :
    (ts.foldl (fun (m : Word) t => m ||| (1 <<< t)) m).getLsbD n = (m.getLsbD n || decide (n ∈ ts)) := by
  induction ts generalizing m with
  | nil => simp
  | cons t ts ih =>
    rw [List.foldl_cons, ih, BitVec.getLsbD_or, BitVec.natCast_eq_ofNat, BitVec.getLsbD_ofNat, Nat.one_shiftLeft,
      Nat.testBit_two_pow]
    simp [h, Bool.or_assoc, eq_comm]

theorem ballotMask_bit (ts : List Nat) {n : Nat} (h : n < 64) : (ballotMask ts).getLsbD n = decide (n ∈ ts) := by
  rw [ballotMask, getLsbD_ballot ts 0 h]
  simp

/-- A field of packed values, zero beyond them. -/
theorem pack_getD (w : Nat) (xs : List Nat) (k : Nat) : pack w xs / 2 ^ (w * k) % 2 ^ w = xs.getD k 0 % 2 ^ w := by
  by_cases hk : k < xs.length
  · exact pack_field w xs k hk
  · have hle : 2 ^ (w * xs.length) ≤ 2 ^ (w * k) := Nat.pow_le_pow_right (by decide) (Nat.mul_le_mul_left w (by omega))
    rw [Nat.div_eq_of_lt ((pack_lt w xs).trans_le hle), List.getD_eq_default _ _ (by omega)]

/-- XMOV takes four positions of the network's outcome. -/
theorem fieldAt_take_drop (out : List Nat) (n : Nat) {e : Nat} (he : e < 4) :
    fieldAt (BitVec.ofNat 64 (pack 16 ((out.drop n).take 4))) 16 e = out.getD (n + e) 0 % 2 ^ 16 := by
  have hlt : pack 16 ((out.drop n).take 4) < 2 ^ 64 :=
    (pack_lt 16 _).trans_le (Nat.pow_le_pow_right (by decide) (by simp; omega))
  rw [fieldAt, BitVec.toNat_ofNat, Nat.mod_eq_of_lt hlt, pack_getD]
  simp [List.getD_eq_getElem?_getD, he]

/-- Settles O28: each collective gives every participant a value read from the participants before any result. -/
theorem collectives : Obligations.Collectives := by
  intro g d r u a k inv kx seg rm sat ty op val fold
  refine ⟨?ballot, ?first, ?xmov, ?scan, ?redw⟩
  case ballot =>
    refine collects_setDst (fun _ _ w ps _ =>
      ballotMask ((ps.filter (fun q => q.depth k != inv)).map (fun q => contributor w q.t))) ?_ ?_
    · exact fun _ => rfl
    · intro s iss w ps p _ n hn
      rw [ballotMask_bit _ hn, Bool.eq_iff_iff]
      simp only [decide_eq_true_eq, List.mem_map, List.mem_filter, List.any_eq_true, Bool.and_eq_true, beq_iff_eq]
      exact ⟨fun ⟨q, hq, ht⟩ => ⟨q, hq.1, ht, hq.2⟩, fun ⟨q, hq, ht, hdep⟩ => ⟨q, ⟨hq, hdep⟩, ht⟩⟩
  case first =>
    refine collects (f := fun s iss w ps p => match ps with
      | q :: _ => p.setDst (.s u) (s.rd iss w q a)
      | [] => p) (fun s iss w ps p => s.rd iss w (ps.headD p) a) ?_ ?_ ?_
    · exact fun _ => rfl
    · intro s iss w ps p hp
      cases ps with
      | nil => cases hp
      | cons q rest => rfl
    · intro s iss w ps p hp
      cases ps with
      | nil => cases hp
      | cons q rest => exact ⟨q, rest, rfl, rfl⟩
  case xmov =>
    refine collects_setDst (fun s iss w ps p => BitVec.ofNat 64 (pack 16 (((network (iss.entryXc.get 0 kx.toNat)
        (positions (ps.map (fun q => (contributor w q.t, s.rd iss w q a))))).drop (4 * contributor w p.t)).take 4))) ?_ ?_
    · exact fun _ => rfl
    · exact fun s iss w ps p _ e he => fieldAt_take_drop _ _ he
  case scan =>
    refine collects_setDst (fun s iss w ps p => fold ((ps.filter (fun q => q.t ≤ p.t)).map (fun q =>
      ((seg.map q.depth).getD false, val s iss w q)))) ?_ ?_
    · cases seg <;> exact fun _ => rfl
    · exact fun _ _ _ _ _ _ => rfl
  case redw =>
    refine collects_setDst (fun s iss w ps _ => fold (ps.map (fun q => (false, val s iss w q)))) ?_ ?_
    · exact fun _ => rfl
    · exact fun _ _ _ _ _ _ => rfl

end Sys2Proof.Machine
end

section
/-! One step of a scan (R128, R204), the exchange network switch by switch (R200), and reads of other threads' registers
(R203). With them, O29 and O30. -/

namespace Sys2Proof.Machine

/-! ### One step of a scan (R128, R204) -/

theorem scanRun_append {f : Word → Word → Word} {l : List (Bool × Word)} (h : l ≠ []) (b : Bool) (x : Word) :
    scanRun f (l ++ [(b, x)]) = if b then x else f (scanRun f l) x := by
  cases l with
  | nil => exact absurd rfl h
  | cons v l => simp [scanRun]

theorem mapU2_field (ty : ITy) (f : Nat → Nat → Nat) (x y : Word) {k : Nat} (hk : k < ty.count)
    (hlt : f (fieldAt x (wI ty) k) (fieldAt y (wI ty) k) < 2 ^ wI ty) :
    fieldAt (mapU2 ty (fun a b => (f a b : Nat)) x y) (wI ty) k = f (fieldAt x (wI ty) k) (fieldAt y (wI ty) k) := by
  rw [mapU2, writeI_field ty _ (by simp) k hk, getD_map_range _ hk]
  rw [Int.emod_eq_of_lt (by positivity) (by exact_mod_cast hlt), Int.toNat_natCast]

/-- A result of a step under a float type, element by element. -/
theorem writeF_zipWith_field (tf : FTy) (f : Nat → Nat → Nat) (x y : Word) {k : Nat} (hk : k < tf.count) :
    fieldAt (writeF tf (List.zipWith f (elemsF tf x) (elemsF tf y))) (fmtOf tf).width k
      = f (fieldAt x (fmtOf tf).width k) (fieldAt y (fmtOf tf).width k) % 2 ^ (fmtOf tf).width := by
  have hlen : (List.zipWith f (elemsF tf x) (elemsF tf y)).length = tf.count := by simp
  rw [writeF, fieldAt_pack (by rw [hlen]; exact fmtOf_width_count tf) (by rwa [hlen])]
  simp

/-- Settles O29: a step under an integer type is `map2` or `mapU2`, under a float type a `zipWith` of codes. -/
theorem scanSteps : Obligations.ScanSteps := by
  intro f l b x y ti tf rm sat k
  refine ⟨rfl, fun h => scanRun_append h b x, fun hk => ?int, fun hk => ⟨?_, ?_, ?_⟩⟩
  case int =>
    have hx := elemI_mem_rangeI ti x k
    have hy := elemI_mem_rangeI ti y k
    have hmin : min (elemI ti x k) (elemI ti y k) ∈ rangeI ti := ⟨le_min hx.1 hy.1, (min_le_left _ _).trans hx.2⟩
    have hmax : max (elemI ti x k) (elemI ti y k) ∈ rangeI ti := ⟨hx.1.trans (le_max_left _ _), max_le hx.2 hy.2⟩
    have hfx := fieldAt_lt x (wI ti) k
    have hfy := fieldAt_lt y (wI ti) k
    exact ⟨(map2_holds ti _ x y).elem k hk, (map2_holds ti min x y).elem_of_mem_rangeI hk hmin,
      (map2_holds ti max x y).elem_of_mem_rangeI hk hmax,
      mapU2_field ti (· &&& ·) x y hk (Nat.and_lt_two_pow _ hfy),
      mapU2_field ti (· ||| ·) x y hk (Nat.or_lt_two_pow hfx hfy),
      mapU2_field ti (· ^^^ ·) x y hk (Nat.xor_lt_two_pow hfx hfy)⟩
  all_goals exact writeF_zipWith_field tf _ x y hk

/-! ### The exchange network (R200) -/

/-- The two positions of switch w on bit β are those whose switch is w, bit β clear and set. -/
theorem switch_positions {β w : Nat} (hβ : β ≤ 6) (hw : w < 64) :
    let b := 2 ^ β
    let p0 := 2 * b * (w / b) + w % b
    p0 + b < 128 ∧ p0 / (2 * b) * b + p0 % b = w ∧ (p0 + b) / (2 * b) * b + (p0 + b) % b = w
      ∧ p0 / b % 2 = 0 ∧ (p0 + b) / b % 2 = 1 := by
  interval_cases β <;> simp only [Nat.reducePow] <;> omega

@[simp] theorem exchange_length (xc : BitVec 832) (k : Nat) (xs : List Nat) : (exchange xc k xs).length = 128 := by
  simp [exchange]

/-- After stage k, a position holds its own value or its partner's, as its switch's control says. -/
theorem exchange_getElem? (xc : BitVec 832) (k : Nat) {xs : List Nat} (hlen : xs.length = 128) {p q w : Nat} (hp : p < 128)
    (hq : q < 128) (hsw : p / (2 * 2 ^ stageBit k) * 2 ^ stageBit k + p % 2 ^ stageBit k = w)
    (hpartner : q = if p / 2 ^ stageBit k % 2 = 0 then p + 2 ^ stageBit k else p - 2 ^ stageBit k) :
    (exchange xc k xs)[p]? = xs[if xc.getLsbD (64 * k + w) then q else p]? := by
  have hvalue : (exchange xc k xs)[p]? = some (if xc.getLsbD (64 * k + w) then xs.getD q 0 else xs.getD p 0) := by
    simp [exchange, hp, hsw, hpartner]
  rw [hvalue]
  split <;> simp [hlen, hp, hq]

theorem exchange_zero {k : Nat} {xs : List Nat} (hlen : xs.length = 128) : exchange 0 k xs = xs := by
  refine List.ext_getElem (by simp [hlen]) fun p h1 h2 => ?_
  simp [exchange, h2]

theorem network_zero {xs : List Nat} (hlen : xs.length = 128) : network 0 xs = xs := by
  have hfold : ∀ ks : List Nat, ks.foldl (fun xs k => exchange 0 k xs) xs = xs := by
    intro ks
    induction ks with
    | nil => rfl
    | cons k ks ih => rw [List.foldl_cons, exchange_zero hlen, ih]
  exact hfold _

theorem stageBit_le {k : Nat} (hk : k < 13) : stageBit k ≤ 6 := by
  unfold stageBit
  split <;> omega

/-! ### Another thread's register (R203) -/

theorem entry_register (m : SMap Thread) (t r : Nat) :
    (m.get Thread.absent t).v.get 0 r = ((m.get? t).map (fun th => th.v.get 0 r)).getD 0 := by
  cases h : m.get? t with
  | none => simp [SMap.get, h, Thread.absent, SMap.get?]
  | some th => simp [SMap.get, h]

theorem ofNat_fieldAt (x : Word) {w : Nat} (hw : w ≤ 64) (e : Nat) :
    (BitVec.ofNat 64 (fieldAt x w e)).toNat = x.toNat / 2 ^ (w * e) % 2 ^ w := by
  rw [BitVec.toNat_ofNat, Nat.mod_eq_of_lt ((fieldAt_lt x w e).trans_le (Nat.pow_le_pow_right (by decide) hw)), fieldAt]

/-- Settles O30: a switch's two positions are computed back to it; LREAD's value is a field of the entry's register. -/
theorem exchangeAndLread : Obligations.ExchangeAndLread := by
  refine ⟨fun xc xs hlen => ⟨network_zero hlen, fun k w hk hw => ?switch⟩, fun g k src d a b c width => ⟨?xcfg, ?lread⟩⟩
  case switch =>
    intro b p0 ctl
    obtain ⟨hb, hsw0, hsw1, heven, hodd⟩ := switch_positions (stageBit_le hk) hw
    have hp0 : p0 < 128 := (Nat.le_add_right _ _).trans_lt hb
    refine ⟨exchange_length .., exchange_getElem? xc k hlen hp0 hb hsw0 (if_pos heven).symm, ?_⟩
    refine exchange_getElem? xc k hlen hb hp0 hsw1 ?_
    rw [if_neg fun h : (p0 + b) / 2 ^ stageBit k % 2 = 0 => absurd (h.symm.trans hodd) (by decide)]
    exact (Nat.add_sub_cancel ..).symm
  case xcfg => exact alu_moves _ fun _ => rfl
  case lread =>
    refine (alu_writes (fun s iss w p => BitVec.ofNat 64 (fieldAt
      ((iss.entry.get Thread.absent ((s.rd iss w p b).toNat % 32)).v.get 0 a.toNat) (64 / 2 ^ width.toNat)
      (if width = 0 then 0 else (s.rd iss w p c).toNat % 2 ^ width.toNat))) fun _ => rfl).mono ?_
    rintro s iss w p x rfl
    rw [ofNat_fieldAt _ (Nat.div_le_self ..), entry_register]

end Sys2Proof.Machine
end

section
/-! Barriers (R41, R206, R210): what a barrier instruction leaves or faults with, and the end of a phase. With them, O31
and O32. -/

namespace Sys2Proof.Machine

/-! ### Barrier instructions (R206, R210) -/

section
variable {s : State} {iss : Issue} {w : Warp} {p : Path} {b : Block} {op : Nat} {n : BitVec 8} {exp : Option Nat}
  {count : State → Issue → Warp → Path → Nat} {d : Bool}

theorem barBody_ok (hb : s.blocks.get? w.block = some b) (hn : n.toNat < b.nbars)
    (hfree : op = 0 ∨ op = 2 → recordUse b p < 4) :
    barBody op n exp count d s iss w p = (s, .ok (p.addFx (.bar op n.toNat (count s iss w p) d))) := by
  have hroom : ((op = 0 || op = 2) && 4 ≤ recordUse b p) = false := by
    simp only [Bool.and_eq_false_iff, Bool.or_eq_false_iff, decide_eq_false_iff_not]
    by_cases h : op = 0 ∨ op = 2
    · exact .inr (Nat.not_le.mpr (hfree h))
    · exact .inl (not_or.mp h)
  simp only [barBody, hb, if_neg (Nat.not_le.mpr hn), hroom, Bool.false_eq_true, if_false]

theorem barBody_foreign (hb : s.blocks.get? w.block = some b) (hn : b.nbars ≤ n.toNat) :
    barBody op n exp count d s iss w p = (s, .error ⟨17, p.next + 1, exp, n.zeroExtend 64⟩) := by
  simp only [barBody, hb, if_pos hn]
  rfl

theorem barBody_full (hb : s.blocks.get? w.block = some b) (hn : n.toNat < b.nbars) (hop : op = 0 ∨ op = 2)
    (hfull : 4 ≤ recordUse b p) :
    barBody op n exp count d s iss w p = (s, .error ⟨16, p.next + 1, exp, n.zeroExtend 64⟩) := by
  have hroom : ((op = 0 || op = 2) && 4 ≤ recordUse b p) = true := by simpa [hfull] using hop
  simp only [barBody, hb, if_neg (Nat.not_le.mpr hn), hroom, if_true]
  rfl

end

/-- Barrier instruction `i` leaves its operation, or faults with kind 17 where the barrier is none of the block's and with
kind 16 where an arrival finds the record full. -/
def BarLeaves (i : Instr) (g : Guard) (wt op : Nat) (n : BitVec 8) (exp : Option Nat)
    (count : State → Issue → Warp → Path → Nat) (d : Bool) : Prop :=
  ∀ s iss w p b, Performs i g s iss w p → s.blocks.get? w.block = some b →
    (n.toNat < b.nbars → (op = 0 ∨ op = 2 → recordUse b p < 4) →
      exec i s = .next (s.after iss ({ p with fx := p.fx ++ [Fx.bar op n.toNat (count s iss w p) d] }.weigh wt)))
    ∧ (b.nbars ≤ n.toNat → exec i s = .next (s.after iss
      ({ p with fault := some ⟨17, p.next + 1, exp, n.zeroExtend 64⟩ }.weigh wt)))
    ∧ (n.toNat < b.nbars → op = 0 ∨ op = 2 → 4 ≤ recordUse b p → exec i s = .next (s.after iss
      ({ p with fault := some ⟨16, p.next + 1, exp, n.zeroExtend 64⟩ }.weigh wt)))

theorem barLeaves {i : Instr} {g : Guard} {wt : Nat} (op : Nat) {n : BitVec 8} (exp : Option Nat)
    (count : State → Issue → Warp → Path → Nat) (d : Bool)
    (hi : ∀ s, exec i s = s.onOp i g wt noReserved (barBody op n exp count d)) : BarLeaves i g wt op n exp count d :=
  fun s _ _ _ _ h hb => ⟨fun hn hfree => (hi s).trans (onOp_ok h rfl (barBody_ok hb hn hfree)),
    fun hn => (hi s).trans (onOp_error h rfl (barBody_foreign hb hn)),
    fun hn hop hfull => (hi s).trans (onOp_error h rfl (barBody_full hb hn hop hfull))⟩

/-- Settles O31: every barrier instruction is one body with its operation. -/
theorem barrierInstructions : Obligations.BarrierInstructions := by
  intro g n a ded ok zero_
  have hok : ∀ i wt op exp count d, BarLeaves i g wt op n exp count d → ok i wt op exp count d := fun _ _ _ _ _ _ h => h
  refine ⟨hok _ _ _ _ _ _ ?arrive, hok _ _ _ _ _ _ ?wait, hok _ _ _ _ _ _ ?sync, hok _ _ _ _ _ _ ?barw,
    hok _ _ _ _ _ _ ?barx⟩
  case arrive => exact barLeaves 0 none noCount false fun _ => rfl
  case wait => exact barLeaves 1 none noCount false fun _ => rfl
  case sync => exact barLeaves 2 none noCount false fun _ => rfl
  case barw => exact barLeaves 2 (some 0) noCount false fun _ => rfl
  case barx => exact barLeaves 3 none (fun s iss w p => (s.rd iss w p a).toNat % 2 ^ 17) ded fun _ => rfl

/-! ### The end of a phase (R41) -/

theorem foldl_keeps {α β : Type} {f : β → α → β} {I : β → Prop} (hI : ∀ b a, I b → I (f b a)) (xs : List α) {b : β}
    (hb : I b) : I (xs.foldl f b) := by
  induction xs generalizing b with
  | nil => exact hb
  | cons x xs ih => exact ih (hI b x hb)

/-- What one element brings about, and the others keep, holds in the end. -/
theorem foldl_reaches {α β : Type} {f : β → α → β} {I P : β → Prop} {x : α} (hI : ∀ b a, I b → I (f b a))
    (hP : ∀ b a, P b → P (f b a)) (hget : ∀ b, I b → P (f b x)) {xs : List α} (hx : x ∈ xs) {b : β} (hb : I b) :
    P (xs.foldl f b) := by
  induction xs generalizing b with
  | nil => cases hx
  | cons y xs ih =>
    rcases List.mem_cons.mp hx with rfl | hx
    · exact foldl_keeps hP xs (hget b hb)
    · exact ih hx (hI b y hb)

theorem SMap.mem_vals_of_get? {α : Type} {m : SMap α} {k : Nat} {x : α} (h : m.get? k = some x) : x ∈ m.vals := by
  induction m with
  | nil => cases h
  | cons c r ih =>
    obtain ⟨j, y⟩ := c
    by_cases hk : j = k
    · rw [SMap.get?, if_pos hk] at h
      exact List.mem_cons.mpr (.inl (Option.some.inj h).symm)
    · rw [SMap.get?, if_neg hk] at h
      exact List.mem_cons.mpr (.inr (ih h))

theorem waitsAt_iff (n : Nat) (y : Blocked) : waitsAt n y = true ↔ y = .barrier n := by
  cases y <;> simp [waitsAt]

/-- No thread of the warp waits at barrier n. -/
def Warp.clear (n : Nat) (w : Warp) : Prop := ∀ t th, w.threads.get? t = some th → Blocked.barrier n ∉ th.blocked

/-- The warp has the same threads, but for what waits at barrier n. -/
def Warp.freed (n : Nat) (w w' : Warp) : Prop := w'.block = w.block ∧ ∀ t th, w.threads.get? t = some th →
  ∃ th', w'.threads.get? t = some th' ∧ ∀ y, y ≠ .barrier n → (y ∈ th'.blocked ↔ y ∈ th.blocked)

theorem Warp.freed_refl (n : Nat) (w : Warp) : w.freed n w := ⟨rfl, fun _ th hth => ⟨th, hth, fun _ _ => Iff.rfl⟩⟩

theorem Warp.freed_trans {n : Nat} {u v w : Warp} (h : u.freed n v) (h' : v.freed n w) : u.freed n w := by
  refine ⟨h'.1.trans h.1, fun t th hth => ?_⟩
  obtain ⟨th1, hth1, h1⟩ := h.2 t th hth
  obtain ⟨th2, hth2, h2⟩ := h'.2 t th1 hth1
  exact ⟨th2, hth2, fun y hy => (h2 y hy).trans (h1 y hy)⟩

theorem Warp.unblockIf_freed (n : Nat) (w : Warp) : w.freed n (w.unblockIf (fun _ => waitsAt n)) := by
  refine ⟨rfl, fun t th hth => ⟨_, by rw [Warp.unblockIf_get?, hth]; rfl, fun y hy => ?_⟩⟩
  have hno : waitsAt n y = false := Bool.eq_false_iff.mpr fun h => hy ((waitsAt_iff n y).mp h)
  simp [hno]

theorem Warp.unblockIf_clear (n : Nat) (w : Warp) : (w.unblockIf (fun _ => waitsAt n)).clear n := by
  intro t th hth
  rw [Warp.unblockIf_get?] at hth
  obtain ⟨x, -, rfl⟩ := Option.map_eq_some_iff.mp hth
  simp [waitsAt]

theorem Warp.clear_of_any {n : Nat} {w : Warp}
    (h : w.threads.vals.any (fun th => th.blocked.any (waitsAt n)) = false) : w.clear n := by
  intro t th hth hmem
  have hth' := List.any_eq_false.mp h th (SMap.mem_vals_of_get? hth)
  exact hth' (List.any_eq_true.mpr ⟨_, hmem, (waitsAt_iff n _).mpr rfl⟩)

/-- One warp's part of the end of a phase. -/
def State.releaseOne (blk : Nat) (b : Block) (n : Nat) (view : List Nat) (s : State) (slot : Nat) : State :=
  s.releaseBar blk { b with warps := [slot] } n view

theorem State.releaseBar_eq_foldl (s : State) (blk : Nat) (b : Block) (n : Nat) (view : List Nat) :
    s.releaseBar blk b n view = b.warps.foldl (State.releaseOne blk b n view) s := rfl

theorem State.member_eq_some {s : State} {blk slot : Nat} {w : Warp} :
    s.member blk slot = some w ↔ s.warp? slot = some w ∧ w.block = blk := by
  unfold State.member
  cases s.warp? slot with
  | none => exact ⟨nofun, fun h => nomatch h.1⟩
  | some x =>
    show (if x.block = blk then some x else none) = some w ↔ some x = some w ∧ w.block = blk
    by_cases hb : x.block = blk
    · rw [if_pos hb]
      exact ⟨fun h => ⟨h, Option.some.inj h ▸ hb⟩, fun h => h.1⟩
    · rw [if_neg hb]
      exact ⟨nofun, fun h => absurd (Option.some.inj h.1 ▸ h.2) hb⟩

/-- A warp of the block is freed, unless none of its threads waits there. -/
theorem State.releaseOne_cases (blk : Nat) (b : Block) (n : Nat) (view : List Nat) (s : State) (slot : Nat) :
    ((∀ w, s.member blk slot = some w → w.clear n) ∧ State.releaseOne blk b n view s slot = s)
    ∨ ∃ w, s.member blk slot = some w
      ∧ CoresOnly (s.setWarp slot (w.unblockIf (fun _ => waitsAt n))) (State.releaseOne blk b n view s slot) := by
  simp only [State.releaseOne, State.releaseBar, List.foldl_cons, List.foldl_nil]
  cases hm : s.member blk slot with
  | none => exact .inl ⟨fun _ h => (nomatch h), rfl⟩
  | some w =>
    cases hany : w.threads.vals.any (fun th => th.blocked.any (waitsAt n)) with
    | false =>
      refine .inl ⟨fun w' hw' => ?_, by simp only [hany, Bool.false_eq_true, if_false]⟩
      rw [← Option.some.inj hw']
      exact Warp.clear_of_any hany
    | true =>
      refine .inr ⟨w, rfl, ?_⟩
      simp only [hany, if_true]
      exact coresOnly_ite ((State.learn_coresOnly ..).trans (State.updCore_coresOnly ..)) (.refl _)

theorem CoresOnly.blocks {s t : State} (h : CoresOnly s t) : t.blocks = s.blocks := by
  obtain ⟨cs, rfl⟩ := h
  rfl

theorem State.warp?_setWarp_self (s : State) (k : Nat) (x : Warp) : (s.setWarp k x).warp? k = some x :=
  SMap.get?_put_self ..

theorem State.warp?_setWarp_ne (s : State) {k j : Nat} (x : Warp) (h : j ≠ k) : (s.setWarp k x).warp? j = s.warp? j :=
  SMap.get?_put_ne _ _ h

section
variable (blk : Nat) (b : Block) (n : Nat) (view : List Nat)

theorem State.releaseOne_blocks (s : State) (slot : Nat) : (State.releaseOne blk b n view s slot).blocks = s.blocks := by
  rcases State.releaseOne_cases blk b n view s slot with ⟨-, h⟩ | ⟨w, -, h⟩
  · rw [h]
  · rw [h.blocks]
    rfl

theorem State.releaseOne_other {s : State} {slot k : Nat} {w : Warp} (hw : s.warp? k = some w) (hb : w.block ≠ blk) :
    (State.releaseOne blk b n view s slot).warp? k = some w := by
  rcases State.releaseOne_cases blk b n view s slot with ⟨-, h⟩ | ⟨v, hv, h⟩
  · rwa [h]
  · obtain ⟨hv, hvb⟩ := State.member_eq_some.mp hv
    have hk : k ≠ slot := by
      rintro rfl
      exact hb (Option.some.inj (hw.symm.trans hv) ▸ hvb)
    rw [h.warp?, State.warp?_setWarp_ne _ _ hk, hw]

theorem State.releaseOne_freed {s : State} {slot k : Nat} {w : Warp} (hw : s.warp? k = some w) (hb : w.block = blk) :
    ∃ w', (State.releaseOne blk b n view s slot).warp? k = some w' ∧ w.freed n w' ∧ (k = slot ∨ w.clear n → w'.clear n) := by
  rcases State.releaseOne_cases blk b n view s slot with ⟨hclear, h⟩ | ⟨v, hv, h⟩
  · rw [h]
    refine ⟨w, hw, w.freed_refl n, fun hor => hor.elim ?_ id⟩
    rintro rfl
    exact hclear w (State.member_eq_some.mpr ⟨hw, hb⟩)
  · obtain ⟨hv, -⟩ := State.member_eq_some.mp hv
    rw [h.warp?]
    by_cases hk : k = slot
    · subst hk
      obtain rfl := Option.some.inj (hw.symm.trans hv)
      exact ⟨_, State.warp?_setWarp_self .., w.unblockIf_freed n, fun _ => w.unblockIf_clear n⟩
    · rw [State.warp?_setWarp_ne _ _ hk]
      exact ⟨w, hw, w.freed_refl n, fun hor => hor.resolve_left hk⟩

theorem State.releaseBar_blocks (s : State) : (s.releaseBar blk b n view).blocks = s.blocks := by
  rw [State.releaseBar_eq_foldl]
  exact foldl_keeps (I := fun t : State => t.blocks = s.blocks) (fun t slot ht => (State.releaseOne_blocks ..).trans ht) _ rfl

theorem State.releaseBar_other {s : State} {k : Nat} {w : Warp} (hw : s.warp? k = some w) (hb : w.block ≠ blk) :
    (s.releaseBar blk b n view).warp? k = some w := by
  rw [State.releaseBar_eq_foldl]
  exact foldl_keeps (I := fun t : State => t.warp? k = some w) (fun t slot ht => State.releaseOne_other blk b n view ht hb) _ hw

/-- A warp of the block ends the phase with none of its threads waiting for it. -/
theorem State.releaseBar_freed {s : State} {k : Nat} {w : Warp} (hk : k ∈ b.warps) (hw : s.warp? k = some w)
    (hb : w.block = blk) : ∃ w', (s.releaseBar blk b n view).warp? k = some w' ∧ w.freed n w' ∧ w'.clear n := by
  rw [State.releaseBar_eq_foldl]
  have hstep : ∀ (t : State) slot, (∃ w', t.warp? k = some w' ∧ w.freed n w') →
      ∃ w', (State.releaseOne blk b n view t slot).warp? k = some w' ∧ w.freed n w' := by
    rintro t slot ⟨w1, hw1, hf1⟩
    obtain ⟨w2, hw2, hf2, -⟩ := State.releaseOne_freed blk b n view (slot := slot) hw1 (hf1.1.trans hb)
    exact ⟨w2, hw2, Warp.freed_trans hf1 hf2⟩
  refine foldl_reaches (I := fun t : State => ∃ w', t.warp? k = some w' ∧ w.freed n w')
    (P := fun t : State => ∃ w', t.warp? k = some w' ∧ w.freed n w' ∧ w'.clear n) (x := k) hstep ?_ ?_ hk
    ⟨w, hw, w.freed_refl n⟩
  · rintro t slot ⟨w1, hw1, hf1, hc1⟩
    obtain ⟨w2, hw2, hf2, hc2⟩ := State.releaseOne_freed blk b n view (slot := slot) hw1 (hf1.1.trans hb)
    exact ⟨w2, hw2, Warp.freed_trans hf1 hf2, hc2 (.inr hc1)⟩
  · rintro t ⟨w1, hw1, hf1⟩
    obtain ⟨w2, hw2, hf2, hc2⟩ := State.releaseOne_freed blk b n view (slot := k) hw1 (hf1.1.trans hb)
    exact ⟨w2, hw2, Warp.freed_trans hf1 hf2, hc2 (.inl rfl)⟩

end

theorem State.barTest_waits {s : State} {blk n : Nat} {b : Block} (hb : s.blocks.get? blk = some b) {arrived : Bool}
    (h : ¬((b.bar n).e ≤ (b.bar n).a ∧ (0 < (b.bar n).a ∨ (b.bar n).e = 0 ∧ arrived = true))) :
    s.barTest blk n arrived = s := by
  simp only [State.barTest, hb]
  rw [if_neg]
  simpa using h

/-- A barrier after the end of its phase. -/
def Bar.turned (x : Bar) : Bar :=
  { x with p := !x.p, a := 0, e := x.e - x.x, x := 0, view := [], done := addAll x.done x.view }

theorem State.barTest_ends {s : State} {blk n : Nat} {b : Block} (hb : s.blocks.get? blk = some b) {arrived : Bool}
    (h : (b.bar n).e ≤ (b.bar n).a ∧ (0 < (b.bar n).a ∨ (b.bar n).e = 0 ∧ arrived = true)) :
    s.barTest blk n arrived
      = (s.updBlock blk (fun c => c.setBar n (b.bar n).turned)).releaseBar blk b n (b.bar n).view := by
  simp only [State.barTest, hb]
  rw [if_pos]
  · rfl
  · simpa using h

@[simp] theorem Block.setBar_bar_self (b : Block) (n : Nat) (x : Bar) : (b.setBar n x).bar n = x := by
  simp [Block.bar, Block.setBar, SMap.get]

theorem Block.setBar_bar_ne (b : Block) {n m : Nat} (x : Bar) (h : m ≠ n) : (b.setBar n x).bar m = b.bar m := by
  simp [Block.bar, Block.setBar, SMap.get, SMap.get?_put_ne _ _ h]

/-- Settles O32: the phase ends by one update of its block and `releaseBar`, which frees the block's warps one by one. -/
theorem barrierPhases : Obligations.BarrierPhases := by
  intro s blk n b hb x
  refine ⟨fun hlt arrived => State.barTest_waits hb fun h => ?_, fun ha he => State.barTest_waits hb ?_,
    fun arrived hle hor => ?ends⟩
  · exact absurd h.1 (Nat.not_le.mpr hlt)
  · rintro ⟨-, hpos | ⟨-, h⟩⟩
    · exact absurd ha hpos.ne'
    · cases h
  case ends =>
    have hcond : x.e ≤ x.a ∧ (0 < x.a ∨ x.e = 0 ∧ arrived = true) := by
      refine ⟨hle, ?_⟩
      rcases hor with h | h
      · exact .inl h
      · by_cases ha : x.a = 0
        · exact .inr ⟨by omega, h⟩
        · exact .inl (Nat.pos_of_ne_zero ha)
    rw [State.barTest_ends hb hcond]
    refine ⟨b.setBar n x.turned, ?_, Block.setBar_bar_self .., fun m hm => Block.setBar_bar_ne _ _ hm,
      fun slot w t th hslot hw hwb hth => ?_, fun slot w hw hwb => State.releaseBar_other _ _ _ _ hw hwb⟩
    · rw [State.releaseBar_blocks]
      exact (SMap.get?_upd_self ..).trans (congrArg (Option.map _) hb)
    · obtain ⟨w', hw', hfreed, hclear⟩ := State.releaseBar_freed blk b n x.view
        (s := s.updBlock blk (fun c => c.setBar n x.turned)) hslot hw hwb
      obtain ⟨th', hth', hsame⟩ := hfreed.2 t th hth
      exact ⟨w', th', hw', hth', hclear t th' hth', hsame⟩

end Sys2Proof.Machine
end

section
/-! Join instructions and JQRY (R208, R209), the instructions on a block's resources (R215–R218, R228, R238), and the
deprecated instructions (R81, R82). With them, O33, O35 and O36. -/

namespace Sys2Proof.Machine

/-! ### Joins (R208, R209) -/

theorem topBit_getLsbD : ∀ (lost : Bool) (n : Fin 64),
    ((if lost then 1 <<< 63 else 0 : Nat) : Word).getLsbD n = (lost && decide (n.val = 63)) := by
  decide

/-- JQRY's word: the mask below bit 32, LOST in bit 63. -/
theorem jqryWord_bits (m : Mask) (lost : Bool) :
    let x : Word := m.zeroExtend 64 ||| (if lost then 1 <<< 63 else 0)
    x.getLsbD 63 = lost ∧ (∀ n, n < 32 → x.getLsbD n = m.getLsbD n) ∧ ∀ n, 32 ≤ n → n < 63 → x.getLsbD n = false := by
  intro x
  have hbit : ∀ n, n < 64 → x.getLsbD n = (m.getLsbD n || (lost && decide (n = 63))) := by
    intro n hn
    rw [BitVec.getLsbD_or, BitVec.zeroExtend, BitVec.getLsbD_setWidth, topBit_getLsbD lost ⟨n, hn⟩]
    simp [hn]
  refine ⟨?_, fun n hn => ?_, fun n hlo hhi => ?_⟩
  · rw [hbit 63 (by decide), BitVec.getLsbD_of_ge m 63 (by decide)]
    simp
  · have hne : n ≠ 63 := by omega
    simp [hbit n (by omega), hne]
  · have hne : n ≠ 63 := by omega
    simp [hbit n (by omega), hne, BitVec.getLsbD_of_ge m n hlo]

/-- Settles O33: the instructions only add their action to the path; JQRY's word is a mask and a bit. -/
theorem joinInstructions : Obligations.JoinInstructions := by
  intro g j r d sel act
  refine ⟨?jset, ?jsetUniform, ?join, ?jarr, ?jqry⟩
  case jset => exact alu_moves _ fun _ => rfl
  case jsetUniform => exact alu_moves _ fun _ => rfl
  case join => exact alu_moves _ fun _ => rfl
  case jarr => exact alu_moves _ fun _ => rfl
  case jqry =>
    refine fun s iss w p h => ⟨_, ?_, alu_ok _ h⟩
    exact jqryWord_bits _ _

/-! ### A block's resources (R215–R218, R228, R238) -/

theorem State.updCore_core_ne (s : State) {c k : Nat} (f : Core → Core) (h : k ≠ c) : (s.updCore c f).core k = s.core k :=
  SMap.get_set_ne s.cores Core.empty _ h

/-- What a core learns changes neither who owns its tiles nor what is on its way. -/
theorem State.learn_frame (s : State) (core : Nat) (view : List Nat) (c : Nat) :
    ((s.learn core view).core c).owner = (s.core c).owner ∧ ((s.learn core view).core c).flight = (s.core c).flight := by
  unfold State.learn
  split
  · exact ⟨rfl, rfl⟩
  · by_cases hc : c = core
    · subst hc
      rw [State.updCore_core_self]
      exact ⟨rfl, rfl⟩
    · rw [State.updCore_core_ne _ _ hc]
      exact ⟨rfl, rfl⟩

/-- Tiles that all lie in the window. -/
theorem find_tile_none {first n size : Nat} (h : first + n ≤ size) :
    ((List.range n).map (first + ·)).find? (size ≤ ·) = none := by
  rw [List.find?_eq_none]
  intro t ht
  obtain ⟨i, hi, rfl⟩ := List.mem_map.mp ht
  have hlt := List.mem_range.mp hi
  simp only [decide_eq_true_eq]
  omega

/-- The word of owner codes. -/
def ownWord (own : Nat → BitVec 2) (n : Nat) : Word := BitVec.ofNat 64 (pack 2 ((List.range n).map (fun i => (own i).toNat)))

theorem ownWord_lt (own : Nat → BitVec 2) (n : Nat) : (ownWord own n).toNat < 2 ^ (2 * n) := by
  rw [ownWord, BitVec.toNat_ofNat]
  exact (Nat.mod_le _ _).trans_lt ((pack_lt 2 _).trans_eq (by simp))

theorem ownWord_field (own : Nat → BitVec 2) {n i : Nat} (hn : n ≤ 32) (hi : i < n) :
    fieldAt (ownWord own n) 2 i = (own i).toNat := by
  rw [ownWord, fieldAt_pack (by simp; omega) (by simpa using hi)]
  simp [Nat.mod_eq_of_lt (own i).isLt]

theorem verdict_give {s : State} {iss : Issue} {w : Warp} {p : Path} {syl t x : Nat} (hfx : p.fx = [Fx.give syl t])
    (hx : iss.giveTarget = some x) : s.verdict iss w p
      = if s.matPeer iss.warp w x then none else some ⟨19, syl + 1, none, iss.words.getD syl 0⟩ := by
  have hgive : giveOf iss.paths = some x := hx
  cases hpeer : s.matPeer iss.warp w x <;> simp [State.verdict, hfx, State.vote, State.voteIn, hgive, hpeer]

theorem CoresOnly.eq {s t : State} (h : CoresOnly s t) : t = { s with cores := t.cores } := by
  obtain ⟨cs, rfl⟩ := h
  rfl

/-- OWN of tiles that lie in the window. -/
theorem own_ok {g : Guard} {d : BitVec 8} {a b : Operand} {s : State} {iss : Issue} {w : Warp} {p : Path} {base size : Nat}
    (h : Performs (.own g d a b) g s iss w p) (hwin : s.window w.block (coreOf iss.warp) = some (base, size))
    (h1 : 1 ≤ (s.rd iss w p b).toNat % 64) (h32 : (s.rd iss w p b).toNat % 64 ≤ 32)
    (hfit : (s.rd iss w p a).toNat % 512 + (s.rd iss w p b).toNat % 64 ≤ size) :
    let first := (s.rd iss w p a).toNat % 512
    let n := (s.rd iss w p b).toNat % 64
    exec (.own g d a b) s = .next ((s.ownAcquire (coreOf iss.warp) ((List.range n).map (base + first + ·))).after iss
      ((p.setV d (ownWord (fun i => (s.core (coreOf iss.warp)).owner.get 0 (base + first + i)) n)).weigh 1)) := by
  refine onOp_ok h ?_ ?_
  · simp only [ownBad, Bool.or_eq_false_iff, decide_eq_false_iff_not]
    omega
  · simp only [hwin, Option.getD_some, find_tile_none hfit, ownWord, List.map_map]
    rfl

theorem give_moves (g : Guard) (a : Operand) : Moves (.mxtokGive g a) g 1 (fun s iss w p =>
    p.addFx (.give p.next ((s.rd iss w p a).toNat % 128))) := by
  intro s iss w p h
  refine (syllable_turn h.toAtTurn (givePath g a)).trans ?_
  simp only [givePath, h.guard, h.right, if_true]

theorem grow_exec {g : Guard} {n : BitVec 3} {s : State} {iss : Issue} {w : Warp} {p : Path}
    (h : Performs (.grow g n) g s iss w p) : exec (.grow g n) s = .next (s.after iss (Path.weigh
      (if n.toNat ≤ s.part.units (laneOf iss.warp) then p.addFx (.grow n.toNat)
        else p.fail (p.flt 23 (n.zeroExtend 64))) 1)) := by
  by_cases hn : n.toNat ≤ s.part.units (laneOf iss.warp)
  · rw [if_pos hn]
    exact onOp_ok h rfl (by simp only [if_neg (Nat.not_lt.mpr hn)])
  · rw [if_neg hn]
    exact onOp_error h rfl (by simp only [if_pos (Nat.not_le.mp hn)])

/-- Settles O35: OWN packs the owner codes of its tiles; the other instructions add their action to the path, and the
verdict on a give is that on its issue's target. -/
theorem blockResources : Obligations.BlockResources := by
  intro g d q a b n act
  refine ⟨fun s iss w p base size h hwin => ?own, ?ringget, ?ringput, ?give,
    fun s iss w p syl t x hfx hx => verdict_give hfx hx, ?take, fun s iss w p h => grow_exec h, ?shed⟩
  case own =>
    intro first cnt h1 h32 hfit
    exact ⟨_, _, own_ok h hwin h1 h32 hfit, ownWord_lt .., fun i hi => ownWord_field _ h32 hi,
      (s.learn_coresOnly ..).eq, State.learn_frame s _ _⟩
  case ringget => exact alu_moves _ fun _ => rfl
  case ringput => exact alu_moves _ fun _ => rfl
  case give => exact give_moves g a
  case take => exact alu_moves _ fun _ => rfl
  case shed => exact alu_moves _ fun _ => rfl

/-! ### Deprecated instructions (R81, R82) -/

/-- The sum of DOT4's byte products, written to 32 bits. -/
theorem dot4W_eq (signed : Bool) (a b c : Word) :
    let v (x : Word) (k : Nat) : Int := if signed then sgnOf 8 (fieldAt x 8 k) else fieldAt x 8 k
    let t : Int := fieldAt c 32 0 + v a 0 * v b 0 + v a 1 * v b 1 + v a 2 * v b 2 + v a 3 * v b 3
    dot4W signed a b c = BitVec.ofInt 64 (if signed then t.bmod (2 ^ 32) else t % 2 ^ 32) := by
  intro v t
  have hwrite : dot4W signed a b c = if signed then writeI .i32 [t] else writeI .n32 [t] := rfl
  rw [hwrite]
  cases signed with
  | true =>
    have h := writeI_single .i32 t rfl
    exact (h.whole rfl).trans (congrArg (BitVec.ofInt 64) (h.elem 0 (by decide)))
  | false =>
    have h := writeI_single .n32 t rfl
    exact (h.whole rfl).trans (congrArg (BitVec.ofInt 64) (h.elem 0 (by decide)))

theorem locate_global {s : State} {slot : Nat} {w : Warp} {k : Acc} {owner : Bool} {n va : Nat} {pl : Place}
    (h : s.locate slot w .global k owner n va = .ok pl) : ∃ a, pl = .mem a := by
  unfold State.locate at h
  split at h
  next => cases h
  next =>
    cases htr : s.translate w.ctx (BitVec.ofNat 64 va) k with
    | error e => simp [htr] at h
    | ok pa =>
      simp only [htr, Except.ok.injEq] at h
      exact ⟨pa, h.symm⟩

/-- What a right access says: where its bytes are, that its flag has room, and that no watchpoint matches. -/
theorem access_eq_ok {s : State} {iss : Issue} {w : Warp} {p : Path} {x : Access} {pl : Place} :
    s.access iss w p x = .ok pl ↔ s.locate iss.warp w x.space x.kind x.owner x.n x.va.toNat = .ok pl
      ∧ p.overflows x.flag = false ∧ watched w p x.space x.va.toNat x.n x.reads x.writes = false := by
  unfold State.access
  cases s.locate iss.warp w x.space x.kind x.owner x.n x.va.toNat with
  | error k => simp
  | ok pl' =>
    cases p.overflows x.flag <;> cases watched w p x.space x.va.toNat x.n x.reads x.writes <;> simp

theorem watched_unwatched (w : Warp) (p : Path) (spc : Space) (va n : Nat) (reads writes : Bool) :
    watched w p.unwatched spc va n reads writes = false := by
  simp [watched, Path.unwatched]

/-- A right access is right for the path that no watchpoint matches. -/
theorem access_unwatched {s : State} {iss : Issue} {w : Warp} {p : Path} {x : Access} {pl : Place}
    (h : s.access iss w p x = .ok pl) : s.access iss w p.unwatched x = .ok pl := by
  obtain ⟨hloc, hflag, -⟩ := access_eq_ok.mp h
  exact access_eq_ok.mpr ⟨hloc, hflag, watched_unwatched ..⟩

/-- The load of an LDQ's step. -/
def ldqLoad (iss : Issue) (w : Warp) (p : Path) (d : BitVec 8) (pl : Place) (va : Word) : Load :=
  iss.load w p (.v d) pl va 8 false ⟨.plain, .core, false⟩

section
variable {s : State} {iss : Issue} {w : Warp} {p : Path} {d : BitVec 8} {base : Operand} {off : BitVec 22}

theorem ldqStep_ok (k : Nat) {pl : Place}
    (h : s.access iss w p ⟨.global, .r, true, 8, s.vaOf .global base off iss w p + BitVec.ofNat 64 (8 * k), iss.setA, true,
      false⟩ = .ok pl) :
    ldqStep k d base off s iss w p
      = (s, .ok (p.addFx (.load (ldqLoad iss w p d pl (s.vaOf .global base off iss w p + BitVec.ofNat 64 (8 * k)))))) := by
  obtain ⟨a, rfl⟩ := locate_global (access_eq_ok.mp h).1
  have hload := loadBody_ok (sx := false) (d := d) (o := .plain) (sc := .core)
    (va := fun s iss w p => s.vaOf .global base off iss w p + BitVec.ofNat 64 (8 * k)) h
  simp only [ldqStep, hload]
  rfl

theorem State.rd_addFx (s : State) (iss : Issue) (w : Warp) (p : Path) (x : Fx) (o : Operand) :
    s.rd iss w (p.addFx x) o = s.rd iss w p o := by
  cases o <;> rfl

theorem State.rd_unwatched (s : State) (iss : Issue) (w : Warp) (p : Path) (o : Operand) :
    s.rd iss w p.unwatched o = s.rd iss w p o := by
  cases o <;> rfl

/-- The address of step k. -/
def ldqVa (s : State) (iss : Issue) (w : Warp) (p : Path) (base : Operand) (off : BitVec 22) (k : Nat) : Word :=
  s.vaOf .global base off iss w p + BitVec.ofNat 64 (8 * k)

/-- The access of an LDQ's step at an address. -/
def ldqAccess (iss : Issue) (va : Word) : Access := ⟨.global, .r, true, 8, va, iss.setA, true, false⟩

/-- The path after both loads of an LDQ. -/
def ldqDone (s : State) (iss : Issue) (w : Warp) (p : Path) (d : BitVec 8) (base : Operand) (off : BitVec 22)
    (pl₀ pl₁ : Place) : Path :=
  (p.addFx (.load (ldqLoad iss w p d pl₀ (ldqVa s iss w p base off 0)))).addFx
    (.load (ldqLoad iss w p (d + 1) pl₁ (ldqVa s iss w p base off 1)))

theorem ldqSteps_ok {pl₀ pl₁ : Place} (h0 : s.access iss w p (ldqAccess iss (ldqVa s iss w p base off 0)) = .ok pl₀)
    (hsecond : s.ldqSecond iss w (p.addFx (.load (ldqLoad iss w p d pl₀ (ldqVa s iss w p base off 0)))) d true = none)
    (h1 : s.access iss w (p.addFx (.load (ldqLoad iss w p d pl₀ (ldqVa s iss w p base off 0))))
      (ldqAccess iss (ldqVa s iss w p base off 1)) = .ok pl₁) :
    ldqSteps d base off s iss w p = (s, .ok (ldqDone s iss w p d base off pl₀ pl₁)) := by
  have hva (x : Fx) : s.vaOf .global base off iss w (p.addFx x) = s.vaOf .global base off iss w p := by
    rw [State.vaOf, State.rd_addFx, State.vaOf]
  simp only [ldqSteps, ldqStep_ok 0 h0]
  simp only [ldqVa] at hsecond
  simp only [hsecond]
  rw [ldqStep_ok 1 (pl := pl₁)]
  · simp only [ldqDone, hva]
    rfl
  · rw [hva]
    exact h1

theorem ldqVa_unwatched (k : Nat) : ldqVa s iss w p.unwatched base off k = ldqVa s iss w p base off k := by
  rw [ldqVa, State.vaOf, State.rd_unwatched, ldqVa, State.vaOf]

theorem ldqSecond_none (hheld : (d + 1).toNat < 64 + 48 * w.units)
    (hpend : (s.pendingV iss.warp p.t).contains (d + 1).toNat = false) : s.ldqSecond iss w p d true = none := by
  simp only [State.ldqSecond]
  rw [if_neg (Nat.not_le.mpr hheld), if_neg (by rw [hpend]; decide)]

end

/-- Settles O36: DOT4's word is a sum written to 32 bits; an LDQ's steps go the same way for the path that no watchpoint
matches. -/
theorem deprecatedInstructions : Obligations.DeprecatedInstructions := by
  intro g d a b c signed base off
  refine ⟨fun s iss w p h => ⟨_, dot4W_eq signed _ _ _, alu_ok _ h⟩, fun s iss w p pl₀ pl₁ h => ?_⟩
  intro va acc l q h0 hheld hpend h1
  have hsteps : ldqSteps d base off s iss w p = (s, .ok (ldqDone s iss w p d base off pl₀ pl₁)) :=
    ldqSteps_ok h0 (ldqSecond_none hheld hpend) h1
  have hfree : ldqSteps d base off s iss w p.unwatched = (s, .ok (ldqDone s iss w p.unwatched d base off pl₀ pl₁)) := by
    refine ldqSteps_ok ?_ (ldqSecond_none hheld hpend) ?_
    · rw [ldqVa_unwatched]
      exact access_unwatched h0
    · rw [ldqVa_unwatched, ldqVa_unwatched]
      exact access_unwatched h1
  refine (syllable_turn h.toAtTurn (ldqPath g d base off)).trans ?_
  simp only [ldqPath, h.guard, h.right, if_true, hfree, hsteps]
  rfl

end Sys2Proof.Machine
end

section
/-! Commands: one rule for a syllable that sends, and one for each body that judges its operands first. With it, O37. -/

namespace Sys2Proof.Machine

/-- A command whose descriptors are good and whose flag has room is sent. -/
theorem sendBody_ok {opcode : Nat} {dst : Option (BitVec 8)} {mk : State → Issue → Warp → Path → CmdBody} {s : State}
    {iss : Issue} {w : Warp} {p : Path} (hok : (mk s iss w p).ok (s.windowSize iss.warp w) = true)
    (hroom : p.overflows iss.setB = false) :
    sendBody opcode dst mk s iss w p = (s, .ok (p.addFx (.cmd (iss.cmd w p opcode (mk s iss w p) dst)))) := by
  simp [sendBody, hok, hroom]

/-- An instruction that is an operation with `sendBody` sends its command. -/
theorem sends_of_exec {i : Instr} {g : Guard} {opcode : Nat} {dst : Option (BitVec 8)}
    {mk : State → Issue → Warp → Path → CmdBody}
    (hexec : ∀ s, exec i s = s.onOp i g 1 noReserved (sendBody opcode dst mk)) : Sends i g opcode dst mk := by
  intro s iss w p h hok hroom
  rw [hexec s]
  exact onOp_ok h rfl (sendBody_ok hok hroom)

/-- A task command whose address is a multiple of 64 and whose flag has room is sent. -/
theorem taskBody_ok {opcode : Nat} {a : Operand} {mk : Word → CmdBody} {s : State} {iss : Issue} {w : Warp} {p : Path}
    (ha : (s.rd iss w p a).toNat % 64 = 0) (hroom : p.overflows iss.setB = false) :
    taskBody opcode a mk s iss w p = (s, .ok (p.addFx (.cmd (iss.cmd w p opcode (mk (s.rd iss w p a)) none)))) := by
  simp [taskBody, ha, hroom]

/-- A table command whose descriptor is good and whose flag has room is sent. -/
theorem tableBody_ok {opcode : Nat} {dst : Option (BitVec 8)} {ok : Bool} {x : CmdBody} {s : State} {iss : Issue} {w : Warp}
    {p : Path} (hok : ok = true) (hroom : p.overflows iss.setB = false) :
    tableBody opcode dst ok x s iss w p = (s, .ok (p.addFx (.cmd (iss.cmd w p opcode x dst)))) := by
  simp [tableBody, hok, hroom]

/-- TDONE, where it is its path's last operation before EXIT and its flag has room. -/
theorem tdone_exec {g : Guard} {s : State} {iss : Issue} {w : Warp} {p : Path} (h : Performs (.tdone g) g s iss w p)
    (hlast : s.doneBad iss w p = false) (hroom : p.overflows iss.setB = false) :
    exec (.tdone g) s = .next (s.after iss ((p.addFx .tdone).weigh 1)) := by
  refine (syllable_turn h.toAtTurn (tdonePath g)).trans ?_
  simp [tdonePath, hlast, opPath, h.guard, noReserved, h.right, hroom]

/-- Settles O37: each command's syllable is an operation that sends what it reads. -/
theorem commandsAreSent : Obligations.CommandsAreSent := by
  intro g x y z ws d mask a b n copy sweep call
  refine ⟨⟨?_, ?_, ?_, ?_, ?_⟩, ⟨?_, ?_, ?_, ?_, ?_, ?_, ?_, ?_, ?_, ?_⟩, ?_, ?_,
    fun s iss w p h hloc hroom => onOp_ok h rfl (tableBody_ok hloc hroom), ?tileq,
    fun s iss w p h hsel hroom => onOp_ok h rfl (tableBody_ok (decide_eq_true hsel) hroom),
    fun s iss w p h ha hroom => onOp_ok h rfl (taskBody_ok ha hroom),
    fun s iss w p h ha hroom => onOp_ok h rfl (taskBody_ok ha hroom),
    fun s iss w p h hlast hroom => tdone_exec h hlast hroom, ⟨?_, ?_, ?_, ?_, ?_, ?_, ?_, ?_, ?_, ?_⟩⟩
  case tileq => exact fun s iss w p h _ hroom => onOp_ok h rfl (tableBody_ok rfl hroom)
  all_goals exact sends_of_exec fun _ => rfl

end Sys2Proof.Machine
end

section
/-! Signing a matrix command: the four answers of `mxSign`, and the vote of an issue whose paths hold one signature. With
it, O38. -/

namespace Sys2Proof.Machine

section
variable {s : State} {iss : Issue} {w : Warp} {j : BitVec 4} {p : Path} {c : Capture} {k : Nat}

/-- The flag of the signature of path `p` on join `j`. -/
def signFlag (iss : Issue) (w : Warp) (j : BitVec 4) (p : Path) : Option Nat :=
  if bitOf (joinSeen iss w (iss.setPath p).paths j).expected p.t then iss.setB else none

/-- The path with its signature on it. -/
def signedPath (iss : Issue) (w : Warp) (j : BitVec 4) (p : Path) (c : Capture) (good : Bool) : Path :=
  p.addFx (.mx p.next j c (signFlag iss w j p) good)

/-- The command's format is good and the part has it. -/
def FmtGood (s : State) (k : Nat) (c : Capture) : Prop := mxFmtOk k c.fmt = true ∧ s.hasFormat k c.fmt = true

/-- The command's descriptors are good, its compressed rows included. -/
def DescGood (s : State) (iss : Issue) (w : Warp) (p : Path) (c : Capture) : Prop :=
  c.body.ok (s.windowSize iss.warp w) = true ∧ s.mxSparseOk w.block (coreOf iss.warp) (s.pathByte iss p) c.body = true

theorem mxSign_badFmt (hk : c.op.toNat - 0x208 = k) (h : ¬FmtGood s k c) :
    mxSign s iss w j p c = (.error (p.flt 21 c.fmt), p) := by
  have hbad : (!mxFmtOk k c.fmt || !s.hasFormat k c.fmt) = true := by
    rw [← Bool.not_and, Bool.not_eq_true', Bool.eq_false_iff]
    exact fun hboth => h (Bool.and_eq_true_iff.mp hboth)
  simp only [mxSign, hk, hbad, if_true]

theorem mxSign_badDesc (hk : c.op.toNat - 0x208 = k) (hf : FmtGood s k c) (hd : ¬DescGood s iss w p c) :
    mxSign s iss w j p c = (.error (iss.fltW p 22), signedPath iss w j p c false) := by
  obtain ⟨hfmt, hhas⟩ := hf
  have hbad : (!c.body.ok (s.windowSize iss.warp w)
      || !s.mxSparseOk w.block (coreOf iss.warp) (s.pathByte iss p) c.body) = true := by
    rw [← Bool.not_and, Bool.not_eq_true', Bool.eq_false_iff]
    exact fun hboth => hd (Bool.and_eq_true_iff.mp hboth)
  simp [mxSign, hk, hfmt, hhas, hbad, signedPath, signFlag]

theorem mxSign_full (hk : c.op.toNat - 0x208 = k) (hf : FmtGood s k c) (hd : DescGood s iss w p c)
    (hfull : p.overflows (signFlag iss w j p) = true) :
    mxSign s iss w j p c = (.error (p.flt 14 (BitVec.ofNat 64 (iss.setB.getD 0))), signedPath iss w j p c false) := by
  obtain ⟨hfmt, hhas⟩ := hf
  obtain ⟨hok, hrows⟩ := hd
  rw [signFlag] at hfull
  simp [mxSign, hk, hfmt, hhas, hok, hrows, hfull, signedPath, signFlag]

theorem mxSign_ok (hk : c.op.toNat - 0x208 = k) (hf : FmtGood s k c) (hd : DescGood s iss w p c)
    (hroom : p.overflows (signFlag iss w j p) = false) :
    mxSign s iss w j p c = (.ok (signedPath iss w j p c true), signedPath iss w j p c true) := by
  obtain ⟨hfmt, hhas⟩ := hf
  obtain ⟨hok, hrows⟩ := hd
  rw [signFlag] at hroom
  simp [mxSign, hk, hfmt, hhas, hok, hrows, hroom, signedPath, signFlag]

/-! ### The syllable -/

variable {i : Instr} {g : Guard} {cap : State → Issue → Warp → Path → Capture}

/-- A part without the feature. -/
theorem onMx_lacks (h : Performs i g s iss w p) (hl : s.lacksSparse i = true) :
    s.onMx i g j cap = .next (s.after iss (p.fail (iss.fltW p 4))) := by
  rw [State.onMx, syllable_turn h.toAtTurn]
  simp only [mxPath, hl, if_true]

theorem onMx_error {q : Path} {f : PFault} (h : Performs i g s iss w p) (hl : s.lacksSparse i = false)
    (hs : mxSign s iss w j p (cap s iss w p) = (.error f, q)) :
    s.onMx i g j cap = .next (s.after iss ((q.fail f).weigh 1)) := by
  rw [State.onMx, syllable_turn h.toAtTurn]
  simp [mxPath, hl, h.guard, h.right, hs]

theorem onMx_ok {q r : Path} (h : Performs i g s iss w p) (hl : s.lacksSparse i = false)
    (hs : mxSign s iss w j p (cap s iss w p) = (.ok q, r)) :
    s.onMx i g j cap = .next (s.after iss (q.weigh 1)) := by
  rw [State.onMx, syllable_turn h.toAtTurn]
  simp [mxPath, hl, h.guard, h.right, hs]

end

/-- What R359 and R360 ask of the syllable of instruction `i`, kind `k`, that signs `cap` on join `j`. -/
structure MxSigns (i : Instr) (g : Guard) (j : BitVec 4) (k : Nat) (cap : State → Issue → Warp → Path → Capture)
    (s : State) (iss : Issue) (w : Warp) (p : Path) : Prop where
  lacks : s.lacksSparse i = true → exec i s = .next (s.after iss (p.fail (iss.fltW p 4)))
  badFmt : s.lacksSparse i = false → ¬FmtGood s k (cap s iss w p) →
    exec i s = .next (s.after iss ((p.fail (p.flt 21 (cap s iss w p).fmt)).weigh 1))
  badDesc : s.lacksSparse i = false → FmtGood s k (cap s iss w p) → ¬DescGood s iss w p (cap s iss w p) →
    exec i s = .next (s.after iss (((signedPath iss w j p (cap s iss w p) false).fail (iss.fltW p 22)).weigh 1))
  full : s.lacksSparse i = false → FmtGood s k (cap s iss w p) → DescGood s iss w p (cap s iss w p) →
    p.overflows (signFlag iss w j p) = true → exec i s = .next (s.after iss
      (((signedPath iss w j p (cap s iss w p) false).fail (p.flt 14 (BitVec.ofNat 64 (iss.setB.getD 0)))).weigh 1))
  signs : s.lacksSparse i = false → FmtGood s k (cap s iss w p) → DescGood s iss w p (cap s iss w p) →
    p.overflows (signFlag iss w j p) = false →
    exec i s = .next (s.after iss ((signedPath iss w j p (cap s iss w p) true).weigh 1))

theorem mxSigns_of_exec {i : Instr} {g : Guard} {j : BitVec 4} {k : Nat} {cap : State → Issue → Warp → Path → Capture}
    (hexec : ∀ s, exec i s = s.onMx i g j cap) (hk : ∀ s iss w p, (cap s iss w p).op.toNat - 0x208 = k)
    {s : State} {iss : Issue} {w : Warp} {p : Path} (h : Performs i g s iss w p) : MxSigns i g j k cap s iss w p where
  lacks hl := (hexec s).trans (onMx_lacks h hl)
  badFmt hl hf := (hexec s).trans (onMx_error h hl (mxSign_badFmt (hk ..) hf))
  badDesc hl hf hd := (hexec s).trans (onMx_error h hl (mxSign_badDesc (hk ..) hf hd))
  full hl hf hd hfull := (hexec s).trans (onMx_error h hl (mxSign_full (hk ..) hf hd hfull))
  signs hl hf hd hroom := (hexec s).trans (onMx_ok h hl (mxSign_ok (hk ..) hf hd hroom))

/-! ### The vote -/

/-- The verdict on a path that holds one signature, when the reference is known. -/
theorem verdict_mx {s : State} {iss : Issue} {w : Warp} {p : Path} {syl : Nat} {j : BitVec 4} {c r : Capture}
    {flag : Option Nat} {good : Bool} (hfx : p.fx = [Fx.mx syl j c flag good])
    (href : iss.referenceIn iss.paths w j = some r) : s.verdict iss w p
      = if bitOf (joinSeen iss w iss.paths j).expected p.t && !c.agrees r then some ⟨20, syl + 1, none, c.fmt⟩
        else none := by
  simp only [State.verdict, hfx, List.findSome?_cons, List.findSome?_nil, State.vote, State.voteIn, href]
  split <;> simp_all

/-- The reference of a join that has a capture. -/
theorem referenceIn_capture {iss : Issue} {w : Warp} {j : BitVec 4} {r : Capture} {known : List Path}
    (h : (joinSeen iss w iss.paths j).capture = some r) : iss.referenceIn known w j = some r := by
  simp only [Issue.referenceIn, h]

/-- The reference of a join without one: the first expected thread's signature. -/
theorem referenceIn_first {iss : Issue} {w : Warp} {j : BitVec 4} {r : Capture} {q : Path} {rest : List Path}
    {syl : Nat} {flag : Option Nat} (h : (joinSeen iss w iss.paths j).capture = none)
    (hq : bitOf (joinSeen iss w iss.paths j).expected q.t = true) (hfx : q.fx = [Fx.mx syl j r flag true]) :
    iss.referenceIn (q :: rest) w j = some r := by
  simp [Issue.referenceIn, h, hq, hfx]

theorem expectedOnly_unexpected {iss : Issue} {w : Warp} {p : Path} {syl : Nat} {j : BitVec 4} {c : Capture}
    {flag : Option Nat} {good : Bool} (hfx : p.fx = [Fx.mx syl j c flag good])
    (hout : bitOf (joinSeen iss w [p] j).expected p.t = false) : (Path.expectedOnly iss w [p] p).fx = [] := by
  simp [Path.expectedOnly, hfx, hout]

/-- The rules for one instruction in the form of the statement. -/
theorem MxSigns.stops {i : Instr} {g : Guard} {j : BitVec 4} {k : Nat} {cap : State → Issue → Warp → Path → Capture}
    {s : State} {iss : Issue} {w : Warp} {p : Path} (m : MxSigns i g j k cap s iss w p) :
    (s.lacksSparse i = true → exec i s = .next (s.after iss ((p.fail (iss.fltW p 4)).weigh 0)))
    ∧ (s.lacksSparse i = false →
      (¬FmtGood s k (cap s iss w p) →
        exec i s = .next (s.after iss ((p.fail (p.flt 21 (cap s iss w p).fmt)).weigh 1)))
      ∧ (FmtGood s k (cap s iss w p) → ¬DescGood s iss w p (cap s iss w p) →
        exec i s = .next (s.after iss (((signedPath iss w j p (cap s iss w p) false).fail (iss.fltW p 22)).weigh 1)))
      ∧ (FmtGood s k (cap s iss w p) → DescGood s iss w p (cap s iss w p) → p.overflows (signFlag iss w j p) = true →
        exec i s = .next (s.after iss (((signedPath iss w j p (cap s iss w p) false).fail
          (p.flt 14 (BitVec.ofNat 64 (iss.setB.getD 0)))).weigh 1)))
      ∧ (FmtGood s k (cap s iss w p) → DescGood s iss w p (cap s iss w p) → p.overflows (signFlag iss w j p) = false →
        exec i s = .next (s.after iss ((signedPath iss w j p (cap s iss w p) true).weigh 1)))) :=
  ⟨m.lacks, fun hl => ⟨m.badFmt hl, m.badDesc hl, m.full hl, m.signs hl⟩⟩

/-- The opcode of a command names its kind. -/
theorem mxKind_opcode {k : Nat} (hk : k < 3) : (BitVec.ofNat 10 (0x208 + k)).toNat - 0x208 = k := by
  rw [BitVec.toNat_ofNat]
  omega

/-- Settles O38: the three instructions are one syllable with their captures; the vote holds a signature against the
join's reference. -/
theorem matrixSignatures : Obligations.MatrixSignatures := by
  intro g acc a b fmt str j res signs cap uni f
  refine ⟨fun s iss w p h => ?mac, fun s iss w p h => ?smac, fun s iss w p h => ?zero,
    fun s iss w p syl c flag good hfx => ⟨fun r hr => verdict_mx hfx (referenceIn_capture hr), ?first⟩,
    fun iss w p syl c flag good => expectedOnly_unexpected⟩
  case mac =>
    exact (mxSigns_of_exec (i := .mxmac g acc a b fmt str j) (cap := cap 0 f uni false) (fun _ => rfl)
      (fun _ _ _ _ => mxKind_opcode (by decide)) h).stops
  case smac =>
    exact (mxSigns_of_exec (i := .mxsmac g acc a b fmt str j res) (cap := cap 1 f uni res) (fun _ => rfl)
      (fun _ _ _ _ => mxKind_opcode (by decide)) h).stops
  case zero =>
    exact (mxSigns_of_exec (i := .mxzero g acc str j) (cap := cap 2 (fun _ _ _ _ => 0) (fun _ _ => 0) false)
      (fun _ => rfl) (fun _ _ _ _ => mxKind_opcode (by decide)) h).stops
  case first =>
    intro q syl' r flag' rest hnone hpaths hq hqfx
    exact verdict_mx hfx (by rw [hpaths]; exact referenceIn_first hnone hq hqfx)

end Sys2Proof.Machine
end

section
/-! The trap handler's instructions: what each selector reads, one lemma per row of R240's table. With it, O39. -/

namespace Sys2Proof.Machine

/-! ### What a selector reads -/

section
variable (s : State) (w : Warp) (t : Nat) {k : Nat}

theorem trdVal_v (h : k < 0x100) : s.trdVal w t k = (w.thread t).v.get 0 k := by
  simp only [State.trdVal, if_pos h]

theorem trdVal_ret (h : 0x108 ≤ k) (h' : k ≤ 0x10B) :
    s.trdVal w t k = ((w.thread t).ret.getD (k - 0x108) 0).zeroExtend 64 := by
  simp (disch := omega) only [State.trdVal, if_neg, if_pos]

theorem trdVal_f (h : 0x110 ≤ k) (h' : k ≤ 0x11B) :
    s.trdVal w t k = BitVec.ofNat 64 ((w.thread t).f.get 0 (k - 0x110)) := by
  simp (disch := omega) only [State.trdVal, if_neg, if_pos]

/-- The bits of selector 0x130: whether the thread is live, whether it is blocked, and at what. -/
def lifeBits (th : Thread) : Nat :=
  (if th.life == .live then 1 else 0) + th.blocked.head?.elim 0 (2 + 4 * blockedKind ·)

theorem trdVal_life : s.trdVal w t 0x130 = BitVec.ofNat 64 (lifeBits (w.thread t)) := by
  simp (disch := omega) only [State.trdVal, if_neg, if_true, lifeBits]
  cases (w.thread t).blocked <;> rfl

theorem trdVal_outstanding (h : 0x140 ≤ k) (h' : k ≤ 0x143) {b : Block} (hb : s.blocks.get? w.block = some b)
    {e : Nat × Bool} (he : (w.thread t).arrivals.get? (k - 0x140) = some e) (hout : outstanding b e = true) :
    s.trdVal w t k = BitVec.ofNat 64 (2 ^ 9 + 2 * e.1 + (if e.2 then 1 else 0)) := by
  simp (disch := omega) only [State.trdVal, if_neg, if_pos, hb, he, hout, if_true]

theorem trdVal_noArrival (h : 0x140 ≤ k) (h' : k ≤ 0x143) {b : Block} (hb : s.blocks.get? w.block = some b)
    (hnone : ∀ e, (w.thread t).arrivals.get? (k - 0x140) = some e → outstanding b e = false) :
    s.trdVal w t k = 0 := by
  simp (disch := omega) only [State.trdVal, if_neg, if_pos, hb]
  cases he : (w.thread t).arrivals.get? (k - 0x140) with
  | none => rfl
  | some e => simp only [hnone e he, Bool.false_eq_true, if_false]

theorem trdVal_join (h : 0x200 ≤ k) (h' : k ≤ 0x23F) :
    let j := w.join ((k - 0x200) / 4)
    (k % 4 = 0 → s.trdVal w t k = j.expected.zeroExtend 64) ∧ (k % 4 = 1 → s.trdVal w t k = j.signed.zeroExtend 64)
      ∧ (k % 4 = 2 → s.trdVal w t k = j.waiters.zeroExtend 64)
      ∧ (k % 4 = 3 → s.trdVal w t k = if j.lost then 1 else 0) := by
  simp (disch := omega) only [State.trdVal, if_neg, if_pos]
  exact ⟨fun hk => by simp only [hk], fun hk => by simp only [hk], fun hk => by simp only [hk], fun hk => by simp only [hk]⟩

theorem trdVal_barrier (h : 0x400 ≤ k) (h' : k < 0x800) {b : Block} (hb : s.blocks.get? w.block = some b) :
    let y := b.bar ((k - 0x400) / 4)
    (b.nbars ≤ (k - 0x400) / 4 → s.trdVal w t k = 0)
      ∧ ((k - 0x400) / 4 < b.nbars → (k % 4 = 0 → s.trdVal w t k = BitVec.ofNat 64 y.e)
        ∧ (k % 4 = 1 → s.trdVal w t k = BitVec.ofNat 64 y.a) ∧ (k % 4 = 2 → s.trdVal w t k = BitVec.ofNat 64 y.x)
        ∧ (k % 4 = 3 → s.trdVal w t k
          = BitVec.ofNat 64 ((if y.p then 1 else 0) + (if y.d then 2 else 0)))) := by
  simp (disch := omega) only [State.trdVal, if_neg, if_pos, hb]
  refine ⟨fun hn => if_pos hn, fun hn => ?_⟩
  simp only [if_neg (Nat.not_le.mpr hn)]
  exact ⟨fun hk => by simp only [hk], fun hk => by simp only [hk], fun hk => by simp only [hk], fun hk => by simp only [hk]⟩

theorem trdVal_uniform (h : 0x800 ≤ k) : s.trdVal w t k = w.s.get 0 (k - 0x800) := by
  simp (disch := omega) only [State.trdVal, if_neg]

end

/-! ### The fields of selector 0x130 -/

theorem blockedKind_le (b : Blocked) : blockedKind b ≤ 5 := by
  cases b <;> simp [blockedKind]

theorem lifeBits_lt (th : Thread) : lifeBits th < 2 ^ 64 := by
  unfold lifeBits
  cases th.blocked with
  | nil => cases th.life == .live <;> decide
  | cons b bs =>
    have := blockedKind_le b
    simp only [List.head?_cons, Option.elim_some]
    split <;> omega

theorem lifeBits_fields (th : Thread) : lifeBits th % 2 = (if th.life == .live then 1 else 0)
    ∧ lifeBits th / 2 % 2 = (if th.blocked.isEmpty then 0 else 1)
    ∧ lifeBits th / 4 = th.blocked.head?.elim 0 blockedKind := by
  unfold lifeBits
  cases th.blocked with
  | nil => cases th.life == .live <;> exact ⟨rfl, rfl, rfl⟩
  | cons b bs =>
    simp only [List.isEmpty_cons, Bool.false_eq_true, if_false, List.head?_cons, Option.elim_some]
    split <;> omega

theorem getLsbD_ofNat_of_lt {n i : Nat} (h : i < 64) : (BitVec.ofNat 64 n).getLsbD i = decide (n / 2 ^ i % 2 = 1) := by
  rw [BitVec.getLsbD_ofNat, decide_eq_true h, Bool.true_and, Nat.testBit_eq_decide_div_mod_eq]

/-- Bit 0 of selector 0x130 is the thread's life, bit 1 whether it is blocked. -/
theorem lifeWord_bits (th : Thread) : (BitVec.ofNat 64 (lifeBits th)).getLsbD 0 = (th.life == .live)
    ∧ (BitVec.ofNat 64 (lifeBits th)).getLsbD 1 = !th.blocked.isEmpty := by
  obtain ⟨h0, h1, -⟩ := lifeBits_fields th
  refine ⟨?_, ?_⟩
  · rw [getLsbD_ofNat_of_lt (by decide), Nat.pow_zero, Nat.div_one, h0]
    cases th.life == .live <;> rfl
  · rw [getLsbD_ofNat_of_lt (by decide), Nat.pow_one, h1]
    cases th.blocked.isEmpty <;> rfl

/-- Bits 63:2 of selector 0x130. -/
theorem lifeWord_kind (th : Thread) :
    (BitVec.ofNat 64 (lifeBits th)).toNat / 4 = th.blocked.head?.elim 0 blockedKind := by
  rw [BitVec.toNat_ofNat, Nat.mod_eq_of_lt (lifeBits_lt th)]
  exact (lifeBits_fields th).2.2

/-! ### The writes of a clause that act at once -/

theorem overlay_of_noTwr {s : State} {iss : Issue} {p : Path} (h : ∀ x ∈ p.fx, ∀ t k v, x ≠ Fx.twr t k v) :
    s.overlay iss p = s := by
  refine List.foldlRecOn (motive := fun t => t = s) p.fx _ rfl fun t ht x hx => ?_
  cases x with
  | twr t' k v => exact absurd rfl (h _ hx t' k v)
  | _ => exact ht

theorem overlay_append_twr (s : State) (iss : Issue) (p : Path) (t k : Nat) (v : Word) :
    s.overlay iss { p with fx := p.fx ++ [Fx.twr t k v] } = (s.overlay iss p).twrNow iss.warp t k v := by
  simp only [State.overlay, List.foldl_append, List.foldl_cons, List.foldl_nil]

theorem atOnce_iff (k : Nat) : atOnce k = true ↔ k = 0x130 ∨ (0x200 ≤ k ∧ k ≤ 0x23F) ∨ (0x400 ≤ k ∧ k < 0x800) := by
  simp [atOnce, or_assoc]

/-! ### The instructions -/

/-- TRD of a selector that the table names. -/
theorem trd_exec {g : Guard} {d : BitVec 8} {a b : Operand} {s : State} {iss : Issue} {w : Warp} {p : Path}
    (h : Performs (.trd g d a b) g s iss w p) (hk : selOk (s.rd iss w p b).toNat = true) :
    exec (.trd g d a b) s = .next (s.after iss ((p.setDst (.v d) ((s.overlay iss p).trdVal
      ((s.overlay iss p).warpNow iss w) ((s.rd iss w p a).toNat % 32) (s.rd iss w p b).toNat)).weigh 1)) :=
  onOp_ok h (by simp only [trdBad, hk, Bool.not_true]) rfl

/-- TWR of a write that is no reserved use. -/
theorem twr_exec {g : Guard} {a b c : Operand} {s : State} {iss : Issue} {w : Warp} {p : Path}
    (h : Performs (.twr g a b c) g s iss w p) (hgood : twrReserved a b c s iss w p = false) :
    exec (.twr g a b c) s = .next (s.after iss ((p.addFx (if atOnce (s.rd iss w p b).toNat
      then .twr ((s.rd iss w p a).toNat % 32) (s.rd iss w p b).toNat (s.rd iss w p c)
      else .edit ((s.rd iss w p a).toNat % 32) (s.rd iss w p b).toNat (s.rd iss w p c))).weigh 1)) :=
  onOp_ok h hgood rfl

/-- Settles O39: TRD reads the row of its selector in the warp as the clause's own TWRs leave it; a TWR acts at once or
waits, by its selector. -/
theorem handlerInstructions : Obligations.HandlerInstructions := by
  intro g d a b c now
  refine ⟨fun s iss w p h => ?trd, fun s iss p => overlay_of_noTwr, fun s iss p t k v => overlay_append_twr s iss p t k v,
    fun s iss w p h => ?twr, fun s iss w p h => onOp_ok h rfl rfl, fun _ _ _ _ _ _ _ _ => rfl,
    fun s iss w p h => alu_ok _ h⟩
  case trd =>
    intro k w' th hk
    refine ⟨_, trd_exec h hk, trdVal_v _ _ _, ?_, ?_, ?_, ?_, ?_, ?_, trdVal_ret _ _ _, trdVal_f _ _ _, ?_, ?_,
      fun hlife => ?life, fun h0 h3 blk hblk => ?arrival, fun h0 h3 => trdVal_join _ _ _ h0 h3,
      fun h0 h7 blk hblk => ?barrier, trdVal_uniform _ _ _⟩
    case life =>
      obtain ⟨hlive, hblocked⟩ := lifeWord_bits th
      have hword : (s.overlay iss p).trdVal w' ((s.rd iss w p a).toNat % 32) k = BitVec.ofNat 64 (lifeBits th) := by
        rw [hlife]
        exact trdVal_life ..
      refine ⟨?_, ?_, ?_⟩
      · exact (congrArg (BitVec.getLsbD · 0) hword).trans hlive
      · exact (congrArg (BitVec.getLsbD · 1) hword).trans hblocked
      · refine (congrArg (fun x : Word => x.toNat / 4) hword).trans ((lifeWord_kind th).trans ?_)
        cases th.blocked with
        | nil => rfl
        | cons b bs => cases b <;> rfl
    case arrival =>
      refine ⟨fun e he hp => ?_, fun hnone => trdVal_noArrival _ _ _ h0 h3 hblk fun e he =>
        beq_eq_false_iff_ne.mpr (hnone e he)⟩
      refine (trdVal_outstanding _ _ _ h0 h3 hblk he (beq_iff_eq.mpr hp)).trans ?_
      cases e.2 <;> rfl
    case barrier =>
      obtain ⟨hnone, hsome⟩ := trdVal_barrier (s.overlay iss p) w' ((s.rd iss w p a).toNat % 32) h0 h7 hblk
      refine ⟨hnone, fun hn => ?_⟩
      obtain ⟨he, ha, hx, hpd⟩ := hsome hn
      refine ⟨he, ha, hx, fun hk3 => (hpd hk3).trans ?_⟩
      cases (blk.bar ((k - 0x400) / 4)).p <;> cases (blk.bar ((k - 0x400) / 4)).d <;> rfl
    all_goals
      intro hsel
      exact (congrArg _ hsel).trans rfl
  case twr =>
    intro t k x hgood
    refine (twr_exec h hgood).trans ?_
    simp only [atOnce_iff]
    rfl

end Sys2Proof.Machine
end

section
/-! Traps: the primary report, the words that a trap writes, and what TRET makes of a warp. With it, O40 and O41. -/

namespace Sys2Proof.Machine

theorem State.warp?_updWarp (s : State) (slot : Nat) (f : Warp → Warp) :
    (s.updWarp slot f).warp? slot = (s.warp? slot).map f := SMap.get?_upd_self s.warps slot f

/-! ### Reports in ascending thread number -/

section
variable {rs : List TrapRep} (hsorted : rs.Pairwise (fun x y => x.thread < y.thread)) {r : TrapRep} (hr : r ∈ rs)
include hsorted hr

/-- The first report with a property is the one of the lowest thread. -/
theorem find?_least {P : TrapRep → Bool} (hP : P r = true) (hmin : ∀ q ∈ rs, P q = true → r.thread ≤ q.thread) :
    rs.find? P = some r := by
  induction rs with
  | nil => cases hr
  | cons q qs ih =>
    obtain ⟨hq, hqs⟩ := List.pairwise_cons.mp hsorted
    by_cases hPq : P q = true
    · rcases List.mem_cons.mp hr with rfl | hmem
      · exact List.find?_cons_of_pos hPq
      · exact absurd (hmin q List.mem_cons_self hPq) (Nat.not_le.mpr (hq r hmem))
    · rw [List.find?_cons_of_neg hPq]
      rcases List.mem_cons.mp hr with rfl | hmem
      · exact absurd hP hPq
      · exact ih hqs hmem fun q' hq' => hmin q' (List.mem_cons_of_mem _ hq')

theorem head?_least (hmin : ∀ q ∈ rs, r.thread ≤ q.thread) : rs.head? = some r := by
  cases rs with
  | nil => cases hr
  | cons q qs =>
    rcases List.mem_cons.mp hr with rfl | hmem
    · rfl
    · exact absurd (hmin q List.mem_cons_self) (Nat.not_le.mpr ((List.pairwise_cons.mp hsorted).1 r hmem))

/-- The primary is the lowest-numbered faulting thread, or the lowest-numbered one (R338). -/
theorem primaryRep_eq (hprim : if 4 ≤ r.kind then ∀ q ∈ rs, 4 ≤ q.kind → r.thread ≤ q.thread
    else ∀ q ∈ rs, q.kind < 4 ∧ r.thread ≤ q.thread) : primaryRep rs = some r := by
  rw [primaryRep]
  split at hprim
  next h4 =>
    rw [find?_least hsorted hr (decide_eq_true h4) fun q hq h => hprim q hq (of_decide_eq_true h), Option.some_or]
  next =>
    have hnone : rs.find? (fun q => decide (4 ≤ q.kind)) = none := List.find?_eq_none.mpr fun q hq h =>
      absurd (of_decide_eq_true h) (Nat.not_le.mpr (hprim q hq).1)
    rw [hnone, Option.none_or, head?_least hsorted hr fun q hq => (hprim q hq).2]

theorem find?_thread : rs.find? (fun q => q.thread = r.thread) = some r :=
  find?_least hsorted hr (decide_eq_true rfl) fun _ _ h => Nat.le_of_eq (of_decide_eq_true h).symm

end

/-! ### The words of a report -/

/-- The bits expansion and step, in the form of the statement. -/
theorem expBits_eq (e : Option Nat) (bit step : Nat) :
    expBits e bit step = (if e.isSome then 2 ^ bit else 0) + 2 ^ step * e.getD 0 := by
  cases e with
  | none => rfl
  | some k => simp [expBits, Nat.mul_comm]

theorem expBits_lt {e : Option Nat} (h : e.getD 0 < 4) {bit step : Nat} (hbit : bit = step + 2) :
    expBits e bit step < 2 ^ bit + 2 ^ bit := by
  subst hbit
  have hpos := Nat.two_pow_pos (step + 2)
  cases e with
  | none => exact Nat.add_pos_left hpos _
  | some k =>
    have hk : k * 2 ^ step < 4 * 2 ^ step := Nat.mul_lt_mul_of_pos_right h (Nat.two_pow_pos step)
    simp only [expBits, pow_add]
    omega

theorem TrapRep.word_toNat {q : TrapRep} (hkind : q.kind < 28) (hsyl : q.syl < 32) (hexp : q.exp.getD 0 < 4) :
    q.word.toNat = 2 ^ 24 * q.kind + 2 ^ 16 * q.syl + (if q.exp.isSome then 2 ^ 15 else 0) + 2 ^ 13 * q.exp.getD 0
      + q.code.toNat := by
  have hcode := q.code.isLt
  have hbits := expBits_lt hexp (bit := 15) (step := 13) rfl
  rw [TrapRep.word, BitVec.toNat_ofNat, Nat.mod_eq_of_lt (by omega), expBits_eq]
  omega

section
variable {rs : List TrapRep} {r : TrapRep} (hprim : primaryRep rs = some r) (hthread : r.thread < 32) (hkind : r.kind < 28)
  (hsyl : r.syl < 32) (hexp : r.exp.getD 0 < 4)
include hprim hthread hkind hsyl hexp

theorem trapInfo_sum : (trapInfo rs).toNat = 2 ^ 56 * r.kind + 2 ^ 51 * r.thread + expBits r.exp 50 48 + 2 ^ 43 * r.syl
    + (maskOf (rs.map TrapRep.thread)).toNat := by
  have hmask := (maskOf (rs.map TrapRep.thread)).isLt
  have hbits := expBits_lt hexp (bit := 50) (step := 48) rfl
  simp only [trapInfo, hprim, BitVec.toNat_ofNat]
  rw [Nat.mod_eq_of_lt (by omega)]
  omega

/-- The low half of $trapinfo is the mask. -/
theorem trapInfo_mask : (trapInfo rs).toNat % 2 ^ 32 = (maskOf (rs.map TrapRep.thread)).toNat := by
  have hmask := (maskOf (rs.map TrapRep.thread)).isLt
  rw [trapInfo_sum hprim hthread hkind hsyl hexp, expBits_eq]
  split <;> omega

theorem trapInfo_toNat : (trapInfo rs).toNat = 2 ^ 56 * r.kind + 2 ^ 51 * r.thread
    + (if r.exp.isSome then 2 ^ 50 else 0) + 2 ^ 48 * r.exp.getD 0 + 2 ^ 43 * r.syl + (trapInfo rs).toNat % 2 ^ 32 := by
  rw [trapInfo_mask hprim hthread hkind hsyl hexp, trapInfo_sum hprim hthread hkind hsyl hexp, expBits_eq]
  omega

theorem trapInfo_getLsbD {t : Nat} (ht : t < 32) : (trapInfo rs).getLsbD t = rs.any (fun q => q.thread == t) := by
  have hbit : (trapInfo rs).getLsbD t = bitOf (maskOf (rs.map TrapRep.thread)) t := by
    rw [bitOf, BitVec.getLsbD, BitVec.getLsbD, ← trapInfo_mask hprim hthread hkind hsyl hexp, Nat.testBit_mod_two_pow,
      decide_eq_true ht, Bool.true_and]
  rw [hbit, bitOf_maskOf _ ht, Bool.eq_iff_iff, decide_eq_true_iff, List.any_eq_true]
  simp

end

/-! ### Taking a trap -/

/-- A thread as a trap leaves it. -/
def Thread.reported (rs : List TrapRep) (t : Nat) (th : Thread) : Thread :=
  { th with
    trapWord := ((rs.find? (fun r => r.thread = t)).map TrapRep.word).getD 0
    detail := ((rs.find? (fun r => r.thread = t)).map TrapRep.detail).getD 0
    resv := none }

theorem Warp.trap_threads (w : Warp) (addr : Addr56) (rs : List TrapRep) (t : Nat) :
    (w.trap addr rs).threads.get? t = (w.threads.get? t).map (Thread.reported rs t) :=
  SMap.get?_map (β := Thread) w.threads (Thread.reported rs) t

/-- Settles O40: the primary gives $trapinfo, each report its thread's words. -/
theorem takingATrap : Obligations.TakingATrap := by
  intro s slot w addr rs r hw hrs hsorted hr hprim
  obtain ⟨hthread, hkind, hsyl, hexp⟩ := hrs r hr
  have hp := primaryRep_eq hsorted hr hprim
  refine ⟨w.trap addr rs, by rw [State.takeTrap, State.warp?_updWarp, hw, Option.map_some], rfl, rfl,
    trapInfo_toNat hp hthread hkind hsyl hexp, fun t ht => trapInfo_getLsbD hp hthread hkind hsyl hexp ht,
    fun t th hth => ⟨_, _, by rw [Warp.trap_threads, hth]; rfl, fun q hq hqt => ?_, fun hnone => ?_⟩, rfl, rfl, rfl⟩
  · subst hqt
    obtain ⟨-, hkindq, hsylq, hexpq⟩ := hrs q hq
    rw [find?_thread hsorted hq]
    exact ⟨rfl, TrapRep.word_toNat hkindq hsylq hexpq⟩
  · have hno : rs.find? (fun q => decide (q.thread = t)) = none :=
      List.find?_eq_none.mpr fun q hq h => hnone q hq (of_decide_eq_true h)
    rw [hno]
    exact ⟨rfl, rfl⟩

/-! ### A deferred write -/

theorem Warp.edit_uniform {w : Warp} {t k : Nat} {x : Word} (h : 0x800 ≤ k) :
    w.edit (t, k, x) = { w with s := w.s.set 0 (k - 0x800) x } := if_pos h

theorem Warp.edit_thread {w : Warp} {t k : Nat} {x : Word} (h : k < 0x800) :
    w.edit (t, k, x) = w.updThread t (fun th => th.edit k x) := if_neg (Nat.not_le.mpr h)

theorem setDepth_length (r : List Addr56) (d : Nat) : (setDepth r d).length = d := by
  simp only [setDepth, List.length_append, List.length_take, List.length_replicate]
  omega

theorem setDepth_getD (r : List Addr56) {d i : Nat} (h : i < d) : (setDepth r d).getD i 0 = r.getD i 0 := by
  by_cases hi : i < r.length
  · simp [setDepth, List.getElem?_append, hi, h]
  · rw [setDepth, List.take_of_length_le (by omega), List.getD_append_right _ _ _ _ (by omega),
      List.getD_eq_default _ _ (Nat.not_lt.mp hi), List.getD_replicate _ (by omega)]

/-- An entry of the arrival record as a write leaves it. -/
def editArrival (m : SMap (Nat × Bool)) (j : Nat) (x : Word) : SMap (Nat × Bool) :=
  if x.getLsbD 9 then m.put j (x.toNat / 2 % 256, x.getLsbD 0) else m.del j

theorem editArrival_self (m : SMap (Nat × Bool)) (j : Nat) (x : Word) : (editArrival m j x).get? j
    = if x.getLsbD 9 then some (x.toNat / 2 % 256, x.getLsbD 0) else none := by
  unfold editArrival
  split
  · exact SMap.get?_put_self ..
  · exact SMap.get?_del_self ..

theorem editArrival_ne (m : SMap (Nat × Bool)) {i j : Nat} (x : Word) (h : i ≠ j) : (editArrival m j x).get? i = m.get? i := by
  unfold editArrival
  split
  · exact SMap.get?_put_ne _ _ h
  · exact SMap.get?_del_ne _ h

section
variable (th : Thread) {k : Nat} (x : Word)

theorem Thread.edit_v (h : k < 0x100) : th.edit k x = { th with v := th.v.set 0 k x } := if_pos h

theorem Thread.edit_depth : th.edit 0x105 x = { th with ret := setDepth th.ret (min x.toNat 4) } := rfl

theorem Thread.edit_ret (h : 0x108 ≤ k) (h' : k ≤ 0x10B) :
    th.edit k x = { th with ret := th.ret.set (k - 0x108) (x.setWidth 56) } := by
  have hin : (decide (0x108 ≤ k) && decide (k < 0x10C)) = true := by simp [h, Nat.lt_succ_of_le h']
  simp (disch := omega) only [Thread.edit, if_neg, hin, if_true]

theorem Thread.edit_f (h : 0x110 ≤ k) (h' : k ≤ 0x11B) :
    th.edit k x = { th with f := th.f.set 0 (k - 0x110) (x.toNat % 16) } := by
  have hout : (decide (0x108 ≤ k) && decide (k < 0x10C)) = false := by simp; omega
  have hin : (decide (0x110 ≤ k) && decide (k < 0x11C)) = true := by simp [h, Nat.lt_succ_of_le h']
  simp (disch := omega) only [Thread.edit, if_neg, hout, hin, if_true, Bool.false_eq_true, if_false]

theorem Thread.edit_arrival (h : 0x140 ≤ k) (h' : k ≤ 0x143) : th.edit k x = { th with arrivals := editArrival th.arrivals (k - 0x140) x } := by
  have hret : (decide (0x108 ≤ k) && decide (k < 0x10C)) = false := by simp; omega
  have hf : (decide (0x110 ≤ k) && decide (k < 0x11C)) = false := by simp; omega
  have hin : (decide (0x140 ≤ k) && decide (k < 0x144)) = true := by simp [h, Nat.lt_succ_of_le h']
  simp (disch := omega) only [Thread.edit, if_neg, hret, hf, hin, if_true, Bool.false_eq_true, if_false, editArrival]

end

/-- The deferred writes leave all of a warp but its threads and uniforms. -/
def Warp.OnlyEdited (w v : Warp) : Prop :=
  v.joins = w.joins ∧ v.trappc = w.trappc ∧ v.trapinfo = w.trapinfo

theorem Warp.edit_onlyEdited (w : Warp) (e : Nat × Nat × Word) : w.OnlyEdited (w.edit e) := by
  unfold Warp.edit
  split <;> exact ⟨rfl, rfl, rfl⟩

theorem Warp.edits_onlyEdited (w : Warp) (es : List (Nat × Nat × Word)) : w.OnlyEdited (es.foldl Warp.edit w) := by
  refine List.foldlRecOn (motive := w.OnlyEdited) es _ ⟨rfl, rfl, rfl⟩ fun v hv e _ => ?_
  obtain ⟨hj, hp, hi⟩ := hv
  obtain ⟨hj', hp', hi'⟩ := v.edit_onlyEdited e
  exact ⟨hj'.trans hj, hp'.trans hp, hi'.trans hi⟩

/-! ### The PC table -/

theorem placeThread_age {tbl : List Entry} {addr : Addr56} {t : Nat} (h : ∀ e ∈ tbl, e.age = 0) :
    ∀ e ∈ placeThread tbl addr t, e.age = 0 := by
  intro e he
  unfold placeThread at he
  split at he
  · obtain ⟨e0, he0, rfl⟩ := List.mem_map.mp he
    split <;> exact h e0 he0
  · rcases List.mem_append.mp he with he | he
    · exact h e he
    · rw [List.mem_singleton.mp he]

/-- An entry of the address holds thread t. -/
def Entered (tbl : List Entry) (addr : Addr56) (t : Nat) : Prop := ∃ e ∈ tbl, e.addr = addr ∧ bitOf e.members t = true

theorem placeThread_entered (tbl : List Entry) (addr : Addr56) {t : Nat} (ht : t < 32) :
    Entered (placeThread tbl addr t) addr t := by
  have hbit : bitOf (maskOf [t]) t = true := by
    rw [bitOf_maskOf _ ht]
    simp
  unfold placeThread
  split
  next hany =>
    obtain ⟨e, he, haddr⟩ := List.any_eq_true.mp hany
    refine ⟨_, List.mem_map.mpr ⟨e, he, rfl⟩, ?_⟩
    rw [if_pos haddr]
    exact ⟨beq_iff_eq.mp haddr, by rw [bitOf_or, hbit, Bool.or_true]⟩
  next => exact ⟨_, List.mem_append.mpr (.inr (List.mem_singleton.mpr rfl)), rfl, hbit⟩

theorem placeThread_keeps {tbl : List Entry} {a : Addr56} {u : Nat} (h : Entered tbl a u) (addr : Addr56) (t : Nat) :
    Entered (placeThread tbl addr t) a u := by
  obtain ⟨e, he, haddr, hbit⟩ := h
  unfold placeThread
  split
  · refine ⟨_, List.mem_map.mpr ⟨e, he, rfl⟩, ?_⟩
    split
    · exact ⟨haddr, by rw [bitOf_or, hbit, Bool.true_or]⟩
    · exact ⟨haddr, hbit⟩
  · exact ⟨e, List.mem_append.mpr (.inl he), haddr, hbit⟩

/-- The table that some threads of a warp make. -/
def Warp.tableOf (w : Warp) (ts : List Nat) : List Entry :=
  ts.foldl (fun tbl t => placeThread tbl (w.thread t).pc t) []

theorem Warp.tableOf_age (w : Warp) (ts : List Nat) : ∀ e ∈ w.tableOf ts, e.age = 0 :=
  List.foldlRecOn (motive := fun tbl : List Entry => ∀ e ∈ tbl, e.age = 0) ts _ (fun _ h => absurd h List.not_mem_nil) fun _ h _ _ => placeThread_age h

theorem Warp.tableOf_entered (w : Warp) {ts : List Nat} {t : Nat} (h : t ∈ ts) (ht : t < 32) :
    Entered (w.tableOf ts) (w.thread t).pc t := by
  obtain ⟨as, bs, rfl⟩ := List.append_of_mem h
  rw [Warp.tableOf, List.foldl_append, List.foldl_cons]
  exact List.foldlRecOn (motive := fun tbl => Entered tbl _ t) bs _ (placeThread_entered _ _ ht)
    fun _ h u _ => placeThread_keeps h _ u

theorem Warp.mem_live (w : Warp) {t : Nat} (ht : t < 32) (hl : (w.thread t).life = .live) : t ∈ w.live :=
  List.mem_filter.mpr ⟨List.mem_range.mpr ht, beq_iff_eq.mpr hl⟩

/-- A rebuilt table holds the live threads at their PCs with age 0, or the warp is serial. -/
theorem Warp.rebuild_table (w : Warp) : (∀ e ∈ w.rebuild.table, e.age = 0) ∧ (w.rebuild.serial = none → ∀ t, t < 32 →
    (w.thread t).life = .live → Entered w.rebuild.table (w.thread t).pc t) := by
  unfold Warp.rebuild Warp.fitTable
  split
  · exact ⟨fun _ h => absurd h List.not_mem_nil, fun h => nomatch h⟩
  · exact ⟨w.tableOf_age w.live, fun _ t ht hl => w.tableOf_entered (w.mem_live ht hl) ht⟩

theorem Warp.rebuild_rest (w : Warp) : w.rebuild.threads = w.threads ∧ w.rebuild.freeze = w.freeze
    ∧ w.rebuild.edits = w.edits ∧ w.rebuild.joins = w.joins ∧ w.rebuild.s = w.s ∧ w.rebuild.trappc = w.trappc
    ∧ w.rebuild.trapinfo = w.trapinfo := by
  unfold Warp.rebuild Warp.fitTable
  split <;> exact ⟨rfl, rfl, rfl, rfl, rfl, rfl, rfl⟩

/-! ### TRET -/

/-- A thread as TRET leaves it, where `mask` is the trap's. -/
def Thread.resumedBy (mask : Mask) (t : Nat) (th : Thread) : Thread := if bitOf mask t then { th with resume := true } else th

/-- The warp whose table TRET rebuilds. -/
def Warp.thawed (w : Warp) : Warp :=
  { w with freeze := none, double := none, edits := [], threads := (w.threads.del 32).map (fun c =>
      (c.1, Thread.resumedBy (w.trapinfo.setWidth 32) c.1 c.2)) }

theorem Warp.trapReturn_eq (w : Warp) : w.trapReturn = (w.edits.foldl Warp.edit w).thawed.rebuild := rfl

theorem Thread.resumedBy_eq (mask : Mask) (t : Nat) (th : Thread) :
    Thread.resumedBy mask t th = { th with resume := th.resume || bitOf mask t } := by
  unfold Thread.resumedBy
  split
  next h => rw [h, Bool.or_true]
  next h => rw [Bool.eq_false_iff.mpr h, Bool.or_false]

theorem bitOf_trapinfo (x : Word) {t : Nat} (ht : t < 32) : bitOf (x.setWidth 32) t = x.getLsbD t := by
  rw [bitOf, BitVec.getLsbD_setWidth, decide_eq_true ht, Bool.true_and]

theorem Warp.thawed_get? (w : Warp) {t : Nat} (ht : t < 32) : w.thawed.threads.get? t
    = (w.threads.get? t).map (fun th => { th with resume := th.resume || w.trapinfo.getLsbD t }) := by
  refine (SMap.get?_map (β := Thread) (w.threads.del 32) (Thread.resumedBy (w.trapinfo.setWidth 32)) t).trans ?_
  rw [SMap.get?_del_ne _ (by omega)]
  refine congrArg (fun f => Option.map f (w.threads.get? t)) (funext fun th => ?_)
  rw [Thread.resumedBy_eq, bitOf_trapinfo _ ht]

theorem Warp.thawed_no_handler (w : Warp) : w.thawed.threads.get? 32 = none := by
  refine (SMap.get?_map (β := Thread) (w.threads.del 32) (Thread.resumedBy (w.trapinfo.setWidth 32)) 32).trans ?_
  rw [SMap.get?_del_self, Option.map_none]

theorem Warp.thawed_thread (w : Warp) {t : Nat} (ht : t < 32) :
    (w.thawed.thread t).life = (w.thread t).life ∧ (w.thawed.thread t).pc = (w.thread t).pc := by
  simp only [Warp.thread, SMap.get, w.thawed_get? ht]
  cases w.threads.get? t <;> exact ⟨rfl, rfl⟩

theorem State.trapReturn_warp? {s : State} {slot : Nat} {w : Warp} (h : s.warp? slot = some w) :
    (s.trapReturn slot).warp? slot = some w.trapReturn := by
  have hupd := (s.warp?_updWarp slot Warp.trapReturn).trans (congrArg (Option.map Warp.trapReturn) h)
  exact hupd

/-- Settles O41: TRET rebuilds the thawed warp's table; each selector writes its own field. -/
theorem returnFromTrap : Obligations.ReturnFromTrap := by
  intro s slot w t k x th
  refine ⟨fun hw => ?ret, Warp.edit_uniform, fun hk hth => ?thread, th.edit_v x, ⟨rfl, rfl, rfl, rfl, rfl⟩, fun hx => ?depth,
    th.edit_ret x, th.edit_f x, fun h0 h3 =>
    ⟨_, th.edit_arrival x h0 h3, editArrival_self .., fun j hj => editArrival_ne _ _ hj⟩⟩
  case ret =>
    intro v
    obtain ⟨hjoins, htrappc, htrapinfo⟩ := w.edits_onlyEdited w.edits
    obtain ⟨hthreads, hfreeze, hedits, hj, hs, hpc, hinfo⟩ := v.thawed.rebuild_rest
    obtain ⟨hage, hentered⟩ := v.thawed.rebuild_table
    refine ⟨_, State.trapReturn_warp? hw, hfreeze, hedits, ?_, fun t th ht hth => ?_, hage, fun hserial t ht hl => ?_,
      hj.trans hjoins, hs, hpc.trans htrappc, hinfo.trans htrapinfo⟩
    · exact (congrArg (SMap.get? · 32) hthreads).trans v.thawed_no_handler
    · refine (congrArg (SMap.get? · t) hthreads).trans ((v.thawed_get? ht).trans ?_)
      rw [hth, ← htrapinfo]
      rfl
    · obtain ⟨hlife, hpc'⟩ := v.thawed_thread ht
      rw [← hpc']
      exact hentered hserial t ht (hlife.trans hl)
  case thread =>
    refine ⟨w.threads.upd t (fun th => th.edit k x), Warp.edit_thread hk, ?_, fun u hu => SMap.get?_upd_ne _ _ hu⟩
    rw [SMap.get?_upd_self, hth, Option.map_some]
  case depth =>
    refine ⟨_, th.edit_depth x, ?_, fun i hi => ?_⟩
    · rw [setDepth_length, Nat.min_eq_left hx]
    · rw [Nat.min_eq_left hx]
      exact setDepth_getD _ hi

end Sys2Proof.Machine
end

section
/-! Guards and faults at a syllable: what the judgement gives, in the order of R337, and what a faulting or skipped syllable
leaves. With it, O42, O43 and O49. -/

namespace Sys2Proof.Machine

/-- Settles O42: each of the operations is one `onOp`, which a false guard passes. -/
theorem guardFalse : Obligations.GuardFalse := by
  intro g d a b c ty rm nf x y m k z u n j off
  refine ⟨?_, ?_, ?_, ?_, ?_, ?_, ?_, ?_, ?_, ?_, ?_, ?_⟩
  all_goals exact fun s iss w p h hg hj => onOp_off h hg hj

/-! ### The judgement (R337) -/

section
variable {s : State} {iss : Issue} {w : Warp} {p : Path} {i : Instr} {on : Bool}

theorem judge_six : s.judge iss w p i on true
    = if staticBad p.t i || on then some ⟨6, p.next + 1, expOf i, iss.word p⟩ else s.judge iss w p i on false := by
  cases hbad : staticBad p.t i <;> cases on <;> simp [State.judge, hbad, Path.flt]

theorem judge_static (h : staticBad p.t i = true) :
    s.judge iss w p i on false = some ⟨6, p.next + 1, expOf i, iss.word p⟩ := by
  simp [State.judge, h, Path.flt]

/-- A misuse in a routine comes next. -/
theorem judge_routine (h : staticBad p.t i = false) (hsave : w.save = some .routine) (hr : routineForbids i = true) :
    s.judge iss w p i true false = some ⟨27, p.next + 1, expOf i, iss.word p⟩ := by
  simp [State.judge, h, hsave, hr, Path.flt]

/-- Then the role. -/
theorem judge_role {k : Nat} (h : staticBad p.t i = false) (hsave : w.save = none) (hu : unitRole i = some k)
    (hk : k ≠ w.kind) : s.judge iss w p i true false = some ⟨18, p.next + 1, expOf i, iss.word p⟩ := by
  have hbad : s.roleBad w i = true := by simp [State.roleBad, hu, hk]
  simp [State.judge, h, hsave, hbad, Path.flt]

/-- Then the token. -/
theorem judge_token (h : staticBad p.t i = false) (hsave : w.save = none) (hrole : s.roleBad w i = false)
    (hneeds : needsToken i = true) (htok : s.holdsToken iss.warp w = false) :
    s.judge iss w p i true false = some ⟨19, p.next + 1, expOf i, iss.word p⟩ := by
  simp [State.judge, h, hsave, hrole, hneeds, htok, Path.flt]

/-- Only a command of a unit needs the token. -/
theorem needsToken_of_noUnit (h : unitRole i = none) : needsToken i = false := by
  unfold needsToken
  split
  iterate 4 · cases h
  · rfl

/-- Then a register that is not held. -/
theorem judge_unheld {x : Word} (h : staticBad p.t i = false) (hx : unheld w i = some x) (hr : routineForbids i = false)
    (hu : unitRole i = none) : s.judge iss w p i on false = some ⟨23, p.next + 1, expOf i, x⟩ := by
  have hrole : s.roleBad w i = false := by simp [State.roleBad, hu]
  simp [State.judge, h, hr, hrole, needsToken_of_noUnit hu, hx, Path.flt]

/-- Then one that is pending. -/
theorem judge_pending {x : Word} (h : staticBad p.t i = false) (hr : routineForbids i = false) (hu : unitRole i = none)
    (hheld : unheld w i = none) (hx : s.pending iss.warp p.t i = some x) :
    s.judge iss w p i true false = some ⟨13, p.next + 1, expOf i, x⟩ := by
  have hrole : s.roleBad w i = false := by simp [State.roleBad, hu]
  simp [State.judge, h, hr, hrole, needsToken_of_noUnit hu, hheld, hx, Path.flt]

end

/-! ### Operands that fault -/

theorem sendBody_bad {opcode : Nat} {dst : Option (BitVec 8)} {mk : State → Issue → Warp → Path → CmdBody} {s : State}
    {iss : Issue} {w : Warp} {p : Path} (hbad : (mk s iss w p).ok (s.windowSize iss.warp w) = false) :
    sendBody opcode dst mk s iss w p = (s, .error (iss.fltW p 22)) := by
  simp [sendBody, hbad]

theorem taskBody_unaligned {opcode : Nat} {a : Operand} {mk : Word → CmdBody} {s : State} {iss : Issue} {w : Warp} {p : Path}
    (ha : (s.rd iss w p a).toNat % 64 ≠ 0) : taskBody opcode a mk s iss w p = (s, .error (p.flt 7 (s.rd iss w p a))) := by
  simp [taskBody, ha]

theorem taskBody_full {opcode : Nat} {a : Operand} {mk : Word → CmdBody} {s : State} {iss : Issue} {w : Warp} {p : Path}
    (ha : (s.rd iss w p a).toNat % 64 = 0) (hfull : p.overflows iss.setB = true) :
    taskBody opcode a mk s iss w p = (s, .error (p.flt 14 (BitVec.ofNat 64 (iss.setB.getD 0)))) := by
  simp [taskBody, ha, hfull]

/-- Settles O43: the judgement's answers in their order; descriptors, addresses and flags fault in the operation itself. -/
theorem faultingSyllables : Obligations.FaultingSyllables := by
  refine ⟨fun g d a b c ty sat => ?judged, fun g x y a => ⟨?cpy, ?vsw, ?align, ?full⟩⟩
  case judged =>
    intro i
    refine ⟨fun s iss w p f h hj => onOp_wrong h ((Bool.and_false _).symm ▸ hj), fun s iss w p r h hon hbad hheld hg x hx =>
      ?pending, fun s iss w p i on => judge_six, fun s iss w p i on h => judge_static h,
      fun s iss w p i x on h hx hr hu => judge_unheld h hx hr hu, fun s iss w p i k h hsave hu hk => judge_role h hsave hu hk,
      fun s iss w p acc str j h hsave hkind htok => judge_token h hsave ?mat rfl htok,
      fun s iss w p i h hsave hr => judge_routine h hsave hr⟩
    case pending =>
      subst hg
      refine onOp_wrong h ?_
      rw [hon]
      exact judge_pending hbad rfl rfl hheld hx
    case mat => simp [State.roleBad, unitRole, hkind]
  case cpy => exact fun s iss w p h hbad => onOp_error h rfl (sendBody_bad hbad)
  case vsw => exact fun s iss w p h hbad => onOp_error h rfl (sendBody_bad hbad)
  case align => exact fun s iss w p h ha => onOp_error h rfl (taskBody_unaligned ha)
  case full => exact fun s iss w p h hb => onOp_error h rfl (taskBody_full hb.1 hb.2)

/-! ### Words of the spec -/

/-- Settles O49: the decoder on ten words. -/
theorem decodedWords : Obligations.DecodedWords :=
  ⟨rfl, rfl, rfl, rfl, rfl, rfl, rfl, rfl, rfl, rfl⟩

end Sys2Proof.Machine
end

section
/-! The end of an issue: what a commit writes, and the warp of a lone faulting thread from the issue's end to its trap. With
it, O44 and O45. -/

namespace Sys2Proof.Machine

/-! ### A path that sends nothing -/

theorem commitPath_empty (s : State) (iss : Issue) (ok : List Path) {p : Path} (h : p.fx = []) (ht : p.t ≠ 32) :
    s.commitPath iss ok p = s.updWarp iss.warp (fun w => w.updThread p.t p.committed) := by
  simp [State.commitPath, h, if_neg ht]

/-- Settles O45: the commit of such a path writes its own thread. -/
theorem pathCommits : Obligations.PathCommits := by
  intro s iss ok p w th hw hth ht hfx
  have hcommit := commitPath_empty s iss ok hfx (by omega)
  have hflags : (p.committed th).f = th.f := by simp only [Path.committed, hfx, List.foldl_nil]
  refine ⟨w.updThread p.t p.committed, p.committed th, ?_, ?_, rfl, rfl, rfl, rfl, rfl, rfl, rfl, hflags, rfl,
    fun t hne => SMap.get?_upd_ne _ _ hne, ?_, ?_⟩
  · rw [hcommit, State.warp?_updWarp, hw, Option.map_some]
  · rw [Warp.updThread, SMap.get?_upd_self, hth, Option.map_some]
  · rw [hcommit]
    rfl
  · rw [hcommit]
    rfl

/-! ### A thread that nothing but its joins touches -/

/-- The warp on the slot is neither frozen nor saved and holds `th` as thread `t`, but for what blocks it. -/
def ThreadHeld (slot t : Nat) (th : Thread) (s : State) : Prop :=
  ∃ w b, s.warp? slot = some w ∧ w.freeze = none ∧ w.save = none ∧ w.threads.get? t = some { th with blocked := b }

section
variable {slot t : Nat} {th : Thread}

theorem ThreadHeld.of_warps {s u : State} (h : ThreadHeld slot t th s) (hw : u.warps = s.warps) : ThreadHeld slot t th u := by
  obtain ⟨w, b, hs, hrest⟩ := h
  exact ⟨w, b, by rw [State.warp?, hw]; exact hs, hrest⟩

/-- A change of the warp that leaves the thread. -/
theorem ThreadHeld.updWarp {s : State} (h : ThreadHeld slot t th s) {f : Warp → Warp}
    (hf : ∀ w, (f w).freeze = w.freeze ∧ (f w).save = w.save ∧ (f w).threads = w.threads) :
    ThreadHeld slot t th (s.updWarp slot f) := by
  obtain ⟨w, b, hs, hfreeze, hsave, hth⟩ := h
  obtain ⟨hf1, hf2, hf3⟩ := hf w
  exact ⟨f w, b, by rw [State.warp?_updWarp, hs, Option.map_some], hf1.trans hfreeze, hf2.trans hsave, by rw [hf3, hth]⟩

theorem ThreadHeld.joinApply {s : State} {w : Warp} {b : List Blocked} (hfreeze : w.freeze = none) (hsave : w.save = none)
    (hth : w.threads.get? t = some { th with blocked := b }) (k : Nat) (broke : Bool) :
    ThreadHeld slot t th (s.joinApply slot k w broke) := by
  have hset : ThreadHeld slot t th (s.setWarp slot ((w.setJoin k { w.join k with
      signed := 0, waiters := 0, lost := (w.join k).lost || broke, capture := none }).freeWaiters k (w.join k).waiters)) :=
    ⟨_, _, State.warp?_setWarp_self .., hfreeze, hsave, by
      rw [Warp.freeWaiters, Warp.unblockIf_get?, Warp.setJoin_threads, hth]
      rfl⟩
  unfold State.joinApply
  dsimp only
  split
  · exact hset.of_warps rfl
  · exact hset

theorem ThreadHeld.evalJoins {s : State} (h : ThreadHeld slot t th s) : ThreadHeld slot t th (s.evalJoins slot) := by
  have hn : ∀ n s, ThreadHeld slot t th s → ThreadHeld slot t th (Machine.evalJoins slot n s) := by
    intro n
    induction n with
    | zero => exact fun _ h => h
    | succ n ih =>
      intro s h
      obtain ⟨w, b, hs, hfreeze, hsave, hth⟩ := h
      rw [Machine.evalJoins, hs]
      dsimp only
      split
      · exact ⟨w, b, hs, hfreeze, hsave, hth⟩
      · exact ih _ (ThreadHeld.joinApply hfreeze hsave hth _ _)
  exact hn 16 s h

end

/-! ### The boundary of an issue in which nobody commits -/

theorem findIdx_never {α : Type} (xs : List α) {p : α → Bool} (h : ∀ x, p x = false) : xs.findIdx p = xs.length :=
  List.findIdx_eq_length.mpr fun x _ => h x

theorem State.force_never (s : State) (slot : Nat) {want : StItem → Bool} (h : ∀ i, want i = false) :
    s.force slot want = s := by
  have hpush : s.pushOut slot want = s := by
    rw [State.pushOut, findIdx_never _ h, List.length_reverse, Nat.sub_self]
    rfl
  have hflight : ∀ n core, State.forceFlight core want n s = s := by
    intro n core
    cases n with
    | zero => rfl
    | succ n =>
      have hany : (s.core core).flight.any want = false := List.any_eq_false.mpr fun i _ => by simp [h]
      simp [State.forceFlight, hany]
  rw [State.force, hpush, State.forceCore, hflight]

theorem jsets_nil (s : State) (slot : Nat) : s.jsets slot [] = s := by
  simp only [State.jsets, List.filterMap_nil, List.filter_nil]
  exact List.foldlRecOn (motive := fun u => u = s) (List.range 32) _ rfl fun _ h _ _ => h

theorem boundary_nil (s : State) (iss : Issue) :
    s.boundary iss [] [] = (s.evalJoins iss.warp).evalJoins iss.warp := by
  have hgive : (s.evalJoins iss.warp).tokens iss [] [] = s.evalJoins iss.warp := by simp [State.tokens]
  simp only [State.boundary, actsOf, List.flatMap_nil, jsets_nil, List.foldl_nil]
  simp [State.rings, State.grows, hgive, State.sheds, State.waits]

theorem exits_nil (s : State) {slot : Nat} {w : Warp} (hw : s.warp? slot = some w) (hsave : w.save = none) :
    s.exits slot [] = s := by
  simp only [State.exits, hw, hsave, List.foldl_nil]
  exact (if_neg (by simp)).trans (s.force_never slot fun i => by simp)

/-! ### Its reports -/

theorem filterMap_range_single {α : Type} {n t : Nat} (ht : t < n) {f : Nat → Option α} {x : α} (hx : f t = some x)
    (hne : ∀ u, u ≠ t → f u = none) : (List.range n).filterMap f = [x] := by
  induction n with
  | zero => cases ht
  | succ n ih =>
    rw [List.range_succ, List.filterMap_append]
    rcases Nat.lt_or_eq_of_le (Nat.le_of_lt_succ ht) with hlt | rfl
    · rw [ih hlt, List.filterMap_cons_none (hne n (by omega))]
      rfl
    · rw [List.filterMap_cons_some hx, List.filterMap_eq_nil_iff.mpr fun u hu => hne u (Nat.ne_of_lt (List.mem_range.mp hu))]
      rfl

/-- The report of a fault. -/
def PFault.report (f : PFault) (t : Nat) : TrapRep := ⟨t, f.kind, f.syl, f.exp, 0, f.detail⟩

theorem reportsOf_single {iss : Issue} {p : Path} {f : PFault} (hpaths : iss.paths = [p]) (hf : p.fault = some f)
    (ht : p.t < 32) (hbroke : iss.broke = 0) (step : Bool) : reportsOf iss step = [f.report p.t] := by
  have hbit : ∀ u, bitOf iss.broke u = false := fun u => by simp [hbroke, bitOf]
  refine filterMap_range_single (t := p.t) (by omega) ?_ fun u hu => ?_
  · simp [hbit, hpaths, hf, PFault.report]
  · simp [hbit, hpaths, Ne.symm hu]

theorem noteWorld_warps (s : State) (slot : Nat) (rs : List TrapRep) : (s.noteWorld slot rs).warps = s.warps := by
  refine List.foldlRecOn (motive := fun u : State => u.warps = s.warps) rs _ rfl fun u hu r _ => ?_
  split
  · exact hu
  · exact hu

/-- The trap of one thread of a warp that is not saved. -/
theorem traps_single {s : State} {slot : Nat} {w : Warp} (hw : s.warp? slot = some w) (hsave : w.save = none) (addr : Addr56)
    {r : TrapRep} (hr : r.thread ≠ 32) :
    s.traps slot addr [r] = (s.noteWorld slot [r]).takeTrap slot addr [r] := by
  simp [State.traps, hw, hr, hsave]

theorem warpEnd_frozen {s : State} {slot : Nat} {w : Warp} (hw : s.warp? slot = some w) (h : w.freeze.isSome = true) :
    s.warpEnd slot = s := by
  simp [State.warpEnd, hw, h]

theorem Warp.retire_keeps (w : Warp) (addr : Addr56) (mask dying : List Nat) : (w.retire addr mask dying).freeze = w.freeze
    ∧ (w.retire addr mask dying).save = w.save ∧ (w.retire addr mask dying).threads = w.threads := by
  unfold Warp.retire Warp.fitTable
  split <;> dsimp only <;> split <;> exact ⟨rfl, rfl, rfl⟩

theorem State.warp?_updLane (s : State) (l slot : Nat) (f : Lane → Lane) : (s.updLane l f).warp? slot = s.warp? slot := rfl

/-- The state in which the boundary of an issue acts, where the paths of `iss` have all faulted. -/
def State.unwound (s : State) (iss : Issue) : State :=
  let u : State := State.updWarp { s with issue := none, clock := max s.clock (iss.clock0 + iss.total) } iss.warp
    (fun w => w.commitUniform iss [])
  let mask := threadsOf iss.broke ++ iss.paths.map Path.t
  if mask.contains 32 then u else u.updWarp iss.warp (fun w => w.retire iss.addr mask [])

theorem ThreadHeld.unwound {s : State} {iss : Issue} {t : Nat} {th : Thread} (h : ThreadHeld iss.warp t th s) :
    ThreadHeld iss.warp t th (s.unwound iss) := by
  have hcommit : ThreadHeld iss.warp t th (State.updWarp { s with issue := none, clock := max s.clock (iss.clock0 + iss.total) }
      iss.warp (fun w => w.commitUniform iss [])) :=
    (h.of_warps (u := { s with issue := none, clock := max s.clock (iss.clock0 + iss.total) }) rfl).updWarp
      fun _ => ⟨rfl, rfl, rfl⟩
  unfold State.unwound
  dsimp only
  split
  · exact hcommit
  · exact hcommit.updWarp fun w => w.retire_keeps ..

/-- What an issue adds to its lane's record. -/
def Lane.after (iss : Issue) (l : Lane) : Lane := { l with busy := max l.busy (iss.clock0 + iss.total), granted := false }

/-- The end of an issue whose paths have all faulted. -/
theorem finishIssue_faulted {s : State} {iss : Issue} {w : Warp} (hw : s.warp? iss.warp = some w) (hclean : iss.clean = []) :
    s.finishIssue iss = (((((s.unwound iss).boundary iss [] []).exits iss.warp []).traps iss.warp iss.addr
      (reportsOf iss (w.dbg.step && w.freeze.isNone && w.save.isNone))).updLane (laneOf iss.warp)
        (Lane.after iss)).warpEnd iss.warp := by
  simp only [State.finishIssue, hw, hclean, State.presend, lateLdu, exiting, State.finishPairs, List.any_nil,
    List.filter_nil, List.map_nil, ite_self, Bool.false_eq_true, if_false, List.foldl_nil]
  rfl

/-- Settles O44: up to its trap, nothing of the thread changes but what blocks it. -/
theorem faultRollsBack : Obligations.FaultRollsBack := by
  intro s iss w p f th hw hpaths hf ht hbroke hfreeze hsave hth hlife
  have hclean : iss.clean = [] := by simp [Issue.clean, hpaths, hf]
  have hheld : ThreadHeld iss.warp p.t th ((s.unwound iss).boundary iss [] []) := by
    rw [boundary_nil]
    exact (ThreadHeld.unwound ⟨w, th.blocked, hw, hfreeze, hsave, hth⟩).evalJoins.evalJoins
  obtain ⟨w1, b, hw1, hfreeze1, hsave1, hth1⟩ := hheld
  have hnote : (((s.unwound iss).boundary iss [] []).noteWorld iss.warp [f.report p.t]).warp? iss.warp = some w1 := by
    rw [State.warp?, noteWorld_warps]
    exact hw1
  have hne : (f.report p.t).thread ≠ 32 := Nat.ne_of_lt ht
  have htrap := State.warp?_updWarp (((s.unwound iss).boundary iss [] []).noteWorld iss.warp [f.report p.t]) iss.warp
    (fun w => w.trap iss.addr [f.report p.t])
  rw [hnote, Option.map_some] at htrap
  rw [finishIssue_faulted hw hclean, exits_nil _ hw1 hsave1, reportsOf_single hpaths hf ht hbroke,
    traps_single hw1 hsave1 _ hne, State.takeTrap, warpEnd_frozen ((State.warp?_updLane ..).trans htrap) rfl]
  refine ⟨_, Thread.reported [f.report p.t] p.t { th with blocked := b }, htrap,
    (Warp.trap_threads ..).trans (congrArg _ hth1), rfl, rfl, rfl, rfl, rfl, rfl, rfl, rfl, rfl, hlife, rfl, ?_, rfl, rfl⟩
  simp [Thread.reported, PFault.report]

end Sys2Proof.Machine
end

section
/-! The home: what a write leaves of memory, versions and reservations, and the values of atomics. With it, O46. -/

namespace Sys2Proof.Machine

/-! ### Reservations and a write -/

/-- A thread whose reservation goes where `clear` selects it. -/
def Thread.keepResv (clear : Resv → Bool) (th : Thread) : Thread :=
  match th.resv with
  | some r => if clear r then { th with resv := none } else th
  | none => th

theorem Thread.keepResv_resv {clear : Resv → Bool} {th : Thread} {r : Resv} (h : (th.keepResv clear).resv = some r) :
    clear r = false := by
  unfold Thread.keepResv at h
  split at h
  next r' hr =>
    split at h
    · cases h
    next hclear =>
      rw [hr] at h
      rw [← Option.some.inj h]
      exact Bool.eq_false_iff.mpr hclear
  next hr =>
    rw [hr] at h
    cases h

theorem State.clearResv_warp? (s : State) (clear : Nat → Nat → Resv → Bool) (k : Nat) :
    (s.clearResv clear).warp? k = (s.warp? k).map (fun x =>
      { x with threads := x.threads.map (fun c => (c.1, c.2.keepResv (clear k c.1))) }) := by
  refine (congrArg (SMap.get? · k) (List.map_congr_left fun c _ => ?_)).trans
    (SMap.get?_map (β := Warp) s.warps (fun w x =>
      { x with threads := x.threads.map (fun c => (c.1, c.2.keepResv (clear w c.1))) }) k)
  refine congrArg (fun ths => (c.1, { c.2 with threads := ths })) (List.map_congr_left fun d _ => ?_)
  obtain ⟨j, th⟩ := d
  unfold Thread.keepResv
  dsimp only
  cases th.resv with
  | none => rfl
  | some r => exact (apply_ite (Prod.mk j) _ _ _).symm

/-- No thread but the writer holds a reservation on a granule of the n bytes at `a`. -/
def ResvCleared (u : State) (a n slot t : Nat) : Prop := ∀ k w j th r, u.warp? k = some w → w.threads.get? j = some th →
  th.resv = some r → (k, j) ≠ (slot, t) → ¬(a < 32 * r.granule + 32 ∧ 32 * r.granule < a + n)

section
variable (s : State) (w : Writer) (own : Holder) (a : Nat) (b : List Byte)

theorem State.put_mem_mem : (s.put w own (.mem a) b).mem = wrBytes s.mem a b := rfl

theorem State.put_mem_loads : (s.put w own (.mem a) b).loads = s.loads := rfl

theorem State.put_mem_vers : (s.put w own (.mem a) b).vers
    = ⟨s.nextVer, .mem a, rdBytes s.mem a b.length, w.spot, w.issue, w.thread, w.heads, s.clock, w.strong⟩ :: s.vers := rfl

/-- Others than the writer lose their reservations on what it writes (R192). -/
theorem State.put_mem_cleared (slot t : Nat) : ResvCleared (s.put w (.thread slot t) (.mem a) b) a b.length slot t := by
  intro k x j th r hx hth hr hne hhit
  have hx' := (State.clearResv_warp? (s.write w (.mem a) b) (fun w t' r =>
    (decide (a < 32 * r.granule + 32) && decide (32 * r.granule < a + b.length)) && Holder.thread slot t != .thread w t')
    k).symm.trans hx
  obtain ⟨x0, -, rfl⟩ := Option.map_eq_some_iff.mp hx'
  have hth' := (SMap.get?_map (β := Thread) x0.threads (fun j th => th.keepResv (fun r =>
    (decide (a < 32 * r.granule + 32) && decide (32 * r.granule < a + b.length)) && Holder.thread slot t != .thread k j))
    j).symm.trans hth
  obtain ⟨th0, -, rfl⟩ := Option.map_eq_some_iff.mp hth'
  have hkept := Thread.keepResv_resv hr
  have hother : (Holder.thread slot t != .thread k j) = true := by
    refine bne_iff_ne.mpr fun he => hne ?_
    cases he
    rfl
  simp [hhit, hother] at hkept

end

/-- The bytes outside n bytes at `a` are those of `s`. -/
def SameOutside (s u : State) (a n : Nat) : Prop := ∀ x, (x < a ∨ a + n ≤ x) → rdByte u.mem x = rdByte s.mem x

theorem sameOutside_of_mem {s u : State} {a : Nat} {b : List Byte} (h : u.mem = wrBytes s.mem a b) {n : Nat}
    (hn : b.length = n) : SameOutside s u a n := by
  intro x hx
  rw [h]
  exact rdByte_wrBytes_out _ _ _ (hn.symm ▸ hx)

theorem ResvCleared.of_warps {u v : State} {a n slot t : Nat} (h : ResvCleared u a n slot t) (hw : v.warps = u.warps) :
    ResvCleared v a n slot t := fun k w j th r hk => h k w j th r ((congrArg (SMap.get? · k) hw).symm.trans hk)

theorem CoresOnly.vers {s t : State} (h : CoresOnly s t) : t.vers = s.vers := by
  obtain ⟨cs, rfl⟩ := h
  rfl

theorem CoresOnly.loads {s t : State} (h : CoresOnly s t) : t.loads = s.loads := by
  obtain ⟨cs, rfl⟩ := h
  rfl

theorem CoresOnly.warps {s t : State} (h : CoresOnly s t) : t.warps = s.warps := by
  obtain ⟨cs, rfl⟩ := h
  rfl

/-! ### Numbers of bytes -/

theorem leNat_lt (b : List Byte) : leNat b < 2 ^ (8 * b.length) := by
  induction b with
  | nil => exact Nat.one_pos
  | cons x r ih =>
    have hx := x.isLt
    rw [leNat, List.length_cons, Nat.mul_succ, Nat.pow_add]
    omega

theorem rdNat_lt (m : Memory) (a n : Nat) : rdNat m a n < 2 ^ (8 * n) := by
  have h := leNat_lt (rdBytes m a n)
  rwa [rdBytes_length] at h

/-- A number that was written reads back on its bytes. -/
theorem rdNat_wrBytes (m : Memory) (a n x : Nat) : rdNat (wrBytes m a (leBytes n x)) a n = x % 2 ^ (8 * n) := by
  have h := rdBytes_wrBytes m a (leBytes n x)
  rw [leBytes_length] at h
  rw [rdNat, h, leNat_leBytes, Nat.pow_mul]

/-! ### Atomics (R193) -/

/-- The new value of an atomic, where `old`, `B` and `C` are numbers of its width. -/
def atomValue (op : AtomOp) (dbl : Bool) (old B C : Nat) : Nat :=
  let n := dblBytes dbl
  let sg (x : Nat) : Int := sgnOf (8 * n) x
  match op with
  | .add => (old + B) % 2 ^ (8 * n)
  | .minI => if sg B < sg old then B else old
  | .maxI => if sg old < sg B then B else old
  | .minN => min old B
  | .maxN => max old B
  | .and => old &&& B
  | .or => old ||| B
  | .xor => old ^^^ B
  | .xchg => B
  | .cas => if old = C then B else old
  | .incwrap => if B ≤ old then 0 else old + 1
  | .fadd => (fAdd (if dbl then fp64 else fp32) .rne false old B).1 % 2 ^ (8 * n)
  | .fmin => (fMinMax (if dbl then fp64 else fp32) false old B).1 % 2 ^ (8 * n)
  | .fmax => (fMinMax (if dbl then fp64 else fp32) true old B).1 % 2 ^ (8 * n)

theorem sgnOf_of_lt {w x : Nat} (h : x < 2 ^ w) :
    sgnOf w x = if x < 2 ^ (w - 1) then (x : Int) else (x : Int) - 2 ^ w := by
  rw [sgnOf, Nat.mod_eq_of_lt h]

theorem dblBytes_bits (dbl : Bool) : (if dbl then 64 else 32) = 8 * dblBytes dbl := by
  cases dbl <;> rfl

theorem atomNew_value (op : AtomOp) (dbl : Bool) {old B : Nat} (C : Nat) (hold : old < 2 ^ (8 * dblBytes dbl))
    (hB : B < 2 ^ (8 * dblBytes dbl)) :
    atomNew op dbl old B C % 2 ^ (8 * dblBytes dbl) = atomValue op dbl old B C := by
  have hite : ∀ (c : Prop) [Decidable c], (if c then B else old) < 2 ^ (8 * dblBytes dbl) := fun c _ => by
    split
    · exact hB
    · exact hold
  cases op with
  | add => simp only [atomNew, atomInt, atomValue, dblBytes_bits, Nat.mod_mod]
  | minI =>
    simp only [atomNew, atomInt, atomValue, dblBytes_bits, sgnOf_of_lt hold, sgnOf_of_lt hB]
    exact Nat.mod_eq_of_lt (hite _)
  | maxI =>
    simp only [atomNew, atomInt, atomValue, dblBytes_bits, sgnOf_of_lt hold, sgnOf_of_lt hB]
    exact Nat.mod_eq_of_lt (hite _)
  | minN =>
    simp only [atomNew, atomInt, atomValue, Nat.mod_eq_of_lt (hite _)]
    split <;> omega
  | maxN =>
    simp only [atomNew, atomInt, atomValue, Nat.mod_eq_of_lt (hite _)]
    split <;> omega
  | and => exact Nat.mod_eq_of_lt (Nat.lt_of_le_of_lt Nat.and_le_left hold)
  | or => exact Nat.mod_eq_of_lt (Nat.or_lt_two_pow hold hB)
  | xor => exact Nat.mod_eq_of_lt (Nat.xor_lt_two_pow hold hB)
  | xchg => exact Nat.mod_eq_of_lt hB
  | cas => exact Nat.mod_eq_of_lt (hite _)
  | incwrap =>
    refine Nat.mod_eq_of_lt ?_
    simp only [atomNew, atomInt]
    split <;> omega
  | fadd => rfl
  | fmin => rfl
  | fmax => rfl

/-- What an atomic returns of the old value. -/
def atomAnswer (op : AtomOp) (dbl : Bool) (old : Nat) : Word :=
  match op with
  | .minI | .maxI => BitVec.ofInt 64 (sgnOf (8 * dblBytes dbl) old)
  | _ => BitVec.ofNat 64 old

theorem signExtend_ofNat {w old : Nat} (hw : 0 < w) (h : old < 2 ^ w) :
    (BitVec.ofNat w old).signExtend 64 = BitVec.ofInt 64 (sgnOf w old) := by
  rw [BitVec.signExtend, BitVec.toInt_eq_toNat_bmod, BitVec.toNat_ofNat, Nat.mod_eq_of_lt h, sgnOf_eq_bmod hw h]

theorem atomResult_answer (op : AtomOp) {dbl : Bool} {old : Nat} (h : old < 2 ^ (8 * dblBytes dbl)) :
    atomResult op (8 * dblBytes dbl) old = atomAnswer op dbl old := by
  have hpos : 0 < 8 * dblBytes dbl := by cases dbl <;> decide
  cases op
  case minI => exact signExtend_ofNat hpos h
  case maxI => exact signExtend_ofNat hpos h
  all_goals rfl

/-! ### Performing at the home -/

theorem State.atomRead_coresOnly (s : State) (core : Nat) (i : StItem) : CoresOnly s (s.atomRead core i) :=
  coresOnly_ite (((State.sees_coresOnly ..)).trans (State.acquire_coresOnly ..)) (State.sees_coresOnly ..)

section
variable {s : State} {core a slot t : Nat} {va : Word} {o : Order} {sc : Scope} (hcell : s.cellAt a = false)
include hcell

/-- What warp slot's thread sends to address `a`. -/
def homeItem (a slot t : Nat) (va : Word) (o : Order) (sc : Scope) (k : StKind) : StItem :=
  { kind := k, place := .mem a, va := va, order := o, scope := sc, warp := slot, thread := t }

theorem perform_store (b : List Byte) : s.perform core (homeItem a slot t va o sc (.store b))
    = s.put (s.writerOf core (homeItem a slot t va o sc (.store b)) false) (.thread slot t) (.mem a) b := by
  simp [State.perform, homeItem, hcell, State.cannotRead]

theorem perform_atom_lost (op : AtomOp) (b c : Word) (dbl : Bool) (id : Nat) (hl : s.lost (.mem a) (dblBytes dbl) = true) :
    s.perform core (homeItem a slot t va o sc (.atom op b c dbl (some id))) = s.answers id [] := by
  simp [State.perform, homeItem, hcell, State.cannotRead, StItem.len, hl, State.performLost]

/-- The state in which the atomic's write has been made and its line dropped. -/
def State.atomWritten (s : State) (core a : Nat) (i : StItem) (dbl : Bool) (new : Nat) : State :=
  ((s.atomRead core i).put ((s.atomRead core i).writerOf core i true) (.thread i.warp i.thread) (.mem a)
    (leBytes (dblBytes dbl) new)).dropLine core (.mem a)

theorem perform_atom (op : AtomOp) (b c : Word) (dbl : Bool) (id : Nat) (hl : s.lost (.mem a) (dblBytes dbl) = false) :
    s.perform core (homeItem a slot t va o sc (.atom op b c dbl (some id)))
      = (s.atomWritten core a (homeItem a slot t va o sc (.atom op b c dbl (some id))) dbl
          (atomNew op dbl (rdNat s.mem a (dblBytes dbl)) (b.toNat % 2 ^ (8 * dblBytes dbl))
            (c.toNat % 2 ^ (8 * dblBytes dbl)))).answer id
        (atomResult op (8 * dblBytes dbl) (rdNat s.mem a (dblBytes dbl))) := by
  simp [State.perform, homeItem, hcell, State.cannotRead, StItem.len, hl, State.atomWritten, State.home, rdNat]

/-- The write of a conditional store whose reservation stands, or none. -/
def State.condWritten (s : State) (core a : Nat) (i : StItem) (dbl : Bool) (b : Word) (held : Bool) : State :=
  if held then (s.dropLine core (.mem a)).put ((s.dropLine core (.mem a)).writerOf core i true) (.thread i.warp i.thread)
    (.mem a) (leBytes (dblBytes dbl) b.toNat) else s.dropLine core (.mem a)

theorem perform_scond (b : Word) (dbl : Bool) (id : Nat) (held : Bool)
    (hheld : (s.resvOf slot t).any (fun r => r.granule == a / 32) = held) :
    s.perform core (homeItem a slot t va o sc (.scond b dbl id))
      = ((s.condWritten core a (homeItem a slot t va o sc (.scond b dbl id)) dbl b held).dropResv slot t).answer id
        (if held then 1 else 0) := by
  subst hheld
  cases hr : s.resvOf slot t with
  | none => simp [State.perform, homeItem, hcell, State.cannotRead, State.condWritten, hr]
  | some r =>
    by_cases hg : r.granule = a / 32 <;>
      simp [State.perform, homeItem, hcell, State.cannotRead, StItem.len, State.condWritten, hr, granuleOf, hg]

end

theorem State.answer_loads {s : State} {id : Nat} {l : Load} (h : s.loads.get? id = some l) (v : List Word) :
    ∃ l', (s.answers id v).loads.get? id = some l' ∧ l'.val = some v := by
  refine ⟨{ l with val := some v }, ?_, rfl⟩
  rw [State.answers, SMap.get?_upd_self, h]
  rfl

section
variable {s : State} {core a : Nat} {i : StItem} {dbl : Bool}

theorem State.atomWritten_mem (new : Nat) :
    (s.atomWritten core a i dbl new).mem = wrBytes s.mem a (leBytes (dblBytes dbl) new) := by
  rw [State.atomWritten, (State.dropLine_coresOnly ..).mem, State.put_mem_mem, (State.atomRead_coresOnly ..).mem]

theorem State.atomWritten_loads (new : Nat) : (s.atomWritten core a i dbl new).loads = s.loads := by
  rw [State.atomWritten, (State.dropLine_coresOnly ..).loads, State.put_mem_loads, (State.atomRead_coresOnly ..).loads]

theorem State.atomWritten_cleared (new : Nat) :
    ResvCleared (s.atomWritten core a i dbl new) a (dblBytes dbl) i.warp i.thread := by
  have h := State.put_mem_cleared (s.atomRead core i) ((s.atomRead core i).writerOf core i true) a
    (leBytes (dblBytes dbl) new) i.warp i.thread
  rw [leBytes_length] at h
  exact h.of_warps (State.dropLine_coresOnly ..).warps

theorem State.condWritten_held (b : Word) : let u := s.condWritten core a i dbl b true
    u.mem = wrBytes s.mem a (leBytes (dblBytes dbl) b.toNat) ∧ ResvCleared u a (dblBytes dbl) i.warp i.thread := by
  refine ⟨?_, ?_⟩
  · rw [State.condWritten, if_pos rfl, State.put_mem_mem, (State.dropLine_coresOnly ..).mem]
  · have h := State.put_mem_cleared (s.dropLine core (.mem a)) ((s.dropLine core (.mem a)).writerOf core i true) a
      (leBytes (dblBytes dbl) b.toNat) i.warp i.thread
    rwa [leBytes_length] at h

theorem State.condWritten_loads (b : Word) (held : Bool) : (s.condWritten core a i dbl b held).loads = s.loads := by
  cases held with
  | true => exact (State.put_mem_loads ..).trans (State.dropLine_coresOnly ..).loads
  | false => exact (State.dropLine_coresOnly s core (.mem a)).loads

end

/-! ### The reservation that a conditional store ends -/

theorem State.dropResv_resvOf (s : State) (slot t : Nat) : (s.dropResv slot t).resvOf slot t = none := by
  rw [State.resvOf, State.dropResv, State.warp?_updWarp]
  cases s.warp? slot with
  | none => rfl
  | some w =>
    simp only [Option.map_some, Option.bind_some, Warp.thread, SMap.get, Warp.updThread, SMap.get?_upd_self]
    cases w.threads.get? t <;> rfl

theorem ResvCleared.dropResv {u : State} {a n slot t : Nat} (h : ResvCleared u a n slot t) :
    ResvCleared (u.dropResv slot t) a n slot t := by
  intro k w j th r hw hth hr hne
  by_cases hk : k = slot
  · subst hk
    rw [State.dropResv, State.warp?_updWarp] at hw
    obtain ⟨w0, hw0, rfl⟩ := Option.map_eq_some_iff.mp hw
    have hj : j ≠ t := fun he => hne (by rw [he])
    rw [Warp.updThread, SMap.get?_upd_ne _ _ hj] at hth
    exact h k w0 j th r hw0 hth hr hne
  · have hw' : u.warp? k = some w := (SMap.get?_upd_ne u.warps _ hk).symm.trans hw
    exact h k w j th r hw' hth hr hne

/-- Settles O46: each item's performance is one write at its home, with its answer. -/
theorem homeOperations : Obligations.HomeOperations := by
  intro s core a va o sc slot t hcell item only cleared
  refine ⟨fun b => ?store, fun op b c dbl id l hid => ⟨fun hl => ?lost, fun hl => ?atom⟩, fun b dbl id l hid => ?scond⟩
  case store =>
    intro u
    have hu : u = _ := perform_store hcell b
    rw [hu]
    exact ⟨rdBytes_wrBytes s.mem a b, sameOutside_of_mem (State.put_mem_mem ..) rfl, State.put_mem_cleared _ _ _ _ _ _,
      _, State.put_mem_vers .., rfl, rfl, rfl, rfl⟩
  case lost =>
    have hu := perform_atom_lost (core := core) (slot := slot) (t := t) (va := va) (o := o) (sc := sc) hcell op b c dbl id hl
    have hloads := State.answer_loads hid []
    rw [← hu] at hloads
    have hmem := congrArg (fun u : State => u.mem) hu
    exact ⟨hmem, hloads⟩
  case atom =>
    have hold := rdNat_lt s.mem a (dblBytes dbl)
    have hmod := Nat.mod_lt b.toNat (Nat.two_pow_pos (8 * dblBytes dbl))
    have hu := perform_atom (core := core) (slot := slot) (t := t) (va := va) (o := o) (sc := sc) hcell op b c dbl id hl
    have hmem := (congrArg (fun u : State => u.mem) hu).trans (State.atomWritten_mem ..)
    have hwarps := congrArg (fun u : State => u.warps) hu
    refine ⟨sameOutside_of_mem hmem (leBytes_length ..), ResvCleared.of_warps (n := dblBytes dbl)
      (State.atomWritten_cleared _) hwarps, ?_, ?_⟩
    · obtain ⟨l', hl', hval⟩ := State.answer_loads ((congrArg (SMap.get? · id) (State.atomWritten_loads ..)).trans hid)
        [atomResult op (8 * dblBytes dbl) (rdNat s.mem a (dblBytes dbl))]
      refine ⟨l', (congrArg (SMap.get? · id) (congrArg (fun u : State => u.loads) hu)).trans hl', hval.trans ?_⟩
      rw [atomResult_answer op hold]
      rfl
    · refine (congrArg (rdNat · a (dblBytes dbl)) hmem).trans ?_
      rw [rdNat_wrBytes, atomNew_value op dbl _ hold hmod]
      rfl
  case scond =>
    intro u n held
    have hu : u = _ := perform_scond hcell b dbl id held rfl
    refine ⟨fun hh => ?_, fun hh => ?_, ?_, ?_⟩
    · rw [hh] at hu
      obtain ⟨hmem, hclear⟩ := State.condWritten_held (s := s) (core := core) (a := a) (dbl := dbl)
        (i := homeItem a slot t va o sc (.scond b dbl id)) b
      have hmemu := (congrArg (fun u : State => u.mem) hu).trans hmem
      have hwarps := congrArg (fun u : State => u.warps) hu
      exact ⟨(congrArg (rdNat · a (dblBytes dbl)) hmemu).trans (rdNat_wrBytes ..),
        sameOutside_of_mem hmemu (leBytes_length ..), hclear.dropResv.of_warps hwarps⟩
    · rw [hh] at hu
      exact (congrArg (fun u : State => u.mem) hu).trans (State.dropLine_coresOnly s core (.mem a)).mem
    · rw [hu]
      exact State.dropResv_resvOf ..
    · obtain ⟨l', hl', hval⟩ := State.answer_loads (s := (s.condWritten core a
        (homeItem a slot t va o sc (.scond b dbl id)) dbl b held).dropResv slot t)
        ((congrArg (SMap.get? · id) (State.condWritten_loads ..)).trans hid) [if held then 1 else 0]
      exact ⟨l', (congrArg (SMap.get? · id) (congrArg (fun u : State => u.loads) hu)).trans hl', hval⟩

end Sys2Proof.Machine
end

section
/-! Ordered contributions: the order of an application, and the numbers that contributions take. With it, O47. -/

namespace Sys2Proof.Machine

/-! ### Keys (R130) -/

theorem OrdKey.lt_iff (a b : OrdKey) : a.lt b = true ↔ a.cls < b.cls ∨ (a.cls = b.cls ∧ (a.block < b.block
    ∨ (a.block = b.block ∧ (a.rank < b.rank ∨ (a.rank = b.rank ∧ a.seq < b.seq))))) := by
  simp [OrdKey.lt]

theorem OrdKey.lt_asymm {a b : OrdKey} (h : a.lt b = true) : b.lt a = false := by
  rw [Bool.eq_false_iff, ne_eq, OrdKey.lt_iff]
  rw [OrdKey.lt_iff] at h
  omega

theorem OrdKey.not_lt_trans {a b c : OrdKey} (h : b.lt a = false) (h' : c.lt b = false) : c.lt a = false := by
  rw [Bool.eq_false_iff, ne_eq, OrdKey.lt_iff] at *
  omega

/-! ### The order of an application -/

/-- The contributions stand in ascending key. -/
def Ascending (xs : List (Nat × Contrib)) : Prop := xs.Pairwise (fun x y => y.2.key.lt x.2.key = false)

theorem insertContrib_perm (tie : Nat → Nat) (c : Nat × Contrib) (xs : List (Nat × Contrib)) :
    (insertContrib tie c xs).Perm (c :: xs) := by
  induction xs with
  | nil => exact .refl _
  | cons x r ih =>
    rw [insertContrib]
    split
    · exact .refl _
    · exact (ih.cons x).trans (.swap c x r)

theorem ordBefore_not_lt {tie : Nat → Nat} {c x : Nat × Contrib} (h : ordBefore tie c x = true) :
    x.2.key.lt c.2.key = false := by
  simp only [ordBefore, Bool.or_eq_true, Bool.and_eq_true, Bool.not_eq_true'] at h
  rcases h with h | ⟨h, -⟩
  · exact OrdKey.lt_asymm h
  · exact h

theorem not_lt_of_not_ordBefore {tie : Nat → Nat} {c x : Nat × Contrib} (h : ¬ordBefore tie c x = true) :
    c.2.key.lt x.2.key = false := by
  simp only [ordBefore, Bool.or_eq_true, not_or] at h
  exact Bool.eq_false_iff.mpr h.1

theorem insertContrib_ascending {tie : Nat → Nat} (c : Nat × Contrib) {xs : List (Nat × Contrib)} (h : Ascending xs) :
    Ascending (insertContrib tie c xs) := by
  induction xs with
  | nil => exact List.pairwise_singleton _ c
  | cons x r ih =>
    obtain ⟨hx, hr⟩ := List.pairwise_cons.mp h
    rw [insertContrib]
    split
    next hbefore =>
      have hcx := ordBefore_not_lt hbefore
      refine List.pairwise_cons.mpr ⟨fun y hy => ?_, h⟩
      rcases List.mem_cons.mp hy with rfl | hy
      · exact hcx
      · exact OrdKey.not_lt_trans hcx (hx y hy)
    next hafter =>
      refine List.pairwise_cons.mpr ⟨fun y hy => ?_, ih hr⟩
      rcases List.mem_cons.mp ((insertContrib_perm tie c r).mem_iff.mp hy) with rfl | hy
      · exact not_lt_of_not_ordBefore hafter
      · exact hx y hy

theorem foldl_insertContrib (tie : Nat → Nat) (cs acc : List (Nat × Contrib)) (h : Ascending acc) :
    (cs.foldl (fun r c => insertContrib tie c r) acc).Perm (acc ++ cs)
      ∧ Ascending (cs.foldl (fun r c => insertContrib tie c r) acc) := by
  induction cs generalizing acc with
  | nil => exact ⟨by rw [List.append_nil]; exact .refl _, h⟩
  | cons c cs ih =>
    obtain ⟨hperm, hasc⟩ := ih (insertContrib tie c acc) (insertContrib_ascending c h)
    refine ⟨hperm.trans ?_, hasc⟩
    exact ((insertContrib_perm tie c acc).append_right cs).trans List.perm_middle.symm

theorem zipIdx_map_snd {α : Type} (cs : List α) : (cs.zipIdx.map (fun x => (x.2, x.1))).map (·.2) = cs := by
  rw [List.map_map]
  exact List.zipIdx_map_fst 0 cs

theorem ordered_perm (tie : Nat → Nat) (cs : List Contrib) : (ordered tie cs).Perm cs := by
  have h := (foldl_insertContrib tie (cs.zipIdx.map (fun x : Contrib × Nat => (x.2, x.1))) [] .nil).1.map (·.2)
  rwa [List.nil_append, zipIdx_map_snd] at h

theorem ordered_ascending (tie : Nat → Nat) (cs : List Contrib) :
    (ordered tie cs).Pairwise (fun x y => y.key.lt x.key = false) :=
  List.pairwise_map.mpr (foldl_insertContrib tie (cs.zipIdx.map (fun x : Contrib × Nat => (x.2, x.1))) [] .nil).2

/-! ### The application -/

/-- The contribution is one of those that the application takes. -/
def takes (a : Nat) (dbl : Bool) (take : Contrib → Bool) (c : Contrib) : Bool := c.pa == a && c.dbl == dbl && take c

/-- The contributions of an application, in its order. -/
def State.taken (s : State) (a : Nat) (dbl : Bool) (take : Contrib → Bool) : List Contrib :=
  ordered (Config.ordTie s.tick) (s.ordq.filter (takes a dbl take))

/-- Their sum, rounded at each addition. -/
def State.folded (s : State) (a : Nat) (dbl : Bool) (take : Contrib → Bool) : Nat :=
  (s.taken a dbl take).foldl (fun v c => (fAdd (if dbl then fp64 else fp32) .rne false v
    (c.val.toNat % 2 ^ (8 * dblBytes dbl))).1) (rdNat s.mem a (dblBytes dbl))

section
variable (s : State) (a : Nat) (dbl : Bool) (take : Contrib → Bool) (by_ : Writer) (own : Holder)

/-- The state whose queues the application has emptied of what it takes. -/
def State.unqueued : State :=
  { s with
    ordq := s.ordq.filter (fun c => !takes a dbl take c)
    ordSeq := s.ordSeq.filter (fun c => !(c.pa = a && c.dbl = dbl &&
      take ⟨a, dbl, 0, ⟨c.cls, c.block, c.rank, 0⟩, s.trellis.id, c.launch⟩)) }

theorem State.applyOrd_eq : s.applyOrd a dbl take by_ own
    = if capHit a (dblBytes dbl) then (s.unqueued a dbl take).draw
      else (s.unqueued a dbl take).draw.put by_ own (.mem a) (leBytes (dblBytes dbl) (s.folded a dbl take)) := rfl

theorem State.applyOrd_queues : (s.applyOrd a dbl take by_ own).ordq = s.ordq.filter (fun c => !takes a dbl take c)
    ∧ (s.applyOrd a dbl take by_ own).ordSeq = (s.unqueued a dbl take).ordSeq := by
  rw [State.applyOrd_eq]
  split <;> exact ⟨rfl, rfl⟩

end

theorem capHit_iff (a n : Nat) : capHit a n = true ↔ ∃ k, k < n ∧ inCapFrame (a + k) = true := by
  simp [capHit]

/-! ### Numbers of contributions -/

/-- The count is that of the contribution's thread and word. -/
def counts (c : Contrib) (task : Nat) (x : OrdCount) : Bool :=
  x.pa = c.pa && x.dbl == c.dbl && x.launch = c.launch && x.cls = c.key.cls && x.block = c.key.block
    && x.rank = c.key.rank && x.task = task

theorem numbered_seq (s : State) (c : Contrib) (task : Nat) :
    (s.numbered c task).2.key.seq = ((s.ordSeq.find? (counts c task)).map OrdCount.n).getD 0 := rfl

theorem numbered_ordSeq (s : State) (c : Contrib) (task : Nat) : (s.numbered c task).1.ordSeq
    = ⟨c.pa, c.dbl, c.launch, c.key.cls, c.key.block, c.key.rank, task, (s.numbered c task).2.key.seq + 1⟩
      :: s.ordSeq.filter (fun x => !counts c task x) := rfl

/-- The next contribution of the same thread to the same word takes the next number. -/
theorem numbered_next {s : State} {c c' : Contrib} {task : Nat} (hpa : c'.pa = c.pa) (hdbl : c'.dbl = c.dbl)
    (hl : c'.launch = c.launch) (hk : (c'.key.cls, c'.key.block, c'.key.rank) = (c.key.cls, c.key.block, c.key.rank)) :
    ((s.numbered c task).1.numbered c' task).2.key.seq = (s.numbered c task).2.key.seq + 1 := by
  simp only [Prod.mk.injEq] at hk
  obtain ⟨hcls, hblock, hrank⟩ := hk
  rw [numbered_seq, numbered_ordSeq, List.find?_cons_of_pos]
  · rfl
  · simp [counts, hpa, hdbl, hl, hcls, hblock, hrank]

/-- A contribution to another word takes the number that it would have taken. -/
theorem numbered_other {s : State} {c c' : Contrib} {task : Nat} (hpa : c'.pa ≠ c.pa) :
    ((s.numbered c task).1.numbered c' task).2.key.seq = (s.numbered c' task).2.key.seq := by
  have hnot : ∀ x : OrdCount, x.pa = c.pa → counts c' task x = false := fun x hx => by
    simp [counts, hx, Ne.symm hpa]
  have hcond : ∀ x : OrdCount, (!counts c task x && counts c' task x) = counts c' task x := fun x => by
    cases hc : counts c task x with
    | false => simp
    | true =>
      simp only [counts, Bool.and_eq_true, decide_eq_true_eq] at hc
      simp [hnot x hc.1.1.1.1.1.1]
  rw [numbered_seq, numbered_ordSeq, List.find?_cons_of_neg (by simp [hnot]), List.find?_filter, numbered_seq]
  refine congrArg (fun f => ((s.ordSeq.find? f).map OrdCount.n).getD 0) (funext fun x => ?_)
  exact (Bool.decide_and .. |>.trans (by simp only [Bool.decide_eq_true])).trans (hcond x)

/-- After an application that takes all, numbers begin again. -/
theorem numbered_fresh {s : State} {c : Contrib} {task : Nat} (h : ∀ x ∈ s.ordSeq, ¬(x.pa = c.pa ∧ x.dbl = c.dbl)) :
    (s.numbered c task).2.key.seq = 0 := by
  rw [numbered_seq, List.find?_eq_none.mpr]
  · rfl
  · intro x hx hc
    simp only [counts, Bool.and_eq_true, decide_eq_true_eq, beq_iff_eq] at hc
    exact h x hx hc.1.1.1.1.1

/-- Settles O47: an application takes its contributions in the order of their keys and writes their sum once. -/
theorem orderedContributions : Obligations.OrderedContributions := by
  intro s a dbl take by_ own n F mine u
  obtain ⟨hordq, hordSeq⟩ := s.applyOrd_queues a dbl take by_ own
  refine ⟨⟨s.taken a dbl take, ordered_perm .., ordered_ascending .., hordq, fun hcap => ?_, fun hcap => ?_⟩,
    fun c c' task => ⟨numbered_next, numbered_other, fun hpa hdbl htake => numbered_fresh fun x hx hboth => ?_⟩⟩
  · have hu : u = (s.unqueued a dbl take).draw :=
      (s.applyOrd_eq a dbl take by_ own).trans (if_pos ((capHit_iff a n).mpr hcap))
    rw [hu]
    exact ⟨rfl, rfl⟩
  · have hno : ¬capHit a n = true := fun h => by
      obtain ⟨k, hk, hin⟩ := (capHit_iff a n).mp h
      rw [hcap k hk] at hin
      cases hin
    have hu : u = (s.unqueued a dbl take).draw.put by_ own (.mem a) (leBytes (dblBytes dbl) (s.folded a dbl take)) :=
      (s.applyOrd_eq a dbl take by_ own).trans (if_neg hno)
    rw [hu]
    refine ⟨rdNat_wrBytes .., ⟨_, State.put_mem_vers .., rfl, ?_⟩,
      sameOutside_of_mem (State.put_mem_mem ..) (leBytes_length ..)⟩
    exact (rdBytes_length ..).trans (leBytes_length ..)
  · rw [hordSeq] at hx
    have hgone := (List.mem_filter.mp hx).2
    simp [hboth.1, hboth.2, hpa, hdbl, htake] at hgone

end Sys2Proof.Machine
end

section
/-! A step: what is fetched, whose syllable it is, and how much time passes before the machine's own. With it, O48. -/

namespace Sys2Proof.Machine

/-! ### The syllable that is read -/

theorem Issue.reads_eq {iss : Issue} {p : Path} {sl : Slot} {x : Word} (hs : (slots iss.header)[p.next]? = some sl)
    (hx : iss.words[p.next]? = some x) : iss.reads p = decode sl.pos x ∧ iss.word p = x := by
  have hword : iss.word p = x := by rw [Issue.word, List.getD_eq_getElem?_getD, hx, Option.getD_some]
  refine ⟨?_, hword⟩
  rw [Issue.reads, hs, hword]
  rfl

section
variable {s : State} {iss : Issue} {n : Nat} (hi : s.issue = some iss) (hb : s.burst = n + 1)
include hi hb

theorem step_syllable {p : Path} {i : Instr} (hp : iss.current = some p) (hr : iss.reads p = .ok i) :
    step s = exec i { s with burst := n } := by
  simp only [step, State.fetchNext, hi, hb, hp, hr]

theorem step_bad {p : Path} {e : Bad} (hp : iss.current = some p) (hr : iss.reads p = .error e) :
    step s = .next (State.badSyllable { s with burst := n } e (iss.word p)) := by
  simp only [step, State.fetchNext, hi, hb, hp, hr]

theorem step_end (hp : iss.current = none) :
    step s = exec (if iss.serial then .serialIssue else .clauseIssue) { s with burst := n } := by
  simp only [step, State.fetchNext, hi, hb, hp]
  rfl

end

theorem step_noIssue {s : State} (hi : s.issue = none) : step s = exec s.nextEvent.1 s.nextEvent.2 := by
  simp only [step, State.fetchNext, hi]

theorem step_noTurn {s : State} {iss : Issue} (hi : s.issue = some iss) (hb : s.burst = 0) : step s = step (s.park iss) := by
  have hpark : step (s.park iss) = _ := step_noIssue rfl
  rw [hpark]
  simp only [step, State.fetchNext, hi, hb]

/-! ### The next event -/

section
variable {s : State}

theorem nextEvent_overdue {i : Instr} {t : Turn} (h : s.overdue = some (i, t)) :
    s.nextEvent = (i, { s with turn := t }) := by
  simp only [State.nextEvent, h]

theorem nextEvent_agenda {i : Instr} {t : Turn} {rest : List (Instr × Turn)} (h : s.overdue = none)
    (ha : s.agenda = (i, t) :: rest) (hp : s.parked = []) : s.nextEvent = (i, { s with agenda := rest, turn := t }) := by
  simp only [State.nextEvent, h, ha, hp]

theorem nextEvent_parked {i : Instr × Turn} {rest : List (Instr × Turn)} {slot : Nat} {iss : Issue}
    {more : SMap Issue} (h : s.overdue = none) (ha : s.agenda = i :: rest) (hp : s.parked = (slot, iss) :: more) :
    s.nextEvent = (iss.instr, { s with turn := { Turn.zero with ix := slot } }) := by
  obtain ⟨i, t⟩ := i
  simp only [State.nextEvent, h, ha, hp]

theorem nextEvent_own (h : s.overdue = none) (ha : s.agenda = []) : s.nextEvent = ((Config.schedule s.tick).1,
    { s with tick := s.tick + 1, clock := s.clock + s.passes, turn := (Config.schedule s.tick).2 }) := by
  simp only [State.nextEvent, h, ha, State.draw]

end

/-! ### Whose syllable it is -/

theorem Issue.current_eq_none (iss : Issue) : iss.current = none ↔ ∀ p ∈ iss.paths, iss.stand p = none := by
  have hgoing : iss.current = none ↔ iss.going = [] := by
    rw [Issue.current, Option.or_eq_none_iff, List.head?_eq_none_iff]
    exact ⟨And.right, fun h => ⟨by rw [Issue.runner, h]; rfl, h⟩⟩
  rw [hgoing, Issue.going, List.filterMap_eq_nil_iff]

theorem Issue.current_stands {iss : Issue} {p : Path} (h : iss.current = some p) : ∃ q ∈ iss.paths, iss.stand q = some p := by
  refine List.mem_filterMap.mp ?_
  rcases Option.or_eq_some_iff.mp h with hr | ⟨-, hh⟩
  · exact List.mem_of_find?_eq_some hr
  · exact List.mem_of_head? hh

/-! ### The time that passes -/

theorem foldl_min_le_init (ds : List Nat) (c n : Nat) : ds.foldl (fun n d => min n (d - c)) n ≤ n := by
  refine List.foldlRecOn (motive := fun m => m ≤ n) ds _ (Nat.le_refl n) fun m hm d _ => ?_
  exact (Nat.min_le_left ..).trans hm

theorem foldl_min_le_of_mem {ds : List Nat} {d : Nat} (h : d ∈ ds) (c n : Nat) :
    ds.foldl (fun n d => min n (d - c)) n ≤ d - c := by
  obtain ⟨as, bs, rfl⟩ := List.append_of_mem h
  rw [List.foldl_append, List.foldl_cons]
  exact (foldl_min_le_init ..).trans (Nat.min_le_right ..)

/-- Time does not pass beyond the cycle by which an item is due. -/
theorem passes_le_due {s : State} {i : StItem} (hi : i ∈ s.cores.vals.flatMap Core.flight ++ s.warps.vals.flatMap Warp.stq)
    (h : s.clock < i.due) : s.clock + s.passes ≤ i.due := by
  have hmem : i.due ∈ (((s.cores.vals.flatMap Core.flight ++ s.warps.vals.flatMap Warp.stq).map StItem.due
      ++ (s.cores.vals.flatMap Core.flight ++ s.warps.vals.flatMap Warp.stq).map StItem.lapse).filter
      (s.clock < ·)) :=
    List.mem_filter.mpr ⟨List.mem_append.mpr (.inl (List.mem_map.mpr ⟨i, hi, rfl⟩)), decide_eq_true h⟩
  have hle : s.passes ≤ i.due - s.clock := foldl_min_le_of_mem hmem _ _
  omega

/-- Settles O48: a step fetches a syllable, the end of an issue, or the next event. -/
theorem stepRunsTheDecodedInstruction : Obligations.StepRunsTheDecodedInstruction := by
  intro s iss n
  refine ⟨fun hi hb => ⟨fun p sl x i hp hs hx hd => ?ok, fun p sl x e hp hs hx hd => ?bad, step_end hi hb⟩, step_noTurn,
    iss.current_eq_none, fun p hp => Issue.current_stands hp, fun i t hi ho => ?_, fun i t rest hi ho hp ha => ?_,
    fun i slot rest more hi ho hp ha => ?_, fun hi ho ha => ?_, foldl_min_le_init .., fun core c i hc hmem => passes_le_due ?flight,
    fun slot w i hw hmem => passes_le_due ?queue⟩
  case ok => exact step_syllable hi hb hp ((Issue.reads_eq hs hx).1.trans hd)
  case bad =>
    obtain ⟨hr, hw⟩ := Issue.reads_eq hs hx
    rw [step_bad hi hb hp (hr.trans hd), hw]
  case flight => exact List.mem_append.mpr (.inl (List.mem_flatMap.mpr ⟨c, SMap.mem_vals_of_get? hc, hmem⟩))
  case queue => exact List.mem_append.mpr (.inr (List.mem_flatMap.mpr ⟨w, SMap.mem_vals_of_get? hw, hmem⟩))
  · rw [step_noIssue hi, nextEvent_overdue ho]
  · rw [step_noIssue hi, nextEvent_agenda ho ha hp]
  · rw [step_noIssue hi, nextEvent_parked ho ha hp]
    rfl
  · rw [step_noIssue hi, nextEvent_own ho ha]

end Sys2Proof.Machine
end

section
/-! The machine after reset, and a thread that a launch starts. With it, O52. -/

namespace Sys2Proof.Machine

theorem reset_memOk : State.reset.memOk := ⟨rfl, rfl, rfl⟩

theorem launchThread_eq {r : Rec} {rank : Nat} (h : rank < r.threads) (role : Role) (index : Nat) :
    launchThread r role index rank
      = { Thread.absent with life := .live, pc := role.entry.setWidth 56, rsp := spillTop r index rank } := if_pos h

/-- Settles O52: at reset every map is empty; a started thread is an absent one with its PC and its stack. -/
theorem resetAndStart : Obligations.ResetAndStart := by
  refine ⟨reset_memOk, ⟨rfl, rfl, rfl, rfl, rfl, rfl, fun _ _ => rfl, fun _ => rfl⟩, fun r role index rank h => ?_⟩
  rw [launchThread_eq h]
  exact ⟨rfl, rfl, fun _ => rfl, rfl, rfl, fun _ => rfl, rfl, rfl, rfl, rfl, rfl, rfl⟩

end Sys2Proof.Machine
end

section
/-! The machine's own steps: the rule for an event, the start and the end of an issue, the verdicts of one syllable, the lanes.
With it, O53. -/

namespace Sys2Proof.Machine

/-! ### Events -/

theorem event_noIssue {s : State} (h : s.issue = none) (f : State → State) : s.event f = .next (f s).followed := by
  simp only [State.event, h]
  rfl

/-- A step that is an event takes a state to what the event makes of it. -/
theorem acts_of_event {i : Instr} {ok : State → Prop} {f body : State → State} (hexec : ∀ s, exec i s = s.event body)
    (h : ∀ s, s.issue = none → ok s → body s = f s) : Acts i ok f := fun s hi hok => by
  rw [hexec s, event_noIssue hi, h s hi hok]

/-- A call of the control interface, likewise. -/
theorem calls_of_event {i : Instr} {ok : State → Prop} {f body : State → State} (hexec : ∀ s, exec i s = s.call body)
    (h : ∀ s, s.issue = none → ok s → body s = f s) : Calls i ok f := fun s hi hrel hok => by
  rw [hexec s, State.call, event_noIssue hi, if_pos hrel, h s hi hok]

theorem State.lane_updLane_self (s : State) (l : Nat) (f : Lane → Lane) : (s.updLane l f).lane l = f (s.lane l) :=
  SMap.get_set_self s.lanes Lane.idle l _

/-! ### The start of an issue -/

/-- What the start of an issue asks of the lane, the warp and the code. -/
structure Starts (s : State) (w : Warp) (a : Addr56) (ts : List Nat) (serial : Bool) : Prop where
  warp : s.warp? s.turn.ix = some w
  unparked : s.parked.get? s.turn.ix = none
  active : s.activeSlot (laneOf s.turn.ix) = s.turn.ix
  granted : (s.lane (laneOf s.turn.ix)).granted = true
  keeps : s.mustSwap (laneOf s.turn.ix) = false
  runs : s.stopped w = false
  mode : (w.serial.isSome && w.freeze.isNone) = serial
  chosen : s.choose s.turn.ix w = some (a, ts)
  code : s.lostFetch (coreOf s.turn.ix) w.ctx a = none

theorem issueStep_starts {s : State} {w : Warp} {a : Addr56} {ts : List Nat} {serial : Bool} (hi : s.issue = none)
    (h : Starts s w a ts serial) : s.issueStep serial = .next (s.beginIssue s.turn.ix w a ts) := by
  have hcode : (if w.fetchless a ts then none else s.lostFetch (coreOf s.turn.ix) w.ctx a) = none := by
    rw [h.code, ite_self]
  simp [State.issueStep, hi, h.unparked, State.startIssue, h.warp, h.active, h.granted, h.keeps, h.runs, h.mode, h.chosen,
    hcode]

theorem brokeAt_dbgNone {w : Warp} (h : w.dbg = dbgNone) (a : Addr56) (ts : List Nat) : w.brokeAt a ts = 0 := by
  have hbps : (w.dbg.bps.toList.foldl (fun m b => if b.enable && b.addr == a then m ||| b.mask else m) 0 : Mask) = 0 := by
    rw [h]
    rfl
  unfold Warp.brokeAt
  split
  · rfl
  · rw [hbps]
    exact BitVec.zero_and

theorem fetchless_dbgNone {w : Warp} (h : w.dbgNext.getD w.dbg = dbgNone) (a : Addr56) {ts : List Nat}
    (hts : ∀ t ∈ ts, (w.thread t).far = 0) : w.fetchless a ts = false := by
  have hbroke : Warp.brokeAt { w with dbg := w.dbgNext.getD w.dbg } a ts = 0 := brokeAt_dbgNone h a ts
  rw [Warp.fetchless, hbroke]
  cases ts with
  | nil => rfl
  | cons t ts => simp [hts t List.mem_cons_self, bitOf]

/-- Without breakpoints the paths of an issue are those of its set, at the clause's entry. -/
theorem beginIssue_ok {s : State} {slot : Nat} {w : Warp} {a : Addr56} {ts : List Nat} {f : Word × List Word}
    (hf : (if w.restored then s.dropRestored w.ctx else s).fetchClause (coreOf slot) w.ctx a = .ok f)
    (hdbg : w.dbgNext.getD w.dbg = dbgNone) (hts : ∀ t ∈ ts, t < 32 ∧ (w.thread t).far = 0) :
    ∃ i, (s.beginIssue slot w a ts).issue = some i ∧ i.warp = slot ∧ i.addr = a ∧ i.header = f.1 ∧ i.words = f.2
      ∧ i.judged = false ∧ i.paths = ts.map (Warp.path { w with dbg := w.dbgNext.getD w.dbg } none) := by
  obtain ⟨h, ws⟩ := f
  have hfar : ∀ t ∈ ts, (Warp.thread { w with dbg := w.dbgNext.getD w.dbg } t).far = 0 := fun t ht => (hts t ht).2
  have hless : Warp.fetchless { w with dbg := w.dbgNext.getD w.dbg } a ts = false := by
    refine fetchless_dbgNone (Eq.trans ?_ hdbg) a hfar
    cases w.dbgNext <;> rfl
  have hbroke : Warp.brokeAt { w with dbg := w.dbgNext.getD w.dbg } a ts = 0 := brokeAt_dbgNone hdbg a ts
  have hrun : ts.filter (fun t => !bitOf (0 : Mask) t || decide (t = 32)) = ts :=
    List.filter_eq_self.mpr fun t _ => by simp [bitOf]
  unfold State.beginIssue
  simp only [hless, hbroke, Bool.false_eq_true, if_false, hf]
  exact ⟨_, rfl, rfl, rfl, rfl, rfl, rfl, congrArg _ hrun⟩

/-! ### Verdicts on one syllable (R228, R360) -/

/-- A path votes at syllable n alone, if at all. -/
def VotesAt (n : Nat) (p : Path) : Prop := p.fx.filterMap Fx.voted = [] ∨ p.fx.filterMap Fx.voted = [n]

/-- Every vote of the path is at syllable n. -/
def OnlyAt (n : Nat) (p : Path) : Prop := ∀ x ∈ p.fx, ∀ k, x.voted = some k → k = n

theorem VotesAt.onlyAt {n : Nat} {p : Path} (h : VotesAt n p) : OnlyAt n p := by
  intro x hx k hk
  have hmem : k ∈ p.fx.filterMap Fx.voted := List.mem_filterMap.mpr ⟨x, hx, hk⟩
  rcases h with h | h <;> rw [h] at hmem
  · cases hmem
  · exact List.mem_singleton.mp hmem

theorem filterMap_single_unique {α β : Type} {f : α → Option β} {b : β} {xs : List α} (h : xs.filterMap f = [b]) {x y : α}
    (hx : x ∈ xs) (hy : y ∈ xs) (hfx : (f x).isSome = true) (hfy : (f y).isSome = true) : x = y := by
  induction xs with
  | nil => cases hx
  | cons z zs ih =>
    have hnone : ∀ u ∈ zs, zs.filterMap f = [] → (f u).isSome = true → False := fun u hu hz hs => by
      rw [List.filterMap_eq_nil_iff.mp hz u hu] at hs
      cases hs
    cases hz : f z with
    | none =>
      rw [List.filterMap_cons_none hz] at h
      have hne : ∀ u, (f u).isSome = true → u ∈ z :: zs → u ∈ zs := fun u hu hm => by
        rcases List.mem_cons.mp hm with rfl | hm
        · rw [hz] at hu
          cases hu
        · exact hm
      exact ih h (hne x hfx hx) (hne y hfy hy)
    | some c =>
      rw [List.filterMap_cons_some hz] at h
      have hzs : zs.filterMap f = [] := (List.cons.inj h).2
      rcases List.mem_cons.mp hx with hxz | hxz
      · rcases List.mem_cons.mp hy with hyz | hyz
        · rw [hxz, hyz]
        · exact (hnone y hyz hzs hfy).elim
      · exact (hnone x hxz hzs hfx).elim

/-- A path that votes has one vote. -/
theorem VotesAt.unique {n : Nat} {p : Path} (h : VotesAt n p) {x y : Fx} (hx : x ∈ p.fx) (hy : y ∈ p.fx)
    (hvx : x.voted.isSome = true) (hvy : y.voted.isSome = true) : x = y := by
  rcases h with h | h
  · rw [List.filterMap_eq_nil_iff.mp h x hx] at hvx
    cases hvx
  · exact filterMap_single_unique h hx hy hvx hvy

/-- The path after its verdict, where `known` are the paths with what they perform. -/
def Path.judgedBy (s : State) (known : List Path) (iss : Issue) (w : Warp) (n : Nat) (p : Path) : Path :=
  match p.fx.findSome? (s.voteIn known iss w p.t) with
  | some f => p.cut n f
  | none => p

theorem voteIn_unvoted (s : State) (known : List Path) (iss : Issue) (w : Warp) (t : Nat) {x : Fx} (h : x.voted = none) :
    s.voteIn known iss w t x = none := by
  unfold State.voteIn
  split
  · cases h
  · cases h
  · rfl

theorem findSome?_filter_of {α β : Type} {f : α → Option β} {q : α → Bool} {xs : List α}
    (h : ∀ x ∈ xs, q x = false → f x = none) : (xs.filter q).findSome? f = xs.findSome? f := by
  induction xs with
  | nil => rfl
  | cons x xs ih =>
    have ih := ih fun y hy => h y (List.mem_cons_of_mem _ hy)
    cases hq : q x with
    | true => rw [List.filter_cons_of_pos hq, List.findSome?_cons, List.findSome?_cons, ih]
    | false =>
      rw [List.filter_cons_of_neg (by simp [hq]), ih, List.findSome?_cons, h x List.mem_cons_self hq]

section
variable {s : State} {iss : Issue} {w : Warp} {n : Nat} (hv : ∀ p ∈ iss.paths, OnlyAt n p) (known : List Path)
include hv

theorem verdictsAt_other {k : Nat} (hk : k ≠ n) : s.verdictsAt known w iss k = iss := by
  have hid : iss.paths.map (fun p => match (p.fx.filter (fun x => x.voted == some k)).findSome? (s.voteIn known iss w p.t) with
      | some f => p.cut k f
      | none => p) = iss.paths := by
    refine (List.map_congr_left fun p hp => ?_).trans (List.map_id _)
    have hnone : p.fx.filter (fun x => x.voted == some k) = [] := List.filter_eq_nil_iff.mpr fun x hx hvoted =>
      hk (hv p hp x hx k (beq_iff_eq.mp hvoted))
    rw [hnone]
    rfl
  exact congrArg (fun ps => { iss with paths := ps }) hid

theorem verdictsAt_self : s.verdictsAt known w iss n = { iss with paths := iss.paths.map (Path.judgedBy s known iss w n) } := by
  refine congrArg (fun ps => { iss with paths := ps }) (List.map_congr_left fun p hp => ?_)
  rw [findSome?_filter_of fun x hx hq => ?_]
  · rfl
  · refine voteIn_unvoted s known iss w p.t ?_
    cases hx' : x.voted with
    | none => rfl
    | some k =>
      rw [hx', hv p hp x hx k hx', beq_self_eq_true] at hq
      cases hq

theorem verdictsAt_others {ks : List Nat} (hks : n ∉ ks) : ks.foldl (s.verdictsAt known w) iss = iss := by
  refine List.foldlRecOn (motive := fun i => i = iss) ks _ rfl fun i hi k hk => ?_
  rw [hi]
  exact verdictsAt_other hv known fun he => hks (he ▸ hk)

end

/-! ### A path after its verdict -/

theorem mem_cut {p : Path} {n : Nat} {f : PFault} {x : Fx} (h : x ∈ (p.cut n f).fx) : x ∈ p.fx := by
  rcases List.mem_append.mp h with h | h
  · exact (List.takeWhile_prefix _).subset h
  · exact (List.mem_filter.mp h).1

theorem mem_judgedBy {s : State} {known : List Path} {iss : Issue} {w : Warp} {n : Nat} {p : Path} {x : Fx}
    (h : x ∈ (p.judgedBy s known iss w n).fx) : x ∈ p.fx := by
  unfold Path.judgedBy at h
  split at h
  · exact mem_cut h
  · exact h

theorem judgedBy_t (s : State) (known : List Path) (iss : Issue) (w : Warp) (n : Nat) (p : Path) :
    (p.judgedBy s known iss w n).t = p.t := by
  unfold Path.judgedBy
  split <;> rfl

/-- What a path gives to. -/
def Fx.gift (x : Fx) : Option Nat :=
  match x with
  | .give _ t => some t
  | _ => none

theorem gift_of_unvoted {x : Fx} (h : x.voted = none) : x.gift = none := by
  unfold Fx.gift
  split
  · cases h
  · rfl

/-- A verdict leaves what the path has given. -/
theorem gift_judgedBy {s : State} {known : List Path} {iss : Issue} {w : Warp} {n : Nat} {p : Path} (h : OnlyAt n p) :
    (p.judgedBy s known iss w n).fx.findSome? Fx.gift = p.fx.findSome? Fx.gift := by
  unfold Path.judgedBy
  split
  next f _ =>
    have hfront : (p.fx.takeWhile (fun x => x.voted != some n)).findSome? Fx.gift = none := by
      refine List.findSome?_eq_none_iff.mpr fun x hx => gift_of_unvoted ?_
      cases hx' : x.voted with
      | none => rfl
      | some k =>
        have hne := List.mem_takeWhile_imp hx
        rw [hx', h x ((List.takeWhile_prefix _).subset hx) k hx'] at hne
        simp at hne
    refine List.findSome?_append.trans ?_
    rw [hfront, Option.none_or]
    refine findSome?_filter_of fun x hx hq => ?_
    cases x with
    | give k t =>
      have hk : k = n := h _ hx k rfl
      simp [hk] at hq
    | _ => rfl
  next => rfl

theorem findSome?_map_of {α β : Type} {f : α → Option β} {g : α → α} {xs : List α}
    (hnone : ∀ x ∈ xs, f x = none → f (g x) = none)
    (hsome : ∀ b, xs.findSome? f = some b → ∀ x ∈ xs, f x = some b → f (g x) = some b) :
    (xs.map g).findSome? f = xs.findSome? f := by
  induction xs with
  | nil => rfl
  | cons x xs ih =>
    rw [List.map_cons, List.findSome?_cons, List.findSome?_cons]
    cases hx : f x with
    | none =>
      rw [hnone x List.mem_cons_self hx]
      refine ih (fun y hy => hnone y (List.mem_cons_of_mem _ hy)) fun b hb y hy => ?_
      refine hsome b ?_ y (List.mem_cons_of_mem _ hy)
      rw [List.findSome?_cons, hx]
      exact hb
    | some b =>
      have hb : (x :: xs).findSome? f = some b := by rw [List.findSome?_cons, hx]
      rw [hsome b hb x List.mem_cons_self hx]

/-- The signature of an effect on join j that counts as a reference. -/
def Fx.signature (j : BitVec 4) (x : Fx) : Option Capture :=
  match x with
  | .mx _ k c _ true => if k == j then some c else none
  | _ => none

theorem signature_eq_some {j : BitVec 4} {x : Fx} {r : Capture} (h : x.signature j = some r) :
    ∃ syl flag, x = .mx syl j r flag true := by
  unfold Fx.signature at h
  split at h
  next syl k c flag =>
    split at h
    next hk =>
      cases h
      exact ⟨syl, flag, by rw [beq_iff_eq.mp hk]⟩
    next => cases h
  next => cases h

/-- The reference that a path would be for join j. -/
def Path.offers (expected : Mask) (j : BitVec 4) (p : Path) : Option Capture :=
  if bitOf expected p.t then p.fx.findSome? (Fx.signature j) else none

theorem referenceIn_eq (iss : Issue) (known : List Path) (w : Warp) (j : BitVec 4) : iss.referenceIn known w j
    = (joinSeen iss w iss.paths j).capture.or (known.findSome? (Path.offers (joinSeen iss w iss.paths j).expected j)) := by
  unfold Issue.referenceIn
  dsimp only
  cases (joinSeen iss w iss.paths j).capture with
  | none => rfl
  | some c => rfl

theorem Capture.agrees_self (c : Capture) : c.agrees c = true := by
  simp [Capture.agrees]

section
variable {s : State} {iss : Issue} {w : Warp} {n : Nat} (hv : ∀ p ∈ iss.paths, VotesAt n p)
include hv

/-- The paths after their verdicts, where all have performed what they hold. -/
def Issue.judgedPaths (s : State) (iss : Issue) (w : Warp) (n : Nat) : List Path :=
  iss.paths.map (Path.judgedBy s iss.paths iss w n)

theorem verdictPass_votes (hn : n < 32) (known : List Path) :
    s.verdictPass iss w known = iss.paths.map (Path.judgedBy s known iss w n) := by
  have honly : ∀ p ∈ iss.paths, OnlyAt n p := fun p hp => (hv p hp).onlyAt
  obtain ⟨as, bs, hsplit⟩ := List.append_of_mem (List.mem_range.mpr hn)
  have hnodup : (as ++ n :: bs).Nodup := hsplit ▸ List.nodup_range
  obtain ⟨-, hnb, hdisj⟩ := List.nodup_append'.mp hnodup
  have hna : n ∉ as := fun h => hdisj h List.mem_cons_self
  have honly' : ∀ p ∈ iss.paths.map (Path.judgedBy s known iss w n), OnlyAt n p := fun p hp x hx => by
    obtain ⟨q, hq, rfl⟩ := List.mem_map.mp hp
    exact honly q hq x (mem_judgedBy hx)
  rw [State.verdictPass, hsplit, List.foldl_append, List.foldl_cons, verdictsAt_others honly known hna,
    verdictsAt_self honly known]
  exact congrArg Issue.paths (verdictsAt_others (iss := { iss with paths := iss.paths.map (Path.judgedBy s known iss w n) })
    honly' known (List.nodup_cons.mp hnb).1)

theorem giveOf_judged : giveOf (iss.judgedPaths s w n) = giveOf iss.paths := by
  have hgift : ∀ p ∈ iss.paths, (Path.judgedBy s iss.paths iss w n p).fx.findSome? Fx.gift = p.fx.findSome? Fx.gift :=
    fun p hp => gift_judgedBy (hv p hp).onlyAt
  exact findSome?_map_of (f := fun p : Path => p.fx.findSome? Fx.gift) (fun p hp h => (hgift p hp).trans h)
    fun b _ p hp h => (hgift p hp).trans h

/-- A path that is the reference is not faulted by the vote. -/
theorem judgedBy_reference {j : BitVec 4} {r : Capture} (href : iss.referenceIn iss.paths w j = some r) {p : Path}
    (hp : p ∈ iss.paths) (hoff : p.fx.findSome? (Fx.signature j) = some r) : p.judgedBy s iss.paths iss w n = p := by
  obtain ⟨y, hy, hsig⟩ := List.exists_of_findSome?_eq_some hoff
  obtain ⟨syl, flag, rfl⟩ := signature_eq_some hsig
  have hnone : p.fx.findSome? (s.voteIn iss.paths iss w p.t) = none := by
    refine List.findSome?_eq_none_iff.mpr fun x hx => ?_
    cases hx' : x.voted with
    | none => exact voteIn_unvoted s iss.paths iss w p.t hx'
    | some k =>
      have hxy := (hv p hp).unique hx hy (by rw [hx']; rfl) rfl
      subst hxy
      simp [State.voteIn, href, Capture.agrees_self]
  rw [Path.judgedBy, hnone]

theorem referenceIn_judged (j : BitVec 4) :
    iss.referenceIn (iss.judgedPaths s w n) w j = iss.referenceIn iss.paths w j := by
  cases hcap : (joinSeen iss w iss.paths j).capture with
  | some c => rw [referenceIn_eq, referenceIn_eq, hcap, Option.some_or, Option.some_or]
  | none =>
    have href : iss.referenceIn iss.paths w j
        = iss.paths.findSome? (Path.offers (joinSeen iss w iss.paths j).expected j) := by
      rw [referenceIn_eq, hcap, Option.none_or]
    rw [href, referenceIn_eq, hcap, Option.none_or]
    refine findSome?_map_of (fun p hp h => ?_) fun r hr p hp h => ?_
    · rw [Path.offers, judgedBy_t]
      rw [Path.offers] at h
      split
      next hbit =>
        rw [if_pos hbit] at h
        exact List.findSome?_eq_none_iff.mpr fun x hx => List.findSome?_eq_none_iff.mp h x (mem_judgedBy hx)
      next => rfl
    · have hoff : p.fx.findSome? (Fx.signature j) = some r := by
        rw [Path.offers] at h
        split at h
        · exact h
        · cases h
      rw [judgedBy_reference hv (href.trans hr) hp hoff]
      exact h

theorem judgedBy_judged (p : Path) : p.judgedBy s (iss.judgedPaths s w n) iss w n = p.judgedBy s iss.paths iss w n := by
  have hvote : s.voteIn (iss.judgedPaths s w n) iss w p.t = s.voteIn iss.paths iss w p.t := by
    funext x
    unfold State.voteIn
    cases x with
    | mx syl j c flag good => simp only [referenceIn_judged hv]
    | give syl t => simp only [giveOf_judged hv]
    | _ => rfl
  rw [Path.judgedBy, Path.judgedBy, hvote]

/-- The second pass leaves the first one's paths. -/
theorem verdicts_votes (hn : n < 32) : s.verdicts iss w = iss.judgedPaths s w n := by
  have hfirst : s.verdictPass iss w iss.paths = iss.judgedPaths s w n := verdictPass_votes hv hn iss.paths
  have hsecond : s.verdictPass iss w (iss.judgedPaths s w n) = iss.judgedPaths s w n :=
    (verdictPass_votes hv hn _).trans (List.map_congr_left fun p _ => judgedBy_judged hv p)
  rw [State.verdicts, State.settleVerdicts, hfirst]
  split
  · rfl
  · rw [State.settleVerdicts, hsecond]
    simp

end

/-! ### Lanes -/

theorem mustSwap_iff (s : State) (lane : Nat) : s.mustSwap lane = true ↔ (s.pendingReady lane).isSome = true
    ∧ (s.swapDue lane = true ∨ (s.lane lane).since + 4096 ≤ s.clock) := by
  simp [State.mustSwap]

theorem swapWhen_due {s : State} {lane k : Nat} (hfree : s.laneFree lane = true) (hk : s.pendingReady lane = some k)
    {due : Bool} (hdue : due = true) : s.swapWhen lane due = s.swapIn lane k := by
  simp [State.swapWhen, hk, hdue, hfree]

/-! ### GROW (R238) -/

/-- The warp whose request of n units for the threads of `m` is granted. -/
def Warp.grown (w : Warp) (n : Nat) (m : Mask) (more : List (Nat × Mask)) : Warp :=
  Warp.unblockIf { w.dropAbove w.units with units := max n w.units, grows := more } (fun t b => match b with
    | .grow k => k = n && bitOf m t && !more.any (fun x => x.1 = n && bitOf x.2 t)
    | _ => false)

theorem grantGrow_head {s : State} {lane slot m : Nat} {rest : List Nat} {w : Warp} {ms : Mask} {more : List (Nat × Mask)}
    (hq : (s.lane lane).grows = slot :: rest) (hw : s.warp? slot = some w) (hg : w.grows = (m, ms) :: more)
    (hfit : m - w.units ≤ s.freeUnits lane) : s.grantGrow lane
      = (State.updLane (s.setWarp slot (w.grown m ms more)) lane (fun l => { l with grows := rest })).evalJoins slot := by
  unfold State.grantGrow
  rw [hq]
  dsimp only
  rw [hw]
  dsimp only
  rw [hg]
  exact if_pos hfit

theorem Warp.dropAbove_get? (w : Warp) (n t : Nat) (th : Thread) (h : w.threads.get? t = some th) :
    ∃ v, (w.dropAbove n).threads.get? t = some { th with v := v } := by
  have hmap : (w.dropAbove n).threads = w.threads.map (fun c =>
      (c.1, if c.1 < 32 then { c.2 with v := c.2.v.filter (fun e => e.1 < 64 + 48 * n) } else c.2)) :=
    List.map_congr_left fun c _ => (apply_ite (Prod.mk c.1) _ _ _).symm
  have hget := (congrArg (SMap.get? · t) hmap).trans (SMap.get?_map (β := Thread) w.threads (fun t th =>
    if t < 32 then { th with v := th.v.filter (fun e => e.1 < 64 + 48 * n) } else th) t)
  rw [h, Option.map_some] at hget
  split at hget
  · exact ⟨_, hget⟩
  · exact ⟨th.v, hget⟩

/-- A thread of the request waits for it no longer, unless another request of the warp is for it too. -/
theorem Warp.grown_released {w : Warp} {m t : Nat} {ms : Mask} {more : List (Nat × Mask)} {th : Thread}
    (hth : w.threads.get? t = some th) (hin : bitOf ms t = true) (hmore : ∀ x ∈ more, bitOf x.2 t = false) :
    ∃ th', (w.grown m ms more).threads.get? t = some th' ∧ Blocked.grow m ∉ th'.blocked := by
  obtain ⟨v, hv⟩ := w.dropAbove_get? w.units t th hth
  have hnone : more.any (fun x => x.1 = m && bitOf x.2 t) = false :=
    List.any_eq_false.mpr fun x hx => by simp [hmore x hx]
  refine ⟨_, (Warp.unblockIf_get? ..).trans (congrArg _ hv), fun hmem => ?_⟩
  have hkept := (List.mem_filter.mp hmem).2
  simp [hin, hnone] at hkept

/-- Settles O53: each step is one event of its lane or issue; the verdicts settle in two passes. -/
theorem issueAndLaneSteps : Obligations.IssueAndLaneSteps := by
  intro w a ts iss lane k t slot n rest lane0 swap swapped starts ended ends
  have hstarts : ∀ s serial, starts serial s → Starts s w a ts serial := fun s serial h => by
    obtain ⟨h1, h2, h3, h4, h5, h6, h7, h8, h9⟩ := h
    exact ⟨h1, h2, h3, h4, h5, h6, h7, h8, h9⟩
  have hends : ∀ (i : Instr) serial, (∀ s, exec i s = s.issueStep serial) → ends i serial := fun i serial hexec => by
    have hend : ∀ s, ended s → iss.serial = serial → exec i s = .next (s.endStep iss) := fun s he hserial => by
      obtain ⟨hiss, hcur⟩ := he
      rw [hexec, State.issueStep, hiss]
      simp [hserial, hcur]
    refine ⟨fun s he hs hj hw => (hend s he hs).trans ?_, fun s p j x l he hs hj hr => (hend s he hs).trans ?_,
      fun s he hs hj hr => (hend s he hs).trans ?_⟩
    · simp [State.endStep, hj, hw]
    · simp [State.endStep, hj, hr]
    · simp [State.endStep, hj, hr, State.followed]
  refine ⟨fun s hi h => issueStep_starts hi (hstarts s false h), fun s hi h => issueStep_starts hi (hstarts s true h),
    hends _ false fun _ => rfl, hends _ true fun _ => rfl, fun s h => verdicts_none h, fun s hn hv => verdicts_votes hv hn,
    fun s => mustSwap_iff s lane, fun s f hf hdbg hts => ?begin, acts_of_event (fun _ => rfl) fun s _ h => ?grant,
    acts_of_event (fun _ => rfl) fun s _ h => ?swap, acts_of_event (fun _ => rfl) fun s _ h => ?stall,
    acts_of_event (fun _ => rfl) fun s _ h => ?hold, acts_of_event (fun _ => rfl) fun s _ h => ?grow,
    fun s m ms more hq hw hg hfit => ?granted⟩
  case begin =>
    obtain ⟨i, hi, hwarp, haddr, hhead, hwords, hjudged, hpaths⟩ := beginIssue_ok hf hdbg hts
    refine ⟨i, hi, hwarp, haddr, hhead, hwords, hjudged, ?_, fun p hp => ?_⟩
    · rw [hpaths, List.map_map]
      exact List.map_id _
    · rw [hpaths] at hp
      obtain ⟨t, ht, rfl⟩ := List.mem_map.mp hp
      exact ⟨rfl, if_pos (hts t ht).2, rfl, rfl⟩
  case grant =>
    obtain ⟨hix, hfind⟩ := h
    subst hix
    simp only [State.roundRobin, hfind]
  case swap =>
    obtain ⟨hlane, hfree, hk, hdue⟩ := h
    rw [show s.turn.ix = lane from hlane]
    exact swapWhen_due hfree hk hdue
  case stall =>
    obtain ⟨hlane, hfree, hk, hst, hdue⟩ := h
    rw [show s.turn.ix = lane from hlane]
    refine swapWhen_due hfree hk ?_
    rw [hst]
    exact decide_eq_true hdue
  case hold =>
    obtain ⟨hlane, hfree, hk, hsince, hw, hready⟩ := h
    rw [show s.turn.ix = lane from hlane]
    refine swapWhen_due hfree hk ?_
    simp [State.activeReady, hw, hready, hsince]
  case grow =>
    obtain ⟨hlane, hq, hpark⟩ := h
    rw [show s.turn.ix = lane from hlane]
    simp [hq, hpark]
  case granted =>
    refine ⟨_, w.grown m ms more, grantGrow_head hq hw hg hfit, State.warp?_setWarp_self .., rfl, rfl, rfl, ?_,
      fun t th hth hin _ hmore => Warp.grown_released hth hin hmore⟩
    rw [State.lane_updLane_self]

end Sys2Proof.Machine
end

section
/-! The memory system's steps: the landing of a load, arrivals, waits, the refresh slot. With it, O54. -/

namespace Sys2Proof.Machine

/-! ### Two changes of one entry -/

theorem SMap.put_put {α : Type} (m : SMap α) (k : Nat) (x y : α) : (m.put k x).put k y = m.put k y := by
  induction m with
  | nil => simp [SMap.put]
  | cons c r ih =>
    obtain ⟨j, z⟩ := c
    by_cases hlt : k < j
    · simp [SMap.put, hlt]
    · by_cases heq : k = j
      · simp [SMap.put, heq]
      · simp [SMap.put, hlt, heq, ih]

theorem SMap.upd_upd {α : Type} (m : SMap α) (k : Nat) (f g : α → α) : (m.upd k f).upd k g = m.upd k (g ∘ f) := by
  unfold SMap.upd
  cases h : m.get? k with
  | none => simp only [h]
  | some x => simp only [SMap.get?_put_self, SMap.put_put, Function.comp]

theorem State.updWarp_updWarp (s : State) (k : Nat) (f g : Warp → Warp) :
    (s.updWarp k f).updWarp k g = s.updWarp k (g ∘ f) :=
  congrArg (fun ws => { s with warps := ws }) (SMap.upd_upd s.warps k f g)

theorem Warp.updThread_updThread (w : Warp) (t : Nat) (f g : Thread → Thread) :
    (w.updThread t f).updThread t g = w.updThread t (g ∘ f) :=
  congrArg (fun ths => { w with threads := ths }) (SMap.upd_upd w.threads t f g)

/-! ### Loads -/

/-- A load that may complete: its values have come, or its data is lost. -/
structure Lands (s : State) (id : Nat) (l : Load) (val : List Word) (r : Nat) : Prop where
  turn : s.turn.ix = id
  load : s.loads.get? id = some l
  val : l.val = some val
  dst : l.dst = .v (BitVec.ofNat 8 r)
  unparked : s.parked.get? l.warp = none
  free : l.held = false
  reached : s.reaches l.place = true

theorem Lands.places {s : State} {id r : Nat} {l : Load} {val : List Word} (h : Lands s id l val r) : l.places = [l.place] := by
  rw [Load.places, h.dst]

section
variable {s : State} {id r : Nat} {l : Load} {val : List Word}

theorem Lands.completion (h : Lands s id l val r) (hi : s.issue = none) {u : State}
    (hu : (s.lostPlace l val).elim (s.landLoad id l val) (fun p => s.loseLoad l p.store.1 p.store.2) = u) :
    exec .loadCompletion s = .next u.followed := by
  have hexec : exec .loadCompletion s = execLoadCompletion s := rfl
  rw [hexec, execLoadCompletion, event_noIssue hi, ← hu]
  refine congrArg (fun u : State => Host.Outcome.next u.followed) ?_
  simp [h.turn, h.load, h.val, h.places, h.reached, State.issuing, h.unparked, h.free]
  cases s.lostPlace l val <;> rfl

end

/-- A value is written and the flag falls, as one change of the thread. -/
theorem landLoad_v {s : State} {id k r : Nat} {l : Load} (x : Word) (hdst : l.dst = .v (BitVec.ofNat 8 r)) (hr : r < 256)
    (hflag : l.flag = some k) : s.landLoad id l [x] = State.updWarp { s with loads := s.loads.del id } l.warp (fun w =>
      w.updThread l.thread (fun th => { th with v := th.v.set 0 r x, f := th.f.set 0 k (th.f.get 0 k - 1) })) := by
  have hreg : (BitVec.ofNat 8 r).toNat = r := by rw [BitVec.toNat_ofNat, Nat.mod_eq_of_lt hr]
  simp only [State.landLoad, hdst, hflag, hreg, State.decFlag, State.updWarp_updWarp, List.headD_cons]
  refine congrArg (State.updWarp _ l.warp) (funext fun w => ?_)
  exact Warp.updThread_updThread w l.thread _ _

/-! ### Arrivals -/

theorem State.reaches_updCore (s : State) (c : Nat) (f : Core → Core) (p : Place) : (s.updCore c f).reaches p = s.reaches p := rfl

/-- Item k of a core, of a kind of the step, is performed where nothing bars it and its package is reached. -/
theorem arriveIf_ok {s : State} {kind : StKind → Bool} {i : StItem} (hi : (s.core s.turn.ix).flight[s.turn.k]? = some i)
    (hk : kind i.kind = true) (hr : s.reaches i.place = true) (hm : mayPerform (s.core s.turn.ix).flight s.turn.k = true) :
    s.arriveIf kind = State.perform (s.updCore s.turn.ix (fun c => { c with flight := c.flight.eraseIdx s.turn.k }))
      s.turn.ix i := by
  simp [State.arriveIf, hi, hk, hr, hm, State.arrive, State.reaches_updCore]

/-! ### The refresh slot (R254) -/

/-- The state after the refresh slot has followed the time. -/
def State.refreshed (s : State) : State :=
  { s with slot := s.wsphase, loads := s.loads.map (fun x => (x.1, s.readHeld x.2)) }

theorem refreshSlot_exec {s : State} (hi : s.issue = none) : exec .wsRefreshSlot s = .next s.refreshed.followed :=
  acts_of_event (ok := fun _ => True) (f := State.refreshed) (fun _ => rfl) (fun _ _ _ => rfl) s hi trivial

theorem readHeld_ws {s : State} {z : Load} {o : Nat} (h : z.place = .ws o) :
    s.readHeld z = if o / 4096 % 16 = s.time / 4000 % 16 then z else { z with held := false } := by
  simp only [State.readHeld, h, bankOf, State.wsphase]

theorem refreshed_get? {s : State} {id o : Nat} {z : Load} (hz : s.loads.get? id = some z) (h : z.place = .ws o) :
    s.refreshed.loads.get? id = some (if o / 4096 % 16 = s.time / 4000 % 16 then z else { z with held := false }) := by
  have hmap : s.refreshed.loads.get? id = (s.loads.get? id).map s.readHeld :=
    SMap.get?_map (β := Load) s.loads (fun _ l => s.readHeld l) id
  rw [hmap, hz, Option.map_some, readHeld_ws h]

/-- Settles O54: each step is one event of the load, the item, the wait or the line that its turn names. -/
theorem memorySteps : Obligations.MemorySteps := by
  intro id k r l x i w q y dl arrives arrived waits lands
  have hlands : ∀ val s, lands val s → s.issue = none ∧ Lands s id l val r := fun val s h => by
    obtain ⟨hi, hix, hl, hval, hdst, -, -, hpark, hheld, hreach⟩ := h
    exact ⟨hi, hix, hl, hval, hdst, hpark, hheld, hreach⟩
  have harrives : ∀ (kind : StItem → Prop) (b : StKind → Bool) s, (∀ i, kind i → b i.kind = true) → arrives kind s →
      s.arriveIf b = arrived s := fun kind b s hkind h => by
    obtain ⟨-, hi, hk, hr, hm⟩ := h
    exact arriveIf_ok hi (hkind i hk) hr hm
  refine ⟨fun s h => ?value, fun s h => ?lost, acts_of_event (fun _ => rfl) fun s _ h => if_pos h.1,
    acts_of_event (fun _ => rfl) fun s _ h => ?store, acts_of_event (fun _ => rfl) fun s _ h => harrives (fun i =>
      (∃ op b c d j, i.kind = .atom op b c d j) ∨ ∃ b d j, i.kind = .scond b d j) _ s ?atom h,
    acts_of_event (fun _ => rfl) fun s _ h => harrives (fun i => ∃ d v o j, i.kind = .contrib d v o j) _ s ?contrib h,
    acts_of_event (fun _ => rfl) fun s _ h => harrives (fun i => ∃ d, i.kind = .ordf d) _ s ?ordf h, acts_of_event (fun _ => rfl) fun _ _ _ => rfl,
    acts_of_event (fun _ => rfl) fun s _ h => ?timeout, fun s hi => ⟨s.refreshed, refreshSlot_exec hi, rfl, rfl, rfl,
      fun z o hz ho => ⟨_, refreshed_get? hz ho, rfl⟩⟩,
    acts_of_event (fun _ => rfl) fun s _ h => ?data, acts_of_event (fun _ => rfl) fun s _ h => ?weight⟩
  case value =>
    obtain ⟨hi, hl⟩ := hlands [x] s h
    obtain ⟨-, -, -, -, hdst, hr, hflag, -⟩ := h
    exact hl.completion hi (landLoad_v x hdst hr hflag)
  case lost =>
    obtain ⟨hi, hl⟩ := hlands [] s h
    exact ⟨_, hl.completion hi rfl, rfl, rfl, rfl⟩
  case store =>
    refine (if_neg (by rw [h.1]; exact Bool.false_ne_true)).trans
      (harrives (fun i => i.kind = .fence ∨ ∃ b, i.kind = .store b) _ s ?_ h)
    rintro i (hk | ⟨b, hk⟩) <;> rw [hk]
  case atom => rintro i (⟨op, b, c, d, j, hk⟩ | ⟨b, d, j, hk⟩) <;> rw [hk]
  case contrib => rintro i ⟨d, v, o, j, hk⟩; rw [hk]
  case ordf => rintro i ⟨d, hk⟩; rw [hk]
  case timeout =>
    obtain ⟨⟨hw, hy⟩, hdl, hlate⟩ := h
    simp [hw, hy, hdl, hlate]
  case data => simp only [h, Bool.false_eq_true, if_false]
  case weight => simp only [h, if_true]

end Sys2Proof.Machine
end

section
/-! The start of a trap handler, the debugger's calls, LAUNCH_END and the black box. With it, O58. -/

namespace Sys2Proof.Machine

/-! ### The handler -/

/-- What HANDLER_START asks of its warp before it looks at the kind of the trap. -/
structure WaitsForHandler (s : State) (slot : Nat) (w : Warp) (c : Ctx) : Prop where
  turn : s.turn.ix = slot
  warp : s.warp? slot = some w
  ctx : s.ctxs.get? w.ctx = some c
  freeze : w.freeze = some .waiting
  runs : s.stopped w = false

theorem handlerStart_waits {s : State} {slot : Nat} {w : Warp} {c : Ctx} (hi : s.issue = none)
    (h : WaitsForHandler s slot w c) :
    execHandlerStart s = .next (State.followed (
      if !c.handles (trapKind w) then s.unhandled slot w
      else if s.handlerReady slot w then s.enterHandler slot w c else s)) := by
  rw [execHandlerStart, event_noIssue hi]
  simp only [h.turn, h.warp, h.ctx, h.freeze, h.runs, bne_self_eq_false, Bool.or_self, Bool.false_eq_true, if_false]

theorem handles_iff (c : Ctx) (w : Warp) :
    c.handles (trapKind w) = true ↔ c.handler ≠ 0 ∧ c.kinds.getLsbD (w.trapinfo.toNat / 2 ^ 56) = true := by
  rw [Ctx.handles, trapKind, Bool.and_eq_true, bne_iff_ne]

theorem unhandled_eq {s : State} {w : Warp} {c : Ctx} (slot : Nat) (h : s.ctxs.get? w.ctx = some c) :
    s.unhandled slot w = if c.debugger then
        State.bbox (s.setWarp slot { w with freeze := some .escalated }) (dieOf slot) 0 0x07 (coreOf slot % 132)
          (warpNo slot) (primaryOf w) w.ctx [w.trappc, w.trapinfo]
      else (s.bbox (dieOf slot) 0 0x06 (coreOf slot % 132) (warpNo slot) (primaryOf w) w.ctx
        [w.trappc, w.trapinfo]).doom w.launch 0x00030002 (trapCheck slot (trapKind w) (primaryOf w) w.trappc) := by
  have hd : s.hasDebugger w.ctx = c.debugger := by rw [State.hasDebugger, h]; rfl
  rw [State.unhandled, hd]
  rfl

/-! ### The debugger's calls -/

/-- What DBG_SET does when its settings keep their table. -/
def State.dbgGiven (s : State) (ctx : Nat) (sel : WarpSel) (cfg : DbgSet) : State :=
  let give (i : Nat) (w : Warp) : Warp :=
    if w.ctx = ctx && selNames sel i w.num then { w with dbgNext := some cfg } else w
  State.updCtx { s with
    warps := s.warps.map (fun x => (x.1, give (((s.blocks.get? x.2.block).map Block.index).getD 0) x.2))
    saved := s.saved.map (fun x => { x with warps := x.warps.map (give x.block.index) }) } ctx
    (fun c => { c with template := c.template ++ [(sel, cfg)] })

theorem dbgSet_eq {s : State} (hi : s.issue = none) (hr : s.released = true) (ctx : Nat) (sel : WarpSel) (cfg : DbgSet) :
    execDbgSet ctx sel cfg s = .next (State.followed (if !dbgOk cfg then s else s.dbgGiven ctx sel cfg)) := by
  rw [execDbgSet, State.call, event_noIssue hi, if_pos hr]
  rfl

theorem dbgGiven_warp? (s : State) (ctx : Nat) (sel : WarpSel) (cfg : DbgSet) (x : Nat) :
    (s.dbgGiven ctx sel cfg).warp? x = (s.warp? x).map (fun y =>
      if y.ctx = ctx && selNames sel (((s.blocks.get? y.block).map Block.index).getD 0) y.num
      then { y with dbgNext := some cfg } else y) :=
  SMap.get?_map (β := Warp) s.warps (fun _ y =>
    if y.ctx = ctx && selNames sel (((s.blocks.get? y.block).map Block.index).getD 0) y.num
    then { y with dbgNext := some cfg } else y) x

theorem dbgGiven_ctx {s : State} {ctx : Nat} {y : Ctx} (h : s.ctxs.get? ctx = some y) (sel : WarpSel) (cfg : DbgSet) :
    (s.dbgGiven ctx sel cfg).ctxs.get? ctx = some { y with template := y.template ++ [(sel, cfg)] } :=
  (SMap.get?_upd_self s.ctxs ctx _).trans (congrArg _ h)

/-- A warp that the debugger's calls speak of. -/
structure FrozenWarp (s : State) (ctx slot : Nat) (w : Warp) : Prop where
  warp : s.warp? slot = some w
  ctx : w.ctx = ctx
  freeze : w.freeze.isSome = true
  unparked : s.parked.get? slot = none

theorem FrozenWarp.frozen {s : State} {ctx slot : Nat} {w : Warp} (h : FrozenWarp s ctx slot w) :
    s.frozen ctx slot = some w := by
  simp [State.frozen, State.issuing, h.warp, h.ctx, h.freeze, h.unparked]

/-- The start of every action of DBG_RESUME: the call finds its escalated warp. -/
structure EscalatedWarp (s : State) (ctx slot : Nat) (w : Warp) : Prop where
  frozen : FrozenWarp s ctx slot w
  escalated : w.freeze = some .escalated

/-- Without a SYSC 8 that waits, DBG_RESUME 0 returns from the trap. -/
theorem dbgResume_return (ctx slot : Nat) (w : Warp) (v : Word) :
    Calls (.dbgResume ctx slot 0 v) (fun s => EscalatedWarp s ctx slot w ∧ s.escalated8 slot w = none)
      (fun s => ((s.dropHandler slot).trapReturn slot).evalJoins slot) :=
  calls_of_event (fun _ => rfl) fun s _ ⟨h, h8⟩ => by simp [h.frozen.frozen, h.escalated, h8]

/-- The debugger's value is the reply of the handler's SYSC 8. -/
theorem dbgResume_reply (ctx slot : Nat) (w : Warp) (v : Word) (id : Nat) (y : Cmd) :
    Calls (.dbgResume ctx slot 0 v) (fun s => EscalatedWarp s ctx slot w ∧ s.escalated8 slot w = some (id, y))
      (fun s => ((s.setWarp slot { w with freeze := some .running }).reply id y v).discardL1 (coreOf slot)) :=
  calls_of_event (fun _ => rfl) fun s _ ⟨h, h8⟩ => by simp [h.frozen.frozen, h.escalated, h8]

theorem dbgResume_back (ctx slot : Nat) (w : Warp) (v : Word) :
    Calls (.dbgResume ctx slot 1 v) (fun s => EscalatedWarp s ctx slot w)
      (fun s => ((s.dropHandler slot).trapReturn slot).evalJoins slot) :=
  calls_of_event (fun _ => rfl) fun s _ h => by simp [h.frozen.frozen, h.escalated]

theorem dbgResume_doom (ctx slot : Nat) (w : Warp) (v : Word) :
    Calls (.dbgResume ctx slot 2 v) (fun s => EscalatedWarp s ctx slot w)
      (fun s => s.doom w.launch 0x00030001 (trapCheck slot (trapKind w) (primaryOf w) w.trappc)) :=
  calls_of_event (fun _ => rfl) fun s _ h => by simp [h.frozen.frozen, h.escalated]

theorem escalated8_none {w : Warp} (h : w.double ≠ none ∨ w.threads.get? 32 = none) (s : State) (slot : Nat) :
    s.escalated8 slot w = none := by
  refine if_pos ?_
  rcases h with h | h
  · rw [Option.isSome_iff_ne_none.mpr h]
    rfl
  · rw [h]
    exact Bool.or_true _

/-! ### Entries of the black box as bytes -/

theorem fieldLE_leBytes_append (n x : Nat) (ys : List Byte) : fieldLE (leBytes n x ++ ys) 0 n = x % 256 ^ n := by
  rw [fieldLE, List.drop_zero, List.take_left' (leBytes_length n x), leNat_leBytes]

theorem fieldLE_leBytes (n x : Nat) : fieldLE (leBytes n x) 0 n = x % 256 ^ n := by
  simpa using fieldLE_leBytes_append n x []

theorem fieldLE_append_skip {n off : Nat} (x : Nat) (ys : List Byte) (m : Nat) (h : n ≤ off) :
    fieldLE (leBytes n x ++ ys) off m = fieldLE ys (off - n) m := by
  rw [fieldLE, List.drop_append, List.drop_eq_nil_of_le ((leBytes_length n x).trans_le h), leBytes_length,
    List.nil_append, fieldLE]

/-- The bytes of an entry, one field after another. -/
theorem Event.bytes_eq (e : Event) : e.bytes = leBytes 8 e.seq ++ (leBytes 8 e.time ++ (leBytes 1 e.source
    ++ (leBytes 1 e.code ++ (leBytes 2 e.core ++ (leBytes 1 e.warp ++ (leBytes 1 e.thread
    ++ (leBytes 1 (if e.secure then 1 else 0) ++ (leBytes 1 0 ++ (leBytes 8 e.ctx
    ++ (leBytes 8 (e.detail.getD 0 0).toNat ++ (leBytes 8 (e.detail.getD 1 0).toNat
    ++ (leBytes 8 (e.detail.getD 2 0).toNat ++ leBytes 8 (e.detail.getD 3 0).toNat)))))))))))) := by
  have h4 : List.range 4 = [0, 1, 2, 3] := rfl
  simp only [Event.bytes, h4, List.flatMap_cons, List.flatMap_nil, List.append_assoc, List.append_nil]

theorem Event.bytes_detail (e : Event) {j : Nat} (hj : j < 4) :
    fieldLE e.bytes (0x20 + 8 * j) 8 = (e.detail.getD j 0).toNat := by
  rw [Event.bytes_eq]
  interval_cases j <;> simp [fieldLE_append_skip, fieldLE_leBytes_append, fieldLE_leBytes] <;> omega

theorem Event.shown_eq (e : Event) (sec : Bool) :
    e.shown sec = if e.secure = true ∧ sec = false then { e with ctx := 0, detail := [] } else e := by
  simp only [Event.shown, Bool.and_eq_true, Bool.not_eq_true']

theorem Event.bytes_length (e : Event) : e.bytes.length = 64 := by
  simp [Event.bytes_eq]

/-! ### The end of a launch on request -/

/-- LAUNCH_END of a record that has been read, whose launch is still known. -/
structure EndsLaunch (s : State) (ctx : Nat) (header : Word) (n qid : Nat) (q : Queue) (id : Nat) (l : Launch) : Prop where
  queue : s.queueOf ctx header = some (qid, q)
  read : 2 ^ 31 ≤ (BitVec.ofNat 32 (n % 2 ^ 32) - q.consume).toNat
  launch : (s.launches.filter (fun x => x.2.queue = qid && x.2.index = n % 2 ^ 32)).getLast? = some (id, l)

theorem launchEnd_read (ctx : Nat) (header : Word) (n qid : Nat) (q : Queue) (id : Nat) (l : Launch) :
    Calls (.launchEnd ctx header n) (fun s => EndsLaunch s ctx header n qid q id l) (fun s =>
      if l.closed then (if l.ended then s.endEntry l id 0x00030001 else s).ret [1]
      else (s.doom id 0x00030001 { mcheck 0 (s.queueDie l) 0 0 0 0xFF 0xFF 0 with source := 4 }).ret [0]) :=
  calls_of_event (fun _ => rfl) fun s _ h => by
    simp only [h.queue]
    rw [if_neg (not_lt.mpr h.read)]
    simp only [h.launch]

theorem launchEnd_unread (ctx : Nat) (header : Word) (n qid : Nat) (q : Queue) :
    Calls (.launchEnd ctx header n) (fun s => s.queueOf ctx header = some (qid, q)
      ∧ (BitVec.ofNat 32 (n % 2 ^ 32) - q.consume).toNat < 2 ^ 31)
    (fun s => State.ret { s with queues := s.queues.put qid { q with marked := q.marked ++ [n % 2 ^ 32] } } [0]) :=
  calls_of_event (fun _ => rfl) fun s _ ⟨hq, hn⟩ => by
    simp only [hq]
    rw [if_pos hn]

/-- Settles O58: the handler's start, the debugger's calls one by one, LAUNCH_END by what it finds, and the entry's bytes. -/
theorem handlerAndDebugSteps : Obligations.HandlerAndDebugSteps := by
  unfold Obligations.HandlerAndDebugSteps
  intro ctx slot die buffer w c h ks sel cfg t k v header n id qid q l sec y ev ret frozen waiting
  have hwait {s : State} : waiting s → WaitsForHandler s slot w c := fun ⟨h1, h2, h3, h4, h5⟩ => ⟨h1, h2, h3, h4, h5⟩
  have hfrozen {s : State} : frozen s → FrozenWarp s ctx slot w := fun ⟨h1, h2, h3, h4⟩ => ⟨h1, h2, h3, h4⟩
  refine ⟨?_, ?_, ?_, ?_, ?_, ?_, ?_, ?_, ?_, ?_, ?_, ?_, ?_, ?_, ?_, ?_, ?_, ?_, ?_, ?_, ?_, ?_⟩
  · intro s hi ⟨hw, hhandler, hkind, hready⟩
    have hh : c.handles (trapKind w) = true := (handles_iff c w).mpr ⟨hhandler, hkind⟩
    refine (handlerStart_waits hi (hwait hw)).trans ?_
    simp only [hh, hready, Bool.not_true, Bool.false_eq_true, if_false, if_true]
    rfl
  · intro s hi ⟨hw, hnone⟩
    have hh : c.handles (trapKind w) = false := by
      refine Bool.eq_false_iff.mpr fun hh => ?_
      obtain ⟨hhandler, hkind⟩ := (handles_iff c w).mp hh
      rcases hnone with h0 | h0
      · exact hhandler h0
      · exact Bool.false_ne_true (h0.symm.trans hkind)
    refine (handlerStart_waits hi (hwait hw)).trans ?_
    rw [hh]
    rfl
  · exact fun s hc => unhandled_eq slot hc
  · exact calls_of_event (fun _ => rfl) fun _ _ _ => rfl
  · exact calls_of_event (fun _ => rfl) fun _ _ _ => rfl
  · exact calls_of_event (fun _ => rfl) fun _ _ _ => rfl
  · intro s hi hr hok
    have hexec : exec (.dbgSet ctx sel cfg) s = .next (s.dbgGiven ctx sel cfg).followed := by
      refine (dbgSet_eq hi hr ctx sel cfg).trans ?_
      rw [hok]
      rfl
    refine ⟨_, hexec, fun x y hx hy hsel => ?_, fun x y hx hy => ?_, fun y hy => dbgGiven_ctx hy sel cfg⟩
    · rw [dbgGiven_warp?, hx]
      simp [hy, hsel]
    · rw [dbgGiven_warp?, hx]
      simp [hy]
  · intro s hi hr hbad
    refine (dbgSet_eq hi hr ctx sel cfg).trans ?_
    rw [hbad]
    rfl
  · exact calls_of_event (fun _ => rfl) fun s _ ⟨hf, hsel⟩ => by
      simp only [(hfrozen hf).frozen, hsel, if_true]
      rfl
  · exact calls_of_event (fun _ => rfl) fun s _ ⟨hf, hbad, hlate⟩ => by
      simp only [(hfrozen hf).frozen, hbad, hlate, Bool.false_eq_true, if_false]
  · exact fun s hi hr ⟨hf, he, h8⟩ => dbgResume_reply ctx slot w v id y s hi hr ⟨⟨hfrozen hf, he⟩, h8⟩
  · exact fun s hi hr ⟨hf, he, h8⟩ => dbgResume_return ctx slot w v s hi hr ⟨⟨hfrozen hf, he⟩, h8⟩
  · exact fun s hd => escalated8_none hd s slot
  · exact fun s hi hr ⟨hf, he⟩ => dbgResume_back ctx slot w v s hi hr ⟨hfrozen hf, he⟩
  · exact fun s hi hr ⟨hf, he⟩ => dbgResume_doom ctx slot w v s hi hr ⟨hfrozen hf, he⟩
  · intro s hi hr ⟨hq, hn, hl, hc⟩
    refine (launchEnd_read ctx header n qid q id l s hi hr ⟨hq, hn, hl⟩).trans ?_
    rw [hc]
    rfl
  · intro s hi hr ⟨hq, hn, hl, hc⟩
    refine (launchEnd_read ctx header n qid q id l s hi hr ⟨hq, hn, hl⟩).trans ?_
    rw [hc]
    rfl
  · exact fun s st => ⟨_, _, rfl⟩
  · exact launchEnd_unread ctx header n qid q
  · exact calls_of_event (fun _ => rfl) fun s _ hq => by
      simp only [hq]
      rfl
  · exact calls_of_event (fun _ => rfl) fun s _ _ => by simp only [Event.shown_eq]
  · refine ⟨ev.bytes_length, ?_, ?_, ?_, ?_, ?_, ?_, ?_, ?_, ?_, ?_, fun j hj => ev.bytes_detail hj⟩
    all_goals rw [Event.bytes_eq]; simp [fieldLE_append_skip, fieldLE_leBytes_append]
    split <;> decide

end Sys2Proof.Machine
end

section
/-! The control interface and the agents outside the compute dies. With it, O59. -/

namespace Sys2Proof.Machine

/-! ### Contexts and queues -/

theorem ctxDestroy_ok {s : State} {c : Ctx} (hi : s.issue = none) (hr : s.released = true)
    (hc : s.ctxs.get? s.turn.ix = some c) (hb : s.ctxBusy s.turn.ix = false) :
    ∃ u : State, execCtxDestroy s = .next u.followed ∧ u.ctxs = s.ctxs.del s.turn.ix ∧ u.host.reply = [0]
      ∧ u.queues = s.queues.filter (fun x => x.2.ctx != s.turn.ix) ∧ u.mem = s.mem := by
  have hgo : ((s.ctxs.get? s.turn.ix).isNone || s.ctxBusy s.turn.ix) = false := by rw [hc, hb]; rfl
  rw [execCtxDestroy, State.call, event_noIssue hi, if_pos hr]
  simp only [hgo, Bool.false_eq_true, if_false]
  exact ⟨_, rfl, rfl, rfl, rfl, rfl⟩

theorem fieldLE_lt (b : List Byte) (off n : Nat) : fieldLE b off n < 2 ^ (8 * n) := by
  refine (leNat_lt _).trans_le (Nat.pow_le_pow_right (by omega) (Nat.mul_le_mul_left 8 ?_))
  exact List.length_take_le ..

theorem walk_nextId (s : State) (n : Nat) (secure : Bool) (shot key va : Nat) (k : Acc)
    (ls : List (Nat × Nat × Option Nat)) (t : Nat) :
    walk { s with nextId := n } secure shot key va k ls t = walk s secure shot key va k ls t := by
  induction ls generalizing t with
  | nil => rfl
  | cons l ls ih =>
    unfold walk
    simp only [ih]
    rfl

theorem translateFor_nextId (s : State) (n key ctx : Nat) (va : Word) (k : Acc) :
    State.translateFor { s with nextId := n } key ctx va k = s.translateFor key ctx va k := by
  simp only [State.translateFor, walk_nextId]
  rfl

theorem bytePlaces_nextId (s : State) (n key ctx : Nat) (k : Acc) (va len : Nat) :
    State.bytePlaces { s with nextId := n } key ctx k va len = s.bytePlaces key ctx k va len := by
  induction len generalizing va with
  | zero => rfl
  | succ len ih =>
    unfold State.bytePlaces
    rw [translateFor_nextId, ih]

/-- A new id is not seen by a read of a context's memory. -/
theorem ctxRead_nextId (s : State) (n ctx va len : Nat) :
    State.ctxRead { s with nextId := n } ctx va len = s.ctxRead ctx va len := by
  unfold State.ctxRead State.ctxPlaces
  rw [bytePlaces_nextId]
  rfl

theorem queueCreate_bad {s : State} {ctx die : Nat} {header : Word} {b : List Byte}
    (hread : s.ctxRead ctx header.toNat 64 = .ok b) (hgood : headerGood b = false) (hi : s.issue = none)
    (hr : s.released = true) :
    execQueueCreate ctx header die s = .next (State.followed (State.ret { s with nextId := s.nextId + 1 } [1])) := by
  rw [execQueueCreate, State.call, event_noIssue hi, if_pos hr]
  simp only [State.fresh, ctxRead_nextId, hread, hgood, Bool.not_false, if_true]

/-- A queue whose header is good is served from its produce, and its consume is written back. -/
theorem queueCreate_ok {s : State} {ctx die : Nat} {header : Word} {b : List Byte}
    (hread : s.ctxRead ctx header.toNat 64 = .ok b) (hgood : headerGood b = true) (hi : s.issue = none)
    (hr : s.released = true) :
    ∃ u q, execQueueCreate ctx header die s = .next (State.followed (State.tryWrite u (u.dieWriter die false) ctx
        (header.toNat + 0x14) (leBytes 4 (fieldLE b 0x10 4))))
      ∧ u.queues.get? s.nextId = some q ∧ q.ctx = ctx ∧ q.header = header ∧ q.die = die ∧ q.served = true
      ∧ q.consume = BitVec.ofNat 32 (fieldLE b 0x10 4) ∧ u.mem = s.mem := by
  have hproduce : (headerFields b).2.2.toNat = fieldLE b 0x10 4 := Nat.mod_eq_of_lt (fieldLE_lt b 0x10 4)
  rw [execQueueCreate, State.call, event_noIssue hi, if_pos hr]
  simp only [State.fresh, ctxRead_nextId, hread, hgood, Bool.not_true, Bool.false_eq_true, if_false, hproduce]
  exact ⟨_, _, rfl, SMap.get?_put_self .., rfl, rfl, rfl, rfl, rfl, rfl⟩

/-! ### Shoot-down -/

theorem foldl_discardL1_coresOnly (cs : List Nat) (s : State) : CoresOnly s (cs.foldl State.discardL1 s) := by
  induction cs generalizing s with
  | nil => exact CoresOnly.refl s
  | cons c cs ih => exact (State.updCore_coresOnly s c _).trans (ih _)

theorem foldl_discardL1_keeps {s : State} {core : Nat} (h : (s.core core).l1 = []) (cs : List Nat) :
    ((cs.foldl State.discardL1 s).core core).l1 = [] := by
  induction cs generalizing s with
  | nil => exact h
  | cons c cs ih =>
    refine ih ?_
    by_cases hc : core = c
    · rw [hc, State.discardL1, State.updCore_core_self]
    · rw [State.discardL1, State.updCore_core_ne s _ hc, h]

theorem foldl_discardL1_l1 {core : Nat} {cs : List Nat} (h : core ∈ cs) (s : State) :
    ((cs.foldl State.discardL1 s).core core).l1 = [] := by
  induction cs generalizing s with
  | nil => cases h
  | cons c cs ih =>
    rcases List.mem_cons.mp h with rfl | h
    · exact foldl_discardL1_keeps (congrArg Core.l1 (State.updCore_core_self s core _)) cs
    · exact ih h _

/-- After what was translated before has been performed, a shoot-down leaves memory and marks the context. -/
theorem shootdown_ok {s : State} (hi : s.issue = none) (hr : s.released = true) (ctx va size : Nat) :
    ∀ v, v = s.settle.settleCopies ctx →
    ∃ u w : State, execShootdown ctx va size s = .next u.followed ∧ u = (v.ctxCores ctx).foldl State.discardL1 w
      ∧ w.mem = v.mem ∧ w.ctxs = v.ctxs.upd ctx (fun c => { c with shot := v.nextVer }) := by
  intro v hv
  rw [execShootdown, State.call, event_noIssue hi, if_pos hr]
  dsimp only
  rw [← hv]
  exact ⟨_, _, rfl, rfl, rfl, rfl⟩

/-! ### Attestation -/

theorem attest_ok {s : State} (hi : s.issue = none) (hr : s.released = true) (nonce : BitVec 256) :
    execAttest nonce s = .next (State.followed { s with host := { s.host with
      report := if (s.attest (leBytes 32 nonce.toNat)).signed s.part = true
        then some (s.attest (leBytes 32 nonce.toNat)) else none } }) := by
  rw [execAttest, State.call, event_noIssue hi, if_pos hr]

/-! ### Agents outside the compute dies -/

/-- n bytes from p are at a, which a caller of the world may reach. -/
structure OpenTo (s : State) (sec : Bool) (p n a : Nat) : Prop where
  first : s.physical p = some a
  last : s.physical (p + (n - 1)) = some (a + (n - 1))
  pos : 0 < n
  world : sec = true ∨ ∀ k, k < n → s.secureMem (a + k) = false

/-- No cell's window holds a byte of the n at a. -/
def OffCells (s : State) (a n : Nat) : Prop := ∀ k, k < n → s.cellAt (a + k) = false

theorem any_bytes_eq_false {f : Nat → Bool} {a n : Nat} (hn : 0 < n) (h : ∀ k, k < n → f (a + k) = false) :
    ((List.range (max 1 n)).map (a + ·)).any f = false := by
  rw [Nat.max_eq_right hn]
  simpa using h

theorem any_bytes_eq_true {f : Nat → Bool} {a n k : Nat} (hk : k < n) (h : f (a + k) = true) :
    ((List.range (max 1 n)).map (a + ·)).any f = true := by
  simp only [List.any_map, List.any_eq_true, List.mem_range]
  exact ⟨k, by omega, h⟩

/-- An access that reaches open memory is performed at its home. -/
theorem outside_ok {s : State} {g : Agent} {x : ExtAccess} {p n a : Nat} (hi : s.issue = none)
    (hx : reach x = some (p, n)) (ho : OpenTo s g.secure p n a) (hp : isRead x = true ∨ OffCells s a n) :
    s.outside g x = .next (s.outsideAt g x a).followed := by
  have hworld : (!g.secure && ((List.range (max 1 n)).map (a + ·)).any s.secureMem) = false := by
    rcases ho.world with h | h
    · rw [h]
      rfl
    · rw [any_bytes_eq_false ho.pos h, Bool.and_false]
  have hcell : (!isRead x && ((List.range (max 1 n)).map (a + ·)).any s.cellAt) = false := by
    rcases hp with h | h
    · rw [h]
      rfl
    · rw [any_bytes_eq_false ho.pos h, Bool.and_false]
  simp only [State.outside, hx, ho.first, ho.last, event_noIssue hi, hworld, hcell, Bool.false_eq_true, if_false]

/-- A non-secure access that meets secure memory reads nothing and is entered in the black box. -/
theorem outside_barred {s : State} {g : Agent} {x : ExtAccess} {p n a k : Nat} (hi : s.issue = none)
    (hx : reach x = some (p, n)) (hfirst : s.physical p = some a) (hlast : (s.physical (p + (n - 1))).isSome = true)
    (hg : g.secure = false) (hk : k < n) (hs : s.secureMem (a + k) = true) :
    s.outside g x = .next (State.followed (State.bbox (s.saw []) 0 g.source 0x03 0 0xFF 0xFF 0
      [BitVec.ofNat 64 p, BitVec.ofNat 64 g.num])) := by
  obtain ⟨b, hb⟩ := Option.isSome_iff_exists.mp hlast
  simp only [State.outside, hx, hfirst, hb, event_noIssue hi, hg, any_bytes_eq_true hk hs, Bool.not_false, Bool.and_self,
    if_true]

theorem outside_nowhere {s : State} {g : Agent} {x : ExtAccess} {p n : Nat} (hx : reach x = some (p, n))
    (hp : s.physical p = none) : s.outside g x = .fault (.noSuchAddress p) := by
  simp only [State.outside, hx, hp]

/-- The agents of an access: what holds of each that performs as `State.outside` says holds of all three. -/
theorem agents_of {P : (ExtAccess → Instr) → Agent → (State → Prop) → Prop} {sec : Bool} {pkg : Nat}
    (h : ∀ i g on, (∀ s x, on s → exec (i x) s = s.outside g x) → (g.pkg = none ∨ g.pkg = some pkg) → P i g on) :
    P (.hostCoreAccess sec) ⟨8, 0, sec, .outside, none⟩ (fun s => s.released = true)
    ∧ P .pcieEndpointAccess ⟨8, 1, false, .outside, none⟩ (fun _ => True)
    ∧ P (.peerPackageAccess pkg) ⟨9, pkg, false, .peer pkg, some pkg⟩ (fun _ => True) :=
  ⟨h _ _ _ (fun _ _ hr => if_pos hr) (.inl rfl), h _ _ _ (fun _ _ _ => rfl) (.inl rfl),
    h _ _ _ (fun _ _ _ => rfl) (.inr rfl)⟩

/-- A conditional store from outside writes and answers 1 where the reservation stands. -/
theorem outsideAt_scond (s : State) (g : Agent) (p a : Nat) (dbl : Bool) (v : Word) (t : Nat) :
    s.outsideAt g (.scond p dbl v t) a = if (g.id, t, a / 32) ∈ s.peerResv
      then ((s.writePa (s.agentWriter g) a (leBytes (dblBytes dbl) v.toNat)).reserve g t none).saw [1]
      else (s.reserve g t none).saw [0] := by
  simp only [State.outsideAt, List.contains_iff_mem, granuleOf]

theorem outsideAt_contribute (s : State) (g : Agent) {pkg : Nat} (hg : g.pkg = none ∨ g.pkg = some pkg) (p a : Nat)
    (dbl : Bool) (v : Word) (launch : Nat) (key : OrdKey) :
    s.outsideAt g (.contribute p dbl v launch key.cls key.block key.rank key.seq) a
      = if g.pkg = some pkg then s.contribute ⟨a, dbl, v, key, pkg, launch⟩ else s := by
  rcases hg with hg | hg <;> simp [State.outsideAt, hg]

theorem contribute_peer {s : State} {c : Contrib} (h : c.pkg ≠ s.trellis.id) :
    s.contribute c = { s with ordq := s.ordq ++ [c] } := by
  simp [State.contribute, h]

/-! ### Writes at a home -/

theorem writePa_plain {s : State} {a : Nat} {b : List Byte} (hcell : OffCells s a b.length)
    (hcap : ∀ k, k < b.length → inCapFrame (a + k) = false) (by_ : Writer) :
    s.writePa by_ a b = s.put by_ .none (.mem a) b := by
  have h1 : ¬((List.range b.length).any (fun i => s.cellAt (a + i)) = true) := by
    simpa [OffCells] using hcell
  have h2 : ¬(capHit a b.length = true) := fun h => by
    obtain ⟨k, hk, hin⟩ := (capHit_iff a b.length).mp h
    rw [hcap k hk] at hin
    cases hin
  rw [State.writePa, if_neg h1, if_neg h2]

/-! ### Contributions of a peer -/

theorem wordsOf_none {s : State} {take : Contrib → Bool} (h : ∀ c ∈ s.ordq, take c = false) : s.wordsOf take = [] := by
  rw [State.wordsOf, List.filter_eq_nil_iff.mpr fun c hc => Bool.eq_false_iff.mp (h c hc)]
  rfl

/-! ### The statement -/

/-- Settles O59: the calls one by one; an outside access by whether it reaches open memory, secure memory or none. -/
theorem hostSteps : Obligations.HostSteps := by
  unfold Obligations.HostSteps
  intro sec root bk bs sv excl imp ctx die header va size cell cfg pkg data bytes nonce pa n e w0 w1 id mem up rch img
    rec_ fw x a y op dbl b c launch key t ret open_ sees plain word agents
  have hword : word = dblBytes dbl := rfl
  refine ⟨?_, ?_, ?_, ?_, ?_, ?_, ?_, ?_, ?_, ?_, ?_, ?_, ?_, ?_, ?_, ?_, ?_, ?_, ?_, ?_, ?_, ?_⟩
  · exact calls_of_event (fun _ => rfl) fun _ _ _ => rfl
  · exact calls_of_event (fun _ => rfl) fun s _ hb => by
      simp only [hb, Bool.or_true, if_true]
      rfl
  · intro s hi hr hix hc hb
    subst hix
    obtain ⟨c', hc'⟩ := Option.isSome_iff_exists.mp hc
    obtain ⟨u, hu, hctxs, hreply, hqueues, hmem⟩ := ctxDestroy_ok hi hr hc' hb
    refine ⟨u, hu, ?_, hreply, fun q hq => ?_, hmem⟩
    · rw [hctxs]
      exact SMap.get?_del_self ..
    · rw [hqueues] at hq
      exact bne_iff_ne.mp (List.mem_filter.mp hq).2
  · exact acts_of_event (fun _ => rfl) fun s _ hr => if_neg (ne_true_of_eq_false hr)
  · exact fun s hi hr ⟨hread, hgood⟩ => queueCreate_bad hread hgood hi hr
  · exact fun s hi hr hread hgood => queueCreate_ok hread hgood hi hr
  · intro s hi hr v
    obtain ⟨u, w, hexec, hu, hmem, hctxs⟩ := shootdown_ok hi hr ctx va size v rfl
    obtain ⟨cs, hcores⟩ := foldl_discardL1_coresOnly (v.ctxCores ctx) w
    refine ⟨u, hexec, ?_, fun c hc => ?_, fun core hcore => ?_⟩
    · rw [hu, hcores]
      exact hmem
    · have hsame : u.ctxs = w.ctxs := by rw [hu, hcores]
      rw [hsame, hctxs, SMap.get?_upd_self]
      exact congrArg (Option.map _) hc
    · rw [hu]
      exact foldl_discardL1_l1 hcore w
  · exact calls_of_event (fun _ => rfl) fun s _ ⟨hcell, hphys, hpart, hnum, hdom, halign, hres, hround⟩ => by
      simp only [hcell, hphys, State.cellOk, hpart, hnum, hdom, halign, hres, hround, decide_true, Bool.and_self,
        Bool.not_true, Bool.or_self]
      rfl
  · exact calls_of_event (fun _ => rfl) fun s _ ⟨hcell, hround⟩ => by
      have hbusy : y.round.isEmpty = false := by simpa using hround
      simp only [hcell, hbusy, Bool.not_false, Bool.true_or]
      rfl
  · exact acts_of_event (fun _ => rfl) fun s _ ⟨hcell, hmember, hlen⟩ => by
      simp only [hcell, hmember, hlen, decide_true, Bool.and_self, if_true]
  · intro s hi hr
    exact ⟨_, s.attest (leBytes 32 nonce.toNat), attest_ok hi hr nonce, rfl, rfl, rfl, rfl, rfl, rfl, rfl, rfl⟩
  · exact fun s hi hr => by
      refine Eq.trans (if_neg (ne_true_of_eq_false hr)) ?_
      rw [event_noIssue hi]
      rfl
  · have hagents : ∀ P, (∀ i g on, (∀ s x, on s → exec (i x) s = s.outside g x) → (g.pkg = none ∨ g.pkg = some pkg) →
        P i g on) → agents P := fun _ h => agents_of h
    clear_value agents
    refine hagents _ fun i g on hexec hpkg => ?_
    have hopen {s : State} (h : open_ g.secure s) : OpenTo s g.secure pa n a :=
      ⟨h.1, h.2.1, h.2.2.1, h.2.2.2⟩
    refine ⟨?_, ?_, ?_, ?_, ?_, ?_⟩
    · exact fun s hi ⟨hon, ho⟩ => (hexec s _ hon).trans (outside_ok hi rfl (hopen ho) (.inl rfl))
    · rintro s hi ⟨hon, rfl, ho⟩
      exact (hexec s _ hon).trans (outside_ok hi rfl (hopen ho) (.inl rfl))
    · rintro s hi ⟨hon, rfl, ho, hp⟩
      exact (hexec s _ hon).trans (outside_ok hi rfl (hopen ho) (.inr hp))
    · rintro s hi hon rfl ho hp
      refine ⟨⟨_, ?_, (hexec s _ hon).trans (outside_ok hi rfl (hopen ho) (.inr hp))⟩, ?_, ?_, ?_⟩
      · rfl
      · refine (hexec s _ hon).trans ((outside_ok hi rfl (hopen ho) (.inr hp)).trans ?_)
        rw [outsideAt_scond]
        rfl
      · exact (hexec s _ hon).trans (outside_ok hi rfl (hopen ho) (.inr hp))
      · refine (hexec s _ hon).trans ((outside_ok hi rfl (hopen ho) (.inr hp)).trans ?_)
        rw [outsideAt_contribute s g hpkg]
    · rintro s hi ⟨hon, hx, -, hfirst, hlast, hg, k, hk, hs⟩
      exact (hexec s _ hon).trans (outside_barred hi hx hfirst hlast hg hk hs)
    · exact fun s hon hx hp => (hexec s _ hon).trans (outside_nowhere hx hp)
  · exact fun s h => contribute_peer h
  · intro old B C hold hB hC sg
    refine (atomNew_value op dbl C hold hB).trans ?_
    cases op <;> rfl
  · intro s by_ hcell hcap u
    have hu : u.mem = wrBytes s.mem a data := by
      show (s.writePa by_ a data).mem = _
      rw [writePa_plain hcell hcap]
      exact State.put_mem_mem ..
    rw [hu]
    exact ⟨rdBytes_wrBytes .., fun z hz => rdByte_wrBytes_out _ _ _ hz⟩
  · refine acts_of_event (fun _ => rfl) fun s _ hnone => ?_
    have hmine : ∀ c ∈ s.ordq, (c.launch = s.turn.k && c.pkg = s.turn.ix && s.turn.ix != s.trellis.id) = false :=
      fun c hc => by simp [hnone c hc]
    simp only [wordsOf_none hmine, List.foldl_nil]
  · exact acts_of_event (fun _ => rfl) fun _ _ _ => rfl
  · exact calls_of_event (fun _ => rfl) fun s _ ⟨he, hlock⟩ => by
      simp only [hlock, Nat.not_le.mpr he, decide_false, Bool.or_self, Bool.false_eq_true, if_false]
      rfl
  · exact calls_of_event (fun _ => rfl) fun s _ hlock => by simp only [hlock, Bool.or_true, if_true]
  · exact calls_of_event (fun _ => rfl) fun _ _ _ => rfl
  · exact acts_of_event (fun _ => rfl) fun _ _ _ => rfl

end Sys2Proof.Machine
end

section
/-! Errors of stores and links. With it, O60. -/

namespace Sys2Proof.Machine

/-- What an L2 or the HBM of a die may hold: the lines of which the die is the home. -/
theorem errHere_iff (store : ErrStore) (die loc : Nat) :
    errHere store die loc = true ↔ (store = .l2 ∨ store = .hbm → loc < 2 ^ 39 ∧ homeDie loc = die) := by
  cases store <;> simp [errHere]

/-! ### Corrected errors -/

theorem corrected_elsewhere {s : State} (h : errHere s.turn.store s.turn.k s.turn.ix ≠ true) : s.corrected = s := by
  rw [State.corrected, eq_false_of_ne_true h]
  rfl

/-- A class-0 record is delivered, unless the queue is full. -/
theorem corrected_noted {s : State} (h : errHere s.turn.store s.turn.k s.turn.ix = true) (hf : s.turn.flag = false)
    (hs : s.turn.store ≠ .l1Instr) :
    s.corrected = s.deliver { mcheck 25 s.turn.k (storeCode s.turn.store) s.turn.ix
      (errPlace s.turn.store s.turn.ix s.turn.m) 0xFF 0xFF 0 with
        cls := 0, source := storeSource s.turn.store, time := s.time } := by
  simp [State.corrected, h, hf, hs]

theorem corrected_full {s : State} (h : errHere s.turn.store s.turn.k s.turn.ix = true) (hf : s.turn.flag = true)
    (hs : s.turn.store ≠ .l1Instr) :
    s.corrected = State.bbox { s with host := { s.host with dropped := s.host.dropped + 1 } } s.turn.k
      8 0x02 0 0xFF 0xFF 0 [BitVec.ofNat 64 (s.host.dropped + 1)] := by
  simp [State.corrected, h, hf, hs]

/-- An instruction cache's line goes, and the error is recorded in the state without it. -/
theorem corrected_instr {s u : State} (hf : s.turn.flag = false) (hs : s.turn.store = .l1Instr)
    (hu : u = s.updCore (132 * s.turn.k + s.turn.m % 132) (fun c => { c with l1i := c.l1i.del (s.turn.ix / 256) })) :
    s.corrected = u.deliver { mcheck 25 u.turn.k (storeCode u.turn.store) u.turn.ix
      (errPlace u.turn.store u.turn.ix u.turn.m) 0xFF 0xFF 0 with
        cls := 0, source := storeSource u.turn.store, time := u.time } := by
  have hturn : u.turn = s.turn := by
    rw [hu]
    rfl
  have hhere : errHere s.turn.store s.turn.k s.turn.ix = true := by
    rw [hs]
    rfl
  rw [State.corrected, hhere, hturn, if_pos hs, ← hu]
  simp only [Bool.not_true, Bool.false_eq_true, if_false, hturn, hf]

/-! ### Uncorrectable errors -/

/-- The record of an error in a store: found at `turn.m` of die `turn.k`. -/
def State.storeCheck (s : State) : MCheck :=
  { mcheck 25 s.turn.k (storeCode s.turn.store) s.turn.m
    (errPlace s.turn.store s.turn.m s.turn.ix) 0xFF 0xFF 0 with source := storeSource s.turn.store }

theorem uncorrectable_elsewhere {s : State} (hi : s.issue = none)
    (h : s.turn.store = .l1Instr ∨ errHere s.turn.store s.turn.k s.turn.m ≠ true) :
    execUncorrectableError s = .next s.followed := by
  rw [execUncorrectableError, event_noIssue hi, if_pos]
  rcases h with h | h
  · simp [h]
  · simp [eq_false_of_ne_true h]

theorem uncorrectable_owned {s : State} {id : Nat} {x : Launch} (hi : s.issue = none)
    (hs : s.turn.store ≠ .l1Instr) (hh : errHere s.turn.store s.turn.k s.turn.m = true) (hsite : s.turn.site = .owned id)
    (hl : s.launches.get? id = some x) (hf : s.turn.flag = false) :
    execUncorrectableError s = .next (s.doom id 0x00010002 s.storeCheck).followed := by
  rw [execUncorrectableError, event_noIssue hi]
  simp only [hs, hh, hf, hsite, hl, decide_false, Bool.not_true, Bool.or_self, Bool.false_eq_true, if_false,
    Option.isSome_some, if_true]
  rfl

/-- A location whose bits stay wrong is recorded first. -/
theorem uncorrectable_recorded {s : State} {id : Nat} {x : Launch} {p : Place} (hi : s.issue = none)
    (hs : s.turn.store ≠ .l1Instr) (hh : errHere s.turn.store s.turn.k s.turn.m = true) (hsite : s.turn.site = .owned id)
    (hl : s.launches.get? id = some x) (hf : s.turn.flag = true)
    (hp : badPlace s.turn.store s.turn.k s.turn.m s.turn.ix = some p) :
    execUncorrectableError s = .next
      (State.doom { s with bad := p :: s.bad.filter (· != p) } id 0x00010002 s.storeCheck).followed := by
  rw [execUncorrectableError, event_noIssue hi]
  simp only [hs, hh, hf, hsite, hl, hp, decide_false, Bool.not_true, Bool.or_self, Bool.false_eq_true, if_false,
    Option.isSome_some, if_true]
  rfl

theorem uncorrectable_command {s : State} {id : Nat} {c : Cmd} (hi : s.issue = none)
    (hs : s.turn.store ≠ .l1Instr) (hh : errHere s.turn.store s.turn.k s.turn.m = true) (hsite : s.turn.site = .command id)
    (hc : s.cmds.get? id = some c) (hf : s.turn.flag = false) :
    execUncorrectableError s = .next (s.loseCmd c (storeCode s.turn.store) s.turn.m).followed := by
  rw [execUncorrectableError, event_noIssue hi]
  simp only [hs, hh, hf, hsite, hc, decide_false, Bool.not_true, Bool.or_self, Bool.false_eq_true, if_false]

/-! ### Links -/

theorem pcieNote_loads (s : State) (core slot thread : Nat) (p : Place) :
    (s.pcieNote core slot thread p).loads = s.loads ∧ (s.pcieNote core slot thread p).mem = s.mem := by
  cases p <;> exact ⟨rfl, rfl⟩

theorem Load.ones_eight {l : Load} (hsx : l.sx = false) (hb : l.bytes = 8) : l.ones = BitVec.allOnes 64 := by
  rw [Load.ones, hsx, hb]
  decide

theorem pcieTimeout_load {s : State} {l : Load} (hi : s.issue = none) (hf : s.turn.flag = false)
    (hl : s.loads.get? s.turn.ix = some l) (hp : l.place.pcie = true) (hh : l.homed = false) :
    execPcieTimeout s = .next (State.followed (State.pcieNote
      { s with loads := s.loads.put s.turn.ix { l with val := l.val.map (fun v => v.map (fun _ => l.ones)) } }
      (coreOf l.warp) l.warp l.thread l.place)) := by
  rw [execPcieTimeout, event_noIssue hi, hf, hl]
  simp [hp, hh]

theorem peerUnreachable_load {s : State} {l : Load} {p : Place} {pkg : Nat} (hi : s.issue = none) (hm : s.turn.m = 0)
    (hl : s.loads.get? s.turn.ix = some l) (hp : l.places.find? (fun p => !s.reaches p) = some p)
    (hpkg : p.peer = some pkg) :
    execPeerUnreachable s = .next (State.followed (s.peerLost (((s.warp? l.warp).map Warp.launch).getD 0)
      (coreOf l.warp) (warpNo l.warp) l.thread pkg (l.clause.zeroExtend 64) p)) := by
  have hcut : s.cutOff l.places = some (p, pkg) := by simp [State.cutOff, hp, hpkg]
  rw [execPeerUnreachable, event_noIssue hi, hm, hl]
  simp only [hcut]

/-- Settles O60: each error is an event of its own; an error off its die changes nothing. -/
theorem errorSteps : Obligations.ErrorSteps := by
  unfold Obligations.ErrorSteps
  intro id pkg l c x p v full noted found here
  have hhere (s : State) (loc : Nat) : errHere s.turn.store s.turn.k loc = true ↔ here s loc := errHere_iff ..
  have hoff (s : State) (loc : Nat) (h : ¬here s loc) : errHere s.turn.store s.turn.k loc ≠ true :=
    fun h' => h ((hhere s loc).mp h')
  refine ⟨?_, ?_, ?_, ?_, ?_, ?_, ?_, ?_, ?_, ?_, ?_, ?_⟩
  · exact acts_of_event (fun _ => rfl) fun s _ ⟨hf, hs, hh⟩ => corrected_noted ((hhere s _).mpr hh) hf hs
  · exact acts_of_event (fun _ => rfl) fun s _ ⟨hf, hs, hh⟩ => corrected_full ((hhere s _).mpr hh) hf hs
  · exact acts_of_event (fun _ => rfl) fun s _ hh => corrected_elsewhere (hoff s _ hh)
  · exact fun s hi hh => uncorrectable_elsewhere hi (.inr (hoff s _ hh))
  · exact acts_of_event (fun _ => rfl) fun s _ ⟨hf, hs⟩ => corrected_instr hf hs rfl
  · refine acts_of_event (fun _ => rfl) fun s _ ⟨hf, hs, hh⟩ => ?_
    have hscrub : (s.turn.store = .hbm || s.turn.store = .weight) = true := by simpa using hs
    have hne : s.turn.store ≠ .l1Instr := fun h => by simp [h] at hs
    exact (if_pos hscrub).trans (corrected_noted ((hhere s _).mpr hh) hf hne)
  · exact fun s hi ⟨hsite, hl, hf, hs, hh⟩ => uncorrectable_owned hi hs ((hhere s _).mpr hh) hsite hl hf
  · exact fun s hi ⟨hsite, hl, hf, hs, hh, hp⟩ => uncorrectable_recorded hi hs ((hhere s _).mpr hh) hsite hl hf hp
  · exact fun s hi hs => uncorrectable_elsewhere hi (.inl hs)
  · intro s hi hf hs hh hsite hc
    exact ⟨_, uncorrectable_command hi hs ((hhere s _).mpr hh) hsite hc hf, rfl, rfl, rfl, rfl⟩
  · intro s hi hf hix hl hp hh hv hsx hb
    subst hix
    have hkept := pcieNote_loads
      { s with loads := s.loads.put s.turn.ix { l with val := l.val.map (fun v => v.map (fun _ => l.ones)) } }
      (coreOf l.warp) l.warp l.thread l.place
    refine ⟨_, { l with val := l.val.map (fun v => v.map (fun _ => l.ones)) }, pcieTimeout_load hi hf hl hp hh, ?_, ?_,
      hkept.2⟩
    · rw [hkept.1]
      exact SMap.get?_put_self ..
    · rw [hv, Load.ones_eight hsx hb]
      rfl
  · intro s hi hm hix hl hp hpkg
    subst hix
    exact ⟨_, _, peerUnreachable_load hi hm hl hp hpkg, rfl, rfl, rfl, rfl⟩

end Sys2Proof.Machine
end

section
/-! Launches: the record, admission, the gang start and completion (R288–R300, R408), for O56. -/

namespace Sys2Proof.Machine

/-! ### The launch record (R288) -/

/-- A served queue of released dies, whose header can be read and is good. -/
structure ServedQueue (s : State) (q : Queue) (b : List Byte) : Prop where
  queue : s.queues.get? s.turn.ix = some q
  served : q.served = true
  released : s.released = true
  header : s.ctxRead q.ctx q.header.toNat 64 = .ok b
  good : headerGood b = true

theorem launchRecordRead_served {s : State} {q : Queue} {b : List Byte} (hi : s.issue = none) (h : ServedQueue s q b) :
    let n := (BitVec.ofNat 32 (fieldLE b 0x10 4) - q.consume).toNat
    execLaunchRecordRead s = .next (State.followed (
      if n = 0 then s
      else if 2 ^ fieldLE b 8 1 < n then s.stopQueue s.turn.ix q 0x11
        [q.header, (BitVec.ofNat 32 (fieldLE b 0x10 4)).zeroExtend 64, q.consume.zeroExtend 64]
      else s.readRecord s.turn.ix q (fieldLE b 0 8) (fieldLE b 8 1))) := by
  rw [execLaunchRecordRead, event_noIssue hi]
  simp only [h.queue, h.served, h.released, State.dieRead, h.header, h.good, Bool.not_true, Bool.or_self, Bool.false_eq_true,
    if_false]
  rfl

theorem launchRecordRead_barred {s : State} (hi : s.issue = none) (h : s.released = false) :
    execLaunchRecordRead s = .next s.followed := by
  rw [execLaunchRecordRead, event_noIssue hi]
  cases s.queues.get? s.turn.ix <;> simp [h]

/-! ### Admission (R294–R297) -/

/-- A launch whose parameter block has been read stands to admit, and no earlier queue is served before it. -/
structure Admits (s : State) (l : Launch) (k : Kpb) : Prop where
  launch : s.launches.get? s.turn.ix = some l
  kpb : l.kpb = some k
  admitting : s.admitting s.turn.ix l = true
  first : s.earlierQueue l = false

theorem blockAdmission_next {s : State} {l : Launch} {k : Kpb} (hi : s.issue = none) (h : Admits s l k)
    (hcoop : k.coop = false) (hmore : l.admitted < l.info.blocks) :
    execBlockAdmission s = .next ((s.admitNext s.turn.ix).getD s).followed := by
  rw [execBlockAdmission, event_noIssue hi]
  simp only [h.launch, h.kpb, h.admitting, h.first, hcoop, Nat.not_le.mpr hmore, decide_false, Bool.not_true, Bool.or_self,
    Bool.false_eq_true, if_false]

theorem cooperativeAdmission_all {s : State} {l : Launch} {k : Kpb} (hi : s.issue = none) (h : Admits s l k)
    (hcoop : k.coop = true) (hnone : l.admitted = 0) :
    execCooperativeAdmission s = .next ((State.admitAll s.turn.ix l.info.blocks s).getD s).followed := by
  rw [execCooperativeAdmission, event_noIssue hi]
  simp only [h.launch, h.kpb, h.admitting, h.first, hcoop, hnone, bne_self_eq_false, Bool.not_true, Bool.or_self,
    Bool.false_eq_true, if_false]

theorem takeLane_launches (s : State) (slot : Nat) : (s.takeLane slot).launches = s.launches := by
  unfold State.takeLane
  split <;> rfl

theorem prefetch_launches (s : State) (ctx : Nat) (lines : List Word) (cores : List Nat) :
    (s.prefetch ctx lines cores).launches = s.launches := by
  refine foldl_keeps (I := fun u : State => u.launches = s.launches) (fun u a hu => ?_) lines rfl
  split
  · unfold State.dieViolation
    split <;> exact hu
  · split
    · exact hu
    · refine foldl_keeps (I := fun u : State => u.launches = s.launches) (fun v c hv => ?_) cores hu
      exact hv

theorem commitBlock_launches (s : State) (id : Nat) (l : Launch) (k : Kpb) (got : List (Nat × (List Nat × Nat × Nat))) :
    (s.commitBlock id l k got).launches = s.launches.upd id (fun l => { l with admitted := l.admitted + 1 }) := by
  refine congrArg (fun m : SMap Launch => m.upd id (fun l => { l with admitted := l.admitted + 1 })) ?_
  refine foldl_keeps (I := fun u : State => u.launches = s.launches) (fun u x hu => ?_) _ rfl
  exact (takeLane_launches _ x.1).trans hu

/-- A block that has been admitted is counted. -/
theorem admitNext_counts {s u : State} {id : Nat} {l : Launch} (hu : s.admitNext id = some u)
    (hl : s.launches.get? id = some l) :
    u.launches.get? id = some { l with admitted := l.admitted + 1 } := by
  simp only [State.admitNext, hl] at hu
  split at hu
  · cases hu
  · split at hu
    · cases hu
    · next k _ _ _ got _ =>
      have hstep : ((s.commitBlock id l k got).prefetch l.ctx k.lines (got.map (·.1))).launches.get? id
          = some { l with admitted := l.admitted + 1 } := by
        rw [prefetch_launches, commitBlock_launches, SMap.get?_upd_self, hl]
        rfl
      split at hu <;> cases hu <;> exact hstep

/-! ### The gang start (R26, R298) -/

/-- `w'` is warp `w` with the threads and uniforms that its launch starts it with. -/
def StartedFrom (r : Rec) (k : Kpb) (index : Nat) (w w' : Warp) : Prop :=
  w'.s = launchUniform k ∧ ∀ t, t < 32 →
    w'.thread t = launchThread r (k.roles.getD w.role ⟨0, 0, 0, 0⟩) index (rankOf w t)

/-- Warp slot x holds `w`, as far as its role and number go, and what `P` says of it. -/
def HoldsWarp (x : Nat) (w : Warp) (P : Warp → Prop) (u : State) : Prop :=
  ∃ w', u.warp? x = some w' ∧ w'.role = w.role ∧ w'.num = w.num ∧ P w'

theorem Warp.rebuild_place (w : Warp) : w.rebuild.role = w.role ∧ w.rebuild.num = w.num := by
  unfold Warp.rebuild Warp.fitTable
  split <;> exact ⟨rfl, rfl⟩

/-- A map that gives each key of a list the value of a function. -/
theorem SMap.get?_map_keys {α : Type} (f : Nat → α) {ks : List Nat} {t : Nat} (h : t ∈ ks) :
    SMap.get? (ks.map (fun k => (k, f k))) t = some (f t) := by
  induction ks with
  | nil => cases h
  | cons k ks ih =>
    by_cases hk : k = t
    · subst hk
      exact if_pos rfl
    · exact (if_neg hk).trans (ih ((List.mem_cons.mp h).resolve_left fun e => hk e.symm))

theorem State.warp?_updWarp_ne (s : State) {x y : Nat} (f : Warp → Warp) (h : x ≠ y) :
    (s.updWarp y f).warp? x = s.warp? x := SMap.get?_upd_ne s.warps f h

theorem startWarp_self (u : State) (b : Block) (r : Rec) (k : Kpb) {x : Nat} {w : Warp} {P : Warp → Prop}
    (h : HoldsWarp x w P u) : HoldsWarp x w (StartedFrom r k b.index w) (u.startWarp b r k x) := by
  obtain ⟨w₀, hw₀, hrole, hnum, -⟩ := h
  refine ⟨_, (State.warp?_updWarp u x _).trans (congrArg _ hw₀), ?_, ?_, ?_, fun t ht => ?_⟩
  · exact (Warp.rebuild_place _).1.trans hrole
  · exact (Warp.rebuild_place _).2.trans hnum
  · exact (Warp.rebuild_rest _).2.2.2.2.1
  · have hrank : rankOf w₀ t = rankOf w t := by rw [rankOf, rankOf, hnum]
    rw [Warp.thread, SMap.get, (Warp.rebuild_rest _).1, SMap.get?_map_keys _ (List.mem_range.mpr ht), ← hrank, ← hrole]
    rfl

theorem startWarp_ne (u : State) (b : Block) (r : Rec) (k : Kpb) {x y : Nat} (h : x ≠ y) :
    (u.startWarp b r k y).warp? x = u.warp? x := State.warp?_updWarp_ne u _ h

/-- Once each warp of the block has started, every one stands as its launch starts it. -/
theorem startWarps_started {s : State} (b : Block) (r : Rec) (k : Kpb) {xs : List Nat} {x : Nat} (hx : x ∈ xs) {w : Warp}
    (hw : s.warp? x = some w) :
    HoldsWarp x w (StartedFrom r k b.index w) (xs.foldl (fun s slot => s.startWarp b r k slot) s) := by
  refine foldl_reaches (I := HoldsWarp x w fun _ => True) (fun u y h => ?_) (fun u y h => ?_)
    (fun u h => startWarp_self u b r k h) hx ⟨w, hw, rfl, rfl, trivial⟩
  · by_cases hxy : x = y
    · subst hxy
      obtain ⟨w', hw', hrole, hnum, -⟩ := startWarp_self u b r k h
      exact ⟨w', hw', hrole, hnum, trivial⟩
    · obtain ⟨w', hw', hrest⟩ := h
      exact ⟨w', (startWarp_ne u b r k hxy).trans hw', hrest⟩
  · by_cases hxy : x = y
    · subst hxy
      exact startWarp_self u b r k h
    · obtain ⟨w', hw', hrest⟩ := h
      exact ⟨w', (startWarp_ne u b r k hxy).trans hw', hrest⟩

/-- The blocks and the warps are those of `s`. -/
def SameBlocksWarps (s u : State) : Prop := u.blocks = s.blocks ∧ u.warps = s.warps

theorem clearWindows_keeps (s : State) (b : Block) :
    SameBlocksWarps s (s.clearWindows b) ∧ (s.clearWindows b).turn = s.turn := by
  refine foldl_keeps (I := fun u : State => SameBlocksWarps s u ∧ u.turn = s.turn) (fun u x h => ?_) _ ⟨⟨rfl, rfl⟩, rfl⟩
  exact h

/-- The state in which a block's warps start: its windows read zero and its cores follow what came before. -/
def State.readied (s : State) (b : Block) (l : Launch) : State :=
  b.cores.foldl (fun s c => (s.learn c (l.view ++ s.ctxView l.ctx)).discardL1 c) (s.clearWindows b)

theorem readied_coresOnly (s : State) (b : Block) (l : Launch) : CoresOnly (s.clearWindows b) (s.readied b l) := by
  refine foldl_keeps (I := CoresOnly (s.clearWindows b)) (fun u c h => ?_) _ (CoresOnly.refl _)
  exact h.trans ((State.learn_coresOnly u c _).trans (State.updCore_coresOnly _ c _))

theorem readied_keeps (s : State) (b : Block) (l : Launch) :
    SameBlocksWarps s (s.readied b l) ∧ (s.readied b l).turn = s.turn := by
  obtain ⟨hsame, hturn⟩ := clearWindows_keeps s b
  obtain ⟨cs, hcs⟩ := readied_coresOnly s b l
  rw [hcs]
  exact ⟨hsame, hturn⟩

/-- The state in which the block's warps have started. -/
def State.warpsStarted (s : State) (b : Block) (l : Launch) (k : Kpb) : State :=
  b.warps.foldl (fun s slot => s.startWarp b l.info k slot) (s.readied b l)

theorem warpsStarted_keeps (s : State) (b : Block) (l : Launch) (k : Kpb) :
    (s.warpsStarted b l k).blocks = s.blocks ∧ (s.warpsStarted b l k).turn = s.turn := by
  obtain ⟨⟨hblocks, -⟩, hturn⟩ := readied_keeps s b l
  refine foldl_keeps (I := fun u : State => u.blocks = s.blocks ∧ u.turn = s.turn) (fun u x h => ?_) b.warps ⟨hblocks, hturn⟩
  exact h

/-- What the gang start leaves, once the warps have started: the block and its launch are marked. -/
def State.gangMarked (u : State) (launch : Nat) : State :=
  let u := u.updBlock u.turn.ix (fun b => { b with started := true, token := u.firstTokens b })
  u.updLaunch launch (fun l => { l with start := some (l.start.getD u.time) })

theorem gangMarked_block {u : State} {b : Block} (h : u.blocks.get? u.turn.ix = some b) (launch : Nat) :
    (u.gangMarked launch).blocks.get? u.turn.ix = some { b with started := true, token := u.firstTokens b } :=
  (SMap.get?_upd_self ..).trans (congrArg _ h)

theorem gangStart_ok {s : State} {b : Block} {l : Launch} {k : Kpb} (hi : s.issue = none)
    (hb : s.blocks.get? s.turn.ix = some b) (hl : s.launches.get? b.launch = some l) (hk : l.kpb = some k)
    (hstart : b.started = false) (hsave : ∀ x ∈ b.warps, ((s.warp? x).bind Warp.save) = none) :
    execGangStart s = .next ((s.warpsStarted b l k).gangMarked b.launch).followed := by
  have hgo : (b.started || b.warps.any (fun x => ((s.warp? x).bind Warp.save).isSome)) = false := by
    rw [hstart, Bool.false_or, List.any_eq_false]
    intro x hx
    rw [hsave x hx]
    decide
  rw [execGangStart, event_noIssue hi]
  simp only [hb, hl, hk, hgo, Bool.false_eq_true, if_false]
  rfl

/-- Every warp of the block stands as its launch starts it. -/
theorem warpsStarted_started {s : State} {b : Block} (l : Launch) (k : Kpb) {x : Nat} (hx : x ∈ b.warps) {w : Warp}
    (hw : s.warp? x = some w) : HoldsWarp x w (StartedFrom l.info k b.index w) (s.warpsStarted b l k) :=
  startWarps_started b l.info k hx ((congrArg (SMap.get? · x) (readied_keeps s b l).1.2).trans hw)

/-! ### Completion (R274, R290) -/

/-- A launch that is no pool's and that is over but for its contributions on their way. -/
structure OverBut (s : State) (l : Launch) (k : Kpb) : Prop where
  launch : s.launches.get? s.turn.ix = some l
  kpb : l.kpb = some k
  opened : l.closed = false
  admitted : l.info.blocks ≤ l.admitted
  finished : l.info.blocks ≤ l.finished
  noPool : s.isPool s.turn.ix = false
  noCmds : ∀ c ∈ s.cmds, c.2.launch ≠ s.turn.ix
  goes : s.ending s.turn.ix = false

theorem launchCompletion_ok {s u : State} {l : Launch} {k : Kpb} (hi : s.issue = none) (h : OverBut s l k)
    (hu : u = s.forceAll (fun i => i.launch = s.turn.ix && i.isContrib)) (hend : u.ending s.turn.ix = false)
    (hlost : u.lostWord s.turn.ix = none) (hpool : u.isPool s.turn.ix = false) :
    execLaunchCompletion s = .next (u.endNormally s.turn.ix).followed := by
  have hcmds : s.cmds.vals.all (fun c => c.launch != s.turn.ix) = true := by
    simpa [SMap.vals] using h.noCmds
  have hdone : (l.kpb.isSome && l.info.blocks ≤ l.admitted && s.cmds.vals.all (fun c => c.launch != s.turn.ix)
      && !s.ending s.turn.ix) = true := by
    rw [h.kpb, hcmds, h.goes, decide_eq_true h.admitted]
    rfl
  rw [execLaunchCompletion, event_noIssue hi]
  simp only [h.launch, h.opened, hdone, h.noPool, h.finished, ← hu, hend, hlost, hpool, decide_true, Bool.not_true,
    Bool.or_self, Bool.false_eq_true, if_false]

end Sys2Proof.Machine
end

section
/-! Seedbed: placement, chunks, the records that start threads (R300–R306). With it, O56. -/

namespace Sys2Proof.Machine

/-! ### Seeds -/

theorem State.die_updDie (s : State) (d : Nat) (f : Die → Die) : (s.updDie d f).die d = f (s.die d) :=
  SMap.get_set_self s.dies Die.empty d _

theorem State.seed_updSeed (s : State) (die ctx : Nat) (f : Seed → Seed) :
    (s.updSeed die ctx f).seed die ctx = f (s.seed die ctx) := by
  rw [State.seed, State.updSeed, State.die_updDie]
  exact SMap.get_set_self _ _ ctx _

/-! ### Where a record goes (R305) -/

theorem mem_placeSet (s : State) (die ctx : Nat) (dealt : List Nat) (c : Nat) :
    c ∈ s.placeSet die ctx dealt ↔ 132 * die ≤ c ∧ c < 132 * die + 132
      ∧ (∃ x ∈ s.poolWarps die ctx, coreOf x.1 = c) ∧ c ∉ s.exclOf ctx
      ∧ ((s.seed die ctx).lists.get [] c).length + (dealt.count c - 32 * s.idleCount die ctx c) < 64 := by
  have hcount : (dealt.filter (· = c)).length = dealt.count c := by
    rw [List.count_eq_length_filter]
    exact congrArg List.length (List.filter_congr fun x _ => (beq_eq_decide x c).symm)
  have hrange : c ∈ (List.range 132).map (132 * die + ·) ↔ 132 * die ≤ c ∧ c < 132 * die + 132 := by
    simp only [List.mem_map, List.mem_range]
    constructor
    · rintro ⟨k, hk, rfl⟩
      omega
    · exact fun ⟨h1, h2⟩ => ⟨c - 132 * die, by omega, by omega⟩
  rw [State.placeSet, List.mem_filter, hrange, hcount]
  simp [and_assoc]

theorem placeSet_ascends (s : State) (die ctx : Nat) (dealt : List Nat) :
    (s.placeSet die ctx dealt).Pairwise (· < ·) := by
  refine List.Pairwise.filter _ (List.pairwise_map.mpr ?_)
  exact List.pairwise_lt_range.imp fun h => Nat.add_lt_add_left h _

/-- `c` is as good as x: more of R, or as much and less of M, or as much of both and no higher. -/
def AsGood (R M : Nat → Nat) (c x : Nat) : Prop := R x < R c ∨ (R x = R c ∧ (M c < M x ∨ (M c = M x ∧ c ≤ x)))

theorem AsGood.refl (R M : Nat → Nat) (c : Nat) : AsGood R M c c := .inr ⟨rfl, .inr ⟨rfl, le_rfl⟩⟩

theorem AsGood.trans {R M : Nat → Nat} {a b c : Nat} (hab : AsGood R M a b) (hbc : AsGood R M b c) : AsGood R M a c := by
  unfold AsGood at *
  omega

section
variable {R M : Nat → Nat} {f : Option Nat → Nat → Option Nat}
  (hsome : ∀ b c, f (some b) c
    = if (decide (R b < R c) || (decide (R c = R b) && decide (M c < M b))) = true then some c else some b)
include hsome

/-- A fold that replaces its choice by a strictly better one, along an ascending list, ends with the best. -/
theorem foldl_best (xs : List Nat) (b : Nat) (hb : ∀ x ∈ xs, b < x) (hxs : xs.Pairwise (· < ·)) :
    ∃ c, xs.foldl f (some b) = some c ∧ c ∈ b :: xs ∧ ∀ x ∈ b :: xs, AsGood R M c x := by
  induction xs generalizing b with
  | nil => exact ⟨b, rfl, List.mem_singleton_self b, fun x hx => List.mem_singleton.mp hx ▸ AsGood.refl R M b⟩
  | cons y ys ih =>
    obtain ⟨hy, hys⟩ := List.pairwise_cons.mp hxs
    have hby : b < y := hb y List.mem_cons_self
    obtain ⟨z, hz, hzb, hzy, hzmem⟩ : ∃ z, f (some b) y = some z ∧ AsGood R M z b ∧ AsGood R M z y ∧ (z = b ∨ z = y) := by
      rw [hsome]
      split
      · next h =>
        have hlt : R b < R y ∨ (R y = R b ∧ M y < M b) := by simpa using h
        exact ⟨y, rfl, by unfold AsGood; omega, AsGood.refl R M y, .inr rfl⟩
      · next h =>
        have hge : ¬(R b < R y ∨ (R y = R b ∧ M y < M b)) := by simpa using h
        exact ⟨b, rfl, AsGood.refl R M b, by unfold AsGood; omega, .inl rfl⟩
    have hlow : ∀ x ∈ ys, z < x := fun x hx => by
      rcases hzmem with rfl | rfl
      · exact hby.trans (hy x hx)
      · exact hy x hx
    obtain ⟨c, hc, hmem, hgood⟩ := ih z hlow hys
    have hcz : AsGood R M c z := hgood z List.mem_cons_self
    refine ⟨c, by rw [List.foldl_cons, hz, hc], ?_, fun x hx => ?_⟩
    · rcases List.mem_cons.mp hmem with rfl | h
      · rcases hzmem with rfl | rfl <;> simp
      · exact List.mem_cons_of_mem _ (List.mem_cons_of_mem _ h)
    · rcases List.mem_cons.mp hx with rfl | hx
      · exact hcz.trans hzb
      · rcases List.mem_cons.mp hx with rfl | hx
        · exact hcz.trans hzy
        · exact hgood x (List.mem_cons_of_mem _ hx)

end

/-- A record goes to a core of the placement set, if there is one, that is as good as every other. -/
theorem placeOf_best (s : State) (die ctx : Nat) (dealt : List Nat) (r : TaskRec) :
    (s.placeSet die ctx dealt = [] ∧ s.placeOf die ctx dealt r = none)
    ∨ ∃ c, s.placeOf die ctx dealt r = some c ∧ c ∈ s.placeSet die ctx dealt
      ∧ ∀ x ∈ s.placeSet die ctx dealt, AsGood (s.residBytes die ctx r) (s.poolLoad die ctx dealt) c x := by
  have hasc := placeSet_ascends s die ctx dealt
  unfold State.placeOf
  cases hset : s.placeSet die ctx dealt with
  | nil => exact .inl ⟨rfl, rfl⟩
  | cons b xs =>
    rw [hset] at hasc
    obtain ⟨hb, hxs⟩ := List.pairwise_cons.mp hasc
    exact .inr (foldl_best (fun _ _ => rfl) xs b hb hxs)

/-! ### Chunks (R304) -/

theorem ceilDiv_eq {r m q : Nat} (hm : 0 < m) (hq : r ≤ m * q) (hmin : ∀ j, r ≤ m * j → q ≤ j) : (r + m - 1) / m = q := by
  refine Nat.le_antisymm ?_ (hmin _ ?_)
  · refine Nat.le_of_lt_succ ((Nat.div_lt_iff_lt_mul hm).mpr ?_)
    rw [Nat.succ_mul, Nat.mul_comm q m]
    omega
  · have := Nat.lt_mul_div_succ (r + m - 1) hm
    rw [Nat.mul_add] at this
    omega

theorem chunkOf_bounds {r n q : Nat} (hn : 0 < n) (hq : r ≤ 4 * n * q) (hmin : ∀ j, r ≤ 4 * n * j → q ≤ j) :
    chunkOf r n ≤ r
      ∧ (chunkOf r n < r → chunkOf r n % 32 = 0 ∧ max 32 q ≤ chunkOf r n ∧ chunkOf r n < max 32 q + 32) := by
  rw [chunkOf, ceilDiv_eq (by omega) hq hmin]
  omega

/-! ### Idle warps -/

theorem idleOn_warp {s : State} {die ctx core slot : Nat} (h : s.idleOn die ctx core = some slot) :
    ∃ w, (slot, w) ∈ s.warps ∧ dieOf slot = die ∧ coreOf slot = core ∧ w.ctx = ctx ∧ s.isPool w.launch = true
      ∧ w.ended = true ∧ w.freeze = none ∧ w.save = none := by
  obtain ⟨⟨k, w⟩, hfind, rfl⟩ := Option.map_eq_some_iff.mp h
  have hmem := List.mem_of_find?_eq_some hfind
  have hok := List.find?_some hfind
  simp only [State.poolWarps, List.mem_filter, Bool.and_eq_true, decide_eq_true_eq] at hmem
  simp only [State.idle, Bool.and_eq_true, decide_eq_true_eq, Option.isNone_iff_eq_none] at hok
  obtain ⟨hin, ⟨hdie, hctx⟩, hpool⟩ := hmem
  obtain ⟨hcore, ⟨⟨⟨⟨-, hended⟩, hfreeze⟩, hsave⟩, -⟩, -⟩ := hok
  exact ⟨w, hin, hdie, hcore, hctx, hpool, hended, hfreeze, hsave⟩

/-! ### Records that start threads (R300) -/

/-- The threads of a warp that takes records, numbered from `id`. -/
def taskThreads (rs : List TaskRec) (start : Nat → Word) (id : Nat) (m : SMap Thread) : SMap Thread :=
  rs.zipIdx.foldl (fun m (r, t) => m.put t (taskThread r (start t) (id + t))) m

theorem foldl_put_zipIdx (g : TaskRec → Nat → Thread) (rs : List TaskRec) (n : Nat) (m : SMap Thread) (k : Nat) :
    ((rs.zipIdx n).foldl (fun m (x : TaskRec × Nat) => m.put x.2 (g x.1 x.2)) m).get? k
      = if n ≤ k then ((rs[k - n]?).map (g · k)).or (m.get? k) else m.get? k := by
  induction rs generalizing n m with
  | nil => simp
  | cons r rs ih =>
    rw [List.zipIdx_cons, List.foldl_cons, ih]
    rcases Nat.lt_trichotomy k n with hk | rfl | hk
    · rw [if_neg (by omega), if_neg (by omega), SMap.get?_put_ne _ _ (by omega)]
    · simp
    · have hsub : k - n = (k - (n + 1)) + 1 := by omega
      rw [if_pos (by omega), if_pos (by omega), SMap.get?_put_ne _ _ (by omega), hsub, List.getElem?_cons_succ]

theorem taskThreads_get? (rs : List TaskRec) (start : Nat → Word) (id : Nat) (m : SMap Thread) (k : Nat) :
    (taskThreads rs start id m).get? k = ((rs[k]?).map (fun r => taskThread r (start k) (id + k))).or (m.get? k) :=
  foldl_put_zipIdx (fun r t => taskThread r (start t) (id + t)) rs 0 m k

section
variable {s : State} {slot : Nat} {w : Warp} {i : Rec} {blk : Block} (hw : s.warp? slot = some w) (hi : s.infoOf w = some i)
  (hb : s.blocks.get? w.block = some blk) (rs : List TaskRec)
include hw hi hb

/-- The records start threads of the warp, and what else changes are caches and numbers. -/
theorem startTasks_eq : ∃ cs, s.startTasks slot rs = State.setWarp { s with cores := cs, nextId := s.nextId + rs.length }
    slot (Warp.rebuild { w with
      threads := taskThreads rs (fun t => spillTop i blk.index (rankOf w t)) s.nextId w.threads }) := by
  obtain ⟨cs, hcs⟩ := (State.learn_coresOnly s (coreOf slot) (s.ctxView w.ctx ++ rs.flatMap TaskRec.view)).trans
    (State.updCore_coresOnly _ (coreOf slot) (fun c => { c with l1 := [] }))
  have hcs' : (s.learn (coreOf slot) (s.ctxView w.ctx ++ rs.flatMap TaskRec.view)).discardL1 (coreOf slot)
      = { s with cores := cs } := hcs
  refine ⟨cs, ?_⟩
  unfold State.startTasks
  simp only [hw, hi, hb, hcs']
  rfl

theorem startTasks_warp : ∃ w', (s.startTasks slot rs).warp? slot = some w' ∧ ∀ k, w'.threads.get? k
    = ((rs[k]?).map (fun r => taskThread r (spillTop i blk.index (rankOf w k)) (s.nextId + k))).or (w.threads.get? k) := by
  obtain ⟨cs, h⟩ := startTasks_eq hw hi hb rs
  rw [h]
  refine ⟨_, SMap.get?_put_self .., fun k => ?_⟩
  rw [(Warp.rebuild_rest _).1, taskThreads_get?]

theorem startTasks_frame : (s.startTasks slot rs).mem = s.mem
    ∧ ∀ x, x ≠ slot → (s.startTasks slot rs).warp? x = s.warp? x := by
  obtain ⟨cs, h⟩ := startTasks_eq hw hi hb rs
  rw [h]
  exact ⟨rfl, fun x hx => SMap.get?_put_ne s.warps _ hx⟩

end

theorem startTasks_dies (s : State) (slot : Nat) (rs : List TaskRec) : (s.startTasks slot rs).dies = s.dies := by
  unfold State.startTasks
  split
  · rfl
  · next w _ =>
    split
    · obtain ⟨cs, hcs⟩ := State.learn_coresOnly s (coreOf slot) (s.ctxView w.ctx ++ rs.flatMap TaskRec.view)
      have hdies : (s.learn (coreOf slot) (s.ctxView w.ctx ++ rs.flatMap TaskRec.view)).dies = s.dies := by
        rw [hcs]
      exact hdies
    · rfl

theorem seed_of_dies {s u : State} (h : u.dies = s.dies) (die ctx : Nat) : u.seed die ctx = s.seed die ctx := by
  rw [State.seed, State.seed, State.die, State.die, h]

theorem startTasks_seed (s : State) (slot : Nat) (rs : List TaskRec) (die ctx : Nat) :
    (s.startTasks slot rs).seed die ctx = s.seed die ctx := seed_of_dies (startTasks_dies s slot rs) die ctx

/-! ### Giving records to a core -/

/-- Records added to a core's list. -/
def State.listed (s : State) (die ctx core : Nat) (rs : List TaskRec) : State :=
  s.updSeed die ctx (fun q => { q with lists := q.lists.set [] core (q.lists.get [] core ++ rs) })

theorem giveCore_zero (s : State) (die ctx core : Nat) (rs : List TaskRec) :
    s.giveCore die ctx core 0 rs = s.listed die ctx core rs := rfl

theorem giveCore_nil (s : State) (die ctx core n : Nat) : s.giveCore die ctx core (n + 1) [] = s := rfl

theorem giveCore_none {s : State} {die ctx core : Nat} (h : s.idleOn die ctx core = none) (n : Nat) {rs : List TaskRec}
    (hrs : rs ≠ []) : s.giveCore die ctx core (n + 1) rs = s.listed die ctx core rs := by
  rw [State.giveCore, if_neg (by simpa using hrs), h]
  rfl

theorem giveCore_some {s : State} {die ctx core slot : Nat} (h : s.idleOn die ctx core = some slot) (n : Nat)
    {rs : List TaskRec} (hrs : rs ≠ []) :
    s.giveCore die ctx core (n + 1) rs = (s.startTasks slot (rs.take 32)).giveCore die ctx core n (rs.drop 32) := by
  rw [State.giveCore, if_neg (by simpa using hrs), h]

theorem listed_queues (s : State) (die ctx core : Nat) (rs : List TaskRec) :
    ((s.listed die ctx core rs).seed die ctx).queues = (s.seed die ctx).queues := by
  rw [State.listed, State.seed_updSeed]

theorem giveCore_queues (s : State) (die ctx core n : Nat) (rs : List TaskRec) :
    ((s.giveCore die ctx core n rs).seed die ctx).queues = (s.seed die ctx).queues := by
  induction n generalizing s rs with
  | zero => exact listed_queues s die ctx core rs
  | succ n ih =>
    by_cases hrs : rs = []
    · rw [hrs, giveCore_nil]
    · cases h : s.idleOn die ctx core with
      | none => rw [giveCore_none h n hrs, listed_queues]
      | some slot => rw [giveCore_some h n hrs, ih, startTasks_seed]

/-! ### Dealing the head of a queue -/

/-- The queue of priority p as it is left. -/
def State.leaveQueue (s : State) (die ctx p : Nat) (q : List Item) : State :=
  s.updSeed die ctx (fun d => { d with queues := d.queues.set [] p q })

/-- Records with their cores are given out, numbered in the order in which they were dealt. -/
def State.giveOut (s : State) (die ctx : Nat) (ps : List (Nat × TaskRec)) : State :=
  let n := s.nextId
  let s := { s with nextId := n + ps.length }
  let ps := ps.zipIdx.map (fun (q, i) => (q.1, { q.2 with nth := n + i }))
  (ps.map (·.1)).eraseDups.foldl (fun s c =>
    s.giveCore die ctx c 96 ((ps.filter (fun q => q.1 = c)).map (·.2))) s

theorem leaveQueue_queue (s : State) (die ctx p : Nat) (q : List Item) :
    ((s.leaveQueue die ctx p q).seed die ctx).queues.get [] p = q := by
  rw [State.leaveQueue, State.seed_updSeed]
  exact SMap.get_set_self ..

theorem giveOut_queues (s : State) (die ctx : Nat) (ps : List (Nat × TaskRec)) :
    ((s.giveOut die ctx ps).seed die ctx).queues = (s.seed die ctx).queues := by
  refine foldl_keeps (I := fun u : State => (u.seed die ctx).queues = (s.seed die ctx).queues) (fun u c h => ?_) _ rfl
  exact (giveCore_queues ..).trans h

/-- The queue of priority p is the highest that is not empty, and `x` is its head. -/
structure HeadAt (s : State) (die ctx p : Nat) (x : Item) (rest : List Item) : Prop where
  prio : p < 8
  head : (s.seed die ctx).queues.get [] p = x :: rest
  higher : ∀ j, p < j → j < 8 → (s.seed die ctx).queues.get [] j = []

theorem dealHead_task {s : State} {die ctx p c : Nat} {r : TaskRec} {rest : List Item}
    (h : HeadAt s die ctx p (.task r) rest) (hc : s.placeOf die ctx [] r = some c) :
    s.dealHead die ctx = (s.leaveQueue die ctx p rest).giveOut die ctx [(c, r)] := by
  obtain ⟨hp, hhead, hhigher⟩ := h
  have hset : (s.placeSet die ctx []).length ≠ 0 := fun h0 => by
    rw [State.placeOf, List.eq_nil_of_length_eq_zero h0] at hc
    cases hc
  unfold State.dealHead
  interval_cases p <;>
    simp [List.findSome?, hhead, hhigher, hset, State.placeSome, Item.record, hc] <;> rfl

theorem placeSome_length (s : State) (die ctx : Nat) (x : Item) (k n : Nat) (acc : List (Nat × TaskRec)) :
    (s.placeSome die ctx x k n acc).length ≤ acc.length + n := by
  induction n generalizing k acc with
  | zero => exact le_rfl
  | succ n ih =>
    rw [State.placeSome]
    split
    · omega
    · refine (ih _ _).trans ?_
      rw [List.length_append, List.length_singleton]
      omega

/-- A card at the head gives at most a chunk of its records, and stays with those that are left. -/
theorem dealHead_card {s : State} {die ctx p size count next : Nat} {e a j ba st : Word} {hid : Bool} {v : List Nat}
    {rest : List Item} (h : HeadAt s die ctx p (.card e a size count j ba st hid next v) rest)
    (hset : s.placeSet die ctx [] ≠ []) :
    ∃ ps : List (Nat × TaskRec), ps.length ≤ chunkOf (count - next) (s.placeSet die ctx []).length
      ∧ s.dealHead die ctx = (s.leaveQueue die ctx p (if next + ps.length = count then rest
          else .card e a size count j ba st hid (next + ps.length) v :: rest)).giveOut die ctx ps := by
  obtain ⟨hp, hhead, hhigher⟩ := h
  have hn : (s.placeSet die ctx []).length ≠ 0 := fun h0 => hset (List.eq_nil_of_length_eq_zero h0)
  refine ⟨(s.placeSome die ctx (.card e a size count j ba st hid next v) next
    (chunkOf (count - next) (s.placeSet die ctx []).length) []).map (fun x => (x.1, { x.2 with priority := p })), ?_, ?_⟩
  · rw [List.length_map]
    exact (placeSome_length ..).trans (Nat.zero_add _).le
  · unfold State.dealHead
    interval_cases p <;> simp only [List.findSome?, hhead, hhigher, hn, Nat.reduceLT, if_false] <;> rfl

/-! ### One record -/

/-- The state in which a task at the head is given to its core. -/
def State.taskLeft (s : State) (die ctx p : Nat) (rest : List Item) : State :=
  { s.leaveQueue die ctx p rest with nextId := s.nextId + 1 }

theorem giveOut_task (s : State) (die ctx p c : Nat) (rest : List Item) (r : TaskRec) :
    (s.leaveQueue die ctx p rest).giveOut die ctx [(c, r)]
      = (s.taskLeft die ctx p rest).giveCore die ctx c 96 [{ r with nth := s.nextId }] := by
  simp [State.giveOut, List.eraseDups_cons, State.taskLeft]
  rfl

theorem taskLeft_idleOn (s : State) (die ctx p : Nat) (rest : List Item) (core : Nat) :
    (s.taskLeft die ctx p rest).idleOn die ctx core = s.idleOn die ctx core := rfl

theorem taskLeft_lists (s : State) (die ctx p : Nat) (rest : List Item) :
    ((s.taskLeft die ctx p rest).seed die ctx).lists = (s.seed die ctx).lists := by
  have hleave : ((s.leaveQueue die ctx p rest).seed die ctx).lists = (s.seed die ctx).lists := by
    rw [State.leaveQueue, State.seed_updSeed]
  exact hleave

/-- Without an idle warp on its core the record waits on the core's list. -/
theorem giveOut_waits {s : State} {die ctx c : Nat} (h : s.idleOn die ctx c = none) (p : Nat) (rest : List Item) (r : TaskRec) :
    (((s.leaveQueue die ctx p rest).giveOut die ctx [(c, r)]).seed die ctx).lists.get [] c
      = (s.seed die ctx).lists.get [] c ++ [{ r with nth := s.nextId }] := by
  rw [giveOut_task, giveCore_none ((taskLeft_idleOn s die ctx p rest c).trans h) 95 (List.cons_ne_nil _ _), State.listed, State.seed_updSeed,
    taskLeft_lists]
  exact SMap.get_set_self ..

/-- On an idle warp of its core the record starts thread 0. -/
theorem giveOut_starts {s : State} {die ctx c slot : Nat} {w : Warp} {i : Rec} {blk : Block}
    (h : s.idleOn die ctx c = some slot) (hw : s.warp? slot = some w) (hi : s.infoOf w = some i)
    (hb : s.blocks.get? w.block = some blk) (p : Nat) (rest : List Item) (r : TaskRec) :
    ∃ w', ((s.leaveQueue die ctx p rest).giveOut die ctx [(c, r)]).warp? slot = some w'
      ∧ w'.threads.get? 0 = some (taskThread r (spillTop i blk.index (rankOf w 0)) (s.nextId + 1)) := by
  obtain ⟨w', hw', hthreads⟩ := startTasks_warp (s := s.taskLeft die ctx p rest) hw hi hb [{ r with nth := s.nextId }]
  refine ⟨w', ?_, hthreads 0⟩
  rw [giveOut_task, giveCore_some ((taskLeft_idleOn s die ctx p rest c).trans h) 95 (List.cons_ne_nil _ _)]
  exact hw'

/-- A core's idle warp takes up to 32 records from the head of its list. -/
theorem takeList_list {s : State} {die ctx core slot : Nat} (h : s.idleOn die ctx core = some slot)
    (hl : (s.seed die ctx).lists.get [] core ≠ []) :
    ((s.takeList die ctx core).seed die ctx).lists.get [] core = ((s.seed die ctx).lists.get [] core).drop 32 := by
  simp only [State.takeList, h, List.isEmpty_iff, hl, if_false, startTasks_seed, State.seed_updSeed]
  exact SMap.get_set_self ..

/-- Settles O56: a launch's record, admission, start and completion by what each asks; a record of Seedbed by where it goes. -/
theorem launchSteps : Obligations.LaunchSteps := by
  unfold Obligations.LaunchSteps
  intro id l k q b bytes u admits size produce serves arrived
  have hserved {s : State} (h : serves s) : s.turn.ix = id ∧ ServedQueue s q bytes := by
    obtain ⟨rfl, hq, hserved, hrel, hread, hgood⟩ := h
    exact ⟨rfl, hq, hserved, hrel, hread, hgood⟩
  have hadmits {coop : Bool} {s : State} (h : admits coop s) : s.turn.ix = id ∧ Admits s l k ∧ k.coop = coop := by
    obtain ⟨rfl, hl, hk, hcoop, hadm, hfirst⟩ := h
    exact ⟨rfl, ⟨hl, hk, hadm, hfirst⟩, hcoop⟩
  refine ⟨?_, ?_, ?_, ?_, ?_, ?_, ?_, ?_, ?_, ?_, ?_, ?_, ?_, ?_, ?_, ?_, ?_, ?_, ?_, ?_, ?_⟩
  · intro s hi ⟨hs, hpos, hle⟩
    obtain ⟨rfl, hq⟩ := hserved hs
    refine (launchRecordRead_served hi hq).trans ?_
    rw [if_neg (Nat.pos_iff_ne_zero.mp hpos), if_neg (Nat.not_lt.mpr hle)]
  · intro s hi ⟨hs, heq⟩
    obtain ⟨rfl, hq⟩ := hserved hs
    refine (launchRecordRead_served hi hq).trans ?_
    rw [if_pos (by rw [← heq]; exact congrArg BitVec.toNat (BitVec.sub_self produce))]
  · exact fun s hi h => launchRecordRead_barred hi h
  · intro s hi ⟨hs, hmore, hu⟩
    obtain ⟨rfl, ha, hcoop⟩ := hadmits hs
    refine (blockAdmission_next hi ha hcoop hmore).trans ?_
    rw [hu]
    rfl
  · intro s hi ⟨hs, hmore, hu⟩
    obtain ⟨rfl, ha, hcoop⟩ := hadmits hs
    refine (blockAdmission_next hi ha hcoop hmore).trans ?_
    rw [hu]
    rfl
  · intro s hi ⟨hs, hnone, hu⟩
    obtain ⟨rfl, ha, hcoop⟩ := hadmits hs
    refine (cooperativeAdmission_all hi ha hcoop hnone).trans ?_
    rw [hu]
    rfl
  · exact fun s hu hl => ⟨_, admitNext_counts hu hl, rfl⟩
  · rintro s hi rfl hb hl hk hstart hsave
    obtain ⟨hblocks, hturn⟩ := warpsStarted_keeps s b l k
    have hblock := gangMarked_block (u := s.warpsStarted b l k) (b := b) (by rw [hblocks, hturn, hb]) b.launch
    rw [hturn] at hblock
    refine ⟨_, gangStart_ok hi hb hl hk hstart hsave, ⟨_, hblock, rfl, rfl⟩, fun x hx w hw => ?_⟩
    obtain ⟨w', hw', -, -, hs, hthreads⟩ := warpsStarted_started l k hx hw
    exact ⟨w', hw', hs, hthreads⟩
  · rintro s hi ⟨rfl, hl, hk, hopen, hadm, hfin, hpool, hcmds, hgo, hend, hlost, hpool'⟩
    exact launchCompletion_ok hi ⟨hl, hk, hopen, hadm, hfin, hpool, hcmds, hgo⟩ rfl hend hlost hpool'
  · exact acts_of_event (fun _ => rfl) fun _ _ _ => rfl
  · intro s die ctx c hc hp
    refine if_pos ?_
    rw [hc]
    exact hp
  · exact fun s die ctx dealt c => mem_placeSet s die ctx dealt c
  · intro s die ctx dealt r
    rcases placeOf_best s die ctx dealt r with ⟨hset, hnone⟩ | ⟨c, hc, hmem, hbest⟩
    · exact ⟨⟨fun _ => hset, fun _ => hnone⟩, fun c hc => nomatch hnone.symm.trans hc⟩
    · refine ⟨⟨fun hnone => (nomatch hnone.symm.trans hc), fun hset => ?_⟩, fun c' hc' => ?_⟩
      · rw [hset] at hmem
        cases hmem
      · cases hc.symm.trans hc'
        exact ⟨hmem, hbest⟩
  · exact fun r n q hn hq hmin => chunkOf_bounds hn hq hmin
  · exact fun s die ctx slot core h => idleOn_warp h
  · intro s die ctx p r rest c hp hhead hhigher hc t
    have ht : t = (s.leaveQueue die ctx p rest).giveOut die ctx [(c, r)] := dealHead_task ⟨hp, hhead, hhigher⟩ hc
    rw [ht]
    refine ⟨?_, fun h => giveOut_waits h p rest r, fun slot w i blk h hw hi hb => giveOut_starts h hw hi hb p rest r⟩
    rw [giveOut_queues, leaveQueue_queue]
  · intro s die ctx p e a size count j ba st h next v rest hp hhead hhigher hset
    obtain ⟨ps, hlen, hdeal⟩ := dealHead_card ⟨hp, hhead, hhigher⟩ hset
    refine ⟨ps.length, hlen, ?_⟩
    rw [hdeal, giveOut_queues, leaveQueue_queue]
  · exact fun _ _ _ _ _ _ _ _ _ _ _ => rfl
  · intro s slot w i blk rs hw hi hb t
    obtain ⟨hmem, hother⟩ := startTasks_frame hw hi hb rs
    obtain ⟨w', hw', hthreads⟩ := startTasks_warp hw hi hb rs
    refine ⟨hmem, hother, w', hw', fun k r hr => ?_, fun k hk => ?_⟩
    · rw [hthreads, hr]
      rfl
    · rw [hthreads, List.getElem?_eq_none hk]
      rfl
  · exact fun s die ctx core slot h hl => takeList_list h hl
  · exact fun r rsp n => ⟨rfl, rfl, rfl, rfl, rfl, fun _ => rfl, rfl, rfl, fun _ => rfl, rfl, rfl, rfl, rfl⟩

end Sys2Proof.Machine
end

section
/-! Pre-emption, saves and restores (R307–R313, R388, R389). With it, O57. -/

namespace Sys2Proof.Machine

/-! ### PREEMPT (R307, R313) -/

theorem preempted_of_none {s : State} {ctx die : Nat} {c : Ctx} (hc : s.ctxs.get? ctx = some c)
    (hd : c.preempt.get? die = none) : s.preempted ctx die = false := by
  rw [State.preempted, hc]
  simp only [hd, Option.isSome_none]

theorem preempted_of_some {s : State} {ctx die : Nat} {c : Ctx} (hc : s.ctxs.get? ctx = some c)
    (hd : (c.preempt.get? die).isSome = true) : s.preempted ctx die = true := by
  rw [State.preempted, hc]
  exact hd

/-- The call is noted, and nothing has been returned yet. -/
def State.asking (s : State) (ctx die : Nat) : State :=
  (s.ret []).updCtx ctx (fun c => { c with asked := die :: c.asked.filter (· != die) })

theorem asking_ctx {s : State} {ctx : Nat} {c : Ctx} (hc : s.ctxs.get? ctx = some c) (die : Nat) :
    (s.asking ctx die).ctxs.get? ctx = some { c with asked := die :: c.asked.filter (· != die) } :=
  (SMap.get?_upd_self s.ctxs ctx _).trans (congrArg _ hc)

/-- When the grace period of each launch that has a block of the context on the die ends. -/
def State.graceEnds (s : State) (ctx die : Nat) : SMap Nat :=
  (s.residents ctx die).map (fun x => (x.1, s.time + 1000 * x.2.info.grace))

theorem preempt_again (ctx die : Nat) (c : Ctx) :
    Calls (.preempt ctx die) (fun s => s.ctxs.get? ctx = some c ∧ (c.preempt.get? die).isSome = true)
      (fun s => (s.asking ctx die).preemptOver ctx die) :=
  calls_of_event (fun _ => rfl) fun _ _ ⟨hc, hd⟩ => if_pos (preempted_of_some (asking_ctx hc die) hd)

theorem preempt_first (ctx die : Nat) (c : Ctx) :
    Calls (.preempt ctx die) (fun s => s.ctxs.get? ctx = some c ∧ c.preempt.get? die = none)
      (fun s => ((s.asking ctx die).updCtx ctx (fun c => { c with
        preempt := c.preempt.put die (s.graceEnds ctx die) })).preemptOver ctx die) :=
  calls_of_event (fun _ => rfl) fun _ _ ⟨hc, hd⟩ =>
    if_neg (ne_true_of_eq_false (preempted_of_none (asking_ctx hc die) hd))

theorem preemptOver_waits {s : State} {ctx die : Nat} {c : Ctx} (hc : s.ctxs.get? ctx = some c)
    (h : die ∉ c.asked ∨ ∃ x ∈ s.blocks.vals, x.ctx = ctx ∧ dieOfCore (x.cores.headD 0) = die) :
    s.preemptOver ctx die = s := by
  rw [State.preemptOver, hc]
  refine if_neg fun hall => ?_
  obtain ⟨hasked, hblocks⟩ := (Bool.and_eq_true _ _).mp hall
  rcases h with h | ⟨x, hx, hctx, hdie⟩
  · exact h (List.contains_iff_mem.mp hasked)
  · have hall := List.all_eq_true.mp hblocks x hx
    rw [hctx, hdie, bne_self_eq_false, bne_self_eq_false] at hall
    cases hall

theorem preemptOver_returns {s : State} {ctx die : Nat} {c : Ctx} (hc : s.ctxs.get? ctx = some c) (hasked : die ∈ c.asked)
    (hgone : ∀ x ∈ s.blocks.vals, x.ctx = ctx → dieOfCore (x.cores.headD 0) ≠ die) :
    s.preemptOver ctx die = { s with
      ctxs := s.ctxs.upd ctx (fun c => { c with asked := c.asked.filter (· != die) })
      host := { s.host with reply := [0] } } := by
  rw [State.preemptOver, hc]
  refine if_pos ?_
  rw [List.contains_iff_mem.mpr hasked, Bool.true_and, List.all_eq_true]
  intro x hx
  rw [Bool.or_eq_true, bne_iff_ne, bne_iff_ne]
  by_cases hctx : x.ctx = ctx
  · exact .inr (hgone x hx hctx)
  · exact .inl hctx

/-! ### Warps in their routines (R308, R311) -/

/-- A thread at the start of the routine that `pick` gives, if it is live. -/
def Thread.atRoutine (pick : Addr56 → Word) (th : Thread) : Thread :=
  if th.life == .live then
    { th with pc := (pick th.pc).setWidth 56, far := BitVec.ofNat 8 ((pick th.pc).toNat / 2 ^ 56), blocked := [],
              routineEnd := false }
  else th

theorem Thread.atRoutine_live {pick : Addr56 → Word} {th : Thread} (h : th.life = .live) {x : Word} (hx : pick th.pc = x) :
    th.atRoutine pick = { th with pc := x.setWidth 56, far := BitVec.ofNat 8 (x.toNat / 2 ^ 56), blocked := [],
                                  routineEnd := false } := by
  rw [← hx]
  exact if_pos (beq_iff_eq.mpr h)

/-- A rebuilt table leaves what a save has captured, and where the warp belongs. -/
theorem Warp.rebuild_saves (w : Warp) : w.rebuild.save = w.save ∧ w.rebuild.captured = w.captured
    ∧ w.rebuild.capJoins = w.capJoins ∧ w.rebuild.capS = w.capS ∧ w.rebuild.capXc = w.capXc ∧ w.rebuild.xc = w.xc
    ∧ w.rebuild.block = w.block := by
  unfold Warp.rebuild Warp.fitTable
  split <;> exact ⟨rfl, rfl, rfl, rfl, rfl, rfl, rfl⟩

theorem Warp.enterRoutine_threads (w : Warp) (pick : Addr56 → Word) (t : Nat) :
    (w.enterRoutine pick).threads.get? t = (w.threads.get? t).map (Thread.atRoutine pick) := by
  rw [Warp.enterRoutine, (Warp.rebuild_rest _).1]
  exact SMap.get?_map (β := Thread) w.threads (fun _ th => th.atRoutine pick) t

/-- A warp whose save or restore routine starts keeps what was captured of it. -/
theorem Warp.enterRoutine_keeps (w : Warp) (pick : Addr56 → Word) : (w.enterRoutine pick).captured = w.captured
    ∧ (w.enterRoutine pick).capJoins = w.capJoins ∧ (w.enterRoutine pick).capS = w.capS
    ∧ (w.enterRoutine pick).capXc = w.capXc ∧ (w.enterRoutine pick).xc = w.xc
    ∧ (w.enterRoutine pick).block = w.block ∧ (w.enterRoutine pick).joins = w.joins ∧ (w.enterRoutine pick).s = w.s := by
  unfold Warp.enterRoutine
  obtain ⟨-, hcap, hcj, hcs, hcx, hxc, hblock⟩ := Warp.rebuild_saves { w with threads := w.threads.map (fun (t, th) =>
    (t, if th.life == .live then
        { th with pc := (pick th.pc).setWidth 56, far := BitVec.ofNat 8 ((pick th.pc).toNat / 2 ^ 56), blocked := [],
                  routineEnd := false }
      else th)) }
  obtain ⟨-, -, -, hj, hs, -, -⟩ := Warp.rebuild_rest { w with threads := w.threads.map (fun (t, th) =>
    (t, if th.life == .live then
        { th with pc := (pick th.pc).setWidth 56, far := BitVec.ofNat 8 ((pick th.pc).toNat / 2 ^ 56), blocked := [],
                  routineEnd := false }
      else th)) }
  exact ⟨hcap, hcj, hcs, hcx, hxc, hblock, hj, hs⟩

/-- The save routine's address for a clause, as a soft save picks it. -/
def State.saveAt (s : State) (w : Warp) (pc : Addr56) : Word := ((s.safeAt w pc).map (fun x => x.1)).getD (pc.zeroExtend 64)

/-- The restore routine's address for a clause. -/
def State.restoreAt (s : State) (w : Warp) (pc : Addr56) : Word := ((s.safeAt w pc).map (fun x => x.2)).getD (pc.zeroExtend 64)

theorem beginSave_hard {s : State} {w : Warp} (slot : Nat) (h : ∃ t ∈ w.live, s.safeAt w (w.thread t).pc = none) :
    s.beginSave slot w = s.setWarp slot { w with save := some .stopping } := by
  refine if_neg fun hall => ?_
  obtain ⟨t, ht, hnone⟩ := h
  have := List.all_eq_true.mp hall t ht
  rw [hnone] at this
  cases this

theorem beginSave_soft {s : State} {w : Warp} (slot : Nat) (h : ∀ t ∈ w.live, s.safeAt w (w.thread t).pc ≠ none) :
    (s.beginSave slot w).warp? slot = some { w.capture.enterRoutine (s.saveAt w) with save := some .routine } := by
  have hall : w.live.all (fun t => (s.safeAt w (w.thread t).pc).isSome) = true :=
    List.all_eq_true.mpr fun t ht => Option.isSome_iff_ne_none.mpr (h t ht)
  rw [State.beginSave, if_pos hall]
  exact SMap.get?_put_self ..

theorem Warp.saved_captured {w : Warp} {t : Nat} {th : Thread} (h : w.captured.get? t = some th) :
    w.saved.captured.get? t = some { th with rsp := (w.thread t).rsp } :=
  (SMap.get?_map (β := Thread) w.captured (fun t c => { c with rsp := (w.thread t).rsp }) t).trans (congrArg _ h)

/-! ### The end of the grace period (R309, R389) -/

/-- An unsaved warp outside an issue is stopped by the end of the grace period. -/
theorem expire_stops {s : State} {slot : Nat} {w : Warp} (hw : s.warp? slot = some w) (hp : s.parked.get? slot = none)
    (h : w.save = none ∨ w.save = some .routine ∨ w.save = some .restoring) : s.expire slot = s.stopWarp slot w := by
  have hfree : s.issuing slot = false := by rw [State.issuing, hp]; rfl
  rw [State.expire, hw]
  simp only [hfree, Bool.false_eq_true, if_false]
  rcases h with h | h | h <;> simp only [h]

theorem expire_saved {s : State} {slot : Nat} {w : Warp} (hw : s.warp? slot = some w) (hp : s.parked.get? slot = none)
    (h : w.save = some .soft ∨ w.save = some .hard) : s.expire slot = s := by
  have hfree : s.issuing slot = false := by rw [State.issuing, hp]; rfl
  rw [State.expire, hw]
  simp only [hfree, Bool.false_eq_true, if_false]
  rcases h with h | h <;> simp only [h]

/-- The warp without its handler; a warp that is not frozen has none. -/
def Warp.unhandled (w : Warp) : Warp :=
  if w.freeze.isSome then
    { w with
      threads := w.threads.del 32
      edits := []
      freeze := if w.freeze = some .escalated then some .escalated else some .waiting }
  else w

theorem abandonHandler_warp (s : State) (slot : Nat) (w : Warp) : (s.abandonHandler slot w).2 = w.unhandled := by
  unfold State.abandonHandler Warp.unhandled
  split <;> rfl

theorem Warp.unhandled_thawed {w : Warp} (h : w.freeze = none) : w.unhandled = w := if_neg (by rw [h]; exact nofun)

theorem Warp.unhandled_frozen {w : Warp} (h : w.freeze.isSome = true) : w.unhandled.threads = w.threads.del 32
    ∧ w.unhandled.edits = [] ∧ w.unhandled.trapinfo = w.trapinfo := by
  rw [Warp.unhandled, if_pos h]
  exact ⟨rfl, rfl, rfl⟩

/-- The warp that the end of the grace period stops: out of its handler, and out of its save routine. -/
def Warp.halted (w : Warp) : Warp := if w.unhandled.save = some .routine then w.unhandled.putBack else w.unhandled

theorem Warp.halted_unsaved {w : Warp} (h : w.save = none) : w.halted = w.unhandled := by
  have hsave : w.unhandled.save = none := by
    unfold Warp.unhandled
    split <;> exact h
  exact if_neg (by rw [hsave]; exact nofun)

theorem stopWarp_warp (s : State) (slot : Nat) (w : Warp) :
    (s.stopWarp slot w).warp? slot = some { w.halted with save := some .stopping } := by
  unfold Warp.halted
  rw [← abandonHandler_warp s slot w]
  exact SMap.get?_put_self ..

/-! ### The image of a block (R310) -/

theorem preemptOver_keeps (s : State) (ctx die : Nat) :
    (s.preemptOver ctx die).blocks = s.blocks ∧ (s.preemptOver ctx die).saved = s.saved := by
  unfold State.preemptOver
  split
  · split <;> exact ⟨rfl, rfl⟩
  · exact ⟨rfl, rfl⟩

theorem dropBlock_gone (s : State) (id : Nat) :
    (s.dropBlock id).blocks.get? id = none ∧ (s.dropBlock id).saved = s.saved := by
  unfold State.dropBlock
  cases hb : s.blocks.get? id with
  | none => exact ⟨hb, rfl⟩
  | some b =>
    obtain ⟨hblocks, hsaved⟩ := preemptOver_keeps { s with blocks := s.blocks.del id } b.ctx (dieOfCore (b.cores.headD 0))
    refine ⟨?_, hsaved⟩
    exact (congrArg (SMap.get? · id) hblocks).trans (SMap.get?_del_self ..)

theorem writeImage_eq (s : State) (id : Nat) (b : Block) :
    ∃ (u : State) (x : Saved), s.writeImage id b = u.dropBlock id ∧ x ∈ u.saved ∧ x.block = b :=
  ⟨_, _, rfl, List.mem_append_right _ (List.mem_singleton_self _), rfl⟩

/-! ### RESTORE (R311, R313, R388) -/

theorem restoreEach_refuses {s : State} {die : Nat} {x : Saved} {may : Saved → Bool} {refuse : State → Saved → State}
    (ht : s.together x = [x]) (hmay : may x = true) (hp : s.placeSaved die x = none) :
    State.restoreEach die may refuse 1 [x] s = refuse s x := by
  simp [State.restoreEach, ht, hmay, State.restoreAll, hp]

theorem restoreEach_reinstates {s : State} {die : Nat} {x : Saved} {may : Saved → Bool} {refuse : State → Saved → State}
    {got : List (Nat × (List Nat × Nat × Nat))} (ht : s.together x = [x]) (hmay : may x = true)
    (hp : s.placeSaved die x = some got) : State.restoreEach die may refuse 1 [x] s = s.reinstate x got := by
  simp [State.restoreEach, ht, hmay, State.restoreAll, hp]

theorem ctxView_seen {u : State} {ctx : Nat} (h : (u.updCtx ctx (fun c => { c with view := u.vers.map Ver.id })).ctxs.get? ctx ≠ none)
    {v : Ver} (hv : v ∈ u.vers) :
    v.id ∈ (u.updCtx ctx (fun c => { c with view := u.vers.map Ver.id })).ctxView ctx := by
  have hget : (u.updCtx ctx (fun c => { c with view := u.vers.map Ver.id })).ctxs.get? ctx
      = (u.ctxs.get? ctx).map (fun c => { c with view := u.vers.map Ver.id }) := SMap.get?_upd_self ..
  rw [State.ctxView, hget]
  cases hc : u.ctxs.get? ctx with
  | none => exact absurd (hget.trans (congrArg _ hc)) h
  | some c => exact List.mem_map_of_mem hv

theorem refuseBlock_saved (s : State) (die : Nat) (x : Saved) : (s.refuseBlock die x).saved = s.saved.map (fun z =>
    if z = x then { x with
      excl := s.ownMask die x
      waits := if s.unplaceable die { x with excl := s.ownMask die x } then none else some die } else z) := by
  refine List.map_congr_left fun z _ => ?_
  simp only [beq_iff_eq]

/-- The state in which RESTORE goes through the saved blocks. -/
def State.restoring (s : State) (ctx die : Nat) (excl : List Nat) : State :=
  ((s.resync ctx).updCtx ctx (fun c => { c with excl := excl, preempt := c.preempt.del die })).ret []

theorem ret_updCtx (t : State) (ctx : Nat) (f : Ctx → Ctx) (xs : List Word) : (t.updCtx ctx f).ret xs
    = { t with ctxs := t.ctxs.upd ctx f, host := { t.host with reply := xs } } := rfl

theorem restore_eq (ctx die : Nat) (excl : List Nat) : Calls (.restore ctx die excl) (fun _ => True) (fun s =>
    let xs := (s.restoring ctx die excl).saved.filter (fun x => x.block.ctx = ctx)
    State.restoreEach die (fun _ => true) (fun s x => s.refuseBlock die x) xs.length xs (s.restoring ctx die excl)) :=
  calls_of_event (fun _ => rfl) fun _ _ _ => rfl

theorem restoreEach_nil (die : Nat) (may : Saved → Bool) (refuse : State → Saved → State) (n : Nat) (s : State) :
    State.restoreEach die may refuse n [] s = s := by
  cases n <;> rfl

/-! ### A block on its new cores -/

/-- The block is where it was, whatever of its barriers, rings and token has changed. -/
def SamePlace (b c : Block) : Prop :=
  c.index = b.index ∧ c.launch = b.launch ∧ c.cores = b.cores ∧ c.tileBase = b.tileBase

/-- The saved blocks and the scratchpads are the same, and each block is where it was. -/
structure SamePlaces (s u : State) : Prop where
  saved : u.saved = s.saved
  scratch : u.scratch = s.scratch
  blocks : ∀ k b, s.blocks.get? k = some b → ∃ c, u.blocks.get? k = some c ∧ SamePlace b c

theorem SamePlaces.of_eq {s u : State} (hs : u.saved = s.saved) (hm : u.scratch = s.scratch) (hb : u.blocks = s.blocks) :
    SamePlaces s u := ⟨hs, hm, fun _ b h => ⟨b, hb ▸ h, rfl, rfl, rfl, rfl⟩⟩

theorem SamePlaces.refl (s : State) : SamePlaces s s := .of_eq rfl rfl rfl

theorem SamePlaces.trans {s u v : State} (h : SamePlaces s u) (h' : SamePlaces u v) : SamePlaces s v := by
  refine ⟨h'.saved.trans h.saved, h'.scratch.trans h.scratch, fun k b hb => ?_⟩
  obtain ⟨c, hc, hi, hl, hcores, ht⟩ := h.blocks k b hb
  obtain ⟨d, hd, hi', hl', hcores', ht'⟩ := h'.blocks k c hc
  exact ⟨d, hd, hi'.trans hi, hl'.trans hl, hcores'.trans hcores, ht'.trans ht⟩

theorem SamePlaces.foldl {α : Type} {f : State → α → State} (hf : ∀ s a, SamePlaces s (f s a)) (xs : List α) (s : State) :
    SamePlaces s (xs.foldl f s) :=
  foldl_keeps (I := SamePlaces s) (fun u a h => h.trans (hf u a)) xs (.refl s)

theorem SamePlaces.updBlock (s : State) (k : Nat) {f : Block → Block} (hf : ∀ b, SamePlace b (f b)) :
    SamePlaces s (s.updBlock k f) := by
  refine ⟨rfl, rfl, fun j b hb => ?_⟩
  by_cases hj : j = k
  · subst hj
    exact ⟨f b, (SMap.get?_upd_self s.blocks j f).trans (congrArg _ hb), hf b⟩
  · exact ⟨b, (SMap.get?_upd_ne s.blocks f hj).trans hb, rfl, rfl, rfl, rfl⟩

theorem samePlaces_ite {s t u : State} {c : Prop} [Decidable c] (ht : SamePlaces s t) (hu : SamePlaces s u) :
    SamePlaces s (if c then t else u) := by
  split
  · exact ht
  · exact hu

theorem CoresOnly.samePlaces {s u : State} (h : CoresOnly s u) : SamePlaces s u := by
  obtain ⟨cs, rfl⟩ := h
  exact .of_eq rfl rfl rfl

theorem joinApply_samePlaces (s : State) (slot k : Nat) (w : Warp) (broke : Bool) :
    SamePlaces s (s.joinApply slot k w broke) := by
  unfold State.joinApply
  dsimp only
  split <;> exact .of_eq rfl rfl rfl

theorem evalJoins_samePlaces (slot n : Nat) (s : State) : SamePlaces s (evalJoins slot n s) := by
  induction n generalizing s with
  | zero => exact .refl s
  | succ n ih =>
    unfold evalJoins
    split
    · exact .refl s
    · split
      · exact .refl s
      · exact (joinApply_samePlaces s slot _ _ _).trans (ih _)

theorem handToken_samePlaces (s : State) (blk pos : Nat) (heir : Option Nat) : SamePlaces s (s.handToken blk pos heir) := by
  have hblk (f : Block → SMap Nat) : SamePlaces s (s.updBlock blk (fun b => { b with token := f b })) :=
    SamePlaces.updBlock s blk fun b => ⟨rfl, rfl, rfl, rfl⟩
  cases heir with
  | none => exact hblk _
  | some x => exact (hblk _).trans (.of_eq rfl rfl rfl)

theorem takeToken_samePlaces (s : State) (slot : Nat) (takers : List Nat) : SamePlaces s (s.takeToken slot takers) := by
  unfold State.takeToken
  split
  · exact .refl s
  · split
    · exact .refl s
    · split
      · exact handToken_samePlaces s ..
      · split <;> exact .of_eq rfl rfl rfl

theorem settleWarp_samePlaces (s : State) (slot : Nat) : SamePlaces s (s.settleWarp slot) := by
  unfold State.settleWarp
  split
  · exact .refl s
  · split
    · exact .refl s
    · next w _ _ =>
      have hset : SamePlaces s (s.setWarp slot (w.unblockIf (fun t c => !s.stillBlocked slot w t c))) := .of_eq rfl rfl rfl
      dsimp only
      refine SamePlaces.trans ?_ (evalJoins_samePlaces slot 16 _)
      exact samePlaces_ite (hset.trans (takeToken_samePlaces _ slot _)) hset

theorem releaseBar_samePlaces (s : State) (blk : Nat) (b : Block) (n : Nat) (view : List Nat) :
    SamePlaces s (s.releaseBar blk b n view) := by
  refine SamePlaces.foldl (fun u slot => ?_) b.warps s
  split
  · split
    · next w _ _ =>
      have hset : SamePlaces u (u.setWarp slot (w.unblockIf (fun _ => waitsAt n))) := .of_eq rfl rfl rfl
      refine hset.trans (CoresOnly.samePlaces ?_)
      exact coresOnly_ite ((State.learn_coresOnly _ _ view).trans (State.updCore_coresOnly _ _ _)) (.refl _)
    · exact .refl u
  · exact .refl u

theorem barTest_samePlaces (s : State) (blk n : Nat) (arrived : Bool) : SamePlaces s (s.barTest blk n arrived) := by
  unfold State.barTest
  split
  · exact .refl s
  · dsimp only
    split
    · refine SamePlaces.trans ?_ (releaseBar_samePlaces _ blk _ n _)
      exact SamePlaces.updBlock s blk fun b => ⟨rfl, rfl, rfl, rfl⟩
    · exact .refl s

theorem takeLane_samePlaces (s : State) (slot : Nat) : SamePlaces s (s.takeLane slot) := by
  unfold State.takeLane
  split <;> exact .of_eq rfl rfl rfl

theorem updLane_samePlaces (s : State) (l : Nat) (f : Lane → Lane) : SamePlaces s (s.updLane l f) := .of_eq rfl rfl rfl

theorem escalate_samePlaces (s : State) (slot : Nat) (w : Warp) (detail : List Word) :
    SamePlaces s (s.escalate slot w detail) := .of_eq rfl rfl rfl

theorem reload_samePlaces (s : State) (blk slot : Nat) (w : Warp) : SamePlaces s (s.reload blk slot w) := by
  unfold State.reload
  dsimp only
  have hlane (x : Warp) : SamePlaces s (((s.setWarp slot x).takeLane slot).updLane (laneOf slot) (fun l =>
      { l with grows := l.grows ++ x.grows.map (fun _ => slot) })) := by
    have hset : SamePlaces s (s.setWarp slot x) := .of_eq rfl rfl rfl
    exact (hset.trans (takeLane_samePlaces _ slot)).trans (updLane_samePlaces _ _ _)
  exact samePlaces_ite ((hlane _).trans (escalate_samePlaces ..)) (hlane _)

/-- A stopped command is sent again from where its block now stands. -/
def State.resend (slots : List Nat) (x : Saved) (id : Nat) (b : Block) (s : State) (y : Cmd × Nat) : State :=
  let at_ := slots.getD (x.block.warps.findIdx (· = y.1.warp)) y.1.warp
  let core := b.cores.getD (x.block.cores.findIdx (· = y.1.core)) 0
  let s := s.send { y.1 with warp := at_, core := core, block := id }
  match y.1.body with
  | .matrix _ str .. => if y.2 = 0 then s else s.updCore core (fun z => { z with steps := z.steps.set 0 str.toNat y.2 })
  | _ => s

theorem resend_samePlaces (slots : List Nat) (x : Saved) (id : Nat) (b : Block) (s : State) (y : Cmd × Nat) :
    SamePlaces s (s.resend slots x id b y) := by
  unfold State.resend
  dsimp only
  split
  · split <;> exact .of_eq rfl rfl rfl
  · exact .of_eq rfl rfl rfl

/-- The dies of an interlude launch's block are in its interlude. -/
def State.interluded (s : State) (b : Block) : State :=
  match s.launches.get? b.launch with
  | some l => if l.info.interlude then s.updDie (dieOfCore (b.cores.headD 0)) (fun d => { d with interlude := some b.launch })
    else s
  | none => s

theorem interluded_samePlaces (s : State) (b : Block) : SamePlaces s (s.interluded b) := by
  unfold State.interluded
  split
  · split <;> exact .of_eq rfl rfl rfl
  · exact .refl s

/-- Where byte z of a block's windows goes. -/
def windowAt (b : Block) (z : Nat) : Nat :=
  0x180000 * b.cores.getD (z / 0x180000) 0 + 4096 * b.tileBase.getD (z / 0x180000) 0 + z % 0x180000

/-- The state in which a block's windows hold what was saved of them, before its warps are reloaded. -/
def State.laidOut (s : State) (x : Saved) (b : Block) : State :=
  let s := { s with nextId := s.nextId + 1, saved := s.saved.filter (· != x), blocks := s.blocks.put s.nextId b }
  let s := b.cores.foldl (fun s c => s.learn c (s.vers.map Ver.id)) (s.clearWindows b)
  { s with scratch := x.tiles.foldl (fun m c => wrByte m (windowAt b c.1) c.2) s.scratch }

/-- What follows leaves the windows, and the block where it is. -/
theorem reinstate_samePlaces (s : State) (x : Saved) (got : List (Nat × (List Nat × Nat × Nat))) :
    SamePlaces (s.laidOut x (x.moved got (slotsFor got x.block x.warps))) (s.reinstate x got) := by
  unfold State.reinstate
  refine SamePlaces.trans ?_ (interluded_samePlaces _ (x.moved got (slotsFor got x.block x.warps)))
  refine SamePlaces.trans ?_ (SamePlaces.foldl settleWarp_samePlaces _ _)
  refine SamePlaces.trans ?_ (SamePlaces.foldl (fun u n => barTest_samePlaces u s.nextId n false) _ _)
  refine SamePlaces.trans ?_ (SamePlaces.foldl (fun u n => (State.updCore_coresOnly u _ _).samePlaces) _ _)
  refine SamePlaces.trans ?_ (SamePlaces.foldl (resend_samePlaces (slotsFor got x.block x.warps) x s.nextId _) _ _)
  exact SamePlaces.foldl (fun u w => reload_samePlaces u s.nextId _ _) _ _

theorem laidOut_keeps (s : State) (x : Saved) (b : Block) :
    (s.laidOut x b).saved = s.saved.filter (· != x) ∧ (s.laidOut x b).blocks = s.blocks.put s.nextId b := by
  have hclear (u : State) : (u.clearWindows b).saved = u.saved ∧ (u.clearWindows b).blocks = u.blocks := by
    refine foldl_keeps (I := fun v : State => v.saved = u.saved ∧ v.blocks = u.blocks) (fun v c h => ?_) _ ⟨rfl, rfl⟩
    exact h
  have hready (u : State) : (b.cores.foldl (fun s c => s.learn c (s.vers.map Ver.id)) (u.clearWindows b)).saved = u.saved
      ∧ (b.cores.foldl (fun s c => s.learn c (s.vers.map Ver.id)) (u.clearWindows b)).blocks = u.blocks := by
    refine foldl_keeps (I := fun v : State => v.saved = u.saved ∧ v.blocks = u.blocks) (fun v c h => ?_) _ (hclear u)
    obtain ⟨cs, hcs⟩ := State.learn_coresOnly v c (v.vers.map Ver.id)
    rw [hcs]
    exact h
  exact hready _

theorem foldl_wrByte_keeps {f : Nat → Nat} {a : Nat} {v : Byte} {cs : List Host.Cell} (h : ∀ c ∈ cs, f c.1 = a → c.2 = v)
    {m : Memory} (hm : rdByte m a = v) : rdByte (cs.foldl (fun m c => wrByte m (f c.1) c.2) m) a = v := by
  induction cs generalizing m with
  | nil => exact hm
  | cons c cs ih =>
    refine ih (fun d hd => h d (List.mem_cons_of_mem c hd)) ?_
    dsimp only
    by_cases hc : f c.1 = a
    · rw [hc, rdByte_wrByte_self, h c List.mem_cons_self hc]
    · rw [rdByte_wrByte_ne _ _ (Ne.symm hc), hm]

/-- Of bytes written one after another, one at an address of its own stands there. -/
theorem foldl_wrByte_reads {f : Nat → Nat} {z : Host.Cell} {cs : List Host.Cell} (hz : z ∈ cs)
    (h : ∀ c ∈ cs, f c.1 = f z.1 → c = z) (m : Memory) :
    rdByte (cs.foldl (fun m c => wrByte m (f c.1) c.2) m) (f z.1) = z.2 := by
  induction cs generalizing m with
  | nil => cases hz
  | cons c cs ih =>
    have htail : ∀ d ∈ cs, f d.1 = f z.1 → d = z := fun d hd => h d (List.mem_cons_of_mem c hd)
    rcases List.mem_cons.mp hz with rfl | hz
    · exact foldl_wrByte_keeps (fun d hd he => congrArg Prod.snd (htail d hd he)) (rdByte_wrByte_self ..)
    · exact ih hz htail _

/-- A reinstated block stands on its new cores, and its windows hold what was saved of them. -/
theorem reinstate_stands (s : State) (x : Saved) (got : List (Nat × (List Nat × Nat × Nat))) :
    (s.reinstate x got).saved = s.saved.filter (· != x) ∧ ∃ y, (s.reinstate x got).blocks.get? s.nextId = some y
      ∧ SamePlace (x.moved got (slotsFor got x.block x.warps)) y
      ∧ ∀ z ∈ x.tiles, (∀ z' ∈ x.tiles, windowAt y z'.1 = windowAt y z.1 → z' = z) →
        rdByte (s.reinstate x got).scratch (windowAt y z.1) = z.2 := by
  have hsame := reinstate_samePlaces s x got
  obtain ⟨hsaved, hblocks⟩ := laidOut_keeps s x (x.moved got (slotsFor got x.block x.warps))
  have hget : (s.laidOut x (x.moved got (slotsFor got x.block x.warps))).blocks.get? s.nextId
      = some (x.moved got (slotsFor got x.block x.warps)) := by
    rw [hblocks]
    exact SMap.get?_put_self ..
  obtain ⟨y, hy, hplace⟩ := hsame.blocks _ _ hget
  have hat : ∀ o, windowAt y o = windowAt (x.moved got (slotsFor got x.block x.warps)) o := fun o => by
    rw [windowAt, windowAt, hplace.2.2.1, hplace.2.2.2]
  refine ⟨hsame.saved.trans hsaved, y, hy, hplace, fun z hz huniq => ?_⟩
  rw [hsame.scratch, hat]
  exact foldl_wrByte_reads hz (fun c hc he => huniq c hc (by rw [hat, hat, he])) _

/-! ### A warp as it is reloaded (R311) -/

/-- A warp that was saved soft, with what was captured of it but for its threads' registers. -/
def Warp.recalled (w : Warp) (blk : Nat) : Warp :=
  { w with
    block := blk, readyAt := none, restored := true, save := some .soft, joins := w.capJoins, s := w.capS, xc := w.capXc
    threads := w.captured.map (fun (t, th) => (t, { th with v := [] })) }

theorem Warp.recalled_threads (w : Warp) (blk t : Nat) :
    (w.recalled blk).threads.get? t = (w.captured.get? t).map (fun th => { th with v := [] }) :=
  SMap.get?_map (β := Thread) w.captured (fun _ th => { th with v := [] }) t

theorem Warp.recalled_live {w : Warp} {t : Nat} {th : Thread} (ht : t < 32) (hth : w.captured.get? t = some th)
    (hl : th.life = .live) (blk : Nat) : (w.recalled blk).live.isEmpty = false := by
  have hlife : ((w.recalled blk).thread t).life = .live := by
    rw [Warp.thread, SMap.get, Warp.recalled_threads, hth]
    exact hl
  have hmem : t ∈ (w.recalled blk).live := Warp.mem_live _ ht hlife
  cases hlive : (w.recalled blk).live with
  | nil => rw [hlive] at hmem; cases hmem
  | cons => rfl

theorem takeLane_warp? (s : State) (slot k : Nat) : (s.takeLane slot).warp? k = s.warp? k := by
  unfold State.takeLane
  split <;> rfl

/-- A warp saved soft, with a live thread and no trap, is reloaded into its restore routines. -/
theorem reload_soft {w : Warp} (s : State) (blk slot : Nat) (hsave : w.save = some .soft) (hfreeze : w.freeze = none)
    (hlive : (w.recalled blk).live.isEmpty = false) :
    (s.reload blk slot w).warp? slot
      = some { (w.recalled blk).enterRoutine (s.restoreAt w) with save := some .restoring } := by
  have hthaw : ((w.recalled blk).enterRoutine (s.restoreAt w)).freeze = none := (Warp.rebuild_rest _).2.1.trans hfreeze
  have hwarp : (if (w.recalled blk).live.isEmpty then (w.recalled blk).resumed
      else { (w.recalled blk).enterRoutine (s.restoreAt w) with save := some .restoring })
      = { (w.recalled blk).enterRoutine (s.restoreAt w) with save := some .restoring } :=
    if_neg (ne_true_of_eq_false hlive)
  unfold State.reload
  simp only [hsave]
  change State.warp? (if (if (w.recalled blk).live.isEmpty then (w.recalled blk).resumed
      else { (w.recalled blk).enterRoutine (s.restoreAt w) with save := some .restoring }).freeze = some .escalated
    then _ else _) slot = _
  rw [hwarp, if_neg (by rw [hthaw]; exact nofun)]
  exact (takeLane_warp? _ slot slot).trans ((SMap.get?_put_self s.warps slot _).trans (congrArg some hwarp))

/-- A thread after its restore routine takes what was captured of it. -/
def Warp.backFrom (w : Warp) (t : Nat) (th : Thread) : Thread := ((w.captured.get? t).map (reinstated · th)).getD th

theorem Warp.resumed_threads (w : Warp) (t : Nat) :
    w.resumed.threads.get? t = (w.threads.get? t).map (w.backFrom t) := by
  rw [Warp.resumed, (Warp.rebuild_rest _).1, ← SMap.get?_map (β := Thread) w.threads (fun t th => w.backFrom t th) t]
  refine congrArg (SMap.get? · t) (List.map_congr_left fun c _ => ?_)
  obtain ⟨k, th⟩ := c
  unfold Warp.backFrom
  dsimp only
  cases w.captured.get? k <;> rfl

/-- Settles O57: PREEMPT and its return, the phases of a warp's save, the image, and a restore by whether its block fits. -/
theorem saveSteps : Obligations.SaveSteps := by
  unfold Obligations.SaveSteps
  intro ctx die slot id excl w l b c m d restoring asks
  have hrest (s : State) : s.restoring ctx die excl = restoring s := ret_updCtx (s.resync ctx) ctx _ []
  refine ⟨?_, ?_, ?_, ?_, ?_, ?_, ?_, ?_, ?_, ?_, ?_, ?_, ?_, ?_, ?_, ?_, ?_, ?_, ?_, ?_, ?_, ?_⟩
  · exact preempt_first ctx die c
  · exact preempt_again ctx die c
  · exact fun s hc => ⟨preemptOver_waits hc, preemptOver_returns hc⟩
  · refine acts_of_event (fun _ => rfl) fun s _ ⟨hix, hw, hready⟩ => ?_
    have hnone : w.save = none := by
      simp only [State.readyToSave, Bool.and_eq_true, Option.isNone_iff_eq_none] at hready
      exact hready.1.1.1.1.1.1
    subst hix
    simp only [hw, hnone, hready, if_true]
  · exact fun s h => beginSave_hard slot h
  · intro s h
    obtain ⟨hcap, hcj, hcs, hcx, -⟩ := w.capture.enterRoutine_keeps (s.saveAt w)
    refine ⟨_, beginSave_soft slot h, rfl, hcap, hcj, hcs, hcx, fun t th x hth hl hx => ?_⟩
    refine (Warp.enterRoutine_threads w.capture (s.saveAt w) t).trans ((congrArg _ hth).trans ?_)
    exact congrArg some (Thread.atRoutine_live hl (by rw [State.saveAt, hx]; rfl))
  · refine acts_of_event (fun _ => rfl) fun s _ ⟨hix, hw, hsave, hover⟩ => ?_
    subst hix
    simp only [hw, hsave, hover, if_true]
  · exact ⟨rfl, rfl, fun t th h => Warp.saved_captured h⟩
  · refine acts_of_event (fun _ => rfl) fun s _ ⟨hix, hdie, hl, hc, hm, hd, hle⟩ => ?_
    subst hix hdie
    simp only [hl, hc, Option.bind_some, hm, hd, Nat.not_lt.mpr hle, if_false]
  · intro s hw hp
    refine ⟨fun h => ?_, expire_saved hw hp⟩
    rw [expire_stops hw hp h]
    refine ⟨_, stopWarp_warp s slot w, rfl, fun hnone hthaw => ?_, fun hfroz hnone => ?_⟩
    · rw [Warp.halted_unsaved hnone, Warp.unhandled_thawed hthaw]
    · rw [Warp.halted_unsaved hnone]
      obtain ⟨hthreads, hedits, hinfo⟩ := Warp.unhandled_frozen hfroz
      exact ⟨hthreads ▸ SMap.get?_del_self .., hedits, hinfo⟩
  · refine acts_of_event (fun _ => rfl) fun s _ ⟨hix, hb, hp, hsaved, hcmds⟩ => ?_
    subst hix
    have hall : s.cmds.all (fun x => x.2.block != s.turn.ix || x.2.stoppable) = true := by
      refine List.all_eq_true.mpr fun x hx => ?_
      rw [Bool.or_eq_true, bne_iff_ne]
      exact or_iff_not_imp_left.mpr fun h => hcmds x hx (not_not.mp h)
    simp only [hb, hp, hsaved, hall, Bool.and_self, if_true]
  · intro s
    obtain ⟨u, x, hu, hx, hxb⟩ := writeImage_eq s id b
    obtain ⟨hblocks, hsaved⟩ := dropBlock_gone u id
    rw [hu]
    exact ⟨hblocks, x, hsaved ▸ hx, hxb⟩
  · intro s hi hr hnone
    have hempty : (s.restoring ctx die excl).saved.filter (fun x => x.block.ctx = ctx) = [] := by
      rw [hrest]
      exact List.filter_eq_nil_iff.mpr fun x hx h => hnone x hx (of_decide_eq_true h)
    rw [restore_eq ctx die excl s hi hr trivial]
    dsimp only
    rw [hempty, restoreEach_nil, hrest]
  · intro s hi hr _
    rw [restore_eq ctx die excl s hi hr trivial]
    dsimp only
    rw [hrest]
  · exact fun s h v hv => ctxView_seen h hv
  · exact fun s x may refuse ht hmay hp => restoreEach_refuses ht hmay hp
  · exact fun s x may refuse got ht hmay hp => restoreEach_reinstates ht hmay hp
  · exact fun s x => ⟨refuseBlock_saved s die x, rfl, rfl, rfl, rfl⟩
  · intro s x got u
    obtain ⟨hsaved, y, hy, ⟨hindex, hlaunch, hcores, htiles⟩, hbytes⟩ := reinstate_stands s x got
    refine ⟨hsaved.trans (List.filter_congr fun z _ => ?_), y, hy, hindex, hlaunch, hcores, htiles, hbytes⟩
    by_cases hz : z = x <;> simp [hz]
  · intro s blk hsave hfreeze ⟨t, th, ht, hth, hl⟩
    obtain ⟨hcap, -, -, -, hxc, hblock, hj, hs⟩ := (w.recalled blk).enterRoutine_keeps (s.restoreAt w)
    refine ⟨_, reload_soft s blk slot hsave hfreeze (Warp.recalled_live ht hth hl blk), rfl, hblock, hj, hs, hxc, hcap,
      fun t th x hth hl hx => ?_⟩
    refine (Warp.enterRoutine_threads (w.recalled blk) (s.restoreAt w) t).trans ?_
    rw [Warp.recalled_threads, hth]
    refine congrArg some (Thread.atRoutine_live (th := { th with v := [] }) hl ?_)
    rw [State.restoreAt, hx]
    rfl
  · obtain ⟨hsave, hcap, -⟩ := Warp.rebuild_saves { w with
      save := none
      threads := w.threads.map (fun (t, th) => match w.captured.get? t with
        | some c => (t, reinstated c th)
        | none => (t, th))
      captured := [], capJoins := [], capS := [], capXc := [] }
    refine ⟨hsave, hcap, fun t th x hth hx => ?_⟩
    rw [Warp.resumed_threads, hth, Option.map_some, Warp.backFrom, hx]
    rfl
  · exact acts_of_event (fun _ => rfl) fun _ _ _ => rfl

end Sys2Proof.Machine
end

section
/-! Copies: what a unit writes, what a copy leaves of the scratchpads, and its completion word (R232–R234, R368, R369).
Part of O55. -/

namespace Sys2Proof.Machine

/-! ### Writes and the byte memories -/

section
variable (s : State) (w : Writer) (own : Holder) (a : Nat) (b : List Byte)

theorem State.put_sp_scratch : (s.put w own (.sp a) b).scratch = wrBytes s.scratch a b := rfl

theorem State.put_ws_ws : (s.put w own (.ws a) b).ws = wrBytes s.ws a b := rfl

end

/-- The bytes of two memories outside n bytes at `a` are the same. -/
def KeptOutside (m k : Memory) (a n : Nat) : Prop := ∀ x, (x < a ∨ a + n ≤ x) → rdByte k x = rdByte m x

theorem KeptOutside.of_eq {m k : Memory} (h : k = m) (a n : Nat) : KeptOutside m k a n := fun _ _ => by rw [h]

theorem wrBytes_keptOutside (m : Memory) (a : Nat) {b : List Byte} {n : Nat} (h : b.length = n) :
    KeptOutside m (wrBytes m a b) a n := fun _ hx => rdByte_wrBytes_out m a b (h.symm ▸ hx)

theorem rdBytes_wrBytes_of_length (m : Memory) (a : Nat) {b : List Byte} {n : Nat} (h : b.length = n) :
    rdBytes (wrBytes m a b) a n = b := h ▸ rdBytes_wrBytes m a b

theorem CoresOnly.scratch {s t : State} (h : CoresOnly s t) : t.scratch = s.scratch := by
  obtain ⟨cs, rfl⟩ := h
  rfl

theorem CoresOnly.ws {s t : State} (h : CoresOnly s t) : t.ws = s.ws := by
  obtain ⟨cs, rfl⟩ := h
  rfl

theorem State.writePa_scratch (s : State) (w : Writer) (pa : Nat) (b : List Byte) :
    (s.writePa w pa b).scratch = s.scratch := by
  unfold State.writePa
  split
  · exact State.bbox_scratch ..
  · split
    · refine foldl_keeps (I := fun u : State => u.scratch = s.scratch) (fun u x h => ?_) _ rfl
      exact h
    · rfl

theorem State.dieViolation_scratch (s : State) (die source ctx kind va : Nat) :
    (s.dieViolation die source ctx kind va).scratch = s.scratch := by
  unfold State.dieViolation
  split <;> rfl

theorem State.ctxWrite_scratch {s t : State} {w : Writer} {ctx va : Nat} {b : List Byte}
    (h : s.ctxWrite w ctx va b = .ok t) : t.scratch = s.scratch := by
  unfold State.ctxWrite at h
  split at h
  · cases h
  · cases h
    refine foldl_keeps (I := fun u : State => u.scratch = s.scratch) (fun u x h => ?_) _ rfl
    exact (State.writePa_scratch u w _ _).trans h

theorem State.tryWrite_scratch (s : State) (w : Writer) (ctx va : Nat) (b : List Byte) :
    (s.tryWrite w ctx va b).scratch = s.scratch := by
  unfold State.tryWrite
  split
  next h => exact State.ctxWrite_scratch h
  next => exact State.dieViolation_scratch ..

theorem State.gangFault_scratch (s : State) (c : Cmd) (unit err : Nat) (addr : Word) :
    (s.gangFault c unit err addr).scratch = s.scratch := by
  unfold State.gangFault
  split
  · rfl
  · dsimp only
    rw [State.tryWrite_scratch]
    split
    · exact State.tryWrite_scratch ..
    · rfl

/-! ### A unit (R232) -/

theorem State.home_length (s : State) (p : Place) (n : Nat) : (s.home p n).length = n := by
  cases p <;> exact rdBytes_length ..

theorem State.engineSight_length (s : State) (core : Nat) (p : Place) : (s.engineSight core p).2.length = 16 := by
  rw [State.engineSight, State.sight]
  simp only [List.length_map, List.length_zipIdx, State.home_length]

/-- An engine's read changes cores and the counter of free choices alone. -/
theorem State.engineSight_cores (s : State) (core : Nat) (p : Place) :
    ∃ t, CoresOnly s t ∧ (s.engineSight core p).1 = t.draw := ⟨_, State.sees_coresOnly s core _, rfl⟩

theorem State.engineSight_mem (s : State) (core : Nat) (p : Place) : (s.engineSight core p).1.mem = s.mem := by
  obtain ⟨t, ht, he⟩ := s.engineSight_cores core p
  rw [he]
  exact ht.mem

theorem State.engineSight_scratch (s : State) (core : Nat) (p : Place) : (s.engineSight core p).1.scratch = s.scratch := by
  obtain ⟨t, ht, he⟩ := s.engineSight_cores core p
  rw [he]
  exact ht.scratch

theorem State.engineSight_ws (s : State) (core : Nat) (p : Place) : (s.engineSight core p).1.ws = s.ws := by
  obtain ⟨t, ht, he⟩ := s.engineSight_cores core p
  rw [he]
  exact ht.ws

theorem State.farRead_length (s : State) (c : Cmd) (err : Bool) (p : Place) : (s.farRead c err p).2.length = 16 := by
  unfold State.farRead
  split
  · exact List.length_replicate
  · exact State.engineSight_length ..

theorem State.pcieEntry_scratch (s : State) (c : Cmd) (p : Place) : (s.pcieEntry c p).scratch = s.scratch := by
  cases p <;> rfl

theorem State.farRead_scratch (s : State) (c : Cmd) (err : Bool) (p : Place) :
    (s.farRead c err p).1.scratch = s.scratch := by
  unfold State.farRead
  split
  · exact State.pcieEntry_scratch ..
  · exact State.engineSight_scratch ..

/-- What an engine has read stands as its command's write at a place. -/
def State.engineMove (s : State) (id : Nat) (c : Cmd) (p q : Place) : State :=
  (s.engineSight c.core p).1.put ((s.engineSight c.core p).1.engineWriter c.core id) .none q (s.engineSight c.core p).2

section
variable (s : State) (id : Nat) (c : Cmd) (ws : Bool) (a b sh : Word) (base r n : Nat)

theorem cpUnitRun_in {k : Nat} (hk : k = 0 ∨ k = 2) {p : Place}
    (hp : s.farPlace c ws .r (cpFar k a sh (s.cpIndex c.core base sh) r n) = .ok p) :
    s.cpUnitRun id c k ws a b sh base false r n
      = .ok (s.engineMove id c p (.sp (0x180000 * c.core + base + cpUnit b r n))) := by
  rcases hk with rfl | rfl <;>
    · simp only [State.cpUnitRun, hp, State.farRead, Bool.false_and, Bool.false_eq_true, if_false]
      rfl

theorem cpUnitRun_fill : s.cpUnitRun id c 3 ws a b sh base false r n
    = .ok (s.put (s.engineWriter c.core id) .none (.sp (0x180000 * c.core + base + cpUnit b r n))
      (leBytes 8 a.toNat ++ leBytes 8 a.toNat)) := rfl

theorem cpUnitRun_out {p : Place} (hp : s.farPlace c false .w (cpFar 1 a sh (s.cpIndex c.core base sh) r n) = .ok p)
    (hcell : s.cellOf p = none) :
    s.cpUnitRun id c 1 ws a b sh base false r n
      = .ok ((s.put (s.engineWriter c.core id) .none p
        (s.home (.sp (0x180000 * c.core + base + cpUnit b r n)) 16)).dropLine c.core p) := by
  simp only [State.cpUnitRun, hp, hcell, Option.isSome_none, Bool.false_and, Bool.false_eq_true, if_false]

theorem cpUnitRun_ws {p q : Place}
    (hp : s.farPlace c false .r (cpFar 4 a sh (s.cpIndex c.core base sh) r n) = .ok p)
    (hq : s.wsPlace c.ctx (dieOfCore c.core) (b.toNat + r * 16 * cpUnits sh + 16 * n) = .ok q) :
    s.cpUnitRun id c 4 ws a b sh base false r n = .ok (s.engineMove id c p q) := by
  simp only [State.cpUnitRun, cpWsOff, if_true, Option.getD_some, hp, hq, State.farRead, Bool.false_and,
    Bool.false_eq_true, if_false]
  rfl

theorem engineMove_sp (p : Place) (x : Nat) : let u := s.engineMove id c p (.sp x)
    rdBytes u.scratch x 16 = (s.engineSight c.core p).2 ∧ KeptOutside s.scratch u.scratch x 16
      ∧ u.mem = s.mem ∧ u.ws = s.ws := by
  have hlen := s.engineSight_length c.core p
  have hu : (s.engineMove id c p (.sp x)).scratch = wrBytes s.scratch x (s.engineSight c.core p).2 := by
    rw [State.engineMove, State.put_sp_scratch, State.engineSight_scratch]
  refine ⟨?_, ?_, s.engineSight_mem c.core p, s.engineSight_ws c.core p⟩
  · rw [hu]
    exact rdBytes_wrBytes_of_length _ _ hlen
  · rw [hu]
    exact wrBytes_keptOutside _ _ hlen

theorem engineMove_ws (p : Place) (x : Nat) : let u := s.engineMove id c p (.ws x)
    rdBytes u.ws x 16 = (s.engineSight c.core p).2 ∧ u.scratch = s.scratch ∧ u.mem = s.mem
      ∧ KeptOutside s.ws u.ws x 16 := by
  have hlen := s.engineSight_length c.core p
  have hu : (s.engineMove id c p (.ws x)).ws = wrBytes s.ws x (s.engineSight c.core p).2 := by
    rw [State.engineMove, State.put_ws_ws, State.engineSight_ws]
  refine ⟨?_, s.engineSight_scratch c.core p, s.engineSight_mem c.core p, ?_⟩
  · rw [hu]
    exact rdBytes_wrBytes_of_length _ _ hlen
  · rw [hu]
    exact wrBytes_keptOutside _ _ hlen

/-- A unit of a CPY.FILL is the operand twice. -/
theorem put_twice (w : Writer) (x : Nat) (v : Word) :
    let u := s.put w .none (.sp x) (leBytes 8 v.toNat ++ leBytes 8 v.toNat)
    rdBytes u.scratch x 16 = leBytes 8 v.toNat ++ leBytes 8 v.toNat ∧ KeptOutside s.scratch u.scratch x 16
      ∧ u.mem = s.mem ∧ u.ws = s.ws := by
  have hlen : (leBytes 8 v.toNat ++ leBytes 8 v.toNat).length = 16 := by
    rw [List.length_append, leBytes_length]
  exact ⟨rdBytes_wrBytes_of_length _ _ hlen, wrBytes_keptOutside _ _ hlen, rfl, rfl⟩

/-- A unit of a CPY.OUT writes the far 16 bytes alone. -/
theorem put_dropLine_mem (w : Writer) (pa : Nat) {x : List Byte} (hx : x.length = 16) :
    let u := (s.put w .none (.mem pa) x).dropLine c.core (.mem pa)
    rdBytes u.mem pa 16 = x ∧ u.scratch = s.scratch ∧ u.ws = s.ws ∧ KeptOutside s.mem u.mem pa 16 :=
  ⟨rdBytes_wrBytes_of_length _ _ hx, rfl, rfl, wrBytes_keptOutside _ _ hx⟩

end

/-! ### What a copy leaves of the scratchpads -/

theorem foldl_keeps_mem {α β : Type} {f : β → α → β} {I : β → Prop} {xs : List α} (hI : ∀ b, ∀ a ∈ xs, I b → I (f b a))
    {b : β} (hb : I b) : I (xs.foldl f b) := by
  induction xs generalizing b with
  | nil => exact hb
  | cons x xs ih =>
    exact ih (fun b a ha => hI b a (List.mem_cons_of_mem _ ha)) (hI b x List.mem_cons_self hb)

/-- A write by a copy: of the scratchpads, at most the 16 bytes of its unit. -/
theorem put_unit_kept {s t : State} (w : Writer) (A : Nat) {p : Place} (hp : ∀ x, p = .sp x → x = A) {b : List Byte}
    (hb : b.length = 16) (ht : t.scratch = s.scratch) : KeptOutside s.scratch (t.put w .none p b).scratch A 16 := by
  cases p with
  | mem x => exact .of_eq ht A 16
  | ws x => exact .of_eq ht A 16
  | sp x =>
    rw [State.put_sp_scratch, ht, hp x rfl]
    exact wrBytes_keptOutside _ _ hb

theorem State.wsPlace_ne_sp {s : State} {ctx die o : Nat} {p : Place} (h : s.wsPlace ctx die o = .ok p) (x : Nat) :
    p ≠ .sp x := by
  unfold State.wsPlace at h
  dsimp only at h
  split at h <;> cases h
  exact nofun

theorem State.farPlace_ne_sp {s : State} {c : Cmd} {ws : Bool} {k : Acc} {far : Word} {p : Place}
    (h : s.farPlace c ws k far = .ok p) (x : Nat) : p ≠ .sp x := by
  unfold State.farPlace at h
  split at h
  · exact State.wsPlace_ne_sp h x
  · split at h <;> cases h
    exact nofun

theorem cpUnitRun_kept {s t : State} {id : Nat} {c : Cmd} {kind : Nat} {ws : Bool} {a b sh : Word} {base : Nat} {err : Bool}
    {r u : Nat} (h : s.cpUnitRun id c kind ws a b sh base err r u = .ok t) :
    KeptOutside s.scratch t.scratch (0x180000 * c.core + base + cpUnit b r u) 16 := by
  unfold State.cpUnitRun at h
  dsimp only at h
  split at h
  · cases h
    exact put_unit_kept _ _ (fun _ e => (Place.sp.inj e).symm) rfl rfl
  · split at h
    · cases h
    next p hp =>
      split at h
      · cases h
      · split at h
        · cases h
          exact .of_eq (State.pcieEntry_scratch ..) _ _
        · cases h
          rw [(State.dropLine_coresOnly _ _ _).scratch]
          exact put_unit_kept _ _ (fun x e => absurd e (State.farPlace_ne_sp hp x)) (State.home_length ..) rfl
  · split at h
    next p q _ hq =>
      cases h
      exact put_unit_kept _ _ (fun x e => absurd e (State.wsPlace_ne_sp hq x)) (State.farRead_length ..)
        (State.farRead_scratch ..)
    · cases h
    · cases h
  · split at h
    · cases h
    · cases h
      exact put_unit_kept _ _ (fun _ e => (Place.sp.inj e).symm) (State.farRead_length ..) (State.farRead_scratch ..)

/-- A byte of the scratchpads outside a unit's 16 bytes. -/
def OffUnit (c : Cmd) (b : Word) (base x : Nat) (q : Nat × Nat) : Prop :=
  x < 0x180000 * c.core + base + cpUnit b q.1 q.2 ∨ 0x180000 * c.core + base + cpUnit b q.1 q.2 + 16 ≤ x

section
variable {id : Nat} {c : Cmd} {kind : Nat} {ws : Bool} {a b sh : Word} {base x : Nat}

/-- Units that are run write none but their own bytes, and those not reached are among them. -/
theorem cpRun_kept (xs held : List CopyUnit) (s : State) (hx : ∀ y ∈ xs, OffUnit c b base x y.2) :
    rdByte (State.cpRun id c kind ws a b sh base xs held s).1.scratch x = rdByte s.scratch x
      ∧ ∀ y ∈ (State.cpRun id c kind ws a b sh base xs held s).2.2.1, y ∈ xs := by
  induction xs generalizing held s with
  | nil => exact ⟨rfl, fun _ h => h⟩
  | cons y rest ih =>
    obtain ⟨n, r, u⟩ := y
    have hrest : ∀ y ∈ rest, OffUnit c b base x y.2 := fun y hy => hx y (List.mem_cons_of_mem _ hy)
    rw [State.cpRun]
    split
    · obtain ⟨hs, hr⟩ := ih (held ++ [(n, r, u)]) s hrest
      exact ⟨hs, fun y hy => List.mem_cons_of_mem _ (hr y hy)⟩
    · split
      · exact ⟨rfl, fun _ h => h⟩
      · split
        next t ht =>
          obtain ⟨hs, hr⟩ := ih held t.draw hrest
          exact ⟨hs.trans (cpUnitRun_kept ht x (hx _ List.mem_cons_self)), fun y hy => List.mem_cons_of_mem _ (hr y hy)⟩
        next => exact ⟨rfl, fun _ h => h⟩

theorem cpTail_kept (xs : List CopyUnit) (s : State) (hx : ∀ y ∈ xs, OffUnit c b base x y.2) :
    rdByte (State.cpTail id c kind ws a b sh base xs s).scratch x = rdByte s.scratch x := by
  refine foldl_keeps_mem (I := fun v : State => rdByte v.scratch x = rdByte s.scratch x) (fun v y hy h => ?_) rfl
  obtain ⟨n, r, u⟩ := y
  dsimp only
  split
  · split
    next t ht => exact (cpUnitRun_kept ht x (hx _ hy)).trans h
    next => exact h
  · exact h

theorem closeRounds_scratch (cell n : Nat) (s : State) : (State.closeRounds cell n s).scratch = s.scratch := by
  induction n generalizing s with
  | zero => rfl
  | succ n ih =>
    rw [State.closeRounds]
    split
    · rfl
    · split
      · rw [ih]
        dsimp only
        refine foldl_keeps (I := fun v : State => v.scratch = s.scratch)
          (fun v p h => (State.writePa_scratch v _ _ _).trans h) _ ?_
        exact foldl_keeps (I := fun v : State => v.scratch = s.scratch)
          (fun v p h => (State.writePa_scratch v _ _ _).trans h) _ rfl
      · rfl

theorem cellContribute_scratch (s : State) (cell pkg : Nat) (bs : List Byte) :
    (s.cellContribute cell pkg bs).scratch = s.scratch := by
  unfold State.cellContribute
  split
  · rfl
  · exact closeRounds_scratch ..

/-- The units that a copy has still to make are its own. -/
theorem cpTodo_mem {y : CopyUnit} (h : y ∈ c.cpTodo sh) : y.2 ∈ cpList sh := by
  have hzip : y ∈ (cpList sh).zipIdx.map (fun (x, n) => (n, x.1, x.2)) := by
    rcases List.mem_append.mp h with h | h
    · exact (List.mem_filter.mp h).1
    · exact List.mem_of_mem_drop h
  obtain ⟨⟨q, n⟩, hz, rfl⟩ := List.mem_map.mp hzip
  exact (List.mem_zipIdx' hz).2 ▸ List.getElem_mem _

theorem cpBody_kept (s : State) (n : Nat) (hx : ∀ q ∈ cpList sh, OffUnit c b base x q) :
    rdByte (s.cpBody id n c kind ws a b sh base).1.scratch x = rdByte s.scratch x
      ∧ ∀ y ∈ (s.cpBody id n c kind ws a b sh base).2.2.1, OffUnit c b base x y.2 := by
  unfold State.cpBody
  split
  · split
    · exact ⟨by rw [cellContribute_scratch], fun _ h => (List.not_mem_nil h).elim⟩
    · exact ⟨rfl, fun _ h => (List.not_mem_nil h).elim⟩
  · have hin : ∀ y ∈ (c.cpTodo sh).take n, OffUnit c b base x y.2 := fun y hy =>
      hx _ (cpTodo_mem (List.mem_of_mem_take hy))
    obtain ⟨hs, hr⟩ := cpRun_kept (id := id) (kind := kind) (ws := ws) (a := a) (sh := sh) ((c.cpTodo sh).take n) []
      s.draw hin
    refine ⟨hs, fun y hy => ?_⟩
    rcases List.mem_append.mp hy with hy | hy
    · exact hin y (hr y hy)
    · exact hx _ (cpTodo_mem (List.mem_of_mem_drop hy))

end

theorem State.dropWs_coresOnly (s : State) (die : Nat) : CoresOnly s (s.dropWs die) :=
  foldl_keeps (I := CoresOnly s) (fun u k h => h.trans (State.updCore_coresOnly u k _)) _ (.refl s)

theorem State.finishCmd_scratch (s : State) (id : Nat) (c : Cmd) : (s.finishCmd id c).scratch = s.scratch := rfl

/-! ### The completion word (R233, R369) -/

/-- What the completion word of a copy takes: its value, or the error value. -/
def wordValue (d : Word) (f : Option CopyFail) : Nat :=
  match f with
  | some (k, r, u, _) => errValue k r u
  | none => bits d 63 32

theorem wordValue_mod (d : Word) (f : Option CopyFail) : wordValue d f % 2 ^ 32 = match f with
    | none => bits d 63 32
    | some (k, i, j, _) => errValue k i j % 2 ^ 32 := by
  cases f with
  | none => exact Nat.mod_eq_of_lt (Nat.mod_lt _ (by decide))
  | some f => rfl

theorem State.copyViolation_scratch (s : State) (c : Cmd) (f : CopyFail) : (s.copyViolation c f).scratch = s.scratch := by
  unfold State.copyViolation
  split <;> rfl

theorem State.failCopy_scratch (s : State) (c : Cmd) (err : Nat) (addr : Word) :
    (s.failCopy c err addr).scratch = s.scratch := (State.bbox_scratch ..).trans (State.gangFault_scratch ..)

theorem cpDone_scratch (s : State) (id : Nat) (c : Cmd) (sc : Scope) (d : Word) (base : Nat) (f : Option CopyFail) :
    (s.cpDone id c sc d base f).scratch = if d.getLsbD 21 then
      wrBytes s.scratch (0x180000 * c.core + base + bits d 20 0) (leBytes 4 (wordValue d f)) else s.scratch := by
  have hput (v : Nat) (t : State) (ht : t = if d.getLsbD 21 then
      s.put (s.cpWriter id c sc) .none (.sp (0x180000 * c.core + base + bits d 20 0)) (leBytes 4 v) else s) :
      t.scratch = if d.getLsbD 21 then
        wrBytes s.scratch (0x180000 * c.core + base + bits d 20 0) (leBytes 4 v) else s.scratch := by
    rw [ht]
    split <;> rfl
  cases f with
  | none => exact hput _ _ rfl
  | some f =>
    obtain ⟨k, r, u, far⟩ := f
    exact ((State.failCopy_scratch ..).trans (State.copyViolation_scratch ..)).trans (hput _ _ rfl)

/-- The completion word takes its value, and nothing else of the scratchpads changes. -/
theorem cpDone_word (s : State) (id : Nat) (c : Cmd) (sc : Scope) (d : Word) (base : Nat) (f : Option CopyFail) :
    let u := s.cpDone id c sc d base f
    let W := 0x180000 * c.core + base + bits d 20 0
    (d.getLsbD 21 = false → u.scratch = s.scratch)
      ∧ (d.getLsbD 21 = true → KeptOutside s.scratch u.scratch W 4
        ∧ rdNat u.scratch W 4 = wordValue d f % 2 ^ 32) := by
  refine ⟨fun h => ?_, fun h => ?_⟩
  · rw [cpDone_scratch, if_neg (ne_true_of_eq_false h)]
  · rw [cpDone_scratch, if_pos h]
    exact ⟨wrBytes_keptOutside _ _ (leBytes_length ..), rdNat_wrBytes ..⟩

theorem cpDone_kept (s : State) (id : Nat) (c : Cmd) (sc : Scope) {d : Word} {base : Nat} (f : Option CopyFail) {x : Nat}
    (hw : d.getLsbD 21 = true → x < 0x180000 * c.core + base + bits d 20 0
      ∨ 0x180000 * c.core + base + bits d 20 0 + 4 ≤ x) :
    rdByte (s.cpDone id c sc d base f).scratch x = rdByte s.scratch x := by
  obtain ⟨hoff, hon⟩ := cpDone_word s id c sc d base f
  cases h : d.getLsbD 21 with
  | false => rw [hoff h]
  | true => exact (hon h).1 x (hw h)

/-! ### A whole copy -/

theorem cpAll_kept (s : State) (id : Nat) {c : Cmd} {kind : Nat} {ws : Bool} {sc : Scope} {d a b sh : Word}
    (hc : c.body = .copy kind ws sc d a b sh) {x : Nat}
    (hx : ∀ q ∈ cpList sh, OffUnit c b (4096 * ((s.window c.block c.core).map (·.1)).getD 0) x q)
    (hw : d.getLsbD 21 = true →
      x < 0x180000 * c.core + 4096 * ((s.window c.block c.core).map (·.1)).getD 0 + bits d 20 0
        ∨ 0x180000 * c.core + 4096 * ((s.window c.block c.core).map (·.1)).getD 0 + bits d 20 0 + 4 ≤ x) :
    rdByte (s.cpAll id c (fun s => s.finishCmd id c)).scratch x = rdByte s.scratch x := by
  unfold State.cpAll State.cpSome
  rw [hc]
  simp only [Bool.false_and, Bool.false_eq_true, if_false, Bool.false_or]
  generalize 4096 * ((s.window c.block c.core).map (·.1)).getD 0 = base at hx hw ⊢
  obtain ⟨hs, hr⟩ := cpBody_kept (id := id) (kind := kind) (ws := ws) (a := a) s (c.cpTodo sh).length hx
  revert hs hr
  obtain ⟨t, held, rest, f⟩ := s.cpBody id (c.cpTodo sh).length c kind ws a b sh base
  intro hs hr
  dsimp only at hs hr ⊢
  split
  · exact hs
  · refine (cpDone_kept _ _ _ _ _ hw).trans ((congrArg (rdByte · x) (State.finishCmd_scratch ..)).trans ?_)
    rw [apply_ite State.scratch, (State.dropWs_coresOnly _ _).scratch, ite_self]
    split
    · exact (cpTail_kept _ _ fun y hy => hr y (List.mem_of_mem_drop hy)).trans hs
    · exact hs

end Sys2Proof.Machine
end

section
/-! The bytes that sweeps and matrix commands change, and what they change them to (R125, R127, R221, R225, R230, R231).
Part of O55. -/

namespace Sys2Proof.Machine

/-! ### A sweep's row (R230, R231) -/

/-- Where element e of a walk's row stands in the scratchpads. -/
def walkPlace (core base : Nat) (x : Word) (r e : Nat) : Nat := 0x180000 * core + base + (walkAt x r e).toNat

/-- Two runs of bytes share none. -/
def RunsApart (x y n m : Nat) : Prop := x + n ≤ y ∨ y + m ≤ x

section
variable {s : State} {core id base : Nat} {x : Word} {F : Fmt} {r e v : Nat}

theorem walkPut_scratch : (s.walkPut core id base x F r e v).scratch
    = wrBytes s.scratch (walkPlace core base x r e) (leBytes (F.width / 8) v) := State.put_sp_scratch ..

theorem walkPut_kept :
    KeptOutside s.scratch (s.walkPut core id base x F r e v).scratch (walkPlace core base x r e) (F.width / 8) := by
  rw [walkPut_scratch]
  exact wrBytes_keptOutside _ _ (leBytes_length ..)

theorem walkPut_value :
    rdNat (s.walkPut core id base x F r e v).scratch (walkPlace core base x r e) (F.width / 8)
      = v % 2 ^ (8 * (F.width / 8)) := by
  rw [walkPut_scratch]
  exact rdNat_wrBytes ..

/-- An element is read from its own bytes. -/
theorem walkGet_congr {s t : State} {core base r e : Nat} {x : Word} {F : Fmt}
    (h : ∀ y, walkPlace core base x r e ≤ y → y < walkPlace core base x r e + F.width / 8 →
      rdByte t.scratch y = rdByte s.scratch y) : t.walkGet core base x F r e = s.walkGet core base x F r e := by
  refine congrArg leNat (List.map_congr_left fun k hk => congrArg (BitVec.ofNat 8) ?_)
  have hk : k < F.width / 8 := List.mem_range.mp hk
  unfold State.spByte
  split
  · rw [h _ (by unfold walkPlace; omega) (by unfold walkPlace; omega)]
  · rfl

theorem rdNat_congr {m k : Memory} {x n : Nat} (h : ∀ y, x ≤ y → y < x + n → rdByte k y = rdByte m y) :
    rdNat k x n = rdNat m x n := by
  refine congrArg leNat (List.ext_getElem (by rw [rdBytes_length, rdBytes_length]) fun i hi _ => ?_)
  rw [rdBytes_length] at hi
  rw [rdBytes_get, rdBytes_get, h _ (by omega) (by omega)]

end

section
variable (s : State) (core id base op : Nat) (sat : Bool) (d a b c : Word) (F G : Fmt) (r : Nat)

/-- Element e of an elementwise row is computed and written. -/
def State.vsPut (s : State) (e : Nat) : State :=
  s.walkPut core id base d G r e (vsElem op F G sat (bits c 63 32) (s.walkGet core base a F r e)
    (if vsTwo op then s.walkGet core base b F r e else 0) (s.walkGet core base d G r e))

/-- The first n elements of an elementwise row. -/
def State.vsPuts (n : Nat) : State := (List.range n).foldl (State.vsPut core id base op sat d a b c F G r) s

variable {s core id base op sat d a b c F G r}

theorem vsRow_elementwise (h : op < 8) : s.vsRow core id base op sat d a b c F G r
    = s.vsPuts core id base op sat d a b c F G r (vsElems c) := if_neg (by omega)

theorem vsRow_reduction (h : 8 ≤ op) : s.vsRow core id base op sat d a b c F G r
    = s.walkPut core id base d G r 0 (cvt fp32 G .rne sat (vsFold (op = 9)
      ((List.range (vsElems c)).map (fun e => (cvt F fp32 .rne false (s.walkGet core base a F r e)).1)))).1 := if_pos h

theorem vsPuts_succ (n : Nat) : s.vsPuts core id base op sat d a b c F G r (n + 1)
    = State.vsPut core id base op sat d a b c F G r (s.vsPuts core id base op sat d a b c F G r n) n := by
  rw [State.vsPuts, List.range_succ, List.foldl_concat]
  rfl

theorem vsPuts_mem (n : Nat) : (s.vsPuts core id base op sat d a b c F G r n).mem = s.mem := by
  refine foldl_keeps (I := fun u : State => u.mem = s.mem) (fun u e h => ?_) _ rfl
  exact h

theorem vsPuts_ws (n : Nat) : (s.vsPuts core id base op sat d a b c F G r n).ws = s.ws := by
  refine foldl_keeps (I := fun u : State => u.ws = s.ws) (fun u e h => ?_) _ rfl
  exact h

/-- From its element m on, a row changes only the places of the elements it writes. -/
theorem vsPuts_kept {m n y : Nat} (hmn : m ≤ n)
    (hy : ∀ e, m ≤ e → e < n → RunsApart y (walkPlace core base d r e) 1 (G.width / 8)) :
    rdByte (s.vsPuts core id base op sat d a b c F G r n).scratch y
      = rdByte (s.vsPuts core id base op sat d a b c F G r m).scratch y := by
  induction n, hmn using Nat.le_induction with
  | base => rfl
  | succ n hmn ih =>
    rw [vsPuts_succ, ← ih fun e hm he => hy e hm (by omega)]
    exact walkPut_kept y (hy n hmn (by omega))

/-- Element e of a row has its result, of the operands as they stood, where no element before it writes them and none but
it writes its place. -/
theorem vsPuts_value {n e : Nat} (he : e < n)
    (hd : ∀ j, j < n → j ≠ e →
      RunsApart (walkPlace core base d r j) (walkPlace core base d r e) (G.width / 8) (G.width / 8))
    (hab : ∀ j, j < e →
      RunsApart (walkPlace core base d r j) (walkPlace core base a r e) (G.width / 8) (F.width / 8)
        ∧ RunsApart (walkPlace core base d r j) (walkPlace core base b r e) (G.width / 8) (F.width / 8)) :
    rdNat (s.vsPuts core id base op sat d a b c F G r n).scratch (walkPlace core base d r e) (G.width / 8)
      = vsElem op F G sat (bits c 63 32) (s.walkGet core base a F r e)
          (if vsTwo op then s.walkGet core base b F r e else 0) (s.walkGet core base d G r e)
        % 2 ^ (8 * (G.width / 8)) := by
  have hsame : ∀ (x : Word) (X : Fmt), (∀ j, j < e → RunsApart (walkPlace core base d r j) (walkPlace core base x r e)
      (G.width / 8) (X.width / 8)) →
      (s.vsPuts core id base op sat d a b c F G r e).walkGet core base x X r e = s.walkGet core base x X r e := by
    intro x X hx
    refine walkGet_congr fun y hlo hhi => vsPuts_kept (Nat.zero_le e) fun j _ hj => ?_
    have := hx j hj
    unfold RunsApart at this ⊢
    omega
  have hlater : rdNat (s.vsPuts core id base op sat d a b c F G r n).scratch (walkPlace core base d r e) (G.width / 8)
      = rdNat (s.vsPuts core id base op sat d a b c F G r (e + 1)).scratch (walkPlace core base d r e) (G.width / 8) := by
    refine rdNat_congr fun y hlo hhi => vsPuts_kept he fun j hj hn => ?_
    have := hd j hn (by omega)
    unfold RunsApart at this ⊢
    omega
  rw [hlater, vsPuts_succ, State.vsPut, walkPut_value, hsame a F fun j hj => (hab j hj).1,
    hsame b F fun j hj => (hab j hj).2, hsame d G fun j hj => hd j (by omega) (by omega)]

theorem vsRow_mem_ws : (s.vsRow core id base op sat d a b c F G r).mem = s.mem
    ∧ (s.vsRow core id base op sat d a b c F G r).ws = s.ws := by
  rcases Nat.lt_or_ge op 8 with h | h
  · rw [vsRow_elementwise h]
    exact ⟨vsPuts_mem .., vsPuts_ws ..⟩
  · rw [vsRow_reduction h]
    exact ⟨rfl, rfl⟩

theorem vsRow_kept {y : Nat}
    (hy : ∀ e, e < vsDstElems op c → RunsApart y (walkPlace core base d r e) 1 (G.width / 8)) :
    rdByte (s.vsRow core id base op sat d a b c F G r).scratch y = rdByte s.scratch y := by
  rcases Nat.lt_or_ge op 8 with h | h
  · rw [vsDstElems, if_neg (Nat.not_le.mpr h)] at hy
    rw [vsRow_elementwise h]
    exact vsPuts_kept (Nat.zero_le _) fun e _ he => hy e he
  · rw [vsDstElems, if_pos h] at hy
    rw [vsRow_reduction h]
    exact walkPut_kept y (hy 0 Nat.one_pos)

end

/-! ### An accumulator (R221) -/

section
variable {α : Type}

theorem length_flatMap_of_length {β : Type} {f : α → List β} {n : Nat} (h : ∀ x, (f x).length = n) (xs : List α) :
    (xs.flatMap f).length = n * xs.length := by
  induction xs with
  | nil => rfl
  | cons x xs ih => rw [List.flatMap_cons, List.length_append, h, ih, List.length_cons, Nat.mul_succ, Nat.add_comm]

/-- Where pieces have one length, an index falls into the piece that it counts to. -/
theorem getElem?_flatMap_of_length {β : Type} {f : α → List β} {n : Nat} (h : ∀ x, (f x).length = n) (xs : List α)
    (i : Nat) {j : Nat} (hj : j < n) : (xs.flatMap f)[n * i + j]? = xs[i]?.bind (fun x => (f x)[j]?) := by
  induction xs generalizing i with
  | nil => rfl
  | cons x xs ih =>
    rw [List.flatMap_cons]
    cases i with
    | zero => rw [List.getElem?_append_left (by rw [h]; omega), Nat.mul_zero, Nat.zero_add]; rfl
    | succ i =>
      rw [List.getElem?_append_right (by rw [h, Nat.mul_succ]; omega), h, List.getElem?_cons_succ, ← ih i]
      congr 1
      rw [Nat.mul_succ]
      omega

theorem zipIdx_map_range (n : Nat) (f : Nat → α) :
    ((List.range n).map f).zipIdx = (List.range n).map (fun i => (f i, i)) :=
  List.ext_getElem (by simp) fun i _ _ => by simp

end

/-- An accumulator's 128 rows of 128 elements, in row order. -/
def accRows (g : Nat → Nat → Nat) : List Nat := (List.range 128).flatMap (fun i => (List.range 128).map (g i))

theorem accRows_get (g : Nat → Nat → Nat) {i j : Nat} (hi : i < 128) (hj : j < 128) :
    (accRows g)[128 * i + j]? = some (g i j) := by
  rw [accRows, getElem?_flatMap_of_length (fun i => by rw [List.length_map, List.length_range]) _ _ hj,
    List.getElem?_range hi, Option.bind_some, List.getElem?_map, List.getElem?_range hj, Option.map_some]

/-- The rows of an accumulator as a chunk computes them: row and column of each element from the operands' lists. -/
theorem zipIdx_rows {α : Type} (f h : Nat → α) (g : α → α → Nat → Nat → Nat) :
    (((List.range 128).map f).zipIdx.flatMap (fun (x, i) => ((List.range 128).map h).zipIdx.map (fun (y, j) => g x y i j)))
      = accRows (fun i j => g (f i) (h j) i j) := by
  rw [zipIdx_map_range, zipIdx_map_range, List.flatMap_map, accRows]
  refine congrArg (List.flatMap · (List.range 128)) (funext fun i => ?_)
  exact List.map_map

section
variable {s : State} {core id base : Nat} {acc : BitVec 9}

theorem putAcc_scratch (xs : List Nat) : (s.putAcc core id base acc xs).scratch
    = wrBytes s.scratch (0x180000 * core + 4096 * (base + acc.toNat)) (xs.flatMap (leBytes 4)) := State.put_sp_scratch ..

theorem putAcc_mem (xs : List Nat) : (s.putAcc core id base acc xs).mem = s.mem := rfl

theorem putAcc_ws (xs : List Nat) : (s.putAcc core id base acc xs).ws = s.ws := rfl

theorem accBytes_length (g : Nat → Nat → Nat) : ((accRows g).flatMap (leBytes 4)).length = 65536 := by
  have hrows : (accRows g).length = 16384 := by
    rw [accRows, length_flatMap_of_length fun i => by rw [List.length_map, List.length_range], List.length_range]
  rw [length_flatMap_of_length (leBytes_length 4), hrows]

theorem putAcc_kept {xs : List Nat} (h : (xs.flatMap (leBytes 4)).length = 65536) :
    KeptOutside s.scratch (s.putAcc core id base acc xs).scratch (0x180000 * core + 4096 * (base + acc.toNat)) 65536 := by
  rw [putAcc_scratch]
  exact wrBytes_keptOutside _ _ h

/-- An element of an accumulator that lies in the core's scratchpad. -/
theorem accAt_eq {i j : Nat} (hi : i < 128) (hj : j < 128) (hfit : base + acc.toNat + 16 ≤ 384) :
    s.accAt core base acc i j
      = rdNat s.scratch (0x180000 * core + 4096 * (base + acc.toNat) + 4 * (128 * i + j)) 4 := by
  refine congrArg leNat (List.ext_getElem (by simp [rdBytes_length]) fun k hk _ => ?_)
  rw [List.length_map, List.length_range] at hk
  rw [List.getElem_map, List.getElem_range, rdBytes_get, State.spByte, if_pos (by omega), BitVec.ofNat_toNat,
    BitVec.setWidth_eq]
  congr 1
  omega

theorem putAcc_value (g : Nat → Nat → Nat) {i j : Nat} (hi : i < 128) (hj : j < 128)
    (hfit : base + acc.toNat + 16 ≤ 384) :
    (s.putAcc core id base acc (accRows g)).accAt core base acc i j = g i j % 2 ^ 32 := by
  rw [accAt_eq hi hj hfit, putAcc_scratch]
  have hbytes : rdBytes (wrBytes s.scratch (0x180000 * core + 4096 * (base + acc.toNat)) ((accRows g).flatMap (leBytes 4)))
      (0x180000 * core + 4096 * (base + acc.toNat) + 4 * (128 * i + j)) 4 = leBytes 4 (g i j) := by
    refine List.ext_getElem (by rw [rdBytes_length, leBytes_length]) fun k hk hk' => ?_
    rw [rdBytes_length] at hk
    have hget := getElem?_flatMap_of_length (leBytes_length 4) (accRows g) (128 * i + j) hk
    rw [accRows_get g hi hj, Option.bind_some, List.getElem?_eq_getElem hk'] at hget
    obtain ⟨hlt, hval⟩ := List.getElem?_eq_some_iff.mp hget
    rw [rdBytes_get, Nat.add_assoc, rdByte_wrBytes_in _ _ _ hlt, hval]
  rw [rdNat, hbytes, leNat_leBytes]
  norm_num

end

/-! ### A chunk (R125, R127) and MXZERO -/

section
variable (s : State) (core id base size kind : Nat) (acc : BitVec 9) (fmt a0 a1 b0 b1 : Word) (ch : Chunk)

/-- The products of row i of A and row j of B in a chunk. -/
def State.mxProducts (i j : Nat) : List FVal :=
  (List.range 16).map (fun e => mxProd (s.mxValue core base size (mxOpA kind fmt a0 a1) i (ch.pa + e) (ch.k + e))
    (s.mxValue core base size (mxOpB kind fmt b0 b1) j (ch.pb + e) (ch.k + e)))

/-- The same of integers. -/
def State.mxIntProducts (i j : Nat) : List Int :=
  (List.range 16).map (fun e => s.mxInt core base size (mxOpA kind fmt a0 a1) i (ch.pa + e)
    * s.mxInt core base size (mxOpB kind fmt b0 b1) j (ch.pb + e))

variable {s core id base size kind acc fmt a0 a1 b0 b1 ch}

theorem mxChunk_float (h : mxClass (mxFa fmt) ≠ some 2) : s.mxChunk core id base size kind acc fmt a0 a1 b0 b1 ch
    = s.putAcc core id base acc (accRows (fun i j => accAdd (s.accAt core base acc i j)
      (mxSum (s.mxProducts core base size kind fmt a0 a1 b0 b1 ch i j)))) := by
  refine (if_neg h).trans (congrArg (s.putAcc core id base acc) ?_)
  refine (zipIdx_rows _ _ (fun x y i j => accAdd (s.accAt core base acc i j) (mxSum (List.zipWith mxProd x y)))).trans ?_
  refine congrArg accRows (funext fun i => funext fun j => ?_)
  rw [List.zipWith_map, List.zipWith_self]
  rfl

theorem mxChunk_int (h : mxClass (mxFa fmt) = some 2) : s.mxChunk core id base size kind acc fmt a0 a1 b0 b1 ch
    = s.putAcc core id base acc (accRows (fun i j => (((s.accAt core base acc i j : Nat)
      + (s.mxIntProducts core base size kind fmt a0 a1 b0 b1 ch i j).sum : Int) % 2 ^ 32).toNat)) := by
  refine (if_pos h).trans (congrArg (s.putAcc core id base acc) ?_)
  refine (zipIdx_rows _ _ (fun x y i j => (((s.accAt core base acc i j : Nat)
    + (List.zipWith (· * ·) x y).sum : Int) % 2 ^ 32).toNat)).trans ?_
  refine congrArg accRows (funext fun i => funext fun j => ?_)
  rw [List.zipWith_map, List.zipWith_self]
  rfl

end

/-- The integer sum that an element takes is one of 32 bits. -/
theorem toNat_emod_mod (x : Int) : (((x % 2 ^ 32).toNat % 2 ^ 32 : Nat) : Int) = x % 2 ^ 32 := by
  omega

theorem mxAll_zero (s : State) (id : Nat) {c : Cmd} {st : BitVec 2} {re : Bool} {acc : BitVec 9} {f a0 a1 b0 b1 : Word}
    (hc : c.body = .matrix 2 st re acc f a0 a1 b0 b1) : s.mxAll id c
      = s.draw.putAcc c.core id (((s.window c.block c.core).map (·.1)).getD 0) acc (List.replicate 16384 0) := by
  rw [State.mxAll, hc]
  cases s.window c.block c.core <;> rfl

theorem accZeros_bytes : (List.replicate 16384 0).flatMap (leBytes 4) = List.replicate 65536 (0 : Byte) := by
  have hword : leBytes 4 0 = List.replicate 4 (0 : Byte) := rfl
  rw [List.flatMap_replicate, hword, List.flatten_replicate_replicate]

theorem mxAll_zero_bytes (s : State) (id : Nat) {c : Cmd} {st : BitVec 2} {re : Bool} {acc : BitVec 9}
    {f a0 a1 b0 b1 : Word} (hc : c.body = .matrix 2 st re acc f a0 a1 b0 b1) :
    let P := 0x180000 * c.core + 4096 * (((s.window c.block c.core).map (·.1)).getD 0 + acc.toNat)
    let u := (s.mxAll id c).finishCmd id c
    KeptOutside s.scratch u.scratch P 65536 ∧ u.mem = s.mem
      ∧ ∀ x, P ≤ x → x < P + 65536 → rdByte u.scratch x = 0 := by
  have hlen : ((List.replicate 16384 0).flatMap (leBytes 4)).length = 65536 := by
    rw [accZeros_bytes, List.length_replicate]
  have hu : ((s.mxAll id c).finishCmd id c).scratch = wrBytes s.scratch
      (0x180000 * c.core + 4096 * (((s.window c.block c.core).map (·.1)).getD 0 + acc.toNat))
      ((List.replicate 16384 0).flatMap (leBytes 4)) := by
    rw [State.finishCmd_scratch, mxAll_zero s id hc]
    exact putAcc_scratch ..
  refine ⟨?_, ?_, fun x hlo hhi => ?_⟩
  · rw [hu]
    exact wrBytes_keptOutside _ _ hlen
  · show (s.mxAll id c).mem = s.mem
    rw [mxAll_zero s id hc, putAcc_mem]
    rfl
  · obtain ⟨i, rfl⟩ := Nat.le.dest hlo
    rw [hu, rdByte_wrBytes_in _ _ _ (by rw [hlen]; omega)]
    simp only [accZeros_bytes, List.getElem_replicate]

end Sys2Proof.Machine
end

section
/-! Acceptance and completion of commands: tiles and their owners, replies, and what completes (R211–R214, R375). With it
and the work of copies, sweeps and matrix commands, O55. -/

namespace Sys2Proof.Machine

/-! ### Tiles (R213) -/

theorem mayTake_iff (s : State) (c : Cmd) (tiles : List Nat) : s.mayTake c tiles = true ↔
    s.checkedAccess c.core tiles = false
      ∧ ∀ t ∈ tiles, (s.core c.core).owner.get 0 t = 0 ∨ (s.core c.core).owner.get 0 t = c.body.unit.owner := by
  rw [State.mayTake, Bool.and_eq_true, Bool.not_eq_true', and_comm, State.tilesFree, List.all_eq_true]
  simp only [Bool.or_eq_true, beq_iff_eq]

theorem acceptEngine_foreign {s : State} {id : Nat} {c : Cmd}
    (h : ∃ t ∈ s.namedTiles c, (s.core c.core).owner.get 0 t ∉ [0, c.body.unit.owner]) : s.acceptEngine id c = s := by
  obtain ⟨t, ht, hown⟩ := h
  have hno : s.mayTake c (s.namedTiles c) ≠ true := by
    intro hmay
    obtain ⟨-, hall⟩ := (mayTake_iff s c _).mp hmay
    exact hown (List.mem_cons.mpr ((hall t ht).imp_right List.mem_singleton.mpr))
  rw [State.acceptEngine, if_pos (by rw [Bool.not_eq_true', Bool.eq_false_iff]; exact hno)]

theorem acceptEngine_of_mayTake {s : State} {id : Nat} {c : Cmd} (h : s.mayTake c (s.namedTiles c) = true) :
    let t := (s.drainFor c).drainTiles c.core (s.namedTiles c)
    s.acceptEngine id c = if t.mayTake c (t.physTiles c) then t.seated id c (t.physTiles c) else s :=
  if_neg (by rw [h]; exact Bool.false_ne_true)

/-- One tile flips to a unit's owner code and is counted. -/
def Core.takeTile (own : BitVec 2) (ver : Nat) (x : Core) (t : Nat) : Core :=
  { x with
    owner := x.owner.set 0 t own
    count := x.count.set 0 t (x.count.get 0 t + 1)
    flips := if x.owner.get 0 t = 0 then x.flips.set 0 t ver else x.flips
    freed := if x.owner.get 0 t = 0 then x.freed.del t else x.freed }

theorem takeTiles_core (s : State) (c : Cmd) (tiles : List Nat) : (s.takeTiles c tiles).core c.core
    = tiles.foldl (Core.takeTile c.body.unit.owner s.nextVer) (s.core c.core) := State.updCore_core_self ..

theorem takeTiles_owner (s : State) (c : Cmd) {tiles : List Nat} {t : Nat} (ht : t ∈ tiles) :
    ((s.takeTiles c tiles).core c.core).owner.get 0 t = c.body.unit.owner := by
  rw [takeTiles_core]
  refine foldl_reaches (I := fun _ => True) (P := fun x : Core => x.owner.get 0 t = c.body.unit.owner) (fun _ _ _ => trivial)
    (fun x k h => ?_) (fun x _ => SMap.get_set_self x.owner 0 t _) ht trivial
  by_cases hk : t = k
  · subst hk
    exact SMap.get_set_self x.owner 0 t _
  · exact (SMap.get_set_ne x.owner 0 _ hk).trans h

/-- The count of one tile falls, and a tile that no command names returns to the threads. -/
def Core.freeTile (mine : List Nat) (x : Core) (t : Nat) : Core :=
  { x with
    count := x.count.set 0 t (x.count.get 0 t - 1)
    owner := if x.count.get 0 t - 1 = 0 then x.owner.del t else x.owner
    freed := x.freed.set [] t (addAll (x.freed.get [] t) mine) }

theorem freeTiles_core (s : State) (core id : Nat) (tiles : List Nat) : (s.freeTiles core id tiles).core core
    = tiles.foldl (Core.freeTile ((s.vers.filter (fun v => v.spot == .engine core && v.issue = id)).map Ver.id))
      (s.core core) := State.updCore_core_self ..

theorem SMap.get_del_self {α : Type} (m : SMap α) (d : α) (k : Nat) : (m.del k).get d k = d := by
  rw [SMap.get, SMap.get?_del_self]
  rfl

theorem SMap.get_del_ne {α : Type} (m : SMap α) (d : α) {k j : Nat} (h : j ≠ k) : (m.del k).get d j = m.get d j := by
  rw [SMap.get, SMap.get, SMap.get?_del_ne m h]

theorem freeTile_self (mine : List Nat) (x : Core) (t : Nat) :
    (x.freeTile mine t).count.get 0 t = x.count.get 0 t - 1
      ∧ (x.freeTile mine t).owner.get 0 t = if x.count.get 0 t - 1 = 0 then 0 else x.owner.get 0 t := by
  refine ⟨SMap.get_set_self x.count 0 t _, ?_⟩
  unfold Core.freeTile
  dsimp only
  split
  · exact SMap.get_del_self x.owner 0 t
  · rfl

theorem freeTile_ne (mine : List Nat) (x : Core) {k t : Nat} (h : t ≠ k) :
    (x.freeTile mine k).count.get 0 t = x.count.get 0 t ∧ (x.freeTile mine k).owner.get 0 t = x.owner.get 0 t := by
  refine ⟨SMap.get_set_ne x.count 0 _ h, ?_⟩
  unfold Core.freeTile
  dsimp only
  split
  · exact SMap.get_del_ne x.owner 0 h
  · rfl

theorem foldl_freeTile_ne (mine : List Nat) (tiles : List Nat) (x : Core) {t : Nat} (h : t ∉ tiles) :
    (tiles.foldl (Core.freeTile mine) x).count.get 0 t = x.count.get 0 t
      ∧ (tiles.foldl (Core.freeTile mine) x).owner.get 0 t = x.owner.get 0 t := by
  refine foldl_keeps_mem (I := fun y : Core => y.count.get 0 t = x.count.get 0 t ∧ y.owner.get 0 t = x.owner.get 0 t)
    (fun y k hk hy => ?_) ⟨rfl, rfl⟩
  obtain ⟨hc, ho⟩ := freeTile_ne mine y (k := k) (t := t) (fun e => h (e ▸ hk))
  exact ⟨hc.trans hy.1, ho.trans hy.2⟩

theorem foldl_freeTile_self (mine : List Nat) {tiles : List Nat} (hnd : tiles.Nodup) (x : Core) {t : Nat} (ht : t ∈ tiles) :
    (tiles.foldl (Core.freeTile mine) x).count.get 0 t = x.count.get 0 t - 1
      ∧ (tiles.foldl (Core.freeTile mine) x).owner.get 0 t
        = if x.count.get 0 t - 1 = 0 then 0 else x.owner.get 0 t := by
  induction tiles generalizing x with
  | nil => cases ht
  | cons k tiles ih =>
    obtain ⟨hk, hnd⟩ := List.nodup_cons.mp hnd
    rcases List.mem_cons.mp ht with rfl | ht
    · obtain ⟨hc, ho⟩ := foldl_freeTile_ne mine tiles (x.freeTile mine t) hk
      exact ⟨hc.trans (freeTile_self mine x t).1, ho.trans (freeTile_self mine x t).2⟩
    · obtain ⟨hc, ho⟩ := freeTile_ne mine x (k := k) (t := t) (fun e => hk (e ▸ ht))
      obtain ⟨hc', ho'⟩ := ih hnd (x.freeTile mine k) ht
      exact ⟨hc'.trans (by rw [hc]), ho'.trans (by rw [hc, ho])⟩

/-! ### Acceptance and replies (R211, R234) -/

theorem dropFlags_cmds (s : State) (c : Cmd) : (s.dropFlags c).cmds = s.cmds := by
  refine foldl_keeps (I := fun u : State => u.cmds = s.cmds) (fun u x h => ?_) _ rfl
  exact h

/-- The tiles are the command's, and a copy into them has removed the residency entries that meet them. -/
def State.tiled (s : State) (c : Cmd) (tiles : List Nat) : State :=
  match c.body with
  | .copy kind .. =>
    if kind = 0 || kind = 2 || kind = 3 then (s.takeTiles c tiles).dropMet c.core tiles else s.takeTiles c tiles
  | _ => s.takeTiles c tiles

theorem tiled_cmds (s : State) (c : Cmd) (tiles : List Nat) : (s.tiled c tiles).cmds = s.cmds := by
  unfold State.tiled
  split
  · split <;> rfl
  · rfl

theorem seated_cmds {s : State} {id : Nat} {c : Cmd} {tiles : List Nat}
    (h : (s.drainTiles c.core tiles).cmds.get? id = some c) :
    (s.seated id c tiles).cmds.get? id = some { c with accepted := true, tiles := tiles, flags := [] } := by
  unfold State.seated
  rw [dropFlags_cmds]
  dsimp only
  rw [SMap.get?_upd_self]
  have hcmds := tiled_cmds (s.drainTiles c.core tiles) c tiles
  refine (congrArg (fun m => (SMap.get? m id).map _) hcmds).trans ?_
  rw [h]
  rfl

theorem reply_written {s : State} {id : Nat} {c : Cmd} {v : Word} {r : BitVec 8} {w : Warp} {th : Thread}
    (hdst : c.dst = some r) (hflags : c.flags = []) (hw : s.warp? c.warp = some w)
    (hth : w.threads.get? c.thread = some th) : ∃ w', (s.reply id c v).warp? c.warp = some w'
      ∧ w'.threads.get? c.thread = some { th with v := th.v.set 0 r.toNat v }
      ∧ (s.reply id c v).cmds = s.cmds.del id := by
  refine ⟨w.updThread c.thread (fun th => { th with v := th.v.set 0 r.toNat v }), ?_, ?_, ?_⟩
  · unfold State.reply State.dropFlags
    rw [hdst, hflags]
    exact (State.warp?_updWarp ..).trans (congrArg _ hw)
  · exact (SMap.get?_upd_self ..).trans (congrArg _ hth)
  · unfold State.reply
    rw [dropFlags_cmds, hdst]
    rfl

/-! ### Steps (R211, R375) -/

theorem commandAccept_acts (id : Nat) (c : Cmd) : Acts .commandAccept (fun s =>
    s.turn.ix = id ∧ s.cmds.get? id = some c ∧ c.accepted = false ∧ c.done = 0
      ∧ s.ending c.launch = false ∧ s.behind id c = false ∧ s.waitOver id c = true ∧ s.parked.get? c.warp = none)
    (fun s => s.accept id c) :=
  acts_of_event (fun _ => rfl) fun s _ ⟨hix, hget, hacc, hdone, hend, hbehind, hwait, hparked⟩ => by
    simp only [hix, hget, hacc, hdone, hend, hbehind, hwait, State.issuing, hparked, Option.isSome_none, bne_self_eq_false,
      Bool.or_self, Bool.not_true, Bool.false_eq_true, if_false]

/-- A command that is accepted, whose turn it is and whose sources can be read has its work done. -/
theorem commandComplete_acts (id : Nat) (c : Cmd) {ok : State → Prop} {f : State → State}
    (h : ∀ s, ok s → s.work id s.turn.k false c = f s) : Acts .commandComplete (fun s =>
      (s.turn.ix = id ∧ s.turn.flag = false ∧ s.cmds.get? id = some c ∧ c.accepted = true
        ∧ s.ending c.launch = false ∧ s.inLine id c = false ∧ s.lostRead c = none) ∧ ok s) f :=
  acts_of_event (fun _ => rfl) fun s _ ⟨⟨hix, hflag, hget, hacc, hend, hline, hlost⟩, hok⟩ => by
    simp only [hix, hflag, hget, hacc, hend, hline, hlost, Bool.not_true, Bool.or_self, Bool.false_eq_true, if_false]
    exact h s hok

theorem work_copy {s : State} {id n : Nat} {c : Cmd} (h : ∃ k ws sc d a b e, c.body = .copy k ws sc d a b e) :
    s.work id n false c = s.cpAll id c (fun s => s.finishCmd id c) := by
  obtain ⟨k, ws, sc, d, a, b, e, hc⟩ := h
  rw [State.work, State.cpAll, State.cpSome, State.cpSome, hc]
  simp only [Bool.false_eq_true, if_false]

theorem work_sweep {s : State} {id n : Nat} {c : Cmd} (h : ∃ o sat d a b e, c.body = .sweep o sat d a b e) :
    s.work id n false c = (s.vsAll id c).finishCmd id c := by
  obtain ⟨o, sat, d, a, b, e, hc⟩ := h
  rw [State.work, hc]
  rfl

theorem work_matrix {s : State} {id n : Nat} {c : Cmd}
    (h : ∃ k st re ac f a b e g, c.body = .matrix k st re ac f a b e g) :
    s.work id n false c = (s.mxAll id c).finishCmd id c := by
  obtain ⟨k, st, re, ac, f, a, b, e, g, hc⟩ := h
  rw [State.work, hc]
  rfl

/-- Settles O55: an engine takes a command's tiles when none is another's and frees them as their counts fall; the work of
each command is a chain of writes, each at a place of the command's own, so what lies elsewhere stands. -/
theorem commandSteps : Obligations.CommandSteps := by
  unfold Obligations.CommandSteps
  intro id c tiles first last only
  refine ⟨commandAccept_acts id c, commandComplete_acts id c fun _ => work_copy, commandComplete_acts id c fun _ => work_sweep,
    commandComplete_acts id c fun _ => work_matrix, fun s => acceptEngine_foreign, fun s => acceptEngine_of_mayTake,
    fun s => mayTake_iff s c tiles, fun s => seated_cmds, fun s t => takeTiles_owner s c, fun s hnd t ht => ?free,
    fun s r v w th => reply_written, fun s ws a b sh base r n pa qa => ?unit, ?copied, ?row, ?float, ?int, ?zero⟩
  case free =>
    rw [freeTiles_core]
    exact foldl_freeTile_self _ hnd _ ht
  case unit =>
    refine ⟨fun k p hk hp => ?_, ?_, fun hp hcell => ?_, fun p hp hq => ?_, fun sc d f => ?_⟩
    · exact ⟨_, cpUnitRun_in s id c ws a b sh base r n hk hp, engineMove_sp ..⟩
    · exact ⟨_, cpUnitRun_fill .., put_twice s _ _ a⟩
    · exact ⟨_, cpUnitRun_out s id c ws a b sh base r n hp hcell, put_dropLine_mem s c _ pa (State.home_length ..)⟩
    · exact ⟨_, cpUnitRun_ws s id c ws a b sh base r n hp hq, engineMove_ws ..⟩
    · have hword := cpDone_word s id c sc d base f
      rw [wordValue_mod] at hword
      exact hword
  case copied => exact fun s k ws sc d a b sh x hc => cpAll_kept s id hc
  case row =>
    intro s base op sat d a b ctl F G r _
    refine ⟨vsRow_mem_ws.1, vsRow_mem_ws.2, fun x hx => vsRow_kept hx, fun h => ?_, fun e h he hd hab => ?_⟩
    · rw [vsRow_reduction h]
      exact walkPut_value ..
    · rw [vsRow_elementwise h]
      exact vsPuts_value he hd hab
  case float =>
    intro s base size kind acc fmt a0 a1 b0 b1 ch i j hi hj hfit hclass
    rw [mxChunk_float hclass]
    exact ⟨putAcc_value _ hi hj hfit, putAcc_kept (accBytes_length _), putAcc_mem .., putAcc_ws ..⟩
  case int =>
    intro s base size kind acc fmt a0 a1 b0 b1 ch i j hi hj hfit hclass
    rw [mxChunk_int hclass]
    refine ⟨?_, putAcc_kept (accBytes_length _)⟩
    rw [putAcc_value _ hi hj hfit]
    exact toNat_emod_mod _
  case zero => exact fun s st re acc f a0 a1 b0 b1 => mxAll_zero_bytes s id

end Sys2Proof.Machine
end

section
/-! What the factorisations of page 5 rest on: sums of fused multiply-adds, the order of pivots, elements of a matrix that
is written one by one, and folds over indices. Part of O20. -/

namespace Sys2Proof.Machine

/-! ### Folds over indices -/

section
variable {β : Type} {f : β → Nat → β} {I : Nat → β → Prop} {n : Nat} {b : β}

/-- What each index in turn carries on holds when all have been taken. -/
theorem foldl_range_inv (hb : I 0 b) (hstep : ∀ i x, i < n → I i x → I (i + 1) (f x i)) : I n ((List.range n).foldl f b) := by
  induction n with
  | zero => exact hb
  | succ n ih =>
    rw [List.range_succ, List.foldl_concat]
    exact hstep n _ (Nat.lt_succ_self n) (ih fun i x hi => hstep i x (by omega))

/-- The indices below n that are above k. -/
def aboveOf (k n : Nat) : List Nat := (List.range n).filter (k < ·)

theorem foldl_above_inv {k : Nat} (hk : k < n) (hb : I (k + 1) b)
    (hstep : ∀ i x, k < i → i < n → I i x → I (i + 1) (f x i)) : I n ((aboveOf k n).foldl f b) := by
  induction n, hk using Nat.le_induction with
  | base =>
    have hnil : aboveOf k (k + 1) = [] := by
      refine List.filter_eq_nil_iff.mpr fun i hi => ?_
      have := List.mem_range.mp hi
      simp only [decide_eq_true_eq]
      omega
    rw [hnil]
    exact hb
  | succ n hk ih =>
    have hsnoc : aboveOf k (n + 1) = aboveOf k n ++ [n] := by
      rw [aboveOf, List.range_succ, List.filter_append]
      exact congrArg (aboveOf k n ++ ·) (List.filter_cons_of_pos (decide_eq_true hk))
    rw [hsnoc, List.foldl_concat]
    exact hstep n _ hk (Nat.lt_succ_self n) (ih fun i x hki hi => hstep i x hki (by omega))

theorem foldl_reverse_inv (hb : I n b) (hstep : ∀ i x, i < n → I (i + 1) x → I i (f x i)) :
    I 0 ((List.range n).reverse.foldl f b) := by
  induction n generalizing b with
  | zero => exact hb
  | succ n ih =>
    rw [List.range_succ, List.reverse_concat, List.foldl_cons]
    exact ih (hstep n _ (Nat.lt_succ_self n) hb) fun i x hi => hstep i x (by omega)

end

/-! ### Sums and flags -/

/-- x, then fma(a, b, x) for each pair in order. -/
def sumF (F : Fmt) (x : Nat) (xs : List (Nat × Nat)) : Nat := xs.foldl (fun t y => (fFma F .rne y.1 y.2 t).1) x

theorem fmaSum_fst (F : Fmt) (s : Nat × Flags) (xs : List (Nat × Nat)) : (fmaSum F s xs).1 = sumF F s.1 xs := by
  induction xs generalizing s with
  | nil => rfl
  | cons y xs ih => exact ih _

/-- The flags of `f` are raised in `fl`. -/
def Raised (f fl : Flags) : Prop := fl &&& f = f

theorem Raised.or_left {f a : Flags} (h : Raised f a) (b : Flags) : Raised f (a ||| b) := by
  unfold Raised at h ⊢
  refine BitVec.eq_of_getLsbD_eq fun n _ => ?_
  have hn := congrArg (fun x : Flags => x.getLsbD n) h
  simp only [BitVec.getLsbD_and, BitVec.getLsbD_or] at hn ⊢
  revert hn
  cases a.getLsbD n <;> cases b.getLsbD n <;> cases f.getLsbD n <;> simp

theorem raised_or_self (f a : Flags) : Raised f (a ||| f) := by
  unfold Raised
  refine BitVec.eq_of_getLsbD_eq fun n _ => ?_
  simp only [BitVec.getLsbD_and, BitVec.getLsbD_or]
  cases a.getLsbD n <;> cases f.getLsbD n <;> rfl

/-! ### Elements of a matrix -/

theorem Mat.put_length (m : Mat) (i j x : Nat) : (m.put i j x).length = m.length := List.length_set

theorem getD_set (l : List Nat) (k j x : Nat) (hk : k < l.length) :
    (l.set k x).getD j 0 = if j = k then x else l.getD j 0 := by
  rw [List.getD_eq_getElem?_getD, List.getD_eq_getElem?_getD, List.getElem?_set]
  by_cases h : k = j
  · subst h
    rw [if_pos rfl, if_pos rfl, if_pos hk, Option.getD_some]
  · rw [if_neg h, if_neg fun e => h e.symm]

theorem Mat.at_put {m : Mat} (hm : m.length = 36) {i j c d : Nat} (x : Nat) (hi : i < 6) (hj : j < 6) (hd : d < 6) :
    (m.put i j x).at c d = if c = i ∧ d = j then x else m.at c d := by
  unfold Mat.put Mat.at
  rw [getD_set _ _ _ _ (by omega)]
  refine if_congr ⟨fun h => ?_, fun ⟨hc, hd⟩ => by rw [hc, hd]⟩ rfl rfl
  omega

/-! ### The order of pivots (R172) -/

/-- A value without its sign. -/
def FVal.magnitude : FVal → FVal
  | .nan _ f => .nan false f
  | .inf _ => .inf false
  | .fin _ m e => .fin false m e

theorem dec_size (F : Fmt) (c : Nat) : dec F (c % 2 ^ (F.width - 1)) = (dec F c).magnitude := by
  have hw : F.width - 1 = F.fb + F.eb := by
    rw [Fmt.width]
    omega
  have hneg : c % 2 ^ (F.width - 1) / 2 ^ (F.width - 1) % 2 = 0 := by
    rw [Nat.div_eq_of_lt (Nat.mod_lt _ (Nat.two_pow_pos _))]
  have hex : c % 2 ^ (F.width - 1) / 2 ^ F.fb % 2 ^ F.eb = c / 2 ^ F.fb % 2 ^ F.eb := by
    rw [hw, Nat.pow_add, Nat.mod_mul_right_div_self, Nat.mod_mod]
  have hfr : c % 2 ^ (F.width - 1) % 2 ^ F.fb = c % 2 ^ F.fb := by
    rw [hw, Nat.pow_add, Nat.mod_mul_right_mod]
  unfold dec
  simp only [hneg, hex, hfr]
  split
  · split <;> rfl
  · split
    · rfl
    · split <;> rfl

theorem magLt_iff (m : Nat) (e : Int) (n : Nat) (f : Int) :
    magLt m e n f = true ↔ (m : ℚ) * 2 ^ e < n * 2 ^ f := by
  have hscale (k : Nat) (g b : Int) (h : b ≤ g) : (k : ℚ) * 2 ^ g = ((k * 2 ^ (g - b).toNat : Nat) : ℚ) * 2 ^ b := by
    push_cast
    rw [mul_assoc, ← zpow_natCast, ← zpow_add₀ two_ne_zero]
    congr 2
    omega
  rw [hscale m e (min e f) (min_le_left e f), hscale n f (min e f) (min_le_right e f),
    mul_lt_mul_iff_left₀ (zpow_pos two_pos _), Nat.cast_lt]
  exact decide_eq_true_iff

/-- Where a value stands among pivots: by its magnitude, infinity above every finite one and a NaN above all. -/
def FVal.rank : FVal → WithTop (WithTop ℚ)
  | .nan .. => ⊤
  | .inf _ => ((⊤ : WithTop ℚ) : WithTop (WithTop ℚ))
  | .fin _ m e => (((m : ℚ) * 2 ^ e : ℚ) : WithTop ℚ)

theorem rank_fin_lt_fin (a b : Bool) (m n : Nat) (e f : Int) :
    (FVal.fin a m e).rank < (FVal.fin b n f).rank ↔ magLt m e n f = true := by
  rw [magLt_iff, FVal.rank, FVal.rank, WithTop.coe_lt_coe, WithTop.coe_lt_coe]

theorem rank_fin_lt_inf (a b : Bool) (m : Nat) (e : Int) : (FVal.fin a m e).rank < (FVal.inf b).rank :=
  WithTop.coe_lt_coe.mpr (WithTop.coe_lt_top _)

theorem magLt_zero_right (m : Nat) (e f : Int) : magLt m e 0 f = false := by
  simp [magLt]

theorem magLt_zero_left {m : Nat} (h : m ≠ 0) (e f : Int) : magLt 0 f m e = true := by
  simp [magLt, Nat.pos_of_ne_zero h]

theorem magLt_asymm {m n : Nat} {e f : Int} (h : magLt m e n f = true) : magLt n f m e = false := by
  rw [Bool.eq_false_iff, Ne, magLt_iff]
  exact ((magLt_iff ..).mp h).not_gt

/-- Magnitudes in the order of a comparison: one is greater where its rank is. -/
theorem fCmp_magnitude_gt {F : Fmt} {x y : Nat} (hx : F.isNaN x = false) (hy : F.isNaN y = false) :
    fCmp F (x % 2 ^ (F.width - 1)) (y % 2 ^ (F.width - 1)) = some .gt ↔ (dec F y).rank < (dec F x).rank := by
  unfold Fmt.isNaN at hx hy
  unfold fCmp
  simp only [dec_size]
  cases hdx : dec F x with
  | nan => simp [hdx] at hx
  | inf b =>
    cases hdy : dec F y with
    | nan => simp [hdy] at hy
    | inf a => exact iff_of_false (by simp [FVal.magnitude]) (lt_irrefl _)
    | fin a n f =>
      refine iff_of_true ?_ (rank_fin_lt_inf ..)
      by_cases hn : n = 0 <;> simp [FVal.magnitude, hn]
  | fin b m e =>
    cases hdy : dec F y with
    | nan => simp [hdy] at hy
    | inf a =>
      refine iff_of_false ?_ (rank_fin_lt_inf ..).not_gt
      by_cases hm : m = 0 <;> simp [FVal.magnitude, hm]
    | fin a n f =>
      rw [rank_fin_lt_fin]
      by_cases hm : m = 0
      · by_cases hn : n = 0 <;> simp [FVal.magnitude, hm, hn, magLt_zero_right]
      · by_cases hn : n = 0
        · simp [FVal.magnitude, hm, hn, magLt_zero_left]
        · cases hlt : magLt m e n f with
          | true => simp [FVal.magnitude, hm, hn, hlt, magLt_asymm hlt]
          | false => simp [FVal.magnitude, hm, hn, hlt]

theorem isNaN_iff_rank (F : Fmt) (x : Nat) : F.isNaN x = true ↔ (dec F x).rank = ⊤ := by
  unfold Fmt.isNaN
  cases dec F x with
  | nan => exact iff_of_true rfl rfl
  | inf | fin => exact iff_of_false Bool.false_ne_true (WithTop.coe_ne_top)

theorem pivotGt_iff (F : Fmt) (x y : Nat) : pivotGt F x y = true ↔ (dec F y).rank < (dec F x).rank := by
  unfold pivotGt
  dsimp only
  split
  next hy =>
    rw [isNaN_iff_rank] at hy
    rw [hy]
    exact iff_of_false Bool.false_ne_true not_top_lt
  next hy =>
    split
    next hx =>
      rw [isNaN_iff_rank] at hx hy
      rw [hx]
      exact iff_of_true rfl (lt_top_iff_ne_top.mpr hy)
    next hx =>
      rw [beq_iff_eq]
      exact fCmp_magnitude_gt (Bool.eq_false_iff.mpr hx) (Bool.eq_false_iff.mpr hy)

/-- The pivot of a column among the rows from k on: none of them is greater, and those before it are less. -/
theorem pivot_spec (F : Fmt) (g : Nat → Nat) {k n : Nat} (hk : k < n) :
    let p := (aboveOf k n).foldl (fun p i => if pivotGt F (g i) (g p) then i else p) k
    (k ≤ p ∧ p < n) ∧ (∀ i, k ≤ i → i < n → ¬pivotGt F (g i) (g p) = true)
      ∧ ∀ i, k ≤ i → i < p → pivotGt F (g p) (g i) = true := by
  refine foldl_above_inv (I := fun m p => (k ≤ p ∧ p < m) ∧ (∀ i, k ≤ i → i < m → ¬pivotGt F (g i) (g p) = true)
    ∧ ∀ i, k ≤ i → i < p → pivotGt F (g p) (g i) = true) hk ?_ fun m p hkm _ ⟨⟨hkp, hpm⟩, hmax, hless⟩ => ?_
  · refine ⟨⟨le_refl k, Nat.lt_succ_self k⟩, fun i hlo hhi => ?_, fun i hlo hhi => absurd hhi (by omega)⟩
    obtain rfl : i = k := by omega
    rw [pivotGt_iff]
    exact lt_irrefl _
  · split
    next hgt =>
      rw [pivotGt_iff] at hgt
      have hle : ∀ i, k ≤ i → i < m → (dec F (g i)).rank < (dec F (g m)).rank := fun i hlo hhi =>
        (not_lt.mp (mt (pivotGt_iff F _ _).mpr (hmax i hlo hhi))).trans_lt hgt
      refine ⟨⟨hkm.le, Nat.lt_succ_self m⟩, fun i hlo hhi => ?_, fun i hlo hhi => (pivotGt_iff ..).mpr (hle i hlo hhi)⟩
      rw [pivotGt_iff]
      rcases Nat.lt_succ_iff_lt_or_eq.mp hhi with h | rfl
      · exact (hle i hlo h).not_gt
      · exact lt_irrefl _
    next hgt =>
      refine ⟨⟨hkp, by omega⟩, fun i hlo hhi => ?_, hless⟩
      rcases Nat.lt_succ_iff_lt_or_eq.mp hhi with h | rfl
      · exact hmax i hlo h
      · exact hgt

/-- A pivot of MCHOL that is not refused is greater than zero (R171). -/
theorem notPositive_eq_false_iff {F : Fmt} (hF : F ∈ [fp32, fp64]) (x : Nat) :
    notPositive F x = false ↔ fCmp F x 0 = some .gt := by
  have hzero : ∃ e, dec F 0 = .fin false 0 e := by
    rcases List.mem_pair.mp hF with rfl | rfl <;> exact ⟨_, rfl⟩
  obtain ⟨e, hzero⟩ := hzero
  unfold notPositive fCmp
  rw [hzero]
  cases dec F x with
  | nan => simp
  | inf n => cases n <;> simp
  | fin n m g => by_cases hm : m = 0 <;> cases n <;> simp [hm]

end Sys2Proof.Machine
end

section
/-! MCHOL: what its steps make of the factor (R171). Part of O20. -/

namespace Sys2Proof.Machine

section
variable (F : Fmt) (n : Nat) (a : Mat)

/-- The pairs of R171's sum for row i and column c of a factor. -/
def cholPairs (m : Mat) (i c : Nat) : List (Nat × Nat) := (List.range c).map (fun k => (negF F (m.at i k), m.at c k))

/-- The value whose root is the factor's element (c, c). -/
def cholPivot (m : Mat) (c : Nat) : Nat := sumF F (a.at c c) (cholPairs F m c c)

/-- Column c of a factor keeps R171's recurrence. -/
structure CholColumn (m : Mat) (c : Nat) : Prop where
  positive : fCmp F (cholPivot F a m c) 0 = some .gt
  root : m.at c c = (fnElem F .sqrt false .rne (cholPivot F a m c) (cholPivot F a m c)).1
  below : ∀ i, c < i → i < n → m.at i c = (mDiv F (sumF F (a.at i c) (cholPairs F m i c)) (m.at c c)).1

/-- MCHOL has stopped at column f. -/
structure CholStopped (x : Fact) (f : Nat) : Prop where
  refused : fCmp F (cholPivot F a x.m f) 0 ≠ some .gt
  flag : Raised flNP x.fl
  filled : ∀ i c, f ≤ c → c ≤ i → i < n → x.m.at i c = F.canonNaN

/-- MCHOL before column j: columns below f stand, and where it has not stopped f is j. -/
structure CholAt (j : Nat) (x : Fact) : Prop where
  size : x.m.length = 36
  zeros : ∀ i c, i < 6 → c < 6 → (i < c ∨ n ≤ i) → x.m.at i c = 0
  columns : ∃ f, f ≤ j ∧ (∀ c, c < f → CholColumn F n a x.m c) ∧ (x.stop = false → f = j)
    ∧ (x.stop = true → f < j ∧ CholStopped F n a x f)

end

section
variable {F : Fmt} {n : Nat} {a : Mat} {m m' : Mat} {i c : Nat}

theorem cholPairs_congr (hi : i < 6) (hc : c < 6) (h : ∀ r k, r < 6 → k < c → m'.at r k = m.at r k) :
    cholPairs F m' i c = cholPairs F m i c := by
  refine List.map_congr_left fun k hk => ?_
  rw [h i k hi (List.mem_range.mp hk), h c k hc (List.mem_range.mp hk)]

theorem cholPivot_congr (hc : c < 6) (h : ∀ r k, r < 6 → k < c → m'.at r k = m.at r k) :
    cholPivot F a m' c = cholPivot F a m c := by
  rw [cholPivot, cholPivot, cholPairs_congr hc hc h]

/-- A column keeps the recurrence whatever stands in the columns after it. -/
theorem CholColumn.congr (hn : n ≤ 6) (hc : c < n) (h : ∀ r k, r < 6 → k ≤ c → m'.at r k = m.at r k)
    (hm : CholColumn F n a m c) : CholColumn F n a m' c := by
  have hlt : ∀ r k, r < 6 → k < c → m'.at r k = m.at r k := fun r k hr hk => h r k hr hk.le
  have hpivot : cholPivot F a m' c = cholPivot F a m c := cholPivot_congr (by omega) hlt
  obtain ⟨hpos, hroot, hbelow⟩ := hm
  refine ⟨hpivot ▸ hpos, ?_, fun i hci hi => ?_⟩
  · rw [hpivot, h c c (by omega) le_rfl, hroot]
  · rw [h i c (by omega) le_rfl, h c c (by omega) le_rfl, cholPairs_congr (by omega) (by omega) hlt, hbelow i hci hi]

/-- The factor with NaNs from column j on (R171). -/
def cholFilled (F : Fmt) (n j : Nat) (m : Mat) : Mat := (List.range 36).map (fun e =>
  if e / 6 < n && e % 6 < n && j ≤ e % 6 && e % 6 ≤ e / 6 then F.canonNaN else m.getD e 0)

theorem cholFilled_length (F : Fmt) (n j : Nat) (m : Mat) : (cholFilled F n j m).length = 36 := by
  rw [cholFilled, List.length_map, List.length_range]

theorem cholFilled_at (F : Fmt) (n j : Nat) (m : Mat) (hi : i < 6) (hc : c < 6) :
    (cholFilled F n j m).at i c = if i < n ∧ c < n ∧ j ≤ c ∧ c ≤ i then F.canonNaN else m.at i c := by
  have he : 6 * i + c < 36 := by omega
  have hrow : (6 * i + c) / 6 = i := by omega
  have hcol : (6 * i + c) % 6 = c := by omega
  simp [Mat.at, cholFilled, List.getD_eq_getElem?_getD, he, hrow, hcol, and_assoc]

/-- The rows below j of column j. -/
def cholRows (F : Fmt) (a m : Mat) (j d : Nat) (y : Fact) (i : Nat) : Fact :=
  { y with
    m := y.m.put i j (mDiv F (fmaSum F (a.at i j, 0) (cholPairs F m i j)).1 d).1
    fl := y.fl ||| (fmaSum F (a.at i j, 0) (cholPairs F m i j)).2
      ||| (mDiv F (fmaSum F (a.at i j, 0) (cholPairs F m i j)).1 d).2 }

theorem cholStep_stopped {x : Fact} (h : x.stop = true) (j : Nat) : cholStep F n a x j = x := by
  rw [cholStep, if_pos h]

theorem cholStep_refused {x : Fact} (h : x.stop = false) {j : Nat} (hp : notPositive F (cholPivot F a x.m j) = true) :
    cholStep F n a x j
      = ⟨cholFilled F n j x.m, x.fl ||| (fmaSum F (a.at j j, 0) (cholPairs F x.m j j)).2 ||| flNP, true⟩ := by
  have hs : (fmaSum F (a.at j j, 0) (cholPairs F x.m j j)).1 = cholPivot F a x.m j := fmaSum_fst ..
  rw [← hs] at hp
  exact (if_neg (ne_true_of_eq_false h)).trans (if_pos hp)

theorem cholStep_taken {x : Fact} (h : x.stop = false) {j : Nat} (hp : notPositive F (cholPivot F a x.m j) = false) :
    ∃ fl, cholStep F n a x j = (aboveOf j n).foldl (cholRows F a x.m j
        (fnElem F .sqrt false .rne (cholPivot F a x.m j) (cholPivot F a x.m j)).1)
      ⟨x.m.put j j (fnElem F .sqrt false .rne (cholPivot F a x.m j) (cholPivot F a x.m j)).1, fl, false⟩ := by
  have hs : (fmaSum F (a.at j j, 0) (cholPairs F x.m j j)).1 = cholPivot F a x.m j := fmaSum_fst ..
  rw [← hs] at hp ⊢
  exact ⟨_, (if_neg (ne_true_of_eq_false h)).trans (if_neg (ne_true_of_eq_false hp))⟩

/-- What the rows below j write in column j. -/
theorem foldl_cholRows (hn : n ≤ 6) {j d : Nat} (hj : j < n) {y : Fact} (hy : y.m.length = 36) (hgo : y.stop = false) :
    let z := (aboveOf j n).foldl (cholRows F a m j d) y
    z.m.length = 36 ∧ z.stop = false ∧ ∀ i c, i < 6 → c < 6 → z.m.at i c
      = if c = j ∧ j < i ∧ i < n then (mDiv F (sumF F (a.at i j) (cholPairs F m i j)) d).1 else y.m.at i c := by
  refine foldl_above_inv (I := fun k (z : Fact) => z.m.length = 36 ∧ z.stop = false ∧ ∀ i c, i < 6 → c < 6 → z.m.at i c
      = if c = j ∧ j < i ∧ i < k then (mDiv F (sumF F (a.at i j) (cholPairs F m i j)) d).1 else y.m.at i c)
    hj ⟨hy, hgo, fun i c hi hc => ?_⟩ fun k z hjk hk ⟨hlen, hstop, hat⟩ => ⟨?_, hstop, fun i c hi hc => ?_⟩
  · rw [if_neg (by omega)]
  · rw [cholRows, Mat.put_length, hlen]
  · rw [cholRows, Mat.at_put hlen _ (by omega) (by omega) hc, fmaSum_fst, hat i c hi hc]
    by_cases hik : i = k
    · subst hik
      by_cases hcj : c = j
      · rw [if_pos ⟨rfl, hcj⟩, if_pos ⟨hcj, hjk, Nat.lt_succ_self i⟩]
      · rw [if_neg fun e => hcj e.2, if_neg fun e => hcj e.1, if_neg fun e => hcj e.1]
    · rw [if_neg fun e => hik e.1]
      refine if_congr ?_ rfl rfl
      omega

/-- A step whose pivot is refused: NaNs from its column on. -/
theorem CholAt.refused (hF : F ∈ [fp32, fp64]) (hn : n ≤ 6) {j : Nat} (hj : j < n) {x : Fact} (h : CholAt F n a j x)
    (hstop : x.stop = false) (hp : notPositive F (cholPivot F a x.m j) = true) :
    CholAt F n a (j + 1) (cholStep F n a x j) := by
  obtain ⟨-, hzeros, f, -, hcols, hgo, -⟩ := h
  obtain rfl := hgo hstop
  have hpivot : fCmp F (cholPivot F a x.m f) 0 ≠ some .gt := by
    rw [Ne, ← notPositive_eq_false_iff hF, hp]
    exact Bool.true_eq_false.mp
  have hleft : ∀ r k, r < 6 → k < f → (cholFilled F n f x.m).at r k = x.m.at r k := fun r k hr hk => by
    rw [cholFilled_at _ _ _ _ hr (by omega), if_neg (by omega)]
  rw [cholStep_refused hstop hp]
  refine ⟨cholFilled_length .., fun i c hi hc hic => ?_, f, Nat.le_succ f, fun c hc => ?_, nofun, fun _ =>
    ⟨Nat.lt_succ_self f, ?_, raised_or_self _ _, fun i c hfc hci hi => ?_⟩⟩
  · rw [cholFilled_at _ _ _ _ hi hc, if_neg (by omega), hzeros i c hi hc hic]
  · exact (hcols c hc).congr hn (by omega) fun r k hr hk => hleft r k hr (by omega)
  · rw [cholPivot_congr (by omega) hleft]
    exact hpivot
  · rw [cholFilled_at _ _ _ _ (by omega) (by omega), if_pos (by omega)]

/-- The root that a step takes. -/
def cholRoot (F : Fmt) (a m : Mat) (j : Nat) : Nat := (fnElem F .sqrt false .rne (cholPivot F a m j) (cholPivot F a m j)).1

/-- The elements after a step whose pivot is taken. -/
theorem cholStep_at (hn : n ≤ 6) {j : Nat} (hj : j < n) {x : Fact} (hsize : x.m.length = 36) (hstop : x.stop = false)
    (hp : notPositive F (cholPivot F a x.m j) = false) :
    (cholStep F n a x j).m.length = 36 ∧ (cholStep F n a x j).stop = false ∧ ∀ i c, i < 6 → c < 6 →
      (cholStep F n a x j).m.at i c = if c = j ∧ j < i ∧ i < n then
          (mDiv F (sumF F (a.at i j) (cholPairs F x.m i j)) (cholRoot F a x.m j)).1
        else if i = j ∧ c = j then cholRoot F a x.m j else x.m.at i c := by
  obtain ⟨fl, hstep⟩ := cholStep_taken (n := n) hstop hp
  obtain ⟨hlen, hgo, hat⟩ := foldl_cholRows (F := F) (a := a) (m := x.m) (d := cholRoot F a x.m j)
    (y := ⟨x.m.put j j (cholRoot F a x.m j), fl, false⟩) hn hj ((Mat.put_length ..).trans hsize) rfl
  change cholStep F n a x j = (aboveOf j n).foldl (cholRows F a x.m j (cholRoot F a x.m j))
    ⟨x.m.put j j (cholRoot F a x.m j), fl, false⟩ at hstep
  rw [hstep]
  refine ⟨hlen, hgo, fun i c hi hc => ?_⟩
  rw [hat i c hi hc, Mat.at_put hsize _ (by omega) (by omega) hc]

/-- A step whose pivot is taken: its column keeps the recurrence too. -/
theorem CholAt.taken (hF : F ∈ [fp32, fp64]) (hn : n ≤ 6) {j : Nat} (hj : j < n) {x : Fact} (h : CholAt F n a j x)
    (hstop : x.stop = false) (hp : notPositive F (cholPivot F a x.m j) = false) :
    CholAt F n a (j + 1) (cholStep F n a x j) := by
  obtain ⟨hsize, hzeros, f, -, hcols, hgo, -⟩ := h
  obtain rfl := hgo hstop
  obtain ⟨hlen, hstop', hval⟩ := cholStep_at hn hj hsize hstop hp
  have hleft : ∀ r k, r < 6 → k < f → (cholStep F n a x f).m.at r k = x.m.at r k := fun r k hr hk => by
    rw [hval r k hr (by omega), if_neg (by omega), if_neg (by omega)]
  have hroot : (cholStep F n a x f).m.at f f = cholRoot F a x.m f := by
    rw [hval f f (by omega) (by omega), if_neg (by omega), if_pos ⟨rfl, rfl⟩]
  have hpivot : cholPivot F a (cholStep F n a x f).m f = cholPivot F a x.m f := cholPivot_congr (by omega) hleft
  refine ⟨hlen, fun i c hi hc hic => ?_, f + 1, le_rfl, fun c hc => ?_, fun _ => rfl, fun e => ?_⟩
  · rw [hval i c hi hc, if_neg (by omega), if_neg (by omega), hzeros i c hi hc hic]
  · rcases Nat.lt_succ_iff_lt_or_eq.mp hc with hlt | rfl
    · exact (hcols c hlt).congr hn (by omega) fun r k hr hk => hleft r k hr (by omega)
    · refine ⟨?_, ?_, fun i hci hi => ?_⟩
      · rw [hpivot]
        exact (notPositive_eq_false_iff hF _).mp hp
      · rw [hroot, hpivot]
        rfl
      · rw [hroot, cholPairs_congr (by omega) (by omega) hleft, hval i c (by omega) (by omega), if_pos ⟨rfl, hci, hi⟩]
  · rw [hstop'] at e
    cases e

/-- A step of MCHOL. -/
theorem CholAt.step (hF : F ∈ [fp32, fp64]) (hn : n ≤ 6) {j : Nat} (hj : j < n) {x : Fact} (h : CholAt F n a j x) :
    CholAt F n a (j + 1) (cholStep F n a x j) := by
  cases hstop : x.stop with
  | true =>
    obtain ⟨hsize, hzeros, f, hfj, hcols, -, hstopped⟩ := h
    obtain ⟨hlt, hat⟩ := hstopped hstop
    rw [cholStep_stopped hstop]
    exact ⟨hsize, hzeros, f, by omega, hcols, fun e => (by rw [hstop] at e; cases e), fun _ => ⟨by omega, hat⟩⟩
  | false =>
    cases hp : notPositive F (cholPivot F a x.m j) with
    | true => exact h.refused hF hn hj hstop hp
    | false => exact h.taken hF hn hj hstop hp

theorem cholM_at (hF : F ∈ [fp32, fp64]) (hn : n ≤ 6) :
    CholAt F n a n ((List.range n).foldl (cholStep F n a) ⟨List.replicate 36 0, 0, false⟩) := by
  refine foldl_range_inv (I := CholAt F n a) ⟨rfl, fun i c hi hc _ => ?_, 0, le_rfl, fun c hc => absurd hc (by omega),
    fun _ => rfl, nofun⟩ fun j x hj h => h.step hF hn hj
  rw [Mat.at, List.getD_eq_getElem?_getD, List.getElem?_replicate]
  split <;> rfl

end

end Sys2Proof.Machine
end

section
/-! MLUP and MDET: pivots, swaps and elimination, step by step (R172, R175). Part of O20. -/

namespace Sys2Proof.Machine

/-! ### Swaps -/

/-- Which index stands at i once p and k have been swapped. -/
def swapIndex (p k i : Nat) : Nat := if i = k then p else if i = p then k else i

theorem swapIndex_same (k i : Nat) : swapIndex k k i = i := by
  unfold swapIndex
  split
  · omega
  · rfl

theorem swapIndex_lt {p k i m : Nat} (hp : p < m) (hk : k < m) (hi : i < m) : swapIndex p k i < m := by
  unfold swapIndex
  split
  · exact hp
  · split
    · exact hk
    · exact hi

theorem swapAt_length (l : List Nat) (i j : Nat) : (swapAt l i j).length = l.length := by
  rw [swapAt, List.length_set, List.length_set]

theorem swapAt_getD {l : List Nat} {p k : Nat} (hp : p < l.length) (hk : k < l.length) (i : Nat) :
    (swapAt l p k).getD i 0 = l.getD (swapIndex p k i) 0 := by
  rw [swapAt, getD_set _ _ _ _ (by rw [List.length_set]; exact hk), getD_set _ _ _ _ hp, swapIndex]
  split
  · rfl
  · split <;> rfl

theorem swapRows_spec {m : Mat} (hm : m.length = 36) {p k : Nat} (hp : p < 6) (hk : k < 6) :
    (swapRows m p k).length = 36
      ∧ ∀ i c, i < 6 → c < 6 → (swapRows m p k).at i c = m.at (swapIndex p k i) c := by
  have h := foldl_range_inv (n := 6) (f := fun (x : Mat) c => swapAt x (6 * p + c) (6 * k + c)) (b := m)
    (I := fun d (x : Mat) => x.length = 36 ∧ ∀ i c, i < 6 → c < 6 →
      x.at i c = if c < d then m.at (swapIndex p k i) c else m.at i c)
    ⟨hm, fun i c _ _ => (if_neg (Nat.not_lt_zero c)).symm⟩ fun d x hd ⟨hlen, hat⟩ => ⟨?_, fun i c hi hc => ?_⟩
  · exact ⟨h.1, fun i c hi hc => (h.2 i c hi hc).trans (if_pos hc)⟩
  · rw [swapAt_length, hlen]
  · have hswap : swapIndex (6 * p + d) (6 * k + d) (6 * i + c) = if c = d then 6 * swapIndex p k i + c else 6 * i + c := by
      unfold swapIndex
      split_ifs <;> omega
    rw [Mat.at, swapAt_getD (by omega) (by omega), hswap]
    by_cases hcd : c = d
    · rw [if_pos hcd, if_pos (by omega)]
      exact (hat _ c (swapIndex_lt hp hk hi) hc).trans (if_neg (by omega))
    · rw [if_neg hcd]
      exact (hat i c hi hc).trans (if_congr (by omega) rfl rfl)

/-! ### A step -/

/-- The row that becomes row k (R172). -/
def luPivot (F : Fmt) (n k : Nat) (w : Mat) : Nat :=
  (aboveOf k n).foldl (fun p i => if pivotGt F (w.at i k) (w.at p k) then i else p) k

/-- Rows p and k are swapped. -/
def Lu.swap (x : Lu) (p k : Nat) : Lu :=
  if p = k then x else { x with w := swapRows x.w p k, perm := swapAt x.perm p k, swaps := x.swaps + 1 }

/-- Column k from row k on is zero, with SG. -/
def Lu.clear (n k : Nat) (x : Lu) : Lu :=
  { x with w := (aboveOf k n).foldl (fun w i => w.put i k 0) (x.w.put k k 0), fl := x.fl ||| flSG }

theorem luStep_eq (F : Fmt) (n : Nat) (x : Lu) (k : Nat) : luStep F n x k
    = if isZero F ((x.swap (luPivot F n k x.w) k).w.at k k) then (x.swap (luPivot F n k x.w) k).clear n k
      else (aboveOf k n).foldl (luRow F n k) (x.swap (luPivot F n k x.w) k) := rfl

/-- The matrix has its 36 elements and the permutation its 6. -/
def Lu.Sized (x : Lu) : Prop := x.w.length = 36 ∧ x.perm.length = 6

theorem Lu.swap_spec {x : Lu} (hx : x.Sized) {p k : Nat} (hp : p < 6) (hk : k < 6) :
    (x.swap p k).Sized ∧ (x.swap p k).fl = x.fl ∧ (x.swap p k).swaps = x.swaps + (if p = k then 0 else 1)
      ∧ (∀ i, i < 6 → (x.swap p k).perm.getD i 0 = x.perm.getD (swapIndex p k i) 0)
      ∧ ∀ i c, i < 6 → c < 6 → (x.swap p k).w.at i c = x.w.at (swapIndex p k i) c := by
  obtain ⟨hw, hperm⟩ := hx
  unfold Lu.swap
  split
  next h =>
    subst h
    exact ⟨⟨hw, hperm⟩, rfl, rfl, fun i _ => by rw [swapIndex_same], fun i c _ _ => by rw [swapIndex_same]⟩
  next =>
    obtain ⟨hlen, hat⟩ := swapRows_spec hw hp hk
    exact ⟨⟨hlen, (swapAt_length ..).trans hperm⟩, rfl, rfl, fun i _ => swapAt_getD (hperm ▸ hp) (hperm ▸ hk) i, hat⟩

theorem Lu.clear_spec {n k : Nat} (hn : n ≤ 6) (hk : k < n) {x : Lu} (hx : x.w.length = 36) :
    (x.clear n k).w.length = 36 ∧ ∀ i c, i < 6 → c < 6 →
      (x.clear n k).w.at i c = if c = k ∧ k ≤ i ∧ i < n then 0 else x.w.at i c := by
  refine foldl_above_inv (I := fun m (w : Mat) => w.length = 36 ∧ ∀ i c, i < 6 → c < 6 →
    w.at i c = if c = k ∧ k ≤ i ∧ i < m then 0 else x.w.at i c) hk
    ⟨(Mat.put_length ..).trans hx, fun i c hi hc => ?_⟩ fun m w _ hm ⟨hlen, hat⟩ =>
    ⟨(Mat.put_length ..).trans hlen, fun i c hi hc => ?_⟩
  · rw [Mat.at_put hx _ (by omega) (by omega) hc]
    exact if_congr (by omega) rfl rfl
  · rw [Mat.at_put hlen _ (by omega) (by omega) hc, hat i c hi hc]
    by_cases hic : i = m ∧ c = k
    · rw [if_pos hic, if_pos (by omega)]
    · rw [if_neg hic]
      exact if_congr (by omega) rfl rfl

/-- Elimination changes neither the permutation nor the swaps, and drops no flag. -/
structure Lu.Eliminates (x y : Lu) : Prop where
  perm : y.perm = x.perm
  swaps : y.swaps = x.swaps
  flags : ∀ f, Raised f x.fl → Raised f y.fl

theorem Lu.Eliminates.refl (x : Lu) : x.Eliminates x := ⟨rfl, rfl, fun _ h => h⟩

theorem Lu.Eliminates.trans {x y z : Lu} (h : x.Eliminates y) (h' : y.Eliminates z) : x.Eliminates z :=
  ⟨h'.perm.trans h.perm, h'.swaps.trans h.swaps, fun f hf => h'.flags f (h.flags f hf)⟩

theorem Lu.put_eliminates (x : Lu) (w : Mat) (f : Flags) : x.Eliminates { x with w := w, fl := x.fl ||| f } :=
  ⟨rfl, rfl, fun _ h => h.or_left _⟩

/-- The element that elimination of column k leaves at row i, column c > k. -/
def luElem (F : Fmt) (w : Mat) (k i c : Nat) : Nat :=
  (fFma F .rne (negF F (mDiv F (w.at i k) (w.at k k)).1) (w.at k c) (w.at i c)).1

theorem luRow_spec (F : Fmt) {n k i : Nat} (hn : n ≤ 6) (hki : k < i) (hi : i < n) {x : Lu} (hx : x.w.length = 36) :
    x.Eliminates (luRow F n k x i) ∧ (luRow F n k x i).w.length = 36 ∧ ∀ r c, r < 6 → c < 6 →
      (luRow F n k x i).w.at r c = if r = i ∧ c = k then (mDiv F (x.w.at i k) (x.w.at k k)).1
        else if r = i ∧ k < c ∧ c < n then luElem F x.w k i c else x.w.at r c := by
  refine foldl_above_inv (I := fun m (y : Lu) => x.Eliminates y ∧ y.w.length = 36 ∧ ∀ r c, r < 6 → c < 6 →
      y.w.at r c = if r = i ∧ c = k then (mDiv F (x.w.at i k) (x.w.at k k)).1
        else if r = i ∧ k < c ∧ c < m then luElem F x.w k i c else x.w.at r c) (by omega)
    ⟨x.put_eliminates _ _, (Mat.put_length ..).trans hx, fun r c hr hc => ?_⟩ fun m y hkm hm ⟨helim, hlen, hat⟩ =>
    ⟨helim.trans (y.put_eliminates _ _), (Mat.put_length ..).trans hlen, fun r c hr hc => ?_⟩
  · rw [Mat.at_put hx _ (by omega) (by omega) hc]
    refine if_congr Iff.rfl rfl ?_
    rw [if_neg (by omega)]
  · have hrow : y.w.at k m = x.w.at k m := by
      rw [hat k m (by omega) (by omega), if_neg (by omega), if_neg (by omega)]
    have hold : y.w.at i m = x.w.at i m := by
      rw [hat i m (by omega) (by omega), if_neg (by omega), if_neg (by omega)]
    have hput := Mat.at_put hlen (i := i) (j := m) (c := r) (d := c)
      (fFma F .rne (negF F (mDiv F (x.w.at i k) (x.w.at k k)).1) (y.w.at k m) (y.w.at i m)).1
      (by omega) (by omega) hc
    refine hput.trans ?_
    rw [hrow, hold, hat r c hr hc]
    by_cases hrc : r = i ∧ c = m
    · obtain ⟨rfl, rfl⟩ := hrc
      rw [if_pos ⟨rfl, rfl⟩, if_neg (by omega), if_pos (by omega)]
      rfl
    · rw [if_neg hrc]
      refine if_congr Iff.rfl rfl (if_congr ?_ rfl rfl)
      omega

theorem luRows_spec (F : Fmt) {n k : Nat} (hn : n ≤ 6) (hk : k < n) {x : Lu} (hx : x.w.length = 36) :
    let y := (aboveOf k n).foldl (luRow F n k) x
    x.Eliminates y ∧ y.w.length = 36 ∧ ∀ i c, i < 6 → c < 6 →
      y.w.at i c = if k < i ∧ i < n ∧ c = k then (mDiv F (x.w.at i k) (x.w.at k k)).1
        else if k < i ∧ i < n ∧ k < c ∧ c < n then luElem F x.w k i c else x.w.at i c := by
  refine foldl_above_inv (I := fun m (y : Lu) => x.Eliminates y ∧ y.w.length = 36 ∧ ∀ i c, i < 6 → c < 6 →
      y.w.at i c = if k < i ∧ i < m ∧ c = k then (mDiv F (x.w.at i k) (x.w.at k k)).1
        else if k < i ∧ i < m ∧ k < c ∧ c < n then luElem F x.w k i c else x.w.at i c) hk
    ⟨.refl x, hx, fun i c _ _ => ?_⟩ fun m y hkm hm ⟨helim, hlen, hat⟩ => ?_
  · rw [if_neg (by omega), if_neg (by omega)]
  · obtain ⟨helim', hlen', hat'⟩ := luRow_spec F hn hkm hm hlen
    have hpivot : ∀ c, c < 6 → y.w.at k c = x.w.at k c := fun c hc => by
      rw [hat k c (by omega) hc, if_neg (by omega), if_neg (by omega)]
    have hrow : ∀ c, c < 6 → y.w.at m c = x.w.at m c := fun c hc => by
      rw [hat m c (by omega) hc, if_neg (by omega), if_neg (by omega)]
    refine ⟨helim.trans helim', hlen', fun i c hi hc => ?_⟩
    rw [hat' i c hi hc, hat i c hi hc, luElem, hpivot k (by omega), hpivot c hc, hrow k (by omega), hrow c hc]
    by_cases him : i = m
    · subst him
      by_cases hck : c = k
      · rw [if_pos ⟨rfl, hck⟩, if_pos ⟨hkm, Nat.lt_succ_self i, hck⟩]
      · rw [if_neg fun e => hck e.2, if_neg (c := k < i ∧ i < i + 1 ∧ c = k) fun e => hck e.2.2]
        by_cases hc' : k < c ∧ c < n
        · rw [if_pos ⟨rfl, hc'⟩, if_pos ⟨hkm, Nat.lt_succ_self i, hc'⟩]
          rfl
        · rw [if_neg fun e => hc' e.2, if_neg fun e => hck e.2.2, if_neg (by omega), if_neg fun e => hc' e.2.2]
    · rw [if_neg fun e => him e.1, if_neg fun e => him e.1]
      refine if_congr ?_ rfl (if_congr ?_ rfl rfl) <;> omega

/-! ### The steps in turn -/

/-- What R172 says of step k, from state x to state y. -/
structure LuStepped (F : Fmt) (n k : Nat) (x y : Lu) (p : Nat) : Prop where
  ge : k ≤ p
  lt : p < n
  greatest : ∀ i, k ≤ i → i < n → ¬pivotGt F (x.w.at i k) (x.w.at p k) = true
  first : ∀ i, k ≤ i → i < p → pivotGt F (x.w.at p k) (x.w.at i k) = true
  swaps : y.swaps = x.swaps + (if p = k then 0 else 1)
  perm : ∀ i, i < 6 → y.perm.getD i 0 = x.perm.getD (swapIndex p k i) 0
  zero : isZero F (x.w.at (swapIndex p k k) k) = true → Raised flSG y.fl ∧ ∀ i c, i < 6 → c < 6 →
    y.w.at i c = if c = k ∧ k ≤ i ∧ i < n then 0 else x.w.at (swapIndex p k i) c
  nonzero : isZero F (x.w.at (swapIndex p k k) k) = false → ∀ i c, i < 6 → c < 6 →
    y.w.at i c = if k < i ∧ i < n ∧ c = k then
        (mDiv F (x.w.at (swapIndex p k i) k) (x.w.at (swapIndex p k k) k)).1
      else if k < i ∧ i < n ∧ k < c ∧ c < n then
        (fFma F .rne (negF F (mDiv F (x.w.at (swapIndex p k i) k) (x.w.at (swapIndex p k k) k)).1)
          (x.w.at (swapIndex p k k) c) (x.w.at (swapIndex p k i) c)).1
      else x.w.at (swapIndex p k i) c

section
variable {F : Fmt} {n k : Nat} {x : Lu}

theorem luStep_spec (hn : n ≤ 6) (hk : k < n) (hx : x.Sized) :
    (luStep F n x k).Sized ∧ (∀ f, Raised f x.fl → Raised f (luStep F n x k).fl)
      ∧ LuStepped F n k x (luStep F n x k) (luPivot F n k x.w) := by
  obtain ⟨⟨hge, hlt⟩, hgreatest, hfirst⟩ := pivot_spec F (fun i => x.w.at i k) hk
  change k ≤ luPivot F n k x.w at hge
  change luPivot F n k x.w < n at hlt
  obtain ⟨⟨hw, hp⟩, hfl, hswaps, hperm, hat⟩ := Lu.swap_spec hx (p := luPivot F n k x.w) (k := k) (by omega) (by omega)
  rw [luStep_eq]
  rw [← hfl]
  have hkk := hat k k (by omega) (by omega)
  split
  next hz =>
    rw [hkk] at hz
    obtain ⟨hlen, hval⟩ := Lu.clear_spec hn hk hw
    refine ⟨⟨hlen, hp⟩, fun f hf => hf.or_left _, hge, hlt, hgreatest, hfirst, hswaps, hperm, fun _ =>
      ⟨raised_or_self _ _, fun i c hi hc => ?_⟩, fun h => absurd (hz.symm.trans h) Bool.true_eq_false.mp⟩
    rw [hval i c hi hc, hat i c hi hc]
  next hz =>
    rw [hkk] at hz
    obtain ⟨helim, hlen, hval⟩ := luRows_spec F hn hk hw
    refine ⟨⟨hlen, by rw [helim.perm, hp]⟩, helim.flags, hge, hlt, hgreatest, hfirst, helim.swaps.trans hswaps,
      fun i hi => by rw [helim.perm, hperm i hi], fun h => absurd h hz, fun _ i c hi hc => ?_⟩
    rw [hval i c hi hc, luElem, hat i k hi (by omega), hat k k (by omega) (by omega), hat k c (by omega) hc, hat i c hi hc]

end

section
variable {F : Fmt} {n : Nat} {a : Mat}

/-- MLUP before step k. -/
def luAt (F : Fmt) (n : Nat) (a : Mat) (k : Nat) : Lu := (List.range k).foldl (luStep F n) ⟨a, List.range 6, 0, 0⟩

theorem luAt_succ (F : Fmt) (n : Nat) (a : Mat) (k : Nat) : luAt F n a (k + 1) = luStep F n (luAt F n a k) k := by
  rw [luAt, List.range_succ (n := k), List.foldl_concat]
  rfl

theorem luAt_sized (hn : n ≤ 6) (ha : a.length = 36) {k : Nat} (hk : k ≤ n) : (luAt F n a k).Sized := by
  induction k with
  | zero => exact ⟨ha, rfl⟩
  | succ k ih =>
    rw [luAt_succ]
    exact (luStep_spec hn hk (ih (by omega))).1

theorem luAt_stepped (hn : n ≤ 6) (ha : a.length = 36) {k : Nat} (hk : k < n) :
    LuStepped F n k (luAt F n a k) (luAt F n a (k + 1)) (luPivot F n k (luAt F n a k).w) := by
  rw [luAt_succ]
  exact (luStep_spec hn hk (luAt_sized hn ha hk.le)).2.2

/-- A flag that a step has raised stands at the end. -/
theorem luAt_raised (hn : n ≤ 6) (ha : a.length = 36) {f : Flags} {k m : Nat} (hkm : k ≤ m) (hm : m ≤ n)
    (h : Raised f (luAt F n a k).fl) : Raised f (luAt F n a m).fl := by
  induction m, hkm using Nat.le_induction with
  | base => exact h
  | succ m hkm ih =>
    rw [luAt_succ]
    exact (luStep_spec hn hm (luAt_sized hn ha (by omega))).2.1 f (ih (by omega))

end

/-- A permutation word holds entry i at its bits 4i and up. -/
theorem permWord_eq (perm : List Nat) :
    permWord perm = ((List.range perm.length).map (fun i => perm.getD i 0 * 16 ^ i)).sum := by
  induction perm with
  | nil => rfl
  | cons p r ih =>
    have hshift : (List.range r.length).map (fun i => r.getD i 0 * 16 ^ (i + 1))
        = (List.range r.length).map (fun i => 16 * (r.getD i 0 * 16 ^ i)) :=
      List.map_congr_left fun i _ => by rw [Nat.pow_succ]; ring
    rw [List.length_cons, List.range_succ_eq_map, List.map_cons, List.map_map, List.sum_cons]
    change p + 16 * permWord r = p * 16 ^ 0 + ((List.range r.length).map (fun i => r.getD i 0 * 16 ^ (i + 1))).sum
    rw [hshift, List.sum_map_mul_left, ih, Nat.pow_zero, Nat.mul_one]

/-- MDET multiplies the diagonal (R175). -/
theorem detM_fst (F : Fmt) (n : Nat) (a : Mat) : (detM F n a).1
    = (List.range n).foldl (fun v k => (fMul F .rne v ((luM F n a).w.at k k)).1)
      (encFin F (decide ((luM F n a).swaps % 2 = 1)) 1 0) :=
  (List.foldl_hom Prod.fst fun _ _ => rfl).symm

end Sys2Proof.Machine
end

section
/-! Triangular solves: MLUS and MTRS (R173, R174, R356). Part of O20. -/

namespace Sys2Proof.Machine

section
variable {F : Fmt} {n : Nat} {f : List Nat × Flags → Nat → List Nat × Flags} {out coef : Nat → Nat → Nat}
  {pairs : Nat → List Nat} {y0 : List Nat × Flags}

/-- Each entry in turn becomes what `out` makes of its sum with the entries that `pairs` names. -/
def SolvesAt (F : Fmt) (out coef : Nat → Nat → Nat) (pairs : Nat → List Nat)
    (f : List Nat × Flags → Nat → List Nat × Flags) : Prop :=
  ∀ y i, (f y i).1 = y.1.set i (out i (sumF F (y.1.getD i 0) ((pairs i).map (fun k => (coef i k, y.1.getD k 0)))))

/-- Entry i of `y` solves its row, of right side b. -/
def SolvedAt (F : Fmt) (out coef : Nat → Nat → Nat) (pairs : Nat → List Nat) (b : Nat) (y : List Nat) (i : Nat) : Prop :=
  y.getD i 0 = out i (sumF F b ((pairs i).map (fun k => (coef i k, y.getD k 0))))

/-- A row stays solved while the entries it speaks of stand. -/
theorem SolvedAt.congr {b i : Nat} {y z : List Nat} (h : SolvedAt F out coef pairs b y i)
    (hi : z.getD i 0 = y.getD i 0) (hk : ∀ k ∈ pairs i, z.getD k 0 = y.getD k 0) :
    SolvedAt F out coef pairs b z i := by
  have hmap : (pairs i).map (fun k => (coef i k, z.getD k 0)) = (pairs i).map (fun k => (coef i k, y.getD k 0)) :=
    List.map_congr_left fun k hmem => by rw [hk k hmem]
  unfold SolvedAt
  rw [hi, hmap]
  exact h

theorem SolvesAt.entry (hf : SolvesAt F out coef pairs f) {y : List Nat × Flags} {i k : Nat} (hi : i < y.1.length)
    (hk : k ≠ i) : (f y i).1.getD k 0 = y.1.getD k 0 := by
  rw [hf, getD_set _ _ _ _ hi, if_neg hk]

theorem SolvesAt.solved (hf : SolvesAt F out coef pairs f) {y : List Nat × Flags} {i : Nat} (hi : i < y.1.length)
    (hpairs : i ∉ pairs i) : SolvedAt F out coef pairs (y.1.getD i 0) (f y i).1 i := by
  have hmap : (pairs i).map (fun k => (coef i k, (f y i).1.getD k 0)) = (pairs i).map (fun k => (coef i k, y.1.getD k 0)) :=
    List.map_congr_left fun k hmem => by rw [hf.entry hi (ne_of_mem_of_not_mem hmem hpairs)]
  unfold SolvedAt
  rw [hmap, hf, getD_set _ _ _ _ hi, if_pos rfl]

/-- Forward substitution: each row speaks of earlier entries. -/
theorem forward_solved (hf : SolvesAt F out coef List.range f) (hlen : y0.1.length = n) :
    ((List.range n).foldl f y0).1.length = n
      ∧ ∀ i, i < n → SolvedAt F out coef List.range (y0.1.getD i 0) ((List.range n).foldl f y0).1 i := by
  have h := foldl_range_inv (f := f) (n := n) (b := y0) (I := fun m (y : List Nat × Flags) => y.1.length = n
    ∧ (∀ i, i < m → SolvedAt F out coef List.range (y0.1.getD i 0) y.1 i)
    ∧ ∀ i, m ≤ i → y.1.getD i 0 = y0.1.getD i 0) ⟨hlen, fun i hi => absurd hi (Nat.not_lt_zero i), fun _ _ => rfl⟩
    fun m y hm ⟨hlen, hsolved, hleft⟩ => ⟨?_, fun i hi => ?_, fun i hi => ?_⟩
  · exact ⟨h.1, h.2.1⟩
  · rw [hf, List.length_set, hlen]
  · rcases Nat.lt_succ_iff_lt_or_eq.mp hi with hi | rfl
    · refine (hsolved i hi).congr (hf.entry (hlen ▸ hm) (by omega)) fun k hk => hf.entry (hlen ▸ hm) ?_
      have := List.mem_range.mp hk
      omega
    · rw [← hleft i le_rfl]
      exact hf.solved (hlen ▸ hm) List.not_mem_range_self
  · rw [hf.entry (hlen ▸ hm) (by omega), hleft i (by omega)]

/-- Backward substitution: each row speaks of later entries. -/
theorem backward_solved (hf : SolvesAt F out coef (aboveOf · n) f) (hlen : y0.1.length = n) :
    ∀ i, i < n → SolvedAt F out coef (aboveOf · n) (y0.1.getD i 0) ((List.range n).reverse.foldl f y0).1 i := by
  have hmem : ∀ {i k : Nat}, k ∈ aboveOf i n → i < k := fun h => of_decide_eq_true (List.mem_filter.mp h).2
  have h := foldl_reverse_inv (f := f) (n := n) (b := y0) (I := fun m (y : List Nat × Flags) => y.1.length = n
    ∧ (∀ i, m ≤ i → i < n → SolvedAt F out coef (aboveOf · n) (y0.1.getD i 0) y.1 i)
    ∧ ∀ i, i < m → y.1.getD i 0 = y0.1.getD i 0) ⟨hlen, fun i hlo hhi => absurd hhi (by omega), fun _ _ => rfl⟩
    fun m y hm ⟨hlen, hsolved, hleft⟩ => ⟨?_, fun i hlo hhi => ?_, fun i hi => ?_⟩
  · exact fun i hi => h.2.1 i (Nat.zero_le i) hi
  · rw [hf, List.length_set, hlen]
  · rcases Nat.lt_or_eq_of_le hlo with hlt | rfl
    · refine (hsolved i hlt hhi).congr (hf.entry (hlen ▸ hm) (by omega)) fun k hk => hf.entry (hlen ▸ hm) ?_
      have := hmem hk
      omega
    · rw [← hleft m (Nat.lt_succ_self m)]
      exact hf.solved (hlen ▸ hm) fun h => absurd (hmem h) (lt_irrefl m)
  · rw [hf.entry (hlen ▸ hm) (by omega), hleft i (by omega)]

end

/-! ### The solves -/

theorem column_getD {n i : Nat} (g : Nat → Nat) (hi : i < n) : ((List.range n).map g).getD i 0 = g i := by
  simp [List.getD_eq_getElem?_getD, hi]

theorem column_length {n : Nat} (g : Nat → Nat) : ((List.range n).map g).length = n := by
  rw [List.length_map, List.length_range]

theorem solveAt_none (F : Fmt) (y : List Nat × Flags) (i : Nat) (xs : List (Nat × Nat)) :
    (solveAt F y i xs none).1 = y.1.set i (sumF F (y.1.getD i 0) xs) := by
  rw [← fmaSum_fst F (y.1.getD i 0, 0)]
  rfl

theorem solveAt_some (F : Fmt) (y : List Nat × Flags) (i : Nat) (xs : List (Nat × Nat)) (d : Nat) :
    (solveAt F y i xs (some d)).1 = y.1.set i (mDiv F (sumF F (y.1.getD i 0) xs) d).1 := by
  rw [← fmaSum_fst F (y.1.getD i 0, 0)]
  rfl

theorem solveAt_raised {f : Flags} {F : Fmt} {y : List Nat × Flags} {i : Nat} {xs : List (Nat × Nat)} {d : Option Nat}
    (h : Raised f y.2) : Raised f (solveAt F y i xs d).2 := by
  cases d with
  | none => exact h.or_left _
  | some d => exact (h.or_left _).or_left _

section
variable (F : Fmt) (n : Nat) (a b : Mat) (perm : Word) (j : Nat)

/-- Right side i of MLUS: that of the row which the permutation names (R356). -/
def lusRight (i : Nat) : Nat := if perm.toNat / 16 ^ i % 16 < 6 then b.at (perm.toNat / 16 ^ i % 16) j else 0

/-- The forward pass of MLUS, by the unit lower triangle. -/
def lusForward : List Nat × Flags := (List.range n).foldl (fun y i =>
  solveAt F y i ((List.range i).map (fun k => (negF F (a.at i k), y.1.getD k 0))) none)
  ((List.range n).map (lusRight b perm j), 0)

/-- A row of the backward pass of MLUS. -/
def lusBack (y : List Nat × Flags) (i : Nat) : List Nat × Flags :=
  if isZero F (a.at i i) then
    ((solveAt F y i ((aboveOf i n).map (fun k => (negF F (a.at i k), y.1.getD k 0))) (some (a.at i i))).1,
      (solveAt F y i ((aboveOf i n).map (fun k => (negF F (a.at i k), y.1.getD k 0))) (some (a.at i i))).2 ||| flSG)
  else solveAt F y i ((aboveOf i n).map (fun k => (negF F (a.at i k), y.1.getD k 0))) (some (a.at i i))

theorem lusCol_eq : lusCol F n a b perm j = (List.range n).reverse.foldl (lusBack F n a) (lusForward F n a b perm j) := rfl

theorem lusBack_solves : SolvesAt F (fun i t => (mDiv F t (a.at i i)).1) (fun i k => negF F (a.at i k)) (aboveOf · n)
    (lusBack F n a) := by
  intro y i
  rw [lusBack, apply_ite Prod.fst, ite_self, solveAt_some]

theorem lusForward_spec : (lusForward F n a b perm j).1.length = n ∧ ∀ i, i < n →
    SolvedAt F (fun _ t => t) (fun i k => negF F (a.at i k)) List.range (lusRight b perm j i)
      (lusForward F n a b perm j).1 i := by
  obtain ⟨hlen, hall⟩ := forward_solved (F := F) (n := n) (out := fun _ t => t) (coef := fun i k => negF F (a.at i k))
    (y0 := ((List.range n).map (lusRight b perm j), 0)) (f := fun y i =>
      solveAt F y i ((List.range i).map (fun k => (negF F (a.at i k), y.1.getD k 0))) none)
    (fun y i => solveAt_none ..) (column_length _)
  refine ⟨hlen, fun i hi => ?_⟩
  rw [← column_getD (lusRight b perm j) hi]
  exact hall i hi

theorem lusCol_spec : ∃ y : Nat → Nat,
    (∀ i, i < n → y i = sumF F (lusRight b perm j i) ((List.range i).map (fun k => (negF F (a.at i k), y k))))
    ∧ ∀ i, i < n → (lusCol F n a b perm j).1.getD i 0 = (mDiv F (sumF F (y i)
      ((aboveOf i n).map (fun k => (negF F (a.at i k), (lusCol F n a b perm j).1.getD k 0)))) (a.at i i)).1 := by
  obtain ⟨hlen, hforward⟩ := lusForward_spec F n a b perm j
  exact ⟨fun i => (lusForward F n a b perm j).1.getD i 0, hforward, backward_solved (lusBack_solves F n a) hlen⟩

/-- MLUS raises SG where a pivot is ±0. -/
theorem lusCol_singular {i : Nat} (hi : i < n) (hz : isZero F (a.at i i) = true) :
    Raised flSG (lusCol F n a b perm j).2 := by
  rw [lusCol_eq]
  refine foldl_reaches (I := fun _ => True) (P := fun y : List Nat × Flags => Raised flSG y.2) (x := i) (fun _ _ _ => trivial)
    (fun y k h => ?_) (fun y _ => ?_) (List.mem_reverse.mpr (List.mem_range.mpr hi)) trivial
  · unfold lusBack
    split
    · exact (solveAt_raised h).or_left _
    · exact solveAt_raised h
  · rw [lusBack, if_pos hz]
    exact raised_or_self _ _

end

section
variable (F : Fmt) (n : Nat) (l : Mat)

theorem forwardCol_spec {y0 : List Nat × Flags} (hlen : y0.1.length = n) :
    (forwardCol F n l y0).1.length = n ∧ ∀ i, i < n →
      SolvedAt F (fun i t => (mDiv F t (l.at i i)).1) (fun i k => negF F (l.at i k)) List.range (y0.1.getD i 0)
        (forwardCol F n l y0).1 i :=
  forward_solved (fun _ _ => solveAt_some ..) hlen

theorem backwardCol_spec {y0 : List Nat × Flags} (hlen : y0.1.length = n) : ∀ i, i < n →
    SolvedAt F (fun i t => (mDiv F t (l.at i i)).1) (fun i k => negF F (l.at k i)) (aboveOf · n) (y0.1.getD i 0)
      (backwardCol F n l y0).1 i :=
  backward_solved (fun _ _ => solveAt_some ..) hlen

/-- A column of right sides, solved forward. -/
theorem forwardCol_column (g : Nat → Nat) : ∀ i, i < n →
    SolvedAt F (fun i t => (mDiv F t (l.at i i)).1) (fun i k => negF F (l.at i k)) List.range (g i)
      (forwardCol F n l ((List.range n).map g, 0)).1 i := fun i hi => by
  rw [← column_getD g hi]
  exact (forwardCol_spec F n l (column_length g)).2 i hi

/-- A column of right sides, solved backward. -/
theorem backwardCol_column (g : Nat → Nat) : ∀ i, i < n →
    SolvedAt F (fun i t => (mDiv F t (l.at i i)).1) (fun i k => negF F (l.at k i)) (aboveOf · n) (g i)
      (backwardCol F n l ((List.range n).map g, 0)).1 i := fun i hi => by
  rw [← column_getD g hi]
  exact backwardCol_spec F n l (column_length g) i hi

end

end Sys2Proof.Machine
end

section
/-! The factorisations and solves of page 5: their windows, flags and weights (R171–R176). With the lemmas about their steps,
O20. -/

namespace Sys2Proof.Machine

/-- R171's factor: columns up to the first that fails, NaNs from there on. -/
theorem cholM_spec {F : Fmt} (hF : F ∈ [fp32, fp64]) {n : Nat} (hn : n ≤ 6) (a : Mat) :
    ∃ f, f ≤ n ∧ (∀ c, c < f → CholColumn F n a (cholM F n a).1 c)
      ∧ (f < n → fCmp F (cholPivot F a (cholM F n a).1 f) 0 ≠ some .gt ∧ Raised flNP (cholM F n a).2
        ∧ ∀ i m, f ≤ m → m ≤ i → i < n → (cholM F n a).1.at i m = F.canonNaN)
      ∧ ∀ i m, i < 6 → m < 6 → (i < m ∨ n ≤ i) → (cholM F n a).1.at i m = 0 := by
  obtain ⟨-, hzeros, f, hfn, hcols, hgo, hstopped⟩ := cholM_at (a := a) hF hn
  refine ⟨f, hfn, hcols, fun hlt => ?_, hzeros⟩
  obtain ⟨-, hrefused, hflag, hfilled⟩ := hstopped (Bool.of_not_eq_false fun e => hlt.ne (hgo e))
  exact ⟨hrefused, hflag, hfilled⟩

/-- A NaN is greater than every number, and numbers stand in the order of their magnitudes (R172). -/
theorem greater_iff (F : Fmt) (x y : Nat) : (F.isNaN y = false ∧ (F.isNaN x = true
    ∨ fCmp F (x % 2 ^ (F.width - 1)) (y % 2 ^ (F.width - 1)) = some .gt)) ↔ pivotGt F x y = true := by
  unfold pivotGt
  cases F.isNaN y <;> cases F.isNaN x <;> simp

/-- Settles O20: each factorisation is a fold of steps; what a step writes stands through the later ones, and the pivots of
MLUP are the greatest of a linear order of magnitudes with NaNs on top. -/
theorem matrixFactorisations : Obligations.MatrixFactorisations := by
  refine ⟨fun g d a b vp r o mode sh nf => ⟨?_, ?_, ?_, ?_, ?_⟩, fun F hF n A B perm j hn hA => ?_⟩
  · exact fun s iss w p h => alu_ok _ h
  · exact fun s iss w p h => alu_ok _ h
  · exact fun s iss w p h => alu_ok _ h
  · exact fun s iss w p h => alu_ok _ h
  · exact fun s iss w p h => alu_ok _ h
  · intro neg size sum div below above greater forward backward
    have hgreater : ∀ x y, greater x y ↔ pivotGt F x y = true := greater_iff F
    refine ⟨?chol, ?lu, ?lus, ?trs⟩
    case chol =>
      obtain ⟨f, hfn, hcols, hstopped, hzeros⟩ := cholM_spec hF hn A
      exact ⟨f, hfn, fun c hc => ⟨(hcols c hc).positive, (hcols c hc).root, (hcols c hc).below⟩, hstopped, hzeros⟩
    case lu =>
      have hperm : (luM F n A).perm.length = 6 := (luAt_sized hn hA le_rfl).2
      refine ⟨?_, ⟨fun k => (luAt F n A k).w, fun k => (luAt F n A k).perm, fun k => (luAt F n A k).swaps,
        rfl, rfl, rfl, rfl, rfl, rfl, fun k hk => ?_⟩, detM_fst F n A⟩
      · rw [permWord_eq, hperm]
      · obtain ⟨hge, hlt, hgreatest, hfirst, hswaps, hperm, hzero, hnonzero⟩ := luAt_stepped hn hA hk
        refine ⟨_, hge, hlt, fun i hlo hhi => mt (hgreater _ _).mp (hgreatest i hlo hhi),
          fun i hlo hhi => (hgreater _ _).mpr (hfirst i hlo hhi), hswaps, hperm, fun hz => ?_, fun hz => ?_⟩
        · obtain ⟨hflag, hat⟩ := hzero (decide_eq_true hz)
          exact ⟨luAt_raised hn hA hk le_rfl hflag, hat⟩
        · exact hnonzero (decide_eq_false hz)
    case lus =>
      exact ⟨lusCol_spec F n A B perm j, fun i hi hz => lusCol_singular F n A B perm j hi (decide_eq_true hz)⟩
    case trs =>
      exact ⟨forwardCol_column F n A (fun i => B.at i j), backwardCol_column F n A (fun i => B.at i j), _,
        forwardCol_column F n A (fun i => B.at i j),
        backwardCol_spec F n A (forwardCol_spec F n A (column_length fun i => B.at i j)).1⟩

end Sys2Proof.Machine
end
